-- ==== Sys2Proof/Word.lean ====
section
/-! DEFINITION. The word types of the VG-96, the names the manual gives to fixed sets (streams, subcodes, formats,
causes), and the small records that instructions and steps carry. -/

namespace Sys2Proof

/-- A 64-bit register or instruction word (R3, R14). -/
abbrev Word := BitVec 64
/-- A 32-bit element (R14). -/
abbrev Elem := BitVec 32
/-- A byte (R3). -/
abbrev Byte := BitVec 8
/-- A program counter: a byte address in 128 KiB of instruction memory (R86). -/
abbrev Pc := BitVec 17

/-- Memory: (address, byte) pairs, addresses strictly rising, no entry equal to what an unlisted address reads as. -/
abbrev Memory := List (Nat × BitVec 8)

/-- The four sequencers of a core (01_machine, "A core"). -/
inductive StreamId where
  | k | l | c | s
deriving DecidableEq, Repr, Inhabited

/-- Who issues: K has two hardware contexts (R87). -/
inductive Issuer where
  | kTask | kFirm | l | c | s
deriving DecidableEq, Repr, Inhabited

/-- The header of every instruction word: IDLE, the token bits and the guard (R37, R48). -/
structure Hdr where
  idle : BitVec 10
  wp   : Bool
  wn   : Bool
  sp   : Bool
  sn   : Bool
  pq   : BitVec 4
  neg  : Bool
deriving DecidableEq, Repr, Inhabited

/-- The subcodes of `alu` (R51, R90). -/
inductive AluFn where
  | add | sub | and | or | xor | andn | shl | shr | sar | rol | mul | mulh | mulhz | div | divz | rem | remz
  | min | max | minz | maxz | clz | ctz | popc | bswap | sxb | sxh | sxw
deriving DecidableEq, Repr, Inhabited

/-- The relations of `cmp`, `cmpi` and `icmp` (R51, R93). -/
inductive CmpCc where
  | eq | ne | lt | ge | ltz | gez
deriving DecidableEq, Repr, Inhabited

/-- The subcodes of `plog` (R51, R94). -/
inductive PlogFn where
  | pand | por | pxor | pandn | pmov
deriving DecidableEq, Repr, Inhabited

/-- The operations of `amo` (R51, R134). -/
inductive AmoOp where
  | swap | add | and | or | xor | min | max | minz | maxz | cas
deriving DecidableEq, Repr, Inhabited

/-- The kinds of `fence` (R51, R137). -/
inductive FenceKind where
  | acq | rel | acqrel | sc
deriving DecidableEq, Repr, Inhabited

/-- The scopes of R44. -/
inductive Scope where
  | core | die | device | system
deriving DecidableEq, Repr, Inhabited

/-- The subcodes of `fop` (R51, R197). -/
inductive FopFn where
  | fadd | fsub | fmul | fmin | fmax | fsgn | fabs | fneg
deriving DecidableEq, Repr, Inhabited

/-- The relations of `fcmp` (R51, R201). -/
inductive FcmpCc where
  | feq | flt | fle | fun_
deriving DecidableEq, Repr, Inhabited

/-- The subcodes of `iop` (R51, R203). -/
inductive IopFn where
  | add | sub | and | or | xor | shl | shr | sar | mul | mulh | min | max | minz | maxz
deriving DecidableEq, Repr, Inhabited

/-- The operations of `vop` and `vsc` (R51; the two number them differently). -/
inductive VecOp where
  | add | sub | mul | min | max
deriving DecidableEq, Repr, Inhabited

/-- The subcodes of `vun` (R51, R230). -/
inductive VunFn where
  | neg | abs | exp | log | rcp | rsq | sqrt | tanh | sig | silu
deriving DecidableEq, Repr, Inhabited

/-- The subcodes of `vred` (R51, R233). -/
inductive VredFn where
  | sum | max | min | amax | amin
deriving DecidableEq, Repr, Inhabited

/-- The relations of `vcmp` (R51, R235). -/
inductive VcmpCc where
  | eq | ne | lt | le | gt | ge
deriving DecidableEq, Repr, Inhabited

/-- The subcodes of `vbit` (R51, R243). -/
inductive VbitFn where
  | set | clr | tst | cnt
deriving DecidableEq, Repr, Inhabited

/-- The forms of `wset` (R245). -/
inductive WsetFn where
  | image | base | count | stride | fmt | rowf
deriving DecidableEq, Repr, Inhabited

/-- The forms of `thrd` (R338). -/
inductive ThrdFn where
  | owner | notafter | uses | charge | meter | rsv | brk
deriving DecidableEq, Repr, Inhabited

/-- The tests of `mcchk` (R305, R317). -/
inductive McchkFn where
  | const | ident | dead
deriving DecidableEq, Repr, Inhabited

/-- The size codes of formats KM and A (R43). -/
inductive Sz where
  | b | bz | h | hz | w | d
deriving DecidableEq, Repr, Inhabited

/-- The formats of R58; `none` marks an unused operand or an unconfigured window or furrow. -/
inductive Fmt where
  | none | mxint4 | mxint6 | mxint8 | int8 | e4m3 | e5m2 | fp16 | bf16 | fp32 | int32 | int16 | int64 | bitmask
deriving DecidableEq, Repr, Inhabited

/-- The rounding modes of R68. -/
inductive RMode where
  | rne | rz | ru | rd | sr
deriving DecidableEq, Repr, Inhabited

/-- A rounding mode with the overflow bit of R70. -/
structure Rnd where
  mode : RMode
  ovf  : Bool
deriving DecidableEq, Repr, Inhabited

/-- An element operand (R46). -/
inductive EOp where
  | e (n : Fin 768)
  | lq (n : Fin 8)
  | sq (n : Fin 8)
  | iq (n : Fin 4)
  | zero
  | one
deriving DecidableEq, Repr, Inhabited

/-- The addend of `fma` and `fnma` (R198): the register ed, or the head of a load queue. -/
inductive Addend where
  | ed
  | lq (n : Fin 8)
deriving DecidableEq, Repr, Inhabited

/-- The count of a `loop` (R99). -/
inductive LoopSrc where
  | imm (n : BitVec 32)
  | reg (n : BitVec 6)
  | ereg (n : Fin 768)
deriving DecidableEq, Repr, Inhabited

/-- A queue named by `qfl` or `qln` (R166, R175). -/
inductive QName where
  | lq (n : Fin 8)
  | sq (n : Fin 8)
  | iq (n : Fin 4)
deriving DecidableEq, Repr, Inhabited

/-- The destination of `qln` (R166): a register on L and S, an element register on C. -/
inductive QlnDst where
  | areg (n : BitVec 6)
  | ereg (n : Fin 768)
deriving DecidableEq, Repr, Inhabited

/-- What a headland instruction names: a window or a furrow (R291). -/
inductive HTarget where
  | win (w : BitVec 5)
  | fur (f : BitVec 4)
deriving DecidableEq, Repr, Inhabited

/-- The ports of R17. -/
inductive Port where
  | mx | mxf | cp | mc | fx | cr | px | tq | ev
deriving DecidableEq, Repr, Inhabited

/-- The token FIFOs of R45. -/
inductive Fifo where
  | kl | lk | lc | cl | cs | sc | sk | ks | kc | ck
deriving DecidableEq, Repr, Inhabited

/-- The special registers of R111. -/
inductive SpecialReg where
  | core | die | ctx | time | ptp | tvec | tframe | cause | epc | status | share | rot | arg | lidx | budget
deriving DecidableEq, Repr, Inhabited

/-- The roles of a loop-nest level (R260). -/
inductive Role where
  | m | n | k | outer
deriving DecidableEq, Repr, Inhabited

/-- The fusion modes (R254). -/
inductive Fusion where
  | quad | f1x4 | f2x2 | f4x1
deriving DecidableEq, Repr, Inhabited

/-- The causes of R144. -/
inductive Cause where
  | nullWord | undef | wrongStream | reservedField | priv | align | page | prot | guard | eccUc | parityLasting
  | checker | tokenOvf | queueOvf | fmtEmpty | fmtBad | hlMismatch | hlStale | mcStates | mcSlot
  | thNoTerms | thLicensee | thExpired | thExhausted | thNoBracket | thNested | cpFault | fxFault | window | rot
  | budget | swTrap | breakPt | sysCall | timer | attn | preempt | enclosure
deriving DecidableEq, Repr, Inhabited

/-- The memory tiers of R20. -/
inductive Tier where
  | hbm | cxl | host
deriving DecidableEq, Repr, Inhabited

/-! ### Records that steps other than instructions carry -/

/-- How the checker core compares a checked action (R119). -/
inductive CheckOutcome where
  | confirmed | transient | lasting
deriving DecidableEq, Repr, Inhabited

/-- What a soft error strikes (R120, R164, R176, R288, R289, R264, R310). -/
inductive ErrorTarget where
  | register (i : Issuer) (n : Nat) (flip : BitVec 64) (lasting : Bool)
  | element (n : Nat) (flip : BitVec 32) (lasting : Bool)
  | window (n : BitVec 5) (flip : BitVec 64) (lasting : Bool)
  | queue (q : QName) (slot : Nat)
  | scratchpad (off : Nat) (flip : BitVec 8)
  | scratchpadLost (off : Nat) (lasting : Bool)
  | memoryLost (pa : Nat) (lasting : Bool)
  | accumulator (a : Nat) (i : Nat) (flip : BitVec 32)
  | accumulatorLost (a : Nat) (lasting : Bool)
  | record (base : Nat)
  | mapSlot (slot : Nat) (lasting : Bool)
  | latch (i : Nat) (lasting : Bool)
  | schedWord (core copy addr : Nat)
  | journal (die : Nat)
  | queueTable (core : Nat)
deriving DecidableEq, Repr, Inhabited

/-- One level of the loop table of a launch (R24). -/
structure LoopLevel where
  count : BitVec 32
  kind  : Nat
  base  : BitVec 32
  step  : BitVec 32
deriving DecidableEq, Repr, Inhabited

/-- One page translation (R19, R20): context, virtual page, physical page, tier, permissions. -/
structure PageEntry where
  ctx   : Nat
  vbase : Nat
  pbase : Nat
  tier  : Tier
  r     : Bool
  w     : Bool
deriving DecidableEq, Repr, Inhabited

/-- A linked image: its sections, its data at the physical places the loader has given it, the translations that map them
for the context, allocations, initial tokens, handlers and noise seeds (channel, reseed index, seed) (R386, R389, R390). -/
structure Image where
  handle   : Nat
  ctx      : Nat
  kCode    : List (BitVec 64)
  lCode    : List (BitVec 64)
  cCode    : List (BitVec 64)
  sCode    : List (BitVec 64)
  data     : List (Nat × List (BitVec 8))
  pages    : List PageEntry
  guards   : List Nat
  allocEnd : Nat
  tokens   : List (Fifo × Nat)
  lHandler : BitVec 32
  cHandler : BitVec 32
  sHandler : BitVec 32
  seeds    : List (Nat × Nat × List (BitVec 8))
deriving DecidableEq, Repr, Inhabited

/-- The message or the buffer at the far side of a match (R356): its length; `red`: a buffer of `fxred`. -/
structure FarSide where
  len : Nat
  red : Bool
deriving DecidableEq, Repr, Inhabited

/-- A linked service image (R434): the file whose digest is measured, its .kstream, its data at the places in HBM that the
loader has given it, and the translations that map them for the service core alone. -/
structure ServiceImage where
  file  : List (BitVec 8)
  kCode : List (BitVec 64)
  data  : List (Nat × List (BitVec 8))
  pages : List PageEntry
deriving DecidableEq, Repr, Inhabited

/-- A launch packet (R399), its fields as the layout names them. -/
structure Packet where
  kind   : Nat
  cls    : Nat
  flags  : BitVec 8
  ctx    : Nat
  image  : Nat
  zeroOk : Bool
  lid    : BitVec 64
  start  : Nat
  model  : Nat
  layer  : Nat
  pass   : Nat
  cpl    : BitVec 64
  loops  : List LoopLevel
  argp   : BitVec 64
  args   : List (BitVec 64)
deriving DecidableEq, Repr, Inhabited

/-- One placement of a task of a launch on this core (R22, R24, R25). -/
structure Placement where
  lid      : BitVec 64
  ordinals : List Nat
  group    : Nat
  cores    : List Nat
deriving DecidableEq, Repr, Inhabited

/-- Management kind 2 (R415, R439): an enclosure, its Sluice and the contexts it binds. -/
structure EnclosureMsg where
  num   : Nat
  base  : Nat
  pages : Nat
  cxlBase : Nat
  cxlLen  : Nat
  rate  : Nat
  burst : Nat
  ctxs  : List Nat
deriving DecidableEq, Repr, Inhabited

/-- Management kind 3 (R415, R416): a model. -/
structure ModelMsg where
  model  : Nat
  layers : Nat
  table  : Nat
  encl   : Nat
deriving DecidableEq, Repr, Inhabited

/-- Management kind 5 (R421): a runtime firmware image as staged: the code of the K firmware contexts and of the scheduler
cores, its native save layout, the layouts that it converts, and its Ed25519 signature. -/
structure FirmwareMsg where
  code      : List (BitVec 64)
  sched     : List (BitVec 64)
  layout    : Nat
  converts  : List Nat
  sig       : List (BitVec 8)
deriving DecidableEq, Repr, Inhabited

/-- Who sends a unit of egress through a Sluice (R439). -/
inductive EgressUser where
  | sStore | kAction | copy | mce | fabric | host
deriving DecidableEq, Repr, Inhabited

/-- The KV operations of R364 and R365. -/
inductive KvOp where
  | probe | acquire | insert | refAdd | refDrop | evict | alloc | free | release | ack
deriving DecidableEq, Repr, Inhabited

end Sys2Proof
end

