-- ==== Sys2Proof/Machine/Num.lean ====
section
/-! DEFINITION. Number formats and arithmetic (chapter 03): exact values, the rounding of R68 to R70, the conversions of
R71, and the FP32 operations that the other chapters use. Arithmetic is exact on rationals; only a rounding narrows. -/

namespace Sys2Proof.Machine

/-- An exact value: NaN, an infinity, or (-1)^neg * p / q with q > 0; a zero keeps its sign. -/
inductive Ex where
  | nan
  | inf (neg : Bool)
  | fin (neg : Bool) (p q : Nat)
deriving DecidableEq, Repr, Inhabited

/-- m * 2^e. -/
def Ex.dyadic (neg : Bool) (m : Nat) (e : Int) : Ex :=
  if 0 ≤ e then .fin neg (m * 2 ^ e.toNat) 1 else .fin neg m (2 ^ (-e).toNat)

def Ex.ofInt (i : Int) : Ex := .fin (decide (i < 0)) i.natAbs 1

def Ex.isNan : Ex → Bool
  | .nan => true
  | _ => false
def Ex.isFin : Ex → Bool
  | .fin .. => true
  | _ => false
def Ex.isZero : Ex → Bool
  | .fin _ p _ => p == 0
  | _ => false
def Ex.isNeg : Ex → Bool
  | .nan => false
  | .inf s => s
  | .fin s _ _ => s

def Ex.neg : Ex → Ex
  | .nan => .nan
  | .inf s => .inf (!s)
  | .fin s p q => .fin (!s) p q
def Ex.abs : Ex → Ex
  | .nan => .nan
  | .inf _ => .inf false
  | .fin _ p q => .fin false p q

/-- The signed numerator. -/
def signedOf (s : Bool) (p : Nat) : Int := if s then -(p : Int) else p

/-- Exact sum. `rd`: the mode is RD, which gives a zero sum of opposite signs the sign - (R68). -/
def Ex.add (rd : Bool) : Ex → Ex → Ex
  | .nan, _ => .nan
  | _, .nan => .nan
  | .inf s, .inf t => if s == t then .inf s else .nan
  | .inf s, _ => .inf s
  | _, .inf t => .inf t
  | .fin s p q, .fin t p' q' =>
    let n := signedOf s (p * q') + signedOf t (p' * q)
    if n = 0 then .fin (if p == 0 && p' == 0 && s == t then s else rd) 0 1
    else .fin (decide (n < 0)) n.natAbs (q * q')

def Ex.sub (rd : Bool) (x y : Ex) : Ex := Ex.add rd x y.neg

/-- Exact product; zero times infinity is NaN. -/
def Ex.mul : Ex → Ex → Ex
  | .nan, _ => .nan
  | _, .nan => .nan
  | .inf s, y => if y.isZero then .nan else .inf (s != y.isNeg)
  | x, .inf t => if x.isZero then .nan else .inf (x.isNeg != t)
  | .fin s p q, .fin t p' q' => .fin (s != t) (p * p') (q * q')

/-- Exact quotient. -/
def Ex.div : Ex → Ex → Ex
  | .nan, _ => .nan
  | _, .nan => .nan
  | .inf _, .inf _ => .nan
  | .inf s, .fin t _ _ => .inf (s != t)
  | .fin s _ _, .inf t => .fin (s != t) 0 1
  | .fin s p q, .fin t p' q' =>
    if p' = 0 then (if p = 0 then .nan else .inf (s != t)) else .fin (s != t) (p * q') (q * p')

/-- The order of numbers: `none` when one is NaN. -/
def Ex.cmp : Ex → Ex → Option Ordering
  | .nan, _ => none
  | _, .nan => none
  | .inf s, .inf t => some (if s == t then .eq else if s then .lt else .gt)
  | .inf s, _ => some (if s then .lt else .gt)
  | _, .inf t => some (if t then .gt else .lt)
  | .fin s p q, .fin t p' q' => some (compare (signedOf s (p * q')) (signedOf t (p' * q)))

def Ex.lt (x y : Ex) : Bool := Ex.cmp x y == some .lt
def Ex.eqv (x y : Ex) : Bool := Ex.cmp x y == some .eq
def Ex.le (x y : Ex) : Bool := Ex.lt x y || Ex.eqv x y

/-- The lesser and the greater (R197): -0 counts below +0; NaN if either is NaN. -/
def Ex.min (x y : Ex) : Ex :=
  if x.isNan || y.isNan then .nan else if x.lt y || (x.eqv y && x.isNeg) then x else y
def Ex.max (x y : Ex) : Ex :=
  if x.isNan || y.isNan then .nan else if y.lt x || (x.eqv y && !x.isNeg) then x else y

/-! ### Formats -/

/-- A floating format (R59, R60): fraction bits, exponent of the smallest normal, the bits of the largest finite value,
infinities, canonical NaN, width. -/
structure FloatSpec where
  frac   : Nat
  emin   : Int
  top    : Nat
  hasInf : Bool
  nan    : Nat
  width  : Nat
deriving DecidableEq, Repr, Inhabited

def fp32 : FloatSpec := ⟨23, -126, 0x7F7FFFFF, true, 0x7FC00000, 32⟩
def bf16 : FloatSpec := ⟨7, -126, 0x7F7F, true, 0x7FC0, 16⟩
def fp16 : FloatSpec := ⟨10, -14, 0x7BFF, true, 0x7E00, 16⟩
def e5m2 : FloatSpec := ⟨2, -14, 0x7B, true, 0x7E, 8⟩
def e4m3 : FloatSpec := ⟨3, -6, 0x7E, false, 0x7F, 8⟩

def fmtFloat : Fmt → Option FloatSpec
  | .e4m3 => some e4m3
  | .e5m2 => some e5m2
  | .fp16 => some fp16
  | .bf16 => some bf16
  | .fp32 => some fp32
  | _ => Option.none

/-- Element bits (R58). -/
def fmtBits : Fmt → Nat
  | .none => 0
  | .mxint4 => 4
  | .mxint6 => 6
  | .mxint8 | .int8 | .e4m3 | .e5m2 => 8
  | .fp16 | .bf16 | .int16 => 16
  | .fp32 | .int32 => 32
  | .int64 => 64
  | .bitmask => 1

/-- The kinds of R214. -/
def fmtF (f : Fmt) : Bool := (fmtFloat f).isSome
def fmtI : Fmt → Bool
  | .int8 | .int16 | .int32 | .int64 => true
  | _ => false
def fmtM : Fmt → Bool
  | .mxint4 | .mxint6 | .mxint8 => true
  | _ => false
def fmtB (f : Fmt) : Bool := f == .bitmask

/-- The value of an encoding (R59, R60). -/
def floatVal (sp : FloatSpec) (bits : Nat) : Ex :=
  let mag := bits % 2 ^ (sp.width - 1)
  let neg := bits.testBit (sp.width - 1)
  if sp.top < mag then (if sp.hasInf && mag == sp.top + 1 then .inf neg else .nan)
  else
    let e := mag / 2 ^ sp.frac
    let f := mag % 2 ^ sp.frac
    if e = 0 then Ex.dyadic neg f (sp.emin - sp.frac)
    else Ex.dyadic neg (2 ^ sp.frac + f) (sp.emin + (e : Int) - 1 - sp.frac)

/-- A two's-complement value of w bits. -/
def sgn (w bits : Nat) : Int := (BitVec.ofNat w bits).toInt

/-- The exact value of an element of any format but none; a bitmask element reads 0 or 1 (R64). -/
def elemVal (f : Fmt) (bits : Nat) : Ex :=
  match fmtFloat f with
  | some sp => floatVal sp bits
  | Option.none => if f == .bitmask then Ex.ofInt (bits % 2) else Ex.ofInt (sgn (fmtBits f) bits)

/-! ### Rounding (R68 to R70) -/

/-- floor(log2 (p / q)) for p, q > 0. -/
def exponent (p q : Nat) : Int :=
  let e : Int := (p.log2 : Int) - (q.log2 : Int)
  if (if 0 ≤ e then q * 2 ^ e.toNat ≤ p else q ≤ p * 2 ^ (-e).toNat) then e else e - 1

/-- p / q in units of 2^u: numerator and denominator. -/
def scaled (p q : Nat) (u : Int) : Nat × Nat :=
  if 0 ≤ u then (p, q * 2 ^ u.toNat) else (p * 2 ^ (-u).toNat, q)

/-- The exponent of the last place at p / q. -/
def ulpExp (sp : FloatSpec) (p q : Nat) : Int :=
  let u := exponent p q - sp.frac
  let v := sp.emin - sp.frac
  if u < v then v else u

/-- N / D rounded to an integer of sign `neg` under a mode; `noise` holds the 16 bits of SR (R69). -/
def roundNat (m : RMode) (neg : Bool) (noise : Nat) (n d : Nat) : Nat :=
  let q := n / d
  let r := n % d
  if r = 0 then q
  else
    let up := match m with
      | .rne => decide (d < 2 * r) || (2 * r == d && q % 2 == 1)
      | .rz => false
      | .ru => !neg
      | .rd => neg
      | .sr => decide (65536 ≤ r * 65536 / d + noise)
    if up then q + 1 else q

/-- Whether a rounding step is inexact, so that SR draws 16 bits (R69). A value beyond the format's range that lies on the grid
of its precision is taken as representable, and draws none: DEDUCED (log 57). -/
def inexactF (sp : FloatSpec) : Ex → Bool
  | .fin _ p q => p != 0 && (let s := scaled p q (ulpExp sp p q); s.1 % s.2 != 0)
  | _ => false
def inexactI : Ex → Bool
  | .fin _ p q => p % q != 0
  | _ => false

def withSign (sp : FloatSpec) (neg : Bool) (mag : Nat) : Nat := if neg then mag + 2 ^ (sp.width - 1) else mag

/-- What an overflowing result delivers (R70). -/
def overflowF (sp : FloatSpec) (r : Rnd) (neg : Bool) : Nat :=
  if sp.hasInf then
    let toTop := r.ovf || (match r.mode with
      | .rz => true
      | .ru => neg
      | .rd => !neg
      | _ => false)
    withSign sp neg (if toTop then sp.top else sp.top + 1)
  else if r.ovf then sp.nan else withSign sp neg sp.top

/-- Round an exact value to a floating format (R68 to R71). -/
def roundF (sp : FloatSpec) (r : Rnd) (noise : Nat) : Ex → Nat
  | .nan => sp.nan
  | .inf s => if sp.hasInf then withSign sp s (sp.top + 1) else if r.ovf then sp.nan else withSign sp s sp.top
  | .fin s p q =>
    if p = 0 then withSign sp s 0
    else
      let u := ulpExp sp p q
      let nd := scaled p q u
      let n := roundNat r.mode s noise nd.1 nd.2
      let mag := n + (u - (sp.emin - sp.frac)).toNat * 2 ^ sp.frac
      if sp.top < mag then overflowF sp r s else withSign sp s mag

/-- Clamp to [lo, hi]. -/
def clamp (lo hi x : Int) : Int := if x < lo then lo else if hi < x then hi else x

/-- The range of a two's-complement width. -/
def satInt (w : Nat) (x : Int) : Int := clamp (-(2 ^ (w - 1) : Nat)) ((2 ^ (w - 1) : Nat) - 1) x

/-- Round an exact value to an integer (R68); infinities and NaN are the caller's. -/
def roundI (m : RMode) (noise : Nat) : Ex → Int
  | .fin s p q => signedOf s (roundNat m s noise p q)
  | _ => 0

/-- Round to a two's-complement width with saturation (R71): NaN gives 0. -/
def roundSat (w : Nat) (m : RMode) (noise : Nat) : Ex → Int
  | .nan => 0
  | .inf s => satInt w (if s then -(2 ^ w : Nat) else (2 ^ w : Nat))
  | x => satInt w (roundI m noise x)

def rne0 : Rnd := ⟨.rne, false⟩
def rz0 : Rnd := ⟨.rz, false⟩

/-- A value rounded to a format, as bits (R71); M and bitmask take integers. -/
def roundTo (f : Fmt) (r : Rnd) (noise : Nat) (x : Ex) : Nat :=
  match fmtFloat f with
  | some sp => roundF sp r noise x
  | Option.none => (BitVec.ofInt (fmtBits f) (roundSat (fmtBits f) r.mode noise x)).toNat

/-- Whether `roundTo` under SR draws noise. -/
def roundDraws (f : Fmt) (r : Rnd) (x : Ex) : Bool :=
  r.mode == .sr && (match fmtFloat f with
    | some sp => inexactF sp x
    | Option.none => inexactI x)

/-! ### FP32 operations under RNE -/

def val32 (x : Elem) : Ex := floatVal fp32 x.toNat
def round32 (x : Ex) : Elem := BitVec.ofNat 32 (roundF fp32 rne0 0 x)
def add32 (x y : Elem) : Elem := round32 (Ex.add false (val32 x) (val32 y))
def sub32 (x y : Elem) : Elem := round32 (Ex.sub false (val32 x) (val32 y))
def mul32 (x y : Elem) : Elem := round32 (Ex.mul (val32 x) (val32 y))
def fma32 (neg : Bool) (a b c : Elem) : Elem :=
  let p := Ex.mul (val32 a) (val32 b)
  round32 (Ex.add false (if neg then p.neg else p) (val32 c))

def nan32 : Elem := 0x7FC00000
def negZero32 : Elem := 0x80000000
def isNan32 (x : Elem) : Bool := (val32 x).isNan

/-- The estimate grid of R199: at most 12 significant bits, a multiple of 2^-149. -/
def estimate : Ex → Elem
  | .nan => nan32
  | .inf s => BitVec.ofNat 32 (withSign fp32 s 0x7F800000)
  | .fin s p q =>
    if p = 0 then BitVec.ofNat 32 (withSign fp32 s 0)
    else
      let u0 := exponent p q - 11
      let u : Int := if u0 < -149 then -149 else u0
      let nd := scaled p q u
      round32 (Ex.dyadic s (roundNat .rne s 0 nd.1 nd.2) u)

/-! ### Roots and the functions of `vun` (R199, R230)

The transcendental functions are evaluated on fixed-point numbers of `fixBits` fraction bits. No result of a format
of this chapter lies nearer to a rounding boundary than that, so the rounding that follows is that of the exact
function (log 11). -/

/-- Integer square root by Newton's steps from above, with fuel. -/
def isqrtLoop : Nat → Nat → Nat → Nat
  | 0, _, x => x
  | k + 1, n, x => let y := (x + n / x) / 2; if y < x then isqrtLoop k n y else x
def isqrt (n : Nat) : Nat := if n = 0 then 0 else isqrtLoop (n.log2 + 8) n (2 ^ (n.log2 / 2 + 1))

def fixBits : Nat := 800

/-- sqrt of p/q as an exact value when p/q is a square, and otherwise strictly between the neighbours at 2^-400
relative: a sticky last bit keeps it inexact. -/
def sqrtEx (p q : Nat) : Ex :=
  let s := 2 * (fixBits + q.log2)
  let n := p * 2 ^ s / q
  let r := isqrt n
  let exact := r * r == n && p * 2 ^ s % q == 0
  .fin false (if exact then 2 * r else 2 * r + 1) (2 ^ (s / 2 + 1))

/-- The sum of x^k / k! from the term on, in fixed point, `fuel` terms. -/
def expTerms : Nat → Int → Int → Nat → Int
  | 0, _, _, _ => 0
  | f + 1, x, t, k => t + expTerms f x (t * x / ((2 ^ fixBits : Nat) * (k + 1 : Nat) : Int)) (k + 1)

def squareTimes : Nat → Int → Int
  | 0, x => x
  | k + 1, x => squareTimes k (x * x / (2 ^ fixBits : Nat))

/-- e^x in fixed point for |x| at most about 400; a tiny positive value below that, a huge one above. -/
def expFix (neg : Bool) (p q : Nat) : Nat :=
  if 400 * q < p then (if neg then 1 else 2 ^ (fixBits + 600))
  else
    let x := signedOf neg (p * 2 ^ fixBits / q / 2 ^ 16)
    (squareTimes 16 (expTerms 90 x (2 ^ fixBits : Nat) 0)).toNat

def expEx (neg : Bool) (p q : Nat) : Ex := .fin false (Nat.max 1 (expFix neg p q)) (2 ^ fixBits)

/-- The sum of z^(2k+1) / (2k+1) in fixed point. -/
def atanhTerms : Nat → Nat → Nat → Nat → Nat
  | 0, _, _, _ => 0
  | f + 1, t, z2, k => t / (2 * k + 1) + atanhTerms f (t * z2 / 2 ^ fixBits) z2 (k + 1)

/-- ln of n / d in [1, 2], in fixed point. -/
def lnFix (n d : Nat) : Nat :=
  let z := (n - d) * 2 ^ fixBits / (n + d)
  2 * atanhTerms 260 z (z * z / 2 ^ fixBits) 0

/-- ln of p / q > 0. -/
def lnEx (p q : Nat) : Ex :=
  let e := exponent p q
  let nd := scaled p q e
  let v : Int := e * (lnFix 2 1 : Int) + (lnFix nd.1 nd.2 : Int)
  .fin (decide (v < 0)) v.natAbs (2 ^ fixBits)

/-- 1 / (1 + e^-x). -/
def sigEx (neg : Bool) (p q : Nat) : Ex :=
  let one := 2 ^ fixBits
  if 400 * q < p then (if neg then .fin false 1 one else .fin false (one - 1) one)
  else
    let e := expFix (!neg) p q
    .fin false one (one + e)

/-- (e^2x - 1) / (e^2x + 1) for x > 0, with the sign put back. -/
def tanhEx (neg : Bool) (p q : Nat) : Ex :=
  let one := 2 ^ fixBits
  if 200 * q < p then .fin neg (one - 1) one
  else
    let e := expFix false (2 * p) q
    .fin neg (e - one) (e + one)

/-- `vun` on an exact value, but for neg and abs (R230 and its table of special inputs). -/
def vunEx (fn : VunFn) (x : Ex) : Ex :=
  match fn, x with
  | _, .nan => .nan
  | .exp, .inf s => if s then .fin false 0 1 else .inf false
  | .exp, .fin s p q => if p = 0 then .fin false 1 1 else expEx s p q
  | .log, .inf s => if s then .nan else .inf false
  | .log, .fin s p q => if p = 0 then .inf true else if s then .nan else if p = q then .fin false 0 1 else lnEx p q
  | .rcp, .inf s => .fin s 0 1
  | .rcp, .fin s p q => if p = 0 then .inf s else .fin s q p
  | .rsq, .inf s => if s then .nan else .fin false 0 1
  | .rsq, .fin s p q => if p = 0 then .inf s else if s then .nan else sqrtEx q p
  | .sqrt, .inf s => if s then .nan else .inf false
  | .sqrt, .fin s p q => if p = 0 then .fin s 0 1 else if s then .nan else sqrtEx p q
  | .tanh, .inf s => .fin s 1 1
  | .tanh, .fin s p q => if p = 0 then .fin s 0 1 else tanhEx s p q
  | .sig, .inf s => if s then .fin false 0 1 else .fin false 1 1
  | .sig, .fin s p q => if p = 0 then .fin false 1 2 else sigEx s p q
  | .silu, .inf s => if s then .fin true 0 1 else .inf false
  | .silu, .fin s p q => if p = 0 then .fin s 0 1 else Ex.mul (.fin s p q) (sigEx s p q)
  | .neg, x => x.neg
  | .abs, x => x.abs

/-! ### Quantisation (R67) -/

def mxMax : Fmt → Nat
  | .mxint4 => 7
  | .mxint6 => 31
  | _ => 127

/-- The scale of a block of values (R67). -/
def quantScale (f : Fmt) (xs : List Ex) : Elem :=
  if xs.any (fun x => !x.isFin) then nan32
  else
    let amax := xs.foldl (fun m x => Ex.max m x.abs) (.fin false 0 1)
    if amax.isZero then 0 else round32 (Ex.div amax (Ex.ofInt (mxMax f)))

/-- One element against the scale, before the rounding: none where the block gives 0 outright. -/
def quantQuot (xs : List Ex) (scale : Elem) (x : Ex) : Option Ex :=
  if xs.any (fun x => !x.isFin) || (xs.all Ex.isZero) then Option.none else some (Ex.div x (val32 scale))

/-- Round and saturate to plus or minus Qmax. A block whose scale rounds to 0 has no quotient in R67: x / 0 saturates, 0 / 0
gives 0. DESIGN CHOICE (log 56). -/
def quantElem (f : Fmt) (m : RMode) (noise : Nat) : Ex → Int
  | .nan => 0
  | .inf s => if s then -(mxMax f : Int) else mxMax f
  | x => clamp (-(mxMax f : Int)) (mxMax f) (roundI m noise x)

/-! ### Sums in the order of R76 -/

/-- One step of the lane sums: element i into lane i mod 32. -/
def laneAdd (lanes : List Elem) (i : Nat) (x : Elem) : List Elem :=
  lanes.set (i % 32) (add32 (lanes.getD (i % 32) negZero32) x)

def pairUp : List Elem → List Elem
  | a :: b :: t => add32 a b :: pairUp t
  | t => t

def laneTree (lanes : List Elem) : Elem :=
  (pairUp (pairUp (pairUp (pairUp (pairUp lanes))))).headD negZero32

def lanes0 : List Elem := List.replicate 32 negZero32

/-- The sum of FP32 elements in the order of R76. -/
def sum32 (xs : List Elem) : Elem :=
  laneTree ((xs.foldl (fun (p : List Elem × Nat) x => (laneAdd p.1 p.2 x, p.2 + 1)) (lanes0, 0)).1)

end Sys2Proof.Machine
end

