-- ==== Sys2Proof/Machine/Flags.lean ====
section
/-! DEFINITION. The relations whose truth instructions write to predicates and bitmasks (R93, R94, R201, R235). The
machine keeps no arithmetic flags (R63). -/

namespace Sys2Proof.Machine

/-- The relations of R93 on two's-complement words of any width. -/
def cmpRel {n : Nat} (cc : CmpCc) (a b : BitVec n) : Bool :=
  match cc with
  | .eq => a == b
  | .ne => a != b
  | .lt => a.slt b
  | .ge => !a.slt b
  | .ltz => a.ult b
  | .gez => !a.ult b

/-- The functions of `plog` (R94). -/
def plogRel (fn : PlogFn) (a b : Bool) : Bool :=
  match fn with
  | .pand => a && b
  | .por => a || b
  | .pxor => a != b
  | .pandn => a && !b
  | .pmov => a

/-- The relations of `fcmp` (R201). -/
def fcmpRel (cc : FcmpCc) (a b : Ex) : Bool :=
  match cc with
  | .feq => a.eqv b
  | .flt => a.lt b
  | .fle => a.le b
  | .fun_ => a.isNan || b.isNan

/-- The relations of `vcmp` on exact values: a NaN makes every relation false except ne (R235). -/
def vcmpRel (cc : VcmpCc) (a b : Ex) : Bool :=
  match cc with
  | .eq => a.eqv b
  | .ne => !a.eqv b
  | .lt => a.lt b
  | .le => a.le b
  | .gt => b.lt a
  | .ge => b.le a

end Sys2Proof.Machine
end

