-- ==== Sys2Proof/Machine/Crypto.lean ====
section
/-! DEFINITION. The cryptographic functions that the manual names by their standards: ChaCha20 (RFC 8439), SHA-512
(FIPS 180-4), HKDF (RFC 5869), AES-256-GCM (FIPS 197, SP 800-38D), X25519 (RFC 7748), Ed25519 (RFC 8032). -/

namespace Sys2Proof.Machine

/-- Little-endian and big-endian values of bytes, and back. -/
def bytesLE : List Byte → Nat
  | [] => 0
  | b :: t => b.toNat + 256 * bytesLE t
def bytesBE (l : List Byte) : Nat := l.foldl (fun a b => a * 256 + b.toNat) 0
def toLE : Nat → Nat → List Byte
  | 0, _ => []
  | n + 1, v => BitVec.ofNat 8 v :: toLE n (v / 256)
def toBE (n v : Nat) : List Byte := (toLE n v).reverse

/-! ### ChaCha20 -/

def quarter (st : List (BitVec 32)) (i j k l : Nat) : List (BitVec 32) :=
  let a := st.getD i 0 + st.getD j 0
  let d := (st.getD l 0 ^^^ a).rotateLeft 16
  let c := st.getD k 0 + d
  let b := (st.getD j 0 ^^^ c).rotateLeft 12
  let a' := a + b
  let d' := (d ^^^ a').rotateLeft 8
  let c' := c + d'
  let b' := (b ^^^ c').rotateLeft 7
  (((st.set i a').set j b').set k c').set l d'

def doubleRound (st : List (BitVec 32)) : List (BitVec 32) :=
  let cols := quarter (quarter (quarter (quarter st 0 4 8 12) 1 5 9 13) 2 6 10 14) 3 7 11 15
  quarter (quarter (quarter (quarter cols 0 5 10 15) 1 6 11 12) 2 7 8 13) 3 4 9 14

def iter {α : Type} (f : α → α) : Nat → α → α
  | 0, x => x
  | n + 1, x => iter f n (f x)

/-- A 64-byte keystream block for a 32-byte key, zero nonce. -/
def chachaBlock (key : List Byte) (counter : Nat) : List Byte :=
  let kw := (List.range 8).map (fun i => BitVec.ofNat 32 (bytesLE ((key.drop (4 * i)).take 4)))
  let st : List (BitVec 32) := [0x61707865, 0x3320646E, 0x79622D32, 0x6B206574] ++ kw ++ [BitVec.ofNat 32 counter, 0, 0, 0]
  let out := iter doubleRound 10 st
  ((List.range 16).map (fun i => toLE 4 (st.getD i 0 + out.getD i 0).toNat)).flatten

/-- Bits [pos, pos + k) of the keystream, the first bit least significant (R225), for k at most 64. -/
def keystream (key : List Byte) (pos k : Nat) : Nat :=
  let b := pos / 512
  let two := bytesLE (chachaBlock key b) + (if 512 < pos % 512 + k then bytesLE (chachaBlock key (b + 1)) * 2 ^ 512 else 0)
  two / 2 ^ (pos % 512) % 2 ^ k

/-! ### SHA-512 -/

def shaK : List (BitVec 64) := [0x428A2F98D728AE22, 0x7137449123EF65CD, 0xB5C0FBCFEC4D3B2F, 0xE9B5DBA58189DBBC,
  0x3956C25BF348B538, 0x59F111F1B605D019, 0x923F82A4AF194F9B, 0xAB1C5ED5DA6D8118,
  0xD807AA98A3030242, 0x12835B0145706FBE, 0x243185BE4EE4B28C, 0x550C7DC3D5FFB4E2,
  0x72BE5D74F27B896F, 0x80DEB1FE3B1696B1, 0x9BDC06A725C71235, 0xC19BF174CF692694] ++
  [0xE49B69C19EF14AD2, 0xEFBE4786384F25E3, 0x0FC19DC68B8CD5B5, 0x240CA1CC77AC9C65,
  0x2DE92C6F592B0275, 0x4A7484AA6EA6E483, 0x5CB0A9DCBD41FBD4, 0x76F988DA831153B5,
  0x983E5152EE66DFAB, 0xA831C66D2DB43210, 0xB00327C898FB213F, 0xBF597FC7BEEF0EE4,
  0xC6E00BF33DA88FC2, 0xD5A79147930AA725, 0x06CA6351E003826F, 0x142929670A0E6E70] ++
  [0x27B70A8546D22FFC, 0x2E1B21385C26C926, 0x4D2C6DFC5AC42AED, 0x53380D139D95B3DF,
  0x650A73548BAF63DE, 0x766A0ABB3C77B2A8, 0x81C2C92E47EDAEE6, 0x92722C851482353B,
  0xA2BFE8A14CF10364, 0xA81A664BBC423001, 0xC24B8B70D0F89791, 0xC76C51A30654BE30,
  0xD192E819D6EF5218, 0xD69906245565A910, 0xF40E35855771202A, 0x106AA07032BBD1B8] ++
  [0x19A4C116B8D2D0C8, 0x1E376C085141AB53, 0x2748774CDF8EEB99, 0x34B0BCB5E19B48A8,
  0x391C0CB3C5C95A63, 0x4ED8AA4AE3418ACB, 0x5B9CCA4F7763E373, 0x682E6FF3D6B2B8A3,
  0x748F82EE5DEFB2FC, 0x78A5636F43172F60, 0x84C87814A1F0AB72, 0x8CC702081A6439EC,
  0x90BEFFFA23631E28, 0xA4506CEBDE82BDE9, 0xBEF9A3F7B2C67915, 0xC67178F2E372532B] ++
  [0xCA273ECEEA26619C, 0xD186B8C721C0C207, 0xEADA7DD6CDE0EB1E, 0xF57D4F7FEE6ED178,
  0x06F067AA72176FBA, 0x0A637DC5A2C898A6, 0x113F9804BEF90DAE, 0x1B710B35131C471B,
  0x28DB77F523047D84, 0x32CAAB7B40C72493, 0x3C9EBE0A15C9BEBC, 0x431D67C49C100D4C,
  0x4CC5D4BECB3E42B6, 0x597F299CFC657E2A, 0x5FCB6FAB3AD6FAEC, 0x6C44198C4A475817]

def shaH : List (BitVec 64) := [0x6A09E667F3BCC908, 0xBB67AE8584CAA73B, 0x3C6EF372FE94F82B, 0xA54FF53A5F1D36F1,
  0x510E527FADE682D1, 0x9B05688C2B3E6C1F, 0x1F83D9ABFB41BD6B, 0x5BE0CD19137E2179]

/-- The message schedule, newest word first. -/
def shaExtend (w : List (BitVec 64)) : List (BitVec 64) :=
  let x := w.getD 14 0
  let y := w.getD 1 0
  let s0 := x.rotateRight 1 ^^^ x.rotateRight 8 ^^^ (x >>> 7)
  let s1 := y.rotateRight 19 ^^^ y.rotateRight 61 ^^^ (y >>> 6)
  (w.getD 15 0 + s0 + w.getD 6 0 + s1) :: w

def shaRound (st : List (BitVec 64)) (kw : BitVec 64 × BitVec 64) : List (BitVec 64) :=
  match st with
  | [a, b, c, d, e, f, g, h] =>
    let s1 := e.rotateRight 14 ^^^ e.rotateRight 18 ^^^ e.rotateRight 41
    let t1 := h + s1 + ((e &&& f) ^^^ (~~~e &&& g)) + kw.1 + kw.2
    let s0 := a.rotateRight 28 ^^^ a.rotateRight 34 ^^^ a.rotateRight 39
    let t2 := s0 + ((a &&& b) ^^^ (a &&& c) ^^^ (b &&& c))
    [t1 + t2, a, b, c, d + t1, e, f, g]
  | st => st

/-- Compress one 128-byte block into a chaining value of eight words. -/
def shaBlock (st : List (BitVec 64)) (blk : List Byte) : List (BitVec 64) :=
  let w0 := (List.range 16).map (fun i => BitVec.ofNat 64 (bytesBE ((blk.drop (8 * i)).take 8)))
  let w := (iter shaExtend 64 w0.reverse).reverse
  let out := (shaK.zip w).foldl shaRound st
  st.zipWith (· + ·) out

/-- All whole blocks of a message. -/
def shaBlocks : Nat → List (BitVec 64) → List Byte → List (BitVec 64)
  | 0, st, _ => st
  | n + 1, st, m => shaBlocks n (shaBlock st (m.take 128)) (m.drop 128)

/-- The padding of a message of `len` bytes of which `rest` bytes are not yet compressed. -/
def shaPad (len rest : Nat) : List Byte := 0x80 :: (List.replicate ((128 + 111 - rest % 128) % 128) 0 ++ toBE 16 (len * 8))

def shaFinish (st : List (BitVec 64)) (rest : List Byte) (len : Nat) : List Byte :=
  let m := rest ++ shaPad len rest.length
  ((shaBlocks (m.length / 128) st m).map (fun w => toBE 8 w.toNat)).flatten

def sha512 (m : List Byte) : List Byte := shaFinish shaH m m.length

def hmac512 (key m : List Byte) : List Byte :=
  let k0 := if 128 < key.length then sha512 key else key
  let k := k0 ++ List.replicate (128 - k0.length) 0
  sha512 (k.map (· ^^^ 0x5C) ++ sha512 (k.map (· ^^^ 0x36) ++ m))

/-- HKDF extract and expand to at most 64 bytes. -/
def hkdf512 (salt ikm info : List Byte) (len : Nat) : List Byte :=
  (hmac512 (hmac512 salt ikm) (info ++ [1])).take len

/-! ### AES-256 and GCM -/

def xtime (b : Byte) : Byte := (b <<< 1) ^^^ (if b.getLsbD 7 then 0x1B else 0)
def gmul (a b : Byte) : Byte :=
  ((List.range 8).foldl (fun (p : Byte × Byte) i => (if b.getLsbD i then p.1 ^^^ p.2 else p.1, xtime p.2)) (0, a)).1
/-- The inverse in the field of AES: the 254th power. -/
def ginv (a : Byte) : Byte :=
  let p2 := gmul a a
  let p4 := gmul p2 p2
  let p8 := gmul p4 p4
  let p16 := gmul p8 p8
  let p32 := gmul p16 p16
  let p64 := gmul p32 p32
  let p128 := gmul p64 p64
  gmul (gmul (gmul p2 p4) (gmul p8 p16)) (gmul p32 (gmul p64 p128))
def sbox (a : Byte) : Byte :=
  let x := ginv a
  x ^^^ x.rotateLeft 1 ^^^ x.rotateLeft 2 ^^^ x.rotateLeft 3 ^^^ x.rotateLeft 4 ^^^ 0x63

/-- The key schedule as words of four bytes, in order. -/
def aesExpand : Nat → Nat → Byte → List (List Byte) → List (List Byte)
  | 0, _, _, ws => ws
  | n + 1, i, rc, ws =>
    let prev := ws.getD (i - 1) []
    let t := if i % 8 = 0 then
        match prev with
        | [a, b, c, d] => [sbox b ^^^ rc, sbox c, sbox d, sbox a]
        | l => l
      else if i % 8 = 4 then prev.map sbox else prev
    aesExpand n (i + 1) (if i % 8 = 0 then xtime rc else rc) (ws ++ [(ws.getD (i - 8) []).zipWith (· ^^^ ·) t])

def aesKeys (key : List Byte) : List (List Byte) :=
  let ws := aesExpand 52 8 1 ((List.range 8).map (fun i => (key.drop (4 * i)).take 4))
  (List.range 15).map (fun r => ((ws.drop (4 * r)).take 4).flatten)

def xorBytes (a b : List Byte) : List Byte := a.zipWith (· ^^^ ·) b
def shiftRows (s : List Byte) : List Byte :=
  (List.range 16).map (fun i => s.getD ((i + 4 * (i % 4)) % 16) 0)
def mixColumn : List Byte → List Byte
  | [a, b, c, d] => [xtime a ^^^ (xtime b ^^^ b) ^^^ c ^^^ d, a ^^^ xtime b ^^^ (xtime c ^^^ c) ^^^ d,
      a ^^^ b ^^^ xtime c ^^^ (xtime d ^^^ d), (xtime a ^^^ a) ^^^ b ^^^ c ^^^ xtime d]
  | l => l
def mixColumns (s : List Byte) : List Byte :=
  mixColumn (s.take 4) ++ mixColumn ((s.drop 4).take 4) ++ mixColumn ((s.drop 8).take 4) ++ mixColumn (s.drop 12)

def aesRounds : List (List Byte) → List Byte → List Byte
  | [], s => s
  | [k], s => xorBytes (shiftRows (s.map sbox)) k
  | k :: ks, s => aesRounds ks (xorBytes (mixColumns (shiftRows (s.map sbox))) k)

def aesEncrypt (key blk : List Byte) : List Byte :=
  match aesKeys key with
  | k0 :: ks => aesRounds ks (xorBytes blk k0)
  | [] => blk

/-- The product of GHASH on 128-bit values, bit 0 the leftmost bit of the block. -/
def ghashMul (x y : Nat) : Nat :=
  ((List.range 128).foldl (fun (p : Nat × Nat) i =>
    (if x.testBit (127 - i) then p.1 ^^^ p.2 else p.1,
     if p.2 % 2 == 1 then (p.2 / 2) ^^^ (0xE1 * 2 ^ 120) else p.2 / 2)) (0, y)).1

/-- Absorb whole or zero-padded 16-byte blocks. -/
def ghashAdd (h : Nat) : Nat → Nat → List Byte → Nat
  | 0, y, _ => y
  | n + 1, y, m =>
    let b := m.take 16
    ghashAdd h n (ghashMul (y ^^^ bytesBE (b ++ List.replicate (16 - b.length) 0)) h) (m.drop 16)
def ghashBytes (h y : Nat) (m : List Byte) : Nat := ghashAdd h ((m.length + 15) / 16) y m

def gcmH (key : List Byte) : Nat := bytesBE (aesEncrypt key (List.replicate 16 0))
/-- Keystream block n (counted from 2 for the first data block) for a 96-bit nonce. -/
def gcmBlock (key nonce : List Byte) (n : Nat) : List Byte := aesEncrypt key (nonce ++ toBE 4 n)
/-- Encrypt or decrypt data that begins at byte `off` of the message, a multiple of 16. -/
def gcmCrypt (key nonce : List Byte) (off : Nat) (m : List Byte) : List Byte :=
  ((List.range ((m.length + 15) / 16)).map (fun i =>
    xorBytes ((m.drop (16 * i)).take 16) (gcmBlock key nonce (2 + off / 16 + i)))).flatten
def gcmTag (key nonce : List Byte) (ghash aadLen len : Nat) : List Byte :=
  let h := gcmH key
  let y := ghashMul (ghash ^^^ (aadLen * 8 * 2 ^ 64 + len * 8)) h
  xorBytes (toBE 16 y) (gcmBlock key nonce 1)

/-! ### Curve25519 -/

def fieldP : Nat := 2 ^ 255 - 19
def fieldAdd (a b : Nat) : Nat := (a + b) % fieldP
def fieldSub (a b : Nat) : Nat := (a + fieldP - b % fieldP) % fieldP
def fieldMul (a b : Nat) : Nat := a * b % fieldP
def fieldPow (a e : Nat) : Nat :=
  (List.range 256).foldl (fun r i => let q := fieldMul r r; if e.testBit (255 - i) then fieldMul q a else q) 1
def fieldInv (a : Nat) : Nat := fieldPow a (fieldP - 2)

/-- One step of the X25519 ladder (RFC 7748). -/
structure Ladder where
  x2 : Nat
  z2 : Nat
  x3 : Nat
  z3 : Nat
  swap : Bool
deriving DecidableEq, Repr, Inhabited

def ladderStep (u k : Nat) (l : Ladder) (t : Nat) : Ladder :=
  let kt := k.testBit t
  let sw := l.swap != kt
  let x2 := if sw then l.x3 else l.x2
  let z2 := if sw then l.z3 else l.z2
  let x3 := if sw then l.x2 else l.x3
  let z3 := if sw then l.z2 else l.z3
  let a := fieldAdd x2 z2
  let aa := fieldMul a a
  let b := fieldSub x2 z2
  let bb := fieldMul b b
  let e := fieldSub aa bb
  let da := fieldMul (fieldSub x3 z3) a
  let cb := fieldMul (fieldAdd x3 z3) b
  let s := fieldAdd da cb
  let d := fieldSub da cb
  ⟨fieldMul aa bb, fieldMul e (fieldAdd aa (fieldMul 121665 e)), fieldMul s s, fieldMul u (fieldMul d d), kt⟩

def x25519 (scalar point : List Byte) : List Byte :=
  let k0 := bytesLE scalar
  let k := k0 - k0 % 8 - (k0 / 2 ^ 254) * 2 ^ 254 + 2 ^ 254
  let u := bytesLE point % 2 ^ 255 % fieldP
  let l := (List.range 255).foldl (fun l i => ladderStep u k l (254 - i)) ⟨1, 0, u, 1, false⟩
  let x := if l.swap then l.x3 else l.x2
  let z := if l.swap then l.z3 else l.z2
  toLE 32 (fieldMul x (fieldInv z))

/-- A point of edwards25519 in extended coordinates. -/
structure EdPoint where
  x : Nat
  y : Nat
  z : Nat
  t : Nat
deriving DecidableEq, Repr, Inhabited

def edD : Nat := fieldMul (fieldSub 0 121665) (fieldInv 121666)
def edAdd (p q : EdPoint) : EdPoint :=
  let a := fieldMul (fieldSub p.y p.x) (fieldSub q.y q.x)
  let b := fieldMul (fieldAdd p.y p.x) (fieldAdd q.y q.x)
  let c := fieldMul (fieldMul 2 (fieldMul p.t q.t)) edD
  let d := fieldMul 2 (fieldMul p.z q.z)
  let e := fieldSub b a
  let f := fieldSub d c
  let g := fieldAdd d c
  let h := fieldAdd b a
  ⟨fieldMul e f, fieldMul g h, fieldMul f g, fieldMul e h⟩
def edZero : EdPoint := ⟨0, 1, 1, 0⟩
def edMul (n : Nat) (p : EdPoint) : EdPoint :=
  (List.range 512).foldl (fun r i => let q := edAdd r r; if n.testBit (511 - i) then edAdd q p else q) edZero
def edEq (p q : EdPoint) : Bool :=
  fieldMul p.x q.z == fieldMul q.x p.z && fieldMul p.y q.z == fieldMul q.y p.z

/-- The x coordinate for y and a sign bit (RFC 8032, 5.1.3). -/
def edRecover (y : Nat) (sign : Bool) : Option Nat :=
  let y2 := fieldMul y y
  let u := fieldSub y2 1
  let v := fieldAdd (fieldMul edD y2) 1
  let v3 := fieldMul v (fieldMul v v)
  let x0 := fieldMul (fieldMul u v3) (fieldPow (fieldMul u (fieldMul v3 (fieldMul v3 v))) ((fieldP - 5) / 8))
  let vx2 := fieldMul v (fieldMul x0 x0)
  let x1 := if vx2 == u then some x0
    else if vx2 == fieldSub 0 u then some (fieldMul x0 (fieldPow 2 ((fieldP - 1) / 4))) else none
  match x1 with
  | none => none
  | some x => if x == 0 && sign then none else some (if (x % 2 == 1) != sign then fieldSub 0 x else x)

def edDecode (b : List Byte) : Option EdPoint :=
  let n := bytesLE b
  let y := n % 2 ^ 255
  if b.length != 32 || fieldP ≤ y then none
  else (edRecover y (n.testBit 255)).map (fun x => ⟨x, y, 1, fieldMul x y⟩)
def edEncode (p : EdPoint) : List Byte :=
  let zi := fieldInv p.z
  let x := fieldMul p.x zi
  toLE 32 (fieldMul p.y zi + (x % 2) * 2 ^ 255)

def edBase : EdPoint :=
  match edRecover (fieldMul 4 (fieldInv 5)) false with
  | some x => ⟨x, fieldMul 4 (fieldInv 5), 1, fieldMul x (fieldMul 4 (fieldInv 5))⟩
  | none => edZero
def edL : Nat := 2 ^ 252 + 27742317777372353535851937790883648493

def edScalar (h : List Byte) : Nat :=
  let n := bytesLE (h.take 32)
  n - n % 8 - (n / 2 ^ 254) * 2 ^ 254 + 2 ^ 254

def edPublic (seed : List Byte) : List Byte := edEncode (edMul (edScalar (sha512 seed)) edBase)
def edSign (seed m : List Byte) : List Byte :=
  let h := sha512 seed
  let a := edScalar h
  let pub := edEncode (edMul a edBase)
  let r := bytesLE (sha512 (h.drop 32 ++ m)) % edL
  let rp := edEncode (edMul r edBase)
  let k := bytesLE (sha512 (rp ++ pub ++ m)) % edL
  rp ++ toLE 32 ((r + k * a) % edL)
/-- The group equation of RFC 8032, 5.1.7, with the cofactor. -/
def edVerify (pub m sig : List Byte) : Bool :=
  match edDecode pub, edDecode (sig.take 32) with
  | some a, some r =>
    let s := bytesLE (sig.drop 32)
    let k := bytesLE (sha512 (sig.take 32 ++ pub ++ m)) % edL
    sig.length == 64 && decide (s < edL) &&
      edEq (edMul 8 (edMul s edBase)) (edMul 8 (edAdd r (edMul k a)))
  | _, _ => false

end Sys2Proof.Machine
end

