-- ==== Sys2Proof/Config.lean ====
section
/-! DEFINITION. What the part fixes: sizes, addresses, device keys, and the free values of the model (constants without
a body: nothing in Lean can evaluate them, so a statement that meets one holds for every value). -/

namespace Sys2Proof.Config

/-- Bytes of scratchpad of a compute core, of the service core and of a scheduler core (R106). -/
def spadCompute : Nat := 0x800000
def spadService : Nat := 0x100000
def spadSched : Nat := 0x40000

/-- The launch block (R24) and the frame base at reset (R111, R140). -/
def launchBlock : Nat := 0x7FF000
def frameBase : BitVec 64 := 0x7FF400
def firmFrameCompute : BitVec 64 := 0x7FF800
def firmFrameService : BitVec 64 := 0xFF800
def firmFrameSched : BitVec 64 := 0x3F800

/-- Depth of the architectural queues (R16), of the ports (R114) and of the token FIFOs (R15). -/
def queueDepth : Nat := 64
def portDepth : Nat := 32
def tokenMax : Nat := 63

/-- Page sizes by tier (R20). -/
def pageSize : Tier → Nat
  | .host => 0x1000
  | .cxl => 0x10000
  | .hbm => 0x200000

/-- The physical address space by tier: HBM from 0, CXL above it, host memory from 2^44. The manual gives the size of HBM
and the reach of CXL and not their addresses. DESIGN CHOICE (log 10). -/
def hbmBytes : Nat := 768 * 2 ^ 30
def hostFrom : Nat := 2 ^ 44
def tierAt (pa : Nat) : Tier := if pa < hbmBytes then .hbm else if pa < hostFrom then .cxl else .host

/-- Unloaded latencies of R165: they set timing only. -/
def loadLatency : Tier → Nat
  | .hbm => 420
  | .cxl => 900
  | .host => 1800

/-- TLB sizes (R110, R180). -/
def tlbK : Nat := 256
def tlbStream : Nat := 64

/-- The size of the event log and of the Tideline in records (R411, R412). -/
def logRecords : Nat := 0x1000000 / 64
def tideRecords : Nat := 0x4000000 / 192

/-- The mailbox and the certificate store as physical addresses of reserved HBM: the manual gives their virtual
addresses (R435, R436) and leaves the physical ones to boot firmware. DESIGN CHOICE (log 10). -/
def mailboxVa : Nat := 0x7F0000000000
def certStoreVa : Nat := 0x7E0000000000
def mailboxPa : Nat := 0xB000000000
def certStorePa : Nat := 0xB000200000

/-- Free value: 64 conditioned bits of the physical noise source (R115, R225). -/
opaque noiseWord : Nat → BitVec 64

/-- Free value: which entry a full TLB or cache set gives up (R109, R110, R180 give no rule). -/
opaque victim : Nat → Nat

/-- Free value: a value that the manual leaves open (log 2). -/
opaque openWord : Nat → BitVec 64

/-- Free value: the payload bytes of a Tideline record of a kind with these fields, whose layout the manual does not
give (R341, R415; log 13). -/
opaque tideBytes : Nat → List Nat → List (BitVec 8)

/-- Free values: the kind number of a record of the event log, and its payload bytes, for a kind of record with these
fields (R411: the manual gives neither; log 44). -/
opaque logKind : Nat → BitVec 16
opaque logPayload : Nat → List Nat → List (BitVec 8)

/-- Free value: the code that the boot ROM loads into the firmware context of a compute core (0), of the service core (1),
of a scheduler core (2) (R423, R434; log 15). -/
opaque bootCode : Nat → List (BitVec 64)

/-- The KV pages of a die's pool, which firmware configures (R363). -/
opaque kvPages : Nat

/-- The size of the certificate store, which nothing but manufacture writes, and the place of the event log's ring with its
header of 64 bytes before it (R411, R436). DESIGN CHOICE (log 10). -/
def certStoreBytes : Nat := 0x200000
def logPa : Nat := 0xB000600000

/-- Free values: what the certificates of the slot-0 chain hold besides the subject key of the leaf: the root certificate,
those between, and the leaf before and after its subject key (R436). -/
opaque certRoot : List (BitVec 8)
opaque certMiddle : List (BitVec 8)
opaque certHead : List (BitVec 8)
opaque certTail : List (BitVec 8)

/-- The vendor's Ed25519 public key, fused at manufacture (R421). -/
opaque vendorKey : List (BitVec 8)

/-- Free value: the bytes of a runtime firmware image with this code, scheduler code, layout and converters, whose file
format the manual does not give (R421; log 15). -/
opaque firmwareFile : List (BitVec 64) → List (BitVec 64) → Nat → List Nat → List (BitVec 8)

/-- Free values: the offsets in BAR0 of the registers that reset the device (R406) and that set a die's least number of
cores for bulk work (R28), which the manual does not give (logs 15, 70). -/
opaque resetReg : Nat
opaque bulkMinReg : Nat → Nat

/-- Free value: how many cycles a debugger keeps the service core stopped (R437; log 83). -/
opaque debugStop : Nat → Nat

/-- The device's secret keys, fused at manufacture: the Ed25519 identity key (R360) and the X25519 sealing key (R362). -/
opaque identityKey : List (BitVec 8)
opaque sealingKey : List (BitVec 8)

/-- Free value: the 64-byte digests measured at boot (R423). -/
opaque bootDigest : Nat → List (BitVec 8)

/-- Free value: the 64-byte value that a management command of a kind with these fields extends a measurement register
with (R415, R422): the manual names the register and not the bytes that are digested (log 17). -/
opaque configDigest : Nat → List Nat → List (BitVec 8)

end Sys2Proof.Config
end

