-- ==== Sys2Proof/Syntax.lean ====
section
/-! DEFINITION. The syntax: one constructor per row of spec/opcode_table.json, in the table's families. The rows from
RESULT_LANDING on are steps of the machine that no instruction word encodes (spec/95). -/

namespace Sys2Proof

/-- An instruction word as decoded, or a step of the machine. Every instruction word carries its header `h`. -/
inductive Instr where
  /- Control (R89 to R115) -/
  /-- NOP: R103 -/
  | nop (h : Hdr)
  /-- LI: R89 -/
  | li (h : Hdr) (d : BitVec 6) (imm : BitVec 32)
  /-- LIH: R89 -/
  | lih (h : Hdr) (d : BitVec 6) (imm : BitVec 32)
  /-- ALU: R90 -/
  | alu (h : Hdr) (fn : AluFn) (d a b : BitVec 6)
  /-- ADDI: R92 -/
  | addi (h : Hdr) (d a : BitVec 6) (imm : BitVec 26)
  /-- ANDI: R92 -/
  | andi (h : Hdr) (d a : BitVec 6) (imm : BitVec 26)
  /-- ORI: R92 -/
  | ori (h : Hdr) (d a : BitVec 6) (imm : BitVec 26)
  /-- XORI: R92 -/
  | xori (h : Hdr) (d a : BitVec 6) (imm : BitVec 26)
  /-- SHLI: R92 -/
  | shli (h : Hdr) (d a n : BitVec 6)
  /-- SHRI: R92 -/
  | shri (h : Hdr) (d a n : BitVec 6)
  /-- SARI: R92 -/
  | sari (h : Hdr) (d a n : BitVec 6)
  /-- MULI: R92 -/
  | muli (h : Hdr) (d a : BitVec 6) (imm : BitVec 26)
  /-- CMP: R93 -/
  | cmp (h : Hdr) (cc : CmpCc) (pd : BitVec 4) (a b : BitVec 6)
  /-- CMPI: R93 -/
  | cmpi (h : Hdr) (cc : CmpCc) (pd : BitVec 4) (a : BitVec 6) (imm : BitVec 20)
  /-- PLOG: R94 -/
  | plog (h : Hdr) (fn : PlogFn) (d a b : BitVec 4)
  /-- SEL: R95; the guard fields select -/
  | sel (h : Hdr) (d a b : BitVec 6)
  /-- LEA: R96 -/
  | lea (h : Hdr) (scale : BitVec 2) (d a b : BitVec 6)
  /-- BR: R97 -/
  | br (h : Hdr) (off : BitVec 32)
  /-- CALL: R97 -/
  | call (h : Hdr) (off : BitVec 32)
  /-- JR: R98 -/
  | jr (h : Hdr) (d a : BitVec 6)
  /-- LOOP: R99, R100 -/
  | loop (h : Hdr) (n : BitVec 3) (src : LoopSrc)
  /-- ENDL: R101 -/
  | endl (h : Hdr) (n : BitVec 3) (off : BitVec 32)
  /-- SAFE: R104 -/
  | safe (h : Hdr)
  /-- END: R105 -/
  | endT (h : Hdr)
  /-- LDK: R106 -/
  | ldk (h : Hdr) (sz : Sz) (d a : BitVec 6) (ac : BitVec 3) (off : BitVec 20)
  /-- STK: R106 -/
  | stk (h : Hdr) (sz : Sz) (d a : BitVec 6) (ac : BitVec 3) (off : BitVec 20)
  /-- LDS: R106 -/
  | lds (h : Hdr) (sz : Sz) (d a : BitVec 6) (off : BitVec 20)
  /-- STS: R106 -/
  | sts (h : Hdr) (sz : Sz) (d a : BitVec 6) (off : BitVec 20)
  /-- RSR: R111 -/
  | rsr (h : Hdr) (d : BitVec 6) (r : SpecialReg)
  /-- WSR: R111, R113 -/
  | wsr (h : Hdr) (r : SpecialReg) (a : BitVec 6)
  /-- EPUSH: R114 -/
  | epush (h : Hdr) (port : Port) (a : BitVec 6)
  /-- EPOP: R114 -/
  | epop (h : Hdr) (d : BitVec 6) (port : Port)
  /-- ECOUNT_OUT: R114 -/
  | ecountOut (h : Hdr) (d : BitVec 6) (port : Port)
  /-- ECOUNT_IN: R114 -/
  | ecountIn (h : Hdr) (d : BitVec 6) (port : Port)
  /-- RND: R115 -/
  | rnd (h : Hdr) (d : BitVec 6)
  /- Synchronisation, trap and system (R122 to R149) -/
  /-- TKP: R127 -/
  | tkp (h : Hdr) (f : Fifo) (n : BitVec 6)
  /-- TKW: R127 -/
  | tkw (h : Hdr) (f : Fifo) (n : BitVec 6)
  /-- TKC: R128 -/
  | tkc (h : Hdr) (d : BitVec 6) (f : Fifo)
  /-- BAR: R130 -/
  | bar (h : Hdr) (b : BitVec 2)
  /-- BARA: R130 -/
  | bara (h : Hdr) (b : BitVec 2)
  /-- BARW: R130 -/
  | barw (h : Hdr) (b : BitVec 2)
  /-- RENQ: R133 -/
  | renq (h : Hdr) (a b : BitVec 6)
  /-- AMO: R134 -/
  | amo (h : Hdr) (op : AmoOp) (sc : Scope) (dw : Bool) (d a b : BitVec 6)
  /-- FENCE: R137 -/
  | fence (h : Hdr) (kind : FenceKind) (sc : Scope)
  /-- MARK: R138 -/
  | mark (h : Hdr)
  /-- WFE: R139 -/
  | wfe (h : Hdr) (imm : BitVec 20)
  /-- SYS_CALL: R147 -/
  | sysCall (h : Hdr) (imm : BitVec 20)
  /-- SYS_RESUME: R147 -/
  | sysResume (h : Hdr) (st : BitVec 2)
  /-- SYS_KILL: R147 -/
  | sysKill (h : Hdr) (imm : BitVec 20)
  /-- SYS_TMR: R147, R427 -/
  | sysTmr (h : Hdr) (mask : BitVec 4) (imm : BitVec 20)
  /-- TRAP: R146 -/
  | trap (h : Hdr) (imm : BitVec 20)
  /-- BRK: R146 -/
  | brk (h : Hdr) (imm : BitVec 20)
  /-- RFI: R145 -/
  | rfi (h : Hdr)
  /- Access (R162 to R175) -/
  /-- LD: R169 -/
  | ld (h : Hdr) (zp : Bool) (sz : Sz) (q : Fin 8) (ab : BitVec 6) (ac : BitVec 3) (off : BitVec 16)
  /-- LDP: R169 -/
  | ldp (h : Hdr) (sz : Sz) (q : Fin 8) (ab : BitVec 6) (ac : BitVec 3) (off : BitVec 16)
  /-- LDI: R169 -/
  | ldi (h : Hdr) (sz : Sz) (q : Fin 4) (ab : BitVec 6) (ac : BitVec 3) (off : BitVec 16)
  /-- LDG: R169 -/
  | ldg (h : Hdr) (zp : Bool) (sz : Sz) (iq : Fin 4) (q : Fin 8) (ab : BitVec 6) (ac : BitVec 3) (off : BitVec 16)
  /-- LDR: R171 -/
  | ldr (h : Hdr) (f : BitVec 4) (pitch : BitVec 4) (ab : BitVec 6) (ac : BitVec 3) (off : BitVec 16)
  /-- LDW: R173 -/
  | ldw (h : Hdr) (w : BitVec 5) (ab : BitVec 6) (ac : BitVec 3) (off : BitVec 16)
  /-- PF: R174 -/
  | pf (h : Hdr) (tr : Bool) (ab : BitVec 6) (off : BitVec 16)
  /-- ST: R170 -/
  | st (h : Hdr) (sz : Sz) (q : Fin 8) (ab : BitVec 6) (ac : BitVec 3) (off : BitVec 16)
  /-- STP: R170 -/
  | stp (h : Hdr) (sz : Sz) (q : Fin 8) (ab : BitVec 6) (ac : BitVec 3) (off : BitVec 16)
  /-- STG: R170 -/
  | stg (h : Hdr) (sz : Sz) (iq : Fin 8) (q : Fin 8) (ab : BitVec 6) (ac : BitVec 3) (off : BitVec 16)
  /-- STW: R173 -/
  | stw (h : Hdr) (w : BitVec 5) (ab : BitVec 6) (ac : BitVec 3) (off : BitVec 16)
  /-- STT: R172, R433 -/
  | stt (h : Hdr) (keep : Bool) (f : BitVec 4) (pitch : BitVec 4) (ab : BitVec 6) (ac : BitVec 3) (off : BitVec 16)
  /-- QFL: R175 -/
  | qfl (h : Hdr) (q : QName)
  /-- QLN: R175 -/
  | qln (h : Hdr) (dst : QlnDst) (q : QName)
  /- Element (R186 to R206) -/
  /-- FOP: R197; eb unused by fabs and fneg -/
  | fop (h : Hdr) (fn : FopFn) (ed ea eb : EOp)
  /-- FMA: R198 -/
  | fma (h : Hdr) (c : Addend) (ed ea eb : EOp)
  /-- FNMA: R198 -/
  | fnma (h : Hdr) (c : Addend) (ed ea eb : EOp)
  /-- FRCP: R199 -/
  | frcp (h : Hdr) (ed ea : EOp)
  /-- FRSQ: R199 -/
  | frsq (h : Hdr) (ed ea : EOp)
  /-- FRFR: R200 -/
  | frfr (h : Hdr) (ed ea eb : EOp)
  /-- FRFS: R200 -/
  | frfs (h : Hdr) (ed ea eb : EOp)
  /-- FCMP: R201 -/
  | fcmp (h : Hdr) (cc : FcmpCc) (pd : BitVec 4) (ea eb : EOp)
  /-- ICMP: R201 -/
  | icmp (h : Hdr) (cc : CmpCc) (pd : BitVec 4) (ea eb : EOp)
  /-- FCVT: R202 -/
  | fcvt (h : Hdr) (dst src : Fmt) (r : Rnd) (ed ea : EOp)
  /-- IOP: R203 -/
  | iop (h : Hdr) (fn : IopFn) (ed ea eb : EOp)
  /-- ELI: R204 -/
  | eli (h : Hdr) (ed : EOp) (imm : BitVec 18)
  /-- ELIH: R204 -/
  | elih (h : Hdr) (ed : Fin 768) (imm : BitVec 14)
  /-- EMOV: R204 -/
  | emov (h : Hdr) (ed ea : EOp)
  /-- ESEL: R204; the guard fields select -/
  | esel (h : Hdr) (ed ea eb : EOp)
  /-- ROT: R189 -/
  | rot (h : Hdr) (imm : BitVec 18)
  /-- LBR: R190 -/
  | lbr (h : Hdr) (n : BitVec 3) (off : BitVec 18)
  /-- ELD: R205 -/
  | eld (h : Hdr) (ed : EOp) (base : Option (Fin 768)) (off : BitVec 18)
  /-- EST: R205 -/
  | est (h : Hdr) (data : Fin 768) (base : Option (Fin 768)) (off : BitVec 18)
  /- Vector regions (R212 to R249) -/
  /-- VOP: R227 -/
  | vop (h : Hdr) (fn : VecOp) (r : Rnd) (wd wa wb : BitVec 5)
  /-- VFMA: R228 -/
  | vfma (h : Hdr) (neg : Bool) (sc : Option EOp) (r : Rnd) (wd wa wb : BitVec 5)
  /-- VSC: R229 -/
  | vsc (h : Hdr) (fn : VecOp) (r : Rnd) (wd wa : BitVec 5) (ea : EOp)
  /-- VUN: R230 -/
  | vun (h : Hdr) (fn : VunFn) (r : Rnd) (wd wa : BitVec 5)
  /-- VCVT: R231 -/
  | vcvt (h : Hdr) (r : Rnd) (wd wa : BitVec 5)
  /-- VRED: R233 -/
  | vred (h : Hdr) (fn : VredFn) (idx : Bool) (wa : BitVec 5) (ea : Fin 768)
  /-- VSCAN: R234 -/
  | vscan (h : Hdr) (exc : Bool) (r : Rnd) (wd wa : BitVec 5)
  /-- VCMP: R235 -/
  | vcmp (h : Hdr) (cc : VcmpCc) (sc : Option EOp) (wd wa wb : BitVec 5)
  /-- VSEL: R236 -/
  | vsel (h : Hdr) (wd wa wb wm : BitVec 5)
  /-- VCPR: R237 -/
  | vcpr (h : Hdr) (wd wa wm : BitVec 5) (ea : Fin 768)
  /-- VXPD: R238 -/
  | vxpd (h : Hdr) (wd wa wm : BitVec 5) (ea : Fin 768)
  /-- VGAT: R239 -/
  | vgat (h : Hdr) (z : Bool) (wd wa wb : BitVec 5)
  /-- VSCT: R239 -/
  | vsct (h : Hdr) (drop : Bool) (wd wa wb : BitVec 5)
  /-- VSCA: R239 -/
  | vsca (h : Hdr) (drop : Bool) (wd wa wb : BitVec 5)
  /-- VFILL: R232 -/
  | vfill (h : Hdr) (r : Rnd) (wd : BitVec 5) (ea : EOp)
  /-- VRND: R240 -/
  | vrnd (h : Hdr) (unif : Bool) (wd : BitVec 5)
  /-- VHAD: R241 -/
  | vhad (h : Hdr) (inv : Bool) (k : BitVec 4) (wd wa : BitVec 5) (ea : Fin 768)
  /-- VQNT: R242 -/
  | vqnt (h : Hdr) (mode : RMode) (wd wa wb : BitVec 5)
  /-- VDQT: R242 -/
  | vdqt (h : Hdr) (r : Rnd) (wd wa wb : BitVec 5)
  /-- VTOPK: R247 -/
  | vtopk (h : Hdr) (wd wa wb : BitVec 5) (ea : Fin 768)
  /-- VSAMP: R249 -/
  | vsamp (h : Hdr) (res : Bool) (wa wb : BitVec 5) (ea : Fin 768)
  /-- VSOFT: R248 -/
  | vsoft (h : Hdr) (wd wa : BitVec 5)
  /-- WSET: R245 -/
  | wset (h : Hdr) (fn : WsetFn) (wd : BitVec 5) (ea : EOp)
  /-- WGET: R245 -/
  | wget (h : Hdr) (rowf : Bool) (wa : BitVec 5) (ea : Fin 768)
  /-- VBIT: R243; ea used by cnt only -/
  | vbit (h : Hdr) (fn : VbitFn) (valid drop : Bool) (wd wa wb : BitVec 5) (ea : Fin 768)
  /-- VMOV: R244 -/
  | vmov (h : Hdr) (wd wa : BitVec 5)
  /- Matrix (R252 to R279) -/
  /-- MTW: R269 -/
  | mtw (h : Hdr) (lvl : Fin 6) (a : BitVec 6) (role : Role)
  /-- MTR: R269 -/
  | mtr (h : Hdr) (role : Bool) (d : BitVec 6) (lvl : Fin 6)
  /-- MCFG: R270 -/
  | mcfg (h : Hdr) (mode : Fusion) (r : Rnd)
  /-- MFMT: R271 -/
  | mfmt (h : Hdr) (a : BitVec 6)
  /-- MGO: R272 -/
  | mgo (h : Hdr) (a : BitVec 6) (ev : Bool) (tag : BitVec 11)
  /-- MTILE: R272 -/
  | mtile (h : Hdr) (a : BitVec 6) (ev : Bool) (tag : BitVec 11)
  /-- MWAIT: R276 -/
  | mwait (h : Hdr)
  /-- MZERO: R274 -/
  | mzero (h : Hdr) (a : BitVec 6)
  /-- MDRAIN: R275 -/
  | mdrain (h : Hdr) (f : BitVec 4) (a : BitVec 6) (ev : Bool) (tag : BitVec 11)
  /-- MTSM: R276 -/
  | mtsm (h : Hdr)
  /-- FSET: R277 -/
  | fset (h : Hdr) (f : BitVec 4) (a : BitVec 6)
  /-- FGET: R278 -/
  | fget (h : Hdr) (state : Bool) (d : BitVec 6) (f : BitVec 4)
  /-- FDROP: R279 -/
  | fdrop (h : Hdr) (f : BitVec 4) (a : BitVec 6)
  /- Headland (R282 to R298) -/
  /-- HGEN: R293 -/
  | hgen (h : Hdr) (wa ws : BitVec 5)
  /-- HGEN_REL: R293 -/
  | hgenRel (h : Hdr) (wa : BitVec 5)
  /-- HCHK: R294; ea on C only -/
  | hchk (h : Hdr) (ro : Bool) (t : HTarget) (ea : Option (Fin 768))
  /-- HFIX: R295 -/
  | hfix (h : Hdr) (corr : Bool) (t : HTarget) (ea : Fin 768)
  /-- HUPD: R296 -/
  | hupd (h : Hdr) (wd wa : BitVec 5)
  /-- HRD: R297 -/
  | hrd (h : Hdr) (t : HTarget) (ea : Fin 768)
  /-- HTOL: R298 -/
  | htol (h : Hdr) (ea : EOp)
  /- Map composition (R300 to R318) -/
  /-- MCCFG: R311 -/
  | mccfg (h : Hdr) (d a f : BitVec 6)
  /-- MCCFG_RST: R312 -/
  | mccfgRst (h : Hdr)
  /-- MCLD: R313 -/
  | mcld (h : Hdr) (a f : BitVec 6) (ev : Bool) (tag : BitVec 11)
  /-- MCLD_L: R313 -/
  | mcldL (h : Hdr) (a : BitVec 6) (ev : Bool) (tag : BitVec 11)
  /-- MCLD_R: R313 -/
  | mcldR (h : Hdr) (a f : BitVec 6) (ev : Bool) (tag : BitVec 11)
  /-- MCST: R314 -/
  | mcst (h : Hdr) (glob : Bool) (a f : BitVec 6) (ev : Bool) (tag : BitVec 11)
  /-- MCCMP: R315 -/
  | mccmp (h : Hdr) (a : BitVec 6) (ev : Bool) (tag : BitVec 11)
  /-- MCTREE: R316 -/
  | mctree (h : Hdr) (a : BitVec 6) (ev : Bool) (tag : BitVec 11)
  /-- MCAPP: R317 -/
  | mcapp (h : Hdr) (d a f : BitVec 6)
  /-- MCAPP_T: R317 -/
  | mcappT (h : Hdr) (d a f : BitVec 6)
  /-- MCMSK: R318 -/
  | mcmsk (h : Hdr) (a f : BitVec 6) (ev : Bool) (tag : BitVec 11)
  /-- MCCHK: R317 -/
  | mcchk (h : Hdr) (fn : McchkFn) (pd : BitVec 4) (a : BitVec 6)
  /- Licensed tensors (R323 to R339) -/
  /-- THOPEN: R335 -/
  | thopen (h : Hdr) (b : BitVec 2) (a : BitVec 6)
  /-- THCLOSE: R337 -/
  | thclose (h : Hdr) (b : BitVec 2)
  /-- THABORT: R337 -/
  | thabort (h : Hdr) (b : BitVec 2)
  /-- THBIND: R336 -/
  | thbind (h : Hdr) (b : BitVec 2) (f : BitVec 4)
  /-- THBIND_R: R336 -/
  | thbindR (h : Hdr) (b : BitVec 2) (a : BitVec 6)
  /-- THRD: R338 -/
  | thrd (h : Hdr) (fn : ThrdFn) (d a : BitVec 6)
  /-- THSTM: R339 -/
  | thstm (h : Hdr) (d a f : BitVec 6)
  /- Copy, fabric, crypto and KV (R343 to R365) -/
  /-- CPY: R347, R348 -/
  | cpy (h : Hdr) (a : BitVec 6) (ev : Bool) (tag : BitVec 11)
  /-- CPY2: R347, R348 -/
  | cpy2 (h : Hdr) (a : BitVec 6) (ev : Bool) (tag : BitVec 11)
  /-- CPRES: R351 -/
  | cpres (h : Hdr)
  /-- CPRES_DROP: R351 -/
  | cpresDrop (h : Hdr)
  /-- CPWAIT: R352 -/
  | cpwait (h : Hdr)
  /-- FXS: R355, R356 -/
  | fxs (h : Hdr) (a : BitVec 6) (ev : Bool) (tag : BitVec 11)
  /-- FXR: R355, R356 -/
  | fxr (h : Hdr) (a : BitVec 6) (ev : Bool) (tag : BitVec 11)
  /-- FXRED: R355, R356 -/
  | fxred (h : Hdr) (a : BitVec 6) (ev : Bool) (tag : BitVec 11)
  /-- FXWAIT: R357 -/
  | fxwait (h : Hdr)
  /-- TSAT: R358 -/
  | tsat (h : Hdr) (a : BitVec 6)
  /-- TSAT_WAIT: R358 -/
  | tsatWait (h : Hdr) (a : BitVec 6)
  /-- HSH_INIT: R359 -/
  | hshInit (h : Hdr) (n : BitVec 2)
  /-- HSH: R359 -/
  | hsh (h : Hdr) (n : BitVec 2) (a : BitVec 6)
  /-- HFIN: R359 -/
  | hfin (h : Hdr) (n : BitVec 2) (d a : BitVec 6) (len : BitVec 7)
  /-- SGN: R360 -/
  | sgn (h : Hdr) (a : BitVec 6)
  /-- VFY: R360 -/
  | vfy (h : Hdr) (d a : BitVec 6)
  /-- MEXT: R361 -/
  | mext (h : Hdr) (m : BitVec 3) (a : BitVec 6)
  /-- MEXT_RD: R361 -/
  | mextRd (h : Hdr) (m : BitVec 3) (a : BitVec 6)
  /-- KUNW: R362 -/
  | kunw (h : Hdr) (d : BitVec 6) (slot : BitVec 6) (a : BitVec 6)
  /-- PXLK: R364 -/
  | pxlk (h : Hdr) (d a : BitVec 6)
  /-- PXLK_ACQ: R364 -/
  | pxlkAcq (h : Hdr) (d a : BitVec 6)
  /-- PXINS: R364 -/
  | pxins (h : Hdr) (d a : BitVec 6)
  /-- PXREF_ADD: R364 -/
  | pxrefAdd (h : Hdr) (d a : BitVec 6)
  /-- PXREF_DROP: R364 -/
  | pxrefDrop (h : Hdr) (d a : BitVec 6)
  /-- PXEVC: R364 -/
  | pxevc (h : Hdr) (d a : BitVec 6)
  /-- KVPG_ALLOC: R365 -/
  | kvpgAlloc (h : Hdr) (d a : BitVec 6)
  /-- KVPG_FREE: R365 -/
  | kvpgFree (h : Hdr) (d a : BitVec 6)
  /-- KVPG_REL: R365 -/
  | kvpgRel (h : Hdr) (d a : BitVec 6)
  /-- KVPG_ACK: R365 -/
  | kvpgAck (h : Hdr) (d a : BitVec 6)
  /- Steps of the core that no instruction word encodes -/
  /-- RESULT_LANDING: R192 -/
  | resultLanding
  /-- CHECKED_ACTION_CONFIRM: R116, R119 -/
  | checkedActionConfirm (o : CheckOutcome)
  /-- LOAD_ARRIVAL: R162, R169 -/
  | loadArrival (id : Nat)
  /-- ACCESS_PERFORMED: R159 -/
  | accessPerformed (id : Nat)
  /-- SLOT_JOIN: R171 -/
  | slotJoin (id : Nat)
  /-- TLB_INVALIDATE: R182; `e` is what the remap made of the page -/
  | tlbInvalidate (ctx vbase : Nat) (e : Option PageEntry)
  /-- MATRIX_STEP: R255, R261 -/
  | matrixStep
  /-- MARKER: R262 -/
  | marker
  /-- DRAIN: R275 -/
  | drain
  /-- MCE_COMMAND: R304 -/
  | mceCommand
  /-- COPY_STEP: R349 -/
  | copyStep
  /-- FABRIC_MATCH: R356; far is the peer's message or buffer -/
  | fabricMatch (send : Bool) (i : Nat) (far : FarSide)
  /-- FABRIC_FRAME: R357 -/
  | fabricFrame (send : Bool) (i : Nat) (bytes : List (BitVec 8))
  /-- FABRIC_LINK_FAIL: R356 -/
  | fabricLinkFail (i : Nat)
  /-- TITHE_DECIDE: R342 -/
  | titheDecide
  /-- METER_STATEMENT: R339 -/
  | meterStatement
  /-- KV_DECIDE: R363 -/
  | kvDecide
  /-- BARRIER_PHASE_COMPLETE: R129 -/
  | barrierPhaseComplete (b : BitVec 2)
  /-- TIMER_EXPIRY: R148 -/
  | timerExpiry
  /-- BUDGET_EXPIRY: R250 -/
  | budgetExpiry
  /-- WFE_TIMEOUT: R139 -/
  | wfeTimeout (i : Issuer)
  /-- ATTN: R148 -/
  | attn (v : BitVec 64)
  /-- TAKE_INTERRUPT: R148 -/
  | takeInterrupt (i : Issuer)
  /-- F_EVENT_TAKE: R141 -/
  | fEventTake
  /-- NOISE_RESEED: R225 -/
  | noiseReseed (ch : Fin 5)
  /-- SLUICE_PASS: R439 -/
  | sluicePass (u : EgressUser)
  /-- HUNG_DETECT: R161 -/
  | hungDetect
  /-- PREEMPT_DEMAND: R27 -/
  | preemptDemand
  /-- ENGINE_SAVE_POINT: R155 -/
  | engineSavePoint
  /-- PARTITION_SAVE: R156 -/
  | partitionSave
  /-- PARTITION_RESTORE: R153 -/
  | partitionRestore
  /- Steps of the launch path, ownership and boot (chapter 16) -/
  /-- QTAIL_WRITE: R398 -/
  | qtailWrite (master : BitVec 24) (die : Nat) (q : Nat) (t : BitVec 64)
  /-- REGISTER_WRITE: R7, R397, R407 -/
  | registerWrite (master : BitVec 24) (off : Nat) (v : BitVec 64)
  /-- PACKET_CHECK: R400 -/
  | packetCheck (die q : Nat)
  /-- TIMED_START: R30 -/
  | timedStart
  /-- GROUP_PLACE: R24, R25 -/
  | groupPlace (p : Placement)
  /-- GATED_ADMIT: R420 -/
  | gatedAdmit
  /-- COMPLETION_RECORD: R402; failed counts the failed tasks on other cores -/
  | completionRecord (failed : Nat)
  /-- IMEM_REPAIR: R404 -/
  | imemRepair (core addr : Nat)
  /-- DIE_HOLD: R404 -/
  | dieHold (die : Nat)
  /-- SCHED_RESTART: R405 -/
  | schedRestart (core : Nat)
  /-- CLAIM: R408 -/
  | claim (master : BitVec 24) (nonce : BitVec 32)
  /-- BEAT: R407 -/
  | beat (master : BitVec 24)
  /-- RELEASE: R409 -/
  | release (master : BitVec 24)
  /-- LEASE_EXPIRY: R409 -/
  | leaseExpiry
  /-- DEFINE_ENCLOSURE: R415, R439 -/
  | defineEnclosure (m : EnclosureMsg)
  /-- REGISTER_MODEL: R416 -/
  | registerModel (m : ModelMsg)
  /-- REPLACE: R419 -/
  | replace (model gen list : Nat)
  /-- WAVE_LAYER: R419; ok: every copy of the layer succeeded -/
  | waveLayer (ok : Bool)
  /-- FIRMWARE_STAGE: R421 -/
  | firmwareStage (m : FirmwareMsg)
  /-- FIRMWARE_ACTIVATE: R422 -/
  | firmwareActivate
  /-- OWNER_KEY_REGISTRY: R323, R415 -/
  | ownerKeyRegistry (n : Nat) (key : List (BitVec 8))
  /-- FABRIC_ROUTE: R415 -/
  | fabricRoute (dev : BitVec 16) (ports : BitVec 16)
  /-- TIDELINE_TRIM: R413 -/
  | tidelineTrim (seq : Nat)
  /-- TIDELINE_SEAL: R412 -/
  | tidelineSeal
  /-- CONTEXT_CREATE: R325, R415 -/
  | contextCreate (ctx : Nat) (key : BitVec 64) (images : List Image)
  /-- CONTEXT_DESTROY: R332 -/
  | contextDestroy (ctx : Nat)
  /-- EXTEND: R415 -/
  | extend (m : BitVec 3) (v : List (BitVec 8))
  /-- FORESHORE_SPLIT: R157 -/
  | foreshoreSplit (die : Nat) (steps : Nat)
  /-- INSTALL_TERMS: R324; the 192-byte install message -/
  | installTerms (msg : List (BitVec 8))
  /-- HOST_WRITE: R378 -/
  | hostWrite (tier : Tier) (pa : Nat) (bytes : List (BitVec 8)) (relaxed : Bool)
  /-- HOST_READ: R32 -/
  | hostRead (ctx : Nat) (va : Nat) (len : Nat)
  /-- GET_VERSION: R424; answers the request in the mailbox -/
  | getVersion
  /-- GET_CAPABILITIES: R424; answers the request in the mailbox -/
  | getCapabilities
  /-- NEGOTIATE_ALGORITHMS: R424; answers the request in the mailbox -/
  | negotiateAlgorithms
  /-- GET_DIGESTS: R424; answers the request in the mailbox -/
  | getDigests
  /-- GET_CERTIFICATE: R424; answers the request in the mailbox -/
  | getCertificate
  /-- CHALLENGE: R424; answers the request in the mailbox -/
  | challenge
  /-- GET_MEASUREMENTS: R424; answers the request in the mailbox -/
  | getMeasurements
  /-- PTP_CORRECTION: R410 -/
  | ptpCorrection (delta : Int)
  /-- POWER_ON_BOOT: R423 -/
  | powerOnBoot
  /-- DEVICE_RESET: R409 -/
  | deviceReset
  /-- POWER_LOSS: R33 -/
  | powerLoss
  /-- THERMAL_TRIP: R425 -/
  | thermalTrip
  /-- CLOCK_THROTTLE: R425; hot: above the limits -/
  | clockThrottle (hot : Bool)
  /-- CXL_AGENT_ACCESS: R379 -/
  | cxlAgentAccess (pa : Nat) (w : Option (List (BitVec 8)))
  /-- SOFT_ERROR: R176, R120 -/
  | softError (t : ErrorTarget)
  /-- CRYPTO_UNIT_RESULT: R359 -/
  | cryptoUnitResult
deriving DecidableEq, Repr

end Sys2Proof
end

