-- ==== Sys2Proof/WellFormed.lean ====
section
/-! DEFINITION. Well-formedness: which instructions are instruction words of an issuer (R42, R46, R50 to R52, and the
field tables of the class chapters). The steps that no word encodes are no instruction words. -/

namespace Sys2Proof

/-- The sequencer of an issuer. -/
def Issuer.stream : Issuer → StreamId
  | .kTask => .k
  | .kFirm => .k
  | .l => .l
  | .c => .c
  | .s => .s

/-- The unary functions of `alu` (R90). -/
def AluFn.unary : AluFn → Bool
  | .clz | .ctz | .popc | .bswap | .sxb | .sxh | .sxw => true
  | _ => false

/-- The unary functions of `fop` (R196). -/
def FopFn.unary : FopFn → Bool
  | .fabs | .fneg => true
  | _ => false

/-- Element operands allowed as a source (R46). -/
def EOp.isSrc : EOp → Bool
  | .e _ | .lq _ | .zero | .one => true
  | .sq _ | .iq _ => false

/-- Element operands allowed as a destination (R46). -/
def EOp.isDst : EOp → Bool
  | .e _ | .sq _ | .iq _ => true
  | .lq _ | .zero | .one => false

/-- The element registers (R217). -/
def EOp.isReg : EOp → Bool
  | .e _ => true
  | _ => false

/-- A register pair e[n], e[n + 1] (R217). -/
def EOp.isPair : EOp → Bool
  | .e n => n.val < 767
  | _ => false

/-- The producer and the consumer of a token FIFO (R123). -/
def Fifo.producer : Fifo → StreamId
  | .kl | .ks | .kc => .k
  | .lk | .lc => .l
  | .cl | .cs | .ck => .c
  | .sc | .sk => .s
def Fifo.consumer : Fifo → StreamId
  | .lk | .sk | .ck => .k
  | .kl | .cl => .l
  | .lc | .sc | .kc => .c
  | .cs | .ks => .s

/-- The count of a `loop` names a register of the issuing stream's own kind (R99). -/
def LoopSrc.okFor : LoopSrc → Issuer → Bool
  | .imm _, _ => true
  | .reg _, i => i != .c
  | .ereg _, i => i == .c

/-- The queues that a stream may flush (R175). -/
def QName.flushableBy : QName → Issuer → Bool
  | .lq _, .l | .iq _, .l | .sq _, .s => true
  | _, .c => true
  | _, _ => false

/-- `qln` writes a register of the issuing stream's own kind (R175). -/
def QlnDst.okFor : QlnDst → Issuer → Bool
  | .areg _, i => i == .l || i == .s
  | .ereg _, i => i == .c

/-- The pairs of formats that `fcvt` names (R202). -/
def Fmt.fcvtPair (dst src : Fmt) : Bool :=
  let other : Fmt → Bool := fun f => f == .bf16 || f == .fp16 || f == .e4m3 || f == .e5m2 || f == .int32
  (src == .fp32 && other dst) || (dst == .fp32 && other src)

/-- The forms of `wset` that read a register pair (R245). -/
def WsetFn.pair : WsetFn → Bool
  | .image | .rowf => true
  | _ => false

/-- The fields that each form of `vbit` uses (R226, R243). -/
def VbitFn.wf (fn : VbitFn) (valid drop : Bool) (wd wb : BitVec 5) (ea : Fin 768) : Bool :=
  match fn with
  | .set | .clr => (valid || wb == 0) && ea == 0
  | .tst => !valid && ea == 0
  | .cnt => !valid && !drop && wd == 0 && wb == 0

/-- The guard of a header, by the formats of R48: no guard, a positive guard, any guard. -/
def Hdr.unguarded (h : Hdr) : Bool := h.pq == 0 && !h.neg
def Hdr.positive (h : Hdr) : Bool := !h.neg

/-- The firmware context owns no token FIFO (R441). -/
def Hdr.tokensOk (h : Hdr) (iss : Issuer) : Bool := iss != .kFirm || (!h.wp && !h.wn && !h.sp && !h.sn)

/-- `i` is an instruction word that `iss` accepts; `svc` says whether the core is the service core (R54). -/
def Instr.wf (iss : Issuer) (svc : Bool) (i : Instr) : Bool :=
  match i with
  | .nop h => [.k, .l, .c, .s].contains iss.stream && h.tokensOk iss
  | .li h _ _ => [.k, .l, .s].contains iss.stream && h.tokensOk iss && h.unguarded
  | .lih h _ _ => [.k, .l, .s].contains iss.stream && h.tokensOk iss && h.unguarded
  | .alu h fn _ _ b => [.k, .l, .s].contains iss.stream && h.tokensOk iss && (!fn.unary || b == 0)
  | .addi h _ _ _ => [.k, .l, .s].contains iss.stream && h.tokensOk iss && h.positive
  | .andi h _ _ _ => [.k, .l, .s].contains iss.stream && h.tokensOk iss && h.positive
  | .ori h _ _ _ => [.k, .l, .s].contains iss.stream && h.tokensOk iss && h.positive
  | .xori h _ _ _ => [.k, .l, .s].contains iss.stream && h.tokensOk iss && h.positive
  | .shli h _ _ _ => [.k, .l, .s].contains iss.stream && h.tokensOk iss && h.positive
  | .shri h _ _ _ => [.k, .l, .s].contains iss.stream && h.tokensOk iss && h.positive
  | .sari h _ _ _ => [.k, .l, .s].contains iss.stream && h.tokensOk iss && h.positive
  | .muli h _ _ _ => [.k, .l, .s].contains iss.stream && h.tokensOk iss && h.positive
  | .cmp h _ _ _ _ => [.k, .l, .s].contains iss.stream && h.tokensOk iss
  | .cmpi h _ _ _ _ => [.k, .l, .s].contains iss.stream && h.tokensOk iss
  | .plog h fn _ _ b => [.k, .l, .c, .s].contains iss.stream && h.tokensOk iss && (fn != .pmov || b == 0)
  | .sel h _ _ _ => [.k, .l, .s].contains iss.stream && h.tokensOk iss
  | .lea h _ _ _ _ => [.k, .l, .s].contains iss.stream && h.tokensOk iss
  | .br h _ => [.k, .l, .c, .s].contains iss.stream && h.tokensOk iss
  | .call h _ => [.k, .l, .s].contains iss.stream && h.tokensOk iss
  | .jr h _ _ => [.k, .l, .s].contains iss.stream && h.tokensOk iss
  | .loop h _ src => [.k, .l, .c, .s].contains iss.stream && h.tokensOk iss && src.okFor iss
  | .endl h _ _ => [.k, .l, .c, .s].contains iss.stream && h.tokensOk iss
  | .safe h => [.k, .l, .c, .s].contains iss.stream && h.tokensOk iss
  | .endT h => [.k, .l, .c, .s].contains iss.stream && h.tokensOk iss
  | .ldk h _ _ _ _ _ => [.k].contains iss.stream && h.tokensOk iss && h.positive
  | .stk h _ _ _ _ _ => [.k].contains iss.stream && h.tokensOk iss && h.positive
  | .lds h _ _ _ _ => [.k].contains iss.stream && h.tokensOk iss && h.positive
  | .sts h _ _ _ _ => [.k].contains iss.stream && h.tokensOk iss && h.positive
  | .rsr h _ _ => [.k].contains iss.stream && h.tokensOk iss
  | .wsr h _ _ => [.k].contains iss.stream && h.tokensOk iss
  | .epush h port _ => [.k].contains iss.stream && h.tokensOk iss && port == .mxf
  | .epop h _ port => [.k].contains iss.stream && h.tokensOk iss && (port != .cr || (svc && iss == .kFirm))
  | .ecountOut h _ port => [.k].contains iss.stream && h.tokensOk iss && (port != .cr || (svc && iss == .kFirm))
  | .ecountIn h _ port => [.k].contains iss.stream && h.tokensOk iss && (port != .cr || (svc && iss == .kFirm))
  | .rnd h _ => [.k].contains iss.stream && h.tokensOk iss
  | .tkp h f n => [.k, .l, .c, .s].contains iss.stream && h.tokensOk iss && (f.producer == iss.stream && iss != .kFirm && n != 0)
  | .tkw h f n => [.k, .l, .c, .s].contains iss.stream && h.tokensOk iss && (f.consumer == iss.stream && iss != .kFirm && n != 0)
  | .tkc h _ _ => [.k].contains iss.stream && h.tokensOk iss && iss != .kFirm
  | .bar h _ => [.k].contains iss.stream && h.tokensOk iss
  | .bara h _ => [.k].contains iss.stream && h.tokensOk iss
  | .barw h _ => [.k].contains iss.stream && h.tokensOk iss
  | .renq h _ _ => [.k].contains iss.stream && h.tokensOk iss
  | .amo h _ _ _ _ _ _ => [.k, .s].contains iss.stream && h.tokensOk iss
  | .fence h _ _ => [.k, .l, .c, .s].contains iss.stream && h.tokensOk iss
  | .mark h => [.l, .s].contains iss.stream && h.tokensOk iss
  | .wfe h _ => [.k, .l, .c, .s].contains iss.stream && h.tokensOk iss
  | .sysCall h _ => [.k].contains iss.stream && h.tokensOk iss
  | .sysResume h _ => [.k].contains iss.stream && h.tokensOk iss
  | .sysKill h _ => [.k].contains iss.stream && h.tokensOk iss
  | .sysTmr h _ _ => [.k].contains iss.stream && h.tokensOk iss
  | .trap h _ => [.k, .l, .c, .s].contains iss.stream && h.tokensOk iss
  | .brk h _ => [.k, .l, .c, .s].contains iss.stream && h.tokensOk iss
  | .rfi h => [.k, .l, .c, .s].contains iss.stream && h.tokensOk iss
  | .ld h _ _ _ _ _ _ => [.l].contains iss.stream && h.tokensOk iss && h.positive
  | .ldp h _ _ _ _ _ => [.l].contains iss.stream && h.tokensOk iss && h.positive
  | .ldi h _ _ _ _ _ => [.l].contains iss.stream && h.tokensOk iss && h.positive
  | .ldg h _ _ _ _ _ _ _ => [.l].contains iss.stream && h.tokensOk iss && h.positive
  | .ldr h _ _ _ _ _ => [.l].contains iss.stream && h.tokensOk iss && h.positive
  | .ldw h _ _ _ _ => [.l].contains iss.stream && h.tokensOk iss && h.positive
  | .pf h _ _ _ => [.l, .s].contains iss.stream && h.tokensOk iss && h.positive
  | .st h _ _ _ _ _ => [.s].contains iss.stream && h.tokensOk iss && h.positive
  | .stp h _ _ _ _ _ => [.s].contains iss.stream && h.tokensOk iss && h.positive
  | .stg h _ _ _ _ _ _ => [.s].contains iss.stream && h.tokensOk iss && h.positive
  | .stw h _ _ _ _ => [.s].contains iss.stream && h.tokensOk iss && h.positive
  | .stt h _ _ _ _ _ _ => [.s].contains iss.stream && h.tokensOk iss && h.positive
  | .qfl h q => [.l, .c, .s].contains iss.stream && h.tokensOk iss && h.positive && q.flushableBy iss
  | .qln h dst _ => [.l, .c, .s].contains iss.stream && h.tokensOk iss && h.positive && dst.okFor iss
  | .fop h fn ed ea eb => [.c].contains iss.stream && h.tokensOk iss && ed.isDst && ea.isSrc && eb.isSrc && (!fn.unary || eb == .e 0)
  | .fma h c ed ea eb => [.c].contains iss.stream && h.tokensOk iss && ed.isDst && ea.isSrc && eb.isSrc && (c != .ed || ed.isReg)
  | .fnma h c ed ea eb => [.c].contains iss.stream && h.tokensOk iss && ed.isDst && ea.isSrc && eb.isSrc && (c != .ed || ed.isReg)
  | .frcp h ed ea => [.c].contains iss.stream && h.tokensOk iss && ed.isDst && ea.isSrc
  | .frsq h ed ea => [.c].contains iss.stream && h.tokensOk iss && ed.isDst && ea.isSrc
  | .frfr h ed ea eb => [.c].contains iss.stream && h.tokensOk iss && ed.isDst && ea.isSrc && eb.isSrc
  | .frfs h ed ea eb => [.c].contains iss.stream && h.tokensOk iss && ed.isDst && ea.isSrc && eb.isSrc
  | .fcmp h _ _ ea eb => [.c].contains iss.stream && h.tokensOk iss && ea.isSrc && eb.isSrc
  | .icmp h _ _ ea eb => [.c].contains iss.stream && h.tokensOk iss && ea.isSrc && eb.isSrc
  | .fcvt h dst src _ ed ea => [.c].contains iss.stream && h.tokensOk iss && ed.isDst && ea.isSrc && Fmt.fcvtPair dst src
  | .iop h _ ed ea eb => [.c].contains iss.stream && h.tokensOk iss && ed.isDst && ea.isSrc && eb.isSrc
  | .eli h ed _ => [.c].contains iss.stream && h.tokensOk iss && h.positive && ed.isDst
  | .elih h _ _ => [.c].contains iss.stream && h.tokensOk iss && h.positive
  | .emov h ed ea => [.c].contains iss.stream && h.tokensOk iss && ed.isDst && ea.isSrc
  | .esel h ed ea eb => [.c].contains iss.stream && h.tokensOk iss && ed.isDst && ea.isSrc && eb.isSrc
  | .rot h _ => [.c].contains iss.stream && h.tokensOk iss && h.positive
  | .lbr h _ _ => [.c].contains iss.stream && h.tokensOk iss && h.positive
  | .eld h ed _ _ => [.c].contains iss.stream && h.tokensOk iss && h.positive && ed.isDst
  | .est h _ _ _ => [.c].contains iss.stream && h.tokensOk iss && h.positive
  | .vop h _ _ _ _ _ => [.c].contains iss.stream && h.tokensOk iss
  | .vfma h _ sc _ _ _ _ => [.c].contains iss.stream && h.tokensOk iss && (match sc with | none => true | some e => e.isSrc)
  | .vsc h _ _ _ _ ea => [.c].contains iss.stream && h.tokensOk iss && ea.isSrc
  | .vun h fn r _ _ => [.c].contains iss.stream && h.tokensOk iss && ((fn != .neg && fn != .abs) || r == ⟨.rne, false⟩)
  | .vcvt h _ _ _ => [.c].contains iss.stream && h.tokensOk iss
  | .vred h fn idx _ ea => [.c].contains iss.stream && h.tokensOk iss && (!idx || (fn != .sum && ea.val < 767))
  | .vscan h _ _ _ _ => [.c].contains iss.stream && h.tokensOk iss
  | .vcmp h _ sc _ _ wb => [.c].contains iss.stream && h.tokensOk iss && (match sc with | none => true | some e => e.isSrc && wb == 0)
  | .vsel h _ _ _ _ => [.c].contains iss.stream && h.tokensOk iss
  | .vcpr h _ _ _ _ => [.c].contains iss.stream && h.tokensOk iss
  | .vxpd h _ _ _ _ => [.c].contains iss.stream && h.tokensOk iss
  | .vgat h _ _ _ _ => [.c].contains iss.stream && h.tokensOk iss
  | .vsct h _ _ _ _ => [.c].contains iss.stream && h.tokensOk iss
  | .vsca h _ _ _ _ => [.c].contains iss.stream && h.tokensOk iss
  | .vfill h _ _ ea => [.c].contains iss.stream && h.tokensOk iss && ea.isSrc
  | .vrnd h _ _ => [.c].contains iss.stream && h.tokensOk iss
  | .vhad h _ k _ _ ea => [.c].contains iss.stream && h.tokensOk iss && (1 ≤ k.toNat && k.toNat ≤ 12 && ea.val < 767)
  | .vqnt h _ _ _ _ => [.c].contains iss.stream && h.tokensOk iss
  | .vdqt h _ _ _ _ => [.c].contains iss.stream && h.tokensOk iss
  | .vtopk h _ _ _ ea => [.c].contains iss.stream && h.tokensOk iss && ea.val < 766
  | .vsamp h res _ wb ea => [.c].contains iss.stream && h.tokensOk iss && (ea.val < 766 && (res || wb == 0))
  | .vsoft h _ _ => [.c].contains iss.stream && h.tokensOk iss
  | .wset h fn wd ea => [.c].contains iss.stream && h.tokensOk iss && (ea.isSrc && (!fn.pair || ea.isPair) && (fn != .rowf || wd == 0))
  | .wget h rowf wa ea => [.c].contains iss.stream && h.tokensOk iss && (ea.val < 767 && (!rowf || wa == 0))
  | .vbit h fn valid drop wd _ wb ea => [.c].contains iss.stream && h.tokensOk iss && fn.wf valid drop wd wb ea
  | .vmov h _ _ => [.c].contains iss.stream && h.tokensOk iss
  | .mtw h _ _ _ => [.k].contains iss.stream && h.tokensOk iss
  | .mtr h _ _ _ => [.k].contains iss.stream && h.tokensOk iss
  | .mcfg h _ _ => [.k].contains iss.stream && h.tokensOk iss
  | .mfmt h _ => [.k].contains iss.stream && h.tokensOk iss
  | .mgo h _ _ _ => [.k].contains iss.stream && h.tokensOk iss
  | .mtile h _ _ _ => [.k].contains iss.stream && h.tokensOk iss
  | .mwait h => [.k].contains iss.stream && h.tokensOk iss
  | .mzero h _ => [.k].contains iss.stream && h.tokensOk iss
  | .mdrain h _ _ _ _ => [.k].contains iss.stream && h.tokensOk iss
  | .mtsm h => [.k].contains iss.stream && h.tokensOk iss
  | .fset h _ _ => [.k].contains iss.stream && h.tokensOk iss
  | .fget h _ _ _ => [.k].contains iss.stream && h.tokensOk iss
  | .fdrop h _ _ => [.k].contains iss.stream && h.tokensOk iss
  | .hgen h _ _ => [.c].contains iss.stream && h.tokensOk iss
  | .hgenRel h _ => [.c].contains iss.stream && h.tokensOk iss
  | .hchk h _ t ea => [.c, .s].contains iss.stream && h.tokensOk iss && (match iss, t, ea with | .c, _, some _ => true | .s, .fur _, none => true | _, _, _ => false)
  | .hfix h _ _ ea => [.c].contains iss.stream && h.tokensOk iss && ea.val < 767
  | .hupd h _ _ => [.c].contains iss.stream && h.tokensOk iss
  | .hrd h _ ea => [.c].contains iss.stream && h.tokensOk iss && ea.val < 766
  | .htol h ea => [.c].contains iss.stream && h.tokensOk iss && ea.isSrc
  | .mccfg h _ _ _ => [.k].contains iss.stream && h.tokensOk iss
  | .mccfgRst h => [.k].contains iss.stream && h.tokensOk iss
  | .mcld h _ _ _ _ => [.k].contains iss.stream && h.tokensOk iss
  | .mcldL h _ _ _ => [.k].contains iss.stream && h.tokensOk iss
  | .mcldR h _ _ _ _ => [.k].contains iss.stream && h.tokensOk iss
  | .mcst h _ _ _ _ _ => [.k].contains iss.stream && h.tokensOk iss
  | .mccmp h _ _ _ => [.k].contains iss.stream && h.tokensOk iss
  | .mctree h _ _ _ => [.k].contains iss.stream && h.tokensOk iss
  | .mcapp h _ _ _ => [.k].contains iss.stream && h.tokensOk iss
  | .mcappT h _ _ _ => [.k].contains iss.stream && h.tokensOk iss
  | .mcmsk h _ _ _ _ => [.k].contains iss.stream && h.tokensOk iss
  | .mcchk h _ _ _ => [.k].contains iss.stream && h.tokensOk iss
  | .thopen h _ _ => [.k].contains iss.stream && h.tokensOk iss
  | .thclose h _ => [.k].contains iss.stream && h.tokensOk iss
  | .thabort h _ => [.k].contains iss.stream && h.tokensOk iss
  | .thbind h _ _ => [.k].contains iss.stream && h.tokensOk iss
  | .thbindR h _ _ => [.k].contains iss.stream && h.tokensOk iss
  | .thrd h _ _ _ => [.k].contains iss.stream && h.tokensOk iss
  | .thstm h _ _ _ => [.k].contains iss.stream && h.tokensOk iss
  | .cpy h _ _ _ => [.k].contains iss.stream && h.tokensOk iss
  | .cpy2 h _ _ _ => [.k].contains iss.stream && h.tokensOk iss
  | .cpres h => [.k].contains iss.stream && h.tokensOk iss
  | .cpresDrop h => [.k].contains iss.stream && h.tokensOk iss
  | .cpwait h => [.k].contains iss.stream && h.tokensOk iss
  | .fxs h _ _ _ => [.k].contains iss.stream && h.tokensOk iss
  | .fxr h _ _ _ => [.k].contains iss.stream && h.tokensOk iss
  | .fxred h _ _ _ => [.k].contains iss.stream && h.tokensOk iss
  | .fxwait h => [.k].contains iss.stream && h.tokensOk iss
  | .tsat h _ => [.k].contains iss.stream && h.tokensOk iss
  | .tsatWait h _ => [.k].contains iss.stream && h.tokensOk iss
  | .hshInit h _ => [.k].contains iss.stream && h.tokensOk iss && svc && iss == .kFirm
  | .hsh h _ _ => [.k].contains iss.stream && h.tokensOk iss && svc && iss == .kFirm
  | .hfin h _ _ _ _ => [.k].contains iss.stream && h.tokensOk iss && svc && iss == .kFirm
  | .sgn h _ => [.k].contains iss.stream && h.tokensOk iss && svc && iss == .kFirm
  | .vfy h _ _ => [.k].contains iss.stream && h.tokensOk iss && svc && iss == .kFirm
  | .mext h _ _ => [.k].contains iss.stream && h.tokensOk iss && svc && iss == .kFirm
  | .mextRd h _ _ => [.k].contains iss.stream && h.tokensOk iss && svc && iss == .kFirm
  | .kunw h _ _ _ => [.k].contains iss.stream && h.tokensOk iss && svc && iss == .kFirm
  | .pxlk h _ _ => [.k].contains iss.stream && h.tokensOk iss
  | .pxlkAcq h _ _ => [.k].contains iss.stream && h.tokensOk iss
  | .pxins h _ _ => [.k].contains iss.stream && h.tokensOk iss
  | .pxrefAdd h _ _ => [.k].contains iss.stream && h.tokensOk iss
  | .pxrefDrop h _ _ => [.k].contains iss.stream && h.tokensOk iss
  | .pxevc h _ _ => [.k].contains iss.stream && h.tokensOk iss
  | .kvpgAlloc h _ _ => [.k].contains iss.stream && h.tokensOk iss
  | .kvpgFree h _ _ => [.k].contains iss.stream && h.tokensOk iss
  | .kvpgRel h _ _ => [.k].contains iss.stream && h.tokensOk iss
  | .kvpgAck h _ _ => [.k].contains iss.stream && h.tokensOk iss
  | .resultLanding => false
  | .checkedActionConfirm _ => false
  | .loadArrival _ => false
  | .accessPerformed _ => false
  | .slotJoin _ => false
  | .tlbInvalidate _ _ _ => false
  | .matrixStep => false
  | .marker => false
  | .drain => false
  | .mceCommand => false
  | .copyStep => false
  | .fabricMatch _ _ _ => false
  | .fabricFrame _ _ _ => false
  | .fabricLinkFail _ => false
  | .titheDecide => false
  | .meterStatement => false
  | .kvDecide => false
  | .barrierPhaseComplete _ => false
  | .timerExpiry => false
  | .budgetExpiry => false
  | .wfeTimeout _ => false
  | .attn _ => false
  | .takeInterrupt _ => false
  | .fEventTake => false
  | .noiseReseed _ => false
  | .sluicePass _ => false
  | .hungDetect => false
  | .preemptDemand => false
  | .engineSavePoint => false
  | .partitionSave => false
  | .partitionRestore => false
  | .qtailWrite _ _ _ _ => false
  | .registerWrite _ _ _ => false
  | .packetCheck _ _ => false
  | .timedStart => false
  | .groupPlace _ => false
  | .gatedAdmit => false
  | .completionRecord _ => false
  | .imemRepair _ _ => false
  | .dieHold _ => false
  | .schedRestart _ => false
  | .claim _ _ => false
  | .beat _ => false
  | .release _ => false
  | .leaseExpiry => false
  | .defineEnclosure _ => false
  | .registerModel _ => false
  | .replace _ _ _ => false
  | .waveLayer _ => false
  | .firmwareStage _ => false
  | .firmwareActivate => false
  | .ownerKeyRegistry _ _ => false
  | .fabricRoute _ _ => false
  | .tidelineTrim _ => false
  | .tidelineSeal => false
  | .contextCreate _ _ _ => false
  | .contextDestroy _ => false
  | .extend _ _ => false
  | .foreshoreSplit _ _ => false
  | .installTerms _ => false
  | .hostWrite _ _ _ _ => false
  | .hostRead _ _ _ => false
  | .getVersion => false
  | .getCapabilities => false
  | .negotiateAlgorithms => false
  | .getDigests => false
  | .getCertificate => false
  | .challenge => false
  | .getMeasurements => false
  | .ptpCorrection _ => false
  | .powerOnBoot => false
  | .deviceReset => false
  | .powerLoss => false
  | .thermalTrip => false
  | .clockThrottle _ => false
  | .cxlAgentAccess _ _ => false
  | .softError _ => false
  | .cryptoUnitResult => false

end Sys2Proof
end

