-- ==== Sys2Proof/Decode.lean ====
section
/-! DEFINITION. The decoder (R36 to R57 and the field tables of the class chapters) and, after it, the encoder written
from the same tables. `decode` is total on any word and rejects by the names of R54, in its order. -/

namespace Sys2Proof

/-- What the checks of R54 reject, by name. -/
inductive DecodeFault where
  | nullWord
  | undef
  | wrongStream (st : StreamId)
  | priv
  | reservedField (bit : Nat)
deriving DecidableEq, Repr

/-! ### Codes of the fixed sets: the position in the list is the code -/

/-- The element of a code table at a code, and the code of an element. -/
def codeOf {α : Type} [DecidableEq α] (tbl : List α) (x : α) : Nat := tbl.idxOf x

def AluFn.table : List AluFn := [.add, .sub, .and, .or, .xor, .andn, .shl, .shr, .sar, .rol, .mul, .mulh, .mulhz, .div,
  .divz, .rem, .remz, .min, .max, .minz, .maxz, .clz, .ctz, .popc, .bswap, .sxb, .sxh, .sxw]
def CmpCc.table : List CmpCc := [.eq, .ne, .lt, .ge, .ltz, .gez]
def PlogFn.table : List PlogFn := [.pand, .por, .pxor, .pandn, .pmov]
def AmoOp.table : List AmoOp := [.swap, .add, .and, .or, .xor, .min, .max, .minz, .maxz, .cas]
def FenceKind.table : List FenceKind := [.acq, .rel, .acqrel, .sc]
def Scope.table : List Scope := [.core, .die, .device, .system]
def FopFn.table : List FopFn := [.fadd, .fsub, .fmul, .fmin, .fmax, .fsgn, .fabs, .fneg]
def FcmpCc.table : List FcmpCc := [.feq, .flt, .fle, .fun_]
def IopFn.table : List IopFn := [.add, .sub, .and, .or, .xor, .shl, .shr, .sar, .mul, .mulh, .min, .max, .minz, .maxz]
def VecOp.vopTable : List VecOp := [.add, .sub, .mul, .min, .max]
def VecOp.vscTable : List VecOp := [.add, .sub, .mul, .max, .min]
def VunFn.table : List VunFn := [.neg, .abs, .exp, .log, .rcp, .rsq, .sqrt, .tanh, .sig, .silu]
def VredFn.table : List VredFn := [.sum, .max, .min, .amax, .amin]
def VcmpCc.table : List VcmpCc := [.eq, .ne, .lt, .le, .gt, .ge]
def VbitFn.table : List VbitFn := [.set, .clr, .tst, .cnt]
def WsetFn.table : List WsetFn := [.image, .base, .count, .stride, .fmt, .rowf]
def ThrdFn.table : List ThrdFn := [.owner, .notafter, .uses, .charge, .meter, .rsv, .brk]
def McchkFn.table : List McchkFn := [.const, .ident, .dead]
def Sz.table : List Sz := [.b, .bz, .h, .hz, .w, .d]
def Fmt.table : List Fmt := [.none, .mxint4, .mxint6, .mxint8, .int8, .e4m3, .e5m2, .fp16, .bf16, .fp32, .int32, .int16,
  .int64, .bitmask]
def RMode.table : List RMode := [.rne, .rz, .ru, .rd, .sr]
def Port.table : List Port := [.mx, .mxf, .cp, .mc, .fx, .cr, .px, .tq, .ev]
def Fifo.table : List Fifo := [.kl, .lk, .lc, .cl, .cs, .sc, .sk, .ks, .kc, .ck]
def SpecialReg.table : List SpecialReg := [.core, .die, .ctx, .time, .ptp, .tvec, .tframe, .cause, .epc, .status, .share,
  .rot, .arg, .lidx, .budget]
def Role.table : List Role := [.m, .n, .k, .outer]
def Fusion.table : List Fusion := [.quad, .f1x4, .f2x2, .f4x1]

/-- Element operand codes (R46). -/
def EOp.ofCode (n : Nat) : Option EOp :=
  if h : n < 768 then some (.e ⟨n, h⟩)
  else if h : n - 768 < 8 then some (.lq ⟨n - 768, h⟩)
  else if h : n - 776 < 8 then some (.sq ⟨n - 776, h⟩)
  else if h : n - 784 < 4 then some (.iq ⟨n - 784, h⟩)
  else if n = 788 then some .zero
  else if n = 789 then some .one
  else none

def EOp.code : EOp → Nat
  | .e n => n.val
  | .lq n => 768 + n.val
  | .sq n => 776 + n.val
  | .iq n => 784 + n.val
  | .zero => 788
  | .one => 789

/-! ### Fields of an instruction word -/

/-- Bits [lo + len - 1 : lo] of a word. -/
def fld (w : BitVec 64) (lo len : Nat) : BitVec len := w.extractLsb' lo len
/-- The same as a number. -/
def fln (w : BitVec 64) (lo len : Nat) : Nat := (w.extractLsb' lo len).toNat
/-- One bit. -/
def flb (w : BitVec 64) (n : Nat) : Bool := w.getLsbD n

/-- The header with its guard at `pq` and its negation bit at `ng`, where the format has one (R37, R48). -/
def hdrOf (w : BitVec 64) (pq ng : Option Nat) : Hdr :=
  { idle := fld w 54 10, wp := flb w 53, wn := flb w 52, sp := flb w 51, sn := flb w 50,
    pq := match pq with | some n => fld w n 4 | none => 0,
    neg := match ng with | some n => flb w n | none => false }

/-- A field that offends, with its lowest bit: a must-be-zero field, and a value that names nothing (R42, R55). -/
def mbz (w : BitVec 64) (lo len : Nat) : Nat × Bool := (lo, fln w lo len != 0)

/-- A table lookup that falls back to the first entry; the check beside it rejects that case. -/
def tblAt {α : Type} [Inhabited α] (tbl : List α) (n : Nat) : α := (tbl[n]?).getD default

/-- Element operands of a field, and their checks (R46). -/
def eopAt (w : BitVec 64) (lo : Nat) : EOp := (EOp.ofCode (fln w lo 10)).getD .zero
def badSrc (w : BitVec 64) (lo : Nat) : Nat × Bool :=
  (lo, match EOp.ofCode (fln w lo 10) with | some o => !o.isSrc | none => true)
def badDst (w : BitVec 64) (lo : Nat) : Nat × Bool :=
  (lo, match EOp.ofCode (fln w lo 10) with | some o => !o.isDst | none => true)
/-- An element register, the first of a group of `g + 1` (R217). -/
def eregAt (w : BitVec 64) (lo : Nat) : Fin 768 := Fin.ofNat 768 (fln w lo 10)
def badReg (w : BitVec 64) (lo g : Nat) : Nat × Bool := (lo, decide (767 < fln w lo 10 + g))
/-- The base of `eld` and `est`: an element register, or zero (R196). -/
def baseAt (w : BitVec 64) (lo : Nat) : Option (Fin 768) :=
  if fln w lo 10 = 788 then none else some (eregAt w lo)
def badBase (w : BitVec 64) (lo : Nat) : Nat × Bool := (lo, decide (767 < fln w lo 10) && fln w lo 10 != 788)

/-- The lowest offending field. -/
def lowest : List (Nat × Bool) → Option Nat
  | [] => none
  | (n, b) :: r =>
    match b, lowest r with
    | false, o => o
    | true, none => some n
    | true, some m => some (min n m)

/-- Orders 3 to 5 of R54 once the subcode is known: the stream, the service core's firmware context, the fields. In the
firmware context a set token bit is an offending field (R441). -/
def verdict (iss : Issuer) (svc : Bool) (w : BitVec 64) (streams : List StreamId) (svcOnly : Bool)
    (bad : List (Nat × Bool)) (i : Instr) : Except DecodeFault Instr :=
  let fw := iss == .kFirm
  if !streams.contains iss.stream then .error (.wrongStream iss.stream)
  else if svcOnly && !(svc && fw) then .error .priv
  else match lowest (bad ++ [(50, fw && flb w 50), (51, fw && flb w 51), (52, fw && flb w 52), (53, fw && flb w 53)]) with
    | some n => .error (.reservedField n)
    | none => .ok i

def KLS : List StreamId := [.k, .l, .s]
def KLCS : List StreamId := [.k, .l, .c, .s]

/-- The queue that `qfl` and `qln` name, and its check (R166). -/
def qnameAt (w : BitVec 64) : QName :=
  match fln w 19 2 with
  | 0 => .lq (Fin.ofNat 8 (fln w 22 4))
  | 1 => .sq (Fin.ofNat 8 (fln w 22 4))
  | _ => .iq (Fin.ofNat 4 (fln w 22 4))
def badQueue (w : BitVec 64) : Nat × Bool :=
  (22, decide ((if fln w 19 2 = 2 then 3 else 7) < fln w 22 4))

/-- The addend of `fma` and `fnma` (R198). -/
def addendAt (w : BitVec 64) : Addend :=
  if fln w 0 7 = 0 then .ed else .lq (Fin.ofNat 8 (fln w 0 7 - 1))

/-! ### Control opcodes (R50) -/

def decodeControl (iss : Issuer) (svc : Bool) (w : BitVec 64) (opc : Nat) : Except DecodeFault Instr :=
  match opc with
  | 0x01 => if fln w 20 7 != 0 then .error .undef else verdict iss svc w KLCS false [mbz w 0 20, mbz w 28 6, mbz w 34 4] (.nop (hdrOf w (some 38) (some 27)))
  | 0x02 => verdict iss svc w KLS false [mbz w 32 4] (.li (hdrOf w none none) (fld w 36 6) (fld w 0 32))
  | 0x03 => verdict iss svc w KLS false [mbz w 32 4] (.lih (hdrOf w none none) (fld w 36 6) (fld w 0 32))
  | 0x04 => if 28 ≤ fln w 12 7 then .error .undef else verdict iss svc w KLS false [mbz w 0 12, (24, (tblAt AluFn.table (fln w 12 7)).unary && fln w 24 6 != 0)] (.alu (hdrOf w (some 20) (some 19)) (tblAt AluFn.table (fln w 12 7)) (fld w 36 6) (fld w 30 6) (fld w 24 6))
  | 0x05 => verdict iss svc w KLS false [] (.addi (hdrOf w (some 26) none) (fld w 36 6) (fld w 30 6) (fld w 0 26))
  | 0x06 => verdict iss svc w KLS false [] (.andi (hdrOf w (some 26) none) (fld w 36 6) (fld w 30 6) (fld w 0 26))
  | 0x07 => verdict iss svc w KLS false [] (.ori (hdrOf w (some 26) none) (fld w 36 6) (fld w 30 6) (fld w 0 26))
  | 0x08 => verdict iss svc w KLS false [] (.xori (hdrOf w (some 26) none) (fld w 36 6) (fld w 30 6) (fld w 0 26))
  | 0x09 => verdict iss svc w KLS false [(0, decide (63 < fln w 0 26))] (.shli (hdrOf w (some 26) none) (fld w 36 6) (fld w 30 6) (fld w 0 6))
  | 0x0A => verdict iss svc w KLS false [(0, decide (63 < fln w 0 26))] (.shri (hdrOf w (some 26) none) (fld w 36 6) (fld w 30 6) (fld w 0 6))
  | 0x0B => verdict iss svc w KLS false [(0, decide (63 < fln w 0 26))] (.sari (hdrOf w (some 26) none) (fld w 36 6) (fld w 30 6) (fld w 0 6))
  | 0x0C => verdict iss svc w KLS false [] (.muli (hdrOf w (some 26) none) (fld w 36 6) (fld w 30 6) (fld w 0 26))
  | 0x0D => if 6 ≤ fln w 35 3 then .error .undef else verdict iss svc w KLS false [mbz w 30 4, mbz w 0 14] (.cmp (hdrOf w (some 20) (some 34)) (tblAt CmpCc.table (fln w 35 3)) (fld w 38 4) (fld w 24 6) (fld w 14 6))
  | 0x0E => if 6 ≤ fln w 35 3 then .error .undef else verdict iss svc w KLS false [mbz w 30 4] (.cmpi (hdrOf w (some 20) (some 34)) (tblAt CmpCc.table (fln w 35 3)) (fld w 38 4) (fld w 24 6) (fld w 0 20))
  | 0x0F => if 5 ≤ fln w 12 7 then .error .undef else verdict iss svc w KLCS false [mbz w 40 2, mbz w 34 2, (28, fln w 12 7 != 4 && fln w 28 2 != 0), (24, fln w 12 7 == 4 && fln w 24 6 != 0), mbz w 0 12] (.plog (hdrOf w (some 20) (some 19)) (tblAt PlogFn.table (fln w 12 7)) (fld w 36 4) (fld w 30 4) (fld w 24 4))
  | 0x10 => if fln w 12 7 != 0 then .error .undef else verdict iss svc w KLS false [mbz w 0 12] (.sel (hdrOf w (some 20) (some 19)) (fld w 36 6) (fld w 30 6) (fld w 24 6))
  | 0x11 => if 4 ≤ fln w 12 7 then .error .undef else verdict iss svc w KLS false [mbz w 0 12] (.lea (hdrOf w (some 20) (some 19)) (fld w 12 2) (fld w 36 6) (fld w 30 6) (fld w 24 6))
  | 0x12 => verdict iss svc w KLCS false [mbz w 32 5] (.br (hdrOf w (some 38) (some 37)) (fld w 0 32))
  | 0x13 => verdict iss svc w KLS false [mbz w 32 5] (.call (hdrOf w (some 38) (some 37)) (fld w 0 32))
  | 0x14 => if fln w 12 7 != 0 then .error .undef else verdict iss svc w KLS false [mbz w 24 6, mbz w 0 12] (.jr (hdrOf w (some 20) (some 19)) (fld w 36 6) (fld w 30 6))
  | 0x15 => if flb w 36 then (if iss == .c then verdict iss svc w KLCS false [mbz w 35 1, mbz w 10 22, badReg w 0 0] (.loop (hdrOf w (some 38) (some 37)) (fld w 32 3) (.ereg (eregAt w 0)))
      else verdict iss svc w KLCS false [mbz w 35 1, mbz w 6 26] (.loop (hdrOf w (some 38) (some 37)) (fld w 32 3) (.reg (fld w 0 6))))
    else verdict iss svc w KLCS false [mbz w 35 1] (.loop (hdrOf w (some 38) (some 37)) (fld w 32 3) (.imm (fld w 0 32)))
  | 0x16 => verdict iss svc w KLCS false [mbz w 35 2] (.endl (hdrOf w (some 38) (some 37)) (fld w 32 3) (fld w 0 32))
  | 0x17 => if fln w 20 7 != 0 then .error .undef else verdict iss svc w KLCS false [mbz w 0 20, mbz w 28 6, mbz w 34 4] (.safe (hdrOf w (some 38) (some 27)))
  | 0x18 => if fln w 20 7 != 0 then .error .undef else verdict iss svc w KLCS false [mbz w 0 20, mbz w 28 6, mbz w 34 4] (.endT (hdrOf w (some 38) (some 27)))
  | 0x19 => verdict iss svc w [.k] false [(23, decide (5 < fln w 23 3))] (.ldk (hdrOf w (some 26) none) (tblAt Sz.table (fln w 23 3)) (fld w 36 6) (fld w 30 6) (fld w 20 3) (fld w 0 20))
  | 0x1A => verdict iss svc w [.k] false [(23, decide (5 < fln w 23 3))] (.stk (hdrOf w (some 26) none) (tblAt Sz.table (fln w 23 3)) (fld w 36 6) (fld w 30 6) (fld w 20 3) (fld w 0 20))
  | 0x1B => verdict iss svc w [.k] false [(23, decide (5 < fln w 23 3)), mbz w 20 3] (.lds (hdrOf w (some 26) none) (tblAt Sz.table (fln w 23 3)) (fld w 36 6) (fld w 30 6) (fld w 0 20))
  | 0x1C => verdict iss svc w [.k] false [(23, decide (5 < fln w 23 3)), mbz w 20 3] (.sts (hdrOf w (some 26) none) (tblAt Sz.table (fln w 23 3)) (fld w 36 6) (fld w 30 6) (fld w 0 20))
  | 0x1D => if fln w 12 7 != 0 then .error .undef else verdict iss svc w [.k] false [mbz w 30 6, (24, decide (14 < fln w 24 6)), mbz w 0 12] (.rsr (hdrOf w (some 20) (some 19)) (fld w 36 6) (tblAt SpecialReg.table (fln w 24 6)))
  | 0x1E => if fln w 12 7 != 0 then .error .undef else verdict iss svc w [.k] false [mbz w 36 6, (24, decide (14 < fln w 24 6)), mbz w 0 12] (.wsr (hdrOf w (some 20) (some 19)) (tblAt SpecialReg.table (fln w 24 6)) (fld w 30 6))
  | 0x1F => if fln w 12 7 != 0 then .error .undef else verdict iss svc w [.k] (fln w 24 6 == 5) [mbz w 36 6, (24, fln w 24 6 != 1), mbz w 0 12] (.epush (hdrOf w (some 20) (some 19)) (tblAt Port.table (fln w 24 6)) (fld w 30 6))
  | 0x20 => if fln w 12 7 != 0 then .error .undef else verdict iss svc w [.k] (fln w 24 6 == 5) [mbz w 30 6, (24, decide (8 < fln w 24 6)), mbz w 0 12] (.epop (hdrOf w (some 20) (some 19)) (fld w 36 6) (tblAt Port.table (fln w 24 6)))
  | 0x21 => if 2 ≤ fln w 12 7 then .error .undef else if fln w 12 7 == 0 then verdict iss svc w [.k] (fln w 24 6 == 5) [mbz w 30 6, (24, decide (8 < fln w 24 6)), mbz w 0 12] (.ecountOut (hdrOf w (some 20) (some 19)) (fld w 36 6) (tblAt Port.table (fln w 24 6)))
    else verdict iss svc w [.k] (fln w 24 6 == 5) [mbz w 30 6, (24, decide (8 < fln w 24 6)), mbz w 0 12] (.ecountIn (hdrOf w (some 20) (some 19)) (fld w 36 6) (tblAt Port.table (fln w 24 6)))
  | 0x22 => if fln w 12 7 != 0 then .error .undef else verdict iss svc w [.k] false [mbz w 30 6, mbz w 24 6, mbz w 0 12] (.rnd (hdrOf w (some 20) (some 19)) (fld w 36 6))
  | _ => .error .undef

/-! ### Sync opcodes (R50) -/

def decodeSync (iss : Issuer) (svc : Bool) (w : BitVec 64) (opc : Nat) : Except DecodeFault Instr :=
  match opc with
  | 0x30 => if fln w 20 7 != 0 then .error .undef else verdict iss svc w KLCS false [mbz w 0 20, (28, fln w 28 6 == 0), (34, decide (9 < fln w 34 4) || (tblAt Fifo.table (fln w 34 4)).producer != iss.stream || iss == .kFirm)] (.tkp (hdrOf w (some 38) (some 27)) (tblAt Fifo.table (fln w 34 4)) (fld w 28 6))
  | 0x31 => if fln w 20 7 != 0 then .error .undef else verdict iss svc w KLCS false [mbz w 0 20, (28, fln w 28 6 == 0), (34, decide (9 < fln w 34 4) || (tblAt Fifo.table (fln w 34 4)).consumer != iss.stream || iss == .kFirm)] (.tkw (hdrOf w (some 38) (some 27)) (tblAt Fifo.table (fln w 34 4)) (fld w 28 6))
  | 0x32 => if fln w 20 7 != 0 then .error .undef else verdict iss svc w [.k] false [mbz w 6 14, mbz w 28 6, (34, decide (9 < fln w 34 4) || iss == .kFirm)] (.tkc (hdrOf w (some 38) (some 27)) (fld w 0 6) (tblAt Fifo.table (fln w 34 4)))
  | 0x33 => if fln w 20 7 != 0 then .error .undef else verdict iss svc w [.k] false [mbz w 2 18, mbz w 28 6, mbz w 34 4] (.bar (hdrOf w (some 38) (some 27)) (fld w 0 2))
  | 0x34 => if fln w 20 7 != 0 then .error .undef else verdict iss svc w [.k] false [mbz w 2 18, mbz w 28 6, mbz w 34 4] (.bara (hdrOf w (some 38) (some 27)) (fld w 0 2))
  | 0x35 => if fln w 20 7 != 0 then .error .undef else verdict iss svc w [.k] false [mbz w 2 18, mbz w 28 6, mbz w 34 4] (.barw (hdrOf w (some 38) (some 27)) (fld w 0 2))
  | 0x36 => if fln w 12 7 != 0 then .error .undef else verdict iss svc w [.k] false [mbz w 36 6, mbz w 0 12] (.renq (hdrOf w (some 20) (some 19)) (fld w 30 6) (fld w 24 6))
  | 0x37 => if 10 ≤ fln w 16 4 then .error .undef else verdict iss svc w [.k, .s] false [mbz w 0 12] (.amo (hdrOf w (some 20) (some 13)) (tblAt AmoOp.table (fln w 16 4)) (tblAt Scope.table (fln w 14 2)) (flb w 12) (fld w 36 6) (fld w 30 6) (fld w 24 6))
  | 0x38 => if 4 ≤ fln w 20 7 then .error .undef else verdict iss svc w KLCS false [mbz w 2 18, mbz w 28 6, mbz w 34 4] (.fence (hdrOf w (some 38) (some 27)) (tblAt FenceKind.table (fln w 20 7)) (tblAt Scope.table (fln w 0 2)))
  | 0x39 => if fln w 20 7 != 0 then .error .undef else verdict iss svc w [.l, .s] false [mbz w 0 20, mbz w 28 6, mbz w 34 4] (.mark (hdrOf w (some 38) (some 27)))
  | 0x3A => if fln w 20 7 != 0 then .error .undef else verdict iss svc w KLCS false [mbz w 28 6, mbz w 34 4] (.wfe (hdrOf w (some 38) (some 27)) (fld w 0 20))
  | 0x3B => match fln w 20 7 with
    | 0 => verdict iss svc w [.k] false [mbz w 28 6, mbz w 34 4] (.sysCall (hdrOf w (some 38) (some 27)) (fld w 0 20))
    | 1 => verdict iss svc w [.k] false [mbz w 2 18, mbz w 28 6, mbz w 34 4] (.sysResume (hdrOf w (some 38) (some 27)) (fld w 0 2))
    | 2 => verdict iss svc w [.k] false [mbz w 28 6, mbz w 34 4] (.sysKill (hdrOf w (some 38) (some 27)) (fld w 0 20))
    | 3 => verdict iss svc w [.k] false [mbz w 28 6] (.sysTmr (hdrOf w (some 38) (some 27)) (fld w 34 4) (fld w 0 20))
    | _ => .error .undef
  | 0x3C => if fln w 20 7 != 0 then .error .undef else verdict iss svc w KLCS false [mbz w 28 6, mbz w 34 4] (.trap (hdrOf w (some 38) (some 27)) (fld w 0 20))
  | 0x3D => if fln w 20 7 != 0 then .error .undef else verdict iss svc w KLCS false [mbz w 28 6, mbz w 34 4] (.brk (hdrOf w (some 38) (some 27)) (fld w 0 20))
  | 0x3E => if fln w 20 7 != 0 then .error .undef else verdict iss svc w KLCS false [mbz w 0 20, mbz w 28 6, mbz w 34 4] (.rfi (hdrOf w (some 38) (some 27)))
  | _ => .error .undef

/-! ### Access opcodes (R50) -/

def decodeAccess (iss : Issuer) (svc : Bool) (w : BitVec 64) (opc : Nat) : Except DecodeFault Instr :=
  match opc with
  | 0x40 => verdict iss svc w [.l] false [mbz w 37 5, (22, decide (7 < fln w 22 4)), (16, decide (5 < fln w 16 3))] (.ld (hdrOf w (some 26) none) (flb w 36) (tblAt Sz.table (fln w 16 3)) (Fin.ofNat 8 (fln w 22 4)) (fld w 30 6) (fld w 19 3) (fld w 0 16))
  | 0x41 => verdict iss svc w [.l] false [mbz w 36 6, (22, decide (7 < fln w 22 4)), (16, decide (5 < fln w 16 3))] (.ldp (hdrOf w (some 26) none) (tblAt Sz.table (fln w 16 3)) (Fin.ofNat 8 (fln w 22 4)) (fld w 30 6) (fld w 19 3) (fld w 0 16))
  | 0x42 => verdict iss svc w [.l] false [mbz w 36 6, (22, decide (3 < fln w 22 4)), (16, decide (5 < fln w 16 3))] (.ldi (hdrOf w (some 26) none) (tblAt Sz.table (fln w 16 3)) (Fin.ofNat 4 (fln w 22 4)) (fld w 30 6) (fld w 19 3) (fld w 0 16))
  | 0x43 => verdict iss svc w [.l] false [mbz w 39 3, (22, decide (7 < fln w 22 4)), (16, decide (5 < fln w 16 3))] (.ldg (hdrOf w (some 26) none) (flb w 38) (tblAt Sz.table (fln w 16 3)) (Fin.ofNat 4 (fln w 36 2)) (Fin.ofNat 8 (fln w 22 4)) (fld w 30 6) (fld w 19 3) (fld w 0 16))
  | 0x44 => verdict iss svc w [.l] false [mbz w 40 2, mbz w 16 3] (.ldr (hdrOf w (some 26) none) (fld w 36 4) (fld w 22 4) (fld w 30 6) (fld w 19 3) (fld w 0 16))
  | 0x45 => verdict iss svc w [.l] false [mbz w 41 1, mbz w 22 4, mbz w 16 3] (.ldw (hdrOf w (some 26) none) (fld w 36 5) (fld w 30 6) (fld w 19 3) (fld w 0 16))
  | 0x46 => verdict iss svc w [.l, .s] false [mbz w 36 6, (22, decide (1 < fln w 22 4)), mbz w 19 3, mbz w 16 3] (.pf (hdrOf w (some 26) none) (flb w 22) (fld w 30 6) (fld w 0 16))
  | 0x47 => verdict iss svc w [.s] false [mbz w 36 6, (22, decide (7 < fln w 22 4)), (16, decide (5 < fln w 16 3))] (.st (hdrOf w (some 26) none) (tblAt Sz.table (fln w 16 3)) (Fin.ofNat 8 (fln w 22 4)) (fld w 30 6) (fld w 19 3) (fld w 0 16))
  | 0x48 => verdict iss svc w [.s] false [mbz w 36 6, (22, decide (7 < fln w 22 4)), (16, decide (5 < fln w 16 3))] (.stp (hdrOf w (some 26) none) (tblAt Sz.table (fln w 16 3)) (Fin.ofNat 8 (fln w 22 4)) (fld w 30 6) (fld w 19 3) (fld w 0 16))
  | 0x49 => verdict iss svc w [.s] false [mbz w 39 3, (22, decide (7 < fln w 22 4)), (16, decide (5 < fln w 16 3))] (.stg (hdrOf w (some 26) none) (tblAt Sz.table (fln w 16 3)) (Fin.ofNat 8 (fln w 36 3)) (Fin.ofNat 8 (fln w 22 4)) (fld w 30 6) (fld w 19 3) (fld w 0 16))
  | 0x4A => verdict iss svc w [.s] false [mbz w 41 1, mbz w 22 4, mbz w 16 3] (.stw (hdrOf w (some 26) none) (fld w 36 5) (fld w 30 6) (fld w 19 3) (fld w 0 16))
  | 0x4B => verdict iss svc w [.s] false [mbz w 41 1, mbz w 16 3] (.stt (hdrOf w (some 26) none) (flb w 40) (fld w 36 4) (fld w 22 4) (fld w 30 6) (fld w 19 3) (fld w 0 16))
  | 0x4C => verdict iss svc w [.l, .c, .s] false [mbz w 36 6, mbz w 30 6, badQueue w, mbz w 21 1, (19, fln w 19 2 == 3 || !(qnameAt w).flushableBy iss), mbz w 16 3, mbz w 0 16] (.qfl (hdrOf w (some 26) none) (qnameAt w))
  | 0x4D => if iss == .c then verdict iss svc w [.l, .c, .s] false [mbz w 36 6, mbz w 30 6, badQueue w, mbz w 21 1, (19, fln w 19 2 == 3), mbz w 16 3, badReg w 0 0, mbz w 10 6] (.qln (hdrOf w (some 26) none) (.ereg (eregAt w 0)) (qnameAt w))
    else verdict iss svc w [.l, .c, .s] false [mbz w 30 6, badQueue w, mbz w 21 1, (19, fln w 19 2 == 3), mbz w 16 3, mbz w 0 16] (.qln (hdrOf w (some 26) none) (.areg (fld w 36 6)) (qnameAt w))
  | _ => .error .undef

/-! ### Element opcodes (R50) -/

def decodeElement (iss : Issuer) (svc : Bool) (w : BitVec 64) (opc : Nat) : Except DecodeFault Instr :=
  match opc with
  | 0x60 => if 8 ≤ fln w 0 7 then .error .undef else verdict iss svc w [.c] false [badDst w 32, badSrc w 22, (if (tblAt FopFn.table (fln w 0 7)).unary then mbz w 12 10 else badSrc w 12)] (.fop (hdrOf w (some 8) (some 7)) (tblAt FopFn.table (fln w 0 7)) (eopAt w 32) (eopAt w 22) (eopAt w 12))
  | 0x61 => if 9 ≤ fln w 0 7 then .error .undef else verdict iss svc w [.c] false [(if fln w 0 7 == 0 then badReg w 32 0 else badDst w 32), badSrc w 22, badSrc w 12] (.fma (hdrOf w (some 8) (some 7)) (addendAt w) (eopAt w 32) (eopAt w 22) (eopAt w 12))
  | 0x62 => if 9 ≤ fln w 0 7 then .error .undef else verdict iss svc w [.c] false [(if fln w 0 7 == 0 then badReg w 32 0 else badDst w 32), badSrc w 22, badSrc w 12] (.fnma (hdrOf w (some 8) (some 7)) (addendAt w) (eopAt w 32) (eopAt w 22) (eopAt w 12))
  | 0x63 => if fln w 0 7 != 0 then .error .undef else verdict iss svc w [.c] false [badDst w 32, badSrc w 22, mbz w 12 10] (.frcp (hdrOf w (some 8) (some 7)) (eopAt w 32) (eopAt w 22))
  | 0x64 => if fln w 0 7 != 0 then .error .undef else verdict iss svc w [.c] false [badDst w 32, badSrc w 22, mbz w 12 10] (.frsq (hdrOf w (some 8) (some 7)) (eopAt w 32) (eopAt w 22))
  | 0x65 => if fln w 0 7 != 0 then .error .undef else verdict iss svc w [.c] false [badDst w 32, badSrc w 22, badSrc w 12] (.frfr (hdrOf w (some 8) (some 7)) (eopAt w 32) (eopAt w 22) (eopAt w 12))
  | 0x66 => if fln w 0 7 != 0 then .error .undef else verdict iss svc w [.c] false [badDst w 32, badSrc w 22, badSrc w 12] (.frfs (hdrOf w (some 8) (some 7)) (eopAt w 32) (eopAt w 22) (eopAt w 12))
  | 0x67 => if 4 ≤ fln w 0 7 then .error .undef else verdict iss svc w [.c] false [mbz w 36 6, badSrc w 22, badSrc w 12] (.fcmp (hdrOf w (some 8) (some 7)) (tblAt FcmpCc.table (fln w 0 7)) (fld w 32 4) (eopAt w 22) (eopAt w 12))
  | 0x68 => verdict iss svc w [.c] false [badDst w 32, badSrc w 22, (12, !Fmt.fcvtPair (tblAt Fmt.table (fln w 16 4)) (tblAt Fmt.table (fln w 12 4))), mbz w 20 2, (0, decide (4 < fln w 0 3)), mbz w 4 3] (.fcvt (hdrOf w (some 8) (some 7)) (tblAt Fmt.table (fln w 16 4)) (tblAt Fmt.table (fln w 12 4)) ⟨tblAt RMode.table (fln w 0 3), flb w 3⟩ (eopAt w 32) (eopAt w 22))
  | 0x69 => if 14 ≤ fln w 0 7 then .error .undef else verdict iss svc w [.c] false [badDst w 32, badSrc w 22, badSrc w 12] (.iop (hdrOf w (some 8) (some 7)) (tblAt IopFn.table (fln w 0 7)) (eopAt w 32) (eopAt w 22) (eopAt w 12))
  | 0x6A => if 6 ≤ fln w 0 7 then .error .undef else verdict iss svc w [.c] false [mbz w 36 6, badSrc w 22, badSrc w 12] (.icmp (hdrOf w (some 8) (some 7)) (tblAt CmpCc.table (fln w 0 7)) (fld w 32 4) (eopAt w 22) (eopAt w 12))
  | 0x6B => verdict iss svc w [.c] false [badDst w 32, mbz w 22 10] (.eli (hdrOf w (some 18) none) (eopAt w 32) (fld w 0 18))
  | 0x6C => verdict iss svc w [.c] false [badReg w 32 0, mbz w 22 10, mbz w 14 4] (.elih (hdrOf w (some 18) none) (eregAt w 32) (fld w 0 14))
  | 0x6D => if fln w 0 7 != 0 then .error .undef else verdict iss svc w [.c] false [badDst w 32, badSrc w 22, mbz w 12 10] (.emov (hdrOf w (some 8) (some 7)) (eopAt w 32) (eopAt w 22))
  | 0x6E => if fln w 0 7 != 0 then .error .undef else verdict iss svc w [.c] false [badDst w 32, badSrc w 22, badSrc w 12] (.esel (hdrOf w (some 8) (some 7)) (eopAt w 32) (eopAt w 22) (eopAt w 12))
  | 0x6F => verdict iss svc w [.c] false [mbz w 32 10, mbz w 22 10] (.rot (hdrOf w (some 18) none) (fld w 0 18))
  | 0x70 => verdict iss svc w [.c] false [mbz w 35 7, mbz w 22 10] (.lbr (hdrOf w (some 18) none) (fld w 32 3) (fld w 0 18))
  | 0x71 => verdict iss svc w [.c] false [badDst w 32, badBase w 22] (.eld (hdrOf w (some 18) none) (eopAt w 32) (baseAt w 22) (fld w 0 18))
  | 0x72 => verdict iss svc w [.c] false [badReg w 32 0, badBase w 22] (.est (hdrOf w (some 18) none) (eregAt w 32) (baseAt w 22) (fld w 0 18))
  | _ => .error .undef

/-! ### Vector opcodes (R50) -/

/-- The vector opcodes. A validity bit of `vbit.tst`, which has no validity window (R226, R243), is RESERVEDFIELD: DESIGN CHOICE
(log 75). -/
def decodeVector (iss : Issuer) (svc : Bool) (w : BitVec 64) (opc : Nat) : Except DecodeFault Instr :=
  match opc with
  | 0x80 => if 5 ≤ fln w 0 7 then .error .undef else verdict iss svc w [.c] false [mbz w 17 10, (8, decide (4 < fln w 8 3)), mbz w 12 1] (.vop (hdrOf w (some 13) (some 7)) (tblAt VecOp.vopTable (fln w 0 7)) ⟨tblAt RMode.table (fln w 8 3), flb w 11⟩ (fld w 37 5) (fld w 32 5) (fld w 27 5))
  | 0x81 => if 4 ≤ fln w 0 7 then .error .undef else verdict iss svc w [.c] false [(if flb w 0 then badSrc w 17 else mbz w 17 10), (8, decide (4 < fln w 8 3)), mbz w 12 1] (.vfma (hdrOf w (some 13) (some 7)) (flb w 1) (if flb w 0 then some (eopAt w 17) else none) ⟨tblAt RMode.table (fln w 8 3), flb w 11⟩ (fld w 37 5) (fld w 32 5) (fld w 27 5))
  | 0x82 => if 5 ≤ fln w 0 7 then .error .undef else verdict iss svc w [.c] false [mbz w 27 5, badSrc w 17, (8, decide (4 < fln w 8 3)), mbz w 12 1] (.vsc (hdrOf w (some 13) (some 7)) (tblAt VecOp.vscTable (fln w 0 7)) ⟨tblAt RMode.table (fln w 8 3), flb w 11⟩ (fld w 37 5) (fld w 32 5) (eopAt w 17))
  | 0x83 => if 10 ≤ fln w 0 7 then .error .undef else verdict iss svc w [.c] false [mbz w 27 5, mbz w 17 10, (if fln w 0 7 < 2 then mbz w 8 5 else (8, decide (4 < fln w 8 3))), (12, decide (2 ≤ fln w 0 7) && flb w 12)] (.vun (hdrOf w (some 13) (some 7)) (tblAt VunFn.table (fln w 0 7)) ⟨tblAt RMode.table (fln w 8 3), flb w 11⟩ (fld w 37 5) (fld w 32 5))
  | 0x84 => if fln w 0 7 != 0 then .error .undef else verdict iss svc w [.c] false [mbz w 27 5, mbz w 17 10, (8, decide (4 < fln w 8 3)), mbz w 12 1] (.vcvt (hdrOf w (some 13) (some 7)) ⟨tblAt RMode.table (fln w 8 3), flb w 11⟩ (fld w 37 5) (fld w 32 5))
  | 0x85 => if 5 ≤ fln w 0 7 then .error .undef else verdict iss svc w [.c] false [mbz w 37 5, mbz w 27 5, badReg w 17 (if flb w 8 then 1 else 0), (8, flb w 8 && fln w 0 7 == 0), mbz w 9 4] (.vred (hdrOf w (some 13) (some 7)) (tblAt VredFn.table (fln w 0 7)) (flb w 8) (fld w 32 5) (eregAt w 17))
  | 0x86 => if 2 ≤ fln w 0 7 then .error .undef else verdict iss svc w [.c] false [mbz w 27 5, mbz w 17 10, (8, decide (4 < fln w 8 3)), mbz w 12 1] (.vscan (hdrOf w (some 13) (some 7)) (flb w 0) ⟨tblAt RMode.table (fln w 8 3), flb w 11⟩ (fld w 37 5) (fld w 32 5))
  | 0x87 => if 6 ≤ fln w 0 7 then .error .undef else verdict iss svc w [.c] false [(27, flb w 8 && fln w 27 5 != 0), (if flb w 8 then badSrc w 17 else mbz w 17 10), mbz w 9 4] (.vcmp (hdrOf w (some 13) (some 7)) (tblAt VcmpCc.table (fln w 0 7)) (if flb w 8 then some (eopAt w 17) else none) (fld w 37 5) (fld w 32 5) (fld w 27 5))
  | 0x88 => if fln w 0 7 != 0 then .error .undef else verdict iss svc w [.c] false [mbz w 22 5, mbz w 8 5] (.vsel (hdrOf w (some 13) (some 7)) (fld w 37 5) (fld w 32 5) (fld w 27 5) (fld w 17 5))
  | 0x89 => if fln w 0 7 != 0 then .error .undef else verdict iss svc w [.c] false [badReg w 17 0, mbz w 8 5] (.vcpr (hdrOf w (some 13) (some 7)) (fld w 37 5) (fld w 32 5) (fld w 27 5) (eregAt w 17))
  | 0x8A => if fln w 0 7 != 0 then .error .undef else verdict iss svc w [.c] false [badReg w 17 0, mbz w 8 5] (.vxpd (hdrOf w (some 13) (some 7)) (fld w 37 5) (fld w 32 5) (fld w 27 5) (eregAt w 17))
  | 0x8B => if fln w 0 7 != 0 then .error .undef else verdict iss svc w [.c] false [mbz w 17 10, mbz w 9 4] (.vgat (hdrOf w (some 13) (some 7)) (flb w 8) (fld w 37 5) (fld w 32 5) (fld w 27 5))
  | 0x8C => if fln w 0 7 != 0 then .error .undef else verdict iss svc w [.c] false [mbz w 17 10, mbz w 9 4] (.vsct (hdrOf w (some 13) (some 7)) (flb w 8) (fld w 37 5) (fld w 32 5) (fld w 27 5))
  | 0x8D => if fln w 0 7 != 0 then .error .undef else verdict iss svc w [.c] false [mbz w 17 10, mbz w 9 4] (.vsca (hdrOf w (some 13) (some 7)) (flb w 8) (fld w 37 5) (fld w 32 5) (fld w 27 5))
  | 0x8E => if fln w 0 7 != 0 then .error .undef else verdict iss svc w [.c] false [mbz w 32 5, mbz w 27 5, badSrc w 17, (8, decide (4 < fln w 8 3)), mbz w 12 1] (.vfill (hdrOf w (some 13) (some 7)) ⟨tblAt RMode.table (fln w 8 3), flb w 11⟩ (fld w 37 5) (eopAt w 17))
  | 0x8F => if 2 ≤ fln w 0 7 then .error .undef else verdict iss svc w [.c] false [mbz w 32 5, mbz w 27 5, mbz w 17 10, mbz w 8 5] (.vrnd (hdrOf w (some 13) (some 7)) (flb w 0) (fld w 37 5))
  | 0x90 => if 2 ≤ fln w 0 7 then .error .undef else verdict iss svc w [.c] false [mbz w 27 5, badReg w 17 1, (8, fln w 8 4 == 0 || decide (12 < fln w 8 4)), mbz w 12 1] (.vhad (hdrOf w (some 13) (some 7)) (flb w 0) (fld w 8 4) (fld w 37 5) (fld w 32 5) (eregAt w 17))
  | 0x91 => if fln w 0 7 != 0 then .error .undef else verdict iss svc w [.c] false [mbz w 17 10, (8, decide (4 < fln w 8 3)), mbz w 11 1, mbz w 12 1] (.vqnt (hdrOf w (some 13) (some 7)) (tblAt RMode.table (fln w 8 3)) (fld w 37 5) (fld w 32 5) (fld w 27 5))
  | 0x92 => if fln w 0 7 != 0 then .error .undef else verdict iss svc w [.c] false [mbz w 17 10, (8, decide (4 < fln w 8 3)), mbz w 12 1] (.vdqt (hdrOf w (some 13) (some 7)) ⟨tblAt RMode.table (fln w 8 3), flb w 11⟩ (fld w 37 5) (fld w 32 5) (fld w 27 5))
  | 0x93 => if fln w 0 7 != 0 then .error .undef else verdict iss svc w [.c] false [badReg w 17 2, mbz w 8 5] (.vtopk (hdrOf w (some 13) (some 7)) (fld w 37 5) (fld w 32 5) (fld w 27 5) (eregAt w 17))
  | 0x94 => if 2 ≤ fln w 0 7 then .error .undef else verdict iss svc w [.c] false [mbz w 37 5, (27, !flb w 0 && fln w 27 5 != 0), badReg w 17 2, mbz w 8 5] (.vsamp (hdrOf w (some 13) (some 7)) (flb w 0) (fld w 32 5) (fld w 27 5) (eregAt w 17))
  | 0x95 => if fln w 0 7 != 0 then .error .undef else verdict iss svc w [.c] false [mbz w 27 5, mbz w 17 10, mbz w 8 5] (.vsoft (hdrOf w (some 13) (some 7)) (fld w 37 5) (fld w 32 5))
  | 0x96 => if 6 ≤ fln w 0 7 then .error .undef else verdict iss svc w [.c] false [(37, fln w 0 7 == 5 && fln w 37 5 != 0), mbz w 32 5, mbz w 27 5, (if fln w 0 7 == 0 || fln w 0 7 == 5 then badReg w 17 1 else badSrc w 17), mbz w 8 5] (.wset (hdrOf w (some 13) (some 7)) (tblAt WsetFn.table (fln w 0 7)) (fld w 37 5) (eopAt w 17))
  | 0x97 => if fln w 0 7 != 0 && fln w 0 7 != 5 then .error .undef else verdict iss svc w [.c] false [mbz w 37 5, (32, fln w 0 7 == 5 && fln w 32 5 != 0), mbz w 27 5, badReg w 17 1, mbz w 8 5] (.wget (hdrOf w (some 13) (some 7)) (fln w 0 7 == 5) (fld w 32 5) (eregAt w 17))
  | 0x98 => if 4 ≤ fln w 0 7 then .error .undef else verdict iss svc w [.c] false [(37, fln w 0 7 == 3 && fln w 37 5 != 0), (27, (fln w 0 7 == 3 || (fln w 0 7 < 2 && !flb w 8)) && fln w 27 5 != 0), (if fln w 0 7 == 3 then badReg w 17 0 else mbz w 17 10), (8, decide (2 ≤ fln w 0 7) && flb w 8), (9, fln w 0 7 == 3 && flb w 9), mbz w 10 3] (.vbit (hdrOf w (some 13) (some 7)) (tblAt VbitFn.table (fln w 0 7)) (flb w 8) (flb w 9) (fld w 37 5) (fld w 32 5) (fld w 27 5) (eregAt w 17))
  | 0x99 => if fln w 0 7 != 0 then .error .undef else verdict iss svc w [.c] false [mbz w 27 5, mbz w 17 10, mbz w 8 5] (.vmov (hdrOf w (some 13) (some 7)) (fld w 37 5) (fld w 32 5))
  | _ => .error .undef

/-! ### Matrix opcodes (R50) -/

def decodeMatrix (iss : Issuer) (svc : Bool) (w : BitVec 64) (opc : Nat) : Except DecodeFault Instr :=
  match opc with
  | 0xA0 => if fln w 12 7 != 0 then .error .undef else verdict iss svc w [.k] false [mbz w 36 6, (24, decide (5 < fln w 24 6)), mbz w 2 10] (.mtw (hdrOf w (some 20) (some 19)) (Fin.ofNat 6 (fln w 24 6)) (fld w 30 6) (tblAt Role.table (fln w 0 2)))
  | 0xA1 => if 2 ≤ fln w 12 7 then .error .undef else verdict iss svc w [.k] false [mbz w 30 6, (24, decide (5 < fln w 24 6)), mbz w 0 12] (.mtr (hdrOf w (some 20) (some 19)) (flb w 12) (fld w 36 6) (Fin.ofNat 6 (fln w 24 6)))
  | 0xA2 => if fln w 12 7 != 0 then .error .undef else verdict iss svc w [.k] false [mbz w 36 6, mbz w 30 6, mbz w 24 6, (2, decide (4 < fln w 2 3)), mbz w 6 6] (.mcfg (hdrOf w (some 20) (some 19)) (tblAt Fusion.table (fln w 0 2)) ⟨tblAt RMode.table (fln w 2 3), flb w 5⟩)
  | 0xA3 => if fln w 12 7 != 0 then .error .undef else verdict iss svc w [.k] false [mbz w 36 6, mbz w 24 6, mbz w 0 12] (.mfmt (hdrOf w (some 20) (some 19)) (fld w 30 6))
  | 0xA4 => if fln w 12 7 != 0 then .error .undef else verdict iss svc w [.k] false [mbz w 36 6, mbz w 24 6] (.mgo (hdrOf w (some 20) (some 19)) (fld w 30 6) (flb w 11) (fld w 0 11))
  | 0xA5 => if fln w 12 7 != 0 then .error .undef else verdict iss svc w [.k] false [mbz w 36 6, mbz w 30 6, mbz w 24 6, mbz w 0 12] (.mwait (hdrOf w (some 20) (some 19)))
  | 0xA6 => if fln w 12 7 != 0 then .error .undef else verdict iss svc w [.k] false [mbz w 36 6, mbz w 24 6, mbz w 0 12] (.mzero (hdrOf w (some 20) (some 19)) (fld w 30 6))
  | 0xA7 => if fln w 12 7 != 0 then .error .undef else verdict iss svc w [.k] false [mbz w 36 6, (24, decide (15 < fln w 24 6))] (.mdrain (hdrOf w (some 20) (some 19)) (fld w 24 4) (fld w 30 6) (flb w 11) (fld w 0 11))
  | 0xA8 => if fln w 12 7 != 0 then .error .undef else verdict iss svc w [.k] false [mbz w 36 6, mbz w 24 6] (.mtile (hdrOf w (some 20) (some 19)) (fld w 30 6) (flb w 11) (fld w 0 11))
  | 0xA9 => if fln w 12 7 != 0 then .error .undef else verdict iss svc w [.k] false [mbz w 36 6, mbz w 30 6, mbz w 24 6, mbz w 0 12] (.mtsm (hdrOf w (some 20) (some 19)))
  | 0xAA => if fln w 12 7 != 0 then .error .undef else verdict iss svc w [.k] false [mbz w 36 6, (24, decide (15 < fln w 24 6)), mbz w 0 12] (.fset (hdrOf w (some 20) (some 19)) (fld w 24 4) (fld w 30 6))
  | 0xAB => if 2 ≤ fln w 12 7 then .error .undef else verdict iss svc w [.k] false [mbz w 30 6, (24, decide (15 < fln w 24 6)), mbz w 0 12] (.fget (hdrOf w (some 20) (some 19)) (flb w 12) (fld w 36 6) (fld w 24 4))
  | 0xAC => if fln w 12 7 != 0 then .error .undef else verdict iss svc w [.k] false [mbz w 36 6, (24, decide (15 < fln w 24 6)), mbz w 0 12] (.fdrop (hdrOf w (some 20) (some 19)) (fld w 24 4) (fld w 30 6))
  | _ => .error .undef

/-! ### Headland opcodes (R50) -/

def decodeHeadland (iss : Issuer) (svc : Bool) (w : BitVec 64) (opc : Nat) : Except DecodeFault Instr :=
  match opc with
  | 0xB0 => if 2 ≤ fln w 0 7 then .error .undef else if flb w 0 then verdict iss svc w [.c] false [mbz w 37 5, mbz w 27 5, mbz w 17 10, mbz w 8 5] (.hgenRel (hdrOf w (some 13) (some 7)) (fld w 32 5))
    else verdict iss svc w [.c] false [mbz w 37 5, mbz w 17 10, mbz w 8 5] (.hgen (hdrOf w (some 13) (some 7)) (fld w 32 5) (fld w 27 5))
  | 0xB1 => if 2 ≤ fln w 0 7 then .error .undef else if iss == .s && !flb w 0 then .error (.wrongStream .s) else if iss == .s then verdict iss svc w [.c, .s] false [mbz w 37 5, (36, flb w 0 && flb w 36), mbz w 27 5, mbz w 17 10, mbz w 9 4] (.hchk (hdrOf w (some 13) (some 7)) (flb w 8) (.fur (fld w 32 4)) none)
    else verdict iss svc w [.c, .s] false [mbz w 37 5, (36, flb w 0 && flb w 36), mbz w 27 5, badReg w 17 0, mbz w 9 4] (.hchk (hdrOf w (some 13) (some 7)) (flb w 8) (if flb w 0 then .fur (fld w 32 4) else .win (fld w 32 5)) (some (eregAt w 17)))
  | 0xB2 => if 2 ≤ fln w 0 7 then .error .undef else verdict iss svc w [.c] false [mbz w 37 5, (36, flb w 0 && flb w 36), mbz w 27 5, badReg w 17 1, mbz w 9 4] (.hfix (hdrOf w (some 13) (some 7)) (flb w 8) (if flb w 0 then .fur (fld w 32 4) else .win (fld w 32 5)) (eregAt w 17))
  | 0xB3 => if fln w 0 7 != 0 then .error .undef else verdict iss svc w [.c] false [mbz w 27 5, mbz w 17 10, mbz w 8 5] (.hupd (hdrOf w (some 13) (some 7)) (fld w 37 5) (fld w 32 5))
  | 0xB4 => if 2 ≤ fln w 0 7 then .error .undef else verdict iss svc w [.c] false [mbz w 37 5, (36, flb w 0 && flb w 36), mbz w 27 5, badReg w 17 2, mbz w 8 5] (.hrd (hdrOf w (some 13) (some 7)) (if flb w 0 then .fur (fld w 32 4) else .win (fld w 32 5)) (eregAt w 17))
  | 0xB5 => if fln w 0 7 != 0 then .error .undef else verdict iss svc w [.c] false [mbz w 37 5, mbz w 32 5, mbz w 27 5, badSrc w 17, mbz w 8 5] (.htol (hdrOf w (some 13) (some 7)) (eopAt w 17))
  | _ => .error .undef

/-! ### Compose opcodes (R50) -/

def decodeCompose (iss : Issuer) (svc : Bool) (w : BitVec 64) (opc : Nat) : Except DecodeFault Instr :=
  match opc with
  | 0xB8 => if 2 ≤ fln w 12 7 then .error .undef else if flb w 12 then verdict iss svc w [.k] false [mbz w 36 6, mbz w 30 6, mbz w 24 6, mbz w 0 12] (.mccfgRst (hdrOf w (some 20) (some 19)))
    else verdict iss svc w [.k] false [mbz w 0 12] (.mccfg (hdrOf w (some 20) (some 19)) (fld w 36 6) (fld w 30 6) (fld w 24 6))
  | 0xB9 => match fln w 12 7 with
    | 0 => verdict iss svc w [.k] false [mbz w 36 6] (.mcld (hdrOf w (some 20) (some 19)) (fld w 30 6) (fld w 24 6) (flb w 11) (fld w 0 11))
    | 1 => verdict iss svc w [.k] false [mbz w 36 6, mbz w 24 6] (.mcldL (hdrOf w (some 20) (some 19)) (fld w 30 6) (flb w 11) (fld w 0 11))
    | 2 => verdict iss svc w [.k] false [mbz w 36 6] (.mcldR (hdrOf w (some 20) (some 19)) (fld w 30 6) (fld w 24 6) (flb w 11) (fld w 0 11))
    | _ => .error .undef
  | 0xBA => if 2 ≤ fln w 12 7 then .error .undef else verdict iss svc w [.k] false [mbz w 36 6] (.mcst (hdrOf w (some 20) (some 19)) (flb w 12) (fld w 30 6) (fld w 24 6) (flb w 11) (fld w 0 11))
  | 0xBB => if fln w 12 7 != 0 then .error .undef else verdict iss svc w [.k] false [mbz w 36 6, mbz w 24 6] (.mccmp (hdrOf w (some 20) (some 19)) (fld w 30 6) (flb w 11) (fld w 0 11))
  | 0xBC => if fln w 12 7 != 0 then .error .undef else verdict iss svc w [.k] false [mbz w 36 6, mbz w 24 6] (.mctree (hdrOf w (some 20) (some 19)) (fld w 30 6) (flb w 11) (fld w 0 11))
  | 0xBD => if 2 ≤ fln w 12 7 then .error .undef else if flb w 12 then verdict iss svc w [.k] false [mbz w 0 12] (.mcappT (hdrOf w (some 20) (some 19)) (fld w 36 6) (fld w 30 6) (fld w 24 6))
    else verdict iss svc w [.k] false [mbz w 0 12] (.mcapp (hdrOf w (some 20) (some 19)) (fld w 36 6) (fld w 30 6) (fld w 24 6))
  | 0xBE => if fln w 12 7 != 0 then .error .undef else verdict iss svc w [.k] false [mbz w 36 6] (.mcmsk (hdrOf w (some 20) (some 19)) (fld w 30 6) (fld w 24 6) (flb w 11) (fld w 0 11))
  | 0xBF => if 3 ≤ fln w 12 7 then .error .undef else verdict iss svc w [.k] false [mbz w 40 2, mbz w 24 6, mbz w 0 12] (.mcchk (hdrOf w (some 20) (some 19)) (tblAt McchkFn.table (fln w 12 7)) (fld w 36 4) (fld w 30 6))
  | _ => .error .undef

/-! ### Tithe opcodes (R50) -/

def decodeTithe (iss : Issuer) (svc : Bool) (w : BitVec 64) (opc : Nat) : Except DecodeFault Instr :=
  match opc with
  | 0xC0 => if fln w 12 7 != 0 then .error .undef else verdict iss svc w [.k] false [mbz w 36 6, mbz w 24 6, mbz w 2 10] (.thopen (hdrOf w (some 20) (some 19)) (fld w 0 2) (fld w 30 6))
  | 0xC1 => if fln w 12 7 != 0 then .error .undef else verdict iss svc w [.k] false [mbz w 36 6, mbz w 30 6, mbz w 24 6, mbz w 2 10] (.thclose (hdrOf w (some 20) (some 19)) (fld w 0 2))
  | 0xC2 => if fln w 12 7 != 0 then .error .undef else verdict iss svc w [.k] false [mbz w 36 6, mbz w 30 6, mbz w 24 6, mbz w 2 10] (.thabort (hdrOf w (some 20) (some 19)) (fld w 0 2))
  | 0xC3 => if 2 ≤ fln w 12 7 then .error .undef else if flb w 12 then verdict iss svc w [.k] false [mbz w 36 6, mbz w 24 6, mbz w 2 10] (.thbindR (hdrOf w (some 20) (some 19)) (fld w 0 2) (fld w 30 6))
    else verdict iss svc w [.k] false [mbz w 36 6, mbz w 30 6, (24, decide (15 < fln w 24 6)), mbz w 2 10] (.thbind (hdrOf w (some 20) (some 19)) (fld w 0 2) (fld w 24 4))
  | 0xC4 => if 7 ≤ fln w 12 7 then .error .undef else verdict iss svc w [.k] false [mbz w 24 6, mbz w 0 12] (.thrd (hdrOf w (some 20) (some 19)) (tblAt ThrdFn.table (fln w 12 7)) (fld w 36 6) (fld w 30 6))
  | 0xC5 => if fln w 12 7 != 0 then .error .undef else verdict iss svc w [.k] false [mbz w 0 12] (.thstm (hdrOf w (some 20) (some 19)) (fld w 36 6) (fld w 30 6) (fld w 24 6))
  | _ => .error .undef

/-! ### Engine opcodes (R50) -/

def decodeEngine (iss : Issuer) (svc : Bool) (w : BitVec 64) (opc : Nat) : Except DecodeFault Instr :=
  match opc with
  | 0xC8 => if fln w 12 7 != 0 then .error .undef else verdict iss svc w [.k] false [mbz w 36 6, mbz w 24 6] (.cpy (hdrOf w (some 20) (some 19)) (fld w 30 6) (flb w 11) (fld w 0 11))
  | 0xC9 => if fln w 12 7 != 0 then .error .undef else verdict iss svc w [.k] false [mbz w 36 6, mbz w 24 6] (.cpy2 (hdrOf w (some 20) (some 19)) (fld w 30 6) (flb w 11) (fld w 0 11))
  | 0xCA => if 2 ≤ fln w 12 7 then .error .undef else if flb w 12 then verdict iss svc w [.k] false [mbz w 36 6, mbz w 30 6, mbz w 24 6, mbz w 0 12] (.cpresDrop (hdrOf w (some 20) (some 19)))
    else verdict iss svc w [.k] false [mbz w 36 6, mbz w 30 6, mbz w 24 6, mbz w 0 12] (.cpres (hdrOf w (some 20) (some 19)))
  | 0xCB => if fln w 12 7 != 0 then .error .undef else verdict iss svc w [.k] false [mbz w 36 6, mbz w 30 6, mbz w 24 6, mbz w 0 12] (.cpwait (hdrOf w (some 20) (some 19)))
  | 0xCC => if fln w 12 7 != 0 then .error .undef else verdict iss svc w [.k] false [mbz w 36 6, mbz w 24 6] (.fxs (hdrOf w (some 20) (some 19)) (fld w 30 6) (flb w 11) (fld w 0 11))
  | 0xCD => if fln w 12 7 != 0 then .error .undef else verdict iss svc w [.k] false [mbz w 36 6, mbz w 24 6] (.fxr (hdrOf w (some 20) (some 19)) (fld w 30 6) (flb w 11) (fld w 0 11))
  | 0xCE => if fln w 12 7 != 0 then .error .undef else verdict iss svc w [.k] false [mbz w 36 6, mbz w 24 6] (.fxred (hdrOf w (some 20) (some 19)) (fld w 30 6) (flb w 11) (fld w 0 11))
  | 0xCF => if fln w 12 7 != 0 then .error .undef else verdict iss svc w [.k] false [mbz w 36 6, mbz w 30 6, mbz w 24 6, mbz w 0 12] (.fxwait (hdrOf w (some 20) (some 19)))
  | 0xD0 => if 2 ≤ fln w 12 7 then .error .undef else if flb w 12 then verdict iss svc w [.k] false [mbz w 36 6, mbz w 24 6, mbz w 0 12] (.tsatWait (hdrOf w (some 20) (some 19)) (fld w 30 6))
    else verdict iss svc w [.k] false [mbz w 36 6, mbz w 24 6, mbz w 0 12] (.tsat (hdrOf w (some 20) (some 19)) (fld w 30 6))
  | 0xD1 => if 2 ≤ fln w 12 7 then .error .undef else if flb w 12 then verdict iss svc w [.k] true [mbz w 36 6, mbz w 30 6, (24, decide (3 < fln w 24 6)), mbz w 0 12] (.hshInit (hdrOf w (some 20) (some 19)) (fld w 24 2))
    else verdict iss svc w [.k] true [mbz w 36 6, (24, decide (3 < fln w 24 6)), mbz w 0 12] (.hsh (hdrOf w (some 20) (some 19)) (fld w 24 2) (fld w 30 6))
  | 0xD2 => if fln w 12 7 != 0 then .error .undef else verdict iss svc w [.k] true [(24, decide (3 < fln w 24 6)), mbz w 7 5] (.hfin (hdrOf w (some 20) (some 19)) (fld w 24 2) (fld w 36 6) (fld w 30 6) (fld w 0 7))
  | 0xD3 => if fln w 12 7 != 0 then .error .undef else verdict iss svc w [.k] true [mbz w 36 6, mbz w 24 6, mbz w 0 12] (.sgn (hdrOf w (some 20) (some 19)) (fld w 30 6))
  | 0xD4 => if fln w 12 7 != 0 then .error .undef else verdict iss svc w [.k] true [mbz w 24 6, mbz w 0 12] (.vfy (hdrOf w (some 20) (some 19)) (fld w 36 6) (fld w 30 6))
  | 0xD5 => if 2 ≤ fln w 12 7 then .error .undef else if flb w 12 then verdict iss svc w [.k] true [mbz w 36 6, (24, decide (7 < fln w 24 6)), mbz w 0 12] (.mextRd (hdrOf w (some 20) (some 19)) (fld w 24 3) (fld w 30 6))
    else verdict iss svc w [.k] true [mbz w 36 6, (24, decide (7 < fln w 24 6)), mbz w 0 12] (.mext (hdrOf w (some 20) (some 19)) (fld w 24 3) (fld w 30 6))
  | 0xD6 => if fln w 12 7 != 0 then .error .undef else verdict iss svc w [.k] true [mbz w 0 12] (.kunw (hdrOf w (some 20) (some 19)) (fld w 36 6) (fld w 24 6) (fld w 30 6))
  | 0xD7 => if 2 ≤ fln w 12 7 then .error .undef else if flb w 12 then verdict iss svc w [.k] false [mbz w 24 6, mbz w 0 12] (.pxlkAcq (hdrOf w (some 20) (some 19)) (fld w 36 6) (fld w 30 6))
    else verdict iss svc w [.k] false [mbz w 24 6, mbz w 0 12] (.pxlk (hdrOf w (some 20) (some 19)) (fld w 36 6) (fld w 30 6))
  | 0xD8 => if fln w 12 7 != 0 then .error .undef else verdict iss svc w [.k] false [mbz w 24 6, mbz w 0 12] (.pxins (hdrOf w (some 20) (some 19)) (fld w 36 6) (fld w 30 6))
  | 0xD9 => if 2 ≤ fln w 12 7 then .error .undef else if flb w 12 then verdict iss svc w [.k] false [mbz w 24 6, mbz w 0 12] (.pxrefDrop (hdrOf w (some 20) (some 19)) (fld w 36 6) (fld w 30 6))
    else verdict iss svc w [.k] false [mbz w 24 6, mbz w 0 12] (.pxrefAdd (hdrOf w (some 20) (some 19)) (fld w 36 6) (fld w 30 6))
  | 0xDA => if fln w 12 7 != 0 then .error .undef else verdict iss svc w [.k] false [mbz w 24 6, mbz w 0 12] (.pxevc (hdrOf w (some 20) (some 19)) (fld w 36 6) (fld w 30 6))
  | 0xDB => match fln w 12 7 with
    | 0 => verdict iss svc w [.k] false [mbz w 24 6, mbz w 0 12] (.kvpgAlloc (hdrOf w (some 20) (some 19)) (fld w 36 6) (fld w 30 6))
    | 1 => verdict iss svc w [.k] false [mbz w 24 6, mbz w 0 12] (.kvpgFree (hdrOf w (some 20) (some 19)) (fld w 36 6) (fld w 30 6))
    | 2 => verdict iss svc w [.k] false [mbz w 24 6, mbz w 0 12] (.kvpgRel (hdrOf w (some 20) (some 19)) (fld w 36 6) (fld w 30 6))
    | 3 => verdict iss svc w [.k] false [mbz w 24 6, mbz w 0 12] (.kvpgAck (hdrOf w (some 20) (some 19)) (fld w 36 6) (fld w 30 6))
    | _ => .error .undef
  | _ => .error .undef

/-- The checks of R54 on a word, in order. -/
def decode (iss : Issuer) (svc : Bool) (w : BitVec 64) : Except DecodeFault Instr :=
  let opc := fln w 42 8
  if opc = 0 then .error .nullWord
  else if opc < 0x30 then decodeControl iss svc w opc
  else if opc < 0x40 then decodeSync iss svc w opc
  else if opc < 0x60 then decodeAccess iss svc w opc
  else if opc < 0x80 then decodeElement iss svc w opc
  else if opc < 0xA0 then decodeVector iss svc w opc
  else if opc < 0xB0 then decodeMatrix iss svc w opc
  else if opc < 0xB8 then decodeHeadland iss svc w opc
  else if opc < 0xC0 then decodeCompose iss svc w opc
  else if opc < 0xC8 then decodeTithe iss svc w opc
  else decodeEngine iss svc w opc

/-- The issuers in the order in which a word that names no stream is tried. -/
def issuersInOrder : List (Issuer × Bool) :=
  [(.kTask, false), (.l, false), (.c, false), (.s, false), (.kFirm, true)]

/-- The first issuer that accepts a word, with the instruction it reads. -/
def firstAccept (w : BitVec 64) : List (Issuer × Bool) → Option (Issuer × Bool × Instr)
  | [] => none
  | (iss, svc) :: r =>
    match decode iss svc w with
    | .ok i => some (iss, svc, i)
    | .error _ => firstAccept w r

/-- The instruction that the decoder reads from the bits of a table row: the word is one 64-bit instruction word, tried
on each stream in turn. -/
def decodeTableWord (_nbits w : Nat) : Option Instr :=
  match firstAccept (BitVec.ofNat 64 w) issuersInOrder with
  | some (_, _, i) => some i
  | none => none

/-! ### The encoder -/

/-- A body with the header's IDLE and token bits and the opcode (R37). -/
def withTop (h : Hdr) (opc : BitVec 8) (body : BitVec 42) : BitVec 64 :=
  h.idle ++ BitVec.ofBool h.wp ++ BitVec.ofBool h.wn ++ BitVec.ofBool h.sp ++ BitVec.ofBool h.sn ++ opc ++ body

/-- The formats of R41. -/
def packK3 (h : Hdr) (opc : BitVec 8) (d a b : BitVec 6) (fn : BitVec 7) : BitVec 64 :=
  withTop h opc (d ++ a ++ b ++ h.pq ++ BitVec.ofBool h.neg ++ fn ++ (0 : BitVec 12))
def packKI (h : Hdr) (opc : BitVec 8) (d a : BitVec 6) (imm : BitVec 26) : BitVec 64 :=
  withTop h opc (d ++ a ++ h.pq ++ imm)
def packKL (h : Hdr) (opc : BitVec 8) (d : BitVec 6) (imm : BitVec 32) : BitVec 64 :=
  withTop h opc (d ++ (0 : BitVec 4) ++ imm)
def packKC (h : Hdr) (opc : BitVec 8) (pd : BitVec 4) (cc : BitVec 3) (a : BitVec 6) (tail : BitVec 20) : BitVec 64 :=
  withTop h opc (pd ++ cc ++ BitVec.ofBool h.neg ++ (0 : BitVec 4) ++ a ++ h.pq ++ tail)
def packKB (h : Hdr) (opc : BitVec 8) (fn5 : BitVec 5) (off : BitVec 32) : BitVec 64 :=
  withTop h opc (h.pq ++ BitVec.ofBool h.neg ++ fn5 ++ off)
def packKM (h : Hdr) (opc : BitVec 8) (d a : BitVec 6) (sz ac : BitVec 3) (off : BitVec 20) : BitVec 64 :=
  withTop h opc (d ++ a ++ h.pq ++ sz ++ ac ++ off)
def packKA (h : Hdr) (opc : BitVec 8) (d a b : BitVec 6) (op : BitVec 4) (sc : BitVec 2) (dw : Bool) : BitVec 64 :=
  withTop h opc (d ++ a ++ b ++ h.pq ++ op ++ sc ++ BitVec.ofBool h.neg ++ BitVec.ofBool dw ++ (0 : BitVec 12))
def packE3 (h : Hdr) (opc : BitVec 8) (ed ea eb : BitVec 10) (fn : BitVec 7) : BitVec 64 :=
  withTop h opc (ed ++ ea ++ eb ++ h.pq ++ BitVec.ofBool h.neg ++ fn)
def packEI (h : Hdr) (opc : BitVec 8) (ed ea : BitVec 10) (imm : BitVec 18) : BitVec 64 :=
  withTop h opc (ed ++ ea ++ h.pq ++ imm)
def packW (h : Hdr) (opc : BitVec 8) (wd wa wb : BitVec 5) (ea : BitVec 10) (mode : BitVec 5) (fn : BitVec 7) : BitVec 64 :=
  withTop h opc (wd ++ wa ++ wb ++ ea ++ h.pq ++ mode ++ BitVec.ofBool h.neg ++ fn)
def packA (h : Hdr) (opc : BitVec 8) (ad ab : BitVec 6) (qn : BitVec 4) (ac sz : BitVec 3) (off : BitVec 16) : BitVec 64 :=
  withTop h opc (ad ++ ab ++ h.pq ++ qn ++ ac ++ sz ++ off)
def packM (h : Hdr) (opc : BitVec 8) (d a f : BitVec 6) (fn : BitVec 7) (imm : BitVec 12) : BitVec 64 :=
  withTop h opc (d ++ a ++ f ++ h.pq ++ BitVec.ofBool h.neg ++ fn ++ imm)
def packT (h : Hdr) (opc : BitVec 8) (fifo : BitVec 4) (c6 : BitVec 6) (fn : BitVec 7) (imm : BitVec 20) : BitVec 64 :=
  withTop h opc (h.pq ++ fifo ++ c6 ++ BitVec.ofBool h.neg ++ fn ++ imm)

/-- Codes as fields. -/
def cd {α : Type} [DecidableEq α] (n : Nat) (tbl : List α) (x : α) : BitVec n := BitVec.ofNat n (codeOf tbl x)
def ec (o : EOp) : BitVec 10 := BitVec.ofNat 10 o.code
def er (n : Fin 768) : BitVec 10 := BitVec.ofNat 10 n.val
def eb (b : Option (Fin 768)) : BitVec 10 := match b with | some n => er n | none => 788
def evTag (ev : Bool) (tag : BitVec 11) : BitVec 12 := BitVec.ofBool ev ++ tag
/-- mode5 of a rounding mode and overflow bit, of a flag in bit 0 (R226). -/
def rnd5 (r : Rnd) : BitVec 5 := BitVec.ofBool false ++ BitVec.ofBool r.ovf ++ cd 3 RMode.table r.mode
def flag5 (b : Bool) : BitVec 5 := (0 : BitVec 4) ++ BitVec.ofBool b
def b7 (b : Bool) : BitVec 7 := (0 : BitVec 6) ++ BitVec.ofBool b
def bk12 (b : BitVec 2) : BitVec 12 := (0 : BitVec 10) ++ b
def q4 {n : Nat} (q : Fin n) : BitVec 4 := BitVec.ofNat 4 q.val
def p6 (p : BitVec 4) : BitVec 6 := (0 : BitVec 2) ++ p
def w6 (x : BitVec 5) : BitVec 6 := (0 : BitVec 1) ++ x
def QName.number : QName → BitVec 4
  | .lq n => q4 n
  | .sq n => q4 n
  | .iq n => q4 n
def QName.kind : QName → BitVec 3
  | .lq _ => 0
  | .sq _ => 1
  | .iq _ => 2
def HTarget.field : HTarget → BitVec 5
  | .win x => x
  | .fur f => (0 : BitVec 1) ++ f
def HTarget.fn : HTarget → BitVec 7
  | .win _ => 0
  | .fur _ => 1

/-- The word of an instruction; a step that no word encodes gives the word of zeros, which decodes to nothing. -/
def encode (i : Instr) : BitVec 64 :=
  match i with
  | .nop h => packT h 0x01 0 0 0 0
  | .li h d imm => packKL h 0x02 d imm
  | .lih h d imm => packKL h 0x03 d imm
  | .alu h fn d a b => packK3 h 0x04 d a b (cd 7 AluFn.table fn)
  | .addi h d a imm => packKI h 0x05 d a imm
  | .andi h d a imm => packKI h 0x06 d a imm
  | .ori h d a imm => packKI h 0x07 d a imm
  | .xori h d a imm => packKI h 0x08 d a imm
  | .shli h d a n => packKI h 0x09 d a ((0 : BitVec 20) ++ n)
  | .shri h d a n => packKI h 0x0A d a ((0 : BitVec 20) ++ n)
  | .sari h d a n => packKI h 0x0B d a ((0 : BitVec 20) ++ n)
  | .muli h d a imm => packKI h 0x0C d a imm
  | .cmp h cc pd a b => packKC h 0x0D pd (cd 3 CmpCc.table cc) a (b ++ (0 : BitVec 14))
  | .cmpi h cc pd a imm => packKC h 0x0E pd (cd 3 CmpCc.table cc) a imm
  | .plog h fn d a b => packK3 h 0x0F (p6 d) (p6 a) (p6 b) (cd 7 PlogFn.table fn)
  | .sel h d a b => packK3 h 0x10 d a b 0
  | .lea h sc d a b => packK3 h 0x11 d a b ((0 : BitVec 5) ++ sc)
  | .br h off => packKB h 0x12 0 off
  | .call h off => packKB h 0x13 0 off
  | .jr h d a => packK3 h 0x14 d a 0 0
  | .loop h n (.imm c) => packKB h 0x15 ((0 : BitVec 2) ++ n) c
  | .loop h n (.reg r) => packKB h 0x15 ((2 : BitVec 2) ++ n) ((0 : BitVec 26) ++ r)
  | .loop h n (.ereg r) => packKB h 0x15 ((2 : BitVec 2) ++ n) ((0 : BitVec 22) ++ er r)
  | .endl h n off => packKB h 0x16 ((0 : BitVec 2) ++ n) off
  | .safe h => packT h 0x17 0 0 0 0
  | .endT h => packT h 0x18 0 0 0 0
  | .ldk h sz d a ac off => packKM h 0x19 d a (cd 3 Sz.table sz) ac off
  | .stk h sz d a ac off => packKM h 0x1A d a (cd 3 Sz.table sz) ac off
  | .lds h sz d a off => packKM h 0x1B d a (cd 3 Sz.table sz) 0 off
  | .sts h sz d a off => packKM h 0x1C d a (cd 3 Sz.table sz) 0 off
  | .rsr h d r => packM h 0x1D d 0 (cd 6 SpecialReg.table r) 0 0
  | .wsr h r a => packM h 0x1E 0 a (cd 6 SpecialReg.table r) 0 0
  | .epush h p a => packM h 0x1F 0 a (cd 6 Port.table p) 0 0
  | .epop h d p => packM h 0x20 d 0 (cd 6 Port.table p) 0 0
  | .ecountOut h d p => packM h 0x21 d 0 (cd 6 Port.table p) 0 0
  | .ecountIn h d p => packM h 0x21 d 0 (cd 6 Port.table p) 1 0
  | .rnd h d => packK3 h 0x22 d 0 0 0
  | .tkp h f n => packT h 0x30 (cd 4 Fifo.table f) n 0 0
  | .tkw h f n => packT h 0x31 (cd 4 Fifo.table f) n 0 0
  | .tkc h d f => packT h 0x32 (cd 4 Fifo.table f) 0 0 ((0 : BitVec 14) ++ d)
  | .bar h b => packT h 0x33 0 0 0 ((0 : BitVec 18) ++ b)
  | .bara h b => packT h 0x34 0 0 0 ((0 : BitVec 18) ++ b)
  | .barw h b => packT h 0x35 0 0 0 ((0 : BitVec 18) ++ b)
  | .renq h a b => packK3 h 0x36 0 a b 0
  | .amo h op sc dw d a b => packKA h 0x37 d a b (cd 4 AmoOp.table op) (cd 2 Scope.table sc) dw
  | .fence h k sc => packT h 0x38 0 0 (cd 7 FenceKind.table k) ((0 : BitVec 18) ++ cd 2 Scope.table sc)
  | .mark h => packT h 0x39 0 0 0 0
  | .wfe h imm => packT h 0x3A 0 0 0 imm
  | .sysCall h imm => packT h 0x3B 0 0 0 imm
  | .sysResume h t => packT h 0x3B 0 0 1 ((0 : BitVec 18) ++ t)
  | .sysKill h imm => packT h 0x3B 0 0 2 imm
  | .sysTmr h m imm => packT h 0x3B m 0 3 imm
  | .trap h imm => packT h 0x3C 0 0 0 imm
  | .brk h imm => packT h 0x3D 0 0 0 imm
  | .rfi h => packT h 0x3E 0 0 0 0
  | .ld h zp sz q ab ac off => packA h 0x40 ((0 : BitVec 5) ++ BitVec.ofBool zp) ab (q4 q) ac (cd 3 Sz.table sz) off
  | .ldp h sz q ab ac off => packA h 0x41 0 ab (q4 q) ac (cd 3 Sz.table sz) off
  | .ldi h sz q ab ac off => packA h 0x42 0 ab (q4 q) ac (cd 3 Sz.table sz) off
  | .ldg h zp sz iq q ab ac off => packA h 0x43 ((0 : BitVec 3) ++ BitVec.ofBool zp ++ BitVec.ofNat 2 iq.val) ab (q4 q) ac (cd 3 Sz.table sz) off
  | .ldr h f p ab ac off => packA h 0x44 (p6 f) ab p ac 0 off
  | .ldw h w ab ac off => packA h 0x45 (w6 w) ab 0 ac 0 off
  | .pf h tr ab off => packA h 0x46 0 ab ((0 : BitVec 3) ++ BitVec.ofBool tr) 0 0 off
  | .st h sz q ab ac off => packA h 0x47 0 ab (q4 q) ac (cd 3 Sz.table sz) off
  | .stp h sz q ab ac off => packA h 0x48 0 ab (q4 q) ac (cd 3 Sz.table sz) off
  | .stg h sz iq q ab ac off => packA h 0x49 ((0 : BitVec 3) ++ BitVec.ofNat 3 iq.val) ab (q4 q) ac (cd 3 Sz.table sz) off
  | .stw h w ab ac off => packA h 0x4A (w6 w) ab 0 ac 0 off
  | .stt h keep f p ab ac off => packA h 0x4B ((0 : BitVec 1) ++ BitVec.ofBool keep ++ f) ab p ac 0 off
  | .qfl h q => packA h 0x4C 0 0 q.number q.kind 0 0
  | .qln h (.areg d) q => packA h 0x4D d 0 q.number q.kind 0 0
  | .qln h (.ereg d) q => packA h 0x4D 0 0 q.number q.kind 0 ((0 : BitVec 6) ++ er d)
  | .fop h fn d a b => packE3 h 0x60 (ec d) (ec a) (ec b) (cd 7 FopFn.table fn)
  | .fma h c d a b => packE3 h 0x61 (ec d) (ec a) (ec b) (match c with | .ed => 0 | .lq n => BitVec.ofNat 7 (n.val + 1))
  | .fnma h c d a b => packE3 h 0x62 (ec d) (ec a) (ec b) (match c with | .ed => 0 | .lq n => BitVec.ofNat 7 (n.val + 1))
  | .frcp h d a => packE3 h 0x63 (ec d) (ec a) 0 0
  | .frsq h d a => packE3 h 0x64 (ec d) (ec a) 0 0
  | .frfr h d a b => packE3 h 0x65 (ec d) (ec a) (ec b) 0
  | .frfs h d a b => packE3 h 0x66 (ec d) (ec a) (ec b) 0
  | .fcmp h cc pd a b => packE3 h 0x67 ((0 : BitVec 6) ++ pd) (ec a) (ec b) (cd 7 FcmpCc.table cc)
  | .icmp h cc pd a b => packE3 h 0x6A ((0 : BitVec 6) ++ pd) (ec a) (ec b) (cd 7 CmpCc.table cc)
  | .fcvt h dst src r d a => packE3 h 0x68 (ec d) (ec a) ((0 : BitVec 2) ++ cd 4 Fmt.table dst ++ cd 4 Fmt.table src) ((0 : BitVec 3) ++ BitVec.ofBool r.ovf ++ cd 3 RMode.table r.mode)
  | .iop h fn d a b => packE3 h 0x69 (ec d) (ec a) (ec b) (cd 7 IopFn.table fn)
  | .eli h d imm => packEI h 0x6B (ec d) 0 imm
  | .elih h d imm => packEI h 0x6C (er d) 0 ((0 : BitVec 4) ++ imm)
  | .emov h d a => packE3 h 0x6D (ec d) (ec a) 0 0
  | .esel h d a b => packE3 h 0x6E (ec d) (ec a) (ec b) 0
  | .rot h imm => packEI h 0x6F 0 0 imm
  | .lbr h n off => packEI h 0x70 ((0 : BitVec 7) ++ n) 0 off
  | .eld h d base off => packEI h 0x71 (ec d) (eb base) off
  | .est h x base off => packEI h 0x72 (er x) (eb base) off
  | .vop h fn r wd wa wb => packW h 0x80 wd wa wb 0 (rnd5 r) (cd 7 VecOp.vopTable fn)
  | .vfma h ng sc r wd wa wb => packW h 0x81 wd wa wb (match sc with | some o => ec o | none => 0) (rnd5 r) ((0 : BitVec 5) ++ BitVec.ofBool ng ++ BitVec.ofBool sc.isSome)
  | .vsc h fn r wd wa ea => packW h 0x82 wd wa 0 (ec ea) (rnd5 r) (cd 7 VecOp.vscTable fn)
  | .vun h fn r wd wa => packW h 0x83 wd wa 0 0 (rnd5 r) (cd 7 VunFn.table fn)
  | .vcvt h r wd wa => packW h 0x84 wd wa 0 0 (rnd5 r) 0
  | .vred h fn idx wa ea => packW h 0x85 0 wa 0 (er ea) (flag5 idx) (cd 7 VredFn.table fn)
  | .vscan h exc r wd wa => packW h 0x86 wd wa 0 0 (rnd5 r) (b7 exc)
  | .vcmp h cc sc wd wa wb => packW h 0x87 wd wa wb (match sc with | some o => ec o | none => 0) (flag5 sc.isSome) (cd 7 VcmpCc.table cc)
  | .vsel h wd wa wb wm => packW h 0x88 wd wa wb ((0 : BitVec 5) ++ wm) 0 0
  | .vcpr h wd wa wm ea => packW h 0x89 wd wa wm (er ea) 0 0
  | .vxpd h wd wa wm ea => packW h 0x8A wd wa wm (er ea) 0 0
  | .vgat h z wd wa wb => packW h 0x8B wd wa wb 0 (flag5 z) 0
  | .vsct h z wd wa wb => packW h 0x8C wd wa wb 0 (flag5 z) 0
  | .vsca h z wd wa wb => packW h 0x8D wd wa wb 0 (flag5 z) 0
  | .vfill h r wd ea => packW h 0x8E wd 0 0 (ec ea) (rnd5 r) 0
  | .vrnd h u wd => packW h 0x8F wd 0 0 0 0 (b7 u)
  | .vhad h inv k wd wa ea => packW h 0x90 wd wa 0 (er ea) ((0 : BitVec 1) ++ k) (b7 inv)
  | .vqnt h m wd wa wb => packW h 0x91 wd wa wb 0 (rnd5 ⟨m, false⟩) 0
  | .vdqt h r wd wa wb => packW h 0x92 wd wa wb 0 (rnd5 r) 0
  | .vtopk h wd wa wb ea => packW h 0x93 wd wa wb (er ea) 0 0
  | .vsamp h res wa wb ea => packW h 0x94 0 wa wb (er ea) 0 (b7 res)
  | .vsoft h wd wa => packW h 0x95 wd wa 0 0 0 0
  | .wset h fn wd ea => packW h 0x96 wd 0 0 (ec ea) 0 (cd 7 WsetFn.table fn)
  | .wget h rf wa ea => packW h 0x97 0 wa 0 (er ea) 0 (if rf then 5 else 0)
  | .vbit h fn v dr wd wa wb ea => packW h 0x98 wd wa wb (er ea) ((0 : BitVec 3) ++ BitVec.ofBool dr ++ BitVec.ofBool v) (cd 7 VbitFn.table fn)
  | .vmov h wd wa => packW h 0x99 wd wa 0 0 0 0
  | .mtw h lvl a role => packM h 0xA0 0 a (BitVec.ofNat 6 lvl.val) 0 ((0 : BitVec 10) ++ cd 2 Role.table role)
  | .mtr h ro d lvl => packM h 0xA1 d 0 (BitVec.ofNat 6 lvl.val) (b7 ro) 0
  | .mcfg h mode r => packM h 0xA2 0 0 0 0 ((0 : BitVec 6) ++ BitVec.ofBool r.ovf ++ cd 3 RMode.table r.mode ++ cd 2 Fusion.table mode)
  | .mfmt h a => packM h 0xA3 0 a 0 0 0
  | .mgo h a ev tag => packM h 0xA4 0 a 0 0 (evTag ev tag)
  | .mtile h a ev tag => packM h 0xA8 0 a 0 0 (evTag ev tag)
  | .mwait h => packM h 0xA5 0 0 0 0 0
  | .mzero h a => packM h 0xA6 0 a 0 0 0
  | .mdrain h f a ev tag => packM h 0xA7 0 a (p6 f) 0 (evTag ev tag)
  | .mtsm h => packM h 0xA9 0 0 0 0 0
  | .fset h f a => packM h 0xAA 0 a (p6 f) 0 0
  | .fget h st d f => packM h 0xAB d 0 (p6 f) (b7 st) 0
  | .fdrop h f a => packM h 0xAC 0 a (p6 f) 0 0
  | .hgen h wa ws => packW h 0xB0 0 wa ws 0 0 0
  | .hgenRel h wa => packW h 0xB0 0 wa 0 0 0 1
  | .hchk h ro t ea => packW h 0xB1 0 t.field 0 (match ea with | some n => er n | none => 0) (flag5 ro) t.fn
  | .hfix h c t ea => packW h 0xB2 0 t.field 0 (er ea) (flag5 c) t.fn
  | .hupd h wd wa => packW h 0xB3 wd wa 0 0 0 0
  | .hrd h t ea => packW h 0xB4 0 t.field 0 (er ea) 0 t.fn
  | .htol h ea => packW h 0xB5 0 0 0 (ec ea) 0 0
  | .mccfg h d a f => packM h 0xB8 d a f 0 0
  | .mccfgRst h => packM h 0xB8 0 0 0 1 0
  | .mcld h a f ev tag => packM h 0xB9 0 a f 0 (evTag ev tag)
  | .mcldL h a ev tag => packM h 0xB9 0 a 0 1 (evTag ev tag)
  | .mcldR h a f ev tag => packM h 0xB9 0 a f 2 (evTag ev tag)
  | .mcst h g a f ev tag => packM h 0xBA 0 a f (b7 g) (evTag ev tag)
  | .mccmp h a ev tag => packM h 0xBB 0 a 0 0 (evTag ev tag)
  | .mctree h a ev tag => packM h 0xBC 0 a 0 0 (evTag ev tag)
  | .mcapp h d a f => packM h 0xBD d a f 0 0
  | .mcappT h d a f => packM h 0xBD d a f 1 0
  | .mcmsk h a f ev tag => packM h 0xBE 0 a f 0 (evTag ev tag)
  | .mcchk h fn pd a => packM h 0xBF (p6 pd) a 0 (cd 7 McchkFn.table fn) 0
  | .thopen h b a => packM h 0xC0 0 a 0 0 (bk12 b)
  | .thclose h b => packM h 0xC1 0 0 0 0 (bk12 b)
  | .thabort h b => packM h 0xC2 0 0 0 0 (bk12 b)
  | .thbind h b f => packM h 0xC3 0 0 (p6 f) 0 (bk12 b)
  | .thbindR h b a => packM h 0xC3 0 a 0 1 (bk12 b)
  | .thrd h fn d a => packM h 0xC4 d a 0 (cd 7 ThrdFn.table fn) 0
  | .thstm h d a f => packM h 0xC5 d a f 0 0
  | .cpy h a ev tag => packM h 0xC8 0 a 0 0 (evTag ev tag)
  | .cpy2 h a ev tag => packM h 0xC9 0 a 0 0 (evTag ev tag)
  | .cpres h => packM h 0xCA 0 0 0 0 0
  | .cpresDrop h => packM h 0xCA 0 0 0 1 0
  | .cpwait h => packM h 0xCB 0 0 0 0 0
  | .fxs h a ev tag => packM h 0xCC 0 a 0 0 (evTag ev tag)
  | .fxr h a ev tag => packM h 0xCD 0 a 0 0 (evTag ev tag)
  | .fxred h a ev tag => packM h 0xCE 0 a 0 0 (evTag ev tag)
  | .fxwait h => packM h 0xCF 0 0 0 0 0
  | .tsat h a => packM h 0xD0 0 a 0 0 0
  | .tsatWait h a => packM h 0xD0 0 a 0 1 0
  | .hshInit h n => packM h 0xD1 0 0 ((0 : BitVec 4) ++ n) 1 0
  | .hsh h n a => packM h 0xD1 0 a ((0 : BitVec 4) ++ n) 0 0
  | .hfin h n d a len => packM h 0xD2 d a ((0 : BitVec 4) ++ n) 0 ((0 : BitVec 5) ++ len)
  | .sgn h a => packM h 0xD3 0 a 0 0 0
  | .vfy h d a => packM h 0xD4 d a 0 0 0
  | .mext h m a => packM h 0xD5 0 a ((0 : BitVec 3) ++ m) 0 0
  | .mextRd h m a => packM h 0xD5 0 a ((0 : BitVec 3) ++ m) 1 0
  | .kunw h d sl a => packM h 0xD6 d a sl 0 0
  | .pxlk h d a => packM h 0xD7 d a 0 0 0
  | .pxlkAcq h d a => packM h 0xD7 d a 0 1 0
  | .pxins h d a => packM h 0xD8 d a 0 0 0
  | .pxrefAdd h d a => packM h 0xD9 d a 0 0 0
  | .pxrefDrop h d a => packM h 0xD9 d a 0 1 0
  | .pxevc h d a => packM h 0xDA d a 0 0 0
  | .kvpgAlloc h d a => packM h 0xDB d a 0 0 0
  | .kvpgFree h d a => packM h 0xDB d a 0 1 0
  | .kvpgRel h d a => packM h 0xDB d a 0 2 0
  | .kvpgAck h d a => packM h 0xDB d a 0 3 0
  | .resultLanding => 0
  | .checkedActionConfirm _ => 0
  | .loadArrival _ => 0
  | .accessPerformed _ => 0
  | .slotJoin _ => 0
  | .tlbInvalidate _ _ _ => 0
  | .matrixStep => 0
  | .marker => 0
  | .drain => 0
  | .mceCommand => 0
  | .copyStep => 0
  | .fabricMatch _ _ _ => 0
  | .fabricFrame _ _ _ => 0
  | .fabricLinkFail _ => 0
  | .titheDecide => 0
  | .meterStatement => 0
  | .kvDecide => 0
  | .barrierPhaseComplete _ => 0
  | .timerExpiry => 0
  | .budgetExpiry => 0
  | .wfeTimeout _ => 0
  | .attn _ => 0
  | .takeInterrupt _ => 0
  | .fEventTake => 0
  | .noiseReseed _ => 0
  | .sluicePass _ => 0
  | .hungDetect => 0
  | .preemptDemand => 0
  | .engineSavePoint => 0
  | .partitionSave => 0
  | .partitionRestore => 0
  | .qtailWrite _ _ _ _ => 0
  | .registerWrite _ _ _ => 0
  | .packetCheck _ _ => 0
  | .timedStart => 0
  | .groupPlace _ => 0
  | .gatedAdmit => 0
  | .completionRecord _ => 0
  | .imemRepair _ _ => 0
  | .dieHold _ => 0
  | .schedRestart _ => 0
  | .claim _ _ => 0
  | .beat _ => 0
  | .release _ => 0
  | .leaseExpiry => 0
  | .defineEnclosure _ => 0
  | .registerModel _ => 0
  | .replace _ _ _ => 0
  | .waveLayer _ => 0
  | .firmwareStage _ => 0
  | .firmwareActivate => 0
  | .ownerKeyRegistry _ _ => 0
  | .fabricRoute _ _ => 0
  | .tidelineTrim _ => 0
  | .tidelineSeal => 0
  | .contextCreate _ _ _ => 0
  | .contextDestroy _ => 0
  | .extend _ _ => 0
  | .foreshoreSplit _ _ => 0
  | .installTerms _ => 0
  | .hostWrite _ _ _ _ => 0
  | .hostRead _ _ _ => 0
  | .getVersion => 0
  | .getCapabilities => 0
  | .negotiateAlgorithms => 0
  | .getDigests => 0
  | .getCertificate => 0
  | .challenge => 0
  | .getMeasurements => 0
  | .ptpCorrection _ => 0
  | .powerOnBoot => 0
  | .deviceReset => 0
  | .powerLoss => 0
  | .thermalTrip => 0
  | .clockThrottle _ => 0
  | .cxlAgentAccess _ _ => 0
  | .softError _ => 0
  | .cryptoUnitResult => 0

end Sys2Proof
end

