-- ==== Sys2Proof/Machine/State.lean ====
section
/-! DEFINITION. The state of the machine as plain data: every piece of state that INVENTORY.md lists, and the machine
right after reset. -/

namespace Sys2Proof.Machine

/-- Reasons for a step to stop the model with a fault. -/
inductive Fault where
  /-- Raised by the events of outside masters (`hostWrite`, `cxlAgentAccess`) that name a physical address beyond the
  52-bit physical address space of R19, which does not exist. Safe: the model stops where no such access can be made. -/
  | outsideMemory (pa : Nat)
deriving DecidableEq, Repr, Inhabited

/-- Reasons for a step to refuse. -/
inductive Refusal where
  /-- Raised by an arm of the dispatch table that has no meaning yet. Safe: nothing can be proved of it. -/
  | notModelled (mnemonic : String)
deriving DecidableEq, Repr, Inhabited

/-- A fault of an instruction: cause, detail (already at bits [63:16] of the cause word), and the value for frame +0x10
(R141, R143, R144). -/
structure TrapInfo where
  cause   : Cause
  detail  : Nat
  operand : Word
deriving DecidableEq, Repr, Inhabited

/-- An engine's reply to a word that waits for it: the request's number, the value, the cycle in which it arrives, and the
fault that is raised at the waiting word, if any. -/
structure Reply where
  id    : Nat
  val   : Word
  ready : Nat
  fault : Option TrapInfo
deriving DecidableEq, Repr, Inhabited

/-! ### Streams -/

/-- What a stream is doing (R140, R141, R147, R149). -/
inductive Run where
  /-- no such stream is placed (or the context does not exist on this core) -/
  | absent
  | running
  /-- `end` has finished, or the task was killed -/
  | ended
  /-- halted on an F event: the cause word (code and class), the operand, and whether the stream's own frame was written -/
  | halted (cause operand : Word) (written : Bool)
  /-- a double fault in the firmware context holds the core (R149) -/
  | held
deriving DecidableEq, Repr, Inhabited

/-- A `wfe` that waits: when it began, when it times out, and whether an event has ended it (R139). -/
structure Wfe where
  start : Nat
  limit : Option Nat
  fired : Bool
deriving DecidableEq, Repr, Inhabited

/-- When a result is ready (R88): in a cycle, or when the reply to the word of this number comes back. -/
inductive Due where
  | cycle (n : Nat)
  | word (n : Nat)
deriving DecidableEq, Repr, Inhabited

/-- A run of bytes at a physical address, or in the scratchpad. -/
structure Seg where
  pa  : Nat
  len : Nat
deriving DecidableEq, Repr, Inhabited

/-- A load that waits at issue for earlier stores: its issue cycle, where it reads, its class (R374). -/
structure Tried where
  cycle : Nat
  space : Bool × List Seg
  ac    : BitVec 3
deriving DecidableEq, Repr, Inhabited

/-- One hardware context of a sequencer: K's task and firmware contexts, L, C and S (R14, R86, R87, R140).
`regs` holds s0 to s63 or a0 to a63; C has none and never writes it.
Register numbers of `busy`, `bad` and `replay`: 0 to 63 the registers, 64 to 79 the predicates, 80 to 87 the loop
counters; of C, 128 + n the element register e[n] and 896 + n the window register w[n]. -/
structure Ctx where
  imem      : Memory
  pc        : Pc
  regs      : Vector Word 64
  preds     : BitVec 16
  lc        : Vector (BitVec 32) 8
  ls        : Vector Pc 8
  tvec      : Word
  tframe    : Word
  cause     : Word
  epc       : Word
  trp       : Bool
  ie        : Bool
  nrp       : Bool
  run       : Run
  /-- the last attempt to issue ended in a wait (R104) -/
  blocked   : Bool
  /-- stopped at a `safe` for a pre-emption that is pending (R153) -/
  stopped   : Bool
  lastIssue : Nat
  /-- no word has issued since the common start or the restore (R38, R153) -/
  fresh     : Bool
  notBefore : Nat
  /-- the word at this pc has taken its pops and has not finished (R40) -/
  popped    : Option Pc
  /-- the word at the pc has issued and has not finished: it does not issue again (R38) -/
  inFlight  : Bool
  /-- how many words of the stream have acquired: later accesses come after every earlier one (R371) -/
  epoch     : Nat
  /-- the number of the request whose reply that word waits for -/
  asked     : Option Nat
  /-- the same two of the code that a trap has interrupted (R145) -/
  keptPop   : Option Pc
  keptAsk   : Option Nat
  /-- the load of K that waits at the pc: where it reads, in which class, and the cycle it may issue by R38 (R374) -/
  tried     : Option Tried
  wfe       : Option Wfe
  pendTimer : Bool
  pendBudget : Bool
  pendAttn  : Bool
  marks     : Nat
  /-- results not ready (R88) -/
  busy      : List (Nat × Due)
  /-- values that fail parity; true: also after the repair (R121) -/
  bad       : List (Nat × Bool)
  /-- the last 32 register-writing instructions, newest first: the registers with the values that re-execution from the
  queue's operands gives them, and the latency (R120, R121) -/
  replay    : List (List (Nat × Word) × Nat)
deriving DecidableEq, Repr

/-- A context right after reset: every register at zero (log 4), p0 true, no stream. -/
def Ctx.reset : Ctx where
  imem := []
  pc := 0
  regs := Vector.replicate 64 0
  preds := 1
  lc := Vector.replicate 8 0
  ls := Vector.replicate 8 0
  tvec := 0
  tframe := Config.frameBase
  cause := 0
  epc := 0
  trp := false
  ie := false
  nrp := false
  run := .absent
  blocked := false
  stopped := false
  lastIssue := 0
  fresh := true
  notBefore := 0
  popped := none
  inFlight := false
  epoch := 0
  asked := none
  keptPop := none
  keptAsk := none
  tried := none
  wfe := none
  pendTimer := false
  pendBudget := false
  pendAttn := false
  marks := 0
  busy := []
  bad := []
  replay := []

/-! ### C: results in flight and vector progress -/

/-- Where a result of C lands: a physical register, or a reserved slot of a queue (codes of R46). -/
inductive Dest where
  | reg (n : Fin 768)
  | queue (q : Fin 20) (slot : Nat)
deriving DecidableEq, Repr, Inhabited

/-- A result in flight (R192, R207). `corrupt`: fails parity; true: also after its repair (R210). -/
structure Latch where
  dest    : Dest
  land    : Nat
  val     : Elem
  lat     : Nat
  corrupt : Option Bool
deriving DecidableEq, Repr, Inhabited

/-- The progress of a vector or headland instruction (R223). `start` is its issue cycle; `restart`: a frame records
NEXT and PHASE as 0, and the instruction restarts from the beginning. `cycles` and `windows`: its time and the window
registers, both as they stood at its issue (R213, R219). -/
structure VProg where
  pc    : Pc
  start : Nat
  restart : Bool
  next  : Nat
  phase : Nat
  carry : Elem
  words : List Elem
  cycles : Nat
  windows : Vector (BitVec 64) 32
deriving DecidableEq, Repr, Inhabited

/-! ### Queues, tokens, barriers -/

/-- One entry of an architectural queue (R16, R162): due while `val` is none; `poison` holds the address of the load
that produced it, or zero (R164). `load` is the number of marks before the load that fills it; none for C's elements. -/
structure QSlot where
  id     : Nat
  val    : Option Elem
  poison : Option Word
  load   : Option Nat
deriving DecidableEq, Repr, Inhabited

/-- A token push still to be made: at the end of cycle `due` (R124, R125). -/
structure Push where
  fifo : Fifo
  n    : Nat
  due  : Nat
deriving DecidableEq, Repr, Inhabited

/-- A barrier of the task (R129): arrival and waited phase, and the latest phase that is complete. -/
structure Bar where
  arrive : Nat
  waited : Nat
  complete : Nat
deriving DecidableEq, Repr, Inhabited

/-- The interval timer (R147, R427): selected streams (K, L, C, S), interval in cycles, next expiry. -/
structure Timer where
  sel      : BitVec 4
  interval : Nat
  next     : Nat
deriving DecidableEq, Repr, Inhabited

/-- Guard granules touched since the last report (R132): bank and offset of the first, further touches. -/
structure Touch where
  bank : Nat
  off  : Nat
  more : Nat
deriving DecidableEq, Repr, Inhabited

/-- A noise channel (R115, R225): the seed in use, bits already drawn from it, the index of the next reseed, and the
seeds recorded or supplied for the replay. -/
structure Noise where
  seed     : List (BitVec 8)
  pos      : Nat
  index    : Nat
  recorded : List (List (BitVec 8))
deriving DecidableEq, Repr, Inhabited

/-! ### Accesses of L and S that have issued -/

/-- What an issued access does when it is performed. -/
inductive AccessKind where
  /-- a queue load: its element slots are reserved in queue `q` (R169) -/
  | load (sp : Bool) (segs : List Seg) (sz : Sz) (q : Fin 20) (slots : List Nat) (zp : Bool)
  /-- `ldw`: bytes into the elements of the window image (R173) -/
  | loadWindow (segs : List Seg) (image : BitVec 64)
  /-- `ldr`: rows and scale words into a reserved slot of a furrow (R171) -/
  | loadTile (rows scales : List Seg) (f : Fin 16) (slot : Nat)
  /-- a store: the bytes leave for these places; `pop` pops a furrow once performed (R170, R172, R173) -/
  | store (sp : Bool) (segs : List Seg) (bytes : List (BitVec 8)) (pop : Option (Fin 16))
deriving DecidableEq, Repr, Inhabited

/-- An issued access (R162, R168, R178): its stream, issue cycle, class, the marks its stream had issued, how often it had
acquired, the virtual address, the cycle it is due at the unloaded latency, its pc, and the pushes of its word. -/
structure Access where
  id     : Nat
  isLoad : Bool
  cycle  : Nat
  ac     : BitVec 3
  marks  : Nat
  epoch  : Nat
  va     : Word
  due    : Nat
  pc     : Pc
  kind   : AccessKind
  pushes : List (Fifo × Nat)
deriving DecidableEq, Repr, Inhabited

/-! ### Tiles: furrows and headland -/

/-- A furrow (R256): configuration, head slot, tiles present, slots reserved at the tail in order (true: filled).
A capacity of 0 is an unconfigured furrow. -/
structure Furrow where
  fmt     : Fmt
  cap     : Nat
  base    : Nat
  head    : Nat
  present : Nat
  fill    : List Bool
deriving DecidableEq, Repr, Inhabited

/-- One checksum (R78, R79): 40 bits, or the bits of h with the addition count n. -/
structure HSum where
  h : Nat
  n : Nat
deriving DecidableEq, Repr, Inhabited

/-! ### The matrix engine (R253, R258 to R266) -/

/-- A level of the loop-nest table (R260). -/
structure MLevel where
  count : BitVec 16
  a     : BitVec 16
  b     : BitVec 16
  c     : BitVec 16
  role  : Role
deriving DecidableEq, Repr, Inhabited

/-- A furrow's configuration as `fset` gives it (R277); capacity 0 is unconfigured. -/
structure FurCfg where
  fmt  : Fmt
  cap  : Nat
  base : Nat
deriving DecidableEq, Repr, Inhabited

/-- An accumulator (R253): 1,024 FP32 elements row by row, predicted headland, poison, and whether its storage gives an
uncorrectable error when it is read (R264). -/
structure Acc where
  vals   : List Elem
  rows   : List HSum
  cols   : List HSum
  poison : Bool
  lost   : Bool
deriving DecidableEq, Repr, Inhabited

def Acc.zero : Acc := ⟨List.replicate 1024 0, List.replicate 32 ⟨0, 0⟩, List.replicate 32 ⟨0, 0⟩, false, false⟩

/-- What K has issued to the engine: the table, the mode of the latest `mcfg`, the format words with the uses they have
left, the accumulators' output formats, the furrow configurations (R259, R260, R270, R432). -/
structure MxK where
  table : Vector MLevel 6
  mode  : Fusion
  rnd   : Rnd
  words : List (Word × Nat)
  out   : Vector Fmt 16
  fur   : Vector FurCfg 16
deriving DecidableEq, Repr

def MxK.reset : MxK where
  table := Vector.replicate 6 ⟨0, 0, 0, 0, .m⟩
  mode := .quad
  rnd := ⟨.rne, false⟩
  words := []
  out := Vector.replicate 16 .fp32
  fur := Vector.replicate 16 ⟨.none, 0, 0⟩

/-- A tile command at positions of its furrows (R254, R255): what a step of a nest does, and what the retained window
keeps of it. -/
structure MStep where
  af   : Fin 16
  bf   : Fin 16
  mode : Fusion
  sub  : Nat
  sm   : BitVec 2
  i    : Nat
  j    : Nat
  q    : Nat
deriving DecidableEq, Repr, Inhabited

/-- A nest (R261, R272): its furrows, offsets, copied table, the next step, the accumulators that Z has zeroed, whether
the implicit marker before the next step is taken, its pops, and its completion cycle once its last step has run. -/
structure Nest where
  base   : MStep
  z      : Bool
  levels : List MLevel
  total  : Nat
  next   : Nat
  zeroed : List Nat
  marked : Bool
  popA   : Nat
  popB   : Nat
  fin    : Option Nat
deriving DecidableEq, Repr, Inhabited

inductive MOp where
  | nest (n : Nest)
  | zero (mask : BitVec 16)
  | cfg (mode : Fusion) (rnd : Rnd)
  | drain (f : Fin 16) (accs : List Nat) (lowest : Nat)
  /-- checks the accumulators written since the last marker, and those given -/
  | marker (also : List Nat)
  | fset (f : Fin 16) (c : FurCfg)
  | fdrop (f : Fin 16) (n : Nat)
deriving DecidableEq, Repr, Inhabited

/-- A command of the engine: not before cycle `ready`; its event bit and tag. -/
structure MCmd where
  op    : MOp
  ready : Nat
  ev    : Bool
  tag   : BitVec 11
deriving DecidableEq, Repr, Inhabited

/-- An elementary command of the retained window (R262): zeroing, a tile command with its tag and step, and one that a
lasting error has stopped, which poisons its accumulators (R264). -/
inductive Kept where
  | zero (accs : List Nat)
  | step (m : MStep) (tag : BitVec 11) (num : Nat)
  | poison (accs : List Nat)
deriving DecidableEq, Repr, Inhabited

/-- The matrix engine. -/
structure Mx where
  k      : MxK
  mode   : Fusion
  rnd    : Rnd
  acc    : Vector Acc 16
  shadow : Vector Acc 16
  cmds   : List MCmd
  since  : Nat
  kept   : List Kept
  /-- pops that wait for a marker, and pops retired that wait for tiles (R262, R263) -/
  pops   : List (Fin 16 × Nat)
  owed   : List (Fin 16 × Nat)
deriving DecidableEq, Repr

def Mx.reset : Mx where
  k := MxK.reset
  mode := .quad
  rnd := ⟨.rne, false⟩
  acc := Vector.replicate 16 Acc.zero
  shadow := Vector.replicate 16 Acc.zero
  cmds := []
  since := 0
  kept := []
  pops := []
  owed := []

/-! ### The map-composition engine (R301 to R310) -/

/-- The configuration of `mccfg`: states, index width in bytes, dead state, vocabulary, table bases. -/
structure McCfg where
  n    : Nat
  w    : Nat
  dead : Nat
  v    : Nat
  tok  : Word
  st   : Option Word
deriving DecidableEq, Repr, Inhabited

/-- A valid slot: its entries, IDENT, CONST with its value; `err`: a read fails its check code; true: the second too. -/
structure McMap where
  vals  : List Nat
  ident : Bool
  const : Option Nat
  err   : Option Bool
deriving DecidableEq, Repr, Inhabited

inductive McOp where
  | cfg (c : McCfg)
  | rst
  | load (slot t : Nat)
  | loadRaw (slot : Nat) (va : Word)
  | loadList (first count list : Nat)
  | store (glob : Bool) (slot : Nat) (va : Word)
  | comp (d a b : Nat)
  | tree (dest first t : Nat)
  | mask (state addr : Nat)
  | app (state slot : Nat)
  | appT (state t : Nat)
  | chk (fn : McchkFn) (slot : Nat)
deriving DecidableEq, Repr, Inhabited

/-- A command of the engine: whose address space, its event bit, tag and request number, the cycle before which it does
not go on, and its progress: units done, entries of the map it is writing, the ids of its list (none: poisoned), and
whether only its completion is left. -/
structure McCmd where
  op    : McOp
  firm  : Bool
  ev    : Bool
  tag   : BitVec 11
  id    : Option Nat
  ready : Nat
  step  : Nat
  part  : List Nat
  ids   : Option (List (Option Nat))
  spent  : Bool
deriving DecidableEq, Repr, Inhabited

/-- The engine: the configuration K has issued and its own, the valid slots, the commands received (the first one is
running, or has failed), the deferred fault and the pc of the word at which it has been raised, and whether a word of K
waits for the continuation of the failed command. -/
structure Mce where
  kcfg   : Option McCfg
  cfg    : Option McCfg
  slots  : List (Nat × McMap)
  queue  : List McCmd
  failed : Option (TrapInfo × Option Pc)
  cont   : Bool
deriving DecidableEq, Repr

def Mce.reset : Mce := ⟨none, none, [], [], none, false⟩

/-! ### The copy engine (R347 to R354) -/

/-- A command block (R347); a format of `none` is a bit copy. -/
structure CpBlk where
  dst  : Word
  src  : Word
  len  : Nat
  rows : Nat
  sp   : Int
  dp   : Int
  sfmt : Fmt
  dfmt : Fmt
  rnd  : Rnd
  dec  : Bool
  ds   : Bool
  ss   : Bool
  key  : Nat
  iv   : List (BitVec 8)
deriving DecidableEq, Repr, Inhabited

/-- A command of the copy engine: whose address space, event bit and tag, the cycle before which it does not go on, the
offset of its next step, whether it has begun; for DEC the key it took with its enclosure, and its GHASH state with the
bytes that do not yet fill a block (R353, R354). -/
structure CpCmd where
  blk   : CpBlk
  firm  : Bool
  ev    : Bool
  tag   : BitVec 11
  ready : Nat
  next  : Nat
  began : Bool
  key   : List (BitVec 8)
  encl  : Nat
  ghash : Nat
  gbuf  : List (BitVec 8)
  /-- what a block from the copy queue fails, which holds it when its turn comes (R348, R350) -/
  fault : Option TrapInfo
  /-- units already moved in this cycle (R366) -/
  part  : Nat
  /-- its tag has mismatched: it writes zeros over its destination from its offset on (R354) -/
  zero  : Bool
deriving DecidableEq, Repr, Inhabited

/-- A held command (R350): F, the underlying cause, the address that failed. -/
structure CpHeld where
  off   : Nat
  cause : Cause
  addr  : Word
deriving DecidableEq, Repr, Inhabited

/-- The copy engine: its commands in order of arrival, the first one running or held, and how many have arrived. -/
structure Cp where
  queue : List CpCmd
  held  : Option CpHeld
  count : Nat
deriving DecidableEq, Repr, Inhabited

/-! ### The fabric interface (R355 to R358) -/

/-- The other side of a message. -/
structure FxPeer where
  dev  : Nat
  die  : Nat
  core : Nat
  chan : Nat
deriving DecidableEq, Repr, Inhabited

/-- A fabric command: a send, or a posted buffer (for `fxred` with its format). `gate`: the PTP time before which it does
not start (R358); `other`: the length of the message or buffer it is matched with; bytes moved; the bytes received of
a message to be added; the reason it is held. -/
structure FxCmd where
  send  : Bool
  red   : Option Fmt
  peer  : FxPeer
  addr  : Nat
  len   : Nat
  firm  : Bool
  ev    : Bool
  tag   : BitVec 11
  gate  : Nat
  other : Option Nat
  moved : Nat
  msg   : List (BitVec 8)
  held  : Option Nat
  /-- how many commands had arrived before it, the cycle in which its next frame may leave (R366), and the number of the
  buffer or send of this core that it is matched with (R356) -/
  num   : Nat
  ready : Nat
  mate  : Option Nat
deriving DecidableEq, Repr, Inhabited

/-- The interface: commands in issue order, the gate of `tsat`, whether a receive has completed since the last `fxwait`, and
how many commands have arrived. -/
structure Fx where
  cmds  : List FxCmd
  gate  : Nat
  got   : Bool
  count : Nat
deriving DecidableEq, Repr, Inhabited

/-! ### The crypto unit (R359 to R362) -/

structure HashCtx where
  st  : List (BitVec 64)
  len : Nat
deriving DecidableEq, Repr, Inhabited

structure KeySlot where
  num  : Nat
  key  : List (BitVec 8)
  encl : Nat
deriving DecidableEq, Repr, Inhabited

inductive CrOp where
  | init (n : BitVec 2)
  | absorb (n : BitVec 2) (at_ : Nat)
  | fin (n : BitVec 2) (dst tail len : Nat)
  | sign (msg len sig : Nat)
  | verify (msg len sig pub : Nat)
  | extend (m : BitVec 3) (at_ : Nat)
  | read (m : BitVec 3) (at_ : Nat)
  | unwrap (slot : BitVec 6) (at_ : Nat)
deriving DecidableEq, Repr, Inhabited

/-- The service core's crypto unit: hash contexts, measurement registers, key slots in use, operations under way with the
number of their reply and the cycle they take until (R366). -/
structure Crypto where
  hashes : Vector HashCtx 4
  meas   : Vector (List (BitVec 8)) 8
  keys   : List KeySlot
  queue  : List (CrOp × Nat × Nat)
deriving DecidableEq, Repr

/-! ### The KV unit (R363 to R365) -/

structure KvNode where
  id     : Nat
  ctx    : Nat
  parent : Option Nat
  toks   : List Nat
  page   : Nat
  count  : Nat
  stamp  : Nat
deriving DecidableEq, Repr, Inhabited

/-- A sequence handle: its pages, those marked for reclaim, and the time of its first allocation. -/
structure KvHandle where
  ctx     : Nat
  num     : Nat
  elig    : Bool
  pages   : List Nat
  reclaim : List Nat
  first   : Nat
deriving DecidableEq, Repr, Inhabited

/-- A request with the lists it carries, the physical place of its result list, the number of its reply, and the cycle before
which it is not decided (R366). -/
structure KvReq where
  op     : KvOp
  firm   : Bool
  ctx    : Nat
  toks   : List Nat
  out    : Nat
  max    : Nat
  ids    : List Nat
  handle : Nat
  elig   : Bool
  id     : Nat
  due    : Nat
deriving DecidableEq, Repr, Inhabited

/-- The KV unit of this die: free pages, nodes, handles, requests, and an allocation that waits for a victim. -/
structure Kv where
  pool    : List Nat
  nodes   : List KvNode
  handles : List KvHandle
  queue   : List KvReq
  waiting : Option (KvReq × Nat)
deriving DecidableEq, Repr, Inhabited

/-- What the device says to the owner or to a master: attention events (R27, R149, R153, R161, R404, R413), MSI-X
vectors (R402), the trip report (R425). -/
inductive Notice where
  | tideline
  | dieHold (die : Nat)
  | quarantine
  | preempted (lid : BitVec 64)
  | hung (lid : BitVec 64) (states : List Nat)
  | msix (die : Nat) (q : Nat)
  | trip
deriving DecidableEq, Repr, Inhabited

/-- An event that the device reports: its global timestamp in ticks and its source number (R30, R410). -/
structure Report where
  time   : Nat
  source : Nat
  what   : Notice
deriving DecidableEq, Repr, Inhabited

/-! ### The Tithe unit and the Tideline (R323 to R342, R412) -/

inductive TitheOp where
  | openB (index slot : Nat)
  | settle (index slot : Nat) (charge : Option Nat)
  | read (fn : ThrdFn) (index : Nat)
  /-- a TH fault that the core has decided -/
  | report (cause : Cause) (reason operand : Nat)
  | statement (index : Nat) (nonce : Word) (segs : List Seg)
deriving DecidableEq, Repr, Inhabited

/-- A request at the Tithe unit: from the firmware context, the context key, the number of its reply, and the cycle
before which the unit does not decide it (R340). -/
structure TitheReq where
  op   : TitheOp
  firm : Bool
  key  : BitVec 64
  id   : Option Nat
  due  : Nat
deriving DecidableEq, Repr, Inhabited

/-- A Tideline record (R412), a head or a continuation; `fields` is what a head's payload says. -/
structure TideRec where
  seq    : Nat
  time   : Nat
  source : Nat
  kind   : Nat
  signed : Bool
  boot   : Nat
  part   : Nat
  bytes  : List (BitVec 8)
  chain  : List (BitVec 8)
  sig    : List (BitVec 8)
  fields : List Nat
deriving DecidableEq, Repr, Inhabited

/-- A headland record (R282): the tile's base (a physical offset), format and scale words, the checksums, and whose it
is: a furrow slot (read only while its tile is present) or a window tile. -/
structure HRec where
  base    : Nat
  fmt     : Fmt
  scaleAt : Option Nat
  owner   : Option (Fin 16 × Nat)
  rows    : List HSum
  cols    : List HSum
  scale   : Nat
  stale   : Bool
  damaged : Bool
  live    : Bool
deriving DecidableEq, Repr, Inhabited

/-- A bracket slot of the task (R327): bound furrows, and bound regions as (offset, length). -/
structure Bracket where
  isOpen  : Bool
  index   : Nat
  lic     : Bool
  eg      : Bool
  furs    : List (Fin 16)
  regions : List (Nat × Nat)
  /-- what its use costs under the terms by which it was judged (R324, R332) -/
  charge  : Nat
deriving DecidableEq, Repr, Inhabited

/-- A terms record of the Tithe unit (R323, R324, R332). -/
structure Terms where
  index     : Nat
  owner     : Nat
  notAfter  : Nat
  uses      : Nat
  charge    : Nat
  base      : Nat
  pages     : Nat
  gen       : Nat
  licensees : List (BitVec 64)
  meter     : Nat
  rsv       : Nat
  seq       : Nat
  /-- the sequence number of the latest meter statement (R339) -/
  stm       : Nat
deriving DecidableEq, Repr, Inhabited

/-- An enclosure with its Sluice (R415, R439). The allowance is in bytes times the time units of a millisecond. -/
structure Enclosure where
  num       : Nat
  base      : Nat
  pages     : Nat
  cxlBase   : Nat
  cxlLen    : Nat
  rate      : Nat
  burst     : Nat
  ctxs      : List Nat
  allowance : Int
deriving DecidableEq, Repr, Inhabited

/-- A unit of egress at the Sluices (R439): who sends it, its bytes, its context, and whether it has passed. -/
structure Egress where
  user   : EgressUser
  size   : Nat
  ctx    : Nat
  passed : Bool
deriving DecidableEq, Repr, Inhabited

/-- A context (R22, R325, R415): its number, its key, its loaded images. -/
structure Context where
  num    : Nat
  key    : BitVec 64
  images : List Image
deriving DecidableEq, Repr, Inhabited

/-- The kinds of event-log records that the manual describes (R411 gives the layout, the chapters the payloads). -/
inductive LogKind where
  | poison | noise | correction | transient | lasting | quarantine | hung | attention | taskFailed | ordering
deriving DecidableEq, Repr, Inhabited

/-- A host queue's registers and its private buffer (R397, R398). -/
structure HostQueue where
  base : BitVec 64
  size : Nat
  tail : Nat
  head : Nat
  cfg  : BitVec 64
  rej  : Nat
  ovf  : Bool
  buf  : List (List (BitVec 8))
deriving DecidableEq, Repr, Inhabited

/-- Where a launch stands: it waits for its START, at a wave gate, or for cores; its tasks run. -/
inductive LaunchState where
  | timed | gated | ready | running
deriving DecidableEq, Repr, Inhabited

/-- What a scheduler core writes to its die's journal before it takes effect (R403): a launch of a queue enters its table, or
stands in another state there, or leaves it; a group is placed on cores; a task ends. -/
inductive JournalRec where
  | stands (q : Nat) (lid : BitVec 64) (st : LaunchState)
  | leaves (q : Nat) (lid : BitVec 64)
  | placed (lid : BitVec 64) (cores : List Nat)
  | ended (lid : BitVec 64)
deriving DecidableEq, Repr, Inhabited

/-- A launch that has passed its checks and has no completion record yet (R400 to R402): its queue, its packet, the
generation of a gated pass; of the task on this core: whether it failed, the reason, whether it was hung; and the cores
of its groups that are placed, as die × 64 + core (R22). -/
structure Launch where
  die    : Nat
  q      : Nat
  pkt    : Packet
  st     : LaunchState
  gen    : Nat
  failed : Bool
  reason : Nat
  hung   : Bool
  cores  : List Nat
deriving DecidableEq, Repr, Inhabited

/-- A management command under way (R415): its kind, its packet's LID and FLAGS, its body (bytes +0x20 to +0x13F). -/
structure Mgmt where
  kind  : Nat
  lid   : BitVec 64
  flags : BitVec 8
  body  : List (BitVec 8)
deriving DecidableEq, Repr, Inhabited

/-- A registered model (R416, R418): current generation and validity of each layer; the new generation and the next layer
of a wave that is not done, its layer list, and whether it has stopped there. -/
structure Model where
  num   : Nat
  table : Nat
  encl  : Nat
  gens  : List (Nat × Bool)
  wave  : Option (Nat × Nat)
  list  : Nat
  halt  : Bool
deriving DecidableEq, Repr, Inhabited

/-- A pass that has begun (R418): its pinned generation, and the layers whose launches are complete. -/
structure Pass where
  model : Nat
  pass  : Nat
  gen   : Nat
  ctx   : Nat
  done  : List Nat
deriving DecidableEq, Repr, Inhabited

/-- The claim registers (R407): OWNER's V, ID and NONCE, HANDOVER's P and successor id, LEASE; and the time of the
owner's last write. -/
structure Claim where
  v     : Bool
  id    : BitVec 24
  nonce : BitVec 32
  p     : Bool
  succ  : BitVec 24
  lease : BitVec 16
  last  : Nat
deriving DecidableEq, Repr, Inhabited

/-- The owner, and the successor of a pending handover. -/
def Claim.owner (c : Claim) : Option (BitVec 24) := if c.v then some c.id else none
def Claim.hand (c : Claim) : Option (BitVec 24) := if c.p then some c.succ else none

/-- The SPDM responder (R424): its state, the transcript, the length of its first part. -/
structure Spdm where
  phase : Nat
  log   : List (BitVec 8)
  vca   : Nat
deriving DecidableEq, Repr, Inhabited

/-- A record of the event log (R411): timestamp in ticks, source, kind, payload fields. -/
structure LogRec where
  time   : Nat
  source : Nat
  kind   : LogKind
  data   : List Nat
deriving DecidableEq, Repr, Inhabited

/-! ### K: the checker and requests -/

/-- The units whose commands a wait of chapter 13 waits for. -/
inductive WaitUnit where
  | copy | fabric | time
deriving DecidableEq, Repr, Inhabited

/-- A checked action of K (R116): performed only when the checker core has produced the same action. -/
inductive Action where
  /-- `stk`: bytes to physical places; `sts`: bytes to scratchpad -/
  | stk (segs : List Seg) (bytes : List (BitVec 8))
  | sts (off : Nat) (bytes : List (BitVec 8))
  /-- `amo`: the operation on the bytes at `pa`, its result for register `d` after `lat` cycles (R88) -/
  | amo (op : AmoOp) (dw : Bool) (pa : Nat) (d : BitVec 6) (b cmp : Word) (wide : Bool) (lat : Nat)
  /-- `wsr`: the effects beyond K, a changed NRP and a new share (R113) -/
  | wsr (nrp : Option Bool) (share : Option (BitVec 8))
  /-- a token push (R126) -/
  | tokens (fifo : Fifo) (n : Nat)
  /-- `renq` of a 64-byte block to (queue, die, core) (R133) -/
  | renq (queue die core : Nat) (block : List Word)
  /-- commands for the matrix engine; `fget`, sampled when the engine receives it (R266, R278) -/
  | mx (cmds : List MCmd)
  | fget (state : Bool) (f : Fin 16) (d : BitVec 6)
  /-- a command for the map-composition engine (R306) -/
  | mc (cmd : McCmd)
  /-- commands of the copy engine, its `cpres`, of the fabric interface, its gate (R343) -/
  | cp (cmd : CpCmd)
  | cpres (drop : Bool)
  | fx (cmd : FxCmd)
  | tsat (t : Word)
  /-- `cpwait`, `fxwait` and `tsat.wait`, whose unit answers how many commands have arrived before them (R343) -/
  | await (u : WaitUnit) (id : Nat)
  /-- requests to the crypto unit, the KV unit and the Tithe unit, and the end of a bracket (R337) -/
  | cr (op : CrOp) (id : Nat)
  | kv (r : KvReq)
  | tithe (r : TitheReq)
  | close (slot : Fin 4) (abort : Bool) (id : Nat)
  /-- a fault that K has detected, and its resumption pc: taken when the checker reaches it (R117) -/
  | fault (t : TrapInfo) (pc : Pc)
deriving DecidableEq, Repr

/-- An entry of the compare queue (R116, R118, R119): the action, its context, its issue cycle, class and virtual
address, the cycle before which it is not performed, the number of its word, and the copy of what K holds as it stood
before the word: the context, what K has issued to the engines, its brackets, sr.budget and sr.share. -/
structure Checked where
  act   : Action
  firm  : Bool
  cycle : Nat
  ac    : BitVec 3
  va    : Word
  due   : Nat
  word  : Nat
  snap  : Ctx
  snapMx : MxK
  snapMc : Option McCfg
  snapBr : Vector Bracket 4
  snapBudget : Word
  snapShare  : BitVec 8
deriving DecidableEq, Repr

/-- An event that waits for the firmware context (R141): its cycle, the stream, the cause word, the operand, and whether
the stream's own frame was written. -/
structure FEvent where
  time    : Nat
  stream  : StreamId
  cause   : Word
  operand : Word
  written : Bool
deriving DecidableEq, Repr, Inhabited

/-- What a `qfl` of this cycle empties (R175): the queue, and for L the number of marks L has issued. -/
structure Flush where
  q     : Fin 20
  marks : Option Nat
deriving DecidableEq, Repr, Inhabited

/-! ### The task and the whole machine -/

/-- Everything a task owns on its core: what a save image holds (R154). -/
structure Task where
  /-- context number, launch id and identity (R22, R24) -/
  ctx       : Nat
  lid       : Word
  alive     : Bool
  bulk      : Bool
  failed    : Option (BitVec 20)
  arg       : Word
  lidx      : Word
  budget    : Word
  /-- the cycle from which sr.budget counts the value last written (R113) -/
  budgetFrom : Nat
  /-- K's task context, L, C and S -/
  k         : Ctx
  l         : Ctx
  c         : Ctx
  s         : Ctx
  /-- C (R186, R187, R212, R246, R298) -/
  e         : Vector Elem 768
  w         : Vector (BitVec 64) 32
  rbase     : BitVec 7
  rsize     : BitVec 7
  epi       : BitVec 4
  roff      : BitVec 10
  rowFlags  : BitVec 64
  slack     : BitVec 16
  latches   : List Latch
  /-- results that have landed in this cycle, with the value their destination held before (R207) -/
  landedNow : List (Latch × Elem)
  /-- a result has failed parity a second time: the next word that C would issue raises PARITY_LASTING (R210) -/
  latchFail : Bool
  /-- latches frozen in C while no frame holds them (R140) -/
  frozen    : List Latch
  /-- queue slots left reserved by a trap (R145, R207): queue and slot, in the order reserved -/
  reserved  : List (Fin 20 × Nat)
  /-- C's frame holds latch records that are not injected again; C was halted with no frame written (R147) -/
  framed    : Bool
  kept      : Bool
  vprog     : Option VProg
  /-- lq0 to lq7, sq0 to sq7, iq0 to iq3 -/
  queues    : Vector (List QSlot) 20
  /-- the `qfl`s that act at the end of this cycle -/
  flushes   : List Flush
  nextId    : Nat
  /-- the token FIFOs in the order of R45 -/
  tokens    : Vector Nat 10
  pushes    : List Push
  bars      : Vector Bar 4
  group     : Nat
  /-- the cores that the context holds, as die × 64 + core (R22, R133) -/
  partition : List Nat
  timer     : Option Timer
  /-- allocated guard granules and touches of them (R132, R183) -/
  guards    : List Nat
  touch     : Option Touch
  /-- noise channels 0 to 3 -/
  noise     : Vector Noise 4
  /-- issued accesses of L and S, in issue order -/
  accesses  : List Access
  /-- output FIFOs of the ports (R114), in the order of R17 -/
  portOut   : Vector (List Word) 9
  /-- events that found their FIFO full, by port (R267, R319, R352) -/
  lost      : Vector Nat 9
  mx        : Mx
  mc        : Mce
  cp        : Cp
  fx        : Fx
  furrows   : Vector Furrow 16
  brackets  : Vector Bracket 4
deriving DecidableEq, Repr

/-- No task. -/
def Task.reset : Task where
  ctx := 0
  lid := 0
  alive := false
  bulk := true
  failed := none
  arg := 0x7FF000
  lidx := 0
  budget := 0
  budgetFrom := 0
  k := Ctx.reset
  l := Ctx.reset
  c := Ctx.reset
  s := Ctx.reset
  e := Vector.replicate 768 0
  w := Vector.replicate 32 0
  rbase := 0
  rsize := 0
  epi := 0
  roff := 0
  rowFlags := 0
  slack := 0
  latches := []
  landedNow := []
  latchFail := false
  frozen := []
  reserved := []
  framed := false
  kept := false
  vprog := none
  queues := Vector.replicate 20 []
  flushes := []
  nextId := 0
  tokens := Vector.replicate 10 0
  pushes := []
  bars := Vector.replicate 4 ⟨0, 0, 0⟩
  group := 1
  partition := []
  timer := none
  guards := []
  touch := none
  noise := Vector.replicate 4 ⟨[], 0, 0, []⟩
  accesses := []
  portOut := Vector.replicate 9 []
  lost := Vector.replicate 9 0
  mx := Mx.reset
  mc := Mce.reset
  cp := ⟨[], none, 0⟩
  fx := ⟨[], 0, false, 0⟩
  furrows := Vector.replicate 16 ⟨.none, 0, 0, 0, 0, []⟩
  brackets := Vector.replicate 4 ⟨false, 0, false, false, [], [], 0⟩

/-- A save image (R154, R156): its layout version, the cause, the task, the F events of its halted streams that firmware
had not taken, replies that K has not taken, the headland records and corrected addresses that stay in place with it, what it
holds of the core, when it was saved, and whether shadow storage holds it as well. -/
structure SaveImage where
  layout : Nat
  cause  : Cause
  task   : Task
  events : List FEvent
  replies : List Reply
  side   : List HRec
  corrected : List (Nat × Nat)
  holds  : Nat
  saved  : Nat
  shadow : Bool
deriving DecidableEq, Repr

/-- The kinds of core (R29). -/
inductive Kind where
  | compute | service | scheduler
deriving DecidableEq, Repr, Inhabited

/-- A block that another core sends with `renq` (R133): the cycle it arrives in, the context that sends it, its queue, its
dwords. -/
structure Block where
  due   : Nat
  ctx   : Nat
  queue : Nat
  words : List Word
deriving DecidableEq, Repr, Inhabited

/-- Whose step comes next: the machine's own steps of the cycle, an issue slot, or the end of the cycle (log 1). -/
inductive Turn where
  | unit
  | issue (i : Issuer)
  | tick
deriving DecidableEq, Repr, Inhabited

/-- The machine. -/
structure State where
  /-- the MODEL'S own: the environment's steps still to come, whose turn it is, the counter of free values -/
  agenda    : List Instr
  turn      : Turn
  free      : Nat
  /-- time (R6, R410): cycles, the time base in 1/840 ns, the PTP time in 1/840 ns and the slew still owed -/
  now       : Nat
  timeBase  : Nat
  ptp       : Nat
  slew      : Int
  /-- the clock in steps of 0.25 GHz (R425), power on, boot finished -/
  clock     : Nat
  power     : Bool
  booted    : Bool
  /-- identity of this core (R29, R111) -/
  kind      : Kind
  core      : BitVec 6
  die       : BitVec 1
  quarantined : Bool
  /-- firmware issue share (R113, R158): the value K reads, sr.share in effect, contested cycles taken in the frame, K's slot of the cycle is used -/
  shareView : BitVec 8
  share     : BitVec 8
  taken     : Nat
  kSlot     : Bool
  /-- bulk share S of the foreshore cores of each die in steps of 512 KiB (R157), and what the task holds of its core -/
  bulkShare : Vector Nat 2
  holds     : Nat
  /-- a pre-emption of the task is pending (R153) -/
  preempt   : Bool
  /-- all streams and engines have stopped for it since this cycle; the images in the save area; the cycle in which the
  restore of the oldest image under way is done (R156) -/
  saveFrom  : Option Nat
  saves     : List SaveImage
  restoring : Option Nat
  /-- no stream of the task has been able to go on since this cycle; the hung group is recorded (R161) -/
  quietFrom : Nat
  hungSeen  : Bool
  /-- the task and K's firmware context -/
  task      : Task
  firm      : Ctx
  firmNoise : Noise
  fEvents   : List FEvent
  /-- the checker (R116 to R119): compare queue, words K has issued -/
  checkq    : List Checked
  words     : Nat
  /-- replies that engines have made to waiting words -/
  replies   : List Reply
  /-- blocks that other cores send to this core (R133) -/
  inbox     : List Block
  /-- memories, their poisoned bytes (R19, R164, R177), and the bytes whose storage has a lasting fault, where an error
  comes back after any write (R176) -/
  spad      : Memory
  spadBad   : List Nat
  spadWorn  : List Nat
  /-- accumulators whose storage fails for good (R264) -/
  accWorn   : List Nat
  mem       : Memory
  memBad    : List Nat
  memWorn   : List Nat
  /-- the headland side store and the last 16 corrected addresses: the element's bit offset and width (R282, R288) -/
  side      : List HRec
  corrected : List (Nat × Nat)
  /-- the event log, oldest first, and how many records it has overwritten (R411) -/
  log       : List LogRec
  logLost   : Nat
  /-- contexts, enclosures with their Sluices, units of egress at the Sluices, the terms table -/
  contexts  : List Context
  enclosures : List Enclosure
  egress    : List Egress
  terms     : List Terms
  /-- requests at the Tithe unit, in order of arrival (R342) -/
  tithe     : List TitheReq
  /-- the Tideline: its records, the next sequence number, the last chain value, and whether the next record is to be
  signed (R412, R413) -/
  tide      : List TideRec
  tideSeq   : Nat
  tideChain : List (BitVec 8)
  tideSeal  : Bool
  /-- the one-time-programmable boot counter (R414), kept without power -/
  boots     : Nat
  /-- the service-debug fuse is blown, and the service image that a debugger presents to the boot ROM (R434) -/
  debugFuse : Bool
  bootImage : Option ServiceImage
  /-- the debugger has stopped the service core, until this cycle (R437) -/
  svcStop   : Option Nat
  /-- the master whose write asks for a device reset (R406) -/
  resetBy   : Option (BitVec 24)
  /-- the counter already stood at its last step at the last boot -/
  exhausted : Bool
  /-- what the device has reported, oldest first (R30, R402, R404, R413, R425) -/
  notices   : List Report
  crypto    : Crypto
  kv        : Kv
  /-- the launch units (R397 to R405): queues of both dies, launches, models and passes, the management command under way -/
  hostq     : Vector HostQueue 128
  launches  : List Launch
  /-- weighted round robin of each die and class (latency, bulk): the queue served last and the packets it has had in its
  turn (R26, R401); the least number of cores of each die for bulk work (R28) -/
  served    : Vector (Nat × Nat) 4
  bulkMin   : Vector Nat 2
  models    : List Model
  passes    : List Pass
  mgmt      : Option Mgmt
  /-- completion records of management commands, whose address the manual leaves open (log 16) -/
  records   : List (List (BitVec 8))
  /-- scheduler cores: instruction words that are uncorrectable in a copy (core, copy, address), dies whose journal is
  uncorrectable, cores whose queue tables are, dies in hold (R404, R405) -/
  imemBad   : List (Nat × Nat × Nat)
  journalBad : List Nat
  tableBad  : List Nat
  dieHeld   : Vector Bool 2
  /-- the journals of the dies, oldest record first, each with its die (R403) -/
  journal   : List (Nat × JournalRec)
  /-- ownership, runtime firmware staged and running, the SPDM responder -/
  claim     : Claim
  /-- writes to CLAIM (with their nonce) and RELEASE that wait for room in the Tideline, in order of arrival (R408, R413) -/
  claimq    : List (BitVec 24 × Option (BitVec 32))
  staged    : Option FirmwareMsg
  firmware  : Option FirmwareMsg
  /-- an activation waits for the firmware contexts: pre-emption is suspended (R422) -/
  activating : Bool
  spdm      : Spdm
  /-- the fabric's route table: device number and port mask (R355, R415) -/
  routes    : List (Nat × Nat)
  /-- the owner-key registry: entry and Ed25519 public key (R323) -/
  ownerKeys : List (Nat × List (BitVec 8))
  /-- page translations and the TLBs of K, L, S, the copy engine and the MCE (R110, R180) -/
  pages     : List PageEntry
  /-- invalidations that are not acknowledged yet: the context and the physical run of the page (R182) -/
  shootdowns : List (Nat × Seg)
  tlbK      : List PageEntry
  tlbL      : List PageEntry
  tlbS      : List PageEntry
  tlbCp     : List PageEntry
  tlbMc     : List PageEntry
  /-- the virtual address of the last access of L, S, the copy engine and the MCE (R180) -/
  tlbLast   : Vector Nat 5
  /-- K's data cache: lines of 64 bytes by physical address (R109) -/
  dcache    : List (Nat × List (BitVec 8))
deriving DecidableEq, Repr

/-- The machine right after reset: power is on, nothing has booted, no stream is placed (R33, R423). -/
def State.reset : State where
  agenda := []
  turn := .unit
  free := 0
  now := 0
  timeBase := 0
  ptp := 0
  slew := 0
  clock := 8
  power := true
  booted := false
  kind := .compute
  core := 0
  die := 0
  quarantined := false
  shareView := 16
  share := 16
  taken := 0
  kSlot := false
  bulkShare := Vector.replicate 2 4
  holds := 0
  preempt := false
  saveFrom := none
  saves := []
  restoring := none
  quietFrom := 0
  hungSeen := false
  task := Task.reset
  firm := { Ctx.reset with tframe := Config.firmFrameCompute }
  firmNoise := ⟨[], 0, 0, []⟩
  fEvents := []
  checkq := []
  words := 0
  replies := []
  inbox := []
  spad := []
  spadBad := []
  spadWorn := []
  accWorn := []
  mem := []
  memBad := []
  memWorn := []
  side := []
  corrected := []
  log := []
  logLost := 0
  contexts := []
  enclosures := []
  egress := []
  terms := []
  tithe := []
  tide := []
  tideSeq := 0
  tideChain := List.replicate 64 0
  tideSeal := false
  boots := 0
  debugFuse := false
  bootImage := none
  svcStop := none
  resetBy := none
  exhausted := false
  notices := []
  crypto := ⟨Vector.replicate 4 ⟨shaH, 0⟩, Vector.replicate 8 (List.replicate 64 0), [], []⟩
  kv := ⟨[], [], [], [], none⟩
  hostq := Vector.replicate 128 ⟨0, 0, 0, 0, 0, 0, false, []⟩
  launches := []
  served := Vector.replicate 4 (0, 0)
  bulkMin := Vector.replicate 2 0
  models := []
  passes := []
  mgmt := none
  records := []
  imemBad := []
  journalBad := []
  tableBad := []
  dieHeld := Vector.replicate 2 false
  journal := []
  claim := ⟨false, 0, 0, false, 0, 0, 0⟩
  claimq := []
  staged := none
  firmware := none
  activating := false
  spdm := ⟨0, [], 0⟩
  routes := []
  ownerKeys := []
  pages := []
  shootdowns := []
  tlbK := []
  tlbL := []
  tlbS := []
  tlbCp := []
  tlbMc := []
  tlbLast := Vector.replicate 5 0
  dcache := []

end Sys2Proof.Machine
end

