-- ==== Sys2Proof/Machine/Mem.lean ====
section
/-! DEFINITION. Memory as plain data: single bytes, runs of bytes, packed elements, windows, and the checksums of tiles
(R2, R64, R65, R78 to R81, R212). -/

namespace Sys2Proof.Machine

/-! ### Bytes -/

/-- The byte at an address; a byte that nothing has written reads as 0 (log 5). -/
def memGet : Memory → Nat → Byte
  | [], _ => 0
  | (a, b) :: t, x => if a = x then b else if x < a then 0 else memGet t x

/-- Write one byte and keep the canonical form. -/
def memSet : Memory → Nat → Byte → Memory
  | [], x, v => if v = 0 then [] else [(x, v)]
  | (a, b) :: t, x, v =>
    if x < a then (if v = 0 then (a, b) :: t else (x, v) :: (a, b) :: t)
    else if x = a then (if v = 0 then t else (a, v) :: t)
    else (a, b) :: memSet t x v

/-- All addresses lie above a bound, they rise, and no entry is 0. -/
def memAbove : Nat → Memory → Bool
  | _, [] => true
  | lo, (a, b) :: t => decide (lo ≤ a) && b != 0 && memAbove (a + 1) t

/-- The canonical form. -/
def memWf (m : Memory) : Bool := memAbove 0 m

/-- `n` bytes from an address up. -/
def memRead (m : Memory) (a : Nat) : Nat → List Byte
  | 0 => []
  | n + 1 => memGet m a :: memRead m (a + 1) n

/-- Write a run of bytes. -/
def memWrite (m : Memory) (a : Nat) : List Byte → Memory
  | [] => m
  | b :: bs => memWrite (memSet m a b) (a + 1) bs

/-- The little-endian value of bytes (R2). -/
def leVal : List Byte → Nat
  | [] => 0
  | b :: bs => b.toNat + 256 * leVal bs

/-- `n` little-endian bytes of a value. -/
def leBytes : Nat → Nat → List Byte
  | 0, _ => []
  | n + 1, v => BitVec.ofNat 8 v :: leBytes n (v / 256)

def memWord (m : Memory) (a n : Nat) : Nat := leVal (memRead m a n)

/-- Bytes at a list of places, in order, and the write of bytes to them. -/
def segRead (m : Memory) : List Seg → List Byte
  | [] => []
  | s :: ss => memRead m s.pa s.len ++ segRead m ss
def segWrite (m : Memory) : List Seg → List Byte → Memory
  | [], _ => m
  | s :: ss, bs => segWrite (memWrite m s.pa (bs.take s.len)) ss (bs.drop s.len)

/-- Two runs of bytes meet. -/
def overlaps (a n b m : Nat) : Bool := decide (a < b + m) && decide (b < a + n)

/-- A poisoned byte lies in a run, and the first one. -/
def anyBad (bad : List Nat) (a n : Nat) : Bool := bad.any (fun x => decide (a ≤ x) && decide (x < a + n))
def segsBad (bad : List Nat) (ss : List Seg) : Bool := ss.any (fun s => anyBad bad s.pa s.len)
/-- A write stores fresh check codes; where the storage itself is worn, the error comes back (R176). -/
def clearBad (worn bad : List Nat) (a n : Nat) : List Nat :=
  bad.filter (fun x => !(decide (a ≤ x) && decide (x < a + n)) || worn.contains x)
def setBad (bad : List Nat) (a n : Nat) : List Nat := clearBad [] bad a n ++ (List.range n).map (a + ·)

/-! ### Elements -/

/-- The bytes that the element at a bit offset touches. -/
def bitSpan (bit w : Nat) : Nat × Nat := (bit / 8, (bit % 8 + w + 7) / 8)

def bitsGet (m : Memory) (bit w : Nat) : Nat :=
  let sp := bitSpan bit w
  memWord m sp.1 sp.2 / 2 ^ (bit % 8) % 2 ^ w

/-- The bytes of the element's span with the element replaced. -/
def bitsPut (m : Memory) (bit w v : Nat) : List Byte :=
  let sp := bitSpan bit w
  let old := memWord m sp.1 sp.2
  let sh := 2 ^ (bit % 8)
  leBytes sp.2 (old - (old / sh % 2 ^ w) * sh + v % 2 ^ w * sh)

/-! ### Window images (R212) -/

def winFmtCode (w : BitVec 64) : Nat := (w.extractLsb' 55 4).toNat
def winFmt (w : BitVec 64) : Fmt :=
  (#[Fmt.none, .mxint4, .mxint6, .mxint8, .int8, .e4m3, .e5m2, .fp16, .bf16, .fp32, .int32, .int16, .int64,
    .bitmask][winFmtCode w]?).getD .none
def winStride (w : BitVec 64) : Int := (w.extractLsb' 39 16).toInt
def winCount (w : BitVec 64) : Nat := (w.extractLsb' 23 16).toNat
def winBase (w : BitVec 64) : Nat := (w.extractLsb' 0 23).toNat

/-- Formats narrower than a byte, and MXINT6 (R64, R65). -/
def packed (f : Fmt) : Bool := f == .mxint4 || f == .mxint6 || f == .bitmask
/-- Whole bytes of an element; 1 for packed formats. -/
def elemSize (f : Fmt) : Nat := if packed f then 1 else fmtBits f / 8

/-- The bit offset of element i, as an integer: it may lie outside the scratchpad. -/
def winBit (w : BitVec 64) (i : Nat) : Int := (winBase w * 8 : Nat) + (i : Int) * winStride w * (fmtBits (winFmt w) : Nat)

/-- The span of a window: its lowest byte and the byte after its highest; none when it is empty. -/
def winSpan (w : BitVec 64) : Option (Int × Int) :=
  if winCount w = 0 then none
  else
    let a := winBit w 0
    let b := winBit w (winCount w - 1)
    let n : Int := (fmtBits (winFmt w) : Nat)
    let lo := if a < b then a else b
    let hi := (if a < b then b else a) + n
    some (lo / 8, (hi + 7) / 8)

/-- Two spans meet (R216). -/
def spansMeet (x y : BitVec 64) : Bool :=
  match winSpan x, winSpan y with
  | some (a, b), some (c, d) => decide (a < d) && decide (c < b)
  | _, _ => false
/-- Identical windows (R216). -/
def winSame (x y : BitVec 64) : Bool :=
  winBase x == winBase y && winStride x == winStride y && winCount x == winCount y &&
    fmtBits (winFmt x) == fmtBits (winFmt y)

/-! ### Tiles and their checksums (R78, R79) -/

def tileBytes (f : Fmt) : Nat := 128 * fmtBits f
def tileElem (m : Memory) (base : Nat) (f : Fmt) (i : Nat) : Nat := bitsGet m (base * 8 + i * fmtBits f) (fmtBits f)
def rowIdx (r : Nat) : List Nat := (List.range 32).map (32 * r + ·)
def colIdx (c : Nat) : List Nat := (List.range 32).map (32 * · + c)

/-- An element integer; a bitmask bit is unsigned. -/
def elemInt (f : Fmt) (bits : Nat) : Int := if f == .bitmask then (bits % 2 : Nat) else sgn (fmtBits f) bits

/-- A finite value in units of 2^-149, of which every value of a floating format is a multiple. -/
def fix149 : Ex → Int
  | .fin s p q => signedOf s (p * 2 ^ 149 / q)
  | _ => 0

def mod40 (x : Int) : Nat := (x % (2 ^ 40 : Nat)).toNat

/-- The exact sum of elements as a checksum of the given count (R78, R80). A sum of zero is +0.0, also of elements -0.0:
DESIGN CHOICE (log 58). -/
def genSum (f : Fmt) (n : Nat) (xs : List Nat) : HSum :=
  if fmtF f then
    let vs := xs.map (elemVal f)
    if vs.all Ex.isFin then
      let s := (vs.map fix149).foldl (· + ·) 0
      ⟨roundF fp32 rne0 0 (.fin (decide (s < 0)) s.natAbs (2 ^ 149)), n⟩
    else ⟨fp32.nan, n⟩
  else ⟨mod40 ((xs.map (elemInt f)).foldl (· + ·) 0), 0⟩

/-- One row or column passes its check (R78, R79). -/
def sumOk (f : Fmt) (slack : Nat) (h : HSum) (xs : List Nat) : Bool :=
  if fmtF f then
    let vs := xs.map (elemVal f)
    let hv := floatVal fp32 h.h
    if vs.all Ex.isFin then
      hv.isFin &&
        (let s := (vs.map fix149).foldl (· + ·) 0
         let a := (vs.map (fun v => (fix149 v).natAbs)).foldl (· + ·) 0
         decide ((s - fix149 hv).natAbs * 2 ^ 24 ≤ (Nat.min 65535 (h.n + slack) + 2) * a))
    else hv.isNan
  else (genSum f 0 xs).h == h.h

/-- The sum of the 32 scale words (R78). -/
def scaleSum (m : Memory) (at_ : Nat) : Nat :=
  ((List.range 32).map (fun i => memWord m (at_ + 4 * i) 4)).foldl (· + ·) 0 % 2 ^ 40

def tileRow (m : Memory) (base : Nat) (f : Fmt) (r : Nat) : List Nat := (rowIdx r).map (tileElem m base f)
def tileCol (m : Memory) (base : Nat) (f : Fmt) (c : Nat) : List Nat := (colIdx c).map (tileElem m base f)

/-- Fresh headland for a tile (R78, R80). -/
def genTile (m : Memory) (r : HRec) : HRec :=
  { r with
    rows := (List.range 32).map (fun i => genSum r.fmt 1 (tileRow m r.base r.fmt i))
    cols := (List.range 32).map (fun i => genSum r.fmt 1 (tileCol m r.base r.fmt i))
    scale := match r.scaleAt with
      | some a => scaleSum m a
      | none => 0
    stale := false
    damaged := false }

/-- A record after bytes [a, a + n) of the scratchpad changed from `old` to `new` (R82, R286). -/
def recWrite (old new : Memory) (a n : Nat) (r : HRec) : HRec :=
  if !r.live then r
  else
    let r1 :=
      if !overlaps a n r.base (tileBytes r.fmt) then r
      else if fmtF r.fmt then { r with stale := true }
      else
        let upd (idx : Nat → List Nat) (h : HSum) (i : Nat) : HSum :=
          let s (m : Memory) : Int := ((idx i).map (fun k => elemInt r.fmt (tileElem m r.base r.fmt k))).foldl (· + ·) 0
          ⟨mod40 (h.h + s new - s old), h.n⟩
        { r with
          rows := r.rows.mapIdx (fun i h => upd rowIdx h i)
          cols := r.cols.mapIdx (fun i h => upd colIdx h i) }
    match r1.scaleAt with
    | some p => if overlaps a n p 128 then { r1 with scale := mod40 (r1.scale + scaleSum new p - scaleSum old p) } else r1
    | none => r1

/-- What a check of a tile finds (R81, R290): mismatching rows and columns, the scale checksum, and a correction: the
element and its new bits. -/
structure TileCheck where
  rows  : List Nat
  cols  : List Nat
  sc    : Bool
  fixed : Option (Nat × Nat)
deriving DecidableEq, Repr, Inhabited

/-- The candidate of R81 for row i and column j of a tile whose elements `elem` gives, if it is accepted. In an INT64 tile,
whose checksums hold 40 bits, it is the residue modulo 2^40, sign-extended: DESIGN CHOICE (log 59). -/
def candidate (elem : Nat → Nat) (f : Fmt) (slack : Nat) (hr hc : HSum) (i j : Nat) : Option Nat :=
  let k := 32 * i + j
  let others (l : List Nat) : List Nat := (l.filter (· != k)).map elem
  if fmtF f then
    let ro := (others (rowIdx i)).map (elemVal f)
    let hv := floatVal fp32 hr.h
    match fmtFloat f with
    | none => none
    | some sp =>
      if !(ro.all Ex.isFin && hv.isFin) then none
      else
        let s := fix149 hv - (ro.map fix149).foldl (· + ·) 0
        let x := roundF sp rne0 0 (.fin (decide (s < 0)) s.natAbs (2 ^ 149))
        if (floatVal sp x).isFin && sumOk f slack hr (x :: others (rowIdx i)) &&
            sumOk f slack hc (x :: others (colIdx j)) then some x else none
  else
    let cand (h : HSum) (l : List Nat) : Nat := mod40 (h.h - ((others l).map (elemInt f)).foldl (· + ·) 0)
    let x := cand hr (rowIdx i)
    let v : Int := (BitVec.ofNat 40 x).toInt
    let w := fmtBits f
    let ok := if f == .bitmask then decide (0 ≤ v) && decide (v ≤ 1)
      else w ≥ 40 || decide (satInt w v = v)
    if x == cand hc (colIdx j) && ok then some (BitVec.ofInt w v).toNat else none

/-- Check the given rows and columns of a tile (R78 to R81); `sc`: its scale checksum mismatches, which bars a correction: DESIGN
CHOICE (log 76). -/
def partsCheck (elem : Nat → Nat) (f : Fmt) (slack : Nat) (hrows hcols : List HSum) (sc : Bool) (rows cols : List Nat) :
    TileCheck :=
  let br := rows.filter (fun i => !sumOk f slack (hrows.getD i ⟨0, 0⟩) ((rowIdx i).map elem))
  let bc := cols.filter (fun i => !sumOk f slack (hcols.getD i ⟨0, 0⟩) ((colIdx i).map elem))
  let fixed := match br, bc with
    | [i], [j] =>
      if sc then none
      else (candidate elem f slack (hrows.getD i ⟨0, 0⟩) (hcols.getD j ⟨0, 0⟩) i j).map (fun x => (32 * i + j, x))
    | _, _ => none
  ⟨br, bc, sc, fixed⟩

/-- Check the given rows and columns of a tile in scratchpad against its record. -/
def tileCheck (m : Memory) (slack : Nat) (r : HRec) (rows cols : List Nat) : TileCheck :=
  let sc := match r.scaleAt with
    | some a => scaleSum m a != r.scale
    | none => false
  partsCheck (tileElem m r.base r.fmt) r.fmt slack r.rows r.cols sc rows cols

end Sys2Proof.Machine
end

