-- ==== Sys2Proof/Machine/Ops.lean ====
section
/-! DEFINITION. The named operations of the machine: registers, predicates, tokens, queues, ports, the scratchpad,
taking an exception and returning from one. -/

namespace Sys2Proof.Machine

/-- The outcome of a step of this machine. -/
abbrev Out := Host.Outcome State Fault Refusal

/-! ### Issuers and their contexts -/

/-- Who issues in this turn. -/
def issuerOf (s : State) : Issuer :=
  match s.turn with
  | .issue i => i
  | _ => .kTask

def ctxOf (s : State) : Issuer → Ctx
  | .kTask => s.task.k
  | .kFirm => s.firm
  | .l => s.task.l
  | .c => s.task.c
  | .s => s.task.s

def setCtx (x : Issuer) (c : Ctx) (s : State) : State :=
  match x with
  | .kTask => { s with task.k := c }
  | .kFirm => { s with firm := c }
  | .l => { s with task.l := c }
  | .c => { s with task.c := c }
  | .s => { s with task.s := c }

def modCtx (x : Issuer) (f : Ctx → Ctx) (s : State) : State := setCtx x (f (ctxOf s x)) s

/-- The context of the issuing stream. -/
def cur (s : State) : Ctx := ctxOf s (issuerOf s)
def isFirm (s : State) : Bool := issuerOf s == .kFirm
def isK : Issuer → Bool
  | .kTask | .kFirm => true
  | _ => false
/-- The number of the address space that the issuer uses (R87). -/
def ctxNum (s : State) (firm : Bool) : Nat := if firm then 0 else s.task.ctx

/-! ### Registers and predicates (R14) -/

/-- Register n of the issuing stream; number 0 reads as zero. -/
def getReg (s : State) (n : BitVec 6) : Word := if n = 0 then 0 else (cur s).regs[n.toNat]

/-- The last 32 register-writing instructions (R120): what an instruction of latency `lat` gave its registers. A
re-execution from the queue's operand values gives the same values again. -/
def rememberAll (ws : List (Nat × Word)) (lat : Nat) (c : Ctx) : Ctx :=
  { c with
    replay := ((ws, lat) :: c.replay).take 32
    bad := c.bad.filter (fun p => !ws.any (fun q => q.1 == p.1)) }
def remember (id : Nat) (v : Word) (lat : Nat) (c : Ctx) : Ctx := rememberAll [(id, v)] lat c

/-- What the replay queue has for a register: its value and the latency of the instruction that wrote it last. -/
def replayed (id : Nat) (c : Ctx) : Option (Word × Nat) :=
  c.replay.findSome? (fun e => (e.1.find? (fun p => p.1 == id)).map (fun p => (p.2, e.2)))

/-- Write register n of a context in cycle `now`; a write to number 0 is discarded. Its value is ready after `lat` cycles
(R88). -/
def ctxSetReg (n : BitVec 6) (v : Word) (now lat : Nat) (c : Ctx) : Ctx :=
  if n = 0 then c
  else
    { remember n.toNat v lat c with
      regs := c.regs.set n.toNat v
      busy := (n.toNat, .cycle (now + lat)) :: c.busy.filter (fun p => p.1 != n.toNat) }

def setReg (n : BitVec 6) (v : Word) (lat : Nat) (s : State) : State :=
  modCtx (issuerOf s) (ctxSetReg n v s.now lat) s

/-- Predicate n; p0 reads as true. -/
def ctxPred (c : Ctx) (n : BitVec 4) : Bool := n == 0 || c.preds.getLsbD n.toNat
def getPred (s : State) (n : BitVec 4) : Bool := ctxPred (cur s) n

def bitTo (b : BitVec 16) (n : Nat) (v : Bool) : BitVec 16 :=
  if v then b ||| ((1 : BitVec 16) <<< n) else b &&& ~~~((1 : BitVec 16) <<< n)

/-- Write a predicate; p0 ignores writes. -/
def ctxSetPred (n : BitVec 4) (v : Bool) (c : Ctx) : Ctx :=
  if n = 0 then c
  else { remember (64 + n.toNat) (if v then 1 else 0) 1 c with preds := bitTo c.preds n.toNat v }
def setPred (n : BitVec 4) (v : Bool) (s : State) : State := modCtx (issuerOf s) (ctxSetPred n v) s

/-- The guard of a word (R48). -/
def guardOf (s : State) (h : Hdr) : Bool := getPred s h.pq != h.neg

/-- Loop counters and loop starts (R86). -/
def getLc (s : State) (n : BitVec 3) : BitVec 32 := (cur s).lc[n.toNat]
def setLc (n : BitVec 3) (v : BitVec 32) (s : State) : State :=
  modCtx (issuerOf s) (fun c => { remember (80 + n.toNat) (v.setWidth 64) 1 c with lc := c.lc.set n.toNat v }) s
def setLs (n : BitVec 3) (v : Pc) (s : State) : State :=
  modCtx (issuerOf s) (fun c => { c with ls := c.ls.set n.toNat v }) s

/-- The word of the issuing stream has issued and goes on: its pops, and an arrive step, are done. -/
def hasIssued (s : State) : Bool := (cur s).popped == some (cur s).pc

/-- A pre-emption is pending and not suspended by an activation of firmware (R153, R422). -/
def preempting (s : State) : Bool := s.preempt && !s.activating

/-- The service image that the boot ROM runs: one that is presented to a part whose service-debug fuse is blown (R434). On
any other part the boot ROM refuses it. -/
def bootService (s : State) : Option ServiceImage := if s.debugFuse then s.bootImage else none

/-- The pc of the issuing stream. -/
def pcOf (s : State) : Pc := (cur s).pc

/-! ### Time, free values, the event log -/

/-- The global time base in ticks, and PTP time in nanoseconds (R6, R410). -/
def ticks (s : State) : Nat := s.timeBase / 840
def ptpNs (s : State) : Nat := s.ptp / 840

/-- The source number of a scheduler core of a die (R410). -/
def schedSource (die core : Nat) : Nat := die * 0x400 + 0x40 + core % 2

/-- The source number of this core, by its kind (R410). -/
def sourceNum (s : State) : Nat :=
  match s.kind with
  | .compute => s.die.toNat * 0x400 + s.core.toNat
  | .scheduler => schedSource s.die.toNat s.core.toNat
  | .service => s.die.toNat * 0x400 + 0x60

/-- The kinds of records, by number in the order of `LogKind`. -/
def logKindNum : LogKind → Nat
  | .poison => 0 | .noise => 1 | .correction => 2 | .transient => 3 | .lasting => 4 | .quarantine => 5 | .hung => 6
  | .attention => 7 | .taskFailed => 8 | .ordering => 9

/-- The payload of a record, whose layout the manual does not give (log 44). -/
def LogRec.payload (r : LogRec) : List Byte := (Config.logPayload (logKindNum r.kind) r.data).take 1024

/-- The 64-byte records of a record of the event log: its head, and a continuation for every further 40 bytes (R411). -/
def LogRec.bytes (r : LogRec) : List (List Byte) :=
  let b := r.payload
  (List.range (Nat.max 1 ((b.length + 39) / 40))).map (fun part =>
    let body := (b.drop (40 * part)).take 40
    leBytes 8 r.time ++ leBytes 2 r.source ++
      leBytes 2 (if part = 0 then (Config.logKind (logKindNum r.kind)).toNat else 0xFFFF) ++ leBytes 2 b.length ++ leBytes 2 part ++
      (body ++ List.replicate (40 - body.length) 0) ++ List.replicate 8 0)

/-- What the ring of the event log keeps: the oldest records go, whole, until the rest fits (R411). -/
def logFit : List LogRec → List LogRec
  | [] => []
  | r :: t => if ((r :: t).map (·.bytes.length)).sum ≤ Config.logRecords then r :: t else logFit t

/-- A record takes its place: by timestamp, then by source number, then in the order of emission (R381). -/
def logPlace (r : LogRec) (l : List LogRec) : List LogRec :=
  let after (x : LogRec) : Bool := x.time == r.time && decide (r.source < x.source)
  l.filter (fun x => !after x) ++ [r] ++ l.filter after

/-- Append a record of a source to the event log; the ring counts the records it overwrites (R411). -/
def logFrom (source : Nat) (k : LogKind) (data : List Nat) (s : State) : State :=
  let all := logPlace ⟨ticks s, source, k, data⟩ s.log
  { s with log := logFit all, logLost := s.logLost + (all.length - (logFit all).length) }
def logAdd (k : LogKind) (data : List Nat) (s : State) : State := logFrom (sourceNum s) k data s

/-- A record that the launch unit of this core's die makes (R381, R410). -/
def logLaunch (k : LogKind) (data : List Nat) (s : State) : State := logFrom (schedSource s.die.toNat 0) k data s

/-- A change that a scheduler core writes to its die's journal before it takes effect (R403). -/
def journal (die : Nat) (r : JournalRec) (s : State) : State := { s with journal := s.journal ++ [(die, r)] }

/-- The device reports an event, with its timestamp and source (R30). -/
def notify (source : Nat) (n : Notice) (s : State) : State := { s with notices := s.notices ++ [⟨ticks s, source, n⟩] }

/-! ### Ports (R17, R114) -/

def portIdx : Port → Fin 9
  | .mx => 0 | .mxf => 1 | .cp => 2 | .mc => 3 | .fx => 4 | .cr => 5 | .px => 6 | .tq => 7 | .ev => 8

/-- An event has ended the waits of these `wfe`s (R139). -/
def fireWfe (c : Ctx) : Ctx :=
  match c.wfe with
  | some w => { c with wfe := some { w with fired := true } }
  | none => c

def portOutOf (s : State) (p : Port) : List Word := s.task.portOut[portIdx p]

/-- Add an entry to an output FIFO. -/
def portPut (p : Port) (w : Word) (s : State) : State :=
  let s1 := { s with task.portOut := s.task.portOut.set (portIdx p) (s.task.portOut[portIdx p] ++ [w]) }
  modCtx .kTask fireWfe (modCtx .kFirm fireWfe s1)

def portHasRoom (s : State) (p : Port) (n : Nat) : Bool := (portOutOf s p).length + n ≤ Config.portDepth

/-- Append an event record with the LOST count at bit `at_`, or count it as lost: an engine never waits for room
(R267, R319, R352). -/
def portEvent (p : Port) (at_ : Nat) (rec_ : Word) (s : State) : State :=
  let lost := s.task.lost[portIdx p]
  if portHasRoom s p 1 then
    { portPut p (rec_ ||| BitVec.ofNat 64 (lost * 2 ^ at_)) s with task.lost := s.task.lost.set (portIdx p) 0 }
  else { s with task.lost := s.task.lost.set (portIdx p) (Nat.min 255 (lost + 1)) }

def portDrop (p : Port) (s : State) : State :=
  { s with task.portOut := s.task.portOut.set (portIdx p) ((portOutOf s p).drop 1) }

/-! ### Tokens (R39, R122 to R125) -/

def fifoIdx (f : Fifo) : Fin 10 :=
  match f with
  | .kl => 0 | .lk => 1 | .lc => 2 | .cl => 3 | .cs => 4 | .sc => 5 | .sk => 6 | .ks => 7 | .kc => 8 | .ck => 9

def tokenCount (s : State) (f : Fifo) : Nat := s.task.tokens[fifoIdx f]
def tokenAdd (f : Fifo) (n : Nat) (s : State) : State :=
  { s with task.tokens := s.task.tokens.set (fifoIdx f) (tokenCount s f + n) }
def tokenTake (f : Fifo) (n : Nat) (s : State) : State :=
  { s with task.tokens := s.task.tokens.set (fifoIdx f) (tokenCount s f - n) }

/-- The FIFOs of the TOK bits (R39). -/
def wpFifo : StreamId → Fifo
  | .k => .sk | .l => .kl | .c => .lc | .s => .cs
def wnFifo : StreamId → Fifo
  | .k => .lk | .l => .cl | .c => .sc | .s => .ks
def spFifo : StreamId → Fifo
  | .k => .ks | .l => .lk | .c => .cl | .s => .sc
def snFifo : StreamId → Fifo
  | .k => .kl | .l => .lc | .c => .cs | .s => .sk

def headerPops (h : Hdr) (st : StreamId) : List (Fifo × Nat) :=
  (if h.wp then [(wpFifo st, 1)] else []) ++ (if h.wn then [(wnFifo st, 1)] else [])
def headerPushes (h : Hdr) (st : StreamId) : List (Fifo × Nat) :=
  (if h.sp then [(spFifo st, 1)] else []) ++ (if h.sn then [(snFifo st, 1)] else [])

/-- How many tokens a list names for one FIFO. -/
def tokensFor (f : Fifo) (l : List (Fifo × Nat)) : Nat := ((l.filter (fun p => p.1 == f)).map (·.2)).foldl (· + ·) 0

def popsReady (s : State) (l : List (Fifo × Nat)) : Bool := l.all (fun p => tokensFor p.1 l ≤ tokenCount s p.1)
def takePops (l : List (Fifo × Nat)) (s : State) : State := l.foldl (fun s p => tokenTake p.1 p.2 s) s

/-- The pushes to a FIFO that unfinished instructions will still make (R125). -/
def pendingPushes (s : State) (f : Fifo) : Nat :=
  ((s.task.pushes.filter (fun p => p.fifo == f)).map (·.n)).foldl (· + ·) 0 +
  (s.checkq.map (fun c => match c.act with
    | .tokens g n => if g == f then n else 0
    | _ => 0)).foldl (· + ·) 0 +
  (s.task.accesses.map (fun a => tokensFor f a.pushes)).foldl (· + ·) 0

/-- The FIFO that the pushes of a word would overflow, with v (R125). -/
def overflowOf (s : State) (l : List (Fifo × Nat)) : Option (Fifo × Nat) :=
  (l.map (fun p => (p.1, tokenCount s p.1 + pendingPushes s p.1 + tokensFor p.1 l))).find? (fun p => Config.tokenMax < p.2)

/-! ### Queues (R16, R162 to R164, R194) -/

def lqIdx (n : Fin 8) : Fin 20 := ⟨n.val, by omega⟩
def sqIdx (n : Fin 8) : Fin 20 := ⟨8 + n.val, by omega⟩
def iqIdx (n : Fin 4) : Fin 20 := ⟨16 + n.val, by omega⟩
def qnameIdx : QName → Fin 20
  | .lq n => lqIdx n
  | .sq n => sqIdx n
  | .iq n => iqIdx n

def qOf (s : State) (q : Fin 20) : List QSlot := s.task.queues[q]
def setQ (q : Fin 20) (l : List QSlot) (s : State) : State := { s with task.queues := s.task.queues.set q l }

/-- The elements present: those before the first one that is still due (R162). -/
def qPresent (s : State) (q : Fin 20) : List QSlot := (qOf s q).takeWhile (fun e => e.val.isSome)
def qRoom (s : State) (q : Fin 20) (n : Nat) : Bool := (qOf s q).length + n ≤ Config.queueDepth
def qHead (s : State) (q : Fin 20) : Option QSlot := (qPresent s q).head?
def qPop (q : Fin 20) (s : State) : State := setQ q ((qOf s q).drop 1) s
/-- Reserve one slot at the tail; its number is the counter's old value. -/
def qReserve (q : Fin 20) (load : Option Nat) (s : State) : State :=
  { setQ q (qOf s q ++ [⟨s.task.nextId, none, none, load⟩]) s with task.nextId := s.task.nextId + 1 }
def qFill (q : Fin 20) (id : Nat) (v : Elem) (poison : Option Word) (s : State) : State :=
  setQ q ((qOf s q).map (fun e => if e.id == id then { e with val := some v, poison := poison } else e)) s
def qRelease (q : Fin 20) (id : Nat) (s : State) : State := setQ q ((qOf s q).filter (fun e => e.id != id)) s

/-! ### The scratchpad (R19, R82, R106, R157, R183, R440) -/

def spadSize (s : State) : Nat :=
  match s.kind with
  | .compute => Config.spadCompute
  | .service => Config.spadService
  | .scheduler => Config.spadSched

/-- The physical offset of a run of scratchpad bytes that a context names, where it may name them all (R157). -/
def spadMap (s : State) (firm : Bool) (off len : Nat) : Option Nat :=
  if spadSize s < off + len then none
  else if firm || s.task.ctx == 0 || s.holds == 0 then some off
  else
    let bulk := s.bulkShare[s.die.toNat]! * 0x80000
    let base := if s.holds == 1 then 0 else bulk
    let size := if s.holds == 1 then bulk else Config.spadCompute - bulk
    if size == Config.spadCompute then some off
    else if off + len + 0x10000 ≤ size then some (base + off)
    else if 0x7F0000 ≤ off && 0x10000 ≤ size then some (base + size - 0x10000 + (off - 0x7F0000))
    else none

/-- Write scratchpad bytes at a physical offset: the bytes, their check codes, the headland of the tiles they touch, and
the list of corrected addresses (R82, R176, R286, R288). -/
def spadWrite (phys : Nat) (bs : List Byte) (s : State) : State :=
  if bs.isEmpty then s
  else
  let new := memWrite s.spad phys bs
  { s with
    spad := new
    spadBad := clearBad s.spadWorn s.spadBad phys bs.length
    side := s.side.map (recWrite s.spad new phys bs.length)
    corrected := s.corrected.filter (fun a => !overlaps (bitSpan a.1 a.2).1 (bitSpan a.1 a.2).2 phys bs.length) }

/-- Write poisoned bytes: their check codes are marked uncorrectable (R177). -/
def spadPoison (phys n : Nat) (s : State) : State := { s with spadBad := setBad s.spadBad phys n }

/-- Mark the bytes from an offset on that flags name (R177). -/
def poisonBytes (phys : Nat) : List Bool → State → State
  | [], s => s
  | b :: bs, s => poisonBytes (phys + 1) bs (if b then spadPoison phys 1 s else s)

/-- Note a touch of guard granules by an access to [off, off + len) as the context names it (R132, R183): one touch, at the
lowest of them, however many granules the access meets: DESIGN CHOICE (log 80). -/
def touchGuards (off phys len : Nat) (s : State) : State :=
  match s.task.guards.filter (fun g => overlaps (g * 256) 256 off len) with
  | [] => s
  | g :: gs =>
    let first := gs.foldl Nat.min g * 256
    let at_ := Nat.max first off
    match s.task.touch with
    | none => { s with task.touch := some ⟨(phys + (at_ - off)) / 4 % 32, at_, 0⟩ }
    | some t => { s with task.touch := some { t with more := Nat.min 255 (t.more + 1) } }

/-! ### Memory outside the core -/

/-- Drop the lines of K's data cache that a write touches: the cache snoops the core's own agents (R109). -/
def snoop (ss : List Seg) (s : State) : State :=
  { s with dcache := s.dcache.filter (fun l => !ss.any (fun g => overlaps l.1 64 g.pa g.len)) }

def memPut (ss : List Seg) (bs : List Byte) (s : State) : State :=
  { s with
    mem := segWrite s.mem ss bs
    memBad := ss.foldl (fun b g => clearBad s.memWorn b g.pa g.len) s.memBad }

/-- A write by an agent of the core: performed in memory, seen by K's cache. -/
def memWriteBy (ss : List Seg) (bs : List Byte) (s : State) : State := snoop ss (memPut ss bs s)

/-- A write by a master or a unit outside the core, which K's cache does not see (R109); in the certificate store, which only
manufacture writes, it has no effect (R436). -/
def memPutOut (pa : Nat) (bs : List Byte) (s : State) : State :=
  let before := Nat.min bs.length (Config.certStorePa - pa)
  let skip := Nat.max pa (if pa < Config.certStorePa + Config.certStoreBytes then Config.certStorePa + Config.certStoreBytes else 0) - pa
  let s1 := memPut [⟨pa, before⟩] (bs.take before) s
  memPut [⟨pa + skip, bs.length - skip⟩] (bs.drop skip) s1

def flushCache (s : State) : State := { s with dcache := [] }

/-- The EG bit: a write of the task outside its core is performed (R331). -/
def noteEgress (s : State) : State :=
  { s with task.brackets := s.task.brackets.map (fun b => if b.isOpen && b.lic then { b with eg := true } else b) }
/-- Firmware's writes are none of the task's. -/
def egressOf (firm : Bool) (s : State) : State := if firm then s else noteEgress s

/-! ### Causes (R141, R144) -/

def causeCode : Cause → Nat
  | .nullWord => 0x01 | .undef => 0x02 | .wrongStream => 0x03 | .reservedField => 0x04 | .priv => 0x05
  | .align => 0x06 | .page => 0x07 | .prot => 0x08 | .guard => 0x09 | .eccUc => 0x0A | .parityLasting => 0x0B
  | .checker => 0x0C | .tokenOvf => 0x0D | .queueOvf => 0x0E | .fmtEmpty => 0x0F | .fmtBad => 0x10
  | .hlMismatch => 0x11 | .hlStale => 0x12 | .mcStates => 0x13 | .mcSlot => 0x14 | .thNoTerms => 0x15
  | .thLicensee => 0x16 | .thExpired => 0x17 | .thExhausted => 0x18 | .thNoBracket => 0x19 | .thNested => 0x1A
  | .cpFault => 0x1B | .fxFault => 0x1C | .window => 0x1D | .rot => 0x1E | .budget => 0x1F | .swTrap => 0x20
  | .breakPt => 0x21 | .sysCall => 0x22 | .timer => 0x23 | .attn => 0x24 | .preempt => 0x25 | .enclosure => 0x26

def causeClass : Cause → Nat
  | .nullWord | .undef | .wrongStream | .reservedField | .priv => 0
  | .guard => 2
  | .swTrap | .breakPt | .sysCall => 3
  | .timer | .attn => 4
  | .preempt => 5
  | _ => 1

/-- Causes routed to firmware whatever handler the stream has (R141). -/
def causeRouteF : Cause → Bool
  | .page | .sysCall => true
  | _ => false

def trapOf (c : Cause) : TrapInfo := ⟨c, 0, 0⟩
def trapAt (c : Cause) (a : Word) : TrapInfo := ⟨c, 0, a⟩

def causeWord (t : TrapInfo) : Word := BitVec.ofNat 64 (causeCode t.cause + causeClass t.cause * 256 + t.detail)

/-! ### Taking an exception (R140 to R143, R149, R207) -/

def streamCode : StreamId → Nat
  | .k => 0 | .l => 1 | .c => 2 | .s => 3

/-- sr.status (R112): K's own bits, SVC and FWC. -/
def statusWord (s : State) (x : Issuer) : Word :=
  let c := ctxOf s x
  let bit (b : Bool) (n : Nat) : Nat := if b then 2 ^ n else 0
  match x with
  | .kTask => BitVec.ofNat 64 (bit c.nrp 4 + bit (s.kind == .service) 3 + bit c.trp 1 + bit c.ie 0)
  | .kFirm => BitVec.ofNat 64 (bit (s.kind == .service) 3 + 4 + bit c.trp 1 + bit c.ie 0)
  | _ => BitVec.ofNat 64 (bit c.trp 1)

/-- The frame's base offset (R140). -/
def frameAt (s : State) (x : Issuer) : Nat :=
  match x with
  | .kFirm => s.firm.tframe.toNat
  | .kTask => s.task.k.tframe.toNat
  | .l => s.task.k.tframe.toNat + 0x100
  | .c => s.task.k.tframe.toNat + 0x200
  | .s => s.task.k.tframe.toNat + 0x300

/-- The queue snapshot of frame +0x70: L counts the elements present or due, S and C those present (R162, R165, R209). -/
def snapshot (s : State) (x : Issuer) : Nat :=
  let pack (f : Fin 8 → Nat) : Nat := ((List.finRange 8).map (fun n => f n * 2 ^ (7 * n.val))).foldl (· + ·) 0
  match x with
  | .l => pack (fun n => (qOf s (lqIdx n)).length)
  | .s => pack (fun n => (qPresent s (sqIdx n)).length)
  | .c => pack (fun n => (qPresent s (lqIdx n)).length)
  | _ => 0

def destCode : Dest → Nat
  | .reg n => n.val
  | .queue q _ => 768 + q.val

/-- A latch record (R143): destination, remaining cycles counted from the last issue cycle (R207), value. -/
def latchRecord (lastIssue : Nat) (l : Latch) : Word :=
  BitVec.ofNat 64 (destCode l.dest * 2 ^ 54 + (l.land - lastIssue) % 16 * 2 ^ 50 + l.val.toNat)

/-- The latches of C in the order of the frame: remaining count ascending, ties in issue order (R207). -/
def insertLatch (l : Latch) : List Latch → List Latch
  | [] => [l]
  | m :: t => if l.land < m.land then l :: m :: t else m :: insertLatch l t
def sortLatches (ls : List Latch) : List Latch := ls.foldl (fun acc l => insertLatch l acc) []

/-- The dwords +0x78 to +0xFF: vector progress and carried words (R223). -/
def progressWords (v : Option VProg) : List Byte :=
  match v with
  | none => List.replicate 136 0
  | some p =>
    leBytes 8 ((if p.restart then 0 else p.next % 65536 + p.phase % 16 * 2 ^ 16) + 2 ^ 31 + p.carry.toNat * 2 ^ 32) ++
      ((List.range 32).map (fun i => leBytes 4 (p.words.getD i 0).toNat)).flatten

/-- The 256 bytes of a trap frame (R143). -/
def frameBytes (s : State) (x : Issuer) (cause : Word) (pc : Pc) (operand : Word) : List Byte :=
  let c := ctxOf s x
  let ls := if x == .c then sortLatches s.task.latches else []
  leBytes 8 cause.toNat ++ leBytes 8 pc.toNat ++ leBytes 8 operand.toNat ++ leBytes 8 (statusWord s x).toNat ++
  leBytes 8 (c.preds.toNat ||| 1) ++ leBytes 8 ls.length ++
  ((List.range 8).map (fun i => match ls[i]? with
    | some l => leBytes 8 (latchRecord c.lastIssue l).toNat
    | none => leBytes 8 0)).flatten ++
  leBytes 8 (snapshot s x) ++ progressWords (if x == .c then s.task.vprog else none)

/-- Where a frame lies physically, when the stream's context may name all of it (R140). -/
def framePhys (s : State) (x : Issuer) : Option Nat := spadMap s (x == .kFirm) (frameAt s x) 256

/-- Queue slots in the order in which they were reserved: their numbers rise. -/
def insertSlot (p : Fin 20 × Nat) : List (Fin 20 × Nat) → List (Fin 20 × Nat)
  | [] => [p]
  | q :: t => if p.2 < q.2 then p :: q :: t else q :: insertSlot p t

/-- C's latches and progress are in its frame now; the queue slots stay reserved (R145, R207). -/
def dropLatches (x : Issuer) (s : State) : State :=
  if x == .c then
    { s with
      task.reserved := (s.task.latches.filterMap (fun l => match l.dest with
        | .queue q id => some (q, id)
        | .reg _ => none)).foldl (fun l p => insertSlot p l) s.task.reserved
      task.framed := s.task.framed || !s.task.latches.isEmpty
      task.kept := false
      task.latches := []
      task.vprog := none }
  else s

/-- Trap entry precedes the landings of its cycle: results that have landed in this cycle and after the last issue are
in flight again (R207). A queue element that a consumer has taken stays landed. -/
def unlandOne (p : Latch × Elem) (s : State) : State :=
  match p.1.dest with
  | .reg n => { s with task.e := s.task.e.set n.val p.2, task.latches := p.1 :: s.task.latches }
  | .queue q id =>
    if (qOf s q).any (fun e => e.id == id && e.val.isSome) then
      { setQ q ((qOf s q).map (fun e => if e.id == id then { e with val := none } else e)) s with
        task.latches := p.1 :: s.task.latches }
    else s
def unland (s : State) : State :=
  let s1 := (s.task.landedNow.filter (fun p => decide (s.task.c.lastIssue < p.1.land) &&
    decide (p.1.land ≤ s.task.c.lastIssue + 8))).foldr unlandOne s
  { s1 with task.landedNow := [] }

/-- Write the frame and clear what it holds; where no frame can be written, C keeps its latches frozen. -/
def saveFrame (x : Issuer) (cause : Word) (pc : Pc) (operand : Word) (s0 : State) : State :=
  let s := if x == .c then unland s0 else s0
  match framePhys s x with
  | some a => dropLatches x (spadWrite a (frameBytes s x cause pc operand) s)
  | none =>
    if x == .c then
      { s with
        task.frozen := sortLatches (s.task.latches.map (fun l => { l with land := l.land - s.task.c.lastIssue }))
        task.latches := []
        task.kept := true }
    else s

/-- The handler of a stream: its address, when it has one (R111, R140). -/
def handlerOf (c : Ctx) : Option Pc :=
  let a : Pc := c.tvec.setWidth 17 &&& ~~~(7 : BitVec 17)
  if a = 0 then none else some a

/-- Enter the stream's own handler (R142, step 3). -/
def enterHandler (x : Issuer) (cause : Word) (pc target : Pc) (s : State) : State :=
  modCtx x (fun c => { c with
    trp := true
    pc := target
    cause := if isK x then cause else c.cause
    epc := if isK x then pc.setWidth 64 else c.epc
    lastIssue := s.now
    fresh := false
    notBefore := s.now + 10
    blocked := false
    popped := none
    inFlight := false
    asked := none
    keptPop := c.popped
    keptAsk := c.asked
    tried := none
    wfe := none }) s

/-- F events in the order of their occurrence, with ties in the order K, L, C, S (R141). -/
def insertEvent (e : FEvent) : List FEvent → List FEvent
  | [] => [e]
  | f :: t =>
    if e.time < f.time || (e.time == f.time && streamCode e.stream < streamCode f.stream) then e :: f :: t
    else f :: insertEvent e t

/-- Halt the stream on an F event for the firmware context (R141, R149). -/
def haltStream (x : Issuer) (cause operand : Word) (pc : Pc) (written : Bool) (s : State) : State :=
  let s1 := modCtx x (fun c => { c with
    run := .halted cause operand written, pc := pc, blocked := false, inFlight := false, tried := none, wfe := none }) s
  { s1 with fEvents := insertEvent ⟨s.now, x.stream, cause &&& 0xFFFF, operand, written⟩ s1.fEvents }

/-- Hold the core (R149): the firmware context stops for good and the launch unit quarantines the core. -/
def holdCore (s : State) : State :=
  notify (schedSource s.die.toNat 0) .quarantine (logLaunch .quarantine [] { s with
    firm := { s.firm with run := .held }, quarantined := true })

/-- The key of a context (R325). -/
def keyOf (s : State) (ctx : Nat) : BitVec 64 := ((s.contexts.find? (fun c => c.num == ctx)).map (·.key)).getD 0

/-- A TH fault that the core has decided is reported to the Tithe unit; trap entry does not wait (R341). -/
def reportTh (firm : Bool) (t : TrapInfo) (s : State) : State :=
  match t.cause with
  | .thNested | .thNoBracket =>
    { s with tithe := s.tithe ++
        [⟨.report t.cause (if t.detail.testBit 27 then t.detail / 2 ^ 28 else t.detail / 2 ^ 16 % 16) t.operand.toNat, firm, keyOf s (ctxNum s firm), none, s.now⟩] }
  | _ => s

/-- TAKING AN EXCEPTION on stream `x`, with the resumption pc (R140 to R143, R149). Which register saves what: the frame
takes cause, resumption pc, operand, status, predicates, latches and progress; on K also sr.cause and sr.epc. At a double
fault no frame is written: results of C in flight land while it is halted, DESIGN CHOICE (log 68), and bit 18 of firmware's
cause word, a frame that could not be written, is 0: DESIGN CHOICE (log 79). -/
def takeTrap (x : Issuer) (t : TrapInfo) (pc : Pc) (s0 : State) : State :=
  let s := reportTh (x == .kFirm) t s0
  let c := ctxOf s x
  let w := causeWord t
  match x with
  | .kFirm =>
    if c.trp then holdCore s
    else match handlerOf c, framePhys s x with
      | some target, some _ => enterHandler x w pc target (saveFrame x w pc t.operand s)
      | _, _ => holdCore s
  | _ =>
    if c.trp then haltStream x (w ||| 0x8000) t.operand pc true s
    else match framePhys s x with
      | none => haltStream x w t.operand pc false (saveFrame x w pc t.operand s)
      | some _ =>
        let s1 := saveFrame x w pc t.operand s
        match handlerOf c with
        | some target => if causeRouteF t.cause then haltStream x w t.operand pc true s1 else enterHandler x w pc target s1
        | none => haltStream x w t.operand pc true s1

/-! ### Returning from an exception (R145, R147, R224) -/

/-- A frame as `rfi` reads it. -/
structure Frame where
  pc     : Word
  status : Word
  preds  : BitVec 16
  count  : Nat
  recs   : List Word
  prog   : Word
  words  : List Elem
deriving DecidableEq, Repr, Inhabited

def readFrame (s : State) (a : Nat) : Frame where
  pc := BitVec.ofNat 64 (memWord s.spad (a + 0x08) 8)
  status := BitVec.ofNat 64 (memWord s.spad (a + 0x18) 8)
  preds := BitVec.ofNat 16 (memWord s.spad (a + 0x20) 2)
  count := memWord s.spad (a + 0x28) 8
  recs := (List.range 8).map (fun i => BitVec.ofNat 64 (memWord s.spad (a + 0x30 + 8 * i) 8))
  prog := BitVec.ofNat 64 (memWord s.spad (a + 0x78) 8)
  words := (List.range 32).map (fun i => BitVec.ofNat 32 (memWord s.spad (a + 0x80 + 4 * i) 4))

def recDest (r : Word) : Nat := (r.extractLsb' 54 10).toNat
def recRem (r : Word) : Nat := (r.extractLsb' 50 4).toNat

/-- A latch record that R145 accepts. -/
def recOk (r : Word) : Bool :=
  (recDest r < 768 || (776 ≤ recDest r && recDest r < 788)) && 1 ≤ recRem r && recRem r ≤ 8 &&
    r.extractLsb' 32 18 == 0

/-- The queue whose reserved slots the records name too often (R144, R145). -/
def queueOverrun (s : State) (recs : List Word) : Option Nat :=
  (List.range 12).map (· + 776) |>.find? (fun code =>
    decide ((s.task.reserved.filter (fun p => 768 + p.1.val == code)).length < (recs.filter (fun r => recDest r == code)).length))

/-- Re-inject the records: each lands its remaining count after now; queue records take the reserved slots in order,
and slots that no record names are released (R145). -/
def reinjectLoop (now : Nat) : List Word → List (Fin 20 × Nat) → List Latch × List (Fin 20 × Nat)
  | [], free => ([], free)
  | r :: rs, free =>
    if h : recDest r < 768 then
      let p := reinjectLoop now rs free
      (⟨.reg ⟨recDest r, h⟩, now + recRem r, r.setWidth 32, recRem r, none⟩ :: p.1, p.2)
    else
      match free.find? (fun q => 768 + q.1.val == recDest r) with
      | some q =>
        let p := reinjectLoop now rs (free.erase q)
        (⟨.queue q.1 q.2, now + recRem r, r.setWidth 32, recRem r, none⟩ :: p.1, p.2)
      | none => reinjectLoop now rs free

def reinject (recs : List Word) (s : State) : State :=
  let p := reinjectLoop s.now recs s.task.reserved
  let s1 := p.2.foldl (fun s q => qRelease q.1 q.2 s) s
  { s1 with task.latches := s1.task.latches ++ p.1, task.reserved := [], task.framed := false }

/-- The vector progress a frame holds, for the word at `pc` (R224). -/
def frameProgress (f : Frame) (pc : Pc) (now : Nat) : Option VProg :=
  if f.prog.getLsbD 31 then
    some ⟨pc, now, false, (f.prog.extractLsb' 0 16).toNat, (f.prog.extractLsb' 16 4).toNat, f.prog.extractLsb' 32 32, f.words, 0,
      Vector.replicate 32 0⟩
  else none

/-- Restart the noise channels 0 to 3 of the task after a change of NRP (R225): from the first recorded seed when NRP
becomes 1, and with fresh logged seeds when it becomes 0. -/
def freshSeed (s : State) : List Byte × State :=
  ((List.range 4).flatMap (fun i => leBytes 8 (Config.noiseWord (4 * s.free + i)).toNat), { s with free := s.free + 1 })

def seedChannel (ch : Nat) (n : Noise) (nrp : Bool) (s : State) : Noise × State :=
  match nrp, n.recorded[n.index]? with
  | true, some seed => (⟨seed, 0, n.index + 1, n.recorded⟩, s)
  | _, _ =>
    let p := freshSeed s
    (⟨p.1, 0, n.index + 1, if ch < 4 then n.recorded ++ [p.1] else n.recorded⟩,
      if ch < 4 then logAdd .noise (s.task.ctx :: s.task.lid.toNat :: ch :: n.index :: p.1.map BitVec.toNat) p.2 else p.2)

def restartChannel (nrp : Bool) (ch : Fin 4) (s : State) : State :=
  let n := s.task.noise[ch]
  let p := seedChannel ch.val { n with index := if nrp then 0 else n.recorded.length } nrp s
  { p.2 with task.noise := p.2.task.noise.set ch p.1 }

def restartNoise (nrp : Bool) (s : State) : State := (List.finRange 4).foldl (fun s ch => restartChannel nrp ch s) s

/-! ### Engine-side helpers shared by the families -/

/-- The stream's TLB agents (R110, R180). -/
inductive TlbAgent where
  | k | l | s | cp | mc
deriving DecidableEq, Repr, Inhabited

def tlbOf (s : State) : TlbAgent → List PageEntry
  | .k => s.tlbK | .l => s.tlbL | .s => s.tlbS | .cp => s.tlbCp | .mc => s.tlbMc
def tlbSize : TlbAgent → Nat
  | .k => Config.tlbK
  | _ => Config.tlbStream
def setTlb (a : TlbAgent) (l : List PageEntry) (s : State) : State :=
  match a with
  | .k => { s with tlbK := l }
  | .l => { s with tlbL := l }
  | .s => { s with tlbS := l }
  | .cp => { s with tlbCp := l }
  | .mc => { s with tlbMc := l }

/-- A translation that can exist: it maps a page of 56-bit virtual addresses onto a page of 52-bit physical addresses, and
its size is that of the tier of the memory that it maps (R19, R20); none lets a write reach the certificate store (R436). -/
def pageFits (e : PageEntry) : Bool :=
  let n := Config.pageSize e.tier
  e.vbase % n == 0 && e.pbase % n == 0 && decide (e.vbase + n ≤ 2 ^ 56) && decide (e.pbase + n ≤ 2 ^ 52) &&
    Config.tierAt e.pbase == e.tier && !(e.w && overlaps e.pbase n Config.certStorePa Config.certStoreBytes)

/-- A page entry maps a virtual address of a context (R20). -/
def pageHas (ctx va : Nat) (e : PageEntry) : Bool :=
  pageFits e && e.ctx == ctx && decide (e.vbase ≤ va) && decide (va < e.vbase + Config.pageSize e.tier)

/-- The translation of an address: the TLB's entry, or the walk of the page tables (R110, R180). -/
def lookup (s : State) (a : TlbAgent) (ctx va : Nat) : Option PageEntry :=
  match (tlbOf s a).find? (pageHas ctx va) with
  | some e => some e
  | none => s.pages.find? (pageHas ctx va)

/-- Load a translation into a TLB; a full TLB gives up an entry that the manual does not choose. -/
def tlbLoad (a : TlbAgent) (e : PageEntry) (s : State) : State :=
  let t := tlbOf s a
  if t.contains e then s
  else if t.length < tlbSize a then setTlb a (t ++ [e]) s
  else setTlb a (t.eraseIdx (Config.victim s.free % t.length) ++ [e]) { s with free := s.free + 1 }

/-- The pieces of [va, va + len), page by page, or the first address without a translation. -/
def pieces (s : State) (a : TlbAgent) (ctx : Nat) : Nat → Nat → Nat → Except Nat (List (Nat × PageEntry × Seg))
  | 0, va, _ => .error va
  | fuel + 1, va, len =>
    if len = 0 then .ok []
    else match lookup s a ctx va with
      | none => .error va
      | some e =>
        let n := Nat.min len (e.vbase + Config.pageSize e.tier - va)
        match pieces s a ctx fuel (va + n) (len - n) with
        | .error x => .error x
        | .ok t => .ok ((va, e, ⟨e.pbase + (va - e.vbase), n⟩) :: t)

/-- A physical run lies in an enclosure. -/
def inEnclosure (e : Enclosure) (pa len : Nat) : Bool :=
  overlaps pa len e.base (e.pages * 0x200000) || overlaps pa len e.cxlBase e.cxlLen
/-- A context is bound to an enclosure; context 0 is bound to none (R87). -/
def boundTo (ctx : Nat) (e : Enclosure) : Bool := ctx != 0 && e.ctxs.contains ctx
/-- The run is in an enclosure to which the context is not bound. -/
def enclosureBad (s : State) (ctx : Nat) (g : Seg) : Bool :=
  s.enclosures.any (fun e => inEnclosure e g.pa g.len && !boundTo ctx e)

/-- The terms record whose licensed pages a run meets (R324). -/
def termsAt (s : State) (g : Seg) : Option Terms :=
  s.terms.find? (fun t => overlaps g.pa g.len t.base (t.pages * 0x200000))

/-- What a load's destination offers a licensed page (R328). -/
inductive Into where
  | unbound
  | furrow (f : Fin 16)
  | region (off len : Nat)
deriving DecidableEq, Repr, Inhabited

def bracketHolds (b : Bracket) : Into → Bool
  | .unbound => false
  | .furrow f => b.furs.contains f
  | .region off len => b.regions.any (fun r => decide (r.1 ≤ off) && decide (off + len ≤ r.1 + r.2))

/-- The bracket slot in whose bound storage a destination lies. -/
def bracketOf (s : State) (d : Into) : Option (Fin 4) :=
  (List.finRange 4).find? (fun i => s.task.brackets[i].isOpen && bracketHolds s.task.brackets[i] d)

/-- The reason of TH_NOBRACKET for a load of a licensed run, if it may not pass (R328, R333). -/
def licenceFault (s : State) (firm : Bool) (d : Into) (g : Seg) : Option Nat :=
  match termsAt s g with
  | none => none
  | some t =>
    match (if firm then none else bracketOf s d) with
    | none => some 0
    | some i => if s.task.brackets[i].index == t.index then none else some 0x10000

/-- The first licensed byte arrives in bound storage: the bracket's LIC bit (R327). -/
def noteLicence (d : Into) (ss : List Seg) (s : State) : State :=
  if ss.any (fun g => (termsAt s g).isSome) then
    match bracketOf s d with
    | none => s
    | some i => { s with task.brackets := s.task.brackets.set i { s.task.brackets[i] with lic := true } }
  else s

/-- Bits [63:56] are copies of bit 55 (R106). -/
def canonicalVa (va : Word) : Bool := va.extractLsb' 56 8 == (if va.getLsbD 55 then 0xFF else 0)
/-- The 56-bit virtual address. -/
def vaNat (va : Word) : Nat := (va.extractLsb' 0 56).toNat

/-- A page-by-page piece of an access: its virtual address, its translation, its physical run. -/
abbrev Piece := Nat × PageEntry × Seg

/-- The pieces of several runs, and the addresses without a translation. -/
def runPieces (s : State) (a : TlbAgent) (ctx : Nat) : List (Word × Nat) → List Piece × List Nat
  | [] => ([], [])
  | (va, len) :: rs =>
    let r := runPieces s a ctx rs
    match pieces s a ctx (len / 0x1000 + 2) (vaNat va) len with
    | .ok ps => (ps ++ r.1, r.2)
    | .error x => (r.1, x :: r.2)

/-- The lowest of some virtual addresses, canonical. -/
def lowestVa (l : List Nat) : Word :=
  match l with
  | [] => 0
  | x :: xs => (BitVec.ofNat 56 (xs.foldl Nat.min x)).signExtend 64

/-- Orders 3 to 7 of R168 for the runs of a global access: the pieces, or the first condition that fails with its
lowest faulting address. `store` sets detail bit [16] and refuses licensed pages. -/
def runsCheck (s : State) (a : TlbAgent) (firm : Bool) (runs : List (Word × Nat)) (load store : Bool) (d : Into) :
    Except TrapInfo (List Piece) :=
  let bit := if store then 0x10000 else 0
  let ctx := ctxNum s firm
  match runs.filter (fun r => !canonicalVa r.1) with
  | r :: rs => .error ⟨.prot, bit, BitVec.ofNat 64 (rs.foldl (fun m x => Nat.min m x.1.toNat) r.1.toNat)⟩
  | [] =>
    let p := runPieces s a ctx runs
    let bad (c : Cause) (f : Piece → Bool) : Option TrapInfo :=
      match p.1.filter f with
      | [] => none
      | l => some ⟨c, bit, lowestVa (l.map (·.1))⟩
    if !p.2.isEmpty then .error ⟨.page, bit, lowestVa p.2⟩
    else match bad .prot (fun x => (load && !x.2.1.r) || (store && (!x.2.1.w || (termsAt s x.2.2).isSome))) with
      | some t => .error t
      | none =>
        match bad .enclosure (fun x => enclosureBad s ctx x.2.2) with
        | some t => .error t
        | none =>
          if store then .ok p.1
          else match p.1.filter (fun x => (licenceFault s firm d x.2.2).isSome) with
            | [] => .ok p.1
            | x :: xs => .error ⟨.thNoBracket, (licenceFault s firm d x.2.2).getD 0, lowestVa ((x :: xs).map (·.1))⟩

/-- One run. -/
def globalCheck (s : State) (a : TlbAgent) (firm : Bool) (va : Word) (len : Nat) (load store : Bool) (d : Into) :
    Except TrapInfo (List Piece) := runsCheck s a firm [(va, len)] load store d

def piecesSegs (ps : List Piece) : List Seg := ps.map (·.2.2)

def tlbNum : TlbAgent → Fin 5
  | .k => 0 | .l => 1 | .s => 2 | .cp => 3 | .mc => 4

/-- The page that a stream TLB prefetches after an access: the next one in the direction in which the last two accesses
moved, or the page after its last one where the access spans pages (R180). -/
def prefetchVa (last : Nat) (ps : List Piece) : Option Nat :=
  match ps.head?, ps.getLast? with
  | some (va, e, _), some (_, e', _) =>
    if last < va || ps.any (fun p => p.2.1.vbase != e.vbase) then some (e'.vbase + Config.pageSize e'.tier)
    else if va < last && 0 < e.vbase then some (e.vbase - 1)
    else none
  | _, _ => none

/-- After an access: its translations are in the TLB, and a stream TLB prefetches the next page's. -/
def tlbUse (a : TlbAgent) (ps : List Piece) (s : State) : State :=
  let s1 := ps.foldl (fun s p => tlbLoad a p.2.1 s) s
  match a, ps.head? with
  | .k, _ => s1
  | _, none => s1
  | _, some (va, e, _) =>
    let s2 := { s1 with tlbLast := s1.tlbLast.set (tlbNum a) va }
    match (prefetchVa s.tlbLast[tlbNum a] ps).bind (fun x => s2.pages.find? (pageHas e.ctx x)) with
    | some n => tlbLoad a n s2
    | none => s2

/-- The tier that decides an access's latency (R165): the slowest it touches. -/
def piecesLatency (ps : List Piece) : Nat := ps.foldl (fun m p => Nat.max m (Config.loadLatency p.2.1.tier)) 12

/-! ### Sluices (R32, R184, R439) -/

/-- Bytes of an access that leave the device: host and CXL memory. -/
def egressBytes (ps : List Piece) : Nat :=
  ((ps.filter (fun p => p.2.1.tier != .hbm)).map (fun p => p.2.2.len)).foldl (· + ·) 0

/-- Time units of a millisecond. -/
def msUnits : Nat := 840000000

def sluiceLets (e : Enclosure) (n : Nat) : Bool :=
  if n ≤ e.burst then decide ((n * msUnits : Nat) ≤ e.allowance) else decide ((e.burst * msUnits : Nat) ≤ e.allowance)

/-- A unit may go: nothing counts it, or it has passed its Sluices. -/
def egressPassed (s : State) (u : EgressUser) (ctx n : Nat) : Bool :=
  n == 0 || !s.enclosures.any (boundTo ctx) || s.egress.any (fun g => g.user == u && g.size == n && g.ctx == ctx && g.passed)

/-- Put a unit before its Sluices; units of other users, contexts and sizes stay as they are. -/
def egressAsk (u : EgressUser) (ctx n : Nat) (s : State) : State :=
  if s.egress.any (fun g => g.user == u && g.size == n && g.ctx == ctx) then s
  else { s with egress := s.egress ++ [⟨u, n, ctx, false⟩] }

/-- A unit that has passed has gone; one that no Sluice counts leaves the others as they are. -/
def egressDone (u : EgressUser) (ctx n : Nat) (s : State) : State :=
  { s with egress := s.egress.eraseP (fun g => g.user == u && g.size == n && g.ctx == ctx && g.passed) }

/-- A unit of this user and context waits before its Sluices. -/
def egressWaits (s : State) (u : EgressUser) (ctx : Nat) : Bool := s.egress.any (fun g => g.user == u && g.ctx == ctx && !g.passed)

end Sys2Proof.Machine
end

