-- ==== Sys2Proof/Machine/Issue.lean ====
section
/-! DEFINITION. How a word issues (R38 to R40, R48, R49, R88, R116 to R121, R125): the one protocol that every
instruction word's meaning goes through, and the compare queue of K. -/

namespace Sys2Proof.Machine

/-- What the body of an instruction does once its word may issue and its guard is true. -/
inductive Result where
  /-- finishes `lat` cycles after issue; the pc moves to the next word -/
  | done (s : State) (lat : Nat)
  /-- finishes when the last issued access does -/
  | async (s : State)
  /-- finishes at issue and transfers -/
  | goto (s : State) (pc : Pc)
  /-- finishes, then traps with this resumption pc -/
  | doneTrap (s : State) (t : TrapInfo) (pc : Pc)
  /-- waits at issue, nothing of the word is done but what `s` holds -/
  | wait (s : State)
  /-- has issued and waits for a reply -/
  | waitIssued (s : State)
  /-- has issued and waits for a reply in a wait that R104 does not count -/
  | waitReply (s : State)
  /-- has issued and has done one of its chunks -/
  | chunk (s : State)
  /-- precise fault before issue -/
  | trap (t : TrapInfo)
  /-- precise fault before issue, after which `s` keeps corrections that the device has made -/
  | trapKeep (s : State) (t : TrapInfo)
  /-- precise fault after issue: `s` keeps what is performed -/
  | trapIssued (s : State) (t : TrapInfo)
  /-- finishes; the body has set the pc and the run state itself -/
  | jumped (s : State)

/-- What a word's operands allow: all ready, a wait, a repair under way, or a lasting parity error (R88, R121). -/
inductive Hazard where
  | ready
  | wait
  | repair (id : Nat) (v : Word) (lat : Nat)
  | lasting
deriving DecidableEq, Repr, Inhabited

def hazardOf (now : Nat) (c : Ctx) (ids : List Nat) : Hazard :=
  match c.bad.find? (fun p => ids.contains p.1) with
  | some (id, last) =>
    match replayed id c with
    | some (v, lat) => if last then .lasting else .repair id v lat
    | none => .lasting
  | none =>
    if c.busy.any (fun p => ids.contains p.1 && (match p.2 with
      | .cycle r => decide (now < r)
      | .word _ => true)) then .wait else .ready

/-- The operands of a word on stream x: registers of its own, and window registers, which C holds. -/
def hazard (s : State) (x : Issuer) (ids : List Nat) : Hazard :=
  match hazardOf s.now (ctxOf s x) (ids.filter (· < 896)) with
  | .ready => hazardOf s.now s.task.c (ids.filter (896 ≤ ·))
  | h => h

/-- Rewrite a repaired value: a register, a predicate, a loop counter of a stream. -/
def repairValue (id : Nat) (v : Word) (c : Ctx) : Ctx :=
  let c1 := { c with bad := c.bad.filter (fun p => p.1 != id) }
  if h : id < 64 then { c1 with regs := c.regs.set id v }
  else if id < 80 then { c1 with preds := bitTo c.preds (id - 64) (v.getLsbD 0) }
  else if h : id - 80 < 8 then { c1 with lc := c.lc.set (id - 80) (v.setWidth 32) }
  else c1

/-- The repair of a value that fails parity holds the reading word for 4 cycles and the latency of the value's producer
(R121). -/
def repair (x : Issuer) (id : Nat) (v : Word) (lat : Nat) (s : State) : State :=
  let s1 := modCtx x (fun c => { c with notBefore := s.now + 4 + lat }) (modCtx (if 896 ≤ id then .c else x) (repairValue id v) s)
  let s2 := logAdd .transient [id] s1
  if h : 128 ≤ id ∧ id < 896 then { s2 with task.e := s2.task.e.set (id - 128) (v.setWidth 32) (by omega) }
  else if h : 896 ≤ id ∧ id < 928 then { s2 with task.w := s2.task.w.set (id - 896) v (by omega) }
  else s2

/-- The stream waits at this word (R104). -/
def block (x : Issuer) (s : State) : State := modCtx x (fun c => { c with blocked := true }) s

/-- The progress of the vector instruction that C is at. -/
def progOf (s : State) : Option VProg :=
  match s.task.vprog with
  | some p => if p.pc = s.task.c.pc then some p else none
  | none => none

/-- The issue of a word, once: the IDLE base, K's slot and word count (R38). -/
def beginWord (x : Issuer) (s : State) : State :=
  if (ctxOf s x).inFlight then s
  else
    let s1 := modCtx x (fun c => { c with inFlight := true, lastIssue := s.now, fresh := false }) s
    if isK x then { s1 with words := s1.words + 1, kSlot := true } else s1

/-- A word that has finished or transferred: the stream stands before the word at `pc`. -/
def issued (x : Issuer) (pc : Pc) (s : State) : State :=
  let s1 := modCtx x (fun c => { c with
    pc := pc
    inFlight := false
    blocked := false
    tried := none
    popped := if c.popped == some c.pc then none else c.popped
    asked := if c.popped == some c.pc then none else c.asked }) (beginWord x s)
  if x == .c then { s1 with task.vprog := none } else s1

/-- A word that has issued and goes on: its pops are taken, and it may wait. -/
def goesOn (x : Issuer) (waits : Bool) (s : State) : State :=
  modCtx x (fun c => { c with blocked := waits, popped := some c.pc }) (beginWord x s)

/-- Put a checked action of the word that issues in `s0` into the compare queue (R116, R118). -/
def enqueueAs (s0 : State) (act : Action) (va : Word) (ac : BitVec 3) (due : Nat) (s : State) : State :=
  { s with checkq := s.checkq ++
      [⟨act, isFirm s0, s0.now, ac, va, Nat.max due (s0.now + 4), s0.words, ctxOf s0 (issuerOf s0), s0.task.mx.k,
        s0.task.mc.kcfg, s0.task.brackets, s0.task.budget, s0.shareView⟩] }
def enqueue (act : Action) (va : Word) (ac : BitVec 3) (s : State) : State := enqueueAs s act va ac 0 s

/-- Actions of a K context that are still unconfirmed (R118). -/
def unconfirmed (s : State) (x : Issuer) : Bool := isK x && s.checkq.any (fun c => c.firm == (x == .kFirm))

/-- The pushes of a word that has finished: K's are checked actions (R116), the others wait for their cycle. -/
def schedule (x : Issuer) (l : List (Fifo × Nat)) (due : Nat) (s0 s : State) : State :=
  if isK x then l.foldl (fun s p => enqueueAs s0 (.tokens p.1 p.2) 0 0 due s) s
  else { s with task.pushes := s.task.pushes ++ l.map (fun p => ⟨p.1, p.2, due⟩) }

/-- The stream has acquired: what it accesses from now on comes after every access that it has issued (R371). -/
def acquire (x : Issuer) (s : State) : State := modCtx x (fun c => { c with epoch := c.epoch + 1 }) s

/-- A word takes its pops, which acquire. -/
def popAll (x : Issuer) (l : List (Fifo × Nat)) (s : State) : State :=
  if l.isEmpty then s else acquire x (takePops l s)

/-- Give the pushes of a word to the access it has issued last, which comes after the word's own pops. -/
def attachPushes (pops l : List (Fifo × Nat)) (s : State) : State :=
  match s.task.accesses.getLast? with
  | some a =>
    { s with task.accesses := s.task.accesses.dropLast ++
        [{ a with pushes := l, epoch := if pops.isEmpty then a.epoch else a.epoch + 1 }] }
  | none => s

/-- Stream x traps with resumption pc `pc`, for the word that stands at issue in `s0`. K takes a fault only when the
checker reaches it and raises the same cause, so there it waits in the compare queue like a checked action (R117). -/
def raise (x : Issuer) (t : TrapInfo) (pc : Pc) (s0 s : State) : State :=
  if isK x then block x (enqueueAs s0 (.fault t pc) 0 0 0 s) else takeTrap x t pc s

/-- A precise fault at the word. -/
def faultHere (x : Issuer) (t : TrapInfo) (s : State) : State := raise x t (ctxOf s x).pc s s

/-- TOKEN_OVF (R125). -/
def overflowTrap (p : Fifo × Nat) : TrapInfo := ⟨.tokenOvf, (fifoIdx p.1).val * 0x10000 + p.2 % 256 * 0x100000, 0⟩

/-- What follows a body's result. -/
def settle (x : Issuer) (pops pushes : List (Fifo × Nat)) (s : State) : Result → State
  | .done s' lat => schedule x pushes (s.now + lat) s (issued x ((ctxOf s x).pc + 8) (popAll x pops s'))
  | .async s' => issued x ((ctxOf s x).pc + 8) (popAll x pops (attachPushes pops pushes s'))
  | .goto s' pc => schedule x pushes s.now s (issued x pc (popAll x pops s'))
  | .doneTrap s' t pc => raise x t pc s (schedule x pushes s.now s (issued x pc (popAll x pops s')))
  | .wait s' => block x s'
  | .waitIssued s' => goesOn x true (popAll x pops s')
  | .waitReply s' => goesOn x false (popAll x pops s')
  | .chunk s' => goesOn x false (popAll x pops s')
  | .trap t => faultHere x t s
  | .trapKeep s' t => faultHere x t s'
  | .trapIssued s' t => raise x t (ctxOf s x).pc s (goesOn x false (popAll x pops s'))
  | .jumped s' => schedule x pushes s.now s (popAll x pops s')

/-- The pops a word still has to take: none when it took them before a trap or a chunk (R40). -/
def popsOf (c : Ctx) (l : List (Fifo × Nat)) : List (Fifo × Nat) := if c.popped == some c.pc then [] else l

/-- THE PROTOCOL. Parity and readiness of the guard; tokens to pop; overflow of the pushes; the guard; the operands;
then the body. `xpush` and `xpop` are the counts of `tkp` and `tkw`. A word whose guard is false only acts on tokens. The
overflow check comes once the guard and the pops are ready, before any other wait of the word: DESIGN CHOICE (log 55). -/
def issueT (h : Hdr) (xpush xpop : List (Fifo × Nat)) (reads : List Nat) (body : State → Result) (s : State) : Out :=
  let x := issuerOf s
  let c := ctxOf s x
  let guardTrue := guardOf s h
  let pushes := headerPushes h x.stream ++ (if guardTrue then xpush else [])
  let pops := popsOf c (headerPops h x.stream ++ (if guardTrue then xpop else []))
  if isK x && (s.checkq.head?.any (fun a => decide (a.word + 64 ≤ s.words))) then .next (block x s)
  else match hazard s x (if h.pq = 0 then [] else [64 + h.pq.toNat]) with
    | .wait => .next (block x s)
    | .repair id v lat => .next (repair x id v lat s)
    | .lasting => .next (faultHere x (trapOf .parityLasting) s)
    | .ready =>
      if !popsReady s pops then .next (block x s)
      else match overflowOf s pushes with
        | some p => .next (faultHere x (overflowTrap p) s)
        | none =>
          if !guardTrue then .next (settle x pops pushes s (.done s 0))
          else match hazard s x reads with
            | .wait => .next (block x s)
            | .repair id v lat => .next (repair x id v lat s)
            | .lasting => .next (faultHere x (trapOf .parityLasting) s)
            | .ready => .next (settle x pops pushes s (body s))

def issue (h : Hdr) (reads : List Nat) (body : State → Result) (s : State) : Out := issueT h [] [] reads body s

/-- The header of a word whose pq field is no guard (`sel`, `esel`). -/
def Hdr.noGuard (h : Hdr) : Hdr := { h with pq := 0, neg := false }

/-- Register numbers as operand identities of `hazardOf`. -/
def rId (n : BitVec 6) : Nat := n.toNat
def pId (n : BitVec 4) : Nat := 64 + n.toNat
def lcId (n : BitVec 3) : Nat := 80 + n.toNat

end Sys2Proof.Machine
end

