-- ==== Sys2Proof/Machine/Operands.lean ====
section
/-! DEFINITION. Operand forms: sizes and extension (R43), element operands of C with rotation, queue pops and landing
results (R46, R47, R164, R188, R192 to R194, R217), scalar groups, and window images. -/

namespace Sys2Proof.Machine

/-! ### Sizes (R43) -/

def szBytes : Sz → Nat
  | .b | .bz => 1
  | .h | .hz => 2
  | .w => 4
  | .d => 8

/-- A loaded value extended to a register as its size code gives. -/
def extendSz (sz : Sz) (v : Nat) : Word :=
  match sz with
  | .b => (BitVec.ofNat 8 v).signExtend 64
  | .bz => (BitVec.ofNat 8 v).setWidth 64
  | .h => (BitVec.ofNat 16 v).signExtend 64
  | .hz => (BitVec.ofNat 16 v).setWidth 64
  | .w => (BitVec.ofNat 32 v).signExtend 64
  | .d => BitVec.ofNat 64 v

/-- The elements that a load of this size pushes (R169). -/
def elemsOf (sz : Sz) (v : Nat) : List Elem :=
  match sz with
  | .d => [BitVec.ofNat 32 v, BitVec.ofNat 32 (v / 2 ^ 32)]
  | _ => [(extendSz sz v).setWidth 32]
def elemCount (sz : Sz) : Nat := if sz == .d then 2 else 1

/-! ### The rotating region (R188) -/

/-- The physical register that a code names now. -/
def mapE (s : State) (n : Fin 768) : Fin 768 :=
  let rb := 8 * s.task.rbase.toNat
  let rs := 8 * s.task.rsize.toNat
  if 0 < rs && rb ≤ n.val && n.val < rb + rs then Fin.ofNat 768 (rb + (n.val - rb + s.task.roff.toNat) % rs) else n

def getE (s : State) (n : Fin 768) : Elem := s.task.e[mapE s n]
/-- The operand identities of an element register and of a window register for parity. -/
def wId (w : BitVec 5) : Nat := 896 + w.toNat
def eId (s : State) (n : Fin 768) : Nat := 128 + (mapE s n).val
def opIds (s : State) : EOp → List Nat
  | .e n => [eId s n]
  | _ => []

/-- The code that follows in a register group (R217); decoding has checked that it is a register. -/
def nextE (n : Fin 768) (k : Nat) : Fin 768 := Fin.ofNat 768 (n.val + k)

/-! ### Sources -/

/-- Why an element operand cannot be read now. -/
inductive Stall where
  | wait
  | ecc (va : Word)
deriving DecidableEq, Repr, Inhabited

/-- The values of source operands in their order, each queue naming popping its own element (R47), the state after the
pops, whether one is missing, and the first poisoned one. -/
def takeSrcs : List EOp → State → List Elem × State × Bool × Option Word
  | [], s => ([], s, false, none)
  | o :: os, s =>
    match o with
    | .e n => let r := takeSrcs os s; (getE s n :: r.1, r.2)
    | .zero => let r := takeSrcs os s; (0 :: r.1, r.2)
    | .one => let r := takeSrcs os s; (0x3F800000 :: r.1, r.2)
    | .lq n =>
      match qHead s (lqIdx n) with
      | none => ([], s, true, none)
      | some q =>
        let r := takeSrcs os (qPop (lqIdx n) s)
        (q.val.getD 0 :: r.1, r.2.1, r.2.2.1, q.poison.orElse (fun _ => r.2.2.2))
    | .sq _ | .iq _ => let r := takeSrcs os s; (0 :: r.1, r.2)

def sources (os : List EOp) (s : State) : Except Stall (List Elem × State) :=
  let r := takeSrcs os s
  if r.2.2.1 then .error .wait
  else match r.2.2.2 with
    | some va => .error (.ecc va)
    | none => .ok (r.1, r.2.1)

def stallResult (s : State) : Stall → Result
  | .wait => .wait s
  | .ecc va => .trap (trapAt .eccUc va)

/-! ### Destinations -/

/-- C may take one more result: fewer than 8 land later than now (R194). -/
def latchRoom (s : State) : Bool := decide ((s.task.latches.filter (fun l => decide (s.now < l.land))).length < 8)

/-- The destination can take its result: a queue has room (R194). -/
def destRoom (s : State) : EOp → Bool
  | .sq n => qRoom s (sqIdx n) 1
  | .iq n => qRoom s (iqIdx n) 1
  | _ => true

/-- A result on its way to a physical register, in the replay queue: until it lands the register holds what another producer
gave it, and a repair gives that again (R121, R192). -/
def flightId (n : Fin 768) : Nat := 1024 + n.val
/-- The oldest of some queue entries that holds this result becomes the producer of its register. -/
def landEntry (n : Fin 768) (v : Word) : List (List (Nat × Word) × Nat) → List (List (Nat × Word) × Nat)
  | [] => []
  | e :: t =>
    if e.1.contains (flightId n, v) then ((128 + n.val, v) :: e.1.erase (flightId n, v), e.2) :: t else e :: landEntry n v t
/-- A result has landed in its register: it is the producer there, and what fails parity in the register is overwritten. -/
def landReplay (n : Fin 768) (v : Word) (c : Ctx) : Ctx :=
  { c with
    bad := c.bad.filter (fun p => p.1 != 128 + n.val)
    replay := (landEntry n v ((c.replay.map (fun e => (e.1.filter (fun p => p.1 != 128 + n.val), e.2))).reverse)).reverse }

/-- Results of one instruction for physical registers, landing in cycle `land`; the replay queue holds them (R120). -/
def latchRegs (rs : List (Fin 768 × Elem)) (land lat : Nat) (s : State) : State :=
  { s with
    task.latches := s.task.latches ++ rs.map (fun r => ⟨.reg r.1, land, r.2, lat, none⟩)
    task.c.replay := ((rs.map (fun r => (flightId r.1, r.2.setWidth 64)), lat) :: s.task.c.replay).take 32 }
def latchReg (n : Fin 768) (v : Elem) (land lat : Nat) (s : State) : State := latchRegs [(n, v)] land lat s

/-- A result for a queue: its slot is reserved now (R194). -/
def latchQueue (q : Fin 20) (v : Elem) (land lat : Nat) (s : State) : State :=
  let id := s.task.nextId
  let s1 := qReserve q none s
  { s1 with task.latches := s1.task.latches ++ [⟨.queue q id, land, v, lat, none⟩] }

/-- Send a result of latency `lat` to a destination operand, bound at issue (R188, R192). -/
def putResult (o : EOp) (v : Elem) (lat : Nat) (s : State) : State :=
  match o with
  | .e n => latchReg (mapE s n) v (s.now + lat) lat s
  | .sq n => latchQueue (sqIdx n) v (s.now + lat) lat s
  | .iq n => latchQueue (iqIdx n) v (s.now + lat) lat s
  | _ => s

/-- The common shape of an element instruction: room, sources, one result (R192, R194). -/
def elementOp (ed : EOp) (srcs : List EOp) (lat : Nat) (f : State → List Elem → Elem) (s : State) : Result :=
  if !latchRoom s || !destRoom s ed then .wait s
  else match sources srcs s with
    | .error e => stallResult s e
    | .ok (vs, s1) => .done (putResult ed (f s vs) lat s1) lat

def arg (vs : List Elem) (i : Nat) : Elem := vs.getD i 0

/-! ### Windows -/

def winOf (s : State) (w : BitVec 5) : BitVec 64 := s.task.w[w.toNat]
def setWin (w : BitVec 5) (v : BitVec 64) (s : State) : State :=
  { s with
    task.w := s.task.w.set w.toNat (v &&& 0x07FFFFFFFFFFFFFF)
    task.c := remember (wId w) (v &&& 0x07FFFFFFFFFFFFFF) 1 s.task.c }

/-- The physical window: the same image with its base mapped, when the context may name its whole span (R157). The
displacement from named to physical offsets is the same over the span. -/
def winPhys (s : State) (w : BitVec 64) : Option Int :=
  match winSpan w with
  | none => some 0
  | some (lo, hi) =>
    if lo < 0 then none
    else (spadMap s false lo.toNat (hi - lo).toNat).map (fun p => (p : Int) - lo)

/-- The physical bit offset of element i under a displacement of bytes. -/
def elemBit (w : BitVec 64) (disp : Int) (i : Nat) : Nat := (winBit w i + disp * 8).toNat

/-! ### Furrow slots (R256) -/

def slotBytes (f : Fmt) : Nat := tileBytes f + (if fmtM f then 128 else 0)
def furOf (s : State) (f : Fin 16) : Furrow := s.task.furrows[f]

/-- A slot's offset as the context names it, and physically. -/
def slotAt (v : Furrow) (slot : Nat) : Nat := v.base + slot * slotBytes v.fmt
def slotPhys (s : State) (v : Furrow) (slot : Nat) : Nat :=
  (spadMap s false (slotAt v slot) (slotBytes v.fmt)).getD (slotAt v slot)

end Sys2Proof.Machine
end

