-- ==== Sys2Proof/Machine/Order.lean ====
section
/-! DEFINITION. The order of accesses (R107, R138, R178, R179, R374): which issued access may be performed, when K may
load, when a checked action may be performed; and draws from the noise channels (R115, R225). -/

namespace Sys2Proof.Machine

/-- Where an access touches memory outside the core, or the scratchpad. -/
def kindSpace : AccessKind → Bool × List Seg
  | .load sp ss _ _ _ _ => (sp, ss)
  | .loadWindow ss _ => (false, ss)
  | .loadTile rs sc _ _ => (false, rs ++ sc)
  | .store sp ss _ _ => (sp, ss)

/-- Where an access touches the scratchpad, physically: what it reads there, or writes. -/
def spadRuns (s : State) : AccessKind → List Seg
  | .load true ss _ _ _ _ => ss
  | .store true ss _ _ => ss
  | .loadWindow _ img =>
    match winSpan img, winPhys s img with
    | some (a, b), some d => [⟨(a + d).toNat, (b - a).toNat⟩]
    | _, _ => []
  | .loadTile _ _ f slot => [⟨slotPhys s (furOf s f) slot, slotBytes (furOf s f).fmt⟩]
  | _ => []

/-- Two sets of runs share a 64-byte granule (R178). -/
def shareGranule (a b : List Seg) : Bool :=
  a.any (fun g => b.any (fun h => g.len != 0 && h.len != 0 &&
    decide (g.pa / 64 ≤ (h.pa + h.len - 1) / 64) && decide (h.pa / 64 ≤ (g.pa + g.len - 1) / 64)))

/-- Two sets of runs share a byte. -/
def shareByte (a b : List Seg) : Bool := a.any (fun g => b.any (fun h => overlaps g.pa g.len h.pa h.len))

/-- Classes that are checked against one another (R178). -/
def classMeet (a b : BitVec 3) : Bool := a == b || a == 0 || b == 0

def spaceMeet (a b : Bool × List Seg) : Bool := a.1 == b.1 && shareGranule a.2 b.2

/-- Where a checked action of K touches memory, and whether it takes part as a store and as a load (R374). -/
def actionSpace : Action → Option ((Bool × List Seg) × Bool × Bool)
  | .stk ss _ => some ((false, ss), true, false)
  | .sts off bs => some ((true, [⟨off, bs.length⟩]), true, false)
  | .amo _ dw pa _ _ _ _ _ => some ((false, [⟨pa, if dw then 8 else 4⟩]), true, true)
  | _ => none

/-- A checked action of the task that access `a` must follow (R374). -/
def actionBefore (a : Access) (c : Checked) : Bool :=
  !c.firm && (match actionSpace c.act with
    | none => false
    | some (sp, asStore, asLoad) => spaceMeet sp (kindSpace a.kind) && classMeet c.ac a.ac &&
        ((a.isLoad && asStore && decide (c.cycle < a.cycle)) || (!a.isLoad && asLoad && decide (c.cycle ≤ a.cycle))))

/-- An issued access `p` that `a` must follow. Of the same stream: one that is earlier in the queue and shares a granule
or a byte of the scratchpad with it, or that an acquire parts from it (R179, R370, R371). Of the other stream: one that
paired marks put before it (R138), and, where no mark parts the two, one that it conflicts with and that issued before it
(R178). Marks go before issue cycles: DEDUCED (log 84). -/
def accessBefore (s : State) (a p : Access) (earlier : Bool) : Bool :=
  if p.isLoad == a.isLoad then
    earlier && (decide (p.epoch < a.epoch) || spaceMeet (kindSpace p.kind) (kindSpace a.kind) ||
      shareByte (spadRuns s p.kind) (spadRuns s a.kind))
  else
    decide (p.marks < a.marks) ||
    (p.marks == a.marks && spaceMeet (kindSpace p.kind) (kindSpace a.kind) && classMeet p.ac a.ac &&
      (if a.isLoad then decide (p.cycle < a.cycle) else decide (p.cycle ≤ a.cycle)))

/-- A load of K that waits at issue and that a store of S must follow: it may have issued by R38 before (R374). -/
def triedBefore (s : State) (a : Access) : Bool :=
  !a.isLoad && s.task.k.run == .running && s.task.k.tried.any (fun t => spaceMeet t.space (kindSpace a.kind) && classMeet t.ac a.ac &&
    decide (t.cycle ≤ a.cycle))

/-- Something that the access must follow is still to be performed. -/
def mustFollow (s : State) (a : Access) : Bool :=
  s.task.accesses.any (fun p => p.id != a.id && accessBefore s a p (decide (p.id < a.id))) ||
  s.checkq.any (actionBefore a) || triedBefore s a

/-- An issued access may be performed now. -/
def canPerform (s : State) (a : Access) : Bool :=
  decide (a.marks ≤ (if a.isLoad then s.task.s.marks else s.task.l.marks)) && !mustFollow s a

/-- An access that a checked action must follow (R374). -/
def accessBeforeAction (c : Checked) (p : Access) : Bool :=
  !c.firm && (match actionSpace c.act with
    | none => false
    | some (sp, asStore, asLoad) => spaceMeet sp (kindSpace p.kind) && classMeet c.ac p.ac &&
        ((p.isLoad && asStore && decide (p.cycle ≤ c.cycle)) || (!p.isLoad && asLoad && decide (p.cycle < c.cycle))))

/-- The head of the compare queue may be performed now. -/
def canConfirm (s : State) (c : Checked) : Bool := !s.task.accesses.any (accessBeforeAction c)

/-- The issue cycle of K's load: the first in which it might issue by R38 (R374). -/
def loadCycle (s : State) : Nat := (s.task.k.tried.map (·.cycle)).getD s.now

/-- A store of S that a load of K must follow (R374). -/
def storeBeforeLoad (s : State) (sp : Bool) (ss : List Seg) (ac : BitVec 3) : Bool :=
  s.task.accesses.any (fun p => !p.isLoad && spaceMeet (sp, ss) (kindSpace p.kind) && classMeet ac p.ac &&
    decide (p.cycle < loadCycle s))

/-- K's own accesses are performed in program order (R107): a load follows every store and `amo` of its context. -/
def ownStoresPending (s : State) : Bool :=
  s.checkq.any (fun c => c.firm == isFirm s && (actionSpace c.act).isSome)

/-- K may perform a load now. -/
def mayLoad (s : State) (sp : Bool) (ss : List Seg) (ac : BitVec 3) : Bool :=
  !ownStoresPending s && (isFirm s || !storeBeforeLoad s sp ss ac)

/-- A load of K that waits for those stores. Its place among the accesses of L and S is the cycle in which it began to wait
(R374); that it issues when the wait ends is a DESIGN CHOICE (log 85). -/
def waitToLoad (sp : Bool) (ss : List Seg) (ac : BitVec 3) (s : State) : Result :=
  .wait (if isFirm s || s.task.k.tried.isSome then s else { s with task.k.tried := some ⟨s.now, (sp, ss), ac⟩ })

/-- Every access that a stream of the task has issued is performed (R105, R137). -/
def allPerformed (s : State) (x : Issuer) : Bool :=
  match x with
  | .l => !s.task.accesses.any (fun a => a.isLoad)
  | .s => !s.task.accesses.any (fun a => !a.isLoad)
  | .c => true
  | x => !unconfirmed s x

/-- Every result of a stream has landed (R104). -/
def landed (s : State) (x : Issuer) : Bool :=
  !(ctxOf s x).busy.any (fun p => match p.2 with
    | .cycle r => decide (s.now < r)
    | .word _ => true) && (x != .c || s.task.latches.isEmpty)

/-! ### Noise (R115, R225) -/

/-- The bits of one seed: 2^32 blocks of 512. -/
def seedBits : Nat := 2 ^ 41

/-- The next k bits of a channel: those that its seed still has, then the first ones of the next seed (R225). -/
def drawFrom (ch : Nat) (n : Noise) (nrp : Bool) (k : Nat) (s : State) : Nat × Noise × State :=
  let left := if n.seed.isEmpty then 0 else seedBits - n.pos
  if k ≤ left then (keystream n.seed n.pos k, { n with pos := n.pos + k }, s)
  else
    let p := seedChannel ch n nrp s
    ((if left = 0 then 0 else keystream n.seed n.pos left) + 2 ^ left * keystream p.1.seed 0 (k - left), { p.1 with pos := k - left }, p.2)

/-- Draw k bits (k at most 64) from a channel: 0 to 3 of the task, 4 of the firmware context. -/
def drawNoise (ch : Fin 5) (k : Nat) (s : State) : Nat × State :=
  if h : ch.val < 4 then
    let r := drawFrom ch.val s.task.noise[ch.val] s.task.k.nrp k s
    (r.1, { r.2.2 with task.noise := r.2.2.task.noise.set ch.val r.2.1 })
  else
    let r := drawFrom 4 s.firmNoise false k s
    (r.1, { r.2.2 with firmNoise := r.2.1 })

/-- Round to a format, with noise from a channel where SR needs it (R69). -/
def roundDraw (ch : Fin 5) (f : Fmt) (r : Rnd) (x : Ex) (s : State) : Nat × State :=
  if roundDraws f r x then
    let p := drawNoise ch 16 s
    (roundTo f r p.1 x, p.2)
  else (roundTo f r 0 x, s)

end Sys2Proof.Machine
end

