-- ==== Sys2Proof/Machine/Control.lean ====
section
/-! DEFINITION. The control class (chapter 04) but for `end` and the port instructions that engines stand behind. -/

namespace Sys2Proof.Machine

/-! ### Arithmetic (R89 to R96) -/

/-- A 64-bit quotient and remainder (R91). -/
def divRem (signed : Bool) (a b : Word) : Word × Word :=
  if b = 0 then (0xFFFFFFFFFFFFFFFF, a)
  else
    let q : Word := if signed then BitVec.ofInt 64 (a.toInt.tdiv b.toInt) else a / b
    (q, a - q * b)

def byteSwap (a : Word) : Word := BitVec.ofNat 64 (leVal (leBytes 8 a.toNat).reverse)
def leadingZeros (a : Word) : Nat := if a = 0 then 64 else 63 - a.toNat.log2
def trailingZeros (a : Word) : Nat := ((List.range 64).find? (fun i => a.getLsbD i)).getD 64
def onesCount (a : Word) : Nat := ((List.range 64).filter (fun i => a.getLsbD i)).length

/-- The functions of `alu` (R90). -/
def aluFn (fn : AluFn) (a b : Word) : Word :=
  let n := (b.extractLsb' 0 6).toNat
  match fn with
  | .add => a + b
  | .sub => a - b
  | .and => a &&& b
  | .or => a ||| b
  | .xor => a ^^^ b
  | .andn => a &&& ~~~b
  | .shl => a <<< n
  | .shr => a >>> n
  | .sar => a.sshiftRight n
  | .rol => a.rotateLeft n
  | .mul => a * b
  | .mulh => BitVec.ofInt 64 (a.toInt * b.toInt / (2 ^ 64 : Nat))
  | .mulhz => BitVec.ofNat 64 (a.toNat * b.toNat / 2 ^ 64)
  | .div => (divRem true a b).1
  | .divz => (divRem false a b).1
  | .rem => (divRem true a b).2
  | .remz => (divRem false a b).2
  | .min => if a.slt b then a else b
  | .max => if a.slt b then b else a
  | .minz => if a.ult b then a else b
  | .maxz => if a.ult b then b else a
  | .clz => BitVec.ofNat 64 (leadingZeros a)
  | .ctz => BitVec.ofNat 64 (trailingZeros a)
  | .popc => BitVec.ofNat 64 (onesCount a)
  | .bswap => byteSwap a
  | .sxb => (a.extractLsb' 0 8).signExtend 64
  | .sxh => (a.extractLsb' 0 16).signExtend 64
  | .sxw => (a.extractLsb' 0 32).signExtend 64

/-- Cycles until the result is ready (R88). -/
def aluLatency : AluFn → Nat
  | .mul | .mulh | .mulhz => 3
  | .div | .divz | .rem | .remz => 20
  | _ => 1

/-- The common shape of a register result. -/
def writeReg (d : BitVec 6) (v : Word) (lat : Nat) (s : State) : Result := .done (setReg d v lat s) lat

def execNop (h : Hdr) (s : State) : Out := issue h [] (fun s => .done s 0) s

def execLi (h : Hdr) (d : BitVec 6) (imm : BitVec 32) (s : State) : Out :=
  issue h [] (writeReg d (imm.signExtend 64) 1) s

def execLih (h : Hdr) (d : BitVec 6) (imm : BitVec 32) (s : State) : Out :=
  issue h [rId d] (fun s => writeReg d (imm ++ (getReg s d).extractLsb' 0 32) 1 s) s

def execAlu (h : Hdr) (fn : AluFn) (d a b : BitVec 6) (s : State) : Out :=
  issue h (if fn.unary then [rId a] else [rId a, rId b])
    (fun s => writeReg d (aluFn fn (getReg s a) (getReg s b)) (aluLatency fn) s) s

/-- The immediate forms (R92): one source, a signed 26-bit value. -/
def immOp (f : Word → Word → Word) (lat : Nat) (h : Hdr) (d a : BitVec 6) (imm : BitVec 26) (s : State) : Out :=
  issue h [rId a] (fun s => writeReg d (f (getReg s a) (imm.signExtend 64)) lat s) s

def execAddi (h : Hdr) (d a : BitVec 6) (imm : BitVec 26) (s : State) : Out := immOp (· + ·) 1 h d a imm s
def execAndi (h : Hdr) (d a : BitVec 6) (imm : BitVec 26) (s : State) : Out := immOp (· &&& ·) 1 h d a imm s
def execOri (h : Hdr) (d a : BitVec 6) (imm : BitVec 26) (s : State) : Out := immOp (· ||| ·) 1 h d a imm s
def execXori (h : Hdr) (d a : BitVec 6) (imm : BitVec 26) (s : State) : Out := immOp (· ^^^ ·) 1 h d a imm s
def execMuli (h : Hdr) (d a : BitVec 6) (imm : BitVec 26) (s : State) : Out := immOp (· * ·) 3 h d a imm s

/-- The shift forms (R92): an amount of 0 to 63. -/
def shiftOp (fn : AluFn) (h : Hdr) (d a n : BitVec 6) (s : State) : Out :=
  issue h [rId a] (fun s => writeReg d (aluFn fn (getReg s a) (n.setWidth 64)) 1 s) s

def execShli (h : Hdr) (d a n : BitVec 6) (s : State) : Out := shiftOp .shl h d a n s
def execShri (h : Hdr) (d a n : BitVec 6) (s : State) : Out := shiftOp .shr h d a n s
def execSari (h : Hdr) (d a n : BitVec 6) (s : State) : Out := shiftOp .sar h d a n s

def execCmp (h : Hdr) (cc : CmpCc) (pd : BitVec 4) (a b : BitVec 6) (s : State) : Out :=
  issue h [rId a, rId b] (fun s => .done (setPred pd (cmpRel cc (getReg s a) (getReg s b)) s) 1) s

def execCmpi (h : Hdr) (cc : CmpCc) (pd : BitVec 4) (a : BitVec 6) (imm : BitVec 20) (s : State) : Out :=
  issue h [rId a] (fun s => .done (setPred pd (cmpRel cc (getReg s a) (imm.signExtend 64)) s) 1) s

def execPlog (h : Hdr) (fn : PlogFn) (d a b : BitVec 4) (s : State) : Out :=
  issue h (if fn == .pmov then [pId a] else [pId a, pId b])
    (fun s => .done (setPred d (plogRel fn (getPred s a) (getPred s b)) s) 1) s

/-- `sel` always executes; its pq field selects (R95). -/
def execSel (h : Hdr) (d a b : BitVec 6) (s : State) : Out :=
  issue (Hdr.noGuard h) [rId a, rId b, pId h.pq]
    (fun s => writeReg d (if guardOf s h then getReg s a else getReg s b) 1 s) s

def execLea (h : Hdr) (scale : BitVec 2) (d a b : BitVec 6) (s : State) : Out :=
  issue h [rId a, rId b] (fun s => writeReg d (getReg s a + (getReg s b <<< scale.toNat)) 1 s) s

/-! ### Transfers and loops (R97 to R101) -/

/-- The target of an offset in instruction words. -/
def branchTarget (pc : Pc) (off : BitVec 32) : Pc := pc + (off.setWidth 17 <<< 3)

def execBr (h : Hdr) (off : BitVec 32) (s : State) : Out :=
  issue h [] (fun s => .goto s (branchTarget (pcOf s) off)) s

def execCall (h : Hdr) (off : BitVec 32) (s : State) : Out :=
  issue h [] (fun s => .goto (setReg 63 ((pcOf s + 8).setWidth 64) 1 s) (branchTarget (pcOf s) off)) s

def execJr (h : Hdr) (d a : BitVec 6) (s : State) : Out :=
  issue h [rId a] (fun s =>
    let t := getReg s a
    if t.extractLsb' 0 3 != 0 || t.extractLsb' 17 47 != 0 then .trap (trapAt .align t)
    else .goto (setReg d ((pcOf s + 8).setWidth 64) 1 s) (t.setWidth 17)) s

/-- The instruction word at an address of an instruction memory (R36, R86). -/
def fetchWord (im : Memory) (pc : Pc) : BitVec 64 := BitVec.ofNat 64 (memWord im pc.toNat 8)

/-- A word that ends a skip over counter n: `endl`, or on C also `lbr` (R100, R191). -/
def endsLoop (onC : Bool) (n : BitVec 3) (w : BitVec 64) : Bool :=
  let opc := w.extractLsb' 42 8
  (opc == 0x16 || (onC && opc == 0x70)) && w.extractLsb' 32 3 == n

/-- Where a skip goes: after the loop's end, or to a NULLWORD fault at an address (R100). -/
inductive SkipTo where
  | after (pc : Pc)
  | null (pc : Pc)
deriving DecidableEq, Repr, Inhabited

def skipFrom (im : Memory) (onC : Bool) (n : BitVec 3) (start : Pc) : Nat → Pc → SkipTo
  | 0, _ => .null start
  | fuel + 1, pc =>
    let w := fetchWord im pc
    if pc == start || w == 0 then .null pc
    else if endsLoop onC n w then .after (pc + 8)
    else skipFrom im onC n start fuel (pc + 8)

/-- The count of a `loop` (R99). -/
def loopCount (s : State) : LoopSrc → BitVec 32
  | .imm n => n
  | .reg n => (getReg s n).setWidth 32
  | .ereg n => getE s n

def loopReads (s : State) : LoopSrc → List Nat
  | .imm _ => []
  | .reg n => [rId n]
  | .ereg n => [eId s n]

/-- The cycles of a skip to an address: one for every word from the `loop` on, once around where it comes back to it. -/
def skipCycles (start pc : Pc) : Nat := if pc = start then 16384 else (pc - start).toNat / 8

/-- `loop`. A skip that meets no end takes its cycles before the fault. -/
def execLoop (h : Hdr) (n : BitVec 3) (src : LoopSrc) (s : State) : Out :=
  issue h (loopReads s src) (fun s =>
    let c := cur s
    let count := loopCount s src
    let s1 := setLs n (c.pc + 8) (setLc n count s)
    if count = 0 then
      match skipFrom c.imem (issuerOf s == .c) n c.pc 16384 (c.pc + 8) with
      | .after pc => .goto (modCtx (issuerOf s) (fun c => { c with notBefore := s.now + skipCycles c.pc pc }) s1) pc
      | .null pc =>
        if hasIssued s then .doneTrap s ⟨.nullWord, 0x10000, fetchWord c.imem pc⟩ pc
        else .chunk (modCtx (issuerOf s) (fun c => { c with notBefore := s.now + skipCycles c.pc pc }) s1)
    else .done s1 1) s

def execEndl (h : Hdr) (n : BitVec 3) (off : BitVec 32) (s : State) : Out :=
  issue h [lcId n] (fun s =>
    let v := getLc s n
    if 1 < v.toNat then .goto (setLc n (v - 1) s) (branchTarget (pcOf s) off)
    else .done (setLc n 0 s) 1) s

/-- The interrupt a stream may take, by its pending bits and its status: BUDGET, then TIMER, then ATTN (R148, R250). -/
def pendingCause (s : State) (x : Issuer) : Option Cause :=
  let c := ctxOf s x
  if c.run != .running || c.trp then none
  else if c.pendBudget then some .budget
  else if isK x && !c.ie then none
  else if c.pendTimer then some .timer
  else if c.pendAttn then some .attn
  else none

/-- `safe` (R104, R151, R153): waits for the stream's results and K's window; stops there when a pre-emption is pending,
unless an interrupt comes first. -/
def execSafe (h : Hdr) (s : State) : Out :=
  issue h [] (fun s =>
    let x := issuerOf s
    if landed s x && !unconfirmed s x then
      .done (modCtx x (fun c => { c with stopped := preempting s && x != .kFirm && (pendingCause s x).isNone }) s) 0
    else .wait s) s

/-! ### K memory access (R106 to R109) -/

def kEa (s : State) (a : BitVec 6) (off : BitVec 20) : Word := getReg s a + off.signExtend 64

def misaligned (ea : Word) (n : Nat) : Bool := ea.toNat % n != 0

/-- The line of K's data cache that holds an address. -/
def cacheLine (s : State) (pa : Nat) : Option (List Byte) := (s.dcache.find? (fun l => l.1 == pa / 64 * 64)).map (·.2)

/-- Allocate a line: 256 sets of 4; a full set gives up a line that the manual does not choose. -/
def cacheFill (pa : Nat) (s : State) : State :=
  let base := pa / 64 * 64
  let set := s.dcache.filter (fun l => l.1 / 64 % 256 == base / 64 % 256)
  let new := (base, memRead s.mem base 64)
  if set.length < 4 then { s with dcache := s.dcache ++ [new] }
  else
    let out := (set.getD (Config.victim s.free % 4) (0, [])).1
    { s with dcache := s.dcache.filter (fun l => l.1 != out) ++ [new], free := s.free + 1 }

/-- A write through the cache: a present line is updated, none is allocated (R109). -/
def cacheUpdate (pa : Nat) (bs : List Byte) (s : State) : State :=
  { s with dcache := s.dcache.map (fun l =>
      if l.1 == pa / 64 * 64 then (l.1, (l.2.take (pa % 64) ++ bs ++ l.2.drop (pa % 64 + bs.length)).take 64) else l) }

/-- `ldk`. A miss whose line holds an uncorrectable byte outside the bytes read delivers its value and allocates no line:
DESIGN CHOICE (log 61). -/
def execLdk (h : Hdr) (sz : Sz) (d a : BitVec 6) (ac : BitVec 3) (off : BitVec 20) (s : State) : Out :=
  issue h [rId a] (fun s =>
    let ea := kEa s a off
    let n := szBytes sz
    if misaligned ea n then .trap (trapAt .align ea)
    else match globalCheck s .k (isFirm s) ea n true false .unbound with
      | .error t => .trap t
      | .ok ps =>
        let ss := piecesSegs ps
        if !mayLoad s false ss ac then waitToLoad false ss ac s
        else
          let pa := (ss.headD ⟨0, 0⟩).pa
          let s1 := tlbUse .k ps s
          match cacheLine s pa with
          | some line => writeReg d (extendSz sz (leVal ((line.drop (pa % 64)).take n))) 4 s1
          | none =>
            if anyBad s.memBad pa n then .trap (trapAt .eccUc ea)
            else
              let s2 := if anyBad s.memBad (pa / 64 * 64) 64 then s1 else cacheFill pa s1
              writeReg d (extendSz sz (memWord s.mem pa n)) (piecesLatency ps) s2) s

def execStk (h : Hdr) (sz : Sz) (d a : BitVec 6) (ac : BitVec 3) (off : BitVec 20) (s : State) : Out :=
  issue h [rId a, rId d] (fun s =>
    let ea := kEa s a off
    let n := szBytes sz
    if misaligned ea n then .trap (trapAt .align ea)
    else match globalCheck s .k (isFirm s) ea n false true .unbound with
      | .error t => .trap (if t.cause == .enclosure then { t with detail := 0 } else t)
      | .ok ps =>
        let ctx := ctxNum s (isFirm s)
        let out := egressBytes ps
        if !egressPassed s .kAction ctx out then .wait (egressAsk .kAction ctx out s)
        else
          .done (egressDone .kAction ctx out (tlbUse .k ps
            (enqueue (.stk (piecesSegs ps) (leBytes n (getReg s d).toNat)) ea ac s))) 0) s

/-- Order of checks of a scratchpad access of K (R106, R108): its physical offset, or a fault. -/
def spadCheck (s : State) (firm : Bool) (ea : Word) (n : Nat) (store : Bool) : Except TrapInfo Nat :=
  if misaligned ea n then .error (trapAt .align ea)
  else match spadMap s firm ea.toNat n with
    | none => .error ⟨.prot, if store then 0x10000 else 0, ea⟩
    | some p => .ok p

/-- `lds`. An access of the firmware context is never counted as a touch of a guard granule, which belongs to the task:
DEDUCED (log 60). -/
def execLds (h : Hdr) (sz : Sz) (d a : BitVec 6) (off : BitVec 20) (s : State) : Out :=
  issue h [rId a] (fun s =>
    let ea := kEa s a off
    let n := szBytes sz
    match spadCheck s (isFirm s) ea n false with
    | .error t => .trap t
    | .ok p =>
      if !mayLoad s true [⟨p, n⟩] 0 then waitToLoad true [⟨p, n⟩] 0 s
      else if anyBad s.spadBad p n then .trap (trapAt .eccUc ea)
      else
        let s1 := if isFirm s then s else touchGuards ea.toNat p n s
        writeReg d (extendSz sz (memWord s.spad p n)) 6 s1) s

def execSts (h : Hdr) (sz : Sz) (d a : BitVec 6) (off : BitVec 20) (s : State) : Out :=
  issue h [rId a, rId d] (fun s =>
    let ea := kEa s a off
    let n := szBytes sz
    match spadCheck s (isFirm s) ea n true with
    | .error t => .trap t
    | .ok p =>
      let s1 := enqueue (.sts p (leBytes n (getReg s d).toNat)) ea 0 s
      .done (if isFirm s then s1 else touchGuards ea.toNat p n s1) 0) s

/-! ### Special registers (R111 to R113, R187) -/

def rotWord (s : State) : Word :=
  BitVec.ofNat 64 (s.task.rbase.toNat + s.task.rsize.toNat * 2 ^ 7 + s.task.epi.toNat * 2 ^ 14 + s.task.roff.toNat * 2 ^ 18)

def readSpecial (s : State) (r : SpecialReg) : Word :=
  let c := cur s
  match r with
  | .core => s.core.setWidth 64
  | .die => s.die.setWidth 64
  | .ctx => BitVec.ofNat 64 (ctxNum s (isFirm s))
  | .time => BitVec.ofNat 64 (ticks s)
  | .ptp => BitVec.ofNat 64 (ptpNs s)
  | .tvec => c.tvec
  | .tframe => c.tframe
  | .cause => c.cause
  | .epc => c.epc
  | .status => statusWord s (issuerOf s)
  | .share => s.shareView.setWidth 64
  | .rot => rotWord s
  | .arg => s.task.arg
  | .lidx => s.task.lidx
  | .budget => s.task.budget

def execRsr (h : Hdr) (d : BitVec 6) (r : SpecialReg) (s : State) : Out :=
  issue h [] (fun s => writeReg d (readSpecial s r) 2 s) s

/-- A write takes effect for K at its issue; a changed NRP and a new share wait for the checker (R113). -/
def writeSpecial (r : SpecialReg) (v : Word) (s : State) : State :=
  let x := issuerOf s
  let firm := isFirm s
  let act (n : Option Bool) (sh : Option (BitVec 8)) : State := enqueue (.wsr n sh) 0 0 s
  let s0 := act none none
  match r with
  | .tvec => modCtx x (fun c => { c with tvec := v }) s0
  | .tframe => modCtx x (fun c => { c with tframe := v &&& 0x7FFF00 }) s0
  | .cause => modCtx x (fun c => { c with cause := v }) s0
  | .epc => modCtx x (fun c => { c with epc := v }) s0
  | .status =>
    let nrp := if firm then false else v.getLsbD 4
    let s1 := if nrp == (cur s).nrp then s0 else act (some nrp) none
    modCtx x (fun c => { c with nrp := nrp, trp := v.getLsbD 1, ie := v.getLsbD 0 }) s1
  | .share => if firm then { act none (some (v.setWidth 8)) with shareView := v.setWidth 8 } else s0
  | .budget => { s0 with task.budget := v, task.budgetFrom := s.now + 1 }
  | .core | .die | .ctx | .time | .ptp | .rot | .arg | .lidx => s0

def execWsr (h : Hdr) (r : SpecialReg) (a : BitVec 6) (s : State) : Out :=
  issue h [rId a] (fun s => .done (writeSpecial r (getReg s a) s) 0) s

/-! ### Ports and noise (R114, R115) -/

/-- `epop`: the eighth dword of a task-queue block acquires and invalidates K's data cache (R109, R133). -/
def execEpop (h : Hdr) (d : BitVec 6) (port : Port) (s : State) : Out :=
  issue h [] (fun s =>
    match portOutOf s port with
    | [] => .wait s
    | w :: rest =>
      let s1 := portDrop port s
      writeReg d w 2 (if port == .tq && rest.length % 8 == 0 then flushCache s1 else s1)) s

def execEcountOut (h : Hdr) (d : BitVec 6) (port : Port) (s : State) : Out :=
  issue h [] (fun s => writeReg d (BitVec.ofNat 64 (portOutOf s port).length) 1 s) s

/-- `rnd`: 64 bits from channel 0 of the task or channel 4 of the firmware context. -/
def execRnd (h : Hdr) (d : BitVec 6) (s : State) : Out :=
  issue h [] (fun s =>
    let p := drawNoise (if isFirm s then 4 else 0) 64 s
    writeReg d (BitVec.ofNat 64 p.1) 8 p.2) s

end Sys2Proof.Machine
end

