-- ==== Sys2Proof/Machine/Sync.lean ====
section
/-! DEFINITION. Tokens, barriers, remote enqueue, atomics, fences, marks, `wfe`, and the system instructions that need no
engine (chapter 05). -/

namespace Sys2Proof.Machine

def execTkp (h : Hdr) (f : Fifo) (n : BitVec 6) (s : State) : Out :=
  issueT h [(f, n.toNat)] [] [] (fun s => .done s 0) s

def execTkw (h : Hdr) (f : Fifo) (n : BitVec 6) (s : State) : Out :=
  issueT h [] [(f, n.toNat)] [] (fun s => .done s 0) s

def execTkc (h : Hdr) (d : BitVec 6) (f : Fifo) (s : State) : Out :=
  issue h [] (fun s => writeReg d (BitVec.ofNat 64 (tokenCount s f)) 1 s) s

/-! ### Barriers (R129 to R132) -/

def barOf (s : State) (b : BitVec 2) : Bar := s.task.bars[b.toNat]
def setBar (b : BitVec 2) (v : Bar) (s : State) : State := { s with task.bars := s.task.bars.set b.toNat v }

/-- Arrive at a barrier; a group of one task completes it at once. -/
def arriveAt (b : BitVec 2) (s : State) : State :=
  let v := barOf s b
  setBar b { v with arrive := v.arrive + 1, complete := if s.task.group ≤ 1 then v.arrive + 1 else v.complete } s

/-- The wait step (R130): the state after it, or none while the phase is not complete. A wait that was needed acquires,
and invalidates K's data cache (R131). -/
def waitOut (b : BitVec 2) (s : State) : Option State :=
  let v := barOf s b
  if v.arrive ≤ v.waited then some s
  else if v.arrive ≤ v.complete then some (flushCache (setBar b { v with waited := v.arrive } s))
  else none

/-- The GUARD report of a barw step (R132). -/
def guardReport (s : State) : Option TrapInfo :=
  s.task.touch.map (fun t => ⟨.guard, t.bank * 0x10000 + t.off * 0x200000 + t.more * 2 ^ 44, BitVec.ofNat 64 t.off⟩)

def clearTouch (s : State) : State := { s with task.touch := none }

/-- Finish a barrier instruction with its report, if it made a barw step. The wait of a barw step stands before the word's issue:
DESIGN CHOICE (log 73). -/
def barDone (report : Bool) (s : State) : Result :=
  match (if report then guardReport s else none) with
  | some t => .doneTrap (clearTouch s) t (pcOf s + 8)
  | none => .done s 0

def execBara (h : Hdr) (b : BitVec 2) (s : State) : Out :=
  issue h [] (fun s =>
    let v := barOf s b
    if unconfirmed s (issuerOf s) then .wait s
    else if v.waited < v.arrive then
      match waitOut b s with
      | none => .wait s
      | some s1 => barDone true (arriveAt b s1)
    else barDone false (arriveAt b s)) s

def execBarw (h : Hdr) (b : BitVec 2) (s : State) : Out :=
  issue h [] (fun s =>
    match waitOut b s with
    | none => .wait s
    | some s1 => barDone true s1) s

def execBar (h : Hdr) (b : BitVec 2) (s : State) : Out :=
  issue h [] (fun s =>
    let v := barOf s b
    if hasIssued s then
      match waitOut b s with
      | none => .waitIssued s
      | some s1 => barDone true s1
    else if unconfirmed s (issuerOf s) then .wait s
    else
      match (if v.waited < v.arrive then waitOut b s else some s) with
      | none => .wait s
      | some s1 =>
        let s2 := arriveAt b s1
        match waitOut b s2 with
        | none => .waitIssued s2
        | some s3 => barDone true s3) s

/-! ### Remote enqueue (R133) -/

/-- A core, as die × 64 + core, that the task's context holds: of the task's own partition, or of any launch of the
context on either die (R22, R133). -/
def ctxHolds (s : State) (n : Nat) : Bool :=
  s.task.partition.contains n || s.launches.any (fun l => l.pkt.ctx == s.task.ctx && l.cores.contains n)

/-- A block that waits for the checker on its way to a queue of this core. -/
def blockTo (s : State) (queue : Nat) (c : Checked) : Bool :=
  match c.act with
  | .renq q die core _ => q == queue && die == s.die.toNat && core == s.core.toNat
  | _ => false

/-- Blocks that have left K for a queue of this core and wait for the checker: each has its room there. -/
def blocksTo (s : State) (queue : Nat) : Nat := (s.checkq.filter (blockTo s queue)).length

/-- Commands of K that wait for the checker on their way to the copy engine. -/
def copiesDue (s : State) : Nat := (s.checkq.filter (fun c => match c.act with
  | .cp _ | .cpres _ => true
  | _ => false)).length

/-- A queue of this core has room for a block beside `ahead` others; the room of another core's queue is not seen here
(log 27). -/
def queueRoom (s : State) (queue die core ahead : Nat) : Bool :=
  die != s.die.toNat || core != s.core.toNat ||
    (if queue = 0 then portHasRoom s .tq (8 * (ahead + 1)) else decide (ahead + s.task.cp.queue.length < Config.portDepth))

def execRenq (h : Hdr) (a b : BitVec 6) (s : State) : Out :=
  issue h [rId a, rId b] (fun s =>
    let desc := getReg s a
    let at_ := getReg s b
    let queue := (desc.extractLsb' 7 2).toNat
    let die := (desc.extractLsb' 6 1).toNat
    let core := (desc.extractLsb' 0 6).toNat
    if desc.extractLsb' 9 55 != 0 || 2 ≤ queue || 47 < core || isFirm s || !ctxHolds s (die * 64 + core) then
      .trap (trapAt .prot desc)
    else if misaligned at_ 64 then .trap (trapAt .align at_)
    else match spadMap s (isFirm s) at_.toNat 64 with
      | none => .trap (trapAt .prot at_)
      | some p =>
        if ownStoresPending s then .wait s
        else if !queueRoom s queue die core (blocksTo s queue + if queue = 0 then 0 else copiesDue s) then .wait s
        else
          .done (enqueue (.renq queue die core ((List.range 8).map (fun i => BitVec.ofNat 64 (memWord s.spad (p + 8 * i) 8))))
            at_ 0 s) 0) s

/-! ### Atomics (R134 to R136) -/

/-- The new value of an `amo` of `n` bytes (R134). -/
def amoNew (op : AmoOp) (n : Nat) (old b cmp : Nat) : Nat :=
  let w := 8 * n
  let m := 2 ^ w
  let x := old % m
  let y := b % m
  match op with
  | .swap => y
  | .add => (x + y) % m
  | .and => x &&& y
  | .or => x ||| y
  | .xor => x ^^^ y
  | .min => if sgn w x < sgn w y then x else y
  | .max => if sgn w x < sgn w y then y else x
  | .minz => Nat.min x y
  | .maxz => Nat.max x y
  | .cas => if x == cmp % m then y else x

def amoOld (dw : Bool) (v : Nat) : Word := if dw then BitVec.ofNat 64 v else (BitVec.ofNat 32 v).signExtend 64

/-- Perform the read-modify-write; the old value. -/
def amoMem (op : AmoOp) (dw : Bool) (pa : Nat) (b cmp : Word) (s : State) : Word × State :=
  let n := if dw then 8 else 4
  let old := memWord s.mem pa n
  (amoOld dw old, memWriteBy [⟨pa, n⟩] (leBytes n (amoNew op n old b.toNat cmp.toNat)) s)

def wideScope (sc : Scope) : Bool := sc != .core

/-- Register d waits for the reply to the word of this number (R88). -/
def markBusy (d : BitVec 6) (word : Nat) (c : Ctx) : Ctx :=
  if d = 0 then c else { c with busy := (d.toNat, .word word) :: c.busy.filter (fun p => p.1 != d.toNat) }

/-- What S reads and writes at its issue by `amo` and `hchk` follows everything that its own stream, and its marks, put before
it: S's issued stores, and L's loads before the paired mark (R135, R138, R370, R371). -/
def storesSettled (s : State) : Bool :=
  allPerformed s .s && decide (s.task.s.marks ≤ s.task.l.marks) &&
    !s.task.accesses.any (fun a => a.isLoad && decide (a.marks < s.task.s.marks))

def execAmo (h : Hdr) (op : AmoOp) (sc : Scope) (dw : Bool) (d a b : BitVec 6) (s : State) : Out :=
  issue h ([rId a, rId b] ++ (if op == .cas then [rId d] else [])) (fun s =>
    let va := getReg s a
    let n := if dw then 8 else 4
    let x := issuerOf s
    if misaligned va n then .trap (trapAt .align va)
    else match globalCheck s (if x == .s then .s else .k) (isFirm s) va n true true .unbound with
      | .error t => .trap { t with detail := 0 }
      | .ok ps =>
        let pa := (piecesSegs ps).headD ⟨0, 0⟩ |>.pa
        let ctx := ctxNum s (isFirm s)
        let out := egressBytes ps
        let user : EgressUser := if x == .s then .sStore else .kAction
        if x == .s && !(storesSettled s && canPerform s ⟨s.task.nextId, false, s.now, 0, (cur s).marks, (cur s).epoch, va,
            s.now, pcOf s, .store false (piecesSegs ps) [] none, []⟩) then .wait s
        else if anyBad s.memBad pa n then (if x != .s && !mayLoad s false (piecesSegs ps) 0 then .wait s else .trap (trapAt .eccUc va))
        else if !egressPassed s user ctx out then .wait (egressAsk user ctx out s)
        else if x == .s then
          let p := amoMem op dw pa (getReg s b) (getReg s d) s
          writeReg d p.1 (piecesLatency ps) ((if wideScope sc then flushCache else id) (egressDone user ctx out (tlbUse .s ps (noteEgress p.2))))
        else
          .done (modCtx x (markBusy d s.words) (egressDone user ctx out (tlbUse .k ps
            (enqueue (.amo op dw pa d (getReg s b) (getReg s d) (wideScope sc) (piecesLatency ps)) va 0 s)))) 0) s

/-! ### Fences, marks, events (R137 to R139) -/

def acquires : FenceKind → Bool
  | .rel => false
  | _ => true
def releases : FenceKind → Bool
  | .acq => false
  | _ => true

/-- `fence`. An acquire at die scope or wider, of whichever stream, and every `sc`, empty K's data cache, so that what they order
before a later `ldk` is not read stale (R109, R371, R373). -/
def execFence (h : Hdr) (kind : FenceKind) (sc : Scope) (s : State) : Out :=
  issue h [] (fun s =>
    let x := issuerOf s
    if releases kind && !allPerformed s x then .wait s
    else if acquires kind then .done (acquire x (if wideScope sc || kind == .sc then flushCache s else s)) 0
    else .done s 0) s

def partner : Issuer → Issuer
  | .l => .s
  | _ => .l

def execMark (h : Hdr) (s : State) : Out :=
  issue h [] (fun s =>
    let x := issuerOf s
    if (ctxOf s (partner x)).marks + 15 ≤ (ctxOf s x).marks then .wait s
    else .done (modCtx x (fun c => { c with marks := c.marks + 1 }) s) 0) s

def execWfe (h : Hdr) (imm : BitVec 20) (s : State) : Out :=
  issue h [] (fun s =>
    let x := issuerOf s
    match (cur s).wfe with
    | none =>
      .wait (modCtx x (fun c => { c with
        wfe := some ⟨s.now, if imm = 0 then none else some (s.now + imm.toNat * 64), false⟩ }) s)
    | some w => if w.fired then .done (modCtx x (fun c => { c with wfe := none }) s) 0 else .wait s) s

/-! ### Software traps and the timer (R146, R147, R427) -/

def immDetail (imm : BitVec 20) : Nat := imm.toNat * 0x10000

def execTrap (h : Hdr) (imm : BitVec 20) (s : State) : Out :=
  issue h [] (fun s => .doneTrap s ⟨.swTrap, immDetail imm, 0⟩ (pcOf s + 8)) s

/-- A debugger holds the service core, whose firmware context runs a service image: its `brk` stops the core (R437). -/
def debugged (s : State) : Bool := isFirm s && s.kind == .service && (bootService s).isSome

/-- The debugger stops the service core, for a time that is a free value. -/
def stopService (s : State) : State := { s with svcStop := some (s.now + 1 + Config.debugStop s.free), free := s.free + 1 }

/-- `brk`. Where a debugger takes it (R437), the core stops, and goes on after it: DESIGN CHOICE (log 83). -/
def execBrk (h : Hdr) (imm : BitVec 20) (s : State) : Out :=
  issue h [] (fun s =>
    if !debugged s then .trap ⟨.breakPt, immDetail imm, 0⟩
    else if hasIssued s then .done s 0
    else .waitReply (stopService s)) s

/-- `sys.call`: the task waits at the `sys`; its pushes are made when firmware resumes it (R40, R147). -/
def execSysCall (h : Hdr) (imm : BitVec 20) (s : State) : Out :=
  issue (if guardOf s h then { h with sp := false, sn := false } else h) (if isFirm s then [] else [1]) (fun s =>
    if isFirm s then .trap (trapOf .priv)
    else match overflowOf s (headerPushes h .k) with
      | some p => .trap (overflowTrap p)
      | none => .doneTrap s ⟨.sysCall, immDetail imm, getReg s 1⟩ (pcOf s + 8)) s

/-- `sys.tmr`: mask bits K, L, C, S and an interval of 256-cycle units; 0 stops the timer. -/
def execSysTmr (h : Hdr) (mask : BitVec 4) (imm : BitVec 20) (s : State) : Out :=
  issue h [] (fun s =>
    let t : Option Timer := if imm = 0 then none else some ⟨mask, imm.toNat * 256, s.now + imm.toNat * 256⟩
    .done { s with task.timer := t } 0) s

end Sys2Proof.Machine
end

