-- ==== Sys2Proof/Machine/Tiles.lean ====
section
/-! DEFINITION. Furrows and headland records in use: slots, joining and popping (R256, R257), checks with correction
and the headland status (R288 to R290), and the tiles a run of bytes overlaps (R284). -/

namespace Sys2Proof.Machine

/-! ### Furrows -/

/-- The formats of a furrow and its slot size (R256). -/
def furrowFmt (f : Fmt) : Bool :=
  match f with
  | .none | .int16 | .int64 | .bitmask => false
  | _ => true

def setFur (f : Fin 16) (v : Furrow) (s : State) : State := { s with task.furrows := s.task.furrows.set f v }

/-- The slot at a position counted from the head. -/
def slotNum (v : Furrow) (i : Nat) : Nat := (v.head + i) % v.cap

/-- The image of `fget.cfg` (R277). -/
def furrowImage (v : Furrow) : Word :=
  BitVec.ofNat 64 (codeOf Fmt.table v.fmt * 2 ^ 36 + v.cap % 4096 * 2 ^ 24 + v.base)

def setLive (f : Fin 16) (slot : Nat) (b : Bool) (s : State) : State :=
  { s with side := s.side.map (fun r => if r.owner == some (f, slot) then { r with live := b } else r) }

/-- Slots that are filled join the furrow in the order of their reservation (R171). -/
def joinLoop (f : Fin 16) : Nat → State → State
  | 0, s => s
  | k + 1, s =>
    let v := furOf s f
    match v.fill with
    | true :: rest =>
      joinLoop f k (setLive f (slotNum v v.present) true (setFur f { v with present := v.present + 1, fill := rest } s))
    | _ => s
def joinSlots (f : Fin 16) (s : State) : State := joinLoop f (furOf s f).fill.length s

/-- Reserve the tail slot (R171). -/
def reserveSlot (f : Fin 16) (s : State) : State :=
  let v := furOf s f
  setFur f { v with fill := v.fill ++ [false] } s
def nextSlot (v : Furrow) : Nat := slotNum v (v.present + v.fill.length)
def furrowFull (v : Furrow) : Bool := v.cap ≤ v.present + v.fill.length

/-- Fresh headland for a slot from its bytes (R78, R80, R289). -/
def genSlot (f : Fin 16) (slot : Nat) (s : State) : State :=
  { s with side := s.side.map (fun r => if r.owner == some (f, slot) then genTile s.spad r else r) }

/-- A reserved slot is filled: bytes written, poisoned ones marked, headland generated; then the filled slots join. -/
def fillSlot (f : Fin 16) (slot : Nat) (bytes : List Byte) (bad : List Bool) (s : State) : State :=
  let v := furOf s f
  let a := slotPhys s v slot
  let s1 := spadWrite a bytes s
  let s2 := genSlot f slot (poisonBytes a bad s1)
  let i := (slot + v.cap - slotNum v v.present) % v.cap
  joinSlots f (setFur f { v with fill := v.fill.set i true } s2)

/-- Pop the head tile (R257). -/
def popTile (f : Fin 16) (s : State) : State :=
  let v := furOf s f
  if v.present = 0 then s
  else setLive f v.head false (setFur f { v with head := (v.head + 1) % v.cap, present := v.present - 1 } s)
/-- The oldest claim on a tile of the furrow ends with the tile: that `stt` pops nothing (R433). -/
def dropClaim (f : Fin 16) : List Access → List Access
  | [] => []
  | a :: t =>
    match a.kind with
    | .store sp ss bs (some g) => if g == f then { a with kind := .store sp ss bs none } :: t else a :: dropClaim f t
    | _ => a :: dropClaim f t
/-- A tile leaves the head by `fdrop` or a matrix pop: the claim of an `stt` on it goes with it (R257, R433). -/
def takeTile (f : Fin 16) (s : State) : State :=
  popTile f { s with task.accesses := dropClaim f s.task.accesses }
/-- No tile of the furrow is claimed any more. -/
def clearClaims (f : Fin 16) (s : State) : State :=
  { s with task.accesses := s.task.accesses.map (fun a => match a.kind with
      | .store sp ss bs (some g) => if g == f then { a with kind := .store sp ss bs none } else a
      | _ => a) }
def popTiles (f : Fin 16) : Nat → State → State
  | 0, s => s
  | n + 1, s => popTiles f n (takeTile f s)

/-- The record of a furrow slot. -/
def slotRec (s : State) (f : Fin 16) (slot : Nat) : Option HRec := s.side.find? (fun r => r.owner == some (f, slot))

/-! ### Bound storage (R329) -/

/-- The storage bound to a bracket, as runs of the scratchpad: its regions, and the slots of its furrows. -/
def boundRuns (s : State) (b : Bracket) : List (Nat × Nat) :=
  b.regions ++ b.furs.map (fun f => ((furOf s f).base, (furOf s f).cap * slotBytes (furOf s f).fmt))
/-- The lowest of some offsets. -/
def lowestOff : List Nat → Option Nat
  | [] => none
  | x :: xs => some (xs.foldl Nat.min x)
/-- The same runs as a context names them: firmware's offsets are physical (R157). -/
def boundSeen (s : State) (firm : Bool) (b : Bracket) : List (Nat × Nat) :=
  if firm then (boundRuns s b).map (fun r => ((spadMap s false r.1 r.2).getD r.1, r.2)) else boundRuns s b
/-- The lowest bound address that a run of the scratchpad meets, as the context names both; open brackets only. -/
def boundMeets (s : State) (firm : Bool) (off len : Nat) : Option Nat :=
  if len = 0 then none
  else lowestOff ((((s.task.brackets.toList.filter (·.isOpen)).flatMap (boundSeen s firm)).filter
    (fun r => overlaps off len r.1 r.2)).map (fun r => Nat.max off r.1))
def furrowBound (s : State) (f : Fin 16) : Bool := s.task.brackets.toList.any (fun b => b.isOpen && b.furs.contains f)
/-- PROT of bound storage: detail bit [17], and for a store of S also bit [16] (R168, R329). -/
def boundTrap (store : Bool) (a : Nat) : TrapInfo :=
  ⟨.prot, if store then 0x30000 else 0x20000, BitVec.ofNat 64 a⟩

/-! ### Preserved headland (R80, R286) -/

/-- A tile that takes the record of the tile it is a copy of: its row and column checksums while the bytes are those of the
source, and the scale checksum. Where a race has left other bytes it keeps the checksums of its own writes (R287; log 66);
while the writer still has scale words to write (`words`), the scale checksum follows the writes until the words agree. A
record that takes its own values has only been written as it was, and its stale bit clears (R244; log 63). -/
def preserveTile (m : Memory) (words : Bool) (r q : HRec) : HRec :=
  let scales (x : HRec) : Option (List Byte) := x.scaleAt.map (fun a => memRead m a 128)
  let scale := if words && scales r != scales q then r.scale else q.scale
  if memRead m r.base (tileBytes r.fmt) == memRead m q.base (tileBytes q.fmt) then
    { r with
      rows := q.rows, cols := q.cols, scale := scale
      stale := q.stale && !(r.base == q.base), damaged := q.damaged }
  else { r with scale := scale }

/-! ### Checks (R81, R288 to R290) -/

/-- How a check treats a correctable mismatch: correct it, report it as refused (`.ro`), or only examine (`hfix`). -/
inductive CheckMode where
  | correct | report | examine
deriving DecidableEq, Repr, Inhabited

/-- The headland status (R290). -/
structure HStatus where
  x : Bool
  l : Bool
  sc : Bool
  ccnt : Nat
  rcnt : Nat
  col : Nat
  row : Nat
  e : Bool
  stale : Bool
  f : Bool
  c : Bool
  m : Bool
deriving DecidableEq, Repr, Inhabited

def HStatus.zero : HStatus := ⟨false, false, false, 0, 0, 0, 0, false, false, false, false, false⟩

def statusBits (t : HStatus) : Nat :=
  let b (v : Bool) (n : Nat) : Nat := if v then 2 ^ n else 0
  b t.x 29 + b t.l 28 + b t.sc 27 + t.ccnt * 2 ^ 21 + t.rcnt * 2 ^ 15 + t.col * 2 ^ 10 + t.row * 2 ^ 5 + b t.e 4 +
    b t.stale 3 + b t.f 2 + b t.c 1 + b t.m 0

/-- The fault that a status calls for (R290). -/
def statusFault (t : HStatus) : Option Cause :=
  if t.stale then some .hlStale
  else if t.f || t.e || t.l || (t.sc && t.ccnt == 0 && t.rcnt == 0) then some .hlMismatch
  else none

def hlTrap (c : Cause) (idx : Nat) (t : HStatus) (base : Nat) : TrapInfo :=
  ⟨c, idx % 65536 * 0x10000 + statusBits t * 2 ^ 32, BitVec.ofNat 64 base⟩

/-- Write a corrected element back: the record stays, the address is remembered, the event log has it (R288). -/
def correctElem (r : HRec) (k bits : Nat) (s : State) : State :=
  let w := fmtBits r.fmt
  let bit := r.base * 8 + k * w
  let sp := bitSpan bit w
  logAdd .correction [s.task.ctx, s.core.toNat, r.base, k / 32, k % 32, bitsGet s.spad bit w, bits]
    { s with
      spad := memWrite s.spad sp.1 (bitsPut s.spad bit w bits)
      corrected := ((bit, w) :: s.corrected).take 16 }

/-- Check rows and columns of a tile against its record, with the task's slack (R298). -/
def checkPart (mode : CheckMode) (r : HRec) (rows cols : List Nat) (s : State) : HStatus × State :=
  if r.damaged then ({ HStatus.zero with e := true }, s)
  else if r.stale then ({ HStatus.zero with stale := true }, s)
  else
    let t := tileCheck s.spad s.task.slack.toNat r rows cols
    if t.rows.isEmpty && t.cols.isEmpty && !t.sc then (HStatus.zero, s)
    else
      let st : HStatus := { HStatus.zero with
        m := true, sc := t.sc, ccnt := t.cols.length, rcnt := t.rows.length
        col := t.cols.headD 0, row := t.rows.headD 0 }
      match t.fixed with
      | none => ({ st with f := mode == .report || !(t.rows.isEmpty && t.cols.isEmpty) }, s)
      | some (k, bits) =>
        if s.corrected.contains (r.base * 8 + k * fmtBits r.fmt, fmtBits r.fmt) then ({ st with f := true, l := true }, s)
        else match mode with
          | .correct => ({ st with c := true }, correctElem r k bits s)
          | .report => ({ st with f := true, x := true }, s)
          | .examine => ({ st with x := true }, s)

def checkTile (mode : CheckMode) (r : HRec) (s : State) : HStatus × State :=
  checkPart mode r (List.range 32) (List.range 32) s

/-- The live records that a physical run overlaps, in ascending address order, elements or scale words. -/
def insertRec (r : HRec) : List HRec → List HRec
  | [] => [r]
  | q :: t => if r.base ≤ q.base then r :: q :: t else q :: insertRec r t
def tilesMeeting (s : State) (phys len : Nat) : List HRec :=
  (s.side.filter (fun r => r.live && (overlaps phys len r.base (tileBytes r.fmt) ||
    (match r.scaleAt with
      | some a => overlaps phys len a 128
      | none => false)))).foldl (fun l r => insertRec r l) []

/-- Check tiles in order before bytes leave (R172, R173): the state with its corrections, and the first fault. `disp`
turns a physical base into the offset that the context names. -/
def checkTiles (idx : Nat) (disp : Int) : List HRec → State → State × Option TrapInfo
  | [], s => (s, none)
  | r :: rs, s =>
    let p := checkTile .correct r s
    match statusFault p.1 with
    | some c => (p.2, some (hlTrap c idx p.1 ((r.base : Int) - disp).toNat))
    | none => checkTiles (idx + 1) disp rs p.2

end Sys2Proof.Machine
end

