-- ==== Sys2Proof/Machine/Access.lean ====
section
/-! DEFINITION. The access sequencers (chapter 06): loads, stores and queue control at issue, and the steps that perform
what they issued. -/

namespace Sys2Proof.Machine

/-! ### Windows as runs of elements -/

/-- The value of whole elements laid end to end. -/
def packElems (w : Nat) : List Nat → Nat
  | [] => 0
  | v :: vs => v % 2 ^ w + 2 ^ w * packElems w vs
/-- The elements of a byte stream. -/
def unpackElems (w : Nat) : Nat → Nat → List Nat
  | 0, _ => []
  | n + 1, v => v % 2 ^ w :: unpackElems w n (v / 2 ^ w)

/-- Write one element at a physical bit offset. -/
def putElem (bit w v : Nat) (s : State) : State := spadWrite (bitSpan bit w).1 (bitsPut s.spad bit w v) s

/-- Write elements i, i + 1, … of a window under a displacement; a unit stride is one run. -/
def putElems (img : BitVec 64) (disp : Int) : Nat → List Nat → State → State
  | _, [], s => s
  | i, v :: vs, s =>
    let w := fmtBits (winFmt img)
    if winStride img = 1 then putElem (elemBit img disp i) (w * (v :: vs).length) (packElems w (v :: vs)) s
    else putElems img disp (i + 1) vs (putElem (elemBit img disp i) w v s)

def getElem (s : State) (img : BitVec 64) (disp : Int) (i : Nat) : Nat :=
  bitsGet s.spad (elemBit img disp i) (fmtBits (winFmt img))
def getElems (s : State) (img : BitVec 64) (disp : Int) (i n : Nat) : List Nat :=
  (List.range n).map (fun k => getElem s img disp (i + k))

/-- Element i of a window has a poisoned byte; the byte. -/
def elemBad (s : State) (img : BitVec 64) (disp : Int) (i : Nat) : Option Nat :=
  let sp := bitSpan (elemBit img disp i) (fmtBits (winFmt img))
  s.spadBad.find? (fun x => decide (sp.1 ≤ x) && decide (x < sp.1 + sp.2))

/-- Touches of guard granules by elements i to i + n - 1 (R183). -/
def touchElems (img : BitVec 64) (disp : Int) : Nat → Nat → State → State
  | _, 0, s => s
  | i, n + 1, s =>
    let sp := bitSpan (elemBit img disp i) (fmtBits (winFmt img))
    if winStride img = 1 then
      let hi := bitSpan (elemBit img disp (i + n)) (fmtBits (winFmt img))
      touchGuards ((sp.1 : Int) - disp).toNat sp.1 (hi.1 + hi.2 - sp.1) s
    else touchElems img disp (i + 1) n (touchGuards ((sp.1 : Int) - disp).toNat sp.1 sp.2 s)

/-- A WINDOW fault: reason in [24:21], the window or furrow in [20:16], its image at +0x10 (R168, R218). -/
def windowTrap (reason num : Nat) (img : Word) (store : Bool) : TrapInfo :=
  ⟨.window, reason * 2 ^ 21 + (num * 2 ^ 16 ||| (if store then 2 ^ 16 else 0)), img⟩

/-- Order 1 of R168 for the window side of `ldw` and `stw` (R173): its displacement. -/
def moveWindow (s : State) (num : Nat) (img : BitVec 64) (store : Bool) : Except TrapInfo Int :=
  if winFmt img == .none then .error (windowTrap 0 num img store)
  else if packed (winFmt img) && winStride img != 1 then .error (windowTrap 2 num img store)
  else match winPhys s img with
    | none => .error (windowTrap 1 num img store)
    | some d => .ok d

/-! ### Issue -/

def accessEa (s : State) (ab : BitVec 6) (off : BitVec 16) : Word := getReg s ab + off.signExtend 64

/-- Issue an access: it enters the list with its issue cycle, class and marks (R162, R178). -/
def addAccess (isLoad : Bool) (ac : BitVec 3) (va : Word) (lat : Nat) (kind : AccessKind) (s : State) : State :=
  { s with
    task.accesses := s.task.accesses ++
      [⟨s.task.nextId, isLoad, s.now, ac, (cur s).marks, (cur s).epoch, va, s.now + lat, pcOf s, kind, []⟩]
    task.nextId := s.task.nextId + 1 }

/-- Reserve n slots of a queue for a load; their numbers. -/
def reserveSlots (q : Fin 20) : Nat → State → List Nat × State
  | 0, s => ([], s)
  | n + 1, s =>
    let id := s.task.nextId
    let r := reserveSlots q n (qReserve q (some (cur s).marks) s)
    (id :: r.1, r.2)

/-- A queue load that has passed its checks: room, slots, the access (R162, R169). -/
def queueLoad (sp : Bool) (ss : List Seg) (sz : Sz) (q : Fin 20) (ac : BitVec 3) (va : Word) (lat : Nat) (zp : Bool)
    (s : State) : Option State :=
  if qRoom s q (elemCount sz) then
    let r := reserveSlots q (elemCount sz) s
    some (addAccess true ac va lat (.load sp ss sz q r.1 zp) r.2)
  else none

/-- A global queue load at an address. -/
def globalLoad (sz : Sz) (q : Fin 20) (ac : BitVec 3) (ea : Word) (zp : Bool) (fin : State → State) (s : State) : Result :=
  if misaligned ea (szBytes sz) then .trap (trapAt .align ea)
  else match globalCheck s .l false ea (szBytes sz) true false .unbound with
    | .error t => .trap t
    | .ok ps =>
      match queueLoad false (piecesSegs ps) sz q ac ea (piecesLatency ps) zp s with
      | none => .wait s
      | some s1 => .async (fin (tlbUse .l ps s1))

def execLd (h : Hdr) (zp : Bool) (sz : Sz) (q : Fin 8) (ab : BitVec 6) (ac : BitVec 3) (off : BitVec 16) (s : State) : Out :=
  issue h [rId ab] (fun s => globalLoad sz (lqIdx q) ac (accessEa s ab off) zp id s) s

def execLdi (h : Hdr) (sz : Sz) (q : Fin 4) (ab : BitVec 6) (ac : BitVec 3) (off : BitVec 16) (s : State) : Out :=
  issue h [rId ab] (fun s => globalLoad sz (iqIdx q) ac (accessEa s ab off) false id s) s

/-- An index scaled by the access size. -/
def scaledIndex (v : Elem) (sz : Sz) : Word := BitVec.ofNat 64 (v.toNat * szBytes sz)

/-- `ldg`. A poisoned index is taken before ALIGN, PROT and PAGE, since the address comes from it: DESIGN CHOICE (log 81). -/
def execLdg (h : Hdr) (zp : Bool) (sz : Sz) (iq : Fin 4) (q : Fin 8) (ab : BitVec 6) (ac : BitVec 3) (off : BitVec 16)
    (s : State) : Out :=
  issue h [rId ab] (fun s =>
    match qHead s (iqIdx iq) with
    | none => .wait s
    | some e =>
      match e.poison with
      | some va => .trap (trapAt .eccUc va)
      | none => globalLoad sz (lqIdx q) ac (accessEa s ab off + scaledIndex (e.val.getD 0) sz) zp (qPop (iqIdx iq)) s) s

def execLdp (h : Hdr) (sz : Sz) (q : Fin 8) (ab : BitVec 6) (ac : BitVec 3) (off : BitVec 16) (s : State) : Out :=
  issue h [rId ab] (fun s =>
    let ea := accessEa s ab off
    match spadCheck s false ea (szBytes sz) false with
    | .error t => .trap t
    | .ok p =>
      if anyBad s.spadBad p (szBytes sz) then .trap (trapAt .eccUc ea)
      else match queueLoad true [⟨p, szBytes sz⟩] sz (lqIdx q) ac ea 12 false s with
      | none => .wait s
      | some s1 => .async (touchGuards ea.toNat p (szBytes sz) s1)) s

/-- The rows of a tile in memory: pitch in [31:0], scale offset in [63:32] of the pitch register (R171). -/
def tilePitch (p : Word) : Word := (p.extractLsb' 0 32).signExtend 64
def tileScale (p : Word) : Word := (p.extractLsb' 32 32).signExtend 64
def tileRuns (f : Fmt) (ea p : Word) : List (Word × Nat) :=
  (List.range 32).map (fun r => (ea + BitVec.ofNat 64 r * tilePitch p, 4 * fmtBits f)) ++
    (if fmtM f then [(ea + tileScale p, 128)] else [])
def tileMisaligned (f : Fmt) (ea p : Word) : Bool :=
  misaligned ea 8 || misaligned (tilePitch p) 8 || (fmtM f && misaligned (tileScale p) 4)

def pitchReg (p : BitVec 4) : BitVec 6 := p.setWidth 6

def execLdr (h : Hdr) (f : BitVec 4) (pitch : BitVec 4) (ab : BitVec 6) (ac : BitVec 3) (off : BitVec 16) (s : State) : Out :=
  issue h [rId ab, rId (pitchReg pitch)] (fun s =>
    let fi : Fin 16 := f.toFin
    let v := furOf s fi
    let ea := accessEa s ab off
    let p := getReg s (pitchReg pitch)
    if v.cap = 0 then .trap (windowTrap 0 f.toNat (furrowImage v) false)
    else if tileMisaligned v.fmt ea p then .trap (trapAt .align ea)
    else match runsCheck s .l false (tileRuns v.fmt ea p) true false (.furrow fi) with
      | .error t => .trap t
      | .ok ps =>
        if furrowFull v then .wait s
        else
          let ss := piecesSegs ps
          let n := ((ps.filter (fun x => x.2.2.len != 0)).length)
          .async (tlbUse .l ps (addAccess true ac ea (piecesLatency ps) (.loadTile (ss.take n) [] fi (nextSlot v))
            (reserveSlot fi s)))) s

def winBytes (img : BitVec 64) : Nat := (winCount img * fmtBits (winFmt img) + 7) / 8

def winInto (img : BitVec 64) : Into :=
  match winSpan img with
  | some (a, b) => .region a.toNat (b - a).toNat
  | none => .unbound

def execLdw (h : Hdr) (w : BitVec 5) (ab : BitVec 6) (ac : BitVec 3) (off : BitVec 16) (s : State) : Out :=
  issue h [rId ab, wId w] (fun s =>
    let img := winOf s w
    let ea := accessEa s ab off
    if winCount img = 0 then .done s 0
    else match moveWindow s w.toNat img false with
      | .error t => .trap t
      | .ok _ =>
        if misaligned ea (elemSize (winFmt img)) then .trap (trapAt .align ea)
        else match globalCheck s .l false ea (winBytes img) true false (winInto img) with
          | .error t => .trap t
          | .ok ps => .async (tlbUse .l ps (addAccess true ac ea (piecesLatency ps) (.loadWindow (piecesSegs ps) img) s))) s

/-- `pf`: a translation for the stream's TLB; a prefetch that would fault is dropped (R174). -/
def execPf (h : Hdr) (_tr : Bool) (ab : BitVec 6) (off : BitVec 16) (s : State) : Out :=
  issue h [rId ab] (fun s =>
    let a : TlbAgent := if issuerOf s == .s then .s else .l
    match globalCheck s a false (accessEa s ab off) 1 true false .unbound with
    | .error _ => .done s 0
    | .ok ps => .done (ps.foldl (fun s p => tlbLoad a p.2.1 s) s) 0) s

/-- The elements a store takes from the head of a queue, from position i on: none while one is not present. -/
def headElems (s : State) (q : Fin 20) (i n : Nat) : Option (List QSlot) :=
  let l := ((qPresent s q).drop i).take n
  if l.length = n then some l else none

def slotsPoison (l : List QSlot) : Option Word := l.findSome? (·.poison)
def slotsVal (l : List QSlot) : Nat := packElems 32 (l.map (fun e => (e.val.getD 0).toNat))

def popN (q : Fin 20) : Nat → State → State
  | 0, s => s
  | n + 1, s => popN q n (qPop q s)

/-- A global store of bytes that has its data: checks, Sluice, the access (R168, R170, R184). -/
def globalStore (ac : BitVec 3) (ea : Word) (bs : List Byte) (poison : Option Word) (fin : State → State) (s : State) : Result :=
  if misaligned ea bs.length then .trap ⟨.align, 0x10000, ea⟩
  else match globalCheck s .s false ea bs.length false true .unbound with
    | .error t => .trap t
    | .ok ps =>
      match poison with
      | some va => .trap ⟨.eccUc, 0x10000, va⟩
      | none =>
        let n := egressBytes ps
        if !egressPassed s .sStore s.task.ctx n then .wait (egressAsk .sStore s.task.ctx n s)
        else .async (egressDone .sStore s.task.ctx n (tlbUse .s ps
          (addAccess false ac ea 1 (.store false (piecesSegs ps) bs none) (fin s))))

def execSt (h : Hdr) (sz : Sz) (q : Fin 8) (ab : BitVec 6) (ac : BitVec 3) (off : BitVec 16) (s : State) : Out :=
  issue h [rId ab] (fun s =>
    let n := elemCount sz
    match headElems s (sqIdx q) 0 n with
    | none => .wait s
    | some l => globalStore ac (accessEa s ab off) (leBytes (szBytes sz) (slotsVal l)) (slotsPoison l) (popN (sqIdx q) n) s) s

def execStg (h : Hdr) (sz : Sz) (iq q : Fin 8) (ab : BitVec 6) (ac : BitVec 3) (off : BitVec 16) (s : State) : Out :=
  issue h [rId ab] (fun s =>
    let n := elemCount sz
    match headElems s (sqIdx iq) 0 1, headElems s (sqIdx q) (if iq == q then 1 else 0) n with
    | some [e], some l =>
      globalStore ac (accessEa s ab off + scaledIndex (e.val.getD 0) sz) (leBytes (szBytes sz) (slotsVal l))
        (slotsPoison (e :: l)) (fun s => popN (sqIdx q) n (qPop (sqIdx iq) s)) s
    | _, _ => .wait s) s

def execStp (h : Hdr) (sz : Sz) (q : Fin 8) (ab : BitVec 6) (ac : BitVec 3) (off : BitVec 16) (s : State) : Out :=
  issue h [rId ab] (fun s =>
    let n := elemCount sz
    let ea := accessEa s ab off
    match headElems s (sqIdx q) 0 n with
    | none => .wait s
    | some l =>
      match spadCheck s false ea (szBytes sz) true with
      | .error t => .trap { t with detail := 0x10000 }
      | .ok p =>
        match slotsPoison l with
        | some va => .trap ⟨.eccUc, 0x10000, va⟩
        | none =>
          .async (touchGuards ea.toNat p (szBytes sz) (addAccess false ac ea 1
            (.store true [⟨p, szBytes sz⟩] (leBytes (szBytes sz) (slotsVal l)) none) (popN (sqIdx q) n s)))) s

/-- The bytes that leave through `stw`, as one run of elements. -/
def windowOut (s : State) (img : BitVec 64) (disp : Int) : List Byte :=
  leBytes (winBytes img) (packElems (fmtBits (winFmt img)) (getElems s img disp 0 (winCount img)))

def windowBad (s : State) (img : BitVec 64) (disp : Int) : Bool :=
  (List.range (winCount img)).any (fun i => (elemBad s img disp i).isSome)

/-- The bytes that `stw` and `stt` read at their issue are those that S's earlier `stp`s, and L's loads before the paired
mark, leave: both wait for these at issue. The manual gives no such wait: DESIGN CHOICE (log 82). -/
def bytesSettled (s : State) : Bool :=
  !s.task.accesses.any (fun a => !a.isLoad && (kindSpace a.kind).1) && decide (s.task.s.marks ≤ s.task.l.marks) &&
    !s.task.accesses.any (fun a => a.isLoad && decide (a.marks < s.task.s.marks))

def execStw (h : Hdr) (w : BitVec 5) (ab : BitVec 6) (ac : BitVec 3) (off : BitVec 16) (s : State) : Out :=
  issue h [rId ab, wId w] (fun s =>
    let img := winOf s w
    let ea := accessEa s ab off
    if winCount img = 0 then .done s 0
    else match moveWindow s w.toNat img true with
      | .error t => .trap t
      | .ok disp =>
        if misaligned ea (elemSize (winFmt img)) then .trap ⟨.align, 0x10000, ea⟩
        else match globalCheck s .s false ea (winBytes img) false true .unbound with
          | .error t => .trap t
          | .ok ps =>
            if !bytesSettled s then .wait s
            else
            let sp := (winSpan img).getD (0, 0)
            let lo := sp.1.toNat
            let len := (sp.2 - sp.1).toNat
            match boundMeets s false lo len with
            | some a => .trap (boundTrap true a)
            | none =>
              match checkTiles 0 disp (tilesMeeting s ((lo : Int) + disp).toNat len) s with
              | (s1, some t) => .trapKeep s1 t
              | (s1, none) =>
                if windowBad s1 img disp then .trapKeep s1 ⟨.eccUc, 0x10000, BitVec.ofNat 64 lo⟩
                else
                  let n := egressBytes ps
                  if !egressPassed s1 .sStore s.task.ctx n then .wait (egressAsk .sStore s.task.ctx n s1)
                  else
                    .async (egressDone .sStore s.task.ctx n (tlbUse .s ps (touchElems img disp 0 (winCount img)
                      (addAccess false ac ea 1 (.store false (piecesSegs ps) (windowOut s1 img disp) none) s1))))) s

/-- The tiles of a furrow that unfinished `stt`s have claimed (R433). -/
def claimed (s : State) (f : Fin 16) : Nat :=
  (s.task.accesses.filter (fun a => match a.kind with
    | .store _ _ _ (some g) => g == f
    | _ => false)).length

def execStt (h : Hdr) (keep : Bool) (f : BitVec 4) (pitch : BitVec 4) (ab : BitVec 6) (ac : BitVec 3) (off : BitVec 16)
    (s : State) : Out :=
  issue h [rId ab, rId (pitchReg pitch)] (fun s =>
    let fi : Fin 16 := f.toFin
    let v := furOf s fi
    let ea := accessEa s ab off
    let p := getReg s (pitchReg pitch)
    if v.cap = 0 then .trap (windowTrap 0 f.toNat (furrowImage v) true)
    else if tileMisaligned v.fmt ea p then .trap ⟨.align, 0x10000, ea⟩
    else match runsCheck s .s false (tileRuns v.fmt ea p) false true .unbound with
      | .error t => .trap t
      | .ok ps =>
        if !bytesSettled s then .wait s
        else if furrowBound s fi then .trap (boundTrap true v.base)
        else
          let i := if keep then 0 else claimed s fi
          if v.present ≤ i then .wait s
          else
            let slot := slotNum v i
            let a := slotPhys s v slot
            let n := slotBytes v.fmt
            match checkTiles slot ((a : Int) - slotAt v slot) (slotRec s fi slot).toList s with
            | (s1, some t) => .trapKeep s1 t
            | (s1, none) =>
              if anyBad s1.spadBad a n then .trapKeep s1 ⟨.eccUc, 0x10000, BitVec.ofNat 64 (slotAt v slot)⟩
              else
                let out := egressBytes ps
                if !egressPassed s1 .sStore s.task.ctx out then .wait (egressAsk .sStore s.task.ctx out s1)
                else
                  .async (egressDone .sStore s.task.ctx out (tlbUse .s ps (touchGuards (slotAt v slot) a n
                    (addAccess false ac ea 1 (.store false (piecesSegs ps) (memRead s1.spad a n)
                      (if keep then none else some fi)) s1))))) s

/-! ### Queue control (R175) -/

/-- A load that L's `qfl` reaches: issued before its latest mark, or before the `qfl` when it has issued none (R160). -/
def flushReaches (marks m : Nat) : Bool := marks == 0 || decide (m < marks)

def flushed (s : State) (q : Fin 20) (a : Access) : Bool :=
  match a.kind with
  | .load _ _ _ q' _ _ => q' == q && flushReaches s.task.l.marks a.marks
  | _ => false

/-- A load whose elements a `qfl` of this queue discards: it fills no slot. -/
def discarded (q : Fin 20) (a : Access) : Bool :=
  match a.kind with
  | .load _ _ _ q' [] _ => q' == q
  | _ => false
def discard (a : Access) : Access :=
  match a.kind with
  | .load sp ss sz q _ zp => { a with kind := .load sp ss sz q [] zp }
  | _ => a

/-- L's `qfl` at its issue: of the loads that it reaches, those that have not started at memory are dropped, and the
others go on with their data discarded (R159, R160). A load has started once nothing holds it back. -/
def flushLoads (q : Fin 20) (s : State) : State :=
  let gone (a : Access) : Bool := flushed s q a && !canPerform s a
  { s with
    task.accesses := (s.task.accesses.filter (fun a => !gone a)).map (fun a => if flushed s q a then discard a else a)
    task.pushes := s.task.pushes ++ (s.task.accesses.filter gone).flatMap (fun a => a.pushes.map (fun p => ⟨p.1, p.2, s.now⟩)) }

/-- A `qfl` acts after the pops of its cycle (R175): the elements present go, and for L those still due from the loads
that it reaches. -/
def applyFlush (s : State) (f : Flush) : State :=
  let rest := (qOf s f.q).drop (qPresent s f.q).length
  setQ f.q (match f.marks with
    | none => rest
    | some m => rest.filter (fun e => match e.load with
      | some k => !flushReaches m k
      | none => true)) s
def applyFlushes (s : State) : State := { s.task.flushes.foldl applyFlush s with task.flushes := [] }

/-- `qfl` (R160, R175): on C and S it finishes at issue; L waits for the loads that have started. -/
def execQfl (h : Hdr) (q : QName) (s : State) : Out :=
  issue h [] (fun s =>
    let qi := qnameIdx q
    let put (m : Option Nat) (s : State) : State := { s with task.flushes := s.task.flushes ++ [⟨qi, m⟩] }
    if issuerOf s == .l then
      let s1 := if hasIssued s then s else put (some s.task.l.marks) (flushLoads qi s)
      if s1.task.accesses.any (discarded qi) then .waitIssued s1 else .done s1 0
    else .done (put none s) 0) s

def execQln (h : Hdr) (dst : QlnDst) (q : QName) (s : State) : Out :=
  issue h [] (fun s =>
    let n := (qPresent s (qnameIdx q)).length
    match dst with
    | .areg d => writeReg d (BitVec.ofNat 64 n) 1 s
    | .ereg e => if latchRoom s then .done (latchReg (mapE s e) (BitVec.ofNat 32 n) (s.now + 1) 1 s) 1 else .wait s) s

/-! ### The steps that perform issued accesses -/

def findAccess (s : State) (id : Nat) : Option Access := s.task.accesses.find? (fun a => a.id == id)

/-- The access is performed and delivered: it leaves the list and its word makes its pushes (R40). -/
def accessDone (a : Access) (s : State) : State :=
  { s with
    task.accesses := s.task.accesses.filter (fun b => b.id != a.id)
    task.pushes := s.task.pushes ++ a.pushes.map (fun p => ⟨p.1, p.2, s.now⟩) }

def fillSlots (q : Fin 20) (poison : Option Word) : List Nat → List Elem → State → State
  | id :: ids, v :: vs, s => fillSlots q poison ids vs (qFill q id v poison s)
  | _, _, s => s

/-- LOAD_ARRIVAL: the data of a queue load arrives (R162, R164, R169, R176). A poison record holds
the access's own addresses: DEDUCED (log 69). -/
def execLoadArrival (id : Nat) (s : State) : Out :=
  match findAccess s id with
  | none => .next s
  | some a =>
    match a.kind with
    | .load sp ss sz q slots zp =>
      if !canPerform s a then .next s
      else
        let bad := segsBad (if sp then s.spadBad else s.memBad) ss
        let v := leVal (segRead (if sp then s.spad else s.mem) ss)
        let s1 := if bad && zp then
            logAdd .poison [s.task.ctx, s.task.lid.toNat, s.die.toNat, s.core.toNat, 1, a.va.toNat,
              (ss.headD ⟨0, 0⟩).pa, a.pc.toNat] s
          else s
        .next (accessDone a (fillSlots q (if bad && !zp then some a.va else none) slots
          (elemsOf sz (if bad && zp then 0 else v)) s1))
    | _ => .next s

/-- Whether each byte of some runs is poisoned. -/
def badBytes (bad : List Nat) (ss : List Seg) : List Bool :=
  ss.flatMap (fun g => (List.range g.len).map (fun i => bad.contains (g.pa + i)))

/-- Write window elements i, i + 1, … in order; the bytes of one whose source bytes were poisoned are marked, until a later
one is written over them (R176, R177). -/
def putMarked (img : BitVec 64) (disp : Int) (flags : List Bool) : Nat → List Nat → State → State
  | _, [], s => s
  | i, v :: vs, s =>
    let w := fmtBits (winFmt img)
    let src := bitSpan (i * w) w
    putMarked img disp flags (i + 1) vs
      (poisonBytes (bitSpan (elemBit img disp i) w).1 ((flags.drop src.1).take src.2) (putElem (elemBit img disp i) w v s))

/-- ACCESS_PERFORMED: an `ldw` or a store is performed (R159, R172, R173, R286, R331). -/
def execAccessPerformed (id : Nat) (s : State) : Out :=
  match findAccess s id with
  | none => .next s
  | some a =>
    if !canPerform s a then .next s
    else match a.kind with
      | .loadWindow ss img =>
        match winPhys s img with
        | none => .next (accessDone a s)
        | some disp =>
          let vs := unpackElems (fmtBits (winFmt img)) (winCount img) (leVal (segRead s.mem ss))
          let flags := badBytes s.memBad ss
          let s1 := touchElems img disp 0 (winCount img)
            (if flags.any (·) then putMarked img disp flags 0 vs s else putElems img disp 0 vs s)
          .next (accessDone a (noteLicence (winInto img) ss s1))
      | .store sp ss bs pop =>
        let s1 := if sp then spadWrite (ss.headD ⟨0, 0⟩).pa bs s else noteEgress (memWriteBy ss bs s)
        .next (accessDone a (match pop with
          | some f => popTile f s1
          | none => s1))
      | _ => .next s

/-- SLOT_JOIN: the bytes and scales of an `ldr` have arrived: the slot is filled, its headland generated, and it joins
its furrow in order (R171, R177, R257, R327). -/
def execSlotJoin (id : Nat) (s : State) : Out :=
  match findAccess s id with
  | none => .next s
  | some a =>
    match a.kind with
    | .loadTile rows scales f slot =>
      if !canPerform s a then .next s
      else
        let ss := rows ++ scales
        let v := furOf s f
        let s1 := touchGuards (slotAt v slot) (slotPhys s v slot) (slotBytes v.fmt) s
        .next (accessDone a (noteLicence (.furrow f) ss (fillSlot f slot (segRead s.mem ss) (badBytes s.memBad ss) s1)))
    | _ => .next s

/-- What waits for a sequencer, itself or through what it must follow: the numbers of issued accesses, and how many actions
at the head of the compare queue do not. -/
structure Held where
  ids  : List Nat
  free : Nat
deriving DecidableEq, Repr, Inhabited

/-- An access whose mark has no partner yet, that K's waiting load precedes, or that must follow one that is held. -/
def accessHeld (s : State) (h : Held) (a : Access) : Bool :=
  decide ((if a.isLoad then s.task.s.marks else s.task.l.marks) < a.marks) || triedBefore s a ||
    s.task.accesses.any (fun p => p.id != a.id && h.ids.contains p.id && accessBefore s a p (decide (p.id < a.id))) ||
    (s.checkq.drop h.free).any (actionBefore a)
/-- An action that finds no room in a task queue, which its task must empty, or must follow an access that is held. -/
def actionHeld (s : State) (h : Held) (c : Checked) : Bool :=
  (match c.act with
    | .renq queue die core _ => !queueRoom s queue die core 0
    | _ => false) ||
    s.task.accesses.any (fun p => h.ids.contains p.id && accessBeforeAction c p)
def holdMore (s : State) (h : Held) : Held :=
  ⟨(s.task.accesses.filter (accessHeld s h)).map (·.id), (s.checkq.takeWhile (fun c => !actionHeld s h c)).length⟩
def heldLoop (s : State) : Nat → Held → Held
  | 0, h => h
  | n + 1, h => heldLoop s n (holdMore s h)
def heldNow (s : State) : Held :=
  heldLoop s (s.task.accesses.length + s.checkq.length + 1) ⟨[], s.checkq.length⟩

/-- An issued access, of L, S or K, that is not performed uses a physical run as a context. One that waits for a sequencer
counts no more: the acknowledgement never waits on one (R182). -/
def usesRun (s : State) (p : Nat × Seg) : Bool :=
  let meets (x : Bool × List Seg) : Bool := !x.1 && x.2.any (fun g => overlaps g.pa g.len p.2.pa p.2.len)
  let h := heldNow s
  (s.task.ctx == p.1 && s.task.accesses.any (fun a => !h.ids.contains a.id && meets (kindSpace a.kind))) ||
    (s.checkq.take h.free).any (fun c =>
      (if c.firm then 0 else s.task.ctx) == p.1 && (actionSpace c.act).any (fun x => meets x.1))

/-- Invalidations are acknowledged once the issued accesses that used the entry are performed (R182). -/
def acknowledge (s : State) : State := { s with shootdowns := s.shootdowns.filter (usesRun s) }

/-- TLB_INVALIDATE: every TLB of the core drops the translation, in whatever state its streams are, and the page tables
hold what the remap made of the page, where that can exist; the acknowledgement may still be to come (R110, R182). -/
def execTlbInvalidate (ctx vbase : Nat) (e : Option PageEntry) (s : State) : Out :=
  let hit (p : PageEntry) : Bool := p.ctx == ctx && p.vbase == vbase
  let keep (l : List PageEntry) : List PageEntry := l.filter (fun p => !hit p)
  let old := (s.pages ++ s.tlbK ++ s.tlbL ++ s.tlbS).filter hit
  .next (acknowledge { s with
    tlbK := keep s.tlbK, tlbL := keep s.tlbL, tlbS := keep s.tlbS, tlbCp := keep s.tlbCp, tlbMc := keep s.tlbMc
    pages := keep s.pages ++ e.toList.filter pageFits
    shootdowns := s.shootdowns ++ old.map (fun p => (ctx, ⟨p.pbase, Config.pageSize p.tier⟩)) })

end Sys2Proof.Machine
end

