-- ==== Sys2Proof/Machine/Element.lean ====
section
/-! DEFINITION. Element instructions of C (chapter 07): arithmetic, constants, moves, the rotating region, scratchpad
access, and the landing of results. -/

namespace Sys2Proof.Machine

/-! ### Arithmetic (R197 to R203) -/

/-- Parity identities of source operands; a poisoned queue head comes before a parity error (R206). -/
def eReads (s : State) (os : List EOp) : List Nat :=
  match sources os s with
  | .error (.ecc _) => []
  | _ => os.flatMap (opIds s)

/-- An element instruction with one result of latency `lat`. -/
def element (h : Hdr) (ed : EOp) (srcs : List EOp) (lat : Nat) (f : List Elem → Elem) (s : State) : Out :=
  issue h (eReads s srcs) (elementOp ed srcs lat (fun _ vs => f vs)) s

def fopFn (fn : FopFn) (a b : Elem) : Elem :=
  match fn with
  | .fadd => add32 a b
  | .fsub => sub32 a b
  | .fmul => mul32 a b
  | .fmin => round32 (Ex.min (val32 a) (val32 b))
  | .fmax => round32 (Ex.max (val32 a) (val32 b))
  | .fsgn => (a &&& 0x7FFFFFFF) ||| (b &&& 0x80000000)
  | .fabs => a &&& 0x7FFFFFFF
  | .fneg => a ^^^ 0x80000000

def fopUnary : FopFn → Bool
  | .fabs | .fneg => true
  | _ => false

def execFop (h : Hdr) (fn : FopFn) (ed ea eb : EOp) (s : State) : Out :=
  element h ed (if fopUnary fn then [ea] else [ea, eb]) 4 (fun vs => fopFn fn (arg vs 0) (arg vs 1)) s

/-- The addend operand: the register ed, or the head of a load queue, popped after ea and eb (R196, R198). -/
def addendOp (c : Addend) (ed : EOp) : EOp :=
  match c with
  | .ed => ed
  | .lq n => .lq n

def execFma (h : Hdr) (c : Addend) (ed ea eb : EOp) (s : State) : Out :=
  element h ed [ea, eb, addendOp c ed] 4 (fun vs => fma32 false (arg vs 0) (arg vs 1) (arg vs 2)) s

def execFnma (h : Hdr) (c : Addend) (ed ea eb : EOp) (s : State) : Out :=
  element h ed [ea, eb, addendOp c ed] 4 (fun vs => fma32 true (arg vs 0) (arg vs 1) (arg vs 2)) s

def execFrcp (h : Hdr) (ed ea : EOp) (s : State) : Out :=
  element h ed [ea] 6 (fun vs => estimate (vunEx .rcp (val32 (arg vs 0)))) s

def execFrsq (h : Hdr) (ed ea : EOp) (s : State) : Out :=
  element h ed [ea] 6 (fun vs => estimate (vunEx .rsq (val32 (arg vs 0)))) s

/-- Whether a refinement step hands its estimate on unchanged: a zero or an infinity (R200). -/
def keepsEstimate (x : Elem) : Bool := (val32 x).isZero || (!(val32 x).isFin && !isNan32 x)

def frfrFn (a x : Elem) : Elem :=
  if isNan32 a || isNan32 x then nan32
  else if keepsEstimate x then x
  else mul32 x (round32 (Ex.sub false (.fin false 2 1) (Ex.mul (val32 a) (val32 x))))

def frfsFn (a x : Elem) : Elem :=
  if isNan32 a || isNan32 x then nan32
  else if keepsEstimate x then x
  else
    let h := mul32 a x
    let e := round32 (Ex.sub false (.fin false 3 2) (Ex.mul (Ex.mul (.fin false 1 2) (val32 h)) (val32 x)))
    mul32 x e

def execFrfr (h : Hdr) (ed ea eb : EOp) (s : State) : Out :=
  element h ed [ea, eb] 6 (fun vs => frfrFn (arg vs 0) (arg vs 1)) s

def execFrfs (h : Hdr) (ed ea eb : EOp) (s : State) : Out :=
  element h ed [ea, eb] 6 (fun vs => frfsFn (arg vs 0) (arg vs 1)) s

/-- A compare: its predicate is written for every reader that issues after it (R192, R201). -/
def compareOp (pd : BitVec 4) (srcs : List EOp) (f : List Elem → Bool) (s : State) : Result :=
  match sources srcs s with
  | .error e => stallResult s e
  | .ok (vs, s1) => .done (setPred pd (f vs) s1) 1

def execFcmp (h : Hdr) (cc : FcmpCc) (pd : BitVec 4) (ea eb : EOp) (s : State) : Out :=
  issue h (eReads s [ea, eb]) (compareOp pd [ea, eb] (fun vs => fcmpRel cc (val32 (arg vs 0)) (val32 (arg vs 1)))) s

def execIcmp (h : Hdr) (cc : CmpCc) (pd : BitVec 4) (ea eb : EOp) (s : State) : Out :=
  issue h (eReads s [ea, eb]) (compareOp pd [ea, eb] (fun vs => cmpRel cc (arg vs 0) (arg vs 1))) s

/-- `fcvt`: SR draws from C's channel where the conversion is inexact (R202). -/
def execFcvt (h : Hdr) (dst src : Fmt) (r : Rnd) (ed ea : EOp) (s : State) : Out :=
  issue h (eReads s [ea]) (fun s =>
    if !latchRoom s || !destRoom s ed then .wait s
    else match sources [ea] s with
      | .error e => stallResult s e
      | .ok (vs, s1) =>
        let p := roundDraw 1 dst r (elemVal src (arg vs 0).toNat) s1
        .done (putResult ed (BitVec.ofNat 32 p.1) 2 p.2) 2) s

def iopFn (fn : IopFn) (a b : Elem) : Elem :=
  let n := (b.extractLsb' 0 5).toNat
  match fn with
  | .add => a + b
  | .sub => a - b
  | .and => a &&& b
  | .or => a ||| b
  | .xor => a ^^^ b
  | .shl => a <<< n
  | .shr => a >>> n
  | .sar => a.sshiftRight n
  | .mul => a * b
  | .mulh => BitVec.ofInt 32 (a.toInt * b.toInt / (2 ^ 32 : Nat))
  | .min => if a.slt b then a else b
  | .max => if a.slt b then b else a
  | .minz => if a.ult b then a else b
  | .maxz => if a.ult b then b else a

def execIop (h : Hdr) (fn : IopFn) (ed ea eb : EOp) (s : State) : Out :=
  element h ed [ea, eb] 1 (fun vs => iopFn fn (arg vs 0) (arg vs 1)) s

/-! ### Constants, moves, select (R204) -/

def execEli (h : Hdr) (ed : EOp) (imm : BitVec 18) (s : State) : Out :=
  element h ed [] 1 (fun _ => imm.signExtend 32) s

def execElih (h : Hdr) (ed : Fin 768) (imm : BitVec 14) (s : State) : Out :=
  element h (.e ed) [.e ed] 1 (fun vs => imm ++ (arg vs 0).extractLsb' 0 18) s

def execEmov (h : Hdr) (ed ea : EOp) (s : State) : Out := element h ed [ea] 1 (fun vs => arg vs 0) s

/-- `esel` always executes and reads both sources; its pq field selects. -/
def execEsel (h : Hdr) (ed ea eb : EOp) (s : State) : Out :=
  issue (Hdr.noGuard h) (match sources [ea, eb] s with
      | .error (.ecc _) => []
      | _ => pId h.pq :: eReads s [ea, eb])
    (elementOp ed [ea, eb] 1 (fun s vs => if guardOf s h then arg vs 0 else arg vs 1)) s

/-! ### The rotating region (R189, R190) -/

/-- `rot` names a region that lies within the registers and an epilogue of at most 8. -/
def rotOk (imm : BitVec 18) : Bool :=
  let rb := (imm.extractLsb' 0 7).toNat
  let rs := (imm.extractLsb' 7 7).toNat
  decide (rs ≤ 96) && decide (rb + rs ≤ 96) && decide ((imm.extractLsb' 14 4).toNat ≤ 8)

/-- The stage predicates p8 to p15 with their values. -/
def stageIds (p : BitVec 16) : List (Nat × Word) := (List.range 8).map (fun k => (72 + k, if p.getLsbD (8 + k) then 1 else 0))

/-- One instruction writes the stage predicates, and with them the registers `ws` (R120, R190). -/
def setStages (p : BitVec 16) (ws : List (Nat × Word)) (c : Ctx) : Ctx :=
  { rememberAll (ws ++ stageIds p) 1 c with preds := p }

def execRot (h : Hdr) (imm : BitVec 18) (s : State) : Out :=
  issue h [] (fun s =>
    if !rotOk imm then .trap (trapAt .rot (imm.setWidth 64))
    else
      let s1 := { s with
        task.rbase := imm.extractLsb' 0 7, task.rsize := imm.extractLsb' 7 7, task.epi := imm.extractLsb' 14 4
        task.roff := 0 }
      .done (modCtx (issuerOf s) (fun c => setStages ((c.preds &&& 0x00FF) ||| 0x0100) [] c) s1) 0) s

/-- The stage predicates move up by one, and p8 takes a value (R190). -/
def shiftStages (p : BitVec 16) (p8 : Bool) : BitVec 16 :=
  (p &&& 0x00FF) ||| ((p <<< 1) &&& 0xFE00) ||| (if p8 then 0x0100 else 0)

def rotateDown (s : State) : State :=
  let rs := 8 * s.task.rsize.toNat
  if rs = 0 then s else { s with task.roff := BitVec.ofNat 10 ((s.task.roff.toNat + rs - 1) % rs) }

def lbrTarget (pc : Pc) (off : BitVec 18) : Pc := branchTarget pc (off.signExtend 32)

def execLbr (h : Hdr) (n : BitVec 3) (off : BitVec 18) (s : State) : Out :=
  issue h (lcId n :: (List.range 7).map (72 + ·)) (fun s =>
    let v := getLc s n
    let again := decide (1 < v.toNat)
    let pass (k : BitVec 32) : State := rotateDown (modCtx (issuerOf s) (fun c =>
      { setStages (shiftStages c.preds again) [(lcId n, k.setWidth 64)] c with lc := c.lc.set n.toNat k }) s)
    if again then .goto (pass (v - 1)) (lbrTarget (pcOf s) off)
    else
      let s2 := pass 0
      if 1 < s2.task.epi.toNat then .goto { s2 with task.epi := s2.task.epi - 1 } (lbrTarget (pcOf s) off)
      else .done { s2 with task.epi := 0 } 0) s

/-! ### Scratchpad access (R205) -/

def baseOf (s : State) (base : Option (Fin 768)) : Nat :=
  match base with
  | some n => (getE s n).toNat
  | none => 0

def baseIds (s : State) (base : Option (Fin 768)) : List Nat :=
  match base with
  | some n => [eId s n]
  | none => []

/-- The address checks of `eld` and `est`: the physical offset of the word. -/
def elementAddr (s : State) (base : Option (Fin 768)) (off : BitVec 18) : Except TrapInfo (Nat × Nat) :=
  let a : Int := (baseOf s base : Int) + off.toInt
  let w : Word := BitVec.ofInt 64 a
  if a % 4 ≠ 0 then .error (trapAt .align w)
  else if a < 0 then .error (trapAt .prot w)
  else match spadMap s false a.toNat 4 with
    | none => .error (trapAt .prot w)
    | some p => .ok (a.toNat, p)

def execEld (h : Hdr) (ed : EOp) (base : Option (Fin 768)) (off : BitVec 18) (s : State) : Out :=
  issue h (baseIds s base) (fun s =>
    match elementAddr s base off with
    | .error t => .trap t
    | .ok (a, p) =>
      if anyBad s.spadBad p 4 then .trap (trapAt .eccUc (BitVec.ofNat 64 a))
      else if !latchRoom s || !destRoom s ed then .wait s
      else .done (putResult ed (BitVec.ofNat 32 (memWord s.spad p 4)) 8 (touchGuards a p 4 s)) 8) s

def execEst (h : Hdr) (data : Fin 768) (base : Option (Fin 768)) (off : BitVec 18) (s : State) : Out :=
  issue h (eId s data :: baseIds s base) (fun s =>
    match elementAddr s base off with
    | .error t => .trap t
    | .ok (a, p) => .done (touchGuards a p 4 (spadWrite p (leBytes 4 (getE s data).toNat) s)) 0) s

/-! ### Landing (R192, R193, R210) -/

/-- One result lands: its register takes the value, or its slot becomes present. -/
def landOne (l : Latch) (s : State) : State :=
  match l.dest with
  | .reg n =>
    { s with
      task.landedNow := s.task.landedNow ++ [(l, s.task.e[n])]
      task.e := s.task.e.set n.val l.val
      task.c := landReplay n (l.val.setWidth 64) s.task.c }
  | .queue q id => { qFill q id l.val none s with task.landedNow := s.task.landedNow ++ [(l, 0)] }

/-- C holds every landing for the repair of a latch: 4 cycles and the producer's latency (R121, R210). The IDLE of C's next word
stands still with the landings, since C issues nothing meanwhile: DESIGN CHOICE (log 74). -/
def holdLatches (d : Nat) (s : State) : State :=
  { s with
    task.latches := s.task.latches.map (fun l => { l with land := l.land + d })
    task.c.notBefore := Nat.max s.task.c.notBefore s.now + d
    task.c.lastIssue := s.task.c.lastIssue + d }

/-- RESULT_LANDING: the oldest result that is due lands; where several land in one place in one cycle, the
later-issued is kept, because it lands last. One that fails parity is held and its producer re-executed: transient when that
succeeds (R31); where it fails again, C's next word raises PARITY_LASTING (R210). -/
def execResultLanding (s : State) : Out :=
  match s.task.latches.find? (fun l => decide (l.land ≤ s.now)) with
  | none => .next s
  | some l =>
    let rest := s.task.latches.erase l
    match l.corrupt with
    | none => .next (landOne l { s with task.latches := rest })
    | some again =>
      let fixed := s.task.latches.map (fun m => if m == l then { m with corrupt := none } else m)
      let held := holdLatches (4 + l.lat) { s with task.latches := fixed, task.latchFail := s.task.latchFail || again }
      .next (if again then held else logAdd .transient [destCode l.dest] held)

end Sys2Proof.Machine
end

