-- ==== Sys2Proof/Machine/Vector.lean ====
section
/-! DEFINITION. Vector-region instructions (chapter 08): window checks, chunked execution with progress, and every
instruction of the class. One step of C does one chunk. -/

namespace Sys2Proof.Machine

/-! ### Windows of an instruction (R212 to R218) -/

def kindNum (f : Fmt) : Nat := if fmtF f then 1 else if fmtI f then 2 else if fmtM f then 3 else if fmtB f then 4 else 0
def isF (f : Fmt) : Bool := kindNum f == 1
def isI (f : Fmt) : Bool := kindNum f == 2
def isM (f : Fmt) : Bool := kindNum f == 3
def isB (f : Fmt) : Bool := kindNum f == 4
def isFI (f : Fmt) : Bool := isF f || isI f
def isFIB (f : Fmt) : Bool := isF f || isI f || isB f
def isAny (f : Fmt) : Bool := kindNum f != 0

/-- What windows of an instruction must share (R218, order 2): nothing, one kind, one format; `lead` marks the window that
the requirement names first, where that is not the first in field order (R230, R239). -/
inductive Share where
  | free | kind | format | lead
deriving DecidableEq, Repr, Inhabited

/-- A window that an instruction names, with what it requires of it. -/
structure Use where
  num   : BitVec 5
  kinds : Fmt → Bool
  share : Share
  count : Nat → Bool

/-- A window in use: its number, its image and its displacement from named to physical offsets (R157). -/
structure Win where
  num  : BitVec 5
  img  : BitVec 64
  disp : Int
deriving DecidableEq, Repr, Inhabited

def Win.fmt (w : Win) : Fmt := winFmt w.img
def Win.count (w : Win) : Nat := winCount w.img
def Win.get (w : Win) (s : State) (i : Nat) : Nat := getElem s w.img w.disp i
def Win.val (w : Win) (s : State) (i : Nat) : Ex := elemVal w.fmt (w.get s i)
def Win.put (w : Win) (i v : Nat) (s : State) : State := putElem (elemBit w.img w.disp i) (fmtBits w.fmt) v s
def Win.touch (w : Win) (i n : Nat) (s : State) : State := touchElems w.img w.disp i n s

def badWindow (reason : Nat) (num : BitVec 5) (img : BitVec 64) : TrapInfo := windowTrap reason num.toNat img false

/-- Whether a window meets a sharing requirement against the first one that it names. -/
def shares (sh : Share) (a b : BitVec 64) : Bool :=
  match sh with
  | .free | .lead => true
  | .kind => kindNum (winFmt a) == kindNum (winFmt b)
  | .format => winFmt a == winFmt b

/-- The window that a requirement names first. -/
def leader (us : List Use) : Option Use := (us.find? (fun u => u.share == .lead)).or (us.find? (fun u => u.share != .free))

/-- The first window that differs from the one its requirement names first (reason 9). -/
def unlike (s : State) (us : List Use) : Option Use :=
  match leader us with
  | none => none
  | some u => us.find? (fun v => !shares v.share (winOf s u.num) (winOf s v.num))

/-- Positions of two windows of which one is written: they may not intersect; `same`: identical windows may (R216). -/
structure Clash where
  a    : Nat
  b    : Nat
  same : Bool
deriving DecidableEq, Repr, Inhabited

def clashes (s : State) (us : List Use) (c : Clash) : Bool :=
  match us[c.a]?, us[c.b]? with
  | some u, some v =>
    let x := winOf s u.num
    let y := winOf s v.num
    spansMeet x y && !(c.same && winSame x y)
  | _, _ => false

/-- The checks of R218, orders 2 to 7. -/
def checkUses (s : State) (us : List Use) (cs : List Clash) : Except TrapInfo (List Win) :=
  let img (u : Use) : BitVec 64 := winOf s u.num
  let fault (reason : Nat) (u : Use) : Except TrapInfo (List Win) := .error (badWindow reason u.num (img u))
  match us.find? (fun u => winFmt (img u) == .none || !u.kinds (winFmt (img u))) with
  | some u => fault 0 u
  | none =>
    match unlike s us with
    | some u => fault 9 u
    | none =>
      match us.find? (fun u => !packed (winFmt (img u)) && winBase (img u) % elemSize (winFmt (img u)) != 0) with
      | some u => .error (trapAt .align (BitVec.ofNat 64 (winBase (img u))))
      | none =>
        match us.find? (fun u => (winPhys s (img u)).isNone) with
        | some u => fault 1 u
        | none =>
          match us.find? (fun u => packed (winFmt (img u)) && winStride (img u) != 1) with
          | some u => fault 2 u
          | none =>
            match us.find? (fun u => !u.count (winCount (img u))) with
            | some u => fault 3 u
            | none =>
              match cs.find? (clashes s us) with
              | some c =>
                match us[Nat.max c.a c.b]? with
                | some u => fault 4 u
                | none => .ok []
              | none => .ok (us.map (fun u => ⟨u.num, img u, (winPhys s (img u)).getD 0⟩))

/-! ### Timing (R219, R440) -/

/-- Elements per cycle of a format. -/
def perCycle (f : Fmt) : Nat :=
  match fmtBits f with
  | 1 => 1024
  | 32 => 32
  | 64 => 16
  | _ => 64

def fullRate (ws : List Win) : Bool := ws.all (fun w => winBase w.img % 128 == 0 && winStride w.img == 1)
/-- Elements of a chunk, and g. -/
def chunkOf (ws : List Win) : Nat := if fullRate ws then ws.foldl (fun m w => Nat.min m (perCycle w.fmt)) 1024 else 1
def passes (n : Nat) (ws : List Win) : Nat := let e := chunkOf ws; (n + e - 1) / e

/-- The 4-byte words that an element touches. -/
def wordsOf (w : Win) (i : Nat) : List Nat :=
  let sp := bitSpan (elemBit w.img w.disp i) (fmtBits w.fmt)
  (List.range ((sp.1 + sp.2 - 1) / 4 - sp.1 / 4 + 1)).map (sp.1 / 4 + ·)

/-- Conflicts of one group of table accesses: elements that touch a bank at another word than an earlier element. -/
def groupConflicts (seen : List Nat) : List (List Nat) → Nat
  | [] => 0
  | ws :: t =>
    (if ws.any (fun x => seen.any (fun y => x % 32 == y % 32 && x != y)) then 1 else 0) + groupConflicts (seen ++ ws) t

def indexVal (w : Win) (s : State) (i : Nat) : Int := sgn (fmtBits w.fmt) (w.get s i)
/-- An index as a table position, when it is in range. -/
def indexIn (w table : Win) (s : State) (i : Nat) : Option Nat :=
  let t := indexVal w s i
  if 0 ≤ t ∧ t < table.count then some t.toNat else none

def conflictsFrom (idx table : Win) (s : State) (n : Nat) : Nat → Nat → Nat
  | 0, _ => 0
  | f + 1, i =>
    if n ≤ i then 0
    else
      groupConflicts [] ((List.range (Nat.min 8 (n - i))).map (fun k => match indexIn idx table s (i + k) with
        | some t => wordsOf table t
        | none => [])) + conflictsFrom idx table s n f (i + 8)

/-! ### Chunked execution (R219 to R224) -/

/-- What an instruction does: n positions a phase in chunks, a fault before a chunk (and what it still writes), the
chunk itself, and at the end the scalar results. `extra`: cycles that depend on the data. -/
structure Plan where
  n       : Nat
  chunk   : Nat
  phases  : Nat
  cycles  : Nat
  restart : Bool
  fault   : State → VProg → Nat → Nat → Option TrapInfo
  step    : VProg → Nat → Nat → State → VProg × State
  finish  : VProg → State → List (Fin 768 × Elem) × State
  extra   : VProg → Nat := fun _ => 0
  onFault : VProg → State → State := fun _ s => s

def setProg (p : VProg) (s : State) : State := { s with task.vprog := some p }
def holdUntil (t : Nat) (s : State) : State := modCtx .c (fun c => { c with notBefore := t }) s

/-- Completion: scalar results land, and the next word issues, no earlier than the completion cycle (R219). -/
def complete (pl : Plan) (p : VProg) (s : State) : Result :=
  let t := Nat.max s.now (p.start + p.cycles + pl.extra p)
  let r := pl.finish p s
  let s1 := latchRegs (r.1.map (fun q => (mapE r.2 q.1, q.2))) t 1 (setProg p r.2)
  .done (holdUntil t s1) (t - s.now)

/-- The progress with what the word fixes at its issue: its time, and its window registers (R213, R219). -/
def fixAtIssue (pl : Plan) (s : State) (p : VProg) : VProg :=
  if s.task.c.inFlight && (progOf s).isSome then { p with restart := pl.restart }
  else { p with restart := pl.restart, cycles := pl.cycles, windows := s.task.w }

/-- Run one chunk, or end a phase. -/
def runPlan (pl : Plan) (p0 : VProg) (s : State) : Result :=
  let p := fixAtIssue pl s p0
  let endPhase (p : VProg) (s : State) : Result :=
    if p.phase + 1 < pl.phases then .chunk (setProg { p with phase := p.phase + 1, next := 0 } s) else complete pl p s
  if pl.n ≤ p.next then endPhase p s
  else
    let hi := Nat.min (p.next + pl.chunk) pl.n
    match pl.fault s p p.next hi with
    | some t =>
      if s.now < p.start + 8 then .chunk (holdUntil (p.start + 8) (setProg p s))
      else .trapIssued (setProg p (pl.onFault p s)) t
    | none =>
      let r := pl.step p p.next hi s
      let p1 := { r.1 with next := hi }
      if hi < pl.n then .chunk (setProg p1 r.2) else endPhase p1 r.2

/-- The state as a running word sees it: its window registers as they stood when it issued (R213). -/
def asIssued (s : State) : State :=
  match progOf s with
  | some p => if s.task.c.inFlight then { s with task.w := p.windows } else s
  | none => s

/-- The registers whose parity the word looks at: the windows when it issues, and once these have passed, its scalar
operands, which a resumed word takes from its progress (R121, R218 order 8, R224). -/
def vectorReads (us : State → List Use) (cs : List Clash) (scal : List EOp) (ids : List Nat) (s : State) : List Nat :=
  (if s.task.c.inFlight then [] else (us s).map (fun u => wId u.num)) ++
    (match checkUses (asIssued s) (us (asIssued s)) cs with
      | .error _ => []
      | .ok _ => if (progOf s).isSome then [] else eReads s scal ++ ids)

/-- The progress that the word goes on from; a word that `rfi` resumes issues now. -/
def progNow (s : State) : Option VProg := (progOf s).map (fun p => if s.task.c.inFlight then p else { p with start := s.now })

/-- A vector instruction: checks, scalar operands at its first step, a check of them, then its plan. -/
def vectorOf (h : Hdr) (us : State → List Use) (cs : List Clash) (scal : List EOp) (ids : List Nat)
    (refuse : List Win → State → Option TrapInfo)
    (first : List Win → List Elem → VProg → State → VProg × State) (plan : List Win → State → Plan) (s : State) : Out :=
  issue h (vectorReads us cs scal ids s) (fun s =>
    match checkUses (asIssued s) (us (asIssued s)) cs with
    | .error t => .trap t
    | .ok ws =>
      match progNow s with
      | some p => runPlan (plan ws s) p s
      | none =>
        match refuse ws s with
        | some t => .trap t
        | none =>
          match sources scal s with
          | .error e => stallResult s e
          | .ok (vs, s1) =>
            let r := first ws vs ⟨s.task.c.pc, s.now, false, 0, 0, 0, [], 0, s.task.w⟩ s1
            runPlan (plan ws r.2) r.1 r.2) s

def vector (h : Hdr) (us : State → List Use) (cs : List Clash) (scal : List EOp)
    (first : List Win → List Elem → VProg → State → VProg × State) (plan : List Win → State → Plan) (s : State) : Out :=
  vectorOf h us cs scal [] (fun _ _ => none) first plan s

def noFirst (_ : List Win) (_ : List Elem) (p : VProg) (s : State) : VProg × State := (p, s)
/-- The scalar operand goes to CARRY. -/
def carryFirst (_ : List Win) (vs : List Elem) (p : VProg) (s : State) : VProg × State := ({ p with carry := arg vs 0 }, s)

def win (ws : List Win) (i : Nat) : Win := ws.getD i ⟨0, 0, 0⟩

/-- ECC_UC at the first poisoned byte of elements [lo, hi), at its offset as the context names it (R222). -/
def poisonAt (s : State) (w : Win) (i : Nat) : Option TrapInfo :=
  (elemBad s w.img w.disp i).map (fun x => trapAt .eccUc (BitVec.ofInt 64 ((x : Int) - w.disp)))
def poisonIn (srcs : List Win) (s : State) (_ : VProg) (lo hi : Nat) : Option TrapInfo :=
  if s.spadBad.isEmpty then none
  else (List.range (hi - lo)).findSome? (fun k => srcs.findSome? (fun w => poisonAt s w (lo + k)))

/-- Positions lo to hi - 1 in ascending order. -/
def forRange (lo hi : Nat) (f : Nat → State → State) (s : State) : State :=
  (List.range (hi - lo)).foldl (fun s k => f (lo + k) s) s

def touchAll (ws : List Win) (lo hi : Nat) (s : State) : State := ws.foldl (fun s w => w.touch lo (hi - lo) s) s

def noScalars (_ : VProg) (s : State) : List (Fin 768 × Elem) × State := ([], s)

/-- An element-wise instruction: each element is read from the sources and written to `d`. -/
def mapPlan (n cycles : Nat) (ws : List Win) (d : Win) (srcs : List Win) (f : VProg → Nat → State → Nat × State) : Plan where
  n := n
  chunk := chunkOf ws
  phases := 1
  cycles := cycles
  restart := false
  fault := poisonIn srcs
  step p lo hi s := (p, forRange lo hi (fun i s => let r := f p i s; d.put i r.1 r.2) (touchAll ws lo hi s))
  finish := noScalars

/-! ### Element-wise arithmetic (R227 to R232) -/

def opEx (op : VecOp) (rd : Bool) (a b : Ex) : Ex :=
  match op with
  | .add => Ex.add rd a b
  | .sub => Ex.sub rd a b
  | .mul => Ex.mul a b
  | .min => Ex.min a b
  | .max => Ex.max a b

/-- The mode RD gives an exact zero sum the sign - (R68). -/
def isRd (r : Rnd) : Bool := r.mode == .rd

/-- A scalar of the kind of a format: FP32, or INT32 (R217). -/
def scalarEx (f : Fmt) (x : Elem) : Ex := if isF f then val32 x else Ex.ofInt x.toInt

def sameN (n : Nat) (c : Nat) : Bool := c == n
def anyN (_ : Nat) : Bool := true

/-- Count of a window as an instruction reads it now. -/
def cnt (s : State) (w : BitVec 5) : Nat := winCount (winOf s w)

def execVop (h : Hdr) (fn : VecOp) (r : Rnd) (wd wa wb : BitVec 5) (s : State) : Out :=
  vector h (fun s => [⟨wd, isFI, .kind, sameN (cnt s wa)⟩, ⟨wa, isFI, .kind, anyN⟩, ⟨wb, isFI, .kind, sameN (cnt s wa)⟩])
    [⟨0, 1, true⟩, ⟨0, 2, true⟩] [] noFirst
    (fun ws _ =>
      let d := win ws 0
      let a := win ws 1
      let b := win ws 2
      mapPlan a.count (4 + passes a.count ws) ws d [a, b]
        (fun _ i s => roundDraw 1 d.fmt r (opEx fn (isRd r) (a.val s i) (b.val s i)) s)) s

def execVfma (h : Hdr) (neg : Bool) (sc : Option EOp) (r : Rnd) (wd wa wb : BitVec 5) (s : State) : Out :=
  vector h (fun s => [⟨wd, isFI, .kind, sameN (cnt s wa)⟩, ⟨wa, isFI, .kind, anyN⟩, ⟨wb, isFI, .kind, sameN (cnt s wa)⟩])
    [⟨0, 1, true⟩, ⟨0, 2, true⟩] sc.toList carryFirst
    (fun ws _ =>
      let d := win ws 0
      let a := win ws 1
      let b := win ws 2
      mapPlan a.count (4 + passes a.count ws) ws d (if sc.isSome then [a, b] else [a, b, d])
        (fun p i s =>
          let m := Ex.mul (a.val s i) (b.val s i)
          let c := if sc.isSome then scalarEx d.fmt p.carry else d.val s i
          roundDraw 1 d.fmt r (Ex.add (isRd r) (if neg then m.neg else m) c) s)) s

def execVsc (h : Hdr) (fn : VecOp) (r : Rnd) (wd wa : BitVec 5) (ea : EOp) (s : State) : Out :=
  vector h (fun s => [⟨wd, isFI, .kind, sameN (cnt s wa)⟩, ⟨wa, isFI, .kind, anyN⟩])
    [⟨0, 1, true⟩] [ea] carryFirst
    (fun ws _ =>
      let d := win ws 0
      let a := win ws 1
      mapPlan a.count (4 + passes a.count ws) ws d [a]
        (fun p i s => roundDraw 1 d.fmt r (opEx fn (isRd r) (a.val s i) (scalarEx d.fmt p.carry)) s)) s

def vunBits (fn : VunFn) : Bool :=
  match fn with
  | .neg | .abs => true
  | _ => false

/-- `vun.neg` and `vun.abs`: bit operations under kind F, saturating under kind I. -/
def negAbs (fn : VunFn) (f : Fmt) (x : Nat) : Nat :=
  let top := 2 ^ (fmtBits f - 1)
  if isF f then (if fn == .abs then x % top else if x < top then x + top else x - top)
  else roundTo f rne0 0 (if fn == .abs then (elemVal f x).abs else (elemVal f x).neg)

def execVun (h : Hdr) (fn : VunFn) (r : Rnd) (wd wa : BitVec 5) (s : State) : Out :=
  let kinds := if vunBits fn then isFI else isF
  let share (sh : Share) : Share := if vunBits fn then sh else .free
  vector h (fun s => [⟨wd, kinds, share .format, sameN (cnt s wa)⟩, ⟨wa, kinds, share .lead, anyN⟩])
    [⟨0, 1, true⟩] [] noFirst
    (fun ws _ =>
      let d := win ws 0
      let a := win ws 1
      let g := passes a.count ws
      mapPlan a.count (4 + (if vunBits fn then g else 2 * g)) ws d [a]
        (fun _ i s =>
          if vunBits fn then (negAbs fn d.fmt (a.get s i), s) else roundDraw 1 d.fmt r (vunEx fn (a.val s i)) s)) s

def execVcvt (h : Hdr) (r : Rnd) (wd wa : BitVec 5) (s : State) : Out :=
  vector h (fun s => [⟨wd, isFI, .free, sameN (cnt s wa)⟩, ⟨wa, isFI, .free, anyN⟩])
    [⟨0, 1, true⟩] [] noFirst
    (fun ws _ =>
      let d := win ws 0
      let a := win ws 1
      mapPlan a.count (4 + passes a.count ws) ws d [a] (fun _ i s => roundDraw 1 d.fmt r (a.val s i) s)) s

/-- `vfill` converts its scalar once, and CARRY keeps the converted value (R232). -/
def fillFirst (r : Rnd) (ws : List Win) (vs : List Elem) (p : VProg) (s : State) : VProg × State :=
  let f := (win ws 0).fmt
  if isF f then
    let q := roundDraw 1 f r (val32 (arg vs 0)) s
    ({ p with carry := BitVec.ofNat 32 q.1 }, q.2)
  else if isI f then ({ p with carry := BitVec.ofInt 32 (satInt (Nat.min 32 (fmtBits f)) (arg vs 0).toInt) }, s)
  else ({ p with carry := arg vs 0 &&& 1 }, s)

def fillBits (f : Fmt) (c : Elem) : Nat := if isI f then (c.signExtend 64).toNat % 2 ^ fmtBits f else c.toNat

def execVfill (h : Hdr) (r : Rnd) (wd : BitVec 5) (ea : EOp) (s : State) : Out :=
  vector h (fun _ => [⟨wd, isFIB, .free, anyN⟩]) [] [ea] (fillFirst r)
    (fun ws _ =>
      let d := win ws 0
      mapPlan d.count (4 + passes d.count ws) ws d [] (fun p _ s => (fillBits d.fmt p.carry, s))) s

/-! ### Reductions and scans (R233, R234) -/

/-- x comes before y in the order of values, with -0 below +0. -/
def exBefore (x y : Ex) : Bool := x.lt y || (x.eqv y && x.isNeg && !y.isNeg)

/-- The value of an element in the domain of a reduction's result: FP32 bits, or saturated INT32. -/
def redElem (fn : VredFn) (f : Fmt) (x : Nat) : Elem :=
  let v := elemVal f x
  let v := match fn with
    | .amax | .amin => v.abs
    | _ => v
  if isF f then round32 v else BitVec.ofNat 32 (roundTo .int32 rne0 0 v)

/-- A new element takes the place of the running extreme. -/
def redTakes (fn : VredFn) (f : Fmt) (best x : Elem) : Bool :=
  let b := scalarEx f best
  let v := scalarEx f x
  if b.isNan then false
  else if v.isNan then true
  else match fn with
    | .max | .amax => exBefore b v
    | _ => exBefore v b

def redStep (fn : VredFn) (a : Win) (p : VProg) (s : State) (i : Nat) : VProg :=
  let x := redElem fn a.fmt (a.get s i)
  if i = 0 || redTakes fn a.fmt p.carry x then { p with carry := x, words := [BitVec.ofNat 32 i] } else p

/-- The 96-bit running sum of kind I in its three carried words. -/
def sum96 (ws : List Elem) : Int :=
  (BitVec.ofNat 96 ((ws.getD 0 0).toNat + (ws.getD 1 0).toNat * 2 ^ 32 + (ws.getD 2 0).toNat * 2 ^ 64)).toInt
def words96 (x : Int) : List Elem :=
  let b := BitVec.ofInt 96 x
  [b.extractLsb' 0 32, b.extractLsb' 32 32, b.extractLsb' 64 32]

def sumStep (a : Win) (p : VProg) (s : State) (i : Nat) : VProg :=
  if isF a.fmt then { p with words := laneAdd p.words i (round32 (a.val s i)) }
  else { p with words := words96 (sum96 p.words + sgn (fmtBits a.fmt) (a.get s i)) }

/-- A sum of kind F starts from its 32 lanes of -0.0 (R76, R233). -/
def redFirst (fn : VredFn) (ws : List Win) (_ : List Elem) (p : VProg) (s : State) : VProg × State :=
  (if fn == .sum && isF (win ws 0).fmt then { p with words := lanes0 } else p, s)

def redEmpty (fn : VredFn) (f : Fmt) : Elem :=
  match fn, isF f with
  | .sum, true => 0x80000000
  | .sum, false => 0
  | .max, true => 0xFF800000
  | .max, false => 0x80000000
  | .min, true => 0x7F800000
  | .min, false => 0x7FFFFFFF
  | .amax, _ => 0
  | .amin, true => 0x7F800000
  | .amin, false => 0x7FFFFFFF

def redResult (fn : VredFn) (f : Fmt) (n : Nat) (p : VProg) : Elem :=
  if n = 0 then redEmpty fn f
  else if fn == .sum then
    (if isF f then laneTree p.words else BitVec.ofInt 32 (satInt 32 (sum96 p.words)))
  else p.carry

def execVred (h : Hdr) (fn : VredFn) (idx : Bool) (wa : BitVec 5) (ea : Fin 768) (s : State) : Out :=
  vector h (fun _ => [⟨wa, isFI, .free, anyN⟩]) [] [] (redFirst fn)
    (fun ws _ =>
      let a := win ws 0
      { n := a.count, chunk := chunkOf ws, phases := 1, cycles := 8 + passes a.count ws, restart := false
        fault := poisonIn [a]
        step := fun p lo hi s =>
          ((List.range (hi - lo)).foldl (fun p k => if fn == .sum then sumStep a p s (lo + k) else redStep fn a p s (lo + k)) p,
            touchAll ws lo hi s)
        finish := fun p s =>
          ((ea, redResult fn a.fmt a.count p) ::
            (if idx then [(nextE ea 1, if a.count = 0 then 0xFFFFFFFF else p.words.getD 0 0)] else []), s) }) s

/-- A scan of kind F starts from c = -0.0 (R234). -/
def scanFirst (ws : List Win) (_ : List Elem) (p : VProg) (s : State) : VProg × State :=
  (if isF (win ws 1).fmt then { p with carry := negZero32 } else p, s)

/-- The running c of a scan: CARRY under kind F, the carried words under kind I (R234). -/
def scanCarry (f : Fmt) (p : VProg) : Ex :=
  if isF f then val32 p.carry
  else Ex.ofInt (BitVec.ofNat 64 ((p.words.getD 0 0).toNat + (p.words.getD 1 0).toNat * 2 ^ 32)).toInt

def scanNext (f : Fmt) (c x : Ex) (p : VProg) : VProg × Ex :=
  if isF f then
    let v := round32 (Ex.add false c x)
    ({ p with carry := v }, val32 v)
  else
    let v := roundTo .int64 rne0 0 (Ex.add false c x)
    ({ p with words := [BitVec.ofNat 32 v, BitVec.ofNat 32 (v / 2 ^ 32)] }, Ex.ofInt (sgn 64 v))

def execVscan (h : Hdr) (exc : Bool) (r : Rnd) (wd wa : BitVec 5) (s : State) : Out :=
  vector h (fun s => [⟨wd, isFI, .kind, sameN (cnt s wa)⟩, ⟨wa, isFI, .kind, anyN⟩])
    [⟨0, 1, true⟩] [] scanFirst
    (fun ws _ =>
      let d := win ws 0
      let a := win ws 1
      { n := a.count, chunk := chunkOf ws, phases := 1, cycles := 4 + passes a.count ws, restart := false
        fault := poisonIn [a]
        step := fun p lo hi s =>
          (List.range (hi - lo)).foldl (fun (q : VProg × State) k =>
            let i := lo + k
            let c := scanCarry a.fmt q.1
            let m := scanNext a.fmt c (a.val q.2 i) q.1
            let o := roundDraw 1 d.fmt r (if exc then c else m.2) q.2
            (m.1, d.put i o.1 o.2)) (p, touchAll ws lo hi s)
        finish := noScalars }) s

/-! ### Compares, select, compress, expand (R235 to R238) -/

def execVcmp (h : Hdr) (cc : VcmpCc) (sc : Option EOp) (wd wa wb : BitVec 5) (s : State) : Out :=
  vector h (fun s => [⟨wd, isB, .free, sameN (cnt s wa)⟩, ⟨wa, isFI, .kind, anyN⟩] ++
      (if sc.isSome then [] else [⟨wb, isFI, .kind, sameN (cnt s wa)⟩]))
    [⟨0, 1, true⟩, ⟨0, 2, true⟩] sc.toList carryFirst
    (fun ws _ =>
      let d := win ws 0
      let a := win ws 1
      mapPlan a.count (4 + passes a.count ws) ws d (ws.drop 1)
        (fun p i s =>
          let y := if sc.isSome then scalarEx a.fmt p.carry else (win ws 2).val s i
          (if vcmpRel cc (a.val s i) y then 1 else 0, s))) s

def execVsel (h : Hdr) (wd wa wb wm : BitVec 5) (s : State) : Out :=
  vector h (fun s => [⟨wd, isAny, .format, sameN (cnt s wa)⟩, ⟨wa, isAny, .format, anyN⟩,
      ⟨wb, isAny, .format, sameN (cnt s wa)⟩, ⟨wm, isB, .free, sameN (cnt s wa)⟩])
    [⟨0, 1, true⟩, ⟨0, 2, true⟩, ⟨0, 3, true⟩] [] noFirst
    (fun ws _ =>
      let a := win ws 1
      mapPlan a.count (4 + passes a.count ws) ws (win ws 0) (ws.drop 1)
        (fun _ i s => (if (win ws 3).get s i = 1 then a.get s i else (win ws 2).get s i, s))) s

def execVcpr (h : Hdr) (wd wa wm : BitVec 5) (ea : Fin 768) (s : State) : Out :=
  vector h (fun s => [⟨wd, isAny, .format, fun c => decide (cnt s wa ≤ c)⟩, ⟨wa, isAny, .format, anyN⟩,
      ⟨wm, isB, .free, sameN (cnt s wa)⟩])
    [⟨0, 1, true⟩, ⟨0, 2, true⟩] [] noFirst
    (fun ws _ =>
      let d := win ws 0
      let a := win ws 1
      let m := win ws 2
      { n := a.count, chunk := chunkOf ws, phases := 1, cycles := 4 + passes a.count ws, restart := false
        fault := poisonIn [a, m]
        step := fun p lo hi s =>
          (List.range (hi - lo)).foldl (fun (q : VProg × State) k =>
            if m.get q.2 (lo + k) = 1 then
              ({ q.1 with carry := q.1.carry + 1 },
                d.put q.1.carry.toNat (a.get q.2 (lo + k)) (d.touch q.1.carry.toNat 1 q.2))
            else q) (p, touchAll [a, m] lo hi s)
        finish := fun p s => ([(ea, p.carry)], s) }) s

/-- The source element that position i of an expansion takes, counted from j. -/
def expandMoves (m : Win) (na : Nat) (s : State) : Nat → Nat → Nat → List (Nat × Nat)
  | 0, _, _ => []
  | k + 1, i, j =>
    if m.get s i = 1 && decide (j < na) then (i, j) :: expandMoves m na s k (i + 1) (j + 1) else expandMoves m na s k (i + 1) j

def execVxpd (h : Hdr) (wd wa wm : BitVec 5) (ea : Fin 768) (s : State) : Out :=
  vector h (fun s => [⟨wd, isAny, .format, anyN⟩, ⟨wa, isAny, .format, anyN⟩, ⟨wm, isB, .free, sameN (cnt s wd)⟩])
    [⟨0, 1, false⟩, ⟨0, 2, false⟩] [] noFirst
    (fun ws _ =>
      let d := win ws 0
      let a := win ws 1
      let m := win ws 2
      { n := d.count, chunk := chunkOf ws, phases := 1, cycles := 4 + passes d.count ws, restart := false
        fault := fun s p lo hi =>
          match poisonIn [m] s p lo hi with
          | some t => some t
          | none => (expandMoves m a.count s (hi - lo) lo p.carry.toNat).findSome? (fun q => poisonAt s a q.2)
        step := fun p lo hi s =>
          let mv := expandMoves m a.count s (hi - lo) lo p.carry.toNat
          ({ p with carry := p.carry + BitVec.ofNat 32 mv.length },
            mv.foldl (fun s q => d.put q.1 (a.get s q.2) (d.touch q.1 1 (a.touch q.2 1 s))) (m.touch lo (hi - lo) s))
        finish := fun p s => ([(ea, p.carry)], s) }) s

/-! ### Gather, scatter and bitmaps (R239, R243) -/

/-- The first of n positions from i on whose index is out of range where that is a fault (reason 5, at that position), or at
which a byte that is read is poisoned. `live`: positions that take part. Each position is looked at as the ones before it
leave the windows, so that the result does not depend on how long a chunk is (R221). -/
def indexFault (idx table : Win) (srcs : List Win) (drop readsTable : Bool) (live : State → Nat → Bool)
    (f : Nat → Option Nat → State → State) : Nat → Nat → State → Option TrapInfo
  | 0, _, _ => none
  | n + 1, i, s =>
    let next (s : State) : Option TrapInfo := indexFault idx table srcs drop readsTable live f n (i + 1) s
    match srcs.findSome? (fun w => poisonAt s w i) with
    | some t => some t
    | none =>
      if !live s i then next s
      else match indexIn idx table s i with
        | none => if drop then next (f i none s) else some { badWindow 5 idx.num 0 with operand := BitVec.ofNat 64 i }
        | some t =>
          match (if readsTable then poisonAt s table t else none) with
          | some e => some e
          | none => next (f i (some t) s)

def allLive (_ : State) (_ : Nat) : Bool := true

/-- An indexed instruction over the positions of its index window. -/
def indexedPlan (cycles : Nat) (ws : List Win) (idx table : Win) (srcs : List Win) (drop readsTable : Bool)
    (live : State → Nat → Bool) (f : Nat → Option Nat → State → State) : Plan where
  n := idx.count
  chunk := chunkOf ws
  phases := 1
  cycles := cycles
  restart := false
  fault s _ lo hi := indexFault idx table srcs drop readsTable live f (hi - lo) lo s
  step p lo hi s := (p, forRange lo hi (fun i s =>
    if live s i then
      let t := indexIn idx table s i
      f i t (match t with
        | some t => table.touch t 1 s
        | none => s)
    else s) (touchAll srcs lo hi s))
  finish := noScalars

/-- Cycles of `vgat`, `vsct` and `vsca` (R219). -/
def indexCycles (idx table : Win) (s : State) : Nat :=
  4 + (idx.count + 7) / 8 + conflictsFrom idx table s idx.count (idx.count / 8 + 1) 0

def execVgat (h : Hdr) (z : Bool) (wd wa wb : BitVec 5) (s : State) : Out :=
  vector h (fun s => [⟨wd, isAny, .format, sameN (cnt s wb)⟩, ⟨wa, isAny, .lead, anyN⟩, ⟨wb, isI, .free, anyN⟩])
    [⟨0, 1, true⟩, ⟨0, 2, true⟩, ⟨1, 2, false⟩] [] noFirst
    (fun ws s =>
      let d := win ws 0
      let t := win ws 1
      let x := win ws 2
      indexedPlan (indexCycles x t s) ws x t [x] z true allLive
        (fun i k s => d.put i (match k with
          | some k => t.get s k
          | none => 0) (d.touch i 1 s))) s

def execVsct (h : Hdr) (drop : Bool) (wd wa wb : BitVec 5) (s : State) : Out :=
  vector h (fun s => [⟨wd, isAny, .format, anyN⟩, ⟨wa, isAny, .format, sameN (cnt s wb)⟩, ⟨wb, isI, .free, anyN⟩])
    [⟨0, 1, true⟩, ⟨0, 2, false⟩] [] noFirst
    (fun ws s =>
      let t := win ws 0
      let a := win ws 1
      let x := win ws 2
      indexedPlan (indexCycles x t s) ws x t [a, x] drop false allLive
        (fun i k s => match k with
          | some k => t.put k (a.get s i) s
          | none => s)) s

def execVsca (h : Hdr) (drop : Bool) (wd wa wb : BitVec 5) (s : State) : Out :=
  vector h (fun s => [⟨wd, isFI, .kind, anyN⟩, ⟨wa, isFI, .kind, sameN (cnt s wb)⟩, ⟨wb, isI, .free, anyN⟩])
    [⟨0, 1, true⟩, ⟨0, 2, false⟩] [] noFirst
    (fun ws s =>
      let t := win ws 0
      let a := win ws 1
      let x := win ws 2
      indexedPlan (indexCycles x t s) ws x t [a, x] drop true allLive
        (fun i k s => match k with
          | some k => t.put k (roundTo t.fmt rne0 0 (Ex.add false (t.val s k) (a.val s i))) s
          | none => s)) s

/-- `vbit` set and clr; with `valid`, elements whose bit in the validity window is 1 take part. -/
def bitPut (v : Bool) (valid drop : Bool) (h : Hdr) (wd wa wb : BitVec 5) (s : State) : Out :=
  vector h (fun s => [⟨wd, isB, .free, anyN⟩, ⟨wa, isI, .free, anyN⟩] ++
      (if valid then [⟨wb, isB, .free, sameN (cnt s wa)⟩] else []))
    [⟨0, 1, true⟩, ⟨0, 2, true⟩] [] noFirst
    (fun ws _ =>
      let d := win ws 0
      let x := win ws 1
      indexedPlan (4 + passes x.count ws) ws x d (ws.drop 1) drop true
        (fun s i => !valid || (win ws 2).get s i == 1)
        (fun _ k s => match k with
          | some k => d.put k (if v then 1 else 0) s
          | none => s)) s

def bitTest (drop : Bool) (h : Hdr) (wd wa wb : BitVec 5) (s : State) : Out :=
  vector h (fun s => [⟨wd, isB, .free, sameN (cnt s wa)⟩, ⟨wa, isI, .free, anyN⟩, ⟨wb, isB, .free, anyN⟩])
    [⟨0, 1, true⟩, ⟨0, 2, true⟩] [] noFirst
    (fun ws _ =>
      let d := win ws 0
      let x := win ws 1
      let t := win ws 2
      indexedPlan (4 + passes x.count ws) ws x t [x] drop true allLive
        (fun i k s => d.put i (match k with
          | some k => t.get s k
          | none => 0) (d.touch i 1 s))) s

def bitCount (h : Hdr) (wa : BitVec 5) (ea : Fin 768) (s : State) : Out :=
  vector h (fun _ => [⟨wa, isB, .free, anyN⟩]) [] [] noFirst
    (fun ws _ =>
      let a := win ws 0
      { n := a.count, chunk := chunkOf ws, phases := 1, cycles := 8 + passes a.count ws, restart := false
        fault := poisonIn [a]
        step := fun p lo hi s =>
          ((List.range (hi - lo)).foldl (fun p k => { p with carry := p.carry + BitVec.ofNat 32 (a.get s (lo + k)) }) p,
            touchAll ws lo hi s)
        finish := fun p s => ([(ea, p.carry)], s) }) s

def execVbit (h : Hdr) (fn : VbitFn) (valid drop : Bool) (wd wa wb : BitVec 5) (ea : Fin 768) (s : State) : Out :=
  match fn with
  | .set => bitPut true valid drop h wd wa wb s
  | .clr => bitPut false valid drop h wd wa wb s
  | .tst => bitTest drop h wd wa wb s
  | .cnt => bitCount h wa ea s

/-! ### Noise, Hadamard, quantisation (R240 to R242) -/

/-- A uniform: w[31:8] × 2^-24 (R225). -/
def uniform (w : Nat) : Ex := .fin false (w / 256 % 2 ^ 24) (2 ^ 24)

def execVrnd (h : Hdr) (unif : Bool) (wd : BitVec 5) (s : State) : Out :=
  vector h (fun _ => [⟨wd, if unif then isF else isFIB, .free, anyN⟩]) [] [] noFirst
    (fun ws _ =>
      let d := win ws 0
      mapPlan d.count (4 + passes d.count ws) ws d []
        (fun _ _ s =>
          if unif then
            let p := drawNoise 1 32 s
            (roundTo d.fmt rz0 0 (uniform p.1), p.2)
          else drawNoise 1 (fmtBits d.fmt) s)) s

/-- One butterfly pass at distance h over a block. -/
def butterfly (h : Nat) (xs : List Elem) : List Elem :=
  (List.range xs.length).map (fun j =>
    if j / h % 2 = 0 then add32 (xs.getD j 0) (xs.getD (j + h) 0) else sub32 (xs.getD (j - h) 0) (xs.getD j 0))

def butterflies : Nat → Nat → List Elem → List Elem
  | 0, _, xs => xs
  | k + 1, h, xs => butterflies k (2 * h) (butterfly h xs)

/-- 2^(-k/2) rounded to FP32 under RNE. -/
def hadScale (k : Nat) : Elem :=
  if k % 2 = 0 then round32 (.fin false 1 (2 ^ (k / 2))) else round32 (sqrtEx 1 (2 ^ k))

/-- The sign pattern: 2^k bits of the keystream of a 64-bit seed (R241). -/
def hadSigns (seed : Nat) (k : Nat) : Nat :=
  (List.range (2 ^ k / 32 + 1)).foldr (fun i acc => keystream (leBytes 8 seed ++ List.replicate 24 0) (32 * i) 32 + acc * 2 ^ 32) 0

def flipSigns (signs : Nat) (xs : List Elem) : List Elem :=
  xs.mapIdx (fun j x => if signs.testBit j then x ^^^ 0x80000000 else x)

def hadamard (inv : Bool) (k : Nat) (seed : Nat) (xs : List Elem) : List Elem :=
  let sg := hadSigns seed k
  let c := hadScale k
  let ys := (butterflies k 1 (if inv then xs else flipSigns sg xs)).map (fun x => mul32 x c)
  if inv then flipSigns sg ys else ys

/-- A pair of scalar operands is carried in the first two words (log 12). -/
def pairFirst (ea : Fin 768) (_ : List Win) (_ : List Elem) (p : VProg) (s : State) : VProg × State :=
  ({ p with words := [getE s ea, getE s (nextE ea 1)] }, s)
def seedOf (p : VProg) : Nat := (p.words.getD 0 0).toNat + (p.words.getD 1 0).toNat * 2 ^ 32

/-- Write a list of values from position i up. -/
def putList (d : Win) (i : Nat) (vs : List Nat) (s : State) : State := (vs.foldl (fun (q : Nat × State) v => (q.1 + 1, d.put q.1 v q.2)) (i, s)).2

def execVhad (h : Hdr) (inv : Bool) (k : BitVec 4) (wd wa : BitVec 5) (ea : Fin 768) (s : State) : Out :=
  let b := 2 ^ k.toNat
  vectorOf h (fun s => [⟨wd, isF, .free, sameN (cnt s wa)⟩, ⟨wa, isF, .free, fun c => c % b == 0⟩])
    [⟨0, 1, true⟩] [] [eId s ea, eId s (nextE ea 1)] (fun _ _ => none) (pairFirst ea)
    (fun ws _ =>
      let d := win ws 0
      let a := win ws 1
      { n := a.count, chunk := b, phases := 1, cycles := 4 + (k.toNat + 1) * passes a.count ws, restart := false
        fault := poisonIn [a]
        step := fun p lo hi s =>
          let xs := (List.range (hi - lo)).map (fun i => round32 (a.val s (lo + i)))
          (p, putList d lo ((hadamard inv k.toNat (seedOf p) xs).map (fun x => roundTo d.fmt rne0 0 (val32 x)))
            (touchAll ws lo hi s))
        finish := noScalars }) s

def execVqnt (h : Hdr) (mode : RMode) (wd wa wb : BitVec 5) (s : State) : Out :=
  vector h (fun s => [⟨wd, isM, .free, sameN (cnt s wa)⟩, ⟨wa, isF, .free, fun c => c % 32 == 0⟩,
      ⟨wb, (· == .fp32), .free, sameN (cnt s wa / 32)⟩])
    [⟨0, 1, true⟩, ⟨1, 2, true⟩] [] noFirst
    (fun ws _ =>
      let d := win ws 0
      let a := win ws 1
      let sc := win ws 2
      { n := a.count, chunk := 32, phases := 1, cycles := 4 + 2 * passes a.count ws, restart := false
        fault := poisonIn [a]
        step := fun p lo hi s =>
          let xs := (List.range 32).map (fun i => a.val s (lo + i))
          let scale := quantScale d.fmt xs
          let s1 := sc.put (lo / 32) scale.toNat (sc.touch (lo / 32) 1 (touchAll [d, a] lo hi s))
          (p, (xs.foldl (fun (q : Nat × State) x =>
            let r := match quantQuot xs scale x with
              | none => (0, q.2)
              | some v =>
                if mode == RMode.sr && inexactI v then
                  let z := drawNoise 1 16 q.2
                  (quantElem d.fmt mode z.1 v, z.2)
                else (quantElem d.fmt mode 0 v, q.2)
            (q.1 + 1, d.put q.1 (BitVec.ofInt (fmtBits d.fmt) r.1).toNat r.2)) (lo, s1)).2)
        finish := noScalars }) s

/-- `vdqt`. An INT8 source is read as an MX operand with a scale of 1.0 (R66): it has no scale plane, so the scale window is
neither checked nor read: DESIGN CHOICE (log 64). The product is rounded under the mode of the instruction, as R242 has it,
where R67 names RNE alone: DEDUCED (log 77). -/
def execVdqt (h : Hdr) (r : Rnd) (wd wa wb : BitVec 5) (s : State) : Out :=
  vector h (fun s => [⟨wd, isF, .free, sameN (cnt s wa)⟩, ⟨wa, fun f => isM f || f == .int8, .free, fun c => c % 32 == 0⟩] ++
      (if winFmt (winOf s wa) == .int8 then [] else [⟨wb, (· == .fp32), .free, sameN (cnt s wa / 32)⟩]))
    [⟨0, 1, true⟩, ⟨0, 2, true⟩] [] noFirst
    (fun ws _ =>
      let d := win ws 0
      let a := win ws 1
      let sc := ws.drop 2
      let scale (s : State) (b : Nat) : Ex := ((sc.head?).map (fun w => w.val s b)).getD (.fin false 1 1)
      { n := a.count, chunk := 32, phases := 1, cycles := 4 + 2 * passes a.count ws, restart := false
        fault := fun s p lo hi =>
          match poisonIn [a] s p lo hi with
          | some t => some t
          | none => sc.findSome? (fun w => poisonAt s w (lo / 32))
        step := fun p lo hi s =>
          (p, forRange lo hi (fun i s =>
            let q := roundDraw 1 d.fmt r (Ex.mul (a.val s i) (scale s (i / 32))) s
            d.put i q.1 q.2) (sc.foldl (fun s w => w.touch (lo / 32) 1 s) (touchAll [d, a] lo hi s)))
        finish := noScalars }) s

/-! ### Moves and window registers (R244, R245) -/

/-- The record of a whole tile of a unit-stride window (R244). -/
def tileRec (s : State) (w : Win) (t : Nat) : Option HRec :=
  let base := (elemBit w.img w.disp (1024 * t)) / 8
  s.side.find? (fun r => r.live && r.base == base && r.fmt == w.fmt)

/-- The two windows cover the same sequence of whole tiles that carry headland, in the same shape. -/
def sameTiles (s : State) (d a : Win) : Bool :=
  a.count != 0 && a.count % 1024 == 0 && winStride a.img == 1 && winStride d.img == 1 &&
    (List.range (a.count / 1024)).all (fun t => (tileRec s d t).isSome && (tileRec s a t).isSome)

/-- The destination tile takes the source tile's headland with the bytes that stand (R80, R244, R287). -/
def takeHeadland (d a : Win) (t : Nat) (s : State) : State :=
  match tileRec s d t, tileRec s a t with
  | some rd, some ra => { s with side := s.side.map (fun r => if r == rd then preserveTile s.spad false r ra else r) }
  | _, _ => s

def execVmov (h : Hdr) (wd wa : BitVec 5) (s : State) : Out :=
  vector h (fun s => [⟨wd, isAny, .format, sameN (cnt s wa)⟩, ⟨wa, isAny, .format, anyN⟩])
    [⟨0, 1, true⟩] [] noFirst
    (fun ws _ =>
      let d := win ws 0
      let a := win ws 1
      { mapPlan a.count (4 + passes a.count ws) ws d [a] (fun _ i s => (a.get s i, s)) with
        step := fun p lo hi s =>
          let s1 := forRange lo hi (fun i s => d.put i (a.get s i) s) (touchAll ws lo hi s)
          (p, if hi % 1024 == 0 && sameTiles s d a then takeHeadland d a (hi / 1024 - 1) s1 else s1) }) s

/-- The value of a register pair, the second register the high half (R217). -/
def pairOf (s : State) (ea : EOp) : BitVec 64 :=
  match ea with
  | .e n => getE s (nextE n 1) ++ getE s n
  | _ => 0
def pairIds (s : State) (ea : EOp) : List Nat :=
  match ea with
  | .e n => [eId s n, eId s (nextE n 1)]
  | _ => []

def wsetPair : WsetFn → Bool
  | .image | .rowf => true
  | _ => false

/-- A window image with one field replaced. -/
def wsetImage (fn : WsetFn) (w : BitVec 64) (v : Elem) : BitVec 64 :=
  let put (lo n : Nat) : BitVec 64 :=
    let m : BitVec 64 := BitVec.ofNat 64 ((2 ^ n - 1) * 2 ^ lo)
    (w &&& ~~~m) ||| (BitVec.ofNat 64 (v.toNat * 2 ^ lo) &&& m)
  match fn with
  | .base => put 0 23
  | .count => put 23 16
  | .stride => put 39 16
  | .fmt => put 55 4
  | .image | .rowf => w

def execWset (h : Hdr) (fn : WsetFn) (wd : BitVec 5) (ea : EOp) (s : State) : Out :=
  if wsetPair fn then
    issue h (pairIds s ea) (fun s =>
      .done (if fn == .image then setWin wd (pairOf s ea) s
        else { s with task.rowFlags := s.task.rowFlags &&& ~~~(pairOf s ea) }) 1) s
  else
    issue h (wId wd :: eReads s [ea]) (fun s =>
      match sources [ea] s with
      | .error e => stallResult s e
      | .ok (vs, s1) => .done (setWin wd (wsetImage fn (winOf s1 wd) (arg vs 0)) s1) 1) s

def execWget (h : Hdr) (rowf : Bool) (wa : BitVec 5) (ea : Fin 768) (s : State) : Out :=
  issue h (if rowf then [] else [wId wa]) (fun s =>
    let v := if rowf then s.task.rowFlags else winOf s wa
    if (s.task.latches.filter (fun l => decide (s.now < l.land))).length < 7 then
      .done (latchRegs [(mapE s ea, v.extractLsb' 0 32), (mapE s (nextE ea 1), v.extractLsb' 32 32)] (s.now + 1) 1 s) 1
    else .wait s) s

/-! ### Sampling (R246 to R249) -/

def negInf : Ex := .inf true

/-- The weight of a logit against the greatest one, as `vun.exp` in FP32; -inf weighs +0. -/
def weightOf (m x : Ex) : Elem :=
  if x == .inf true then 0 else round32 (vunEx .exp (val32 (round32 (Ex.sub false x m))))

def greatest (xs : List Ex) : Ex := xs.foldl Ex.max negInf

/-- Insert a position into a ranking by value, greatest first, equal values by lower position. -/
def rankInsert (x : Nat × Ex) : List (Nat × Ex) → List (Nat × Ex)
  | [] => [x]
  | y :: t => if y.2.lt x.2 then x :: y :: t else y :: rankInsert x t
/-- The 64 greatest; positions are given in ascending order. -/
def ranking (xs : List (Nat × Ex)) : List (Nat × Ex) := xs.foldl (fun l x => (rankInsert x l).take 64) []

def soundRow (xs : List Ex) : Bool := xs.all (fun x => !x.isNan && x != .inf false)

/-- The shortlist: positions and weights of the 64 ranks, and the mass (R247). -/
def shortlist (xs : List Ex) : List Elem × List Elem × Elem :=
  let sound := soundRow xs
  let m := greatest xs
  let rank := ranking ((xs.mapIdx (fun i x => (i, x))).filter (fun p => !p.2.isNan))
  let pos := (List.range 64).map (fun r => match rank[r]? with
    | some p => BitVec.ofNat 32 p.1
    | none => (0xFFFFFFFF : Elem))
  if !sound then (pos, List.replicate 64 nan32, nan32)
  else
    let wts := (List.range 64).map (fun r => match rank[r]? with
      | some p => weightOf m p.2
      | none => (0 : Elem))
    let all := sum32 (xs.map (weightOf m))
    let top := wts.foldl add32 negZero32
    (pos, wts, if (val32 all).isZero then 0 else round32 (Ex.div (val32 top) (val32 all)))

def setRowFlag (n : Nat) (s : State) : State := { s with task.rowFlags := s.task.rowFlags ||| ((1 : BitVec 64) <<< (n % 64)) }

def execVtopk (h : Hdr) (wd wa wb : BitVec 5) (ea : Fin 768) (s : State) : Out :=
  vectorOf h (fun _ => [⟨wd, (· == .int32), .free, sameN 64⟩, ⟨wa, isF, .free, anyN⟩, ⟨wb, (· == .fp32), .free, sameN 64⟩])
    [⟨0, 1, true⟩, ⟨1, 2, true⟩] [] [eId s ea, eId s (nextE ea 1)] (fun _ _ => none) (pairFirst ea)
    (fun ws _ =>
      let d := win ws 0
      let a := win ws 1
      let q := win ws 2
      { n := a.count, chunk := chunkOf ws, phases := 1, cycles := 72 + 2 * passes a.count ws, restart := true
        fault := poisonIn [a]
        step := fun p lo hi s => (p, a.touch lo (hi - lo) s)
        finish := fun p s =>
          let r := shortlist ((List.range a.count).map (a.val s))
          let s1 := if a.count = 0 then s
            else putList q 0 (r.2.1.map BitVec.toNat) (putList d 0 (r.1.map BitVec.toNat) (touchAll [d, q] 0 64 s))
          let s2 := if Ex.le (val32 (p.words.getD 0 0)) (val32 r.2.2) then s1
            else setRowFlag ((p.words.getD 1 0).extractLsb' 0 6).toNat s1
          ([(nextE ea 2, r.2.2)], s2) }) s

/-- Phase 1 adds the weights of a chunk to the lanes. -/
def softLanes (a : Win) (m : Ex) (lo hi : Nat) (lanes : List Elem) (s : State) : List Elem :=
  (List.range (hi - lo)).foldl (fun l k => laneAdd l (lo + k) (weightOf m (a.val s (lo + k)))) lanes

def execVsoft (h : Hdr) (wd wa : BitVec 5) (s : State) : Out :=
  vector h (fun s => [⟨wd, isF, .free, sameN (cnt s wa)⟩, ⟨wa, isF, .free, anyN⟩])
    [⟨0, 1, true⟩] [] noFirst
    (fun ws _ =>
      let d := win ws 0
      let a := win ws 1
      { n := a.count, chunk := chunkOf ws, phases := 3, cycles := 4 + 5 * passes a.count ws, restart := false
        fault := poisonIn [a]
        step := fun p lo hi s =>
          let s1 := touchAll (if p.phase < 2 then [a] else ws) lo hi s
          match p.phase with
          | 0 =>
            if hi < a.count then (p, s1)
            else ({ p with
              carry := round32 (greatest ((List.range a.count).map (a.val s)))
              words := lanes0 }, s1)
          | 1 => ({ p with words := softLanes a (val32 p.carry) lo hi p.words s }, s1)
          | _ =>
            let sum := val32 (laneTree p.words)
            (p, forRange lo hi (fun i s =>
              d.put i (roundTo d.fmt rne0 0 (Ex.div (val32 (weightOf (val32 p.carry) (a.val s i))) sum)) s) s1)
        finish := noScalars }) s

/-- A sampling weight: the value when it is finite and above zero, else +0 (R249). -/
def posWeight (x : Ex) : Elem := if x.isFin && !x.isZero && !x.isNeg then round32 x else 0

def pickFrom (t : Ex) : Nat → Elem → List Elem → Option Nat
  | _, _, [] => none
  | i, c, w :: ws =>
    let c1 := add32 c w
    if t.lt (val32 c1) then some i else pickFrom t (i + 1) c1 ws

def lastPositive (ws : List Elem) : Nat :=
  (ws.foldl (fun (q : Nat × Nat) w => (q.1 + 1, if (val32 w).isZero then q.2 else q.1)) (0, 0)).2

/-- Pick (R249): the position and the bit Z. -/
def pick (ws : List Elem) (u : Ex) : Elem × Bool :=
  let sum := val32 (sum32 ws)
  if sum.isZero || !sum.isFin then (0xFFFFFFFF, true)
  else
    let t := val32 (round32 (Ex.mul u sum))
    match pickFrom t 0 negZero32 ws with
    | some i => (BitVec.ofNat 32 i, false)
    | none => (BitVec.ofNat 32 (lastPositive ws), false)

def zBit (z : Bool) : Elem := if z then 4 else 0

/-- The residual mode: the position and the status. -/
def residual (p q : List Elem) (x : Nat) (u1 u2 : Ex) : Elem × Elem :=
  let px := p.getD x 0
  if !(val32 px).isZero && (val32 (round32 (Ex.mul u1 (val32 (q.getD x 0))))).lt (val32 px) then (BitVec.ofNat 32 x, 1)
  else
    let r := (p.zip q).map (fun w => round32 (Ex.max (val32 (sub32 w.1 w.2)) (.fin false 0 1)))
    let sum := val32 (sum32 r)
    if !sum.isNan && (Ex.fin false 0 1).lt sum then
      let k := pick r u2
      (k.1, zBit k.2)
    else
      let k := pick p u2
      (k.1, 2 ||| zBit k.2)

/-- The uniforms are drawn once and kept in the first two carried words; CARRY keeps the draft position (log 12). -/
def drawFirst (res : Bool) (ea : Fin 768) (_ : List Win) (_ : List Elem) (p : VProg) (s : State) : VProg × State :=
  let a := drawNoise 1 32 s
  if res then
    let b := drawNoise 1 32 a.2
    ({ p with carry := getE s ea, words := [BitVec.ofNat 32 a.1, BitVec.ofNat 32 b.1] }, b.2)
  else ({ p with words := [BitVec.ofNat 32 a.1] }, a.2)

def sampPlan (res : Bool) (ea : Fin 768) (ws : List Win) : Plan :=
  let a := win ws 0
  let g := passes a.count ws
  { n := a.count, chunk := chunkOf ws, phases := 1, cycles := 8 + (if res then 4 * g else 2 * g), restart := true
    fault := poisonIn ws
    step := fun p lo hi s => (p, touchAll ws lo hi s)
    finish := fun p s =>
      let pw := (List.range a.count).map (fun i => posWeight (a.val s i))
      let u (i : Nat) : Ex := uniform (p.words.getD i 0).toNat
      let r := if res then
          residual pw ((List.range a.count).map (fun i => posWeight ((win ws 1).val s i))) p.carry.toNat (u 0) (u 1)
        else
          let k := pick pw (u 0)
          (k.1, zBit k.2)
      ([(nextE ea 1, r.1), (nextE ea 2, r.2)], s) }

/-- A draft position outside the row is refused at issue (R249). -/
def draftFault (wa : BitVec 5) (ea : Fin 768) (ws : List Win) (s : State) : Option TrapInfo :=
  if (win ws 0).count ≤ (getE s ea).toNat then some { badWindow 5 wa 0 with operand := (getE s ea).setWidth 64 } else none

def execVsamp (h : Hdr) (res : Bool) (wa wb : BitVec 5) (ea : Fin 768) (s : State) : Out :=
  vectorOf h
    (fun s => ⟨wa, isF, .free, anyN⟩ :: (if res then [⟨wb, isF, .free, sameN (cnt s wa)⟩] else []))
    [] [] (if res then [eId s ea] else []) (if res then draftFault wa ea else fun _ _ => none) (drawFirst res ea)
    (fun ws _ => sampPlan res ea ws) s

/-! ### Steps of the noise channels and the cycle budget (R225, R250) -/

/-- NOISE_RESEED: a channel whose seed is used up takes its next seed. -/
def execNoiseReseed (ch : Fin 5) (s : State) : Out :=
  if h : ch.val < 4 then
    let n := s.task.noise[ch.val]
    if seedBits ≤ n.pos then
      let p := seedChannel ch.val n s.task.k.nrp s
      .next { p.2 with task.noise := p.2.task.noise.set ch.val p.1 }
    else .next s
  else if seedBits ≤ s.firmNoise.pos then
    let p := seedChannel 4 s.firmNoise false s
    .next { p.2 with firmNoise := p.1 }
  else .next s

end Sys2Proof.Machine
end

