-- ==== Sys2Proof/Machine/Headland.lean ====
section
/-! DEFINITION. Headland checksum instructions (chapter 10). -/

namespace Sys2Proof.Machine

/-! ### Window tiles (R283 to R285) -/

/-- The window tile registered at a physical base in a format. -/
def winTile (s : State) (base : Nat) (f : Fmt) : Option HRec :=
  s.side.find? (fun r => r.owner.isNone && r.base == base && r.fmt == f)

/-- The physical base of tile t of a window. -/
def tileBase (w : Win) (t : Nat) : Nat := elemBit w.img w.disp (1024 * t) / 8

/-- The tiles that a window covers, if it covers tiles (R285). -/
def coversTiles (s : State) (w : Win) : Option (List HRec) :=
  if winStride w.img != 1 || w.count == 0 || w.count % 1024 != 0 then none
  else (List.range (w.count / 1024)).mapM (fun t => winTile s (tileBase w t) w.fmt)

/-- The offset of a tile's base as the context names it. -/
def namedBase (w : Win) (r : HRec) : Nat := ((r.base : Int) - w.disp).toNat

/-- The configurations that K has issued and the engine has not yet taken. -/
def pendingSets (s : State) : List (Fin 16 × FurCfg) :=
  (s.checkq.flatMap (fun c => match c.act with
    | .mx cs => cs
    | _ => []) ++ s.task.mx.cmds).filterMap (fun c => match c.op with
      | .fset f g => some (f, g)
      | _ => none)

/-- The slots of a furrow, configured or about to be, meet a run of named offsets (R277, R284). -/
def slotsMeet (s : State) (off len : Nat) : Bool :=
  s.task.furrows.toList.any (fun v => v.cap != 0 && overlaps off len v.base (v.cap * slotBytes v.fmt)) ||
    (pendingSets s).any (fun p => p.2.cap != 0 && overlaps off len p.2.base (p.2.cap * slotBytes p.2.fmt))

/-- The physical run of the scratchpad that the running context has on the core: first offset and size (R157). -/
def ownShare (s : State) : Nat × Nat :=
  let bulk := s.bulkShare[s.die.toNat]! * 0x80000
  if s.holds == 0 then (0, Config.spadCompute) else if s.holds == 1 then (0, bulk) else (bulk, Config.spadCompute - bulk)

/-- The records that the running context may hold, and those that it holds (R283). -/
def recordCap (s : State) : Nat := 4096 * (ownShare s).2 / Config.spadCompute
def ownRecords (s : State) : List HRec :=
  s.side.filter (fun r => decide ((ownShare s).1 ≤ r.base) && decide (r.base < (ownShare s).1 + (ownShare s).2))

/-- Records that a furrow holds, or will hold by an `fset` already issued. -/
def furrowRecords (s : State) (f : Fin 16) : Nat :=
  (pendingSets s).foldl (fun n p => if p.1 == f then Nat.max n p.2.cap else n)
    ((ownRecords s).filter (fun r => (r.owner.map (·.1)) == some f)).length

/-- Records that `hgen` may still take (R283). -/
def recordRoom (s : State) : Nat :=
  recordCap s - (((ownRecords s).filter (fun r => r.owner.isNone)).length +
    ((List.finRange 16).map (furrowRecords s)).foldl (· + ·) 0)

/-- Window numbers whose parity is looked at when the word issues (R120, R121). -/
def winIds (s : State) (ws : List (BitVec 5)) : List Nat := if (cur s).inFlight then [] else ws.map wId

/-- A check reads a whole tile with its scale words, and touches the guard granules there (R183). -/
def touchTile (named : Nat) (r : HRec) (s : State) : State :=
  let s1 := touchGuards named r.base (tileBytes r.fmt) s
  match r.scaleAt with
  | some a => touchGuards (named + a - r.base) a 128 s1
  | none => s1

/-! ### hgen (R293) -/

/-- The scale words of tile t in the scale window. -/
def scaleOf (ws : List Win) (t : Nat) : Option Nat :=
  match ws[1]? with
  | some w => some (elemBit w.img w.disp (32 * t) / 8)
  | none => none

/-- The conditions of `hgen` beyond R218. -/
def hgenFault (s : State) (ws : List Win) : Option TrapInfo :=
  let w := win ws 0
  let n := w.count / 1024
  let bytes := tileBytes w.fmt
  let named (t : Nat) : Nat := ((tileBase w t : Int) - w.disp).toNat
  let meets (t : Nat) : Bool :=
    slotsMeet s (named t) bytes ||
      s.side.any (fun r => r.owner.isNone && overlaps (tileBase w t) bytes r.base (tileBytes r.fmt) &&
        !(r.base == tileBase w t && r.fmt == w.fmt))
  let scaleMeets (v : Win) (t : Nat) : Bool :=
    let a := elemBit v.img v.disp (32 * t) / 8
    slotsMeet s ((a : Int) - v.disp).toNat 128 ||
      s.side.any (fun r => r.live && overlaps a 128 r.base (tileBytes r.fmt)) ||
      (List.range n).any (fun k => overlaps a 128 (tileBase w k) bytes)
  if winStride w.img != 1 || w.count == 0 || w.count % 1024 != 0 || winBase w.img % 128 != 0 then
    some (badWindow 8 w.num w.img)
  else if (List.range n).any meets then some (badWindow 4 w.num w.img)
  else
    match (match ws[1]? with
      | some v =>
        if v.fmt != .fp32 || winStride v.img != 1 || v.count != 32 * n then some (badWindow 3 v.num v.img)
        else if (List.range n).any (scaleMeets v) then some (badWindow 4 v.num v.img)
        else none
      | none => none) with
    | some t => some t
    | none =>
      if recordRoom s < ((List.range n).filter (fun t => (winTile s (tileBase w t) w.fmt).isNone)).length then
        some (badWindow 7 w.num w.img)
      else none

/-- A checksum that nothing has generated: a free value (log 2). -/
def openSum (f : Fmt) (k : Nat) : HSum :=
  let v := (Config.openWord k).toNat
  if fmtF f then ⟨v % 2 ^ 32, v / 2 ^ 32 % 65536⟩ else ⟨v % 2 ^ 40, 0⟩

/-- Take a record for a tile, or reuse the one registered (R293). -/
def registerTile (base : Nat) (f : Fmt) (scale : Option Nat) (s : State) : State :=
  match winTile s base f with
  | some r => { s with side := s.side.map (fun q => if q == r then { q with scaleAt := scale } else q) }
  | none =>
    let sums (k : Nat) : List HSum := (List.range 32).map (fun i => openSum f (s.free + k + i))
    { s with
      side := s.side ++ [⟨base, f, scale, none, sums 0, sums 32, (openSum f (s.free + 64)).h % 2 ^ 40, false, false, true⟩]
      free := s.free + 65 }

def genAt (base : Nat) (f : Fmt) (s : State) : State :=
  { s with side := s.side.map (fun r => if r.owner.isNone && r.base == base && r.fmt == f then genTile s.spad r else r) }

def hgenFirst (ws : List Win) (_ : List Elem) (p : VProg) (s : State) : VProg × State :=
  let w := win ws 0
  (p, (List.range (w.count / 1024)).foldl (fun s t => registerTile (tileBase w t) w.fmt (scaleOf ws t) s) s)

def hgenPlan (ws : List Win) : Plan :=
  let w := win ws 0
  { n := w.count / 1024, chunk := 1, phases := 1, cycles := 4 + 36 * (w.count / 1024), restart := false
    fault := fun _ _ _ _ => none
    step := fun p lo _ s => (p, genAt (tileBase w lo) w.fmt s)
    finish := noScalars }

/-- The windows that `hgen` names: a scale window for an MX format, else field wb is must-be-zero (R291). -/
def hgenUses (s : State) (wa ws : BitVec 5) : List Use :=
  ⟨wa, isAny, .free, anyN⟩ :: (if fmtM (winFmt (winOf s wa)) then [⟨ws, isAny, .free, anyN⟩] else [])

def execHgen (h : Hdr) (wa ws : BitVec 5) (s : State) : Out :=
  issue h (winIds s ((hgenUses (asIssued s) wa ws).map Use.num)) (fun s =>
    let v := asIssued s
    if ws != 0 && !fmtM (winFmt (winOf v wa)) then
      .trap ⟨.reservedField, 27 * 0x10000, fetchWord s.task.c.imem s.task.c.pc⟩
    else match checkUses v (hgenUses v wa ws) [] with
    | .error t => .trap t
    | .ok wins =>
      match hgenFault s wins with
      | some t => .trap t
      | none =>
        match progNow s with
        | some p => runPlan (hgenPlan wins) p s
        | none =>
          let r := hgenFirst wins [] ⟨s.task.c.pc, s.now, false, 0, 0, 0, [], 0, s.task.w⟩ s
          runPlan (hgenPlan wins) r.1 r.2) s

/-- The tiles of a window that must cover tiles, or WINDOW reason 8 (R285). -/
def coverCheck (s : State) (wa : BitVec 5) : Except TrapInfo (Win × List HRec) :=
  match checkUses s [⟨wa, isAny, .free, anyN⟩] [] with
  | .error t => .error t
  | .ok ws =>
    match coversTiles s (win ws 0) with
    | none => .error (badWindow 8 wa (winOf s wa))
    | some rs => .ok (win ws 0, rs)

/-- C is occupied for a fixed time; scalar results land at the end. -/
def occupy (cycles : Nat) (scalars : List (Fin 768 × Elem)) (s : State) : Result :=
  let t := s.now + cycles
  .done (holdUntil t (if scalars.isEmpty then s else latchRegs (scalars.map (fun q => (mapE s q.1, q.2))) t 1 s)) cycles

def execHgenRel (h : Hdr) (wa : BitVec 5) (s : State) : Out :=
  issue h [wId wa] (fun s =>
    match coverCheck s wa with
    | .error t => .trap t
    | .ok (w, rs) =>
      let gone (r : HRec) : Bool := r.owner.isNone && rs.any (fun q => q.base == r.base)
      occupy (4 + w.count / 1024) [] { s with side := s.side.filter (fun r => !gone r) }) s

/-! ### hchk (R294) -/

/-- What tile instructions act on: the tiles of a window, or the slots of a furrow from a head slot. -/
inductive Tiles where
  | win (w : Win) (rs : List HRec)
  | fur (f : Fin 16) (head count : Nat)
deriving DecidableEq, Repr, Inhabited

def tilesOf (s : State) (t : HTarget) : Except TrapInfo Tiles :=
  match t with
  | .win w =>
    match coverCheck s w with
    | .error e => .error e
    | .ok (v, rs) => .ok (.win v rs)
  | .fur f =>
    let v := furOf s f.toFin
    if v.cap = 0 then .error (windowTrap 0 f.toNat (furrowImage v) false) else .ok (.fur f.toFin v.head v.present)

def Tiles.count : Tiles → Nat
  | .win _ rs => rs.length
  | .fur _ _ n => n

/-- Tile i: its record as it is now, when it is still a headland tile, and its base as the context names it. -/
def Tiles.at (s : State) (ts : Tiles) (i : Nat) : Option (HRec × Nat) :=
  match ts with
  | .win w rs => (rs[i]?).bind (fun r => (winTile s r.base r.fmt).map (fun q => (q, namedBase w q)))
  | .fur f head _ =>
    let v := furOf s f
    if v.cap = 0 then none
    else
      let slot := (head + i) % v.cap
      (slotRec s f slot).bind (fun r => if r.live then some (r, slotAt v slot) else none)

/-- Check tile i: corrections made, the state, and a fault. -/
def checkAt (ts : Tiles) (ro : Bool) (i : Nat) (s : State) : Nat × State × Option TrapInfo :=
  match ts.at s i with
  | none => (0, s, none)
  | some (r, base) =>
    let c := checkTile (if ro then .report else .correct) r (touchTile base r s)
    (if c.1.c then 1 else 0, c.2, (statusFault c.1).map (fun e => hlTrap e i c.1 base))

def hchkPlan (ts : Tiles) (ro : Bool) (ea : Fin 768) : Plan where
  n := ts.count
  chunk := 1
  phases := 1
  cycles := 4 + 36 * ts.count
  restart := false
  fault s _ lo _ := (checkAt ts ro lo s).2.2
  step p lo _ s :=
    let c := checkAt ts ro lo s
    ({ p with carry := p.carry + BitVec.ofNat 32 c.1 }, c.2.1)
  finish p s := ([(ea, p.carry)], s)
  extra p := 8 * p.carry.toNat
  onFault p s := { s with
    task.e := s.task.e.set (mapE s ea).val p.carry
    task.c.bad := s.task.c.bad.filter (fun q => q.1 != 128 + (mapE s ea).val) }

/-- The tiles that a started instruction goes on with: of a furrow, as recorded in the first two words, whatever has become
of its configuration (R294). -/
def resumedTiles (s : State) (t : HTarget) (p : VProg) : Except TrapInfo Tiles :=
  match t with
  | .win w => tilesOf (asIssued s) (.win w)
  | .fur f => .ok (.fur f.toFin (p.words.getD 0 0).toNat (p.words.getD 1 0).toNat)

def recordTiles (ts : Tiles) (p : VProg) : VProg :=
  match ts with
  | .win .. => p
  | .fur _ head n => { p with words := [BitVec.ofNat 32 head, BitVec.ofNat 32 n] }

/-- Every tile at once: on S the instruction does not stop. -/
def checkEvery (ts : Tiles) (ro : Bool) : Nat → Nat → State → Nat × State × Option TrapInfo
  | 0, _, s => (0, s, none)
  | k + 1, i, s =>
    let c := checkAt ts ro i s
    match c.2.2 with
    | some t => (c.1, c.2.1, some t)
    | none =>
      let r := checkEvery ts ro k (i + 1) c.2.1
      (c.1 + r.1, r.2)

/-- The windows of a target. -/
def winsOf : HTarget → List (BitVec 5)
  | .win w => [w]
  | .fur _ => []

/-- `hchk` on C: tile by tile. -/
def checkChunks (ro : Bool) (t : HTarget) (ea : Fin 768) (s : State) : Result :=
  match progNow s with
  | some p =>
    (match resumedTiles s t p with
    | .error e => .trap e
    | .ok ts => runPlan (hchkPlan ts ro ea) p s)
  | none =>
    match tilesOf s t with
    | .error e => .trap e
    | .ok ts => runPlan (hchkPlan ts ro ea) (recordTiles ts ⟨s.task.c.pc, s.now, false, 0, 0, 0, [], 0, s.task.w⟩) s

/-- The tiles that `hchk` on S has found at its issue, kept as one number while it waits. -/
def tilesNote (ts : Tiles) : Nat :=
  match ts with
  | .win .. => 0
  | .fur _ head n => head + n * 4096
def notedTiles (s : State) (t : HTarget) : Except TrapInfo Tiles :=
  match s.task.s.asked, t with
  | some k, .fur f => .ok (.fur f.toFin (k % 4096) (k / 4096))
  | _, _ => tilesOf s t

/-- `hchk` on S issues at once, and checks when the stores that S has issued before are performed (R292); with no tile there
is nothing to check (R294). -/
def checkStream (ro : Bool) (t : HTarget) (s : State) : Result :=
  match notedTiles s t with
  | .error e => .trap e
  | .ok ts =>
    if ts.count != 0 && !storesSettled s then
      .waitReply (modCtx (issuerOf s) (fun c => { c with asked := some (tilesNote ts) }) s)
    else
      let r := checkEvery ts ro ts.count 0 s
      match r.2.2 with
      | some f => .trapKeep r.2.1 f
      | none =>
        let cycles := 4 + 36 * ts.count + 8 * r.1
        .done (modCtx (issuerOf s) (fun c => { c with notBefore := s.now + cycles }) r.2.1) cycles

def execHchk (h : Hdr) (ro : Bool) (t : HTarget) (ea : Option (Fin 768)) (s : State) : Out :=
  issue h (winIds s (winsOf t)) (fun s =>
    match ea with
    | some e => checkChunks ro t e s
    | none => checkStream ro t s) s

/-! ### hfix, hrd, htol (R295, R297, R298) -/

/-- The tile that bits [15:0] of a selector name, or WINDOW reason 5. -/
def tileNamed (s : State) (t : HTarget) (sel : Elem) : Except TrapInfo (HRec × Nat) :=
  match tilesOf s t with
  | .error e => .error e
  | .ok ts =>
    let i := (sel.extractLsb' 0 16).toNat
    let num := match t with
      | .win w => w.toNat
      | .fur f => f.toNat
    match (if i < ts.count then ts.at s i else none) with
    | none => .error (windowTrap 5 num (BitVec.ofNat 64 i) false)
    | some p => .ok p

def execHfix (h : Hdr) (corr : Bool) (t : HTarget) (ea : Fin 768) (s : State) : Out :=
  issue h ((winsOf t).map wId ++ [eId s ea]) (fun s =>
    match tileNamed s t (getE s ea) with
    | .error e => .trap e
    | .ok (r, base) =>
      let c := checkTile (if corr then .correct else .examine) r (touchTile base r s)
      occupy (if c.1.c then 48 else 40) [(nextE ea 1, BitVec.ofNat 32 (statusBits c.1))] c.2) s

/-- The checksum that a selector names, and whether it is floating (R297). -/
def namedSum (r : HRec) (sel : Elem) : Option (HSum × Bool) :=
  let k := (sel.extractLsb' 17 5).toNat
  if sel.getLsbD 22 then (if fmtM r.fmt then some (⟨r.scale, 0⟩, false) else none)
  else some ((if sel.getLsbD 16 then r.cols else r.rows).getD k ⟨0, 0⟩, fmtF r.fmt)

def hrdResult (r : HRec) (v : HSum) (floating : Bool) : Elem × Elem :=
  let b (x : Bool) (n : Nat) : Nat := if x then 2 ^ n else 0
  (BitVec.ofNat 32 v.h,
    BitVec.ofNat 32 (b r.damaged 29 + (if floating then v.n % 65536 + b r.stale 30 + 2 ^ 31 else v.h / 2 ^ 32 % 256)))

def execHrd (h : Hdr) (t : HTarget) (ea : Fin 768) (s : State) : Out :=
  issue h ((winsOf t).map wId ++ [eId s ea]) (fun s =>
    let sel := getE s ea
    match tileNamed s t sel with
    | .error e => .trap e
    | .ok (r, _) =>
      match namedSum r sel with
      | none =>
        .trap (windowTrap 5 (match t with
          | .win w => w.toNat
          | .fur f => f.toNat) (BitVec.ofNat 64 (sel.extractLsb' 0 16).toNat) false)
      | some (v, fl) =>
        let o := hrdResult r v fl
        occupy 6 [(nextE ea 1, o.1), (nextE ea 2, o.2)] s) s

def execHtol (h : Hdr) (ea : EOp) (s : State) : Out :=
  issue h (eReads s [ea]) (fun s =>
    match sources [ea] s with
    | .error e => stallResult s e
    | .ok (vs, s1) => occupy 1 [] { s1 with task.slack := (arg vs 0).extractLsb' 0 16 }) s

/-! ### hupd (R296) -/

/-- The headland tile that holds a physical byte. -/
def tileHolding (s : State) (a : Nat) : Option HRec :=
  s.side.find? (fun r => r.live && decide (r.base ≤ a) && decide (a < r.base + tileBytes r.fmt))

/-- The physical byte of element i of the destination. -/
def updAddr (d : Win) (i : Nat) : Nat := elemBit d.img d.disp i / 8

/-- Elements of the destination in a tile, as (position, index in the tile). -/
def updElems (d : Win) (r : HRec) : List (Nat × Nat) :=
  (List.range d.count).filterMap (fun i =>
    let a := updAddr d i
    if r.base ≤ a ∧ a < r.base + tileBytes r.fmt then some (i, (a - r.base) / elemSize d.fmt) else none)

def updTiles (s : State) (d : Win) : List HRec :=
  (s.side.filter (fun r => r.live && !(updElems d r).isEmpty)).foldl (fun l r => insertRec r l) []

def updOutside (s : State) (d : Win) : List Nat := (List.range d.count).filter (fun i => (tileHolding s (updAddr d i)).isNone)

/-- Every element lies in a window tile of the format, or in no tile and no furrow slot (R296). -/
def updPlaced (s : State) (d : Win) : Bool :=
  (List.range d.count).all (fun i =>
    !slotsMeet s ((updAddr d i : Int) - d.disp).toNat (elemSize d.fmt) && (match tileHolding s (updAddr d i) with
      | none => true
      | some r => r.owner.isNone && r.fmt == d.fmt))

def rowsOf (es : List (Nat × Nat)) : List Nat := (List.range 32).filter (fun r => es.any (fun e => e.2 / 32 == r))
def colsOf (es : List (Nat × Nat)) : List Nat := (List.range 32).filter (fun c => es.any (fun e => e.2 % 32 == c))

/-- Regenerate the headland of rows and columns of a tile (R78, R80). -/
def regenParts (m : Memory) (rows cols : List Nat) (r : HRec) : HRec :=
  { r with
    rows := r.rows.mapIdx (fun i h => if rows.contains i then genSum r.fmt 1 (tileRow m r.base r.fmt i) else h)
    cols := r.cols.mapIdx (fun i h => if cols.contains i then genSum r.fmt 1 (tileCol m r.base r.fmt i) else h) }

/-- Copy the elements of one tile and regenerate what they touch; the rest of the record stays as it was. -/
def updTile (d a : Win) (r : HRec) (s : State) : State :=
  let es := updElems d r
  let s1 := es.foldl (fun s e => d.put e.1 (a.get s e.1) s) s
  { s1 with side := s1.side.map (fun q =>
      if q.owner.isNone && q.base == r.base && q.fmt == r.fmt then regenParts s1.spad (rowsOf es) (colsOf es) r else q) }

def hupdPlan (s0 : State) (d a : Win) : Plan :=
  let tiles := updTiles s0 d
  let t := tiles.length
  let out := updOutside s0 d
  let rec_ (s : State) (i : Nat) : Option HRec := (tiles[i]?).bind (fun r => winTile s r.base r.fmt)
  { n := t + (if out.isEmpty then 0 else 1), chunk := 1, phases := 1, cycles := 4 + 36 * t + passes a.count [a]
    restart := false
    fault := fun s p lo _ =>
      match rec_ s lo with
      | some r =>
        let c := checkPart .correct r (rowsOf (updElems d r)) (colsOf (updElems d r)) s
        (match statusFault c.1 with
        | some e => some (hlTrap e lo c.1 (namedBase d r))
        | none => (updElems d r).findSome? (fun e => poisonIn [a] s p e.1 (e.1 + 1)))
      | none => if lo < t then none else out.findSome? (fun i => poisonIn [a] s p i (i + 1))
    step := fun p lo _ s =>
      match rec_ s lo with
      | some r =>
        let c := checkPart .correct r (rowsOf (updElems d r)) (colsOf (updElems d r)) s
        let s1 := (updElems d r).foldl (fun s e => touchAll [d, a] e.1 (e.1 + 1) s) (touchTile (namedBase d r) r c.2)
        (if c.1.c then { p with carry := p.carry + 1 } else p, updTile d a r s1)
      | none =>
        if lo < t then (p, s)
        else (p, out.foldl (fun s i => d.put i (a.get s i) (touchAll [d, a] i (i + 1) s)) s)
    finish := noScalars
    extra := fun p => 8 * p.carry.toNat }

def execHupd (h : Hdr) (wd wa : BitVec 5) (s : State) : Out :=
  issue h (winIds s [wd, wa]) (fun s =>
    let v := asIssued s
    let us : List Use := [⟨wd, fun f => isAny f && !packed f, .format, sameN (cnt v wa)⟩, ⟨wa, isAny, .format, anyN⟩]
    match checkUses v us [⟨0, 1, true⟩] with
    | .error t => .trap t
    | .ok ws =>
      let d := win ws 0
      if !updPlaced s d then .trap (badWindow 0 wd (winOf v wd))
      else match progNow s with
        | some p => runPlan (hupdPlan s d (win ws 1)) p s
        | none => runPlan (hupdPlan s d (win ws 1)) ⟨s.task.c.pc, s.now, false, 0, 0, 0, [], 0, s.task.w⟩ s) s

end Sys2Proof.Machine
end

