-- ==== Sys2Proof/Machine/Matrix.lean ====
section
/-! DEFINITION. Matrix instructions and the matrix engine (chapter 09). -/

namespace Sys2Proof.Machine

def mxOf (s : State) : Mx := s.task.mx
def setMx (m : Mx) (s : State) : State := { s with task.mx := m }
def modMx (f : Mx → Mx) (s : State) : State := setMx (f s.task.mx) s
def modMxK (f : MxK → MxK) (s : State) : State := modMx (fun m => { m with k := f m.k }) s

/-! ### Reading operand tiles (R252) -/

/-- The 32 rows of elements of the tile in a slot, as integers. -/
def tileInts (s : State) (v : Furrow) (slot : Nat) : List (List Int) :=
  let a := slotPhys s v slot
  let w := fmtBits v.fmt
  (List.range 32).map (fun r => (unpackElems w 32 (memWord s.spad (a + 4 * w * r) (4 * w))).map (sgn w))

/-- The scale of each row; INT8 and a forced scale supply 1.0 (R255). -/
def tileScales (s : State) (v : Furrow) (slot : Nat) (forced : Bool) : List Elem :=
  let a := slotPhys s v slot + tileBytes v.fmt
  (List.range 32).map (fun r => if forced || v.fmt == .int8 then 0x3F800000 else BitVec.ofNat 32 (memWord s.spad (a + 4 * r) 4))

/-- A operand offset, B operand offset and accumulator for each sub-array that a command uses (R254). -/
def mPlaces (m : MStep) : List (Nat × Nat × Nat) :=
  match m.mode with
  | .quad => [(0, 0, 4 * m.sub + m.q)]
  | .f1x4 => (List.range 4).map (fun s => (0, s, 4 * s + m.q))
  | .f2x2 => (List.range 4).map (fun s => (s / 2, s % 2, 4 * s + m.q))
  | .f4x1 => (List.range 4).map (fun s => (s, 0, 4 * s + m.q))

def mAccs (m : MStep) : List Nat := (mPlaces m).map (·.2.2)

def dotInt : List Int → List Int → Int
  | x :: xs, y :: ys => x * y + dotInt xs ys
  | _, _ => 0

/-- The sum of the predicted terms of a row or column, and its checksum after them (R265). -/
def predict (h : HSum) (terms : List Ex) : HSum :=
  if terms.all Ex.isFin then
    ⟨(round32 (Ex.add false (floatVal fp32 h.h) (terms.foldl (Ex.add false) (.fin false 0 1)))).toNat, Nat.min 65535 (h.n + 2)⟩
  else ⟨fp32.nan, Nat.min 65535 (h.n + 2)⟩

/-- One block accumulated into a tile (R73, R255): A rows and scales, B rows and scales. -/
def accumulate (a : List (List Int)) (sa : List Elem) (b : List (List Int)) (sb : List Elem) (c : Acc) : Acc :=
  let cell (idx : Nat) : Int × Elem :=
    (dotInt (a.getD (idx / 32) []) (b.getD (idx % 32) []), mul32 (sa.getD (idx / 32) 0) (sb.getD (idx % 32) 0))
  let cells := (List.range 1024).map cell
  let term (p : Int × Elem) : Ex := Ex.mul (Ex.ofInt p.1) (val32 p.2)
  { c with
    vals := (c.vals.zip cells).map (fun q => add32 q.1 (mul32 (round32 (Ex.ofInt q.2.1)) q.2.2))
    rows := c.rows.mapIdx (fun m h => predict h ((rowIdx m).map (fun i => term (cells.getD i (0, 0)))))
    cols := c.cols.mapIdx (fun n h => predict h ((colIdx n).map (fun i => term (cells.getD i (0, 0))))) }

def accAt (m : Mx) (i : Nat) : Acc := m.acc[i]?.getD Acc.zero
def setAcc (i : Nat) (c : Acc) (m : Mx) : Mx := { m with acc := m.acc.setIfInBounds i c }

/-- The arithmetic of a tile command; poisoned accumulators stay poisoned (R264). -/
def stepArith (m : MStep) (s : State) : State :=
  let va := furOf s m.af
  let vb := furOf s m.bf
  (mPlaces m).foldl (fun s p =>
    let sla := slotNum va (m.i + p.1)
    let slb := slotNum vb (m.j + p.2.1)
    modMx (fun x => setAcc p.2.2 (accumulate (tileInts s va sla) (tileScales s va sla (m.sm.getLsbD 0))
      (tileInts s vb slb) (tileScales s vb slb (m.sm.getLsbD 1)) (accAt x p.2.2)) x) s) s

/-- Accumulators take whole new contents; storage that fails for good stays lost. -/
def fillAccs (l : List Nat) (v : Mx → Nat → Acc) (s : State) : State :=
  modMx (fun x => l.foldl (fun y i => setAcc i { v x i with lost := s.accWorn.contains i } y) x) s
def zeroAccs (l : List Nat) (s : State) : State := fillAccs l (fun _ _ => Acc.zero) s
def poisonAccs (l : List Nat) (s : State) : State :=
  modMx (fun x => l.foldl (fun y i => setAcc i { accAt y i with poison := true } y) x) s

/-! ### Events (R267) -/

def mEvent (kind acc : Nat) (tag : BitVec 11) (step : Nat) (s : State) : State :=
  portEvent .mx 24 (BitVec.ofNat 64 (step % 2 ^ 32 * 2 ^ 32 + acc * 2 ^ 20 + kind * 2 ^ 16 + tag.toNat)) s

def lowestOf (l : List Nat) : Nat := l.foldl Nat.min 15

/-- A lasting error: the accumulators that the failing command writes are poisoned (R264). -/
def lastingError (accs : List Nat) (cause : Cause) (tag : BitVec 11) (step : Nat) (s : State) : State :=
  logAdd .lasting [s.task.ctx, s.core.toNat, causeCode cause, lowestOf accs]
    (mEvent 2 (lowestOf accs) tag step (poisonAccs accs s))
def keep (k : Kept) (s : State) : State := modMx (fun x => { x with kept := x.kept ++ [k] }) s

/-- Check one operand tile: corrections (event kind 3), and the cause of an error that cannot be corrected. -/
def operandCheck (f : Fin 16) (pos : Nat) (acc : Nat) (tag : BitVec 11) (step : Nat) (s : State) : State × Option Cause :=
  let v := furOf s f
  let slot := slotNum v pos
  if anyBad s.spadBad (slotPhys s v slot) (slotBytes v.fmt) then (s, some .eccUc)
  else match slotRec s f slot with
    | none => (s, none)
    | some r =>
      let c := checkTile .correct r s
      if c.1.c then (mEvent 3 acc tag step c.2, none)
      else (c.2, (statusFault c.1).map (fun _ => .hlMismatch))

/-- Check every operand tile of a command in the order of its sub-arrays. -/
def operandsCheck (tag : BitVec 11) (step : Nat) (m : MStep) : List (Nat × Nat × Nat) → State → State × Option Cause
  | [], s => (s, none)
  | p :: ps, s =>
    let a := operandCheck m.af (m.i + p.1) (lowestOf (mAccs m)) tag step s
    match a.2 with
    | some c => (a.1, some c)
    | none =>
      let b := operandCheck m.bf (m.j + p.2.1) (lowestOf (mAccs m)) tag step a.1
      match b.2 with
      | some c => (b.1, some c)
      | none => operandsCheck tag step m ps b.1

/-- What a tile command reads: its accumulators, then its operand tiles; the error it consumes (R264). A poisoned
accumulator gives no further error. -/
def stepCheck (tag : BitVec 11) (step : Nat) (m : MStep) (s : State) : State × Option Cause :=
  if (mAccs m).any (fun i => (accAt (mxOf s) i).lost && !(accAt (mxOf s) i).poison) then (s, some .eccUc)
  else operandsCheck tag step m (mPlaces m) s

def keptAccs : Kept → List Nat
  | .zero l => l
  | .step m _ _ => mAccs m
  | .poison l => l

/-- Accumulators written since the last marker, with some others, ascending. -/
def writtenAccs (also : List Nat) (m : Mx) : List Nat :=
  (List.range 16).filter (fun i => also.contains i || m.kept.any (fun k => (keptAccs k).contains i))

/-- Redo a command of the retained window, re-reading its tiles (R264). -/
def redo (k : Kept) (s : State) : State :=
  match k with
  | .zero l => zeroAccs l s
  | .poison l => poisonAccs l s
  | .step m tag n =>
    let c := stepCheck tag n m s
    match c.2 with
    | some e => lastingError (mAccs m) e tag n c.1
    | none => stepArith m c.1

/-- What the engine does on a consumed uncorrectable error: the accumulators written since the marker, and those that the
failing command reads, return from their shadows, and the retained window is replayed (R264). It does so for every such
error, a second one since the marker too (log 65). -/
def recover (also : List Nat) (s : State) : State :=
  (mxOf s).kept.foldl (fun s k => redo k s)
    (fillAccs (writtenAccs also (mxOf s)) (fun x i => x.shadow[i]?.getD Acc.zero) s)

/-- The replay has succeeded: the error was transient (R264). -/
def transientError (accs : List Nat) (tag : BitVec 11) (step : Nat) (s : State) : State :=
  logAdd .transient accs (mEvent 1 (lowestOf accs) tag step s)

/-- Run one tile command; on an error, once more after a replay (R264). -/
def runStep (tag : BitVec 11) (step : Nat) (m : MStep) (s : State) : State :=
  let go (s : State) : State := keep (.step m tag step) (stepArith m s)
  let c := stepCheck tag step m s
  match c.2 with
  | none => go c.1
  | some _ =>
    let d := stepCheck tag step m (recover (mAccs m) c.1)
    match d.2 with
    | none => go (transientError (mAccs m) tag step d.1)
    | some e => keep (.poison (mAccs m)) (lastingError (mAccs m) e tag step d.1)

/-! ### Nests (R261) -/

/-- The ordinals of a step over the used levels, outermost first. -/
def ordinals : List MLevel → Nat → List Nat
  | [], _ => []
  | l :: ls, n =>
    let inner := (ls.map (fun x => x.count.toNat)).foldl (· * ·) 1
    (n / inner % Nat.max 1 l.count.toNat) :: ordinals ls n

def strideA (l : MLevel) : Int := if l.role == .n then 0 else l.a.toInt
def strideB (l : MLevel) : Int := if l.role == .m then 0 else l.b.toInt
def strideC (l : MLevel) : Int := if l.role == .k then 0 else l.c.toInt

def offsetOf (st : MLevel → Int) (ls : List MLevel) (os : List Nat) : Int :=
  ((ls.zip os).map (fun p => (p.2 : Int) * st p.1)).foldl (· + ·) 0

/-- The tile command of step n. -/
def nestStep (b : MStep) (ls : List MLevel) (n : Nat) : MStep :=
  let os := ordinals ls n
  { b with
    i := ((b.i : Int) + offsetOf strideA ls os).toNat
    j := ((b.j : Int) + offsetOf strideB ls os).toNat
    q := ((b.q : Int) + offsetOf strideC ls os).toNat }

/-- An implicit marker comes before this step: the first step of an ordinal of an outer level other than the first. -/
def markerBefore : List MLevel → List Nat → Bool
  | l :: ls, o :: os => (l.role == .outer && o != 0 && os.all (· == 0)) || markerBefore ls os
  | _, _ => false

/-- The least and the greatest offset over every step. -/
def offsetRange (st : MLevel → Int) (ls : List MLevel) : Int × Int :=
  ls.foldl (fun r l =>
    let x := ((l.count.toNat : Int) - 1) * st l
    if x < 0 then (r.1 + x, r.2) else (r.1, r.2 + x)) (0, 0)

/-- Operand tiles that one command reads of A and of B (R254). -/
def tilesRead : Fusion → Nat × Nat
  | .quad => (1, 1)
  | .f1x4 => (1, 4)
  | .f2x2 => (2, 2)
  | .f4x1 => (4, 1)

/-- The accumulator slots that the steps of a nest name; a level of stride other than 0 has at most 4 steps within 0 to 3. -/
def nestSlots (n : Nest) : List Nat :=
  let qs := n.levels.foldl (fun qs l =>
    if strideC l = 0 then qs
    else qs.flatMap (fun q => ((List.range (Nat.min 4 l.count.toNat)).map (fun (k : Nat) => q + (k : Int) * strideC l)).filter
      (fun x => decide (0 ≤ x) && decide (x ≤ 3)))) [(n.base.q : Int)]
  (List.range 4).filter (fun q => qs.contains (q : Int))

/-- Every accumulator that a nest writes. -/
def nestAccs (n : Nest) : List Nat := (nestSlots n).flatMap (fun q => mAccs { n.base with q := q })

/-! ### The engine's order (R266) -/

def maskAccs (m : BitVec 16) : List Nat := (List.range 16).filter (fun i => m.getLsbD i)

/-- Commands that every later command waits for; all but `fset` also wait for every earlier one (R262, R266, R270, R279). -/
def opBarrier : MOp → Bool
  | .marker _ | .cfg .. | .fset .. | .fdrop .. => true
  | _ => false
def opWaitsAll : MOp → Bool
  | .marker _ | .cfg .. | .fdrop .. => true
  | _ => false
def opWrites : MOp → List Nat
  | .nest n => nestAccs n
  | .zero m => maskAccs m
  | _ => []
def opReads : MOp → List Nat
  | .nest n => nestAccs n
  | .drain _ l _ => l
  | _ => []
def opFurrows : MOp → List (Fin 16)
  | .nest n => [n.base.af, n.base.bf]
  | .drain f _ _ => [f]
  | .fset f _ => [f]
  | .fdrop f _ => [f]
  | _ => []
def meet {α : Type} [BEq α] (a b : List α) : Bool := a.any (fun x => b.contains x)

/-- An earlier command conflicts with a later one. -/
def opConflict (e l : MOp) : Bool :=
  opBarrier e || opWaitsAll l || meet (opWrites e) (opReads l ++ opWrites l) || meet (opReads e) (opWrites l) ||
    (match e, l with
    | .drain f _ _, _ => (opFurrows l).contains f
    | _, .fset f _ => (opFurrows e).contains f
    | _, _ => false)

def nestWaitsMarker (n : Nest) : Bool :=
  !n.marked && decide (n.next < n.total) && markerBefore n.levels (ordinals n.levels n.next)

/-- The operand tiles of a step are present. -/
def stepPresent (s : State) (m : MStep) : Bool :=
  (mPlaces m).all (fun p => decide (m.i + p.1 < (furOf s m.af).present) && decide (m.j + p.2.1 < (furOf s m.bf).present))

/-- A completed command of the retained window, or a pop still to come, uses a furrow (R277). -/
def unretired (s : State) (f : Fin 16) : Bool :=
  ((mxOf s).pops ++ (mxOf s).owed).any (fun p => p.1 == f) || (mxOf s).kept.any (fun k => match k with
    | .step m _ _ => m.af == f || m.bf == f
    | _ => false)

/-- The records that an `fset` takes are free (R283). -/
def recordsFree (s : State) (f : Fin 16) (g : FurCfg) : Bool :=
  decide (((ownRecords s).filter (fun r => (r.owner.map (·.1)) != some f)).length + g.cap ≤ recordCap s)

/-- Whether MATRIX_STEP can act on a command that conflicts with none before it. -/
def opRuns (s : State) (c : MCmd) : Bool :=
  decide (c.ready ≤ s.now) &&
  (match c.op with
  | .nest n => match n.fin with
    | some t => decide (t ≤ s.now)
    | none => !nestWaitsMarker n && stepPresent s (nestStep n.base n.levels n.next)
  | .zero _ | .cfg .. | .fdrop .. => true
  | .fset f g => (furOf s f).fill.isEmpty && !unretired s f && recordsFree s f g
  | .drain .. | .marker _ => false)

/-- Whether DRAIN can act on a command. -/
def drainRuns (s : State) (c : MCmd) : Bool :=
  decide (c.ready ≤ s.now) &&
  (match c.op with
  | .drain f _ _ => (furOf s f).cap != 0 && !furrowFull (furOf s f)
  | _ => false)

/-- The first command that may act and conflicts with none before it, with its place. -/
def firstRuns (p : MCmd → Bool) (all : List MCmd) : Nat → List MCmd → Option (Nat × MCmd)
  | _, [] => none
  | k, c :: cs =>
    if p c && !(all.take k).any (fun e => opConflict e.op c.op) then some (k, c) else firstRuns p all (k + 1) cs

def matrixPick (s : State) : Option (Nat × MCmd) := firstRuns (opRuns s) (mxOf s).cmds 0 (mxOf s).cmds
def drainPick (s : State) : Option (Nat × MCmd) := firstRuns (drainRuns s) (mxOf s).cmds 0 (mxOf s).cmds

/-- The marker that can be taken: the first command, or the one before the next step of the first nest. -/
def markerPick (s : State) : Bool :=
  match (mxOf s).cmds with
  | c :: _ => decide (c.ready ≤ s.now) && (match c.op with
    | .marker _ => true
    | .nest n => n.fin.isNone && nestWaitsMarker n
    | _ => false)
  | [] => false

/-- A retired pop that was waiting can take a tile (R263). -/
def owedPick (s : State) : Option (Fin 16 × Nat) := (mxOf s).owed.find? (fun p => (furOf s p.1).present != 0)

/-! ### Markers (R262 to R264) -/

def accElem (c : Acc) (k : Nat) : Nat := (c.vals.getD k 0).toNat
def accCheck (s : State) (c : Acc) : TileCheck :=
  partsCheck (accElem c) .fp32 s.task.slack.toNat c.rows c.cols false (List.range 32) (List.range 32)

/-- Check one accumulator and correct it under R81, with a correction record (R288); whether it is refused, or cannot be
read (R264). -/
def accFix (i : Nat) (s : State) : Bool × State :=
  let c := accAt (mxOf s) i
  if c.poison then (false, s)
  else if c.lost then (true, s)
  else
    let t := accCheck s c
    if t.rows.isEmpty && t.cols.isEmpty then (false, s)
    else match t.fixed with
      | some (k, bits) =>
        (false, logAdd .correction [s.task.ctx, s.core.toNat, i, k / 32, k % 32, accElem c k, bits]
          (modMx (setAcc i { c with vals := c.vals.set k (BitVec.ofNat 32 bits) }) s))
      | none => (true, s)

/-- Check a list of accumulators; those refused. -/
def accsFix : List Nat → State → List Nat × State
  | [], s => ([], s)
  | i :: is, s =>
    let a := accFix i s
    let r := accsFix is a.2
    ((if a.1 then [i] else []) ++ r.1, r.2)

/-- Step 1 of a marker, over the accumulators written since the last one and those given: on a refusal they are restored
and the window is replayed (R262, R264, R275). -/
def markerCheck (tag : BitVec 11) (also : List Nat) (s : State) : State :=
  let w := writtenAccs also (mxOf s)
  let a := accsFix w s
  if a.1.isEmpty then a.2
  else
    let b := accsFix w (recover also a.2)
    if b.1.isEmpty then transientError a.1 tag 0 b.2
    else lastingError b.1 (if b.1.any (fun i => (accAt (mxOf b.2) i).lost) then .eccUc else .hlMismatch) tag 0 b.2

/-- Take pops from the head of a furrow, as many as are present; the rest is owed (R263). -/
def retire (p : Fin 16 × Nat) (s : State) : State :=
  let n := Nat.min p.2 (furOf s p.1).present
  let s1 := popTiles p.1 n s
  if n < p.2 then modMx (fun x => { x with owed := x.owed ++ [(p.1, p.2 - n)] }) s1 else s1

/-- Tile commands and zeroings that stand since the last marker of a list of commands. -/
def sinceMarker : List MCmd → Nat
  | [] => 0
  | c :: cs =>
    match c.op with
    | .nest _ | .zero _ => if cs.any (fun d => match d.op with
        | .marker _ => true
        | _ => false) then sinceMarker cs else sinceMarker cs + 1
    | _ => sinceMarker cs

/-- The four steps of a marker; the commands that the engine has received behind it still count (R262). -/
def marker (tag : BitVec 11) (also : List Nat) (s : State) : State :=
  let s1 := markerCheck tag also s
  let s2 := modMx (fun x => { x with shadow := x.acc }) s1
  let pops := (mxOf s2).pops
  let s3 := pops.foldl (fun s p => retire p s) (modMx (fun x => { x with pops := [] }) s2)
  modMx (fun x => { x with kept := [], since := sinceMarker x.cmds }) s3

/-- Cycles of a command from the completion of what it waits for to its own effect (R266). -/
def opCycles : MOp → Nat
  | .marker _ => 4
  | .drain .. => 16
  | _ => 0

/-- A command completes; what waited for it takes its own time from now. -/
def dropCmd (k : Nat) (s : State) : State :=
  match (mxOf s).cmds[k]? with
  | none => s
  | some d =>
    modMx (fun x => { x with cmds := (x.cmds.eraseIdx k).map (fun c =>
      if opConflict d.op c.op then { c with ready := Nat.max c.ready (s.now + opCycles c.op) } else c) }) s
def putCmd (k : Nat) (c : MCmd) (s : State) : State := modMx (fun x => { x with cmds := x.cmds.set k c }) s

/-- MARKER (R262). -/
def execMarker (s : State) : Out :=
  if !markerPick s then .next s
  else match (mxOf s).cmds with
    | [] => .next s
    | c :: _ =>
      match c.op with
      | .nest n => .next (putCmd 0 { c with op := .nest { n with marked := true } } (marker c.tag [] s))
      | .marker also => .next (dropCmd 0 (marker c.tag also s))
      | _ => .next (dropCmd 0 (marker c.tag [] s))

/-! ### Steps of the engine -/

/-- Cycles of a tile command; two steps of MXINT4 × MXINT4 share one (R266). -/
def stepCycles (a b : Fmt) (n : Nat) : Nat :=
  if a == .mxint4 && b == .mxint4 then n % 2 else if a == .mxint4 || b == .mxint4 then 1 else 2

/-- The next step of a nest: zero what Z zeroes before its first write, then the tile command. -/
def nestRun (k : Nat) (c : MCmd) (n : Nest) (s : State) : State :=
  let m := nestStep n.base n.levels n.next
  let fresh := if n.z then (mAccs m).filter (fun i => !n.zeroed.contains i) else []
  let s1 := if fresh.isEmpty then s
    else keep (.zero fresh) (zeroAccs fresh s)
  let t := s.now + stepCycles (furOf s m.af).fmt (furOf s m.bf).fmt n.next
  let last := n.total ≤ n.next + 1
  let n1 := { n with
    next := n.next + 1, zeroed := n.zeroed ++ fresh, marked := false, fin := if last then some (t + 6) else none }
  putCmd k { c with op := .nest n1, ready := if nestWaitsMarker n1 then t + 10 else t } (runStep c.tag n.next m s1)

/-- A nest completes: its pops wait for retirement, and its event is pushed. -/
def nestDone (k : Nat) (c : MCmd) (n : Nest) (s : State) : State :=
  let pops := (if n.popA = 0 then [] else [(n.base.af, n.popA)]) ++ (if n.popB = 0 then [] else [(n.base.bf, n.popB)])
  let s1 := modMx (fun x => { x with pops := x.pops ++ pops }) (dropCmd k s)
  if c.ev then mEvent 0 (lowestOf (nestAccs n)) c.tag 0 s1 else s1

/-- A furrow takes its new configuration, empty, with one record per slot (R277, R283). -/
def furrowSet (f : Fin 16) (g : FurCfg) (s : State) : State :=
  let s1 := setFur f ⟨g.fmt, g.cap, g.base, 0, 0, []⟩ (clearClaims f s)
  let zeros := List.replicate 32 (⟨0, 0⟩ : HSum)
  let recs : List HRec := (List.range g.cap).map (fun t =>
    let a := slotPhys s1 (furOf s1 f) t
    ⟨a, g.fmt, if fmtM g.fmt then some (a + tileBytes g.fmt) else none, some (f, t), zeros, zeros, 0, false, false, false⟩)
  { s1 with side := s1.side.filter (fun r => match r.owner with
      | some (h, _) => h != f
      | none => true) ++ recs }

/-- MATRIX_STEP: a retired pop takes a tile that has joined, or the engine does one thing for its first command that
may act (R255, R261, R263, R270, R274, R277, R279). -/
def execMatrixStep (s : State) : Out :=
  match owedPick s with
  | some p => .next (retire p (modMx (fun x => { x with owed := x.owed.erase p }) s))
  | none =>
    match matrixPick s with
    | none => .next s
    | some (k, c) =>
      match c.op with
      | .nest n => .next (if n.fin.isSome then nestDone k c n s else nestRun k c n s)
      | .zero m =>
        .next (dropCmd k (keep (.zero (maskAccs m)) (zeroAccs (maskAccs m) s)))
      | .cfg mode r => .next (dropCmd k (modMx (fun x => { x with mode := mode, rnd := r }) s))
      | .fset f g => .next (dropCmd k (furrowSet f g s))
      | .fdrop f n =>
        let p := (furOf s f).present
        .next (dropCmd k (popTiles f (if n = 0 then p else Nat.min n p) s))
      | .drain .. | .marker _ => .next s

/-- The bytes of a drained tile: each element rounded in order, SR from channel 2 (R275). -/
def drainBytes (f : Fmt) (r : Rnd) : List Elem → State → List Byte × State
  | [], s => ([], s)
  | x :: xs, s =>
    let p := roundDraw 2 f r (val32 x) s
    let q := drainBytes f r xs p.2
    (leBytes (fmtBits f / 8) p.1 ++ q.1, q.2)

/-- An accumulator that a drain reads has an uncorrectable error: it returns from its shadow with every one written since the
marker, and the retained window is replayed; the accumulator is poisoned where that does not help (R264, R275). -/
def drainCheck (a : Nat) (tag : BitVec 11) (s : State) : State :=
  if !(accAt (mxOf s) a).lost || (accAt (mxOf s) a).poison then s
  else
    let r := recover [a] s
    if (accAt (mxOf r) a).lost then lastingError [a] .eccUc tag 0 r else transientError [a] tag 0 r

/-- DRAIN: one accumulator of a drain is written to a tail slot (R275). -/
def execDrain (s : State) : Out :=
  match drainPick s with
  | none => .next s
  | some (k, c) =>
    match c.op with
    | .drain f (a :: rest) lo =>
      let s := drainCheck a c.tag s
      let v := furOf s f
      let slot := nextSlot v
      let src := accAt (mxOf s) a
      let b := drainBytes v.fmt (mxOf s).rnd src.vals s
      let s1 := fillSlot f slot b.1 (List.replicate b.1.length src.poison) (reserveSlot f b.2)
      .next (if rest.isEmpty then
          let s2 := dropCmd k s1
          if c.ev then mEvent 0 lo c.tag 0 s2 else s2
        else putCmd k { c with op := .drain f rest lo } s1)
    | .drain _ [] _ => .next (dropCmd k s)
    | _ => .next s

/-! ### Commands from K (R266) -/

/-- Commands received by the engine; a marker goes before a 65th command since the last marker (R262). -/
def submitOne (c : MCmd) (s : State) : State :=
  let add (c : MCmd) (m : Mx) : Mx := { m with cmds := m.cmds ++ [c] }
  match c.op with
  | .nest _ | .zero _ =>
    if 64 ≤ (mxOf s).since then modMx (fun m => { add c (add ⟨.marker [], s.now + 4, false, 0⟩ m) with since := 1 }) s
    else modMx (fun m => { add c m with since := m.since + 1 }) s
  | .marker _ => modMx (fun m => { add c m with since := 0 }) s
  | _ => modMx (add c) s

/-- The engine receives commands: a tile command starts 8 cycles after (R266). -/
def submit (cs : List MCmd) (s : State) : State :=
  cs.foldl (fun s c => submitOne { c with ready := s.now + (match c.op with
    | .nest _ => 8
    | o => opCycles o) } s) s

def isMxAction : Action → Bool
  | .mx _ | .fget .. => true
  | _ => false

/-- Commands in the input FIFO of port mx: issued and not yet started. -/
def mxQueued (s : State) : Nat := (s.checkq.filter (fun c => isMxAction c.act)).length + (mxOf s).cmds.length

/-- Issue commands, when the input FIFO has room. -/
def mxIssue (cs : List MCmd) (f : MxK → MxK) (s : State) : Result :=
  if 32 ≤ mxQueued s then .wait s
  else .done (modMxK f (enqueue (.mx cs) 0 0 s)) 0

/-- Bits that a register layout marks zero. -/
def zeroBits (w : Word) (lo len : Nat) : Bool := w.toNat / 2 ^ lo % 2 ^ len == 0
def reservedValue (w : Word) : TrapInfo := trapAt .reservedField w
def wbits (w : Word) (lo len : Nat) : Nat := w.toNat / 2 ^ lo % 2 ^ len

def execMtw (h : Hdr) (lvl : Fin 6) (a : BitVec 6) (role : Role) (s : State) : Out :=
  issue h [rId a] (fun s =>
    let w := getReg s a
    mxIssue [] (fun k => { k with
      table := k.table.set lvl ⟨w.extractLsb' 0 16, w.extractLsb' 16 16, w.extractLsb' 32 16, w.extractLsb' 48 16, role⟩ }) s) s

def packLevel (l : MLevel) : Word := l.c ++ l.b ++ l.a ++ l.count

def execMtr (h : Hdr) (role : Bool) (d : BitVec 6) (lvl : Fin 6) (s : State) : Out :=
  issue h [] (fun s =>
    let l := (mxOf s).k.table[lvl]
    writeReg d (if role then BitVec.ofNat 64 (codeOf Role.table l.role) else packLevel l) 2 (enqueue (.mx []) 0 0 s)) s

def execMcfg (h : Hdr) (mode : Fusion) (r : Rnd) (s : State) : Out :=
  issue h [] (fun s => mxIssue [⟨.cfg mode r, 0, false, 0⟩] (fun k => { k with mode := mode, rnd := r }) s) s

/-- A format word that may be queued (R258). -/
def outFmt (f : Fmt) : Bool :=
  match f with
  | .fp32 | .bf16 | .fp16 | .e4m3 | .e5m2 | .int32 | .int8 => true
  | _ => false
def fmtOfCode (n : Nat) : Fmt := (Fmt.table[n]?).getD .none
def operandFmt (f : Fmt) : Bool :=
  match f with
  | .mxint4 | .mxint6 | .mxint8 | .int8 => true
  | _ => false
def formatWordOk (w : Word) : Bool :=
  operandFmt (fmtOfCode (wbits w 60 4)) && operandFmt (fmtOfCode (wbits w 56 4)) && outFmt (fmtOfCode (wbits w 52 4)) &&
    wbits w 40 12 != 0 && zeroBits w 34 6 && zeroBits w 0 32

/-- `mfmt`, and `epush` to mxf (R258, R271). -/
def pushFormat (w : Word) (s : State) : Result :=
  if !formatWordOk w then .trap (trapAt .fmtBad w)
  else if 16 ≤ (mxOf s).k.words.length then .wait s
  else .done (modMxK (fun k => { k with words := k.words ++ [(w, wbits w 40 12)] }) (enqueue (.mx []) 0 0 s)) 0

def execMfmt (h : Hdr) (a : BitVec 6) (s : State) : Out := issue h [rId a] (fun s => pushFormat (getReg s a) s) s

/-- Claim one use of the oldest format word (R259). -/
def claimWord (accs : List Nat) (k : MxK) : MxK :=
  match k.words with
  | [] => k
  | (w, n) :: rest =>
    { k with
      words := if n ≤ 1 then rest else (w, n - 1) :: rest
      out := accs.foldl (fun o i => o.setIfInBounds i (fmtOfCode (wbits w 52 4))) k.out }

/-- The checks of R273, in order; `desc` is the descriptor. -/
def tileChecks (k : MxK) (n : Nest) (desc : Word) : Option TrapInfo :=
  let fa := k.fur[n.base.af]
  let fb := k.fur[n.base.bf]
  let bad (f : FurCfg) : Bool := f.cap == 0 || !operandFmt f.fmt
  let wnd (reason : Nat) (f : Fin 16) : Option TrapInfo := some (windowTrap reason f.val desc false)
  let out (v : FurCfg) (b : Nat) (st : MLevel → Int) (extra : Nat) : Bool :=
    let r := offsetRange st n.levels
    decide ((b : Int) + r.1 < 0) || decide ((v.cap : Int) ≤ (b : Int) + r.2 + extra)
  if bad fa then wnd 0 n.base.af
  else if bad fb then wnd 0 n.base.bf
  else match k.words with
    | [] => some (trapAt .fmtEmpty desc)
    | (w, _) :: _ =>
      if fmtOfCode (wbits w 60 4) != fa.fmt || fmtOfCode (wbits w 56 4) != fb.fmt then some (trapAt .fmtBad desc)
      else
        let t := tilesRead n.base.mode
        let rq := offsetRange strideC n.levels
        if out fa n.base.i strideA (t.1 - 1) || decide (fa.cap < n.popA) then wnd 6 n.base.af
        else if out fb n.base.j strideB (t.2 - 1) || decide (fb.cap < n.popB) then wnd 6 n.base.bf
        else if (n.base.q : Int) + rq.1 < 0 ∨ 3 < (n.base.q : Int) + rq.2 then wnd 6 n.base.af
        else none

/-- Issue a nest that has been checked. -/
def nestIssue (mk : MxK → Nest) (desc : Word) (ev : Bool) (tag : BitVec 11) (s : State) : Result :=
  let k := (mxOf s).k
  let n := mk k
  match tileChecks k n desc with
  | some t => .trap t
  | none =>
    let sm : BitVec 2 := match k.words with
      | (w, _) :: _ => w.extractLsb' 32 2
      | [] => 0
    mxIssue [⟨.nest { n with base := { n.base with sm := sm } }, 0, ev, tag⟩] (claimWord (nestAccs n)) s

/-- Sub-array and slot of an accumulator field: in quad mode it is an accumulator number (R272). -/
def subSlot (mode : Fusion) (c : Nat) : Nat × Nat := if mode == .quad then (c / 4, c % 4) else (0, c)

def usedLevels (k : MxK) : List MLevel := k.table.toList.filter (fun l => l.count != 0)

def mgoNest (w : Word) (k : MxK) : Nest :=
  let ls := usedLevels k
  let c := subSlot k.mode (wbits w 8 4)
  { base := ⟨Fin.ofNat 16 (wbits w 0 4), Fin.ofNat 16 (wbits w 4 4), k.mode, c.1, 0, 0, 0, c.2⟩
    z := w.getLsbD 40, levels := ls, total := (ls.map (fun l => l.count.toNat)).foldl (· * ·) 1, next := 0, zeroed := []
    marked := false, popA := wbits w 16 12, popB := wbits w 28 12, fin := none }

def execMgo (h : Hdr) (a : BitVec 6) (ev : Bool) (tag : BitVec 11) (s : State) : Out :=
  issue h [rId a] (fun s =>
    let w := getReg s a
    if !zeroBits w 41 23 || !zeroBits w 12 4 then .trap (reservedValue w)
    else nestIssue (mgoNest w) w ev tag s) s

def mtileNest (w : Word) (k : MxK) : Nest :=
  let c := subSlot k.mode (wbits w 32 4)
  let t := tilesRead k.mode
  { base := ⟨Fin.ofNat 16 (wbits w 0 4), Fin.ofNat 16 (wbits w 16 4), k.mode, c.1, 0, wbits w 4 12, wbits w 20 12, c.2⟩
    z := w.getLsbD 38, levels := [], total := 1, next := 0, zeroed := [], marked := false
    popA := if w.getLsbD 36 then t.1 else 0, popB := if w.getLsbD 37 then t.2 else 0, fin := none }

def execMtile (h : Hdr) (a : BitVec 6) (ev : Bool) (tag : BitVec 11) (s : State) : Out :=
  issue h [rId a] (fun s =>
    let w := getReg s a
    if !zeroBits w 39 25 then .trap (reservedValue w) else nestIssue (mtileNest w) w ev tag s) s

/-- Every matrix command issued before has completed, retirements included (R276). -/
def matrixIdle (s : State) : Bool :=
  !s.checkq.any (fun c => isMxAction c.act) && (mxOf s).cmds.isEmpty && (mxOf s).pops.isEmpty && (mxOf s).owed.isEmpty

/-- All that the engine still has to do waits for tiles of its furrows (R257, R263). -/
def tileWait (s : State) : Bool :=
  !s.checkq.any (fun c => isMxAction c.act) && (matrixPick s).isNone && (drainPick s).isNone && !markerPick s &&
    (owedPick s).isNone && (mxOf s).cmds.all (fun c => decide (c.ready ≤ s.now) && (match c.op with
      | .nest n => n.fin.isNone
      | _ => false))

/-- `mwait`. It waits at issue, as `barw` and `bara`'s wait step do, so the next word's IDLE counts from the end of the wait:
DESIGN CHOICE (log 73). -/
def execMwait (h : Hdr) (s : State) : Out := issue h [] (fun s => if matrixIdle s then .done (enqueue (.mx []) 0 0 s) 0 else .wait s) s

def execMzero (h : Hdr) (a : BitVec 6) (s : State) : Out :=
  issue h [rId a] (fun s =>
    let w := getReg s a
    if !zeroBits w 16 48 then .trap (reservedValue w)
    else mxIssue [⟨.zero (w.extractLsb' 0 16), 0, false, 0⟩] id s) s

def execMdrain (h : Hdr) (f : BitVec 4) (a : BitVec 6) (ev : Bool) (tag : BitVec 11) (s : State) : Out :=
  issue h [rId a] (fun s =>
    let w := getReg s a
    let k := (mxOf s).k
    let g := w.getLsbD 4
    let v := k.fur[f.toFin]
    let accs := if g then (List.range 4).map (fun i => 4 * i + wbits w 0 2) else [wbits w 0 4]
    if !zeroBits w 5 59 || (g && !zeroBits w 2 2) then .trap (reservedValue w)
    else if v.cap == 0 || !outFmt v.fmt || (g && k.mode == .quad) then .trap (windowTrap 0 f.toNat w false)
    else if accs.any (fun i => k.out[i]?.getD .none != v.fmt) then .trap (trapAt .fmtBad w)
    else mxIssue [⟨.marker accs, 0, false, tag⟩, ⟨.drain f.toFin accs (lowestOf accs), 0, ev, tag⟩] id s) s

def execMtsm (h : Hdr) (s : State) : Out := issue h [] (fun s => mxIssue [⟨.marker [], 0, false, 0⟩] id s) s

/-- Records that other furrows, as K has issued them, and window tiles take (R283). -/
def recordsFor (s : State) (f : Fin 16) : Nat :=
  ((List.finRange 16).map (fun g => if g == f then 0 else ((mxOf s).k.fur[g]).cap)).foldl (· + ·) 0 +
    ((ownRecords s).filter (fun r => r.owner.isNone)).length

/-- A window tile, or the scale words of one, lies in a run of named offsets (R284). -/
def windowsMeet (s : State) (off len : Nat) : Bool :=
  match spadMap s false off len with
  | none => false
  | some p => s.side.any (fun r => r.owner.isNone && (overlaps p len r.base (tileBytes r.fmt) || (match r.scaleAt with
      | some a => overlaps p len a 128
      | none => false)))

/-- The checks of `fset` with CAP > 0 (R277, R283). -/
def fsetFault (s : State) (f : Fin 16) (g : FurCfg) (w : Word) : Option TrapInfo :=
  let len := g.cap * slotBytes g.fmt
  let wnd (reason : Nat) : Option TrapInfo := some (windowTrap reason f.val w false)
  if g.cap = 0 then none
  else if !furrowFmt g.fmt then wnd 0
  else if g.base % 128 != 0 || decide (0x7F0000 < g.base + len) || (spadMap s false g.base len).isNone then wnd 1
  else if (List.finRange 16).any (fun h => h != f && (let v := (mxOf s).k.fur[h]; v.cap != 0 && overlaps g.base len v.base (v.cap * slotBytes v.fmt))) then
    wnd 4
  else if windowsMeet s g.base len then wnd 4
  else if recordCap s < recordsFor s f + g.cap then wnd 7
  else none

def execFset (h : Hdr) (f : BitVec 4) (a : BitVec 6) (s : State) : Out :=
  issue h [rId a] (fun s =>
    let w := getReg s a
    let g : FurCfg := ⟨fmtOfCode (wbits w 36 4), wbits w 24 12, wbits w 0 23⟩
    if !zeroBits w 40 24 || !zeroBits w 23 1 then .trap (reservedValue w)
    else if furrowBound s f.toFin then .trap (boundTrap false (furOf s f.toFin).base)
    else match fsetFault s f.toFin g w with
      | some t => .trap t
      | none =>
        let g1 : FurCfg := if g.cap = 0 then ⟨.none, 0, 0⟩ else g
        mxIssue [⟨.fset f.toFin g1, 0, false, 0⟩] (fun k => { k with fur := k.fur.set f.toFin g1 }) s) s

/-- The value of `fget` as the engine samples it (R278). -/
def fgetValue (s : State) (state : Bool) (f : Fin 16) : Word :=
  let v := furOf s f
  let pend := (((mxOf s).pops ++ (mxOf s).owed).filter (fun p => p.1 == f)).foldl (fun n p => n + p.2) 0
  if state then BitVec.ofNat 64 (v.head * 2 ^ 39 + pend % 8192 * 2 ^ 26 + v.fill.length * 2 ^ 13 + v.present)
  else furrowImage v

def execFget (h : Hdr) (state : Bool) (d : BitVec 6) (f : BitVec 4) (s : State) : Out :=
  issue h [] (fun s => .done (modCtx (issuerOf s) (markBusy d s.words) (enqueue (.fget state f.toFin d) 0 0 s)) 0) s

def execFdrop (h : Hdr) (f : BitVec 4) (a : BitVec 6) (s : State) : Out :=
  issue h [rId a] (fun s =>
    let w := getReg s a
    if !zeroBits w 12 52 then .trap (reservedValue w)
    else if ((mxOf s).k.fur[f.toFin]).cap == 0 then .trap (windowTrap 0 f.toNat w false)
    else mxIssue [⟨.marker [], 0, false, 0⟩, ⟨.fdrop f.toFin (wbits w 0 12), 0, false, 0⟩] id s) s

end Sys2Proof.Machine
end

