-- ==== Sys2Proof/Machine/Compose.lean ====
section
/-! DEFINITION. Map composition: the engine's slots and commands, their units of work, deferred faults, and the
instructions of chapter 11. -/

namespace Sys2Proof.Machine

def mcOf (s : State) : Mce := s.task.mc
def setMc (m : Mce) (s : State) : State := { s with task.mc := m }
def modMc (f : Mce → Mce) (s : State) : State := setMc (f s.task.mc) s

/-- The detail of an MCE fault (R308): REASON, D, TAG. -/
def mcTrap (c : Cause) (reason : Nat) (deferred : Bool) (tag : BitVec 11) (operand : Nat) : TrapInfo :=
  ⟨c, reason * 2 ^ 28 + (if deferred then 2 ^ 27 else 0) + tag.toNat * 2 ^ 16, BitVec.ofNat 64 operand⟩
def mcFault (c : Cause) (reason operand : Nat) : TrapInfo := mcTrap c reason false 0 operand

/-! ### Sizes (R301, R302) -/

def slotLen (c : McCfg) : Nat := (c.n * c.w + 63) / 64 * 64
def stateRow (c : McCfg) : Nat := (c.v * c.w + 63) / 64 * 64

/-- The map store that the running context holds. -/
def mapStore (s : State) : Nat :=
  if s.holds == 0 then 0x80000
  else
    let bulk := s.bulkShare[s.die.toNat]! * 0x80000
    0x80000 * (if s.holds == 1 then bulk else Config.spadCompute - bulk) / Config.spadCompute
def slotCount (s : State) (c : McCfg) : Nat := Nat.min 4096 (mapStore s / slotLen c)

/-! ### Slots (R300, R303, R304, R310) -/

/-- A slot as the engine writes it: the flags come from the entries. -/
def mapOf (vals : List Nat) : McMap :=
  ⟨vals, vals == List.range vals.length, if vals.all (· == vals.headD 0) then vals.head? else none, none⟩

def setSlot (n : Nat) (v : McMap) (s : State) : State :=
  modMc (fun m => { m with slots := m.slots.filter (fun p => p.1 != n) ++ [(n, v)] }) s
def dropSlots (l : List Nat) (s : State) : State :=
  modMc (fun m => { m with slots := m.slots.filter (fun p => !l.contains p.1) }) s
def slotOf (s : State) (n : Nat) : Option McMap := ((mcOf s).slots.find? (fun p => p.1 == n)).map (·.2)

/-- An event of the engine (R319). -/
def mcEvent (kind slot : Nat) (tag : BitVec 11) (s : State) : State :=
  portEvent .mc 24 (BitVec.ofNat 64 (slot * 2 ^ 32 + kind * 2 ^ 16 + tag.toNat)) s

/-- Read a slot as a source: its entries, after a second read where the first one fails its check code. -/
def mcSource (n : Nat) (tag : BitVec 11) (s : State) : Except TrapInfo (List Nat × State) :=
  match slotOf s n with
  | none => .error (mcTrap .mcSlot 1 true tag n)
  | some m =>
    match m.err with
    | none => .ok (m.vals, s)
    | some false => .ok (m.vals, logAdd .transient [n] (mcEvent 2 n tag (setSlot n { m with err := none } s)))
    | some true => .error (mcTrap .eccUc 0 true tag n)

/-- a∘b (R300). -/
def composeMaps (a b : List Nat) : List Nat := a.map (fun x => b.getD x 0)

/-! ### Reading memory (R302, R308) -/

/-- Entry i of a row of w-byte indices at a virtual address: its value, or the fault of its access. -/
def mcEntry (s : State) (firm : Bool) (va : Word) (w i : Nat) (tag : BitVec 11) : Except TrapInfo Nat :=
  let a := va + BitVec.ofNat 64 (i * w)
  match runsCheck s .mc firm [(a, w)] true false .unbound with
  | .error t => .error (mcTrap t.cause 0 true tag t.operand.toNat)
  | .ok ps =>
    if segsBad s.memBad (piecesSegs ps) then .error (mcTrap .eccUc 0 true tag a.toNat)
    else .ok (leVal (segRead s.mem (piecesSegs ps)))

/-- An index: an entry below n (R313). -/
def mcIndex (s : State) (c : McCfg) (firm : Bool) (va : Word) (i : Nat) (tag : BitVec 11) : Except TrapInfo Nat :=
  match mcEntry s firm va c.w i tag with
  | .error t => .error t
  | .ok v => if c.n ≤ v then .error (mcTrap .mcStates 1 true tag v) else .ok v

/-- Indices i, i + 1, …, k of them, up to the first that fails. -/
def mcIndices (s : State) (c : McCfg) (firm : Bool) (va : Word) (tag : BitVec 11) : Nat → Nat → List Nat × Option TrapInfo
  | _, 0 => ([], none)
  | i, k + 1 =>
    match mcIndex s c firm va i tag with
    | .error t => ([], some t)
    | .ok v => let r := mcIndices s c firm va tag (i + 1) k; (v :: r.1, r.2)

/-- The translations of a row that has been read are in the engine's TLB (R180). -/
def mcTlb (firm : Bool) (va : Word) (len : Nat) (s : State) : State :=
  match runsCheck s .mc firm [(va, len)] true false .unbound with
  | .ok ps => tlbUse .mc ps s
  | .error _ => s

def mcLatency (s : State) (firm : Bool) (va : Word) (len : Nat) : Nat :=
  match runsCheck s .mc firm [(va, len)] true false .unbound with
  | .ok ps => piecesLatency ps
  | .error _ => 0

def rowVa (c : McCfg) (t : Nat) : Word := c.tok + BitVec.ofNat 64 (t * slotLen c)

/-! ### One unit of a command (R304, R313 to R318, R321) -/

/-- What a unit of the first command does. -/
inductive McUnit where
  /-- the command with its new progress, after this many cycles -/
  | go (s : State) (c : McCmd) (cycles : Nat)
  /-- a deferred fault: the slot concerned, and the slots that become invalid -/
  | fail (s : State) (c : McCmd) (t : TrapInfo) (slot : Nat) (dead : List Nat)
  /-- a reply to the waiting word -/
  | reply (s : State) (v : Except TrapInfo Nat)
  | stall (s : State)

/-- Load one map into a slot, going on after the entries already written; `next` is the command after it. -/
def loadMap (cfg : McCfg) (c : McCmd) (slot : Nat) (va : Word) (dead : List Nat) (cycles : Nat) (next : McCmd) (s : State) :
    McUnit :=
  let r := mcIndices s cfg c.firm va c.tag c.part.length (cfg.n - c.part.length)
  match r.2 with
  | some t => .fail s { c with part := c.part ++ r.1 } t slot dead
  | none =>
    .go (setSlot slot (mapOf (c.part ++ r.1)) (mcTlb c.firm va (cfg.n * cfg.w) s)) { next with part := [] }
      (cycles + (cfg.n + 63) / 64)

/-- The ids of a list in scratchpad: none where a byte is poisoned. -/
def readIds (s : State) (firm : Bool) (list count : Nat) : List (Option Nat) :=
  (List.range count).map (fun i =>
    match spadMap s firm (list + 4 * i) 4 with
    | none => none
    | some p => if anyBad s.spadBad p 4 then none else some (memWord s.spad p 4))

def touchRun (firm : Bool) (off len : Nat) (s : State) : State :=
  match spadMap s firm off len with
  | some p => if firm || len = 0 then s else touchGuards off p len s
  | none => s

/-- A unit of `mcld.l`: its list, then the map of its next id. With COUNT 0 its time still holds the latency of the table
(R320). -/
def listUnit (cfg : McCfg) (c : McCmd) (first count list : Nat) (s : State) : McUnit :=
  match c.ids with
  | none =>
    .go (touchRun c.firm list (4 * count) s) { c with ids := some (readIds s c.firm list count), spent := count = 0 }
      (12 + if count = 0 then mcLatency s c.firm (rowVa cfg 0) (cfg.n * cfg.w) else 0)
  | some ids =>
    let i := c.step
    let dead := (List.range (count - i)).map (first + i + ·)
    let again := { c with ids := none }
    match ids.getD i none with
    | none => .fail s again (mcTrap .eccUc 0 true c.tag (list + 4 * i)) (first + i) dead
    | some t =>
      if cfg.v ≤ t then .fail s again (mcTrap .mcStates 3 true c.tag t) (first + i) dead
      else match loadMap cfg c (first + i) (rowVa cfg t) dead
          (if i = 0 then mcLatency s c.firm (rowVa cfg t) (cfg.n * cfg.w) else 0) { c with step := i + 1, spent := count ≤ i + 1 } s with
        | .fail s1 c1 t1 sl d => .fail s1 { c1 with ids := none } t1 sl d
        | u => u

/-- The bytes of `mcst`: the indices, then zeros (R314). -/
def slotBytesOf (cfg : McCfg) (vals : List Nat) : List Byte :=
  let b := vals.flatMap (leBytes cfg.w)
  b ++ List.replicate (slotLen cfg - b.length) 0

/-- How many bytes from `va` up may be stored, and the fault at the next one. -/
def storable (s : State) (firm : Bool) (va : Word) (len : Nat) : Nat × Option TrapInfo :=
  match runsCheck s .mc firm [(va, len)] false true .unbound with
  | .ok _ => (len, none)
  | .error t => (Nat.min len (t.operand - va).toNat, some t)

/-- Store to global memory: one unit of egress; it stalls at the Sluice (R314, R439). -/
def storeGlobal (c : McCmd) (slot : Nat) (va : Word) (bytes : List Byte) (cycles : Nat) (s : State) : McUnit :=
  let done := c.part.length
  let at_ := va + BitVec.ofNat 64 done
  let r := storable s c.firm at_ (bytes.length - done)
  let bs := (bytes.drop done).take r.1
  match runsCheck s .mc c.firm [(at_, r.1)] false true .unbound with
  | .error t => .fail s c (mcTrap t.cause 0 true c.tag t.operand.toNat) slot []
  | .ok ps =>
    let ctx := ctxNum s c.firm
    let n := egressBytes ps
    if !egressPassed s .mce ctx n then .stall (egressAsk .mce ctx n s)
    else
      let put (s : State) : State := memWriteBy (piecesSegs ps) bs (tlbUse .mc ps s)
      let s1 := if bs.isEmpty then s else egressOf c.firm (put s)
      let s2 := egressDone .mce ctx n s1
      match r.2 with
      | none => .go s2 { c with spent := true } (piecesLatency ps + cycles)
      | some t =>
        .fail s2 { c with part := c.part ++ List.replicate r.1 0 } (mcTrap t.cause 0 true c.tag t.operand.toNat) slot []

/-- The pairs of `mctree`, level by level (R316): offsets i and i + span from FIRST. -/
def treePairs (t : Nat) : Nat → Nat → List (Nat × Nat)
  | 0, _ => []
  | fuel + 1, span =>
    if t ≤ span then []
    else ((List.range t).filter (fun i => i % (2 * span) == 0 && decide (i + span < t))).map (fun i => (i, i + span)) ++
      treePairs t fuel (2 * span)

/-- Destination, source a and source b (none: a copy of a) of every step of an `mctree`. -/
def treeSteps (dest first t : Nat) : List (Nat × Nat × Option Nat) :=
  (treePairs t 13 1).map (fun p => (first + p.1, first + p.1, some (first + p.2))) ++
    (if dest == first then [] else [(dest, first, none)])

/-- Write slot d as a∘b, or as a copy of a. -/
def composeUnit (cfg : McCfg) (c : McCmd) (d a : Nat) (b : Option Nat) (dead : List Nat) (next : McCmd) (s : State) : McUnit :=
  match mcSource a c.tag s with
  | .error t => .fail s c t a dead
  | .ok (va, s1) =>
    match b with
    | none => .go (setSlot d (mapOf va) s1) next ((cfg.n + 255) / 256)
    | some b =>
      match mcSource b c.tag s1 with
      | .error t => .fail s1 c t b dead
      | .ok (vb, s2) =>
        let m := mapOf va
        let n := mapOf vb
        let time := if m.const.isSome || n.const.isSome then 1
          else if m.ident || n.ident then (cfg.n + 255) / 256 else (cfg.n + 63) / 64
        .go (setSlot d (mapOf (composeMaps va vb)) s2) next time

def treeUnit (cfg : McCfg) (c : McCmd) (dest first t : Nat) (s : State) : McUnit :=
  let steps := treeSteps dest first t
  match steps.drop c.step with
  | [] => .go s { c with spent := true } 4
  | (d, a, b) :: rest =>
    match composeUnit cfg c d a b (d :: rest.map (·.1)) { c with step := c.step + 1, spent := rest.isEmpty } s with
    | .go s1 c1 n => .go s1 c1 (if c.step = 0 then n + 4 else n)
    | u => u

/-- Whether each of k tokens from t up is legal in a state, up to the first entry that fails (R318). -/
def maskBits (s : State) (cfg : McCfg) (c : McCmd) (state : Nat) : Nat → Nat → List Bool × Option TrapInfo
  | _, 0 => ([], none)
  | t, k + 1 =>
    let e := match cfg.st with
      | some b => mcIndex s cfg c.firm (b + BitVec.ofNat 64 (state * stateRow cfg)) t c.tag
      | none => mcIndex s cfg c.firm (rowVa cfg t) state c.tag
    match e with
    | .error f => ([], some f)
    | .ok v => let r := maskBits s cfg c state (t + 1) k; ((v != cfg.dead) :: r.1, r.2)

def packBits (l : List Bool) : Nat := packElems 1 (l.map (fun b => if b then 1 else 0))

/-- The translations that the entries of k tokens from t up have used (R180, R308). -/
def maskTlb (cfg : McCfg) (c : McCmd) (state t k : Nat) (s : State) : State :=
  match cfg.st with
  | some b =>
    if k = 0 then s else mcTlb c.firm (b + BitVec.ofNat 64 (state * stateRow cfg) + BitVec.ofNat 64 (t * cfg.w)) (k * cfg.w) s
  | none =>
    (List.range k).foldl (fun s i => mcTlb c.firm (rowVa cfg (t + i) + BitVec.ofNat 64 (state * cfg.w)) cfg.w s) s

/-- A unit of `mcmsk`: 1,024 tokens. -/
def maskUnit (cfg : McCfg) (c : McCmd) (state addr : Nat) (s : State) : McUnit :=
  let t := c.step
  let k := Nat.min 1024 (cfg.v - t)
  let r := maskBits s cfg c state t k
  let whole := if r.2.isSome then r.1.length / 8 else (k + 7) / 8
  let off := addr + t / 8
  let bs := leBytes whole (packBits (r.1.take (8 * whole)))
  let s0 := maskTlb cfg c state t r.1.length s
  let s1 := match spadMap s c.firm off whole with
    | some p => spadWrite p bs s0
    | none => s0
  match r.2 with
  | some f => .fail s1 { c with step := t + 8 * whole } f 0 []
  | none =>
    let lat := if t ≠ 0 then 0
      else match cfg.st with
        | some b => mcLatency s c.firm (b + BitVec.ofNat 64 (state * stateRow cfg)) (cfg.v * cfg.w)
        | none => mcLatency s c.firm (rowVa cfg 0) cfg.w
    .go s1 { c with step := t + k, spent := cfg.v ≤ t + k }
      (lat + (if cfg.st.isSome then (k * cfg.w + 63) / 64 else k))

/-- A reply's fault is precise at the waiting word. -/
def precise (t : TrapInfo) : TrapInfo := { t with detail := t.detail / 2 ^ 28 * 2 ^ 28 }

/-- A slot that `mcapp` or `mcchk` reads: an invalid one is a fault at the waiting word, an error in the map store is
deferred (R310, R317). -/
def readSlot (c : McCmd) (slot : Nat) (f : List Nat → State → McUnit) (s : State) : McUnit :=
  match mcSource slot 0 s with
  | .error t => if t.cause == .eccUc then .fail s c t slot [] else .reply s (.error (precise t))
  | .ok (vals, s1) => f vals s1

/-- The cycles from the start of `mcapp`, `mcapp.t` and `mcchk` to their reply (R320). -/
def replyCycles (c : McCmd) (s : State) : Option Nat :=
  match c.op, (mcOf s).cfg with
  | .app _ _, some _ | .chk _ _, some _ => some 2
  | .appT _ t, some cfg => some (mcLatency s c.firm (rowVa cfg t) (cfg.n * cfg.w) + 4)
  | _, _ => none

/-- One unit of the first command. -/
def mcUnit (c : McCmd) (s : State) : McUnit :=
  match c.op, (mcOf s).cfg with
  | .cfg g, _ => .go (modMc (fun m => { m with cfg := some g, slots := [] }) s) { c with spent := true } 4
  | .rst, _ => .go s { c with spent := true } 4
  | _, none => .go s { c with spent := true } 0
  | .load slot t, some cfg =>
    loadMap cfg c slot (rowVa cfg t) [slot] (mcLatency s c.firm (rowVa cfg t) (cfg.n * cfg.w)) { c with spent := true } s
  | .loadRaw slot va, some cfg =>
    loadMap cfg c slot va [slot] (mcLatency s c.firm va (cfg.n * cfg.w)) { c with spent := true } s
  | .loadList first count list, some cfg => listUnit cfg c first count list s
  | .store glob slot va, some cfg =>
    match mcSource slot c.tag s with
    | .error t => .fail s c t slot []
    | .ok (vals, s1) =>
      let bytes := slotBytesOf cfg vals
      if glob then storeGlobal c slot va bytes ((cfg.n + 63) / 64) s1
      else
        let s2 := match spadMap s1 c.firm va.toNat bytes.length with
          | some p => spadWrite p bytes s1
          | none => s1
        .go s2 { c with spent := true } (4 + (cfg.n + 63) / 64)
  | .comp d a b, some cfg =>
    match composeUnit cfg c d a (some b) [d] { c with spent := true } s with
    | .go s1 c1 t => .go s1 c1 (t + 4)
    | u => u
  | .tree dest first t, some cfg => treeUnit cfg c dest first t s
  | .mask state addr, some cfg => maskUnit cfg c state addr s
  | .app state slot, some _ => readSlot c slot (fun vals s => .reply s (.ok (vals.getD state 0))) s
  | .appT state t, some cfg =>
    let va := rowVa cfg t
    match mcIndex s cfg c.firm va state 0 with
    | .error f => .reply s (.error (precise f))
    | .ok v => .reply (mcTlb c.firm va (cfg.n * cfg.w) s) (.ok v)
  | .chk fn slot, some cfg =>
    readSlot c slot (fun vals s =>
      let m := mapOf vals
      let b := match fn with
        | .const => m.const.isSome
        | .ident => m.ident
        | .dead => m.const == some cfg.dead
      .reply s (.ok (if b then 1 else 0))) s

/-- One unit of the first command; a command with a reply first takes its time. -/
def mcStep (c : McCmd) (s : State) : McUnit :=
  match replyCycles c s with
  | some n => if c.step = 0 then .go s { c with step := 1 } n else mcUnit c s
  | none => mcUnit c s

/-! ### The engine's step -/

def discards : McOp → Bool
  | .cfg _ | .rst => true
  | _ => false

/-- The engine can act. -/
def mcRuns (s : State) : Bool :=
  match (mcOf s).queue with
  | [] => false
  | c :: rest =>
    if (mcOf s).failed.isSome then rest.any (fun d => discards d.op)
    else decide (c.ready ≤ s.now) && !egressWaits s .mce (ctxNum s c.firm)

/-- A command that has not begun: it has done nothing, and does not stand before a Sluice. -/
def mcFresh (s : State) (c : McCmd) : Bool :=
  c.step == 0 && c.part.isEmpty && c.ids.isNone && !c.spent && !s.egress.any (fun g => g.user == .mce && g.ctx == ctxNum s c.firm)

/-- The engine stands at a save point: no command is under way, or one that stops between its maps, pairs or runs of 1,024
tokens does so; the others run to completion (R321). -/
def mceAtSave (s : State) : Bool :=
  match (mcOf s).queue with
  | [] => true
  | c :: _ => (mcOf s).failed.isSome || mcFresh s c || (match c.op with
    | .loadList .. | .tree .. | .mask .. => decide (0 < c.step) && decide (c.ready ≤ s.now) && c.part.isEmpty && !c.spent
    | _ => false)

def mcHead (c : McCmd) (s : State) : State := modMc (fun m => { m with queue := c :: m.queue.drop 1 }) s

/-- The first command completes: it leaves the queue and pushes its event. -/
def mcComplete (c : McCmd) (s : State) : State :=
  let s1 := modMc (fun m => { m with queue := m.queue.drop 1, cont := false }) s
  if c.ev then mcEvent 0 0 c.tag s1 else s1

def addReply (r : Reply) (s : State) : State := { s with replies := s.replies.filter (fun q => q.id != r.id) ++ [r] }

/-- MCE_COMMAND: an `mccfg` or `mccfg.rst` that has come discards a failed command; otherwise the first command does a
unit of its work, or completes (R304, R307, R311, R312). -/
def execMceCommand (s : State) : Out :=
  match (mcOf s).queue with
  | [] => .next s
  | c :: _ =>
    if !mcRuns s then .next s
    else if (mcOf s).failed.isSome then
      .next (modMc (fun m => { m with queue := m.queue.drop 1, failed := none, cont := false }) s)
    else if c.spent then .next (mcComplete c s)
    else match mcStep c s with
      | .go s1 c1 n => .next (mcHead { c1 with ready := s.now + n } s1)
      | .fail s1 c1 t slot dead =>
        .next (mcEvent 1 slot c.tag (mcHead c1
          (dropSlots dead (modMc (fun m => { m with failed := some (t, none), cont := false }) s1))))
      | .reply s1 v =>
        let r (id : Nat) : Reply := match v with
          | .ok x => ⟨id, BitVec.ofNat 64 x, 0, none⟩
          | .error t => ⟨id, 0, 0, some t⟩
        .next (mcHead { c with spent := true } (match c.id with
          | some id => addReply (r id) s1
          | none => s1))
      | .stall s1 => .next s1

/-! ### Issue (R305 to R309, R317) -/

/-- An `mccfg` or `mccfg.rst` is on its way: a failed command will be discarded, its fault never raised (R311). -/
def discardComing (s : State) : Bool :=
  (mcOf s).queue.any (fun c => discards c.op) || s.checkq.any (fun c => match c.act with
    | .mc d => discards d.op
    | _ => false)

/-- What a deferred fault makes of the next MCE instruction, or of `end`. -/
inductive McGate where
  | pass
  | wait (s : State)
  | raise (s : State) (t : TrapInfo)

/-- R307 and R309: an unraised fault is raised here; a word that comes again outside the handler makes the engine
continue the failed command, and waits for it. -/
def mcGate (s : State) : McGate :=
  match (mcOf s).failed with
  | some (t, raised) =>
    if discardComing s then .pass
    else if raised.isNone then
      if unconfirmed s (issuerOf s) then .wait s else .raise (modMc (fun m => { m with failed := some (t, some (pcOf s)) }) s) t
    else if (cur s).trp then .pass
    else
      .wait (modMc (fun m => { m with
        failed := none
        cont := true
        queue := match m.queue with
          | c :: cs => { c with ready := s.now + 4 } :: cs
          | [] => [] }) s)
  | none => if (mcOf s).cont && !(cur s).trp then .wait s else .pass

def isMcAction : Action → Bool
  | .mc _ => true
  | _ => false
def mcQueued (s : State) : Nat := (s.checkq.filter (fun c => isMcAction c.act)).length + (mcOf s).queue.length

def mcCmd (op : McOp) (firm ev : Bool) (tag : BitVec 11) (id : Option Nat) : McCmd :=
  ⟨op, firm, ev, tag, id, 0, 0, [], none, false⟩

/-- Issue a command, when the input FIFO has room. -/
def mcIssue (op : McOp) (ev : Bool) (tag : BitVec 11) (s : State) : Result :=
  if 32 ≤ mcQueued s then .wait s else .done (enqueue (.mc (mcCmd op (isFirm s) ev tag none)) 0 0 s) 0

/-- The gate, the configuration, then the body. -/
def mcBody (s : State) (f : McCfg → Result) : Result :=
  match mcGate s with
  | .wait s1 => .wait s1
  | .raise s1 t => .trapKeep s1 t
  | .pass => match (mcOf s).kcfg with
    | none => .trap (mcFault .mcStates 4 0)
    | some c => f c

/-- Send a request whose word waits for the reply. -/
def askWith (mk : Nat → Action) (s : State) : State :=
  let id := s.task.nextId
  modCtx (issuerOf s) (fun c => { c with asked := some id }) { enqueue (mk id) 0 0 s with task.nextId := id + 1 }

/-- The reply that the word waits for. -/
def replyOf (s : State) : Option Reply := (cur s).asked.bind (fun id => s.replies.find? (fun r => r.id == id && decide (r.ready ≤ s.now)))
/-- The word is waiting for a reply. -/
def isAsking (s : State) : Bool := hasIssued s && (cur s).asked.isSome
def clearAsk (s : State) : State :=
  modCtx (issuerOf s) (fun c => { c with asked := none })
    { s with replies := s.replies.filter (fun r => some r.id != (cur s).asked) }

/-- The word of a request waits again: its result, or the fault at the word. `wait`: how it waits. -/
def takeReply (wait : State → Result) (ok : Reply → State → Result) (s : State) : Result :=
  match replyOf s with
  | none => wait s
  | some r =>
    match r.fault with
    | some t => if unconfirmed s (issuerOf s) then wait s else .trapIssued (clearAsk s) t
    | none => ok r (clearAsk s)

/-- The wait of `mcapp` and `mcchk` (R317): a deferred fault of an earlier command is raised here, and the command that
the word has sent goes. -/
def mcAwait (ok : Reply → State → Result) (s : State) : Result :=
  match (mcOf s).failed with
  | some (t, none) =>
    if discardComing s || unconfirmed s (issuerOf s) then .waitIssued s
    else
      .trapIssued (clearAsk (modMc (fun m => { m with
        failed := some (t, some (pcOf s))
        queue := (m.queue.take 1).map (fun c => if c.id == (cur s).asked then { c with id := none } else c) ++
          (m.queue.drop 1).filter (fun c => c.id.isNone || c.id != (cur s).asked) }) s)) t
  | _ => takeReply .waitIssued ok s

def mcAsk (op : McOp) (s : State) : Result :=
  if 32 ≤ mcQueued s then .wait s
  else .waitIssued (askWith (fun id => .mc (mcCmd op (isFirm s) false 0 (some id))) s)

/-! ### The instructions -/

def low12 (w : Word) : Nat := wbits w 0 12
def low21 (w : Word) : Nat := wbits w 0 21

def mccfgFault (w tok : Word) (st : Option Word) : Option TrapInfo :=
  let n := wbits w 0 12 + 1
  if !zeroBits w 53 11 || !zeroBits w 28 4 || !zeroBits w 13 3 then some (reservedValue w)
  else if wbits w 32 21 = 0 || n ≤ wbits w 16 12 || (w.getLsbD 12 && decide (256 < n)) then some (mcFault .mcStates 0 w.toNat)
  else if misaligned tok 64 then some (trapAt .align tok)
  else if st.any (fun b => misaligned b 64) then some (trapAt .align (st.getD 0))
  else if !canonicalVa tok then some (trapAt .prot tok)
  else if st.any (fun b => !canonicalVa b) then some (trapAt .prot (st.getD 0))
  else none

def execMccfg (h : Hdr) (d a f : BitVec 6) (s : State) : Out :=
  issue h [rId d, rId a, rId f] (fun s =>
    let w := getReg s a
    let tok := getReg s f
    let st := if d = 0 then none else some (getReg s d)
    match mccfgFault w tok st with
    | some t => .trap t
    | none =>
      let g : McCfg := ⟨wbits w 0 12 + 1, if w.getLsbD 12 then 1 else 2, wbits w 16 12, wbits w 32 21, tok, st⟩
      if 32 ≤ mcQueued s then .wait s
      else
        .done (modMc (fun m => { m with kcfg := some g }) (enqueue (.mc (mcCmd (.cfg g) (isFirm s) false 0 none)) 0 0 s)) 0) s

/-- `mccfg.rst` discards the failed command, but where it is itself the word at which the fault was raised, and comes
again outside the handler (R309, R312). -/
def rstGate (s : State) : McGate :=
  match (mcOf s).failed with
  | some (_, some pc) => if pc == pcOf s then mcGate s else .pass
  | _ => mcGate s

def execMccfgRst (h : Hdr) (s : State) : Out :=
  issue h [] (fun s =>
    match rstGate s with
    | .wait s1 => .wait s1
    | .raise s1 t => .trapKeep s1 t
    | .pass => mcIssue .rst false 0 s) s

def execMcld (h : Hdr) (a f : BitVec 6) (ev : Bool) (tag : BitVec 11) (s : State) : Out :=
  issue h [rId a, rId f] (fun s => mcBody s (fun c =>
    let slot := low12 (getReg s f)
    let t := low21 (getReg s a)
    if slotCount s c ≤ slot then .trap (mcFault .mcSlot 0 slot)
    else if c.v ≤ t then .trap (mcFault .mcStates 3 t)
    else mcIssue (.load slot t) ev tag s)) s

def execMcldR (h : Hdr) (a f : BitVec 6) (ev : Bool) (tag : BitVec 11) (s : State) : Out :=
  issue h [rId a, rId f] (fun s => mcBody s (fun c =>
    let slot := low12 (getReg s f)
    let va := getReg s a
    if misaligned va 64 then .trap (trapAt .align va)
    else if !canonicalVa va then .trap (trapAt .prot va)
    else if slotCount s c ≤ slot then .trap (mcFault .mcSlot 0 slot)
    else mcIssue (.loadRaw slot va) ev tag s)) s

def execMcldL (h : Hdr) (a : BitVec 6) (ev : Bool) (tag : BitVec 11) (s : State) : Out :=
  issue h [rId a] (fun s => mcBody s (fun c =>
    let w := getReg s a
    let first := wbits w 36 12
    let count := wbits w 24 12
    let list := wbits w 0 23
    if !zeroBits w 48 16 || !zeroBits w 23 1 then .trap (reservedValue w)
    else if list % 4 != 0 then .trap (trapAt .align (BitVec.ofNat 64 list))
    else if (spadMap s (isFirm s) list (4 * count)).isNone then .trap (trapAt .prot (BitVec.ofNat 64 list))
    else if slotCount s c < first + count then .trap (mcFault .mcSlot 0 first)
    else mcIssue (.loadList first count list) ev tag s)) s

def execMcst (h : Hdr) (glob : Bool) (a f : BitVec 6) (ev : Bool) (tag : BitVec 11) (s : State) : Out :=
  issue h [rId a, rId f] (fun s => mcBody s (fun c =>
    let va := getReg s a
    let slot := low12 (getReg s f)
    if misaligned va 64 then .trap (trapAt .align va)
    else if (if glob then !canonicalVa va else (spadMap s (isFirm s) va.toNat (slotLen c)).isNone) then .trap (trapAt .prot va)
    else if slotCount s c ≤ slot then .trap (mcFault .mcSlot 0 slot)
    else mcIssue (.store glob slot va) ev tag s)) s

def execMccmp (h : Hdr) (a : BitVec 6) (ev : Bool) (tag : BitVec 11) (s : State) : Out :=
  issue h [rId a] (fun s => mcBody s (fun c =>
    let w := getReg s a
    if !zeroBits w 36 28 then .trap (reservedValue w)
    else match [wbits w 0 12, wbits w 12 12, wbits w 24 12].find? (fun x => decide (slotCount s c ≤ x)) with
      | some x => .trap (mcFault .mcSlot 0 x)
      | none => mcIssue (.comp (wbits w 0 12) (wbits w 12 12) (wbits w 24 12)) ev tag s)) s

def execMctree (h : Hdr) (a : BitVec 6) (ev : Bool) (tag : BitVec 11) (s : State) : Out :=
  issue h [rId a] (fun s => mcBody s (fun c =>
    let w := getReg s a
    let dest := wbits w 0 12
    let first := wbits w 12 12
    let t := wbits w 24 12
    if !zeroBits w 36 28 then .trap (reservedValue w)
    else if slotCount s c ≤ dest then .trap (mcFault .mcSlot 0 dest)
    else if t = 0 || slotCount s c < first + t then .trap (mcFault .mcSlot 0 first)
    else mcIssue (.tree dest first t) ev tag s)) s

/-- The result of `mcapp`: 12 bits. -/
def appDone (d : BitVec 6) (r : Reply) (s : State) : Result := writeReg d (r.val &&& 0xFFF) 1 s

def execMcapp (h : Hdr) (d a f : BitVec 6) (s : State) : Out :=
  issue h [rId a, rId f] (fun s =>
    if isAsking s then mcAwait (appDone d) s
    else mcBody s (fun c =>
      let state := low12 (getReg s a)
      let slot := low12 (getReg s f)
      if c.n ≤ state then .trap (mcFault .mcStates 2 state)
      else if slotCount s c ≤ slot then .trap (mcFault .mcSlot 0 slot)
      else mcAsk (.app state slot) s)) s

def execMcappT (h : Hdr) (d a f : BitVec 6) (s : State) : Out :=
  issue h [rId a, rId f] (fun s =>
    if isAsking s then mcAwait (appDone d) s
    else mcBody s (fun c =>
      let state := low12 (getReg s a)
      let t := low21 (getReg s f)
      if c.n ≤ state then .trap (mcFault .mcStates 2 state)
      else if c.v ≤ t then .trap (mcFault .mcStates 3 t)
      else mcAsk (.appT state t) s)) s

def execMcmsk (h : Hdr) (a f : BitVec 6) (ev : Bool) (tag : BitVec 11) (s : State) : Out :=
  issue h [rId a, rId f] (fun s => mcBody s (fun c =>
    let state := low12 (getReg s a)
    let addr := getReg s f
    if c.n ≤ state then .trap (mcFault .mcStates 2 state)
    else if misaligned addr 128 then .trap (trapAt .align addr)
    else if (spadMap s (isFirm s) addr.toNat ((c.v + 7) / 8)).isNone then .trap (trapAt .prot addr)
    else mcIssue (.mask state addr.toNat) ev tag s)) s

def execMcchk (h : Hdr) (fn : McchkFn) (pd : BitVec 4) (a : BitVec 6) (s : State) : Out :=
  issue h [rId a] (fun s =>
    if isAsking s then mcAwait (fun r s => .done (setPred pd (r.val != 0) s) 1) s
    else mcBody s (fun c =>
      let slot := low12 (getReg s a)
      if slotCount s c ≤ slot then .trap (mcFault .mcSlot 0 slot) else mcAsk (.chk fn slot) s)) s

end Sys2Proof.Machine
end

