-- ==== Sys2Proof/Machine/Tide.lean ====
section
/-! DEFINITION. The Tideline (R412, R413): chained and periodically signed records, and what waits when it is full. -/

namespace Sys2Proof.Machine

/-- The source number of the Tithe unit and the service core (R410). -/
def titheSource : Nat := 0x60

/-- Records of 192 bytes that a payload takes: a head, and continuations of 40 bytes each. -/
def tideParts (n : Nat) : Nat := Nat.max 1 ((n + 39) / 40)

/-- The records that a request has appended fit into the region; a request whose records would not fit waits (R413). -/
def tideFits (t : State) : Bool := decide (t.tide.length ≤ Config.tideRecords)
/-- A request is carried out when its records fit; else it waits, and nothing of it is done (R413). -/
def whenFits (f : State → State) (s : State) : State := if tideFits (f s) then f s else s

/-- The kind of a continuation record. -/
def tideCont : Nat := 0x7FFF

/-- Bytes +0x00 to +0x3F of a record. -/
def tideHead (r : TideRec) : List Byte :=
  leBytes 8 r.seq ++ leBytes 8 r.time ++ leBytes 2 r.source ++ leBytes 2 (r.kind + if r.signed then 0x8000 else 0) ++
    leBytes 2 r.boot ++ leBytes 2 r.part ++ (r.bytes ++ List.replicate (40 - r.bytes.length) 0)

/-- Append one record of 192 bytes: the chain, and the signature where it is due. -/
def tideOne (source kind part : Nat) (bytes : List Byte) (fields : List Nat) (s : State) : State :=
  let signed := s.tideSeq % 64 == 63 || s.tideSeal
  let r0 : TideRec := ⟨s.tideSeq, ticks s, source, kind, signed, s.boots, part, bytes, [], [], fields⟩
  let chain := sha512 (s.tideChain ++ tideHead r0)
  let sig := if signed then edSign Config.identityKey (tideHead r0 ++ chain) else List.replicate 64 0
  let full := 4 * s.tide.length < 3 * Config.tideRecords && 3 * Config.tideRecords ≤ 4 * (s.tide.length + 1)
  (if full then notify titheSource .tideline else id) { s with
    tide := s.tide ++ [{ r0 with chain := chain, sig := sig }]
    tideSeq := s.tideSeq + 1
    tideChain := chain
    tideSeal := false }

/-- The continuations of a payload: those from part k on. -/
def tideRest (source : Nat) : Nat → Nat → List Byte → State → State
  | 0, _, _, s => s
  | n + 1, k, bytes, s => tideRest source n (k + 1) (bytes.drop 40) (tideOne source tideCont k (bytes.take 40) [] s)

/-- Append a record with its continuations. -/
def tidePut (source kind : Nat) (fields : List Nat) (bytes : List Byte) (s : State) : State :=
  let b := bytes.take 1024
  tideRest source (tideParts b.length - 1) 1 (b.drop 40) (tideOne source kind b.length (b.take 40) fields s)

/-- Append a record whose payload layout the manual does not give: its bytes are a free value of its fields (log 13). -/
def tideAdd (source kind : Nat) (fields : List Nat) (s : State) : State :=
  tidePut source kind fields (Config.tideBytes kind fields) s

end Sys2Proof.Machine
end

