-- ==== Sys2Proof/Machine/Copy.lean ====
section
/-! DEFINITION. The copy engine with inline decryption, and its instructions (chapter 13, R346 to R354). -/

namespace Sys2Proof.Machine

def cpOf (s : State) : Cp := s.task.cp
def modCp (f : Cp → Cp) (s : State) : State := { s with task.cp := f s.task.cp }

/-! ### Blocks that K reads (R346) -/

/-- A block of `n` bytes, aligned to its size, read from scratchpad as `lds` reads: its bytes, or what stops it. -/
def readBlock (a : Word) (n : Nat) (s : State) : Except Result (List Byte × State) :=
  if misaligned a n then .error (.trap (trapAt .align a))
  else match spadMap s (isFirm s) a.toNat n with
    | none => .error (.trap (trapAt .prot a))
    | some p =>
      if !mayLoad s true [⟨p, n⟩] 0 then .error (waitToLoad true [⟨p, n⟩] 0 s)
      else match (List.range (n / 8)).find? (fun i => anyBad s.spadBad (p + 8 * i) 8) with
        | some i => .error (.trap (trapAt .eccUc (a + BitVec.ofNat 64 (8 * i))))
        | none => .ok (memRead s.spad p n, if isFirm s then s else touchGuards a.toNat p n s)

/-- A little-endian field of a block. -/
def fieldAt (b : List Byte) (off n : Nat) : Nat := leVal ((b.drop off).take n)

/-! ### Command blocks (R347, R348) -/

def cpParse (b : List Byte) (two : Bool) : CpBlk :=
  let f := fieldAt b 0x18 4
  { dst := BitVec.ofNat 64 (fieldAt b 0 8), src := BitVec.ofNat 64 (fieldAt b 8 8), len := fieldAt b 0x10 5
    rows := if two then fieldAt b 0x1C 4 else 1
    sp := sgn 64 (fieldAt b 0x20 8), dp := sgn 64 (fieldAt b 0x28 8)
    sfmt := fmtOfCode (f / 2 ^ 8 % 16), dfmt := fmtOfCode (f / 2 ^ 12 % 16)
    rnd := ⟨(RMode.table[f / 2 ^ 5 % 8]?).getD .rne, f / 2 ^ 4 % 2 == 1⟩
    dec := f / 2 ^ 3 % 2 == 1, ds := f / 2 ^ 2 % 2 == 1, ss := f / 2 % 2 == 1, key := f / 2 ^ 16 % 64
    iv := (b.drop 0x30).take 12 }

def converts (c : CpBlk) : Bool := c.sfmt != .none
/-- Formats of kinds F and I (R214). -/
def plainFmt (f : Fmt) : Bool := fmtF f || fmtI f
/-- Bytes of a source and of a destination element; 1 for a bit copy. -/
def srcSize (c : CpBlk) : Nat := if converts c then elemSize c.sfmt else 1
def dstSize (c : CpBlk) : Nat := if converts c then elemSize c.dfmt else 1
/-- Bytes of a destination row. -/
def dstLen (c : CpBlk) : Nat := c.len / srcSize c * dstSize c
def cpTotal (c : CpBlk) : Nat := c.len * c.rows

/-- Order 2 of R348. -/
def cpReserved (b : List Byte) (two : Bool) (c : CpBlk) : Bool :=
  let f := fieldAt b 0x18 4
  let sf := f / 2 ^ 8 % 16
  let df := f / 2 ^ 12 % 16
  fieldAt b 0x15 3 != 0 || f / 2 ^ 22 != 0 || f % 2 != 0 || fieldAt b 0x3C 4 != 0 ||
    (!c.dec && c.iv.any (· != 0)) ||
    !((sf == 0 && df == 0) || (plainFmt c.sfmt && plainFmt c.dfmt)) ||
    decide (5 ≤ f / 2 ^ 5 % 8) || (c.dec && (c.ss || c.ds || sf != 0 || df != 0)) ||
    (if two then c.rows == 0 else fieldAt b 0x1C 4 != 0 || fieldAt b 0x20 8 != 0 || fieldAt b 0x28 8 != 0) ||
    (converts c && c.len % srcSize c != 0)

/-- The scratchpad hull of rows of `n` bytes with a pitch: its first byte and its length, as integers. -/
def rowsHull (base : Word) (pitch : Int) (rows n : Nat) : Int × Nat :=
  let last := (base.toNat : Int) + (rows - 1 : Nat) * pitch
  let lo := if last < base.toNat then last else base.toNat
  (lo, (((rows - 1 : Nat) : Int) * pitch).natAbs + n)

def rowsInside (s : State) (firm : Bool) (base : Word) (pitch : Int) (rows n : Nat) : Bool :=
  let h := rowsHull base pitch rows n
  0 ≤ h.1 && (spadMap s firm h.1.toNat h.2).isSome

def rowAt (base : Word) (pitch : Int) (r : Nat) : Word := base + BitVec.ofInt 64 ((r : Int) * pitch)

/-- Order 3 of R348. -/
def cpProt (s : State) (firm : Bool) (c : CpBlk) : Option TrapInfo :=
  if !c.ss && !canonicalVa c.src then some (trapAt .prot c.src)
  else if !c.ds && !canonicalVa c.dst then some (trapAt .prot c.dst)
  else if c.ss && !rowsInside s firm c.src c.sp c.rows c.len then some (trapAt .prot c.src)
  else if c.ds && !rowsInside s firm c.dst c.dp c.rows (dstLen c) then some (trapAt .prot c.dst)
  else if c.ss then
    (lowestOff ((List.range c.rows).filterMap (fun r => boundMeets s firm (rowAt c.src c.sp r).toNat c.len))).map (boundTrap false)
  else none

def keySlot (s : State) (n : Nat) : Option KeySlot := s.crypto.keys.find? (fun k => k.num == n)
/-- An enclosure is bound to a context (R32, R87). -/
def enclosureBound (s : State) (ctx n : Nat) : Bool := s.enclosures.any (fun e => e.num == n && e.ctxs.contains ctx)

/-- Order 4 of R348. Context 0 passes it for every slot that holds a key (R87). -/
def cpKeyFault (s : State) (firm : Bool) (c : CpBlk) : Option TrapInfo :=
  if !c.dec then none
  else match keySlot s c.key with
    | none => some (trapOf .enclosure)
    | some k =>
      if ctxNum s firm == 0 || enclosureBound s (ctxNum s firm) k.encl then none else some (trapOf .enclosure)

def cpFault (s : State) (firm : Bool) (a : Word) (b : List Byte) (two : Bool) (c : CpBlk) : Option TrapInfo :=
  if cpReserved b two c then some (reservedValue a)
  else (cpProt s firm c).orElse (fun _ => cpKeyFault s firm c)

def cpCmd (c : CpBlk) (firm ev : Bool) (tag : BitVec 11) : CpCmd := ⟨c, firm, ev, tag, 0, 0, false, [], 0, 0, [], none, 0, false⟩

/-! ### Events and holds (R350, R352) -/

/-- F or a length as the event and the fault detail report it. -/
def cpShown (n : Nat) : Nat := Nat.min n 0xFFFFFFFFFF

def cpEvent (kind off : Nat) (tag : BitVec 11) (s : State) : State :=
  portEvent .cp 16 (BitVec.ofNat 64 (cpShown off * 2 ^ 24 + kind * 2 ^ 12 + tag.toNat)) s

def cpHead (c : CpCmd) (s : State) : State := modCp (fun m => { m with queue := c :: m.queue.drop 1 }) s

/-- The first command is held at F; `c` is it with its progress. -/
def cpHold (c : CpCmd) (off : Nat) (cause : Cause) (detail : Nat) (addr : Word) (s : State) : State :=
  cpEvent 1 off c.tag (cpHead c (modCp (fun m => { m with held := some ⟨off, cause, addr⟩ })
    (reportTh c.firm ⟨cause, detail, addr⟩ s)))

/-- CP_FAULT of `cpwait` and `end` (R350). -/
def cpTrap (h : CpHeld) : TrapInfo := ⟨.cpFault, cpShown h.off * 2 ^ 24 + causeCode h.cause * 2 ^ 16, h.addr⟩

/-! ### One step (R349) -/

/-- A place the engine reads or writes: its segments in memory outside the core or in scratchpad. -/
structure CpPlace where
  spad : Bool
  segs : List Seg
  tier : Nat
  ps   : List Piece

def cpSource (s : State) (c : CpCmd) (a : Word) (n : Nat) (into : Into) : Except TrapInfo CpPlace :=
  if c.blk.ss then
    match spadMap s c.firm a.toNat n with
    | none => .error (trapAt .prot a)
    | some p => .ok ⟨true, [⟨p, n⟩], 12, []⟩
  else match runsCheck s .cp c.firm [(a, n)] true false into with
    | .error t => .error t
    | .ok ps => .ok ⟨false, piecesSegs ps, piecesLatency ps, ps⟩

/-- A destination run that lies outside the enclosure of the key slot (R354). -/
def outsideEnclosure (s : State) (encl : Nat) (g : Seg) : Bool :=
  match s.enclosures.find? (fun e => e.num == encl) with
  | none => true
  | some e =>
    !((decide (e.base ≤ g.pa) && decide (g.pa + g.len ≤ e.base + e.pages * 0x200000)) ||
      (decide (e.cxlBase ≤ g.pa) && decide (g.pa + g.len ≤ e.cxlBase + e.cxlLen)))

/-- The destination of a step. A decrypting copy of context 0, which is bound to no enclosure, writes the enclosure of its slot
(R87). -/
def cpDest (s : State) (c : CpCmd) (a : Word) (n : Nat) : Except TrapInfo CpPlace :=
  if c.blk.ds then
    match spadMap s c.firm a.toNat n with
    | none => .error (trapAt .prot a)
    | some p => .ok ⟨true, [⟨p, n⟩], 12, []⟩
  else match runsCheck (if c.blk.dec && c.firm then { s with enclosures := [] } else s) .cp c.firm [(a, n)] false true .unbound with
    | .error t => .error t
    | .ok ps =>
      match (if c.blk.dec then ps.filter (fun p => outsideEnclosure s c.encl p.2.2) else []) with
      | [] => .ok ⟨false, piecesSegs ps, piecesLatency ps, ps⟩
      | l => .error (trapAt .enclosure (lowestVa (l.map (·.1))))

/-- Convert elements one after another, SR from channel 3 (R71, R115). -/
def convertElems (c : CpBlk) : List Nat → State → List Byte × State
  | [], s => ([], s)
  | x :: xs, s =>
    let p := roundDraw 3 c.dfmt c.rnd (elemVal c.sfmt x) s
    let q := convertElems c xs p.2
    (leBytes (elemSize c.dfmt) p.1 ++ q.1, q.2)

/-- Decrypt bytes that begin at any offset of the message. -/
def gcmAt (key iv : List Byte) (off : Nat) (m : List Byte) : List Byte :=
  (gcmCrypt key iv (off / 16 * 16) (List.replicate (off % 16) 0 ++ m)).drop (off % 16)

/-- Absorb ciphertext into the GHASH state; bytes that do not fill a block wait. -/
def ghashMore (c : CpCmd) (m : List Byte) : CpCmd :=
  let all := c.gbuf ++ m
  let n := all.length / 16 * 16
  { c with ghash := ghashBytes (gcmH c.key) c.ghash (all.take n), gbuf := all.drop n }

/-- Write bytes with the marks of poisoned ones (R177); a write of the task outside the core sets EG (R331). -/
def cpWrite (firm : Bool) (p : CpPlace) (bs : List Byte) (bad : List Bool) (s : State) : State :=
  let places := p.segs.flatMap (fun g => (List.range g.len).map (g.pa + ·))
  let marks := ((places.zip bad).filter (·.2)).map (·.1)
  if p.spad then
    marks.foldl (fun s a => spadPoison a 1 s) (spadWrite (p.segs.headD ⟨0, 0⟩).pa bs s)
  else
    let s1 := egressOf firm (memWriteBy p.segs bs s)
    { s1 with memBad := marks.foldl (fun b a => setBad b a 1) s1.memBad }

/-- The elements (bytes, for a bit copy) that a step moves: those that begin in its n bytes at o. -/
def stepElems (c : CpBlk) (o n : Nat) : Nat × Nat :=
  let w := srcSize c
  let i := (o + w - 1) / w
  (i, (Nat.min (o + n) c.len + w - 1) / w - i)

/-! ### Headland of what a command writes (R286, R287) -/

/-- How many bytes of each destination row are written when the elements up to `e` of row `r` are. -/
def rowDone (c : CpBlk) (r e k : Nat) : Nat := if k < r then dstLen c else if k = r then e * dstSize c else 0

/-- Every byte of a run of named offsets has been written by the command, given what its rows have written. -/
def rowsCover (c : CpBlk) (done : Nat → Nat) (base : Int) (n : Nat) : Bool :=
  (List.range n).all (fun i => (List.range c.rows).any (fun r =>
    let d : Int := (rowAt c.dst c.dp r).toNat
    decide (d ≤ base + i) && decide (base + i < d + done r)))
def rowsMeet (base : Word) (pitch : Int) (rows len : Nat) (at_ : Int) (n : Nat) : Bool :=
  len != 0 && (List.range rows).any (fun r =>
    let d : Int := (rowAt base pitch r).toNat
    decide (at_ < d + len) && decide (d < at_ + n))

/-- The displacement from the offsets that the command names to physical offsets. -/
def cpDisp (s : State) (firm : Bool) (base : Word) (pitch : Int) (rows n : Nat) : Int :=
  let h := rowsHull base pitch rows n
  match spadMap s firm h.1.toNat h.2 with
  | some p => (p : Int) - h.1
  | none => 0

/-- How far the source lies from the destination in the rows that meet a run, when it is equally far in all of them. -/
def rowShift (c : CpBlk) (base : Int) (n : Nat) : Option Int :=
  let ds := ((List.range c.rows).filter (fun r =>
    let d : Int := (rowAt c.dst c.dp r).toNat
    decide (base < d + dstLen c) && decide (d < base + n))).map (fun r =>
      ((rowAt c.src c.sp r).toNat : Int) - (rowAt c.dst c.dp r).toNat)
  match ds with
  | [] => none
  | d :: rest => if rest.all (· == d) then some d else none

/-- The source tile that a destination tile is a whole copy of, in the same format and shape (R286). -/
def sourceTile (s : State) (c : CpCmd) (r : HRec) (base : Int) : Option HRec :=
  let b := c.blk
  if !b.ss || converts b then none
  else (rowShift b base (tileBytes r.fmt)).bind (fun d =>
    s.side.find? (fun q => q.live && q.fmt == r.fmt &&
      (q.base : Int) == base + d + cpDisp s c.firm b.src b.sp b.rows b.len))

/-- The headland of a tile after a step that has written the physical run [a, a + n): generated by a converting copy of its
elements and by a copy of the whole tile, preserved by one from a tile, else as the writes have left it (R82, R286). -/
def copiedTile (s : State) (c : CpCmd) (done : Nat → Nat) (a n : Nat) (r : HRec) : HRec :=
  let b := c.blk
  let disp := cpDisp s c.firm b.dst b.dp b.rows (dstLen b)
  let base : Int := (r.base : Int) - disp
  let elems := overlaps a n r.base (tileBytes r.fmt)
  let words := r.scaleAt.any (fun w => overlaps a n w 128)
  let wordsDone := r.scaleAt.any (fun w => rowsCover b done ((w : Int) - disp) 128)
  let scale : Nat := match r.scaleAt with
    | some w => if wordsDone then scaleSum s.spad w else r.scale
    | none => r.scale
  let fresh : HRec := if elems then { genTile s.spad r with scale := scale } else { r with scale := scale }
  if !b.ds || !r.live || !(elems || words) then r
  else if converts b then (if elems then fresh else r)
  else if !rowsCover b done base (tileBytes r.fmt) then r
  else match sourceTile s c r base with
    | some q =>
      preserveTile s.spad (r.scaleAt.any (fun w => rowsMeet b.dst b.dp b.rows (dstLen b) ((w : Int) - disp) 128)) r q
    | none => fresh

/-- The tiles that a step has written take their headland with its bytes (R287). -/
def cpTiles (c : CpCmd) (done : Nat → Nat) (p : CpPlace) (s : State) : State :=
  if p.spad then
    match p.segs with
    | g :: _ => { s with side := s.side.map (copiedTile s c done g.pa g.len) }
    | [] => s
  else s

/-- Bytes, or elements of a converting copy, that the engine moves in a cycle (R366). -/
def cpRate (c : CpBlk) : Nat := if converts c then 32 else if c.dec then 500 else 128

/-- The command goes on after a step of n units: in the same cycle while its rate allows. -/
def cpPaced (c : CpCmd) (n now : Nat) : CpCmd :=
  let k := (if c.ready < now then 0 else c.part) + n
  { c with ready := now + k / cpRate c.blk, part := k % cpRate c.blk }

/-- The step at a command's offset: how many bytes of its row lie in one source granule, and which elements it moves, with the
addresses of the first. -/
def stepSpan (c : CpCmd) : Nat × (Nat × Nat) × Word × Word :=
  let b := c.blk
  let o := c.next % b.len
  let row := rowAt b.src b.sp (c.next / b.len)
  let n := Nat.min (64 - (row + BitVec.ofNat 64 o).toNat % 64) (b.len - o)
  let e := stepElems b o n
  (n, e, row + BitVec.ofNat 64 (e.1 * srcSize b), rowAt b.dst b.dp (c.next / b.len) + BitVec.ofNat 64 (e.1 * dstSize b))

/-- What a step of `k` elements writes: the bytes it has read converted, decrypted or as they are. -/
def stepBytes (c : CpCmd) (k : Nat) (raw : List Byte) (s : State) : List Byte × State :=
  let b := c.blk
  if converts b then convertElems b (unpackElems (8 * srcSize b) k (leVal raw)) s
  else if b.dec then (gcmAt c.key b.iv c.next raw, s)
  else (raw, s)

/-- Which of those bytes are poisoned, from the marks of the bytes read: a converted element that had a poisoned byte is. -/
def stepMarks (c : CpCmd) (k : Nat) (flags : List Bool) : List Bool :=
  let w := srcSize c.blk
  if converts c.blk then
    (List.range k).flatMap (fun i => List.replicate (dstSize c.blk) (((flags.drop (i * w)).take w).any id))
  else flags

/-- COPY_STEP in the midst of a command: one step. -/
def cpStep (c : CpCmd) (s : State) : State :=
  let b := c.blk
  let (n, e, sa, da) := stepSpan c
  let dn := e.2 * dstSize b
  let into : Into := if b.ds then .region da.toNat dn else .unbound
  match cpSource s c sa (e.2 * srcSize b) into with
  | .error t => cpHold c c.next t.cause t.detail t.operand s
  | .ok src =>
    match cpDest s c da dn with
    | .error t => cpHold c c.next t.cause 0 t.operand s
    | .ok dst =>
      let out := egressBytes dst.ps
      let ctx := ctxNum s c.firm
      if !egressPassed s .copy ctx out then egressAsk .copy ctx out s
      else
        let raw := segRead (if src.spad then s.spad else s.mem) src.segs
        let flags := badBytes (if src.spad then s.spadBad else s.memBad) src.segs
        let s1 := egressDone .copy ctx out (tlbUse .cp dst.ps (tlbUse .cp src.ps s))
        let conv := stepBytes c e.2 raw s1
        let s2 := noteLicence into (if src.spad then [] else src.segs)
          (cpWrite c.firm dst conv.1 (stepMarks c e.2 flags) conv.2)
        let s3 := cpTiles c (rowDone b (c.next / b.len) (e.1 + e.2)) dst s2
        let c1 := if b.dec then ghashMore c raw else c
        cpHead { cpPaced c1 (if converts b then e.2 else n) s.now with next := c.next + n } s3

/-! ### The end of a command (R354) -/

/-- The command completes and leaves the queue. -/
def cpComplete (c : CpCmd) (s : State) : State :=
  let s1 := modCp (fun m => { m with queue := m.queue.drop 1 }) s
  if c.ev then cpEvent 0 (cpTotal c.blk) c.tag s1 else s1

/-- One step of the zeros over the whole destination of a decrypting copy whose tag mismatches: the bytes of its row in one
64-byte granule, where they may be written; a part outside the core passes the Sluice like any other (R32, R354). -/
def cpZero (c : CpCmd) (s : State) : State :=
  let b := c.blk
  let o := c.next % b.len
  let da := rowAt b.dst b.dp (c.next / b.len) + BitVec.ofNat 64 o
  let n := Nat.min (64 - da.toNat % 64) (b.len - o)
  let on (s : State) : State := cpHead { cpPaced c n s.now with next := c.next + n } s
  match cpDest s c da n with
  | .error _ => on s
  | .ok p =>
    let out := egressBytes p.ps
    let ctx := ctxNum s c.firm
    if !egressPassed s .copy ctx out then egressAsk .copy ctx out s
    else on (egressDone .copy ctx out (tlbUse .cp p.ps (cpWrite c.firm p (List.replicate n 0) [] s)))

/-- The end of a decrypting copy: the tag check after its last step, and, after a mismatch, the record and the hold once the
zeros are written (R354). -/
def cpTag (c : CpCmd) (s : State) : State :=
  let at_ := c.blk.src + BitVec.ofNat 64 c.blk.len
  let fields := [ctxNum s c.firm, s.die.toNat, s.core.toNat, c.blk.key]
  if c.zero then
    cpHold { c with next := 0, ghash := 0, gbuf := [], zero := false } 0 .enclosure 0 0xFFFFFFFFFFFFFFFF
      (tideAdd (sourceNum s) 0x31 fields s)
  else match cpSource s c at_ 16 .unbound with
  | .error t => cpHold c (cpTotal c.blk) t.cause t.detail t.operand s
  | .ok p =>
    let y := if c.gbuf.isEmpty then c.ghash else ghashBytes (gcmH c.key) c.ghash c.gbuf
    if gcmTag c.key c.blk.iv y 0 (cpTotal c.blk) == segRead s.mem p.segs then
      cpComplete c (tideAdd (sourceNum s) 0x30 fields s)
    else cpHead { c with next := 0, zero := true } s

/-! ### COPY_STEP -/

/-- The source tiles that a command checks before its first step, in ascending order (R349). -/
def cpChecks (c : CpCmd) (s : State) : State × Option TrapInfo :=
  let b := c.blk
  if !b.ss || b.len = 0 then (s, none)
  else
    let disp := cpDisp s c.firm b.src b.sp b.rows b.len
    let meets (a n : Nat) : Bool := rowsMeet b.src b.sp b.rows b.len ((a : Int) - disp) n
    checkTiles 0 disp ((s.side.filter (fun r => r.live && (meets r.base (tileBytes r.fmt) ||
      (match r.scaleAt with
        | some a => meets a 128
        | none => false)))).foldl (fun l r => insertRec r l) []) s

/-- A command begins: its key, and the checks of the tiles it reads; one from the copy queue that failed its checks is held. -/
def cpBegin (c : CpCmd) (s : State) : State :=
  let k := (keySlot s c.blk.key).getD ⟨0, [], 0⟩
  let c1 := if c.blk.dec then { c with began := true, key := k.key, encl := k.encl } else { c with began := true }
  match c.fault with
  | some t => cpHold c 0 t.cause 0 t.operand s
  | none =>
  match cpChecks c s with
  | (s1, some t) => cpHold c 0 t.cause 0 t.operand s1
  | (s1, none) => cpHead c1 s1

/-- The first command has moved its last byte. -/
def cpMoved (c : CpCmd) : Bool := c.began && decide (cpTotal c.blk ≤ c.next)

/-- The engine can act: its time has come, no unit of its bytes waits for a Sluice, and the Tideline has room for the record
that ends a decrypting copy (R366, R408, R413). -/
def cpRuns (s : State) : Bool :=
  match (cpOf s).queue with
  | [] => false
  | c :: _ => (cpOf s).held.isNone && decide (c.ready ≤ s.now) && !egressWaits s .copy (ctxNum s c.firm) &&
      (!(c.blk.dec && cpMoved c) || tideFits (cpTag c s))

/-- COPY_STEP: the first command begins, moves the bytes of one step, or ends (R349, R350, R354). -/
def execCopyStep (s : State) : Out :=
  match (cpOf s).queue with
  | [] => .next s
  | c :: _ =>
    if !cpRuns s then .next s
    else if !c.began then .next (cpBegin c s)
    else if c.next < cpTotal c.blk then .next (if c.zero then cpZero c s else cpStep c s)
    else if c.blk.dec then .next (cpTag c s)
    else .next (cpComplete c s)

/-! ### Instructions (R343, R348, R351, R352) -/

/-- The engine's queue with what K has sent it: commands, and blocks to its own copy queue (R133, R343). -/
def cpQueued (s : State) : Nat := copiesDue s + blocksTo s 1 + (cpOf s).queue.length

def copyIssue (two : Bool) (h : Hdr) (a : BitVec 6) (ev : Bool) (tag : BitVec 11) (s : State) : Out :=
  issue h [rId a] (fun s =>
    match readBlock (getReg s a) 64 s with
    | .error r => r
    | .ok (b, s1) =>
      let c := cpParse b two
      match cpFault s (isFirm s) (getReg s a) b two c with
      | some t => .trap t
      | none => if 32 ≤ cpQueued s then .wait s else .done (enqueue (.cp (cpCmd c (isFirm s) ev tag)) 0 0 s1) 0) s

def execCpy (h : Hdr) (a : BitVec 6) (ev : Bool) (tag : BitVec 11) (s : State) : Out := copyIssue false h a ev tag s
def execCpy2 (h : Hdr) (a : BitVec 6) (ev : Bool) (tag : BitVec 11) (s : State) : Out := copyIssue true h a ev tag s

def execCpres (h : Hdr) (s : State) : Out := issue h [] (fun s => .done (enqueue (.cpres false) 0 0 s) 0) s
def execCpresDrop (h : Hdr) (s : State) : Out := issue h [] (fun s => .done (enqueue (.cpres true) 0 0 s) 0) s

/-- A wait of chapter 13 is a checked action (R343): its unit answers which commands came before it, and `ok` goes on from
there. -/
def awaitUnit (u : WaitUnit) (ok : Nat → State → Result) (s : State) : Result :=
  if !isAsking s then .waitIssued (askWith (fun id => .await u id) s)
  else match replyOf s with
    | none => .waitIssued s
    | some r => ok r.val.toNat s

/-- `cpwait`: done when the commands before it are; CP_FAULT while one of them is held (R350, R352). -/
def execCpwait (h : Hdr) (s : State) : Out :=
  issue h [] (awaitUnit .copy (fun n s =>
    if n ≤ (cpOf s).count - (cpOf s).queue.length then .done (clearAsk s) 0
    else match (cpOf s).held with
      | some f => .trapIssued (clearAsk s) (cpTrap f)
      | none => .waitIssued s)) s

/-- The engine takes a `cpres` (R351): the held command goes on from F, or ends. -/
def takeCpres (drop : Bool) (s : State) : State :=
  if (cpOf s).held.isNone then s
  else modCp (fun m => { m with queue := if drop then m.queue.drop 1 else m.queue, held := none }) s

/-- The engine receives a command: its first byte moves after 8 cycles (R366). -/
def takeCp (c : CpCmd) (s : State) : State := modCp (fun m => { m with queue := m.queue ++ [{ c with ready := s.now + 8 }], count := m.count + 1 }) s

/-- A copy that writes the storage bound to a bracket is under way, of either context of K (R337). -/
def copyInto (s : State) (b : Bracket) : Bool :=
  (cpOf s).queue.any (fun c => c.blk.ds &&
    (boundSeen s c.firm b).any (fun r => rowsMeet c.blk.dst c.blk.dp c.blk.rows (dstLen c.blk) r.1 r.2))

end Sys2Proof.Machine
end

