-- ==== Sys2Proof/Machine/Fabric.lean ====
section
/-! DEFINITION. The fabric interface (chapter 13, R355 to R358): sends and posted buffers of this core. What the other
side of a message does comes in through the steps FABRIC_MATCH, FABRIC_FRAME and FABRIC_LINK_FAIL. -/

namespace Sys2Proof.Machine

def modFx (f : Fx → Fx) (s : State) : State := { s with task.fx := f s.task.fx }

/-- This device, as a peer names it, and messages that stay on this core. -/
def thisDevice : Nat := 0xFFFF
def offDevice (p : FxPeer) : Bool := p.dev != thisDevice
def selfPeer (s : State) (p : FxPeer) : Bool := p.dev == thisDevice && p.die == s.die.toNat && p.core == s.core.toNat

/-! ### Blocks (R355) -/

def fxPeer (b : List Byte) : FxPeer :=
  let w := fieldAt b 0 8
  ⟨w % 2 ^ 16, w / 2 ^ 16 % 2, w / 2 ^ 17 % 64, w / 2 ^ 32 % 256⟩

/-- The formats that `fxred` adds. -/
def redFmt (f : Fmt) : Bool :=
  match f with
  | .fp32 | .bf16 | .fp16 | .int32 => true
  | _ => false

def fxReserved (b : List Byte) (red : Bool) : Bool :=
  let w := fieldAt b 0 8
  let f := fieldAt b 0x10 4
  let len := fieldAt b 0x0C 4
  w / 2 ^ 23 % 2 ^ 9 != 0 || w / 2 ^ 40 != 0 || fieldAt b 8 4 / 2 ^ 23 != 0 || decide (len = 0) || decide (4194304 < len) ||
    f / 16 != 0 || (if red then !redFmt (fmtOfCode (f % 16)) else f != 0) || (b.drop 0x14).any (· != 0) ||
    (red && len % elemSize (fmtOfCode (f % 16)) != 0)

def fxTrap (reason : Nat) (tag : BitVec 11) : TrapInfo := ⟨.fxFault, reason * 2 ^ 16 + tag.toNat * 2 ^ 20, 0⟩

/-- The checks of R355 that follow those of R346. -/
def fxFault (s : State) (a : Word) (b : List Byte) (send red : Bool) (tag : BitVec 11) : Option TrapInfo :=
  let addr := fieldAt b 8 4
  let len := fieldAt b 0x0C 4
  let p := fxPeer b
  if fxReserved b red then some (reservedValue a)
  else if (spadMap s (isFirm s) addr len).isNone then some (trapAt .prot (BitVec.ofNat 64 addr))
  else match (if send then boundMeets s (isFirm s) addr len else none) with
    | some x => some (boundTrap false x)
    | none => if offDevice p && !s.routes.any (fun r => r.1 == p.dev && r.2 != 0) then some (fxTrap 0 tag) else none

/-! ### Events and holds (R356) -/

def fxEvent (kind off : Nat) (tag : BitVec 11) (s : State) : State :=
  portEvent .fx 16 (BitVec.ofNat 64 (cpShown off * 2 ^ 24 + kind * 2 ^ 12 + tag.toNat)) s

def putFx (i : Nat) (c : FxCmd) (s : State) : State := modFx (fun m => { m with cmds := m.cmds.set i c }) s
def dropFx (i : Nat) (s : State) : State := modFx (fun m => { m with cmds := m.cmds.eraseIdx i }) s

def fxHold (i : Nat) (c : FxCmd) (reason : Nat) (s : State) : State :=
  fxEvent 1 c.moved c.tag (putFx i { c with held := some reason } s)

/-- The command may start: its gate has passed, and no older command of its kind, peer and channel is unmatched. -/
def fxMayMatch (s : State) (i : Nat) (c : FxCmd) : Bool :=
  c.held.isNone && c.other.isNone && decide (c.gate ≤ ptpNs s) &&
    !(s.task.fx.cmds.take i).any (fun d => d.send == c.send && d.peer == c.peer && d.other.isNone && d.held.isNone)

/-- A message of `msg` bytes for a buffer: it fails both commands. -/
def fxMisfit (buf : FxCmd) (msg : Nat) : Bool := if buf.red.isSome then msg != buf.len else decide (buf.len < msg)

/-- The posted buffer that a send to this core itself is matched with. -/
def selfBuffer (s : State) (c : FxCmd) : Option Nat :=
  s.task.fx.cmds.findIdx? (fun d => !d.send && d.peer == c.peer && d.other.isNone && d.held.isNone &&
    decide (d.gate ≤ ptpNs s))

/-- A command is matched, with a buffer or send of this core where `mate` says so: its first byte moves after 60 cycles, or,
across Ethernet, after 2 µs (R6, R366). -/
def fxMatched (len : Nat) (mate : Option Nat) (c : FxCmd) (s : State) : FxCmd :=
  { c with other := some len, ready := s.now + (if offDevice c.peer then 4000 else 60), mate := mate }
/-- Cycles for the bytes of a frame: 64 in each, or, across Ethernet, the 50 of 800 Gb/s (R6, R366). -/
def fxCycles (c : FxCmd) (k : Nat) : Nat := if offDevice c.peer then (k + 49) / 50 else (k + 63) / 64

/-- FABRIC_MATCH: command i is matched with a buffer or a message at its peer (R356). -/
def execFabricMatch (send : Bool) (i : Nat) (far : FarSide) (s : State) : Out :=
  match s.task.fx.cmds[i]? with
  | none => .next s
  | some c =>
    if c.send != send || !fxMayMatch s i c then .next s
    else if selfPeer s c.peer then
      match (if send then selfBuffer s c else none) with
      | none => .next s
      | some j =>
        match s.task.fx.cmds[j]? with
        | none => .next s
        | some d =>
          if fxMisfit d c.len then .next (fxHold j d 2 (fxHold i c 2 s))
          else .next (putFx j (fxMatched c.len (some c.num) d s) (putFx i (fxMatched d.len (some d.num) c s) s))
    else if (if send then (if far.red then far.len != c.len else decide (far.len < c.len)) else fxMisfit c far.len) then
      .next (fxHold i c 2 s)
    else .next (putFx i (fxMatched far.len none c s) s)

/-! ### Frames (R356, R357) -/

/-- RNE(buffer + message), or the saturated sum of INT32 (R356). -/
def fxSum (f : Fmt) (x y : Nat) : Nat :=
  if fmtI f then (BitVec.ofInt 32 (satInt 32 (sgn 32 x + sgn 32 y))).toNat
  else roundTo f rne0 0 (Ex.add false (elemVal f x) (elemVal f y))

def fxSums (f : Fmt) (buf msg : List Byte) : List Byte :=
  let w := 8 * elemSize f
  let n := msg.length / elemSize f
  leBytes msg.length (packElems w ((unpackElems w n (leVal buf)).zipWith (fxSum f) (unpackElems w n (leVal msg))))

/-- Bytes of a message arrive at a matched buffer. -/
def fxArrive (i : Nat) (c : FxCmd) (bytes : List Byte) (s : State) : State :=
  let total := c.other.getD 0
  let bs := bytes.take (total - c.moved)
  let c1 := { c with moved := c.moved + bs.length, msg := if c.red.isSome then c.msg ++ bs else [] }
  let put (off : Nat) (b : List Byte) (s : State) : State :=
    match spadMap s c.firm off b.length with
    | some p => spadWrite p b s
    | none => s
  let s1 := match c.red with
    | none => put (c.addr + c.moved) bs s
    | some f =>
      if c1.moved < total then s
      else match spadMap s c.firm c.addr total with
        | some p => spadWrite p (fxSums f (memRead s.spad p total) c1.msg) s
        | none => s
  if c1.moved < total then putFx i c1 s1
  else
    let s2 := modFx (fun m => { m with got := true }) (dropFx i s1)
    if c.ev then fxEvent 0 c1.moved c.tag s2 else s2

/-- Before any byte of a send leaves, the tiles it reads are checked (R286). -/
def fxCheck (c : FxCmd) (s : State) : State × Option TrapInfo :=
  match spadMap s c.firm c.addr c.len with
  | none => (s, none)
  | some p => if c.moved = 0 then checkTiles 0 ((p : Int) - c.addr) (tilesMeeting s p c.len) s else (s, none)

/-- The frame of a matched send that carries n bytes leaves. -/
def fxSend (i : Nat) (c : FxCmd) (n : Nat) (s : State) : State :=
  let k := Nat.min (Nat.max 1 (Nat.min 9216 n)) (c.len - c.moved)
  let out := if offDevice c.peer then k else 0
  let ctx := ctxNum s c.firm
  if !egressPassed s .fabric ctx out then egressAsk .fabric ctx out s
  else match fxCheck c s with
    | (s1, some _) => fxHold i c ((Config.openWord s1.free).toNat % 16) { s1 with free := s1.free + 1 }
    | (s1, none) =>
      let bytes := match spadMap s c.firm (c.addr + c.moved) k with
        | some p => memRead s1.spad p k
        | none => []
      let s2 := egressOf c.firm (egressDone .fabric ctx out s1)
      let c1 := { c with moved := c.moved + k, ready := s.now + fxCycles c k }
      let s3 := if c1.moved < c.len then putFx i c1 s2
        else
          let s4 := dropFx i s2
          if c.ev then fxEvent 0 c1.moved c.tag s4 else s4
      if selfPeer s c.peer then
        match s3.task.fx.cmds.findIdx? (fun d => !d.send && d.mate == some c.num) with
        | some j =>
          match s3.task.fx.cmds[j]? with
          | some d => fxArrive j d bytes s3
          | none => s3
        | none => s3
      else s3

/-- The next frame of a matched send may leave: its time has come, no pre-emption is pending (R155, R357), and no older
message to this receiver on this channel is still under way, since messages are delivered in issue order (R356). -/
def fxMaySend (s : State) (i : Nat) (c : FxCmd) : Bool :=
  c.send && c.other.isSome && c.held.isNone && decide (c.ready ≤ s.now) && !preempting s &&
    !(s.task.fx.cmds.take i).any (fun d => d.send && d.peer == c.peer && d.held.isNone)

/-- FABRIC_FRAME: a frame of command i leaves, of as many bytes as the list has, or arrives with these bytes (R357). -/
def execFabricFrame (send : Bool) (i : Nat) (bytes : List Byte) (s : State) : Out :=
  match s.task.fx.cmds[i]? with
  | none => .next s
  | some c =>
    if c.send != send || c.other.isNone || c.held.isSome then .next s
    else if send then .next (if fxMaySend s i c then fxSend i c bytes.length s else s)
    else if selfPeer s c.peer || bytes.isEmpty then .next s
    else .next (fxArrive i c bytes s)

/-- FABRIC_LINK_FAIL: the interface's retries have found no link for send i (R356). -/
def execFabricLinkFail (i : Nat) (s : State) : Out :=
  match s.task.fx.cmds[i]? with
  | none => .next s
  | some c => if c.send && offDevice c.peer && c.held.isNone then .next (fxHold i c 1 s) else .next s

/-! ### Instructions -/

def isFxAction : Action → Bool
  | .fx _ | .tsat _ => true
  | _ => false

def fxQueued (s : State) : Nat :=
  (s.checkq.filter (fun c => isFxAction c.act)).length + (s.task.fx.cmds.filter (fun c => c.other.isNone)).length

def fabricIssue (send red : Bool) (h : Hdr) (a : BitVec 6) (ev : Bool) (tag : BitVec 11) (s : State) : Out :=
  issue h [rId a] (fun s =>
    match readBlock (getReg s a) 32 s with
    | .error r => r
    | .ok (b, s1) =>
      match fxFault s (getReg s a) b send red tag with
      | some t => .trap t
      | none =>
        if 32 ≤ fxQueued s then .wait s
        else
          let f := if red then some (fmtOfCode (fieldAt b 0x10 4 % 16)) else none
          .done (enqueue (.fx ⟨send, f, fxPeer b, fieldAt b 8 4, fieldAt b 0x0C 4, isFirm s, ev, tag, 0, none, 0, [], none, 0, 0, none⟩)
            0 0 s1) 0) s

def execFxs (h : Hdr) (a : BitVec 6) (ev : Bool) (tag : BitVec 11) (s : State) : Out := fabricIssue true false h a ev tag s
def execFxr (h : Hdr) (a : BitVec 6) (ev : Bool) (tag : BitVec 11) (s : State) : Out := fabricIssue false false h a ev tag s
def execFxred (h : Hdr) (a : BitVec 6) (ev : Bool) (tag : BitVec 11) (s : State) : Out := fabricIssue false true h a ev tag s

/-- FX_FAULT of `fxwait` and `end`: the oldest held command of some. -/
def fxHeldIn (l : List FxCmd) : Option TrapInfo := l.findSome? (fun c => c.held.map (fun r => fxTrap r c.tag))
def fxHeld (s : State) : Option TrapInfo := fxHeldIn s.task.fx.cmds

/-- `fxwait` waits for the commands that arrived before it; FX_FAULT when one of them is held (R356, R357). A completed
receive makes it acquire, and K's data cache is invalidated (R376). -/
def execFxwait (h : Hdr) (s : State) : Out :=
  issue h [] (awaitUnit .fabric (fun n s =>
    let before := s.task.fx.cmds.filter (fun c => decide (c.num < n))
    match fxHeldIn before with
    | some t => .trapIssued (clearAsk s) t
    | none =>
      if !before.isEmpty then .waitIssued s
      else .done (clearAsk (if s.task.fx.got then modFx (fun m => { m with got := false }) (flushCache s) else s)) 0)) s

/-- The interface receives a command, and a gate (R358). -/
def takeFx (c : FxCmd) (s : State) : State :=
  modFx (fun m => { m with cmds := m.cmds ++ [{ c with gate := m.gate, num := m.count }], count := m.count + 1 }) s
def takeTsat (t : Word) (s : State) : State := modFx (fun m => { m with gate := Nat.max m.gate t.toNat }) s

def execTsat (h : Hdr) (a : BitVec 6) (s : State) : Out :=
  issue h [rId a] (fun s => .done (enqueue (.tsat (getReg s a)) 0 0 s) 0) s

def execTsatWait (h : Hdr) (a : BitVec 6) (s : State) : Out :=
  issue h [rId a] (awaitUnit .time (fun _ s =>
    if (getReg s a).toNat ≤ ptpNs s then .done (clearAsk s) 0 else .waitIssued s)) s

end Sys2Proof.Machine
end

