-- ==== Sys2Proof/Machine/CryptoUnit.lean ====
section
/-! DEFINITION. The service core's crypto unit: hashes, signatures, measurement registers, key slots, and the
instructions that drive it (chapter 13, R345, R359 to R362). Decoding has refused them as PRIV anywhere but in the
service core's firmware context (R54). -/

namespace Sys2Proof.Machine

def modCr (f : Crypto → Crypto) (s : State) : State := { s with crypto := f s.crypto }

/-! ### The unit's step -/

def crBytes (s : State) (a n : Nat) : List Byte := memRead s.spad a n

/-- Extend a measurement register (R361). -/
def extendMeas (m : BitVec 3) (v : List Byte) (s : State) : State :=
  let new := sha512 (s.crypto.meas[m.toNat] ++ v)
  tideAdd titheSource 0x34 (m.toNat :: new.map BitVec.toNat) (modCr (fun c => { c with meas := c.meas.set m.toNat new }) s)

/-- The content key that a blob wraps, with its enclosure, when the blob passes every check of R362. -/
def unwrapBlob (s : State) (b : List Byte) : Option (List Byte × Nat) :=
  let epk := b.take 32
  let nonce := (b.drop 0x20).take 12
  let encl := fieldAt b 0x2C 4
  let wrapped := (b.drop 0x30).take 32
  let z := x25519 Config.sealingKey epk
  let kek := hkdf512 epk z ("VG-96 wrap".toList.map (fun c => BitVec.ofNat 8 c.toNat)) 32
  let h := gcmH kek
  let y := ghashBytes h (ghashBytes h 0 (b.take 0x30)) wrapped
  if z.all (· == 0) || gcmTag kek nonce y 0x30 32 != (b.drop 0x50).take 16 || encl / 16 != 0 ||
      (b.drop 0x60).any (· != 0) || !s.enclosures.any (fun e => e.num == encl) || s.exhausted then none
  else some (gcmCrypt kek nonce 0 wrapped, encl)

/-- The state after an operation, and its value. -/
def crRun (op : CrOp) (s : State) : Nat × State :=
  match op with
  | .init n => (0, modCr (fun c => { c with hashes := c.hashes.set n.toNat ⟨shaH, 0⟩ }) s)
  | .absorb n a =>
    (0, modCr (fun c =>
      { c with hashes := c.hashes.set n.toNat ⟨shaBlock c.hashes[n.toNat].st (crBytes s a 128), c.hashes[n.toNat].len + 128⟩ }) s)
  | .fin n dst tail len =>
    let c := s.crypto.hashes[n.toNat]
    (0, spadWrite dst (shaFinish c.st (crBytes s tail len) (c.len + len)) s)
  | .sign msg len sig => (0, spadWrite sig (edSign Config.identityKey (crBytes s msg len)) s)
  | .verify msg len sig pub =>
    (if edVerify (crBytes s pub 32) (crBytes s msg len) (crBytes s sig 64) then 1 else 0, s)
  | .extend m a => (0, extendMeas m (crBytes s a 64) s)
  | .read m a => (0, spadWrite a s.crypto.meas[m.toNat] s)
  | .unwrap slot a =>
    let b := crBytes s a 128
    match unwrapBlob s b with
    | some (k, e) =>
      (0, tideAdd titheSource 0x32 [slot.toNat, e] (modCr (fun c =>
        { c with keys := c.keys.filter (fun q => q.num != slot.toNat) ++ [⟨slot.toNat, k, e⟩] }) s))
    | none => (1, tideAdd titheSource 0x33 [slot.toNat, fieldAt b 0x2C 4] s)

/-- The operation appends a record, and waits while the Tideline is full (R413). -/
def crRecords : CrOp → Bool
  | .extend .. | .unwrap .. => true
  | _ => false

/-- The operation goes to the service core, and waits while a debugger holds it (R362, R437). -/
def crService : CrOp → Bool
  | .unwrap .. => true
  | _ => false

/-- The unit can finish its oldest operation. -/
def crRuns (s : State) : Bool :=
  match s.crypto.queue with
  | [] => false
  | (op, _, due) :: _ =>
    decide (due ≤ s.now) && (!crRecords op || tideFits (crRun op s).2) && (!crService op || s.svcStop.isNone)

/-- CRYPTO_UNIT_RESULT: the unit finishes its oldest operation, and its result is written. -/
def execCryptoUnitResult (s : State) : Out :=
  match s.crypto.queue with
  | [] => .next s
  | (op, id, _) :: rest =>
    if !crRuns s then .next s
    else
      let p := crRun op s
      .next (addReply ⟨id, BitVec.ofNat 64 p.1, 0, none⟩ (modCr (fun c => { c with queue := rest }) p.2))

/-! ### Instructions -/

/-- A run of scratchpad that the unit reads or writes, with an alignment (R345): the fault, if it has one. -/
def crRun? (s : State) (a : Word) (n align : Nat) (reads : Bool) : Option TrapInfo :=
  if misaligned a align then some (trapAt .align a)
  else match spadMap s (isFirm s) a.toNat n with
    | none => some (trapAt .prot a)
    | some p => if reads && anyBad s.spadBad p n then some (trapAt .eccUc a) else none

/-- Send an operation once its checks pass, then wait for its result. -/
def crBody (checks : List (Option TrapInfo)) (op : CrOp) (ok : Reply → State → Result) (s : State) : Result :=
  if isAsking s then takeReply .waitReply ok s
  else match checks.findSome? id with
    | some t => .trap t
    | none => if ownStoresPending s then .wait s else .waitReply (askWith (fun id => .cr op id) s)

def crDone (_ : Reply) (s : State) : Result := .done s 0
def crValue (d : BitVec 6) (r : Reply) (s : State) : Result := writeReg d r.val 1 s

def execHshInit (h : Hdr) (n : BitVec 2) (s : State) : Out := issue h [] (crBody [] (.init n) crDone) s

def execHsh (h : Hdr) (n : BitVec 2) (a : BitVec 6) (s : State) : Out :=
  issue h [rId a] (fun s =>
    let v := getReg s a
    crBody [crRun? s v 128 8 true] (.absorb n v.toNat) crDone s) s

def execHfin (h : Hdr) (n : BitVec 2) (d a : BitVec 6) (len : BitVec 7) (s : State) : Out :=
  issue h [rId d, rId a] (fun s =>
    let dst := getReg s d
    let tail := getReg s a
    crBody [crRun? s dst 64 8 false, crRun? s tail len.toNat 1 true] (.fin n dst.toNat tail.toNat len.toNat) crDone s) s

/-- The parameter block of `sgn` and `vfy`: MSG, MLEN, SIG, PUB (R360). -/
def sigBody (sign : Bool) (d a : BitVec 6) (s : State) : Result :=
  if isAsking s then takeReply .waitReply (if sign then crDone else crValue d) s
  else match readBlock (getReg s a) 16 s with
    | .error r => r
    | .ok (b, s1) =>
      let msg := fieldAt b 0 4
      let len := fieldAt b 4 4
      let sig := fieldAt b 8 4
      let pub := fieldAt b 12 4
      let run (x n : Nat) (reads : Bool) : Option TrapInfo := crRun? s (BitVec.ofNat 64 x) n 1 reads
      if decide (65536 < len) || (sign && pub != 0) then .trap (reservedValue (getReg s a))
      else crBody ([run msg len true, run sig 64 (!sign)] ++ (if sign then [] else [run pub 32 true]))
        (if sign then .sign msg len sig else .verify msg len sig pub) crDone s1

def execSgn (h : Hdr) (a : BitVec 6) (s : State) : Out := issue h [rId a] (sigBody true 0 a) s
def execVfy (h : Hdr) (d a : BitVec 6) (s : State) : Out := issue h [rId a] (sigBody false d a) s

def execMext (h : Hdr) (m : BitVec 3) (a : BitVec 6) (s : State) : Out :=
  issue h [rId a] (fun s =>
    let v := getReg s a
    crBody [crRun? s v 64 1 true] (.extend m v.toNat) crDone s) s

def execMextRd (h : Hdr) (m : BitVec 3) (a : BitVec 6) (s : State) : Out :=
  issue h [rId a] (fun s =>
    let v := getReg s a
    crBody [crRun? s v 64 1 false] (.read m v.toNat) crDone s) s

def execKunw (h : Hdr) (d : BitVec 6) (slot : BitVec 6) (a : BitVec 6) (s : State) : Out :=
  issue h [rId a] (fun s =>
    let v := getReg s a
    crBody [crRun? s v 128 64 true] (.unwrap slot v.toNat) (crValue d) s) s

/-- Cycles of an operation (R366); `hfin` takes as many blocks as its padding produces. -/
def crCycles : CrOp → Nat
  | .init _ | .absorb .. => 80
  | .fin _ _ _ len => 80 * ((len + 144) / 128)
  | .sign _ len _ => 100000 + 160 * ((len + 127) / 128)
  | .verify .. => 200000
  | .extend .. | .read .. => 200
  | .unwrap .. => 150000

/-- The unit receives an operation, and works on one at a time. -/
def takeCr (op : CrOp) (id : Nat) (s : State) : State :=
  modCr (fun c => { c with queue := c.queue ++ [(op, id, c.queue.foldl (fun n q => Nat.max n q.2.2) s.now + crCycles op)] }) s

end Sys2Proof.Machine
end

