-- ==== Sys2Proof/Machine/Tithe.lean ====
section
/-! DEFINITION. Licensed tensors: brackets, bindings, the Tithe unit and its instructions, and the installation of terms
(chapter 12). -/

namespace Sys2Proof.Machine

/-! ### Fault details (R333) -/

def thTrap (c : Cause) (slot reason operand : Nat) : TrapInfo :=
  ⟨c, slot * 2 ^ 20 + reason * 2 ^ 16, BitVec.ofNat 64 operand⟩

def brOf (s : State) (b : Fin 4) : Bracket := s.task.brackets[b]
def setBr (b : Fin 4) (v : Bracket) (s : State) : State := { s with task.brackets := s.task.brackets.set b v }
def Bracket.empty : Bracket := ⟨false, 0, false, false, [], [], 0⟩

def termsOf (s : State) (index : Nat) : Option Terms := s.terms.find? (fun t => t.index == index)
def setTerms (t : Terms) (s : State) : State := { s with terms := s.terms.filter (fun q => q.index != t.index) ++ [t] }

/-- Uses that are never counted (R323). -/
def unlimited : Nat := 0xFFFFFFFF

/-! ### The unit's decisions (R332, R335, R338) -/

/-- Settle a reserved use: charge what it cost when the bracket opened, or refund it (R324, R332). -/
def settleTerms (charge : Option Nat) (t : Terms) : Terms :=
  match charge with
  | some n => { t with meter := Nat.min (t.meter + n) (2 ^ 64 - 1), rsv := t.rsv - 1 }
  | none => { t with rsv := t.rsv - 1, uses := if t.uses == unlimited then t.uses else Nat.min 0xFFFFFFFE (t.uses + 1) }

/-- Why the unit refuses to open a bracket, in the order of R335. -/
def openRefusal (s : State) (key : BitVec 64) (index : Nat) : Except Cause Terms :=
  match termsOf s index with
  | none => .error .thNoTerms
  | some t =>
    if key == 0 || !t.licensees.contains key then .error .thLicensee
    else if t.notAfter < ticks s then .error .thExpired
    else if t.uses = 0 then .error .thExhausted
    else .ok t

/-- Why the unit refuses `thrd` and `thstm`. -/
def readRefusal (s : State) (firm : Bool) (key : BitVec 64) (index : Nat) : Except Cause Terms :=
  match termsOf s index with
  | none => .error .thNoTerms
  | some t => if firm || (key != 0 && t.licensees.contains key) then .ok t else .error .thLicensee

def termsField (fn : ThrdFn) (t : Terms) : Nat :=
  match fn with
  | .owner => t.owner
  | .notafter => t.notAfter
  | .uses => t.uses
  | .charge => t.charge
  | .meter => t.meter
  | .rsv => t.rsv
  | .brk => 0

def titheReply (r : TitheReq) (v : Word) (f : Option TrapInfo) (s : State) : State :=
  match r.id with
  | some id => addReply ⟨id, v, 0, f⟩ s
  | none => s

/-- Kind 0x45: a TH fault (R341). -/
def tideTh (r : TitheReq) (c : Cause) (reason operand : Nat) (s : State) : State :=
  tideAdd titheSource 0x45 [causeCode c, reason, operand, r.key.toNat, s.die.toNat, s.core.toNat] s

def titheRefuse (r : TitheReq) (c : Cause) (slot index : Nat) (s : State) : State :=
  titheReply r 0 (some (thTrap c slot 0 index)) (tideTh r c 0 index s)

/-- Decide one request. A bracket that the unit grants is open at K with the reply, whatever becomes of the word that waits
for it (R335, R340). -/
def decide1 (r : TitheReq) (s : State) : State :=
  match r.op with
  | .openB index slot =>
    match openRefusal s r.key index with
    | .error c => titheRefuse r c slot index s
    | .ok t =>
      let t1 := { t with uses := if t.uses == unlimited then t.uses else t.uses - 1, rsv := t.rsv + 1 }
      titheReply r 0 none (tideAdd titheSource 0x42 [index, r.key.toNat, s.die.toNat, s.core.toNat, slot]
        (setBr (Fin.ofNat 4 slot) ⟨true, index, false, false, [], [], t.charge⟩ (setTerms t1 s)))
  | .settle index _ charge =>
    match termsOf s index with
    | none => titheReply r 0 none s
    | some t =>
      let t1 := settleTerms charge t
      let rec_ := if charge.isSome then tideAdd titheSource 0x43 [index, r.key.toNat, t1.meter, t1.uses]
        else tideAdd titheSource 0x44 [index, r.key.toNat, t1.uses]
      titheReply r 0 none (rec_ (setTerms t1 s))
  | .read fn index =>
    match readRefusal s r.firm r.key index with
    | .error c => titheRefuse r c 0 index s
    | .ok t => titheReply r (BitVec.ofNat 64 (termsField fn t)) none s
  | .report c reason operand => tideTh r c reason operand s
  | .statement .. => s

def isStatement : TitheOp → Bool
  | .statement .. => true
  | _ => false

/-- Bytes +0x00 to +0x3F of a meter statement (R339). -/
def statementBytes (s : State) (t : Terms) (nonce : Word) : List Byte :=
  leBytes 2 t.index ++ leBytes 2 s.boots ++ leBytes 4 t.owner ++ leBytes 8 t.meter ++ leBytes 4 t.uses ++ leBytes 4 t.rsv ++
    leBytes 8 (ticks s) ++ leBytes 4 t.stm ++ leBytes 4 t.seq ++ leBytes 8 nonce.toNat ++ List.replicate 16 0

/-- A statement is written where the store's checks have placed it, with its record (R339). -/
def writeStatement (r : TitheReq) (index : Nat) (nonce : Word) (segs : List Seg) (s : State) : State :=
  match readRefusal s r.firm r.key index with
  | .error c => titheRefuse r c 0 index s
  | .ok t =>
    let t1 := { t with stm := t.stm + 1 }
    let b := statementBytes s t1 nonce
    titheReply r 0 none (tideAdd titheSource 0x46 [index, t1.stm, nonce.toNat]
      (memWriteBy segs (b ++ edSign Config.identityKey b) (setTerms t1 s)))

/-- The state after the unit's oldest request, `rest` behind it. -/
def titheNext (r : TitheReq) (rest : List TitheReq) (s : State) : State :=
  match r.op with
  | .statement index nonce segs => writeStatement r index nonce segs { s with tithe := rest }
  | _ => decide1 r { s with tithe := rest }

/-- The unit can decide its oldest request: its time has come, no debugger holds the service core (R437), and the Tideline has
room for the records that it appends (R413). -/
def titheRuns (s : State) (statement : Bool) : Bool :=
  match s.tithe with
  | [] => false
  | r :: rest =>
    isStatement r.op == statement && decide (r.due ≤ s.now) && s.svcStop.isNone && tideFits (titheNext r rest s)

/-- TITHE_DECIDE: the unit decides its oldest request, indivisibly (R342). -/
def execTitheDecide (s : State) : Out :=
  match s.tithe with
  | [] => .next s
  | r :: rest => if titheRuns s false then .next (titheNext r rest s) else .next s

/-- METER_STATEMENT: the service core signs and writes a statement (R339). -/
def execMeterStatement (s : State) : Out :=
  match s.tithe with
  | [] => .next s
  | r :: rest => if titheRuns s true then .next (titheNext r rest s) else .next s

/-! ### Installation of terms (R323, R324) -/

/-- The record of a message that keeps R323's layout and ranges; `keep`: the record already at the index, of which the meter
and the reserved uses stay (R324). Statements count from 1 again (R339). -/
def termsOfMsg (m : List Byte) (keep : Option Terms) : Terms where
  index := fieldAt m 4 2
  owner := fieldAt m 0 4
  notAfter := fieldAt m 8 8
  uses := fieldAt m 0x10 4
  charge := fieldAt m 0x14 4
  base := fieldAt m 0x18 8
  pages := fieldAt m 0x20 4
  gen := fieldAt m 0x24 4
  licensees := (List.range (fieldAt m 6 1)).map (fun i => BitVec.ofNat 64 (fieldAt m (0x28 + 8 * i) 8))
  meter := (keep.map (·.meter)).getD (fieldAt m 0x68 8)
  rsv := (keep.map (·.rsv)).getD 0
  seq := fieldAt m 0x70 4
  stm := 0

/-- The first check of R324 that a message fails, numbered in its order. -/
def installCheck (s : State) (m : List Byte) : Option Nat :=
  let t := termsOfMsg m none
  let nlic := fieldAt m 6 1
  let key := (s.ownerKeys.find? (fun k => k.1 == t.owner)).map (·.2)
  let region (q : Terms) : Nat × Nat := (q.base, q.pages * 0x200000)
  let old := termsOf s t.index
  let zeros := fieldAt m 7 1 == 0 && fieldAt m 0x74 12 == 0 &&
    ((List.range 8).drop nlic).all (fun i => fieldAt m (0x28 + 8 * i) 8 == 0)
  let noKey := (List.range (Nat.min nlic 8)).any (fun i => fieldAt m (0x28 + 8 * i) 8 == 0)
  if !(key.any (fun k => edVerify k (m.take 0x80) ((m.drop 0x80).take 64))) then some 1
  else if m.length != 192 || !zeros || decide (255 < t.owner) || decide (4095 < t.index) || decide (8 < nlic) || noKey ||
      t.base % 0x200000 != 0 || t.pages == 0 || decide (384 < t.pages) then some 2
  else if decide (Config.hbmBytes < t.base + t.pages * 0x200000) ||
      s.terms.any (fun q => q.index != t.index && overlaps (region t).1 (region t).2 (region q).1 (region q).2) then some 3
  else if old.any (fun q => decide (t.seq ≤ q.seq)) then some 4
  else if old.any (fun q => q.owner != t.owner) then some 5
  else if s.exhausted then some 6
  else none

/-- Install a record, or refuse it; whether it was installed. -/
def installTerms (m : List Byte) (s : State) : Bool × State :=
  let old := termsOf s (fieldAt m 4 2)
  let t := termsOfMsg m old
  match installCheck s m with
  | some n => (false, tideAdd titheSource 0x41 [t.index, t.owner, n] s)
  | none => (true, tideAdd titheSource 0x40 [t.index, t.owner, t.seq, t.gen] (setTerms t s))

/-! ### The end of a bracket (R337) -/

/-- An issued access of L or S that writes bound storage. -/
def accessInto (s : State) (b : Bracket) (a : Access) : Bool :=
  let meets (off len : Nat) : Bool := (boundRuns s b).any (fun r => overlaps off len r.1 r.2)
  match a.kind with
  | .loadTile _ _ f _ => b.furs.contains f
  | .loadWindow _ img => (winSpan img).any (fun w => meets w.1.toNat (w.2 - w.1).toNat)
  | .store true segs _ _ =>
    segs.any (fun g => (boundRuns s b).any (fun r => match spadMap s false r.1 r.2 with
      | some p => overlaps g.pa g.len p r.2
      | none => false))
  | _ => false

/-- Step 1: nothing that writes the bracket's storage is under way. -/
def closeReady (s : State) (i : Fin 4) : Bool :=
  let b := brOf s i
  (mxOf s).cmds.isEmpty && (mxOf s).pops.isEmpty && (mxOf s).owed.isEmpty && !copyInto s b &&
    !s.task.accesses.any (accessInto s b) && s.task.vprog.isNone

/-- Write zeros over a run of the scratchpad. -/
def zeroRun (off len : Nat) (s : State) : State :=
  match spadMap s false off len with
  | some p => spadWrite p (List.replicate len 0) s
  | none => s

/-- Step 2: scrub a bound furrow, and a bound region with the window tiles in it and their scale words. -/
def scrubFurrow (f : Fin 16) (s : State) : State :=
  let v := furOf s f
  zeroRun v.base (v.cap * slotBytes v.fmt) (popTiles f v.present s)

def scrubRegion (r : Nat × Nat) (s : State) : State :=
  match spadMap s false r.1 r.2 with
  | none => s
  | some p =>
    let inside (q : HRec) : Bool := q.owner.isNone && q.live && decide (p ≤ q.base) && decide (q.base + tileBytes q.fmt ≤ p + r.2)
    let s1 := zeroRun r.1 r.2 s
    let s2 := (s1.side.filter inside).foldl (fun s q => match q.scaleAt with
      | some a => spadWrite a (List.replicate 128 0) s
      | none => s) s1
    { s2 with side := s2.side.map (fun q => if inside q then genTile s2.spad q else q) }

/-- The round trip of a request, from K's issue to the finish (R340). -/
def titheTrip (s : State) : Nat := if s.die = 0 then 200 else 600

/-- One cycle per 128 bytes scrubbed (R340). -/
def scrubCycles (s : State) (b : Bracket) : Nat :=
  ((b.furs.map (fun f => (furOf s f).cap * slotBytes (furOf s f).fmt)) ++ b.regions.map (·.2)).foldl (fun n x => n + (x + 127) / 128) 0

/-- Steps 2 and 3: scrub, release the bindings, and send the settle request; `charge` as the table of R332 gives. -/
def endBracket (i : Fin 4) (charge : Bool) (id : Option Nat) (s : State) : State :=
  let b := brOf s i
  let s1 := b.regions.foldl (fun s r => scrubRegion r s) (b.furs.foldl (fun s f => scrubFurrow f s) s)
  { setBr i Bracket.empty s1 with
    tithe := s1.tithe ++ [⟨.settle b.index i.val (if charge then some b.charge else none), false, keyOf s s.task.ctx, id, s.now + scrubCycles s b + titheTrip s - 4⟩] }

/-- The close action of `thclose` and `thabort` is performed. -/
def closeBracket (i : Fin 4) (abort : Bool) (id : Nat) (s : State) : State :=
  endBracket i (!abort || (brOf s i).eg) (some id) s

/-- The end of the task with brackets still open: each is settled as an abort is (R332, R337). -/
def endBrackets (s : State) : State :=
  (List.finRange 4).foldl (fun s i => if (brOf s i).isOpen then endBracket i (brOf s i).eg none s else s) s

/-! ### Instructions (R334 to R339) -/

/-- Instructions that the firmware context may not issue (R334). -/
def thGuard (s : State) (f : Unit → Result) : Result := if isFirm s then .trap (trapOf .priv) else f ()

/-- The key of the issuing context. -/
def myKey (s : State) : BitVec 64 := keyOf s (ctxNum s (isFirm s))

def titheAsk (op : TitheOp) (s : State) : State :=
  askWith (fun id => .tithe ⟨op, isFirm s, myKey s, some id, s.now + titheTrip s⟩) s

def execThopen (h : Hdr) (b : BitVec 2) (a : BitVec 6) (s : State) : Out :=
  issue h [rId a] (fun s => thGuard s (fun _ =>
    let i : Fin 4 := b.toFin
    let index := low12 (getReg s a)
    if isAsking s then
      takeReply .waitReply crDone s
    else if (brOf s i).isOpen then .trap (thTrap .thNested i.val 0 i.val)
    else if s.task.brackets.toList.any (fun c => c.isOpen && c.index == index) then .trap (thTrap .thNested i.val 1 index)
    else .waitReply (titheAsk (.openB index i.val) s))) s

/-- The checks that both forms of `thbind` share; then the binding. -/
def bindBody (i : Fin 4) (pre : Option TrapInfo) (taken : Bool) (what : Nat) (f : Bracket → Bracket) (s : State) : Result :=
  let b := brOf s i
  if !b.isOpen then .trap (thTrap .thNoBracket i.val 2 i.val)
  else match pre with
    | some t => .trap t
    | none =>
      if taken then .trap (thTrap .thNested i.val 2 what)
      else if 8 ≤ b.furs.length + b.regions.length then .trap (thTrap .thNested i.val 3 i.val)
      else .done (setBr i (f b) (enqueue (.wsr none none) 0 0 s)) 2

def execThbind (h : Hdr) (b : BitVec 2) (f : BitVec 4) (s : State) : Out :=
  issue h [] (fun s => thGuard s (fun _ =>
    let fi : Fin 16 := f.toFin
    let none_ := ((mxOf s).k.fur[fi]).cap == 0
    bindBody b.toFin (if none_ then some (windowTrap 0 f.toNat (furrowImage (furOf s fi)) false) else none)
      (s.task.brackets.toList.any (fun c => c.isOpen && c.furs.contains fi)) f.toNat
      (fun c => { c with furs := c.furs ++ [fi] }) s)) s

def regionFault (s : State) (w : Word) : Option TrapInfo :=
  let len := wbits w 24 23
  let base := wbits w 0 23
  if !zeroBits w 47 17 || !zeroBits w 23 1 then some (reservedValue w)
  else if base % 128 != 0 || len % 128 != 0 || len == 0 || (spadMap s false base len).isNone then some (windowTrap 1 0 w false)
  else none

def execThbindR (h : Hdr) (b : BitVec 2) (a : BitVec 6) (s : State) : Out :=
  issue h [rId a] (fun s => thGuard s (fun _ =>
    let w := getReg s a
    let r := (wbits w 0 23, wbits w 24 23)
    bindBody b.toFin (regionFault s w)
      (s.task.brackets.toList.any (fun c => c.isOpen && c.regions.any (fun q => overlaps r.1 r.2 q.1 q.2))) w.toNat
      (fun c => { c with regions := c.regions ++ [r] }) s)) s

/-- Actions of K that may write bound storage. -/
def writesSpad (a : Action) : Bool :=
  match a with
  | .sts .. | .cp _ | .cpres _ => true
  | _ => false

/-- `thclose` and `thabort`: step 1 waits as R104 counts it; the wait for the reply is none (R337, R340). -/
def closeIssue (abort : Bool) (h : Hdr) (b : BitVec 2) (s : State) : Out :=
  issue h [] (fun s => thGuard s (fun _ =>
    let i : Fin 4 := b.toFin
    if isAsking s then takeReply .waitReply crDone s
    else if !(brOf s i).isOpen then .trap (thTrap .thNoBracket i.val 2 i.val)
    else if closeReady s i && matrixIdle s && !s.checkq.any (fun c => writesSpad c.act) then
      .waitReply (askWith (fun id => .close i abort id) s)
    else .waitIssued s)) s

def execThclose (h : Hdr) (b : BitVec 2) (s : State) : Out := closeIssue false h b s
def execThabort (h : Hdr) (b : BitVec 2) (s : State) : Out := closeIssue true h b s

/-- The status of a bracket slot (R338). -/
def bracketWord (b : Bracket) : Word :=
  if !b.isOpen then 0
  else BitVec.ofNat 64 (2 ^ 63 + (if b.lic then 2 ^ 62 else 0) + (if b.eg then 2 ^ 61 else 0) +
    (b.furs.length + b.regions.length) % 16 * 2 ^ 56 + b.index % 4096)

def execThrd (h : Hdr) (fn : ThrdFn) (d a : BitVec 6) (s : State) : Out :=
  issue h [rId a] (fun s =>
    let v := getReg s a
    if fn == .brk then writeReg d (bracketWord (brOf s (Fin.ofNat 4 (wbits v 0 2)))) 2 (enqueue (.wsr none none) 0 0 s)
    else if isAsking s then takeReply .waitReply (crValue d) s
    else .waitReply (titheAsk (.read fn (low12 v)) s)) s

def execThstm (h : Hdr) (d a f : BitVec 6) (s : State) : Out :=
  issue h [rId d, rId a, rId f] (fun s =>
    let va := getReg s a
    if isAsking s then takeReply .waitIssued crDone s
    else if misaligned va 64 then .trap (trapAt .align va)
    else match globalCheck s .k (isFirm s) va 128 false true .unbound with
      | .error t => .trap t
      | .ok ps =>
        let ctx := ctxNum s (isFirm s)
        let out := egressBytes ps
        if !egressPassed s .kAction ctx out then .wait (egressAsk .kAction ctx out s)
        else
          .waitIssued (titheAsk (.statement (low12 (getReg s f)) (getReg s d) (piecesSegs ps))
            (egressDone .kAction ctx out (tlbUse .k ps s)))) s

/-- The unit receives a request. -/
def takeTithe (r : TitheReq) (s : State) : State := { s with tithe := s.tithe ++ [r] }

end Sys2Proof.Machine
end

