-- ==== Sys2Proof/Machine/KvUnit.lean ====
section
/-! DEFINITION. The KV unit of the die: the prefix index, the pool of pages, sequence handles, and the instructions of
chapter 13, R363 to R365. -/

namespace Sys2Proof.Machine

def modKv (f : Kv → Kv) (s : State) : State := { s with kv := f s.kv }

/-- The largest number of nodes of the index (R363). -/
def kvNodes : Nat := 65536

/-- Take one of some free things: the manual does not say which (log 14). -/
def pickFree (l : List Nat) (s : State) : Option (Nat × State) :=
  if l.isEmpty then none else some (l.getD (Config.victim s.free % l.length) 0, { s with free := s.free + 1 })

/-! ### The index (R364) -/

/-- The child of a node (of the root, for none) that carries a block, in a context. -/
def childOf (s : State) (ctx : Nat) (parent : Option Nat) (toks : List Nat) : Option KvNode :=
  s.kv.nodes.find? (fun n => n.ctx == ctx && n.parent == parent && n.toks == toks)

/-- The whole blocks of 16 token ids. -/
def blocksOf : Nat → List Nat → List (List Nat)
  | 0, _ => []
  | n + 1, l => l.take 16 :: blocksOf n (l.drop 16)

/-- The nodes that match blocks in order from a parent, at most `fuel` of them. -/
def matchBlocks (s : State) (ctx : Nat) : Nat → Option Nat → List (List Nat) → List KvNode
  | 0, _, _ => []
  | _, _, [] => []
  | k + 1, p, b :: bs =>
    match childOf s ctx p b with
    | none => []
    | some n => n :: matchBlocks s ctx k (some n.id) bs

def modNode (id : Nat) (f : KvNode → KvNode) (s : State) : State :=
  modKv (fun k => { k with nodes := k.nodes.map (fun n => if n.id == id then f n else n) }) s

/-- Add 1 to the counts of matched nodes and stamp them. -/
def acquireNodes (l : List KvNode) (s : State) : State :=
  l.foldl (fun s n => modNode n.id (fun n => { n with count := n.count + 1, stamp := ticks s }) s) s

/-- The node numbers that no node has. -/
@[irreducible] def freeNodeIds (s : State) : List Nat := (List.range kvNodes).filter (fun i => !s.kv.nodes.any (fun n => n.id == i))

/-- Insert nodes for further blocks, each with the next page; how many. -/
def insertNodes (ctx : Nat) : Option Nat → List (List Nat) → List Nat → State → Nat × State
  | p, b :: bs, pg :: pgs, s =>
    match pickFree (freeNodeIds s) s with
    | none => (0, s)
    | some (id, s1) =>
      let r := insertNodes ctx (some id) bs pgs (modKv (fun k => { k with nodes := k.nodes ++ [⟨id, ctx, p, b, pg, 1, ticks s⟩] }) s1)
      (r.1 + 1, r.2)
  | _, _, _, s => (0, s)

/-- Change one listed node's count; whether the id was in error. -/
def refNode (ctx : Nat) (add : Bool) (id : Nat) (s : State) : Bool × State :=
  match s.kv.nodes.find? (fun n => n.id == id && n.ctx == ctx) with
  | none => (true, s)
  | some n =>
    if add then (false, modNode id (fun n => { n with count := n.count + 1 }) s)
    else if n.count = 0 then (true, s)
    else (false, modNode id (fun n => { n with count := n.count - 1 }) s)

def refNodes (ctx : Nat) (add : Bool) : List Nat → State → Nat × State
  | [], s => (0, s)
  | id :: ids, s =>
    let p := refNode ctx add id s
    let q := refNodes ctx add ids p.2
    ((if p.1 then 1 else 0) + q.1, q.2)

/-- The leaf of count 0 of a context that goes first: oldest stamp, ties by lower id. -/
def evictee (s : State) (ctx : Nat) : Option KvNode :=
  (s.kv.nodes.filter (fun n => n.ctx == ctx && n.count == 0 && !s.kv.nodes.any (fun c => c.parent == some n.id))).foldl
    (fun best n => match best with
      | none => some n
      | some b => if n.stamp < b.stamp || (n.stamp == b.stamp && decide (n.id < b.id)) then some n else best) none

/-- A page returns to the pool, from whichever handle had it. -/
def poolPage (pg : Nat) (k : Kv) : Kv :=
  { k with
    pool := if k.pool.contains pg then k.pool else k.pool ++ [pg]
    handles := k.handles.map (fun h => { h with pages := h.pages.filter (· != pg) }) }

def evictNodes (ctx : Nat) : Nat → State → Nat × State
  | 0, s => (0, s)
  | n + 1, s =>
    match evictee s ctx with
    | none => (0, s)
    | some v =>
      let r := evictNodes ctx n (modKv (fun k => poolPage v.page { k with nodes := k.nodes.filter (fun m => m.id != v.id) }) s)
      (r.1 + 1, r.2)

/-! ### Pages (R365) -/

def handleOf (s : State) (ctx num : Nat) : Option KvHandle := s.kv.handles.find? (fun h => h.ctx == ctx && h.num == num)
def putHandle (h : KvHandle) (s : State) : State :=
  modKv (fun k => { k with handles := k.handles.filter (fun g => !(g.ctx == h.ctx && g.num == h.num)) ++ [h] }) s
def dropHandle (ctx num : Nat) (s : State) : State :=
  modKv (fun k => { k with handles := k.handles.filter (fun g => !(g.ctx == ctx && g.num == num)) }) s

/-- A node of the index references the page. -/
def referenced (s : State) (pg : Nat) : Bool := s.kv.nodes.any (fun n => n.page == pg)

/-- Take up to n pages from the pool. -/
def takePages : Nat → State → List Nat × State
  | 0, s => ([], s)
  | n + 1, s =>
    match pickFree s.kv.pool s with
    | none => ([], s)
    | some (pg, s1) =>
      let r := takePages n (modKv (fun k => { k with pool := k.pool.filter (· != pg) }) s1)
      (pg :: r.1, r.2)

/-- Write INT32 elements to a list at its place in the scratchpad, which stays where it is while the requester is saved: the
headland records of a saved task follow the bytes too (R82, R156, R363). -/
def writeList (phys : Nat) (l : List Nat) (s : State) : State :=
  let t := spadWrite phys (l.flatMap (leBytes 4)) s
  if l.isEmpty then s
  else { t with saves := s.saves.map (fun g => { g with side := g.side.map (recWrite s.spad t.spad phys (4 * l.length)) }) }

/-- The reply to a request that has dealt with n nodes or pages: 4 cycles for each (R366). -/
def kvReply (r : KvReq) (v n : Nat) (s : State) : State := addReply ⟨r.id, BitVec.ofNat 64 v, s.now + 4 * n, none⟩ s

/-- Allocate what the pool has, up to COUNT, to the handle. -/
def finishAlloc (r : KvReq) (s : State) : State :=
  let p := takePages r.max s
  let h := (handleOf s r.ctx r.handle).getD ⟨r.ctx, r.handle, r.elig, [], [], ticks s⟩
  let s1 := if p.1.isEmpty then p.2 else putHandle { h with elig := r.elig, pages := h.pages ++ p.1 } p.2
  kvReply r p.1.length p.1.length (writeList r.out p.1 s1)

/-- The victim: the eligible handle of the context whose first allocation is latest, ties by higher handle. -/
def victimOf (s : State) (ctx : Nat) : Option KvHandle :=
  (s.kv.handles.filter (fun h => h.ctx == ctx && h.elig)).foldl
    (fun best h => match best with
      | none => some h
      | some b => if b.first < h.first || (b.first == h.first && decide (b.num < h.num)) then some h else best) none

/-- An attention event arrives at port ev: ATTN becomes pending on K (R148), on a compute core in the task's context: DESIGN
CHOICE (log 78). A K that has ended, or is absent, discards it (R430). -/
def attention (v : Word) (s : State) : State :=
  if portHasRoom s .ev 1 then
    let s1 := portPut .ev v s
    if s.kind != .compute then { s1 with firm.pendAttn := true }
    else if s.task.k.run == .ended || s.task.k.run == .absent then s1
    else { s1 with task.k.pendAttn := true }
  else s

/-- `kvpg.alloc`: a short pool first evicts, then asks a victim. -/
def allocPages (r : KvReq) (s : State) : State :=
  let short (s : State) : Nat := r.max - s.kv.pool.length
  let s1 := (evictNodes r.ctx (short s) s).2
  if short s1 = 0 then finishAlloc r s1
  else match victimOf s1 r.ctx with
    | none => finishAlloc r s1
    | some v =>
      let marked := v.pages.filter (fun p => !referenced s1 p)
      attention (BitVec.ofNat 64 (v.num * 2 ^ 32 + 0x0101))
        (modKv (fun k => { k with waiting := some (r, v.num) }) (putHandle { v with reclaim := marked } s1))

/-- Return listed pages of a handle to the pool; how many it does not own. -/
def freePages (ctx num : Nat) : List Nat → State → Nat × State
  | [], s => (0, s)
  | pg :: pgs, s =>
    match handleOf s ctx num with
    | none => let r := freePages ctx num pgs s; (r.1 + 1, r.2)
    | some h =>
      if !h.pages.contains pg then let r := freePages ctx num pgs s; (r.1 + 1, r.2)
      else freePages ctx num pgs (modKv (poolPage pg) s)

/-- Return every page of a handle and forget it. -/
def releaseHandle (ctx num : Nat) (s : State) : State :=
  match handleOf s ctx num with
  | none => s
  | some h => dropHandle ctx num (freePages ctx num h.pages s).2

/-- `kvpg.ack`: the handle is forgotten, its marked pages return, and the requester that waited for it takes pages. -/
def ackHandle (r : KvReq) (s : State) : State :=
  let marked := ((handleOf s r.ctx r.handle).map (·.reclaim)).getD []
  let s1 := kvReply r 0 marked.length (dropHandle r.ctx r.handle (modKv (fun k => marked.foldl (fun k p => poolPage p k) k) s))
  match s1.kv.waiting with
  | some (q, v) =>
    if v == r.handle && q.ctx == r.ctx then finishAlloc q (modKv (fun k => { k with waiting := none }) s1) else s1
  | none => s1

/-! ### The unit's step -/

/-- Decide one request (R364, R365). -/
def kvRun (r : KvReq) (s : State) : State :=
  let blocks := blocksOf (r.toks.length / 16) r.toks
  match r.op with
  | .probe | .acquire =>
    let m := matchBlocks s r.ctx r.max none blocks
    let s1 := if r.op == .acquire then acquireNodes m s else s
    kvReply r (16 * m.length) m.length (writeList r.out (m.flatMap (fun n => [n.id, n.page])) s1)
  | .insert =>
    let m := matchBlocks s r.ctx blocks.length none blocks
    let p := insertNodes r.ctx (m.getLast?.map (·.id)) (blocks.drop m.length) (r.ids.take r.max) (acquireNodes m s)
    kvReply r p.1 (m.length + p.1) p.2
  | .refAdd => let p := refNodes r.ctx true r.ids s; kvReply r p.1 r.ids.length p.2
  | .refDrop => let p := refNodes r.ctx false r.ids s; kvReply r p.1 r.ids.length p.2
  | .evict => let p := evictNodes r.ctx r.max s; kvReply r p.1 p.1 p.2
  | .alloc => allocPages r s
  | .free => let p := freePages r.ctx r.handle r.ids s; kvReply r p.1 r.ids.length p.2
  | .release =>
    kvReply r 0 (((handleOf s r.ctx r.handle).map (fun h => h.pages.length)).getD 0) (releaseHandle r.ctx r.handle s)
  | .ack => ackHandle r s

/-- The unit can decide its oldest request: an allocation waits while another one waits for its victim. -/
def kvPick (s : State) : Option KvReq :=
  s.kv.queue.find? (fun r => decide (r.due ≤ s.now) && (r.op != .alloc || s.kv.waiting.isNone))

/-- KV_DECIDE: the unit decides its oldest request (R363). -/
def execKvDecide (s : State) : Out :=
  match kvPick s with
  | none => .next s
  | some r => .next (kvRun r (modKv (fun k => { k with queue := k.queue.erase r }) s))

/-! ### Instructions (R363) -/

/-- The fields that an operation uses: TOK and NTOK, OUT, PAGES or IDS, HANDLE, FLAGS. -/
def kvUses (op : KvOp) : Bool × Bool × Bool × Bool × Bool :=
  match op with
  | .probe | .acquire => (true, true, false, false, false)
  | .insert => (true, false, true, false, false)
  | .refAdd | .refDrop => (false, false, true, false, false)
  | .evict => (false, false, false, false, false)
  | .alloc => (false, true, false, true, true)
  | .free => (false, false, true, true, false)
  | .release | .ack => (false, false, false, true, false)

def kvReserved (b : List Byte) (op : KvOp) : Bool :=
  let u := kvUses op
  let f (off : Nat) : Nat := fieldAt b off 4
  (!u.1 && (f 0 != 0 || f 4 != 0)) || (!u.2.1 && f 8 != 0) || (!u.2.2.1 && f 0x10 != 0) || (!u.2.2.2.1 && f 0x14 != 0) ||
    (if u.2.2.2.2 then decide (1 < f 0x18) else f 0x18 != 0) || f 0x1C != 0 || decide (65535 < f 4)

/-- The lists that an operation names: address and bytes. -/
def kvLists (b : List Byte) (op : KvOp) : List (Nat × Nat) :=
  let u := kvUses op
  let f (off : Nat) : Nat := fieldAt b off 4
  (if u.1 then [(f 0, 4 * f 4)] else []) ++
    (if u.2.1 then [(f 8, if op == .alloc then 4 * f 0x0C else 8 * f 0x0C)] else []) ++
    (if u.2.2.1 then [(f 0x10, 4 * f 0x0C)] else [])

def readList (s : State) (firm : Bool) (at_ n : Nat) : List Nat :=
  match spadMap s firm at_ (4 * n) with
  | some p => (List.range n).map (fun i => memWord s.spad (p + 4 * i) 4)
  | none => []

def kvRequest (s : State) (b : List Byte) (op : KvOp) (id : Nat) : KvReq :=
  let u := kvUses op
  let f (off : Nat) : Nat := fieldAt b off 4
  { op := op, firm := isFirm s, ctx := ctxNum s (isFirm s), toks := if u.1 then readList s (isFirm s) (f 0) (f 4) else []
    out := (spadMap s (isFirm s) (f 8) (if op == .alloc then 4 * f 0x0C else 8 * f 0x0C)).getD (f 8), max := f 0x0C, ids := if u.2.2.1 then readList s (isFirm s) (f 0x10) (f 0x0C) else [], handle := f 0x14
    elig := f 0x18 == 1, id := id, due := 0 }

/-- An instruction with a KV block: it sends its request and waits, as R104 counts it, for the reply. A list address that is
no multiple of 4 faults nothing, and the bytes at it are used: DESIGN CHOICE (log 86). -/
def kvIssue (op : KvOp) (h : Hdr) (d a : BitVec 6) (s : State) : Out :=
  issue h [rId a] (fun s =>
    if isAsking s then takeReply .waitIssued (crValue d) s
    else match readBlock (getReg s a) 32 s with
      | .error r => r
      | .ok (b, s1) =>
        if kvReserved b op then .trap (reservedValue (getReg s a))
        else match (kvLists b op).find? (fun l => (spadMap s (isFirm s) l.1 l.2).isNone) with
          | some l => .trap (trapAt .prot (BitVec.ofNat 64 l.1))
          | none => .waitIssued (askWith (fun id => .kv (kvRequest s b op id)) s1)) s

def execPxlk (h : Hdr) (d a : BitVec 6) (s : State) : Out := kvIssue .probe h d a s
def execPxlkAcq (h : Hdr) (d a : BitVec 6) (s : State) : Out := kvIssue .acquire h d a s
def execPxins (h : Hdr) (d a : BitVec 6) (s : State) : Out := kvIssue .insert h d a s
def execPxrefAdd (h : Hdr) (d a : BitVec 6) (s : State) : Out := kvIssue .refAdd h d a s
def execPxrefDrop (h : Hdr) (d a : BitVec 6) (s : State) : Out := kvIssue .refDrop h d a s
def execKvpgAlloc (h : Hdr) (d a : BitVec 6) (s : State) : Out := kvIssue .alloc h d a s
def execKvpgFree (h : Hdr) (d a : BitVec 6) (s : State) : Out := kvIssue .free h d a s
def execKvpgRel (h : Hdr) (d a : BitVec 6) (s : State) : Out := kvIssue .release h d a s
def execKvpgAck (h : Hdr) (d a : BitVec 6) (s : State) : Out := kvIssue .ack h d a s

/-- `pxevc`: up to a leaves (R364). -/
def execPxevc (h : Hdr) (d a : BitVec 6) (s : State) : Out :=
  issue h [rId a] (fun s =>
    if isAsking s then takeReply .waitIssued (crValue d) s
    else
      let n := (getReg s a).toNat
      .waitIssued (askWith (fun id => .kv ⟨.evict, isFirm s, ctxNum s (isFirm s), [], 0, n, [], 0, false, id, 0⟩) s)) s

/-- Cycles until the unit decides a request, 400 more over the bridge (R366). -/
def kvCycles (s : State) : Nat := if s.die = 0 then 40 else 440

/-- The unit receives a request. -/
def takeKv (r : KvReq) (s : State) : State :=
  modKv (fun k => { k with queue := k.queue ++ [{ r with due := s.now + kvCycles s }] }) s

end Sys2Proof.Machine
end

