-- ==== Sys2Proof/Machine/System.lean ====
section
/-! DEFINITION. The system part (chapters 04 and 05): the checked actions as they are performed, `end`, ports, `sys`,
`rfi`, interrupts, firmware events, pre-emption, and what the environment does to the core. -/

namespace Sys2Proof.Machine

/-! ### Checked actions (R116 to R119) -/

/-- The pushes of a word of K that has finished `lat` cycles after its checked action (R40): they have come to the checker
with it, and are made then. -/
def pushAfter (firm : Bool) (word lat : Nat) (s : State) : State :=
  let mine (c : Checked) : Option Push := match c.act with
    | .tokens f n => if c.firm == firm && c.word == word then some ⟨f, n, s.now + lat⟩ else none
    | _ => none
  { s with
    checkq := s.checkq.filter (fun c => (mine c).isNone)
    task.pushes := s.task.pushes ++ s.checkq.filterMap mine }

/-- The reply to a word comes back for register d, ready `lat` cycles from now: a later write to d stands (R88). -/
def giveReg (x : Issuer) (d : BitVec 6) (v : Word) (word lat : Nat) (s : State) : State :=
  modCtx x (fun c => if c.busy.contains (d.toNat, .word word) then ctxSetReg d v s.now lat c else c) s

/-- A command that has come through the copy queue (R133, R347, R348): a block that fails a check is held at F = 0 when
its turn comes. -/
def takeQueued (firm : Bool) (block : List Word) (s : State) : State :=
  let b := block.flatMap (fun w => leBytes 8 w.toNat)
  let two := fieldAt b 0x1C 4 != 0
  let c := cpParse b two
  takeCp { cpCmd c firm false 0 with fault := cpFault s firm 0 b two c } s

/-- A block is delivered: through port tq, or to the copy queue; another core's queues are that core's (log 27). -/
def deliver (queue die core : Nat) (block : List Word) (s : State) : State :=
  if die == s.die.toNat && core == s.core.toNat then
    if queue = 0 then block.foldl (fun s w => portPut .tq w s) s else takeQueued false block s
  else s

/-- Effects of a performed action, by its kind (R113, R116, R126, R134, R278, R331, R337). -/
def perform (c : Checked) (s : State) : State :=
  let x : Issuer := if c.firm then .kFirm else .kTask
  let eg : State → State := egressOf c.firm
  match c.act with
  | .stk ss bs => eg (cacheUpdate (ss.headD ⟨0, 0⟩).pa bs (memPut ss bs s))
  | .sts off bs => spadWrite off bs s
  | .amo op dw pa d b cmp wide lat =>
    let p := amoMem op dw pa b cmp s
    pushAfter c.firm c.word lat (giveReg x d p.1 c.word lat (eg (if wide then flushCache p.2 else p.2)))
  | .wsr nrp share =>
    let s1 := match nrp with
      | some n => restartNoise n s
      | none => s
    match share with
    | some v => { s1 with share := v }
    | none => s1
  | .tokens f n => { s with task.pushes := s.task.pushes ++ [⟨f, n, s.now⟩] }
  | .renq queue die core block => eg (deliver queue die core block s)
  | .mx cmds => submit cmds s
  | .fget st f d => pushAfter c.firm c.word 1 (giveReg x d (fgetValue s st f) c.word 1 s)
  | .mc cmd => modMc (fun m => { m with queue := m.queue ++ [{ cmd with ready := s.now }] }) s
  | .cp cmd => takeCp cmd s
  | .cpres drop => takeCpres drop s
  | .fx cmd => takeFx cmd s
  | .tsat t => takeTsat t s
  | .await u id => addReply ⟨id, BitVec.ofNat 64 (match u with
      | .copy => (cpOf s).count
      | .fabric => s.task.fx.count
      | .time => 0), 0, none⟩ s
  | .cr op id => takeCr op id s
  | .kv r => takeKv r s
  | .tithe r => takeTithe r s
  | .close slot abort id => closeBracket slot abort id s
  | .fault t pc => if (ctxOf s x).run == .running then takeTrap x t pc s else s

/-- What an action waits for beside the order of accesses: room at a task queue, quiet bound storage. -/
def actionReady (s : State) (c : Checked) : Bool :=
  match c.act with
  | .renq queue die core _ => queueRoom s queue die core 0
  | .close slot _ _ => closeReady s slot
  | _ => true

/-- The oldest action can be performed now. -/
def confirmRuns (s : State) : Bool :=
  match s.checkq with
  | [] => false
  | c :: _ => decide (c.due ≤ s.now) && canConfirm s c && actionReady s c

/-- What K had bound to its brackets before a word. -/
def restoreBound (old new : Bracket) : Bracket := if new.isOpen then { new with furs := old.furs, regions := old.regions } else new

/-- A context of K stands again where it stood before a word; what has become pending since stays pending. -/
def restoreK (x : Issuer) (snap : Ctx) (s : State) : State :=
  modCtx x (fun c => { snap with imem := c.imem, pendTimer := c.pendTimer, pendBudget := c.pendBudget, pendAttn := c.pendAttn }) s

/-- Both contexts stand before the first word of theirs that has an unconfirmed action (R118, R119). -/
def restoreWindow (s : State) : State :=
  let back (firm : Bool) (s : State) : State :=
    match s.checkq.find? (fun c => c.firm == firm) with
    | some c => restoreK (if firm then .kFirm else .kTask) c.snap s
    | none => s
  back false (back true s)

/-- A lasting mismatch: no unconfirmed action is performed, K stands before the word of the oldest one, with the special
registers that it may write, and CHECKER is raised there; the launch unit quarantines the core (R119). -/
def checkerFail (c : Checked) (s : State) : State :=
  let x : Issuer := if c.firm then .kFirm else .kTask
  let s1 := { restoreWindow s with
    checkq := []
    quarantined := true
    shareView := c.snapShare
    task.budget := if c.cycle < s.task.budgetFrom then c.snapBudget else s.task.budget
    task.mx.k := c.snapMx
    task.mc.kcfg := c.snapMc
    task.brackets := c.snapBr.zipWith restoreBound s.task.brackets }
  takeTrap x (trapOf .checker) c.snap.pc (notify (schedSource s.die.toNat 0) .quarantine
    (logLaunch .quarantine [] (logAdd .lasting [causeCode .checker] s1)))

/-- CHECKED_ACTION_CONFIRM: the oldest action, when the checker has compared it: equal, equal after re-execution, or
different again. -/
def execCheckedActionConfirm (o : CheckOutcome) (s : State) : Out :=
  match s.checkq with
  | [] => .next s
  | c :: rest =>
    if !confirmRuns s then .next s
    else match o with
      | .confirmed => .next (perform c { s with checkq := rest })
      | .transient => .next (perform c (logAdd .transient [causeCode .checker] { s with checkq := rest }))
      | .lasting => .next (checkerFail c s)

/-! ### end (R105, R151, R159, R307, R350, R356) -/

/-- What an `end` of K meets: a deferred MCE fault, a held copy or fabric command, or work that goes on. -/
def endOfK (s : State) (fin : State → Result) : Result :=
  if unconfirmed s (issuerOf s) then .wait s
  else match mcGate s with
    | .wait s1 => .wait s1
    | .raise s1 t => .trapKeep s1 t
    | .pass =>
      match (cpOf s).held, fxHeld s with
      | some h, _ => .trap (cpTrap h)
      | none, some t => .trap t
      | none, none =>
        if matrixIdle s && (mcOf s).queue.isEmpty && (cpOf s).queue.isEmpty && s.task.fx.cmds.isEmpty then fin s
        else .wait s

/-- The stream finishes; interrupts that are pending for it are discarded (R151). -/
def endStream (x : Issuer) (s : State) : State :=
  modCtx x (fun c => { c with run := .ended, pendTimer := false, pendBudget := false, pendAttn := false }) s

def execEndT (h : Hdr) (s : State) : Out :=
  issue h [] (fun s =>
    let x := issuerOf s
    let fin (s : State) : Result := .done (endStream x s) 0
    match x with
    | .kTask | .kFirm => endOfK s fin
    | _ => if allPerformed s x && landed s x then fin s else .wait s) s

/-- Work of the task that its core, the Tithe unit or the KV unit has taken and not done: a request of the Tithe unit is a
committed command until its reply (R159, R340). -/
def busyCommon (s : State) : Bool :=
  !s.task.accesses.isEmpty || s.checkq.any (fun c => !c.firm) || !(mcOf s).queue.isEmpty || !(cpOf s).queue.isEmpty ||
    !s.task.latches.isEmpty || !s.task.pushes.isEmpty || s.tithe.any (fun r => !r.firm) ||
    s.kv.queue.any (fun r => !r.firm) || s.kv.waiting.any (fun r => !r.1.firm)

/-- Committed work of the task is under way (R159). -/
def taskBusy (s : State) : Bool := busyCommon s || !matrixIdle s || !s.task.fx.cmds.isEmpty

/-- A committed access or command is outstanding in the sense of R161: a command of the matrix engine that waits for tiles
is not (R257), nor is a send that has started and waits for its match (R357, R358). -/
def outstanding (s : State) : Bool :=
  busyCommon s || !(matrixIdle s || tileWait s) ||
    s.task.fx.cmds.any (fun c => !(c.send && c.other.isNone && c.held.isNone && decide (c.gate ≤ ptpNs s)))

def isEnded (c : Ctx) : Bool := c.run == .ended
def allEnded (s : State) : Bool := isEnded s.task.k && isEnded s.task.l && isEnded s.task.c && isEnded s.task.s

/-- All four streams have finished and everything they issued is performed. -/
def taskOver (s : State) : Bool := s.task.alive && allEnded s && !taskBusy s

/-- The headland records of this task: all but those beyond its share, which no other task can name (R283, R299). -/
def releaseRecords (s : State) : State := { s with side := [], corrected := [] }

/-- The task ends: brackets still open end, its records are released, its launch knows how it went (R105, R283, R299,
R332, R402). -/
def finishTask (s : State) : State :=
  let s1 := releaseRecords (endBrackets s)
  let note (l : Launch) : Launch :=
    if l.pkt.lid == s.task.lid && !l.cores.isEmpty then
      match s.task.failed with
      | some r => { l with failed := true, reason := r.toNat % 256, hung := s.hungSeen }
      | none => l
    else l
  { journal s.die.toNat (.ended s.task.lid) s1 with
    task.alive := false, preempt := false, saveFrom := none, launches := s1.launches.map note }

/-! ### Ports (R114) -/

/-- `epush` acts on port mxf alone, as `mfmt`. -/
def execEpush (h : Hdr) (port : Port) (a : BitVec 6) (s : State) : Out :=
  issue h [rId a] (fun s =>
    if port == .mxf then pushFormat (getReg s a) s else .trap ⟨.reservedField, 24 * 0x10000, 0⟩) s

/-- Entries that stand in a port's input FIFO. -/
def portIn (s : State) (p : Port) : Nat :=
  match p with
  | .mx => mxQueued s
  | .mxf => (mxOf s).k.words.length
  | .cp => cpQueued s
  | .mc => mcQueued s
  | .fx => fxQueued s
  | .cr => s.crypto.queue.length
  | .px => s.kv.queue.length
  | .tq | .ev => 0

def execEcountIn (h : Hdr) (d : BitVec 6) (port : Port) (s : State) : Out :=
  issue h [] (fun s => writeReg d (BitVec.ofNat 64 (Config.portDepth - portIn s port)) 1 s) s

/-! ### rfi (R145, R224, R225, R428) -/

/-- An instruction that can stop at a chunk boundary, with the count of positions and of passes it has: a frame with
V = 1 resumes it (R222, R224). -/
def stoppable (s : State) (i : Instr) (f : Frame) : Option (Nat × Nat) :=
  let n (w : BitVec 5) : Nat := winCount (winOf s w)
  match i with
  | .vfill _ _ wd _ | .vrnd _ _ wd => some (n wd, 1)
  | .vop _ _ _ _ wa _ | .vfma _ _ _ _ _ wa _ | .vsc _ _ _ _ wa _ | .vun _ _ _ _ wa | .vcvt _ _ _ wa | .vscan _ _ _ _ wa
  | .vcmp _ _ _ _ wa _ | .vsel _ _ wa _ _ | .vdqt _ _ _ wa _ | .vmov _ _ wa => some (n wa, 1)
  | .vred _ _ _ wa _ | .vcpr _ _ wa _ _ | .vhad _ _ _ _ wa _ | .vqnt _ _ _ wa _ | .vtopk _ _ wa _ _ | .vsamp _ _ wa _ _ =>
    some (n wa, 1)
  | .vxpd _ wd _ _ _ => some (n wd, 1)
  | .vgat _ _ _ _ wb | .vsct _ _ _ _ wb | .vsca _ _ _ _ wb => some (n wb, 1)
  | .vsoft _ _ wa => some (n wa, 3)
  | .vbit _ _ _ _ _ wa _ _ => some (n wa, 1)
  | .hgen _ wa _ => some (n wa / 1024, 1)
  | .hchk _ _ (.win w) _ => some (n w / 1024, 1)
  | .hchk _ _ (.fur _) _ => some ((f.words.getD 1 0).toNat, 1)
  | .hupd _ wd _ => some ((updTiles s ((winPhys s (winOf s wd)).elim ⟨0, winOf s wd, 0⟩ (fun d => ⟨0, winOf s wd, d⟩))).length + 1, 1)
  | _ => none

/-- The word that C would issue at an address. -/
def wordAtC (s : State) (pc : Pc) : Option Instr :=
  match decode .c (s.kind == .service) (fetchWord s.task.c.imem pc) with
  | .ok i => some i
  | .error _ => none

/-- R224's checks of a frame: its must-be-zero bits, and with V = 1 its instruction, NEXT and PHASE. -/
def progressOk (s : State) (f : Frame) (pc : Pc) : Bool :=
  f.prog.extractLsb' 20 11 == 0 &&
  (!f.prog.getLsbD 31 ||
    (match (wordAtC s pc).bind (fun i => stoppable s i f) with
      | none => false
      | some (n, phases) => decide ((f.prog.extractLsb' 0 16).toNat ≤ n) && decide ((f.prog.extractLsb' 16 4).toNat < phases)))

/-- The fault of C's records and progress, with the records that count (R144, R145, R224). -/
def frameFault (s : State) (f : Frame) (pc : Pc) : Option TrapInfo :=
  if 8 < f.count || (f.recs.take f.count).any (fun r => !recOk r) || !progressOk s f pc then some (trapOf .reservedField)
  else (queueOverrun s (f.recs.take f.count)).map (fun q => ⟨.queueOvf, q * 0x10000, 0⟩)

def pcOfWord (w : Word) : Pc := w.setWidth 17 &&& ~~~(7 : BitVec 17)

/-- Restore predicates, status and pc, clear TRP; what the interrupted word had already done is known again. The predicates
take the values of the frame as those of a word that writes them, which a later repair gives again (R121). -/
def restoreCtx (f : Frame) (pc : Pc) (status : Bool) (c : Ctx) : Ctx :=
  { rememberAll ((List.range 15).map (fun i => (65 + i, if f.preds.getLsbD (i + 1) then 1 else 0))) 1 c with
    preds := f.preds ||| 1
    trp := false
    ie := if status then f.status.getLsbD 0 else c.ie
    nrp := if status then f.status.getLsbD 4 else c.nrp
    pc := pc
    inFlight := false
    popped := if c.keptPop == some pc then c.keptPop else none
    asked := if c.keptPop == some pc then c.keptAsk else none }

/-- An access of the stream itself that writes its frame is not performed yet: one stream's accesses to a byte come in program
order (R370). -/
def frameBusy (s : State) (x : Issuer) (a : Nat) : Bool :=
  if isK x then ownStoresPending s
  else s.task.accesses.any (fun p => p.isLoad == (x == .l) && (match p.kind with
    | .load .. => false
    | k => (spadRuns s k).any (fun g => overlaps g.pa g.len a 256)))

/-- `rfi`. Where the frame lies at offsets that the context may not name, it is PROT with the frame's offset:
DESIGN CHOICE (log 67). -/
def execRfi (h : Hdr) (s : State) : Out :=
  issue h [] (fun s =>
    let x := issuerOf s
    let c := cur s
    if !c.trp then .trap (trapOf .priv)
    else if !landed s x then .wait s
    else match framePhys s x with
      | none => .trap (trapAt .prot (BitVec.ofNat 64 (frameAt s x)))
      | some a =>
        if frameBusy s x a then .wait s
        else
        let f := readFrame s a
        if isK x then
          let pc := pcOfWord c.epc
          let nrp := x == .kTask && f.status.getLsbD 4 != c.nrp
          let s1 := if nrp then enqueue (.wsr (some (f.status.getLsbD 4)) none) 0 0 s else s
          let s2 := modCtx x (fun k => { restoreCtx f pc true k with nrp := x == .kTask && f.status.getLsbD 4 }) (issued x pc s1)
          .jumped s2
        else
          let pc := pcOfWord f.pc
          match (if x == .c then frameFault s f pc else none) with
          | some t => .trap t
          | none =>
            let s1 := modCtx x (restoreCtx f pc false) (issued x pc s)
            if x == .c then
              .jumped { reinject (f.recs.take f.count) s1 with task.vprog := frameProgress f pc s.now }
            else .jumped s1) s

/-! ### sys (R40, R147, R159) -/

/-- The pushes of the `sys.call` before an address are made now (R40). -/
def callPushes (pc : Pc) (s : State) : State :=
  let w := fetchWord s.task.k.imem (pc - 8)
  let l := (if w.getLsbD 51 then [(spFifo .k, 1)] else []) ++ (if w.getLsbD 50 then [(snFifo .k, 1)] else [])
  l.foldl (fun s p => { s with task.pushes := s.task.pushes ++ [⟨p.1, p.2, s.now⟩] }) s

/-- C goes on with the records of its frame, or, where no frame was written, with those it has kept (R147). -/
def resumeC (s : State) : State :=
  let pc := s.task.c.pc
  if s.task.kept then
    { s with
      task.latches := s.task.latches ++ s.task.frozen.map (fun l => { l with land := s.now + l.land })
      task.frozen := []
      task.kept := false
      task.vprog := s.task.vprog.map (fun p => { p with start := s.now }) }
  else match framePhys s .c with
    | none => takeTrap .c (trapAt .prot (BitVec.ofNat 64 (frameAt s .c))) pc s
    | some a =>
      let f := readFrame s a
      match frameFault s f pc with
      | some t => takeTrap .c t pc s
      | none => { reinject (f.recs.take f.count) s with task.vprog := frameProgress f pc s.now }

/-- A stream halted on an F event goes on (R147). -/
def resumeStream (x : Issuer) (s : State) : State :=
  match (ctxOf s x).run with
  | .halted w _ _ =>
    let s1 := modCtx x (fun c => { c with run := .running, lastIssue := s.now, fresh := false, blocked := false }) s
    if w.getLsbD 15 then s1
    else match x with
      | .c => resumeC s1
      | .kTask => if w.toNat % 256 = causeCode .sysCall then callPushes s1.task.k.pc s1 else s1
      | _ => s1
  | _ => s

def streamIssuer (n : BitVec 2) : Issuer :=
  if n = 0 then .kTask else if n = 1 then .l else if n = 2 then .c else .s

def execSysResume (h : Hdr) (st : BitVec 2) (s : State) : Out :=
  issue h [] (fun s => if !isFirm s then .trap (trapOf .priv) else .done (resumeStream (streamIssuer st) s) 0) s

/-- No stream of the task issues again. -/
def stopStreams (s : State) : State := [Issuer.kTask, .l, .c, .s].foldl (fun s x => endStream x s) s

/-- Held commands of the task are dropped: of the copy engine, of the fabric interface, of the MCE (R159). -/
def dropHeld (s : State) : State :=
  let s1 := if (cpOf s).held.isSome && (cpOf s).queue.head?.any (fun c => !c.firm) then
      modCp (fun m => { m with queue := m.queue.drop 1, held := none }) s else s
  let s2 := modFx (fun m => { m with cmds := m.cmds.filter (fun c => c.held.isNone || c.firm) }) s1
  if (mcOf s2).failed.isSome && (mcOf s2).queue.head?.any (fun c => !c.firm) then
    modMc (fun m => { m with queue := m.queue.drop 1, failed := none, cont := false }) s2
  else s2

/-- Once a task is killed, a command of it that fails later is dropped as well (R147, R159). -/
def dropLater (s : State) : State := if s.task.failed.isSome && allEnded s then dropHeld s else s

/-- End the task (R147): committed work goes on, and the reason is recorded. -/
def killTask (reason : BitVec 20) (s : State) : State :=
  let s1 := dropHeld (stopStreams s)
  { s1 with task.failed := some reason, fEvents := [] }

def execSysKill (h : Hdr) (imm : BitVec 20) (s : State) : Out :=
  issue h [] (fun s =>
    if !isFirm s then .trap (trapOf .priv)
    else .done (if s.task.alive then logLaunch .taskFailed [s.task.ctx, s.task.lid.toNat, imm.toNat] (killTask imm s) else s) 0) s

/-! ### Interrupts and BUDGET (R139, R148, R250, R430) -/

/-- An interrupt becomes pending for a stream; for one that has finished it is discarded. It ends a `wfe`, unless it was
pending already (R139, R148). -/
def setPending (f : Ctx → Ctx) (was : Ctx → Bool) (x : Issuer) (s : State) : State :=
  modCtx x (fun c => if c.run == .ended || c.run == .absent || was c then c else fireWfe (f c)) s

def taskStreams : List Issuer := [.kTask, .l, .c, .s]

/-- The timer has expired in an earlier cycle: a word that issues in the cycle of the expiry still issues (R148). -/
def timerDue (s : State) : Bool := s.task.alive && s.task.timer.any (fun t => decide (t.next < s.now))

/-- TIMER_EXPIRY: TIMER is pending for the selected streams; the timer runs on. -/
def execTimerExpiry (s : State) : Out :=
  match s.task.timer with
  | none => .next s
  | some t =>
    if !timerDue s then .next s
    else
      let xs := (taskStreams.zip [0, 1, 2, 3]).filter (fun p => t.sel.getLsbD p.2)
      .next (xs.foldl (fun s p => setPending (fun c => { c with pendTimer := true }) (·.pendTimer) p.1 s)
        { s with task.timer := some { t with next := t.next + t.interval } })

/-- BUDGET_EXPIRY: sr.budget steps from 1 to 0, and BUDGET is pending on all four streams. -/
def execBudgetExpiry (s : State) : Out :=
  if s.task.alive && s.task.budget == 1 then
    .next (taskStreams.foldl (fun s x => setPending (fun c => { c with pendBudget := true }) (·.pendBudget) x s) { s with task.budget := 0 })
  else .next s

def wfeDue (s : State) (x : Issuer) : Bool :=
  match (ctxOf s x).wfe with
  | some w => !w.fired && w.limit.any (fun t => decide (t ≤ s.now))
  | none => false

/-- WFE_TIMEOUT: a wait's time has passed. -/
def execWfeTimeout (x : Issuer) (s : State) : Out := if wfeDue s x then .next (modCtx x fireWfe s) else .next s

/-- ATTN: an event arrives at port ev. -/
def execAttn (v : BitVec 64) (s : State) : Out := .next (attention v s)

/-- The stream stands where an interrupt can be taken: not in a `wfe`, not in a wait for a reply that R104 does not count
(R340), not on a service core that a debugger has stopped, not at a chunk that runs, with no issued instruction that can still fault (R148, R206, R222). -/
def atBoundary (s : State) (x : Issuer) : Bool :=
  let c := ctxOf s x
  c.wfe.isNone && !c.stopped && (x != .kFirm || s.svcStop.isNone) && decide (c.notBefore ≤ s.now) && !unconfirmed s x && (x == .c || !c.inFlight || c.blocked) &&
    (x != .c || ((progOf s).all (fun p => !c.inFlight || decide (p.start + 8 ≤ s.now)) &&
      s.task.latches.all (fun l => decide (l.land ≤ s.task.c.lastIssue + 8))))

def takesInterrupt (s : State) (x : Issuer) : Bool := (pendingCause s x).isSome && atBoundary s x

def clearPending (k : Cause) (c : Ctx) : Ctx :=
  match k with
  | .budget => { c with pendBudget := false }
  | .timer => { c with pendTimer := false }
  | _ => { c with pendAttn := false }

/-- TAKE_INTERRUPT: the stream takes a pending interrupt or BUDGET, as a trap at its first unissued word. -/
def execTakeInterrupt (x : Issuer) (s : State) : Out :=
  match pendingCause s x with
  | none => .next s
  | some k =>
    if atBoundary s x then .next (takeTrap x (trapOf k) (ctxOf s x).pc (modCtx x (clearPending k) s)) else .next s

/-! ### Events for firmware (R141, R149) -/

/-- The firmware context can take an event: one of an earlier cycle, so that the events of a cycle are in order, and none in a
wait for a reply that R104 does not count (R340). -/
def firmwareTakes (s : State) : Bool :=
  s.fEvents.head?.any (fun e => decide (e.time < s.now)) && s.firm.run == .running && !s.firm.trp && !unconfirmed s .kFirm &&
    (!s.firm.inFlight || s.firm.blocked) && s.svcStop.isNone

/-- The cause word of an event in firmware's frame: code and class, the stream, and whether its frame was written. -/
def eventCause (e : FEvent) : Word :=
  e.cause ||| BitVec.ofNat 64 (streamCode e.stream * 0x10000 + (if e.written then 0 else 0x40000))

/-- F_EVENT_TAKE: firmware traps to its handler for the oldest event. With no handler, or a frame that cannot be written, the
core is held, as R141 says of a cause raised in firmware: DEDUCED (log 62). -/
def execFEventTake (s : State) : Out :=
  match s.fEvents with
  | [] => .next s
  | e :: rest =>
    if !firmwareTakes s then .next s
    else
      let s1 := { s with fEvents := rest }
      match handlerOf s.firm, framePhys s .kFirm with
      | some target, some _ =>
        .next (enterHandler .kFirm (eventCause e) s.firm.pc target (saveFrame .kFirm (eventCause e) s.firm.pc e.operand s1))
      | _, _ => .next (holdCore s1)

/-! ### Barriers, Sluices, hung groups -/

/-- BARRIER_PHASE_COMPLETE: every other task of the group has arrived at the next phase as well (R129). -/
def execBarrierPhaseComplete (b : BitVec 2) (s : State) : Out :=
  let v := barOf s b
  if s.task.alive && decide (v.complete < v.arrive) then .next (setBar b { v with complete := v.complete + 1 } s) else .next s

/-- A unit of egress that its Sluices let pass now. -/
def sluiceReady (s : State) (u : EgressUser) : Option Egress :=
  s.egress.find? (fun g => g.user == u && !g.passed && (s.enclosures.filter (boundTo g.ctx)).all (fun e => sluiceLets e g.size))

/-- SLUICE_PASS: the unit passes, and every enclosure that binds its context counts its bytes (R439). -/
def execSluicePass (u : EgressUser) (s : State) : Out :=
  match sluiceReady s u with
  | none => .next s
  | some g =>
    .next { s with
      enclosures := s.enclosures.map (fun e =>
        if boundTo g.ctx e then { e with allowance := e.allowance - (g.size * msUnits : Nat) } else e)
      egress := s.egress.map (fun q => if q == g then { g with passed := true } else q) }

/-- K waits in a `tsat.wait` that has its tokens, which counts as `wfe` does (R358). -/
def atTimedWait (s : State) (x : Issuer) : Bool :=
  x == .kTask && s.task.k.inFlight && (match decode x (s.kind == .service) (fetchWord s.task.k.imem s.task.k.pc) with
    | .ok (.tsatWait _ _) => true
    | _ => false)

/-- A stream waits before its Sluices (R184, R439), which is no wait of R161. -/
def atSluice (s : State) (x : Issuer) : Bool :=
  (x == .s || x == .kTask) && egressWaits s (if x == .s then .sStore else .kAction) s.task.ctx

/-- A stream that cannot go on: finished, or blocked in a wait for a token, a queue, a port, a mark or a barrier (R161). -/
def stuck (s : State) (x : Issuer) : Bool :=
  let c := ctxOf s x
  isEnded c || (c.run == .running && c.blocked && c.wfe.isNone && !c.stopped && !atSluice s x && !atTimedWait s x)

/-- No stream of the task goes on, nothing it has issued is outstanding, and no interrupt is pending. -/
def quiet (s : State) : Bool :=
  s.task.alive && !allEnded s && !outstanding s && taskStreams.all (fun x => stuck s x &&
    !(ctxOf s x).pendTimer && !(ctxOf s x).pendBudget && !(ctxOf s x).pendAttn)

def hungCycles : Nat := 2 ^ 24

def hungDue (s : State) : Bool := quiet s && !s.hungSeen && decide (s.quietFrom + hungCycles ≤ s.now)

/-- HUNG_DETECT: the group is recorded as hung, and an attention event goes to the owner (R161). -/
def execHungDetect (s : State) : Out :=
  if !hungDue s then .next s
  else
    let states := taskStreams.map (fun x => if isEnded (ctxOf s x) then 0 else 1)
    .next (notify (schedSource s.die.toNat 0) (.hung s.task.lid states)
      (logLaunch .hung (s.task.lid.toNat :: states) { s with hungSeen := true }))

/-! ### Pre-emption (R27, R28, R152 to R156) -/

/-- The cores that a task's group holds. -/
def holdsCores (s : State) (t : Task) : List Nat := if t.partition.isEmpty then [s.die.toNat * 64 + s.core.toNat] else t.partition

/-- The cores that the task's group holds. -/
def groupCores (s : State) : List Nat := holdsCores s s.task

/-- Cores 0 to 7 of a die are foreshore cores (R26). -/
def foreshore (n : Nat) : Bool := decide (n % 64 < 8)

/-- A core of a launch that a pre-emption has taken from it. -/
def swappedOut (s : State) (l : Launch) (n : Nat) : Bool :=
  s.saves.any (fun g => g.task.lid == l.pkt.lid && (holdsCores s g.task).contains n)

/-- Without the task's group, a die's bulk work still holds the least number of other cores that the die keeps for it, those of
groups that are swapped out not counted; a group that holds only foreshore cores takes none of them away (R28). -/
def bulkStays (s : State) (die : Fin 2) : Bool :=
  let here (n : Nat) : Bool := n / 64 == die.val && !foreshore n
  !(groupCores s).any here ||
    decide (s.bulkMin[die] ≤ ((s.launches.filter (fun l => l.pkt.lid != s.task.lid && l.pkt.cls == 1)).flatMap
      (fun l => l.cores.filter (fun n => here n && !swappedOut s l n))).length)

/-- PREEMPT_DEMAND: latency work needs a foreshore core of a bulk group; a full save area makes the demand wait, and the
least number of cores for bulk work is kept (R27, R28, R156). -/
def execPreemptDemand (s : State) : Out :=
  if s.task.alive && s.task.bulk && !s.preempt && (groupCores s).any foreshore && bulkStays s 0 && bulkStays s 1 &&
      decide (s.saves.length < 512) then .next { s with preempt := true }
  else .next s

/-- The exposed pipeline of a stream is empty. -/
def pipeEmpty (s : State) (x : Issuer) : Bool :=
  landed s x && !unconfirmed s x && (x != .c || s.task.frozen.isEmpty)

/-- A vector instruction stands at a chunk boundary where it may stop (R222). -/
def chunkStop (s : State) (x : Issuer) : Bool :=
  x == .c && (progOf s).any (fun p => !s.task.c.inFlight || decide (p.start + 8 ≤ s.now))

/-- A stream is at a safe point; C halted with latch records in its frame, or held in C, is not (R147, R152, R211, R222). -/
def atSafePoint (s : State) (x : Issuer) : Bool :=
  let c := ctxOf s x
  match c.run with
  | .ended | .absent => true
  | .halted _ _ _ => pipeEmpty s x && (x != .c || !s.task.framed)
  | .running => c.stopped || ((c.blocked || chunkStop s x) && pipeEmpty s x)
  | .held => false

/-- Every stream has stopped, what L and S have issued is performed, and no reply is due that a bracket waits for (R153, R185,
R340). -/
def streamsStopped (s : State) : Bool :=
  taskStreams.all (atSafePoint s) && s.task.accesses.isEmpty && !s.checkq.any (fun c => !c.firm) &&
    !s.tithe.any (fun r => !r.firm && (match r.op with
      | .openB .. | .settle .. => true
      | _ => false))

def savePointDue (s : State) : Bool := preempting s && s.saveFrom.isNone && streamsStopped s && mceAtSave s

/-- ENGINE_SAVE_POINT: the engines stand at their save points; the matrix engine's is a marker (R155, R280). -/
def execEngineSavePoint (s : State) : Out :=
  if !savePointDue s then .next s else .next { marker 0 [] s with saveFrom := some s.now }

/-- The save of a partition takes 4 µs (R156). -/
def saveCycles : Nat := 8000

def saveDue (s : State) : Bool := preempting s && s.saveFrom.any (fun t => decide (t + saveCycles ≤ s.now)) && streamsStopped s

/-- While a pre-emption is pending, a stream that has reached a safe point stays there, unless an interrupt comes first or
`first` says that a fault does (R151, R153); where firmware sets one going again, the save begins anew. -/
def stopAtSafe (first : Issuer → Bool) (s : State) : State :=
  if !preempting s then s
  else
    let s1 := taskStreams.foldl (fun s x => modCtx x (fun c =>
      if c.run == .running && atSafePoint s x && (pendingCause s x).isNone && !first x then { c with stopped := true } else c) s) s
    { s1 with saveFrom := if streamsStopped s1 then s1.saveFrom else none }

/-- Shadow storage holds the latest 32 images (R156). -/
def keepShadow (l : List SaveImage) : List SaveImage :=
  if (l.filter (·.shadow)).length ≤ 32 then l
  else match l.findIdx? (·.shadow) with
    | some i => l.modify i (fun g => { g with shadow := false })
    | none => l

/-- A reply to a word of the task's K. -/
def taskReply (s : State) (r : Reply) : Bool := s.task.k.asked == some r.id || s.task.k.keptAsk == some r.id

/-- The layout of save images that the running firmware writes. -/
def nativeLayout (s : State) : Nat := (s.firmware.map (·.layout)).getD 0

/-- PARTITION_SAVE: the task's image enters the save area, and the core is free (R153, R154, R156). -/
def execPartitionSave (s : State) : Out :=
  if !saveDue s then .next s
  else
    let img : SaveImage :=
      ⟨nativeLayout s, .preempt, s.task, s.fEvents, s.replies.filter (taskReply s), s.side, s.corrected, s.holds, s.now, true⟩
    .next (notify (schedSource s.die.toNat 0) (.preempted s.task.lid) { s with
      saves := keepShadow (s.saves ++ [img])
      fEvents := []
      replies := s.replies.filter (fun r => !taskReply s r)
      task := { Task.reset with nextId := s.task.nextId }
      side := []
      corrected := []
      preempt := false
      saveFrom := none })

/-- A stream goes on from where it stopped; its times count from the restore. -/
def restoreStream (now d : Nat) (c : Ctx) : Ctx :=
  { c with
    lastIssue := now
    fresh := true
    stopped := false
    inFlight := false
    notBefore := now
    busy := []
    wfe := c.wfe.map (fun w => { w with start := w.start + d, limit := w.limit.map (· + d) }) }

/-- Time that a task spends swapped out does not count for its timer and its waits. -/
def restoreTask (now d next : Nat) (t : Task) : Task :=
  { t with
    k := restoreStream now d t.k
    l := restoreStream now d t.l
    c := restoreStream now d t.c
    s := restoreStream now d t.s
    timer := t.timer.map (fun x => { x with next := x.next + d })
    vprog := t.vprog.map (fun p => if p.restart then { p with start := now, next := 0, phase := 0 } else { p with start := now })
    nextId := Nat.max next t.nextId
    mx := { t.mx with shadow := t.mx.acc } }

/-- How long a restore takes: 4 µs from shadow storage, 5 µs from the save area (R156). -/
def restoreCycles (g : SaveImage) : Nat := if g.shadow then 8000 else 10000

/-- PARTITION_RESTORE: the oldest image returns to a core that holds no task; its streams go on when it has been read back,
and firmware has the events of the halted ones again (R153, R154, R156, R280). An image in an older layout has been converted before
(R422). -/
def execPartitionRestore (s : State) : Out :=
  match s.saves with
  | [] => .next s
  | img :: rest =>
    if s.task.alive || s.quarantined then .next s
    else match s.restoring with
    | none => .next { s with saves := { img with layout := nativeLayout s } :: rest, restoring := some (s.now + restoreCycles img) }
    | some t =>
      if s.now < t then .next s
      else .next { s with
        saves := rest
        restoring := none
        fEvents := img.events.foldl (fun l e => insertEvent e l) s.fEvents
        replies := s.replies ++ img.replies
        corrected := img.corrected
        task := restoreTask s.now (s.now - img.saved) s.task.nextId img.task
        side := img.side
        holds := img.holds
        quietFrom := s.now
        hungSeen := false }

/-! ### Soft errors (R81, R120, R164, R176, R210, R264, R282, R310, R404) -/

def strikeReg (n : Nat) (flip : BitVec 64) (lasting : Bool) (c : Ctx) : Ctx :=
  let c1 := { c with bad := c.bad.filter (fun (p : Nat × Bool) => p.1 != n) ++ [(n, lasting)] }
  if h : n < 64 then { c1 with regs := c.regs.set n (c.regs[n] ^^^ flip) }
  else if n < 80 then { c1 with preds := (c.preds ^^^ ((flip.setWidth 16 &&& 1) <<< (n - 64))) ||| 1 }
  else if h : n - 80 < 8 then { c1 with lc := c.lc.set (n - 80) (c.lc[n - 80] ^^^ flip.setWidth 32) }
  else c

/-- SOFT_ERROR: stored bits are corrupted. -/
def execSoftError (t : ErrorTarget) (s : State) : Out :=
  match t with
  | .register x n flip last =>
    .next (if n = 0 || n = 64 || 88 ≤ n then s else modCtx x (strikeReg n flip last) s)
  | .element n flip last =>
    if h : n < 768 then
      .next { s with
        task.e := s.task.e.set n (s.task.e[n] ^^^ flip)
        task.c.bad := s.task.c.bad.filter (fun (p : Nat × Bool) => p.1 != 128 + n) ++ [(128 + n, last)] }
    else .next s
  | .window n flip last =>
    .next { s with
      task.w := s.task.w.set n.toNat (s.task.w[n.toNat] ^^^ flip)
      task.c.bad := s.task.c.bad.filter (fun (p : Nat × Bool) => p.1 != wId n) ++ [(wId n, last)] }
  | .queue q slot =>
    let i := qnameIdx q
    .next (setQ i ((qOf s i).mapIdx (fun k e => if k == slot && e.val.isSome then { e with poison := e.poison.orElse (fun _ => some 0) } else e)) s)
  | .scratchpad off flip =>
    .next (if off < spadSize s then { s with spad := memSet s.spad off (memGet s.spad off ^^^ flip) } else s)
  | .scratchpadLost off last =>
    .next (if off < spadSize s then
      { spadPoison off 1 s with spadWorn := if last then s.spadWorn ++ [off] else s.spadWorn } else s)
  | .memoryLost pa last =>
    .next (if pa < 2 ^ 52 then
      { s with memBad := setBad s.memBad pa 1, memWorn := if last then s.memWorn ++ [pa] else s.memWorn } else s)
  | .accumulator a i flip =>
    .next (modMx (fun m => setAcc a { accAt m a with vals := (accAt m a).vals.mapIdx (fun k v => if k == i then v ^^^ flip else v) } m) s)
  | .accumulatorLost a last =>
    .next (if a < 16 then
      { modMx (fun m => setAcc a { accAt m a with lost := true } m) s with
        accWorn := if last then s.accWorn ++ [a] else s.accWorn } else s)
  | .record base => .next { s with side := s.side.map (fun r => if r.base == base then { r with damaged := true } else r) }
  | .mapSlot slot last =>
    .next (modMc (fun m => { m with slots := m.slots.map (fun (p : Nat × McMap) => if p.1 == slot then (p.1, { p.2 with err := some last }) else p) }) s)
  | .latch i last =>
    .next { s with task.latches := s.task.latches.mapIdx (fun k l => if k == i then { l with corrupt := some last } else l) }
  | .schedWord core copy addr =>
    .next (if core < 4 && copy < 2 && !s.imemBad.contains (core, copy, addr) then { s with imemBad := s.imemBad ++ [(core, copy, addr)] } else s)
  | .journal die =>
    .next (if die < 2 && !s.journalBad.contains die then { s with journalBad := s.journalBad ++ [die] } else s)
  | .queueTable core => .next (if core < 4 && !s.tableBad.contains core then { s with tableBad := s.tableBad ++ [core] } else s)

end Sys2Proof.Machine
end

