-- ==== Sys2Proof/Machine/Launch.lean ====
section
/-! DEFINITION. The launch path (chapter 16, R397 to R405): host queues, packets, the placement of a task on this core,
wave gates, completion records, and the scheduler cores' errors. -/

namespace Sys2Proof.Machine

/-! ### Queues (R397, R398, R406) -/

/-- The device serves requests: it has power and has booted. -/
def serving (s : State) : Bool := s.power && s.booted

def isOwner (s : State) (m : BitVec 24) : Bool := s.claim.owner == some m

def queueIdx (die q : Nat) : Fin 128 := Fin.ofNat 128 (die * 64 + q)
def queueOf (s : State) (die q : Nat) : HostQueue := s.hostq[queueIdx die q]
def setQueue (die q : Nat) (v : HostQueue) (s : State) : State := { s with hostq := s.hostq.set (queueIdx die q) v }

def queueOn (v : HostQueue) : Bool := v.cfg.getLsbD 0
def queueBulk (v : HostQueue) : Bool := v.cfg.getLsbD 1
def queueCtx (v : HostQueue) : Nat := (v.cfg.extractLsb' 16 16).toNat

/-- Packets that the private buffer holds, and its size (R398). -/
def bufferPackets : Nat := 204
def packetBytes : Nat := 320

/-- The ring entries that a tail write newly covers. -/
def ringNew (v : HostQueue) (t : Nat) : List Nat :=
  (List.range ((t + v.size - v.head) % v.size)).map (fun i => (v.head + i) % v.size)

/-- The owner's writes renew its lease (R409). -/
def touchOwner (s : State) : State := { s with claim := { s.claim with last := s.timeBase } }

/-- A ring size that the register keeps: a power of two from 1 to 4,096. -/
def ringSize (v : Nat) : Nat := if (List.range 13).any (fun k => v == 2 ^ k) then v else 0

/-- A register of a queue is written (R7, R8, R397). A QBASE that is no multiple of 4 KiB is kept rounded down: DESIGN CHOICE
(log 71). -/
def writeQueueReg (die q reg : Nat) (v : BitVec 64) (s : State) : State :=
  let w := queueOf s die q
  match reg with
  | 0x00 => setQueue die q { w with base := v &&& ~~~(0xFFF : BitVec 64) } s
  | 0x08 => setQueue die q { w with size := ringSize v.toNat } s
  | 0x20 => setQueue die q { w with cfg := v &&& 0xFFFFFF0003 } s
  | 0x28 => setQueue die q { w with ovf := w.ovf && !v.getLsbD 0 } s
  | _ => s

/-- An offset in BAR0 of 8 bytes of the mailbox (R435). -/
def inMailbox (off : Nat) : Bool := decide (0x200000 ≤ off) && decide (off + 8 ≤ 0x201000)

/-- REGISTER_WRITE: the owner writes a register without behaviour of its own; any other write is dropped (R406, R407). The
mailbox is memory, which any host writes (R435). Where the registers of R28 and of a device reset lie is a free value: DESIGN
CHOICE (logs 15, 70). -/
def execRegisterWrite (master : BitVec 24) (off : Nat) (v : BitVec 64) (s : State) : Out :=
  if serving s && inMailbox off then .next (memPut [⟨Config.mailboxPa + (off - 0x200000), 8⟩] (leBytes 8 v.toNat) s)
  else if !serving s || !isOwner s master then .next s
  else
    let s1 := touchOwner s
    if 0x100000 ≤ off && off < 0x102000 then
      .next (writeQueueReg ((off - 0x100000) / 0x1000) ((off - 0x100000) % 0x1000 / 0x40) (off % 0x40) v s1)
    else if off == 0x0FF010 then
      .next { s1 with claim := { s1.claim with p := v.getLsbD 24, succ := v.setWidth 24 } }
    else if off == 0x0FF018 then .next { s1 with claim := { s1.claim with lease := v.setWidth 16 } }
    else if off == Config.bulkMinReg 0 then .next { s1 with bulkMin := s1.bulkMin.set 0 v.toNat }
    else if off == Config.bulkMinReg 1 then .next { s1 with bulkMin := s1.bulkMin.set 1 v.toNat }
    else if off == Config.resetReg then .next { s1 with resetBy := some master, agenda := .deviceReset :: s1.agenda }
    else .next s1

/-- What a read of a queue's register gives (R7, R8, R397). -/
def readQueueReg (v : HostQueue) : Nat → BitVec 64
  | 0x00 => v.base
  | 0x08 => BitVec.ofNat 64 v.size
  | 0x10 => BitVec.ofNat 64 v.tail
  | 0x18 => BitVec.ofNat 64 v.head
  | 0x20 => v.cfg
  | 0x28 => BitVec.ofNat 64 (v.rej * 2 ^ 32 + v.buf.length * 2 ^ 16 + v.ovf.toNat)
  | _ => 0

/-- What a read of BAR0 by any master gives, which changes nothing (R397, R406, R407, R435): queue registers, the claim
registers, of which CLAIM, BEAT and RELEASE read as zero, and the mailbox. -/
def readRegister (s : State) (off : Nat) : BitVec 64 :=
  if 0x100000 ≤ off && off < 0x102000 then
    readQueueReg (queueOf s ((off - 0x100000) / 0x1000) ((off - 0x100000) % 0x1000 / 0x40)) (off % 0x40)
  else if inMailbox off then
    BitVec.ofNat 64 (memWord s.mem (Config.mailboxPa + (off - 0x200000)) 8)
  else match off with
    | 0x0FF000 => s.claim.nonce ++ BitVec.ofNat 8 s.claim.v.toNat ++ s.claim.id
    | 0x0FF010 => BitVec.ofNat 64 (s.claim.p.toNat * 2 ^ 24 + s.claim.succ.toNat)
    | 0x0FF018 => s.claim.lease.setWidth 64
    | _ => 0

/-! ### Packets (R24, R399, R400) -/

def parseLevel (b : List Byte) (i : Nat) : LoopLevel where
  count := BitVec.ofNat 32 (fieldAt b (0x30 + 16 * i) 4)
  kind := fieldAt b (0x34 + 16 * i) 4
  base := BitVec.ofNat 32 (fieldAt b (0x38 + 16 * i) 4)
  step := BitVec.ofNat 32 (fieldAt b (0x3C + 16 * i) 4)

/-- A packet's fields; a set zero field clears `zeroOk`, of a management packet one before its body (log 38). -/
def parsePacket (b : List Byte) : Packet :=
  let flags := BitVec.ofNat 8 (fieldAt b 3 1)
  let gated := flags.getLsbD 3
  { kind := fieldAt b 0 2, cls := fieldAt b 2 1, flags := flags, ctx := fieldAt b 4 4, image := fieldAt b 8 4
    zeroOk := fieldAt b 0x0C 4 == 0 && flags.extractLsb' 4 4 == 0 && (flags.getLsbD 0 || fieldAt b 0x18 8 == 0) &&
      (fieldAt b 0 2 != 1 || ((gated || (fieldAt b 0x20 2 == 0 && fieldAt b 0x24 4 == 0)) && fieldAt b 0x22 2 == 0 &&
        (b.drop 0x118).all (· == 0)))
    lid := BitVec.ofNat 64 (fieldAt b 0x10 8), start := fieldAt b 0x18 8, model := fieldAt b 0x20 1
    layer := fieldAt b 0x21 1, pass := fieldAt b 0x24 4, cpl := BitVec.ofNat 64 (fieldAt b 0x28 8)
    loops := (List.range 6).map (parseLevel b), argp := BitVec.ofNat 64 (fieldAt b 0x90 8)
    args := (List.range 16).map (fun i => BitVec.ofNat 64 (fieldAt b (0x98 + 8 * i) 8)) }

/-- The product of the counts of a kind of level. -/
def levelProduct (kind : Nat) (l : List LoopLevel) : Nat :=
  ((l.filter (fun v => v.kind == kind)).map (·.count.toNat)).foldl (· * ·) 1

/-- The limits of R23 on a loop table; one without any used level keeps them: DESIGN CHOICE (log 72). -/
def loopLimits (bulk : Bool) (l : List LoopLevel) : Bool :=
  (l.dropWhile (fun v => v.kind != 0)).all (fun v => v.kind == 0) &&
    (l.filter (fun v => v.kind == 3)).length ≤ 1 &&
    l.all (fun v => v.kind != 3 || v.count == 1 || v.count == 2) && l.all (fun v => v.kind != 1 || v.count != 0) &&
    1 ≤ levelProduct 2 l && levelProduct 2 l ≤ (if bulk then 48 else 8)

/-- The limits of R23, with the kinds that R24 knows. -/
def loopOk (bulk : Bool) (l : List LoopLevel) : Bool := l.all (fun v => decide (v.kind < 4)) && loopLimits bulk l

def imageOf (s : State) (ctx handle : Nat) : Option Image :=
  ((s.contexts.find? (fun c => c.num == ctx)).bind (fun c => c.images.find? (fun i => i.handle == handle)))

def modelOf (s : State) (n : Nat) : Option Model := s.models.find? (fun m => m.num == n)

/-- The number of the first check of R400 that a packet fails. -/
def packetFault (s : State) (v : HostQueue) (management : Bool) (p : Packet) : Option Nat :=
  let bulk := queueBulk v
  if (if management then decide (p.kind < 2) || decide (15 < p.kind) else p.kind != 1) then some 1
  else if p.cls != (if bulk then 1 else 0) then some 2
  else if p.ctx != queueCtx v then some 3
  else if !p.zeroOk then some 4
  else if management then none
  else if !loopOk bulk p.loops then some 5
  else if (imageOf s p.ctx p.image).isNone then some 6
  else if p.flags.getLsbD 3 && (modelOf s p.model).all (fun m => decide (m.gens.length ≤ p.layer)) then some 7
  else none

/-! ### Completion records (R402) -/

def recordBytes (s : State) (lid : BitVec 64) (status reason failed gen : Nat) : List Byte :=
  leBytes 8 lid.toNat ++ leBytes 1 status ++ leBytes 1 reason ++ leBytes 2 failed ++ leBytes 4 gen ++ leBytes 8 (ticks s) ++
    List.replicate 8 0

/-- Write bytes at a virtual address of a context, which lie in one page; nothing where no page maps them. -/
def writeVa (ctx : Nat) (va : Word) (b : List Byte) (s : State) : State :=
  match s.pages.find? (pageHas ctx (vaNat va)) with
  | some e => memPut [⟨e.pbase + (vaNat va - e.vbase), b.length⟩] b s
  | none => s

def raiseMsix (flags : BitVec 8) (die q : Nat) (s : State) : State :=
  if flags.getLsbD 2 then notify (schedSource die (q / 32)) (.msix die q) s else s

/-- The unit writes a launch's record at CPL and raises its vector. -/
def reportLaunch (die q : Nat) (p : Packet) (status reason failed gen : Nat) (s : State) : State :=
  raiseMsix p.flags die q (writeVa p.ctx p.cpl (recordBytes s p.lid status reason failed gen) s)

/-- The record of a management command (log 16). -/
def endMgmt (m : Mgmt) (status reason : Nat) (s : State) : State :=
  raiseMsix m.flags 0 63 { s with mgmt := none, records := s.records ++ [recordBytes s m.lid status reason 0 0] }

/-! ### QTAIL_WRITE (R23, R398) -/

/-- A launch packet whose loop table breaks a limit of R23: the number of the first check of R400 that it fails. -/
def tailFault (s : State) (v : HostQueue) (management : Bool) (b : List Byte) : Option Nat :=
  let p := parsePacket b
  if management || p.kind != 1 || loopLimits (queueBulk v) p.loops then none else packetFault s v management p

/-- The unit rejects a packet of a queue: REJ counts it, and its record says why (R400). -/
def rejectPacket (die q : Nat) (p : Packet) (n : Nat) (s : State) : State :=
  let v := queueOf s die q
  reportLaunch die q p 3 n 0 0 (setQueue die q { v with rej := Nat.min 0xFFFFFFFF (v.rej + 1) } s)

/-- QTAIL_WRITE: the unit copies the new entries, or refuses the write and sets OVF. A packet that breaks a limit of R23 is
rejected here and never enters the private buffer, DEDUCED (log 54). -/
def execQtailWrite (master : BitVec 24) (die q : Nat) (t : BitVec 64) (s : State) : Out :=
  if !serving s || !isOwner s master || 2 ≤ die || 64 ≤ q then .next s
  else
    let v := queueOf s die q
    let s1 := touchOwner s
    let new := ringNew v t.toNat
    let management := die == 0 && q == 63
    if !queueOn v || v.size == 0 || (die == 1 && q == 63) || v.size ≤ t.toNat || bufferPackets < v.buf.length + new.length then
      .next (setQueue die q { v with ovf := true } s1)
    else
      let packets := new.map (fun i => memRead s.mem (v.base.toNat + packetBytes * i) packetBytes)
      let s2 := setQueue die q { v with
        tail := t.toNat, head := t.toNat, buf := v.buf ++ packets.filter (fun b => (tailFault s v management b).isNone) } s1
      .next (packets.foldl (fun s' b => match tailFault s v management b with
        | some n => rejectPacket die q (parsePacket b) n s'
        | none => s') s2)

/-! ### PACKET_CHECK (R400, R401) -/

/-- The scheduler core that serves a queue stands. -/
def schedulerUp (s : State) (die q : Nat) : Bool := !s.tableBad.contains (die * 2 + q / 32)

/-- A packet of the queue that waits for its START or at a gate holds the later ones. -/
def queueHeld (s : State) (die q : Nat) : Bool :=
  s.launches.any (fun l => l.die == die && l.q == q && (l.st == .timed || l.st == .gated)) || (die == 0 && q == 63 && s.mgmt.isSome)

/-- The queue has a packet to take. -/
def queueReady (s : State) (die q : Nat) : Bool :=
  !(queueOf s die q).buf.isEmpty && !queueHeld s die q && schedulerUp s die q

/-- The queues of a class of a die that have a packet to take. -/
def classReady (s : State) (die : Nat) (bulk : Bool) : List Nat :=
  (List.range 64).filter (fun r => queueReady s die r && queueBulk (queueOf s die r) == bulk)

/-- A queue's weight; 0 acts as 1 (R397). -/
def queueWeight (v : HostQueue) : Nat := Nat.max 1 (v.cfg.extractLsb' 32 8).toNat

def servedIdx (die : Nat) (bulk : Bool) : Fin 4 := Fin.ofNat 4 (2 * die + bulk.toNat)

/-- The queue that the weighted round robin of a class serves next (R26, R401): the one in turn while it is ready and has
had fewer packets than its weight, else the next one in the order of their numbers (log 36). -/
def nextServed (s : State) (die : Nat) (bulk : Bool) : Option Nat :=
  let p := s.served[servedIdx die bulk]
  let ready := classReady s die bulk
  if ready.contains p.1 && decide (p.2 < queueWeight (queueOf s die p.1)) then some p.1
  else match ready.find? (fun r => decide (p.1 < r)) with
    | some r => some r
    | none => ready.head?

/-- A queue has been served: one packet more of its turn, or the first one of a new turn. -/
def countServed (die q : Nat) (bulk : Bool) (s : State) : State :=
  let p := s.served[servedIdx die bulk]
  let same := p.1 == q && decide (p.2 < queueWeight (queueOf s die q))
  { s with served := s.served.set (servedIdx die bulk) (q, if same then p.2 + 1 else 1) }

/-- The unit serves a queue next: latency goes before bulk, and within the class the round robin has come to it. -/
def servesNext (s : State) (die q : Nat) : Bool :=
  let bulk := queueBulk (queueOf s die q)
  (!bulk || (classReady s die false).isEmpty) && nextServed s die bulk == some q

/-- The state in which a packet that has passed its checks stands. -/
def firstState (p : Packet) : LaunchState :=
  if p.flags.getLsbD 0 then .timed else if p.flags.getLsbD 3 then .gated else .ready

/-- PACKET_CHECK: the unit takes a queue's oldest packet and launches or rejects it. -/
def execPacketCheck (die q : Nat) (s : State) : Out :=
  if !serving s || 2 ≤ die || 64 ≤ q || !queueReady s die q || !servesNext s die q then .next s
  else
    let v := queueOf s die q
    let b := v.buf.headD []
    let p := parsePacket b
    let management := die == 0 && q == 63
    let s1 := setQueue die q { v with buf := v.buf.drop 1 } (countServed die q (queueBulk v) s)
    match packetFault s v management p with
    | some n =>
      if management then
        .next (endMgmt ⟨p.kind, p.lid, p.flags, []⟩ 3 n
          (setQueue die q { v with buf := v.buf.drop 1, rej := Nat.min 0xFFFFFFFF (v.rej + 1) } s1))
      else .next (rejectPacket die q p n s1)
    | none =>
      if management then
        let m : Mgmt := ⟨p.kind, p.lid, p.flags, b.drop 0x20⟩
        if 12 < p.kind then .next (endMgmt m 3 17 s1) else .next { s1 with mgmt := some m }
      else
        let s2 := journal die (.stands q p.lid (firstState p)) s1
        .next { s2 with launches := s2.launches ++ [⟨die, q, p, firstState p, 0, false, 0, false, []⟩] }

/-! ### Timed starts and wave gates (R30, R401, R420) -/

/-- Change the first launch that a test accepts. -/
def modFirst (f : Launch → Option Launch) : List Launch → List Launch
  | [] => []
  | l :: t =>
    match f l with
    | some m => m :: t
    | none => l :: modFirst f t

/-- A held launch whose time has come. -/
def startDue (s : State) (l : Launch) : Bool :=
  l.st == .timed && decide (l.pkt.start ≤ ptpNs s) && schedulerUp s l.die l.q

/-- A launch comes to stand in another state, once its journal has it (R403). -/
def standAt (l : Launch) (st : LaunchState) (gen : Nat) (s : State) : State :=
  let s1 := journal l.die (.stands l.q l.pkt.lid st) s
  { s1 with launches := modFirst (fun m => if m == l then some { l with st := st, gen := gen } else none) s1.launches }

/-- TIMED_START: a held launch starts. -/
def execTimedStart (s : State) : Out :=
  match s.launches.find? (startDue s) with
  | none => .next s
  | some l => .next (standAt l (if l.pkt.flags.getLsbD 3 then .gated else .ready) l.gen s)

def passOf (s : State) (p : Packet) : Option Pass := s.passes.find? (fun q => q.model == p.model && q.pass == p.pass)

/-- The generation of a gated launch's pass, once it is pinned (R402, R418). -/
def passGen (s : State) (p : Packet) : Nat := if p.flags.getLsbD 3 then ((passOf s p).map (·.gen)).getD 0 else 0

/-- What a gate decides about a launch: admitted with this generation, refused, or none while it waits. -/
inductive Gate where
  | entry (gen : Nat)
  | refuse
deriving DecidableEq, Repr, Inhabited

def gateOf (s : State) (l : Launch) : Option Gate :=
  if l.st != .gated || !schedulerUp s l.die l.q then none
  else match (modelOf s l.pkt.model).bind (fun m => m.gens[l.pkt.layer]?) with
    | none => none
    | some (g, valid) =>
      match passOf s l.pkt with
      | some p => if !valid then some .refuse else if g == p.gen then some (.entry g) else none
      | none => if !valid then some .refuse else if l.pkt.layer = 0 then some (.entry g) else none

/-- GATED_ADMIT: a gated launch is admitted, or refused at an invalid layer. -/
def execGatedAdmit (s : State) : Out :=
  match s.launches.find? (fun l => (gateOf s l).isSome) with
  | none => .next s
  | some l =>
    match gateOf s l with
    | some (.entry g) =>
      .next { standAt l .ready g s with
        passes := if (passOf s l.pkt).isSome then s.passes
          else s.passes ++ [⟨l.pkt.model, l.pkt.pass, g, l.pkt.ctx, []⟩] }
    | _ =>
      .next (reportLaunch l.die l.q l.pkt 4 0 0 (passGen s l.pkt) { journal l.die (.leaves l.q l.pkt.lid) s with
        launches := s.launches.erase l
        passes := s.passes.filter (fun p => !(p.model == l.pkt.model && p.pass == l.pkt.pass)) })

/-! ### Placement (R22, R24, R25, R26, R122, R157, R225) -/

/-- The words of a section as an instruction memory; what it does not cover reads as zero (R86). -/
def sectionMem (ws : List (BitVec 64)) : Memory := memWrite [] 0 (ws.flatMap (fun w => leBytes 8 w.toNat))

def coreNumber (s : State) : Nat := s.die.toNat * 64 + s.core.toNat

/-- Ordinals of a task of the group on a die under a loop table: below the count at spatial levels, 0 elsewhere; over two
dies the ordinal is the die's number (R22, R24). -/
def ordinalsOk (l : List LoopLevel) (die : Nat) (o : List Nat) : Bool :=
  o.length == 6 && (l.zip o).all (fun p =>
    if p.1.kind == 2 then decide (p.2 < p.1.count.toNat)
    else if p.1.kind == 3 then decide (p.2 < p.1.count.toNat) && (p.1.count == 1 || p.2 == die)
    else p.2 == 0)

/-- The cores of a group: distinct, on one die, as many as the launch has tasks there, foreshore cores for latency. -/
def coresOk (p : Packet) (g : Placement) : Bool :=
  g.cores.length == levelProduct 2 p.loops && g.group == g.cores.length && g.cores.eraseDups.length == g.cores.length &&
    g.cores.all (fun c => decide (c % 64 < 48) && decide (c / 64 < 2) && c / 64 == (g.cores.headD 0) / 64 &&
      (p.cls == 1 || decide (c % 64 < 8)))

/-- What a task of a class would hold of this core (R157): 0 all of it, 1 the bulk share, 2 the latency share. -/
def holdOf (s : State) (bulk : Bool) : Nat := if s.core.toNat < 8 then (if bulk then 1 else 2) else 0

/-- This core can take a task of an image. -/
def coreFree (s : State) (bulk : Bool) (i : Image) : Bool :=
  s.kind == .compute && !s.task.alive && !s.quarantined &&
    (holdOf s bulk != 1 || decide (i.allocEnd + 0x10000 ≤ s.bulkShare[s.die.toNat]! * 0x80000))

/-- sr.lidx: six ordinals of 10 bits (R24). -/
def lidxOf (o : List Nat) : Word := BitVec.ofNat 64 (((o.zipIdx).map (fun p => p.1 % 1024 * 2 ^ (10 * p.2))).foldl (· + ·) 0)

/-- The launch block (R24). -/
def launchBlock (p : Packet) (o : List Nat) : List Byte :=
  leBytes 8 p.lid.toNat ++ leBytes 8 p.argp.toNat ++
  p.loops.flatMap (fun l => leBytes 4 l.count.toNat ++ leBytes 4 l.kind ++ leBytes 4 l.base.toNat ++ leBytes 4 l.step.toNat) ++
  o.flatMap (fun n => leBytes 2 n) ++ leBytes 4 0 ++ p.args.flatMap (fun a => leBytes 8 a.toNat)

/-- A stream at the common start. -/
def startStream (code : List (BitVec 64)) (tvec : Word) (now : Nat) : Ctx :=
  { Ctx.reset with imem := sectionMem code, tvec := tvec, run := .running, lastIssue := now, notBefore := now }

/-- The seeds that an image supplies for a channel, by their reseed index from 0 on (R225, R390). -/
def suppliedSeeds (i : Image) (ch : Nat) : List (List Byte) :=
  (((List.range i.seeds.length).map (fun k =>
    (i.seeds.find? (fun p => p.1 == ch && p.2.1 == k)).map (·.2.2))).takeWhile Option.isSome).filterMap id

/-- The task of a placement as it starts, but for its noise. -/
def startTask (s : State) (l : Launch) (i : Image) (g : Placement) : Task :=
  let seeds := l.pkt.flags.getLsbD 1
  { Task.reset with
    ctx := l.pkt.ctx
    lid := l.pkt.lid
    alive := true
    bulk := l.pkt.cls == 1
    lidx := lidxOf g.ordinals
    k := { startStream i.kCode 0 s.now with nrp := seeds }
    l := startStream i.lCode (i.lHandler.setWidth 64) s.now
    c := startStream i.cCode (i.cHandler.setWidth 64) s.now
    s := startStream i.sCode (i.sHandler.setWidth 64) s.now
    tokens := Vector.ofFn (fun n => ((i.tokens.find? (fun p => fifoIdx p.1 == n)).map (·.2)).getD 0)
    nextId := s.task.nextId
    group := g.group
    partition := g.cores
    guards := i.guards
    noise := Vector.ofFn (fun ch => ⟨[], 0, 0, if seeds then suppliedSeeds i ch.val else []⟩) }

/-- The launch unit places a task on this core: its launch block, its streams, its noise (R24, R225). -/
def placeTask (l : Launch) (i : Image) (g : Placement) (s : State) : State :=
  let s1 := { s with task := startTask s l i g, holds := holdOf s (l.pkt.cls == 1), quietFrom := s.now, hungSeen := false }
  let s2 := match spadMap s1 false Config.launchBlock 256 with
    | some p => spadWrite p (launchBlock l.pkt g.ordinals) s1
    | none => s1
  restartNoise (l.pkt.flags.getLsbD 1) (flushCache s2)

/-- The die of a group, and the dies on which a launch has a group already. -/
def groupDie (g : Placement) : Nat := g.cores.headD 0 / 64
def dieTaken (l : Launch) (die : Nat) : Bool := l.cores.any (fun c => c / 64 == die)

/-- A launch with one more group placed: it runs once every group of it is (R22, R25). -/
def addGroup (g : Placement) (l : Launch) : Launch :=
  let cs := l.cores ++ g.cores
  { l with
    cores := cs
    st := if (cs.map (· / 64)).eraseDups.length == levelProduct 3 l.pkt.loops then .running else .ready }

/-- The launch that a group belongs to can have it placed: the scheduler core of its queue stands, and no earlier launch of
the queue waits for cores (R401, R405). -/
def placeable (s : State) (g : Placement) (l : Launch) : Bool :=
  l.pkt.lid == g.lid && l.st == .ready && !dieTaken l (groupDie g) && schedulerUp s l.die l.q &&
    s.launches.find? (fun m => m.die == l.die && m.q == l.q && m.st == .ready) == some l

/-- GROUP_PLACE: a group of a ready launch is placed; with a core of its own among them, this core starts a task, whose K
reads no line of the data cache from before the launch (R378). -/
def execGroupPlace (g : Placement) (s : State) : Out :=
  match s.launches.find? (placeable s g) with
  | none => .next s
  | some l =>
    match imageOf s l.pkt.ctx l.pkt.image with
    | none => .next s
    | some i =>
      let mine := g.cores.contains (coreNumber s)
      if !serving s || !coresOk l.pkt g || !ordinalsOk l.pkt.loops (groupDie g) g.ordinals || s.dieHeld[groupDie g]! ||
          (mine && !coreFree s (l.pkt.cls == 1) i) then .next s
      else
        let s0 := journal (groupDie g) (.placed l.pkt.lid g.cores) s
        let s1 := { s0 with launches := modFirst (fun m => if m == l then some (addGroup g l) else none) s0.launches }
        .next (if mine then placeTask l i g s1 else s1)

/-! ### COMPLETION_RECORD (R402) -/

/-- The task of a launch that this core ran has ended. -/
def launchOver (s : State) (l : Launch) : Bool :=
  l.st == .running && !(s.task.alive && s.task.lid == l.pkt.lid) && !s.saves.any (fun i => i.task.lid == l.pkt.lid)

/-- A gated launch has completed its layer; a pass with every layer done is over. -/
def passDone (s : State) (p : Packet) : List Pass :=
  if !p.flags.getLsbD 3 then s.passes
  else
    let layers := ((modelOf s p.model).map (·.gens.length)).getD 0
    (s.passes.map (fun q => if q.model == p.model && q.pass == p.pass then { q with done := p.layer :: q.done } else q)).filter
      (fun q => !(List.range layers).all (fun k => q.done.contains k) || q.model != p.model)

/-- COMPLETION_RECORD: a launch whose tasks have all ended is reported; `failed` of them failed on other cores. -/
def execCompletionRecord (failed : Nat) (s : State) : Out :=
  match s.launches.find? (launchOver s) with
  | none => .next s
  | some l =>
    let n := failed + (if l.failed then 1 else 0)
    let status := if l.failed && l.hung then 2 else if n = 0 then 0 else 1
    .next (reportLaunch l.die l.q l.pkt status (if status = 1 then l.reason else 0) (Nat.min n 0xFFFF) l.gen
      { journal l.die (.leaves l.q l.pkt.lid) s with launches := s.launches.erase l, passes := passDone s l.pkt })

/-! ### Scheduler cores (R404, R405) -/

/-- The other copy of an instruction word. -/
def otherCopy (c : Nat) : Nat := 1 - c

/-- IMEM_REPAIR: a word that is uncorrectable in one copy is rewritten from the other (R404). -/
def execImemRepair (core addr : Nat) (s : State) : Out :=
  match s.imemBad.find? (fun p => p.1 == core && p.2.2 == addr) with
  | none => .next s
  | some p =>
    if s.imemBad.contains (core, otherCopy p.2.1, addr) then .next s
    else .next (logFrom (schedSource (core / 2) core) .transient [core, addr] { s with imemBad := s.imemBad.erase p })

/-- An error that puts a die in hold. -/
def holdDue (s : State) (die : Nat) : Bool :=
  s.journalBad.contains die || s.imemBad.any (fun p => p.1 / 2 == die && s.imemBad.contains (p.1, otherCopy p.2.1, p.2.2))

/-- DIE_HOLD: the die places no further group until the next device reset, and the owner is told (R404). -/
def execDieHold (die : Nat) (s : State) : Out :=
  if h : die < 2 then
    if holdDue s die && !s.dieHeld[die] then
      .next (notify (schedSource die 0) (.dieHold die)
        (logFrom (schedSource die 0) .attention [die] { s with dieHeld := s.dieHeld.set die true }))
    else .next s
  else .next s

/-- SCHED_RESTART: a scheduler core has restarted from the journal; what it had not placed is still to be placed
(R405). -/
def execSchedRestart (core : Nat) (s : State) : Out := .next { s with tableBad := s.tableBad.filter (· != core) }

end Sys2Proof.Machine
end

