-- ==== Sys2Proof/Machine/Owner.lean ====
section
/-! DEFINITION. Ownership, management commands, weight replacement, firmware activation, boot and power, and what hosts
and other agents do to memory (chapter 16, R378, R379, R406 to R425). -/

namespace Sys2Proof.Machine

/-! ### Claim registers (R406 to R409) -/

/-- Ownership is given up: V and P are cleared, and the Tideline records it (R409). -/
def giveUp (s : State) : State :=
  tideAdd titheSource 0x11 [(s.claim.owner.getD 0).toNat] { s with claim := { s.claim with v := false, p := false } }

/-- A write to CLAIM (with its nonce) or to RELEASE is decided: a claim succeeds when the device is free or the writer is
the successor, a release is the owner's; any other is ignored (R408, R409). -/
def decideClaim (master : BitVec 24) (nonce : Option (BitVec 32)) (s : State) : State :=
  match nonce with
  | some n =>
    if s.claim.owner.isNone || s.claim.hand == some master then
      tideAdd titheSource 0x10 [master.toNat, n.toNat]
        { s with claim := { s.claim with v := true, id := master, nonce := n, p := false, last := s.timeBase } }
    else s
  | none => if isOwner s master then giveUp s else s

/-- Those that have arrived are decided in their order; one whose record finds no room in the Tideline waits, and those behind
it (R413). -/
def decideClaims : List (BitVec 24 × Option (BitVec 32)) → State → State
  | [], s => { s with claimq := [] }
  | (m, n) :: rest, s =>
    if tideFits (decideClaim m n s) then decideClaims rest (decideClaim m n s) else { s with claimq := (m, n) :: rest }

/-- A write to CLAIM or RELEASE arrives. -/
def arriveClaim (master : BitVec 24) (nonce : Option (BitVec 32)) (s : State) : State :=
  if serving s then decideClaims (s.claimq ++ [(master, nonce)]) s else s

/-- CLAIM: a claim is decided; a successful one makes the writer the owner (R408). -/
def execClaim (master : BitVec 24) (nonce : BitVec 32) (s : State) : Out := .next (arriveClaim master (some nonce) s)

/-- BEAT: the owner renews its lease (R407). -/
def execBeat (master : BitVec 24) (s : State) : Out :=
  .next (if serving s && isOwner s master then touchOwner s else s)

/-- RELEASE. -/
def execRelease (master : BitVec 24) (s : State) : Out := .next (arriveClaim master none s)

/-- The lease has run out, and the record of it finds room. -/
def leaseDue (s : State) : Bool :=
  serving s && tideFits (giveUp s) && s.claim.owner.isSome && s.claim.lease != 0 &&
    decide (s.claim.last + s.claim.lease.toNat * msUnits ≤ s.timeBase)

/-- LEASE_EXPIRY. -/
def execLeaseExpiry (s : State) : Out := .next (if leaseDue s then giveUp s else s)

/-! ### Management commands (R415) -/

/-- The crypto unit has taken an `mext` or an `mext.rd` that it has not done. -/
def measBusy (s : State) : Bool :=
  s.crypto.queue.any (fun q => match q.1 with
    | .extend _ _ | .read _ _ => true
    | _ => false)

/-- The command under way, if it is of this kind and may run: an owner is present, no debugger holds the service core (R437),
and an extend comes after those that arrived at the crypto unit before it (R438). -/
def mgmtOf (s : State) (kind : Nat) : Option Mgmt :=
  if serving s && s.claim.owner.isSome && s.svcStop.isNone && !([2, 6, 10].contains kind && measBusy s) then
    s.mgmt.filter (fun m => m.kind == kind)
  else none

/-- The Tideline record of a command of kinds 2 to 11, carried out or refused (R415, log 38). -/
def mgmtNote (m : Mgmt) (fields : List Nat) (s : State) : State := tideAdd titheSource (0x60 + m.kind) fields s

/-- A command ends well, or is refused. -/
def mgmtDone (m : Mgmt) (fields : List Nat) (s : State) : State := endMgmt m 0 0 (mgmtNote m fields s)
def mgmtRefuse (m : Mgmt) (fields : List Nat) (s : State) : State := endMgmt m 3 17 (mgmtNote m fields s)

/-- Run a command of a kind: refused unless `ok`, else its effect and its record; all of it waits for room in the Tideline
(R413). -/
def manage (kind : Nat) (ok : Bool) (fields : List Nat) (f : State → State) (s : State) : Out :=
  match mgmtOf s kind with
  | none => .next s
  | some m => .next (whenFits (fun s => if ok then mgmtDone m fields (f s) else mgmtRefuse m fields s) s)

/-- Register 4 takes a digest of the command (R423). -/
def extendConfig (kind : Nat) (fields : List Nat) (s : State) : State := extendMeas 4 (Config.configDigest kind fields) s

/-- An enclosure as a command defines it; its contexts stay bound, its allowance starts full (R32, R415, R439). -/
def enclosureFrom (s : State) (m : EnclosureMsg) : Enclosure :=
  let old := ((s.enclosures.find? (fun e => e.num == m.num)).map (·.ctxs)).getD []
  ⟨m.num, m.base, m.pages, m.cxlBase, m.cxlLen, m.rate, m.burst, (old ++ m.ctxs).eraseDups, (m.burst * msUnits : Nat)⟩

/-- A command that may define an enclosure: in range, on a part that is not exhausted, binding no context 0 (R87). -/
def enclosureOk (s : State) (m : EnclosureMsg) : Bool :=
  decide (m.num ≤ 15) && m.base % 0x200000 == 0 && 0 < m.pages && decide (m.base + m.pages * 0x200000 ≤ Config.hbmBytes) && !s.exhausted && !m.ctxs.contains 0

/-- DEFINE_ENCLOSURE (kind 2). -/
def execDefineEnclosure (m : EnclosureMsg) (s : State) : Out :=
  let fields := [m.num, m.base, m.pages, m.cxlBase, m.cxlLen, m.rate, m.burst] ++ m.ctxs
  manage 2 (enclosureOk s m) fields (fun s =>
    extendConfig 2 fields { s with enclosures := s.enclosures.filter (fun e => e.num != m.num) ++ [enclosureFrom s m] }) s

/-- The address of a layer's header record, from the model's table of one address per layer, and the generation that it
holds (R416). The addresses are taken as physical ones: DESIGN CHOICE (log 18). -/
def headerAt (s : State) (table k : Nat) : Nat := memWord s.mem (table + 8 * k) 8
def headerGen (s : State) (table k : Nat) : Nat := memWord s.mem (headerAt s table k) 4

/-- The generations that a model's header records hold when it is registered. -/
def firstGens (table n : Nat) (s : State) : List (Nat × Bool) :=
  (List.range n).map (fun i => (headerGen s table i, true))

/-- The new header record of layer k of a wave: 64 bytes at the second of the two addresses that the layer list holds for
the layer (R416, R418). -/
def newHeader (s : State) (list k : Nat) : List Byte := memRead s.mem (memWord s.mem (list + 16 * k + 8) 8) 64

/-- A place in memory where a header record can be written. -/
def headerFits (pa : Nat) : Bool := decide (pa + 64 ≤ 2 ^ 52)

/-- REGISTER_MODEL (kind 3). -/
def execRegisterModel (m : ModelMsg) (s : State) : Out :=
  manage 3 (decide (m.model ≤ 15) && 1 ≤ m.layers && decide (m.layers ≤ 256) && s.enclosures.any (fun e => e.num == m.encl))
    [m.model, m.layers, m.table, m.encl]
    (fun s => { s with
      models := s.models.filter (fun q => q.num != m.model) ++ [⟨m.model, m.table, m.encl, firstGens m.table m.layers s, none, 0, false⟩] }) s

def setModel (m : Model) (s : State) : State := { s with models := s.models.map (fun q => if q.num == m.num then m else q) }

/-- REPLACE (kind 4): a wave starts, or a stopped one goes on at its invalid layer; a running one comes first (R419,
R420). -/
def execReplace (model gen list : Nat) (s : State) : Out :=
  match modelOf s model with
  | none => manage 4 false [model, gen, list] id s
  | some m =>
    if m.wave.isSome && !m.halt then .next s
    else
      let at_ := (m.wave.map (·.2)).getD 0
      manage 4 true [model, gen, list] (setModel { m with wave := some (gen, at_), list := list, halt := false }) s

/-- Passes of the old generation are past layer k (R419). -/
def layerClear (s : State) (m : Model) (k : Nat) : Bool :=
  match m.gens[k]? with
  | none => false
  | some (g, _) => (s.passes.filter (fun p => p.model == m.num && p.gen == g)).all (fun p => p.done.contains k)

/-- A model whose wave can rewrite its next layer. -/
def waveModel (s : State) : Option (Model × Nat × Nat) :=
  s.models.findSome? (fun m => match m.wave with
    | some (g, k) => if !m.halt && layerClear s m k then some (m, g, k) else none
    | none => none)

/-- The wave writes a layer's new header record over its old one (R419). -/
def writeHeader (m : Model) (k : Nat) (s : State) : State :=
  let pa := headerAt s m.table k
  if headerFits pa then memPutOut pa (newHeader s m.list k) s else s

/-! #### The copies of a layer

The layer list holds for each layer the address of a chain of copy command blocks (R418). The manual gives the chain no
form: the model's is a run of blocks of 64 bytes that a block of zeros ends, with physical addresses, between places outside
the cores, and the chain stops at the first block that fails. DESIGN CHOICE (log 18). -/

/-- The rows of one side of a block lie in the physical space. -/
def rowsPhysical (base : Word) (pitch : Int) (rows len : Nat) : Bool :=
  let h := rowsHull base pitch rows len
  0 ≤ h.1 && decide (h.1 + h.2 ≤ 2 ^ 52)

/-- A test holds of the run of every row of one side. -/
def rowsAll (base : Word) (pitch : Int) (rows len : Nat) (f : Seg → Bool) : Bool :=
  len == 0 || (List.range rows).all (fun r => f ⟨(rowAt base pitch r).toNat, len⟩)

/-- A place that context 0 reads: in no enclosure, and not licensed (R87). -/
def openPlace (s : State) (g : Seg) : Bool := !enclosureBad s 0 g && (termsAt s g).isNone

/-- The block is one of `cpy2`: it names its rows. -/
def namesRows (b : List Byte) : Bool := fieldAt b 0x1C 4 != 0

/-- A block of the chain that can run, by the checks of R348, R354 and R87. -/
def waveOk (s : State) (b : List Byte) (c : CpBlk) : Bool :=
  !cpReserved b (namesRows b) c && !c.ss && !c.ds && rowsPhysical c.src c.sp c.rows c.len &&
    rowsPhysical c.dst c.dp c.rows (dstLen c) && rowsAll c.src c.sp c.rows c.len (openPlace s) &&
    (if c.dec then
      match keySlot s c.key with
      | none => false
      | some k => rowsAll c.dst c.dp c.rows c.len (fun g => !outsideEnclosure s k.encl g)
    else rowsAll c.dst c.dp c.rows (dstLen c) (fun g => !enclosureBad s 0 g))

/-- The steps of a block of the chain, one after another. -/
def waveMove : Nat → CpCmd → State → CpCmd × State
  | 0, c, s => (c, s)
  | fuel + 1, c, s =>
    if cpTotal c.blk ≤ c.next then (c, s)
    else
      let (n, e, sa, da) := stepSpan c
      let src : List Seg := [⟨sa.toNat, e.2 * srcSize c.blk⟩]
      let raw := segRead s.mem src
      let conv := stepBytes c e.2 raw s
      let bad := stepMarks c e.2 (badBytes s.memBad src)
      let s1 := memPutOut da.toNat conv.1 conv.2
      let marks := (((List.range conv.1.length).map (da.toNat + ·)).zip bad).filter (·.2)
      let s2 := { s1 with memBad := marks.foldl (fun b p => setBad b p.1 1) s1.memBad }
      waveMove fuel { (if c.blk.dec then ghashMore c raw else c) with next := c.next + n } s2

/-- Zeros over the whole destination (R354). -/
def waveZero (c : CpBlk) (s : State) : State :=
  (List.range c.rows).foldl (fun s r => memPutOut (rowAt c.dst c.dp r).toNat (List.replicate c.len 0) s) s

/-- A block of the chain runs: whether it succeeds (R354, R419). -/
def waveBlock (b : List Byte) (s : State) : Bool × State :=
  let c := cpParse b (namesRows b)
  let k := (keySlot s c.key).getD ⟨0, [], 0⟩
  if !waveOk s b c then (false, s)
  else
    let p := waveMove (cpTotal c) { cpCmd c true false 0 with key := k.key, encl := k.encl } s
    if !c.dec then (true, p.2)
    else
      let y := if p.1.gbuf.isEmpty then p.1.ghash else ghashBytes (gcmH k.key) p.1.ghash p.1.gbuf
      if gcmTag k.key c.iv y 0 (cpTotal c) == memRead s.mem (c.src.toNat + c.len) 16 then
        (true, tideAdd titheSource 0x30 [0, c.key] p.2)
      else (false, tideAdd titheSource 0x31 [0, c.key] (waveZero c p.2))

/-- The chain from an address on. -/
def waveChain : Nat → Nat → State → Bool × State
  | 0, _, s => (false, s)
  | fuel + 1, at_, s =>
    let b := memRead s.mem at_ 64
    if b.all (· == 0) then (true, s)
    else
      let r := waveBlock b s
      if r.1 then waveChain fuel (at_ + 64) r.2 else r

/-- How many blocks a chain has at most: an HBM full of them. -/
def waveFuel : Nat := Config.hbmBytes / 64

/-- The layer's copies succeed, its new header record is written and it takes the new generation, or they fail and the wave
stops there; `ok`: the decryption engines do not give the layer up. -/
def waveLayer (ok : Bool) (m : Model) (g k : Nat) (s : State) : State :=
  let r := if ok then waveChain waveFuel (memWord s.mem (m.list + 16 * k) 8) s else (false, s)
  if r.1 then
    tideAdd titheSource 0x28 [m.num, k, g] (setModel { m with
      gens := m.gens.set k (g, true), wave := if k + 1 < m.gens.length then some (g, k + 1) else none } (writeHeader m k r.2))
  else
    tideAdd titheSource 0x29 [m.num, k, g] (setModel { m with
      gens := m.gens.set k ((m.gens.getD k (0, true)).1, false), halt := true } r.2)

/-- WAVE_LAYER: the wave rewrites its next layer (R419). -/
def execWaveLayer (ok : Bool) (s : State) : Out :=
  match waveModel s with
  | none => .next s
  | some (m, g, k) => .next (whenFits (waveLayer ok m g k) s)

/-- OWNER_KEY_REGISTRY (kind 6). -/
def execOwnerKeyRegistry (n : Nat) (key : List (BitVec 8)) (s : State) : Out :=
  manage 6 (decide (n ≤ 255) && key.length == 32) (n :: key.map BitVec.toNat) (fun s =>
    extendConfig 6 (n :: key.map BitVec.toNat) { s with ownerKeys := s.ownerKeys.filter (fun k => k.1 != n) ++ [(n, key)] }) s

/-- FABRIC_ROUTE (kind 7). -/
def execFabricRoute (dev ports : BitVec 16) (s : State) : Out :=
  manage 7 true [dev.toNat, ports.toNat] (fun s =>
    { s with routes := s.routes.filter (fun r => r.1 != dev.toNat) ++ [(dev.toNat, ports.toNat)] }) s

/-- TIDELINE_TRIM (kind 8): every record up to a signed one is freed, and claims that waited for room are decided (R413).
It runs in a full region as well, where one that is refused or frees less than its own record waits (log 38). -/
def execTidelineTrim (seq : Nat) (s : State) : Out :=
  match (if serving s && s.claim.owner.isSome && s.svcStop.isNone then s.mgmt.filter (fun m => m.kind == 8) else none) with
  | none => .next s
  | some m =>
    let t :=
      if s.tide.any (fun r => r.seq == seq && r.signed) then
        mgmtDone m [seq] { s with tide := s.tide.filter (fun r => decide (seq < r.seq)) }
      else mgmtRefuse m [seq] s
    .next (if tideFits t then decideClaims t.claimq t else s)

/-- TIDELINE_SEAL (kind 8): the next record is signed (R412). -/
def execTidelineSeal (s : State) : Out := manage 8 true [] (fun s => { s with tideSeal := true }) s

/-- Load the data of images at their places. -/
def loadImages (is : List Image) (s : State) : State :=
  is.foldl (fun s i => i.data.foldl (fun s d => memPutOut d.1 d.2 s) s) s

/-- An image that can be loaded: four stream sections of 1 to 16,384 words, allocations and guard granules below
0x7F_0000, initial counts of at most 63, seeds of 32 bytes with a reseed index
of 32 bits for the channels of a task (R122, R386, R387, R389, R390). What the
loader finds on the paths of the code is left out (log 48). -/
def imageFits (i : Image) : Bool :=
  [i.kCode, i.lCode, i.cCode, i.sCode].all (fun c => !c.isEmpty && decide (c.length ≤ 16384)) &&
    decide (i.allocEnd ≤ 0x7F0000) && i.guards.all (fun g => decide (g < 0x7F00)) &&
    i.tokens.all (fun t => decide (t.2 ≤ Config.tokenMax)) && 
    i.seeds.all (fun p => decide (p.1 < 4) && decide (p.2.1 < 2 ^ 32) && p.2.2.length == 32)

/-- CONTEXT_CREATE (kind 9): the data of its images is mapped for it (R386). -/
def execContextCreate (ctx : Nat) (key : BitVec 64) (images : List Image) (s : State) : Out :=
  manage 9 (ctx != 0 && key != 0 && !s.contexts.any (fun c => c.num == ctx) && images.all (fun i => i.ctx == ctx && imageFits i)) [ctx, key.toNat]
    (fun s => loadImages images { s with
      contexts := s.contexts ++ [⟨ctx, key, images⟩]
      pages := s.pages ++ images.flatMap (fun i => i.pages.filter (fun e => e.ctx == ctx && pageFits e)) }) s

/-- The open brackets of a pre-empted task end, and its image goes (R332). -/
def destroyImage (img : SaveImage) (s : State) : State :=
  let s1 := endBrackets { s with task := img.task, side := img.side, holds := img.holds }
  { s1 with task := s.task, side := s.side, holds := s.holds }

/-- What belongs to a context goes, and its launches are cancelled (R402, R419). -/
def destroyContext (ctx : Nat) (s : State) : State :=
  let mine (e : PageEntry) : Bool := e.ctx == ctx
  let s1 := (s.saves.filter (fun i => i.task.ctx == ctx)).foldl (fun s i => destroyImage i s) s
  let s2 := (s1.launches.filter (fun l => l.pkt.ctx == ctx)).foldl
    (fun s l => reportLaunch l.die l.q l.pkt 5 0 0 (passGen s1 l.pkt) (journal l.die (.leaves l.q l.pkt.lid) s)) s1
  { s2 with
    saves := s2.saves.filter (fun i => i.task.ctx != ctx)
    launches := s2.launches.filter (fun l => l.pkt.ctx != ctx)
    passes := s2.passes.filter (fun p => p.ctx != ctx)
    contexts := s2.contexts.filter (fun c => c.num != ctx)
    egress := s2.egress.filter (fun g => g.ctx != ctx)
    enclosures := s2.enclosures.map (fun e => { e with ctxs := e.ctxs.filter (· != ctx) })
    pages := s2.pages.filter (fun e => !mine e)
    tlbK := s2.tlbK.filter (fun e => !mine e)
    tlbL := s2.tlbL.filter (fun e => !mine e)
    tlbS := s2.tlbS.filter (fun e => !mine e)
    tlbCp := s2.tlbCp.filter (fun e => !mine e)
    tlbMc := s2.tlbMc.filter (fun e => !mine e) }

/-- CONTEXT_DESTROY (kind 9): a task of the context first stops and ends; then the context goes. -/
def execContextDestroy (ctx : Nat) (s : State) : Out :=
  match mgmtOf s 9 with
  | none => .next s
  | some m =>
    if !s.contexts.any (fun c => c.num == ctx) then .next (whenFits (mgmtRefuse m [ctx]) s)
    else if s.task.alive && s.task.ctx == ctx then
      .next (if allEnded s then s else { dropHeld (stopStreams s) with fEvents := [] })
    else .next (whenFits (fun s => mgmtDone m [ctx] (destroyContext ctx s)) s)

/-- EXTEND (kind 10). -/
def execExtend (m : BitVec 3) (v : List (BitVec 8)) (s : State) : Out :=
  manage 10 (decide (5 ≤ m.toNat) && v.length == 64) (m.toNat :: v.map BitVec.toNat) (extendMeas m v) s

/-- A bulk context holds this core as a foreshore core of the die. -/
def bulkHolds (s : State) (die : Nat) : Bool :=
  s.die.toNat == die && ((s.task.alive && s.holds == 1) || s.saves.any (fun i => i.holds == 1))

/-- FORESHORE_SPLIT (kind 11, R157). -/
def execForeshoreSplit (die steps : Nat) (s : State) : Out :=
  if h : die < 2 then
    if steps ≤ 8 && bulkHolds s die then .next s
    else manage 11 (decide (steps ≤ 8)) [die, steps] (fun s => { s with bulkShare := s.bulkShare.set die steps }) s
  else manage 11 false [die, steps] id s

/-- INSTALL_TERMS (kind 12, R324): the message is the command's body; a byte behind it that is not zero breaks the layout of the
body, a failed check like the message's own (R415). -/
def execInstallTerms (msg : List (BitVec 8)) (s : State) : Out :=
  match mgmtOf s 12 with
  | none => .next s
  | some m =>
    if m.body.take 192 != msg then .next s
    else
      .next (whenFits (fun s =>
        let r := installTerms (if (m.body.drop 192).any (· != 0) then m.body else msg) s
        if r.1 then endMgmt m 0 0 r.2 else endMgmt m 3 17 r.2) s)

/-! ### Firmware (R421, R422) -/

/-- The file of an image of runtime firmware. -/
def firmwareBytes (f : FirmwareMsg) : List Byte := Config.firmwareFile f.code f.sched f.layout f.converts

/-- FIRMWARE_STAGE (kind 5): an image whose signature the service core verifies under the vendor's key is staged. -/
def execFirmwareStage (f : FirmwareMsg) (s : State) : Out :=
  manage 5 (edVerify Config.vendorKey (firmwareBytes f) f.sig && decide (f.converts.length ≤ 16)) [f.layout] (fun s => { s with staged := some f }) s

/-- Layout versions of save images that an image of firmware neither has nor converts. -/
def missingLayouts (f : FirmwareMsg) (s : State) : List Nat :=
  ((s.saves.map (·.layout)).filter (fun v => v != f.layout && !f.converts.contains v)).eraseDups

/-- What the firmware context of a core has in its instruction memory after the switch: the service core's own firmware
changes only at boot. -/
def firmwareCode (f : FirmwareMsg) (s : State) : Memory :=
  match s.kind with
  | .compute => sectionMem f.code
  | .scheduler => sectionMem f.sched
  | .service => s.firm.imem

/-- The switch: a firmware context that has run goes on where it stands, in its new code (log 15); one that has run nothing yet
starts at word 0. Images in an older layout are converted when they are restored. -/
def switchFirmware (f : FirmwareMsg) (s : State) : State :=
  { s with
    firmware := some f
    staged := none
    firm := { s.firm with
      imem := firmwareCode f s
      run := if s.firm.run == .absent then .running else s.firm.run
      lastIssue := if s.firm.run == .absent then s.now else s.firm.lastIssue } }

/-- An activation that need not wait: it is refused for want of an image or for a missing layout, or it switches, extends
register 2 and records the activation; pre-emption goes on. -/
def activated (m : Mgmt) (s : State) : State :=
  let s0 := { s with activating := false }
  match s.staged with
  | none => mgmtRefuse m [] s0
  | some f =>
    let miss := missingLayouts f s
    if !miss.isEmpty then endMgmt m 3 16 (mgmtNote m [f.layout] (tideAdd titheSource 0x2A miss s0))
    else mgmtDone m [f.layout] (tideAdd titheSource 0x2B [f.layout]
      (extendMeas 2 (sha512 (firmwareBytes f)) (switchFirmware f s0)))

/-- An activation waits for the firmware context to leave its trap handler, unless it is refused. -/
def activateWaits (s : State) : Bool :=
  s.staged.any (fun f => (missingLayouts f s).isEmpty) && (s.firm.trp || unconfirmed s .kFirm)

/-- A suspended activation can go on. -/
def activateDue (s : State) : Bool :=
  s.activating && (mgmtOf s 5).any (fun m => !activateWaits s && tideFits (activated m s))

/-- FIRMWARE_ACTIVATE (kind 5): pre-emption is suspended while it waits, for TRP = 0 or for room in the Tideline. -/
def execFirmwareActivate (s : State) : Out :=
  match mgmtOf s 5 with
  | none => .next s
  | some m =>
    .next (if activateWaits s || !tideFits (activated m s) then { s with activating := true } else activated m s)

/-! ### Hosts and other agents (R32, R378, R379, R406) -/

/-- A physical access outside the 52-bit space does not exist (R19). -/
def paOutside (pa n : Nat) : Bool := decide (2 ^ 52 < pa + n)

/-- HOST_WRITE: a host write is performed; K's data cache does not see it (R109, R378). -/
def execHostWrite (_tier : Tier) (pa : Nat) (bytes : List (BitVec 8)) (_relaxed : Bool) (s : State) : Out :=
  if paOutside pa bytes.length then .fault (.outsideMemory pa)
  else .next (memPutOut pa bytes s)

/-- HOST_READ: a host-link read of device memory that a context has mapped; it completes once its Sluices let it pass (R32,
R439), and is refused in an enclosure to which the context is not bound (R406). -/
def execHostRead (ctx va len : Nat) (s : State) : Out :=
  match s.pages.find? (pageHas ctx va) with
  | none => .next s
  | some e =>
  if enclosureBad s ctx ⟨e.pbase + (va - e.vbase), len⟩ then .next s
  else if egressPassed s .host ctx len then .next (egressDone .host ctx len s)
  else .next (egressAsk .host ctx len s)

/-- CXL_AGENT_ACCESS: another agent writes, or reads, CXL memory (R379). -/
def execCxlAgentAccess (pa : Nat) (w : Option (List (BitVec 8))) (s : State) : Out :=
  let bytes := w.getD []
  if paOutside pa bytes.length then .fault (.outsideMemory pa)
  else .next (if w.isSome then memPutOut pa bytes s else s)

/-- The event log as it lies in memory: its header, which counts the overwritten records, and its records, oldest first
(R411). Where the manual gives no place, header layout or order of slots, they are the model's: DESIGN CHOICE (logs 10, 44). -/
def logImage (s : State) : List Byte :=
  leBytes 8 s.logLost ++ List.replicate 56 0 ++ (s.log.flatMap LogRec.bytes).flatten

/-- What any master reads at physical addresses of device memory, the event log among them (R406, R411). -/
def masterRead (s : State) (pa n : Nat) : List Byte :=
  let size := 64 + 64 * Config.logRecords
  if Config.logPa ≤ pa && pa + n ≤ Config.logPa + size then
    (((logImage s).drop (pa - Config.logPa)).take n ++ List.replicate n 0).take n
  else memRead s.mem pa n

/-! ### Time, boot and power (R33, R409, R410, R414, R423, R425) -/

/-- PTP_CORRECTION in nanoseconds: forward as a step, backward as a slew still owed (R410). -/
def execPtpCorrection (delta : Int) (s : State) : Out :=
  .next (if 0 ≤ delta then { s with ptp := s.ptp + delta.toNat * 840 } else { s with slew := s.slew + (-delta) * 840 })

/-- The digests that are measured at boot, in the order of R423; a service image stands in place of the service core's
firmware. -/
def bootDigests (s : State) : List (List Byte) :=
  [0, 1, 2, 3, 4].map (fun k =>
    match (if k = 2 then bootService s else none) with
    | some i => sha512 i.file
    | none => Config.bootDigest k)

/-- The measurement registers after boot: what each is extended with (R423). -/
def bootMeas (d : List (List Byte)) (c : Crypto) : Crypto :=
  let ext (m : Fin 8) (k : Nat) (c : Crypto) : Crypto :=
    { c with meas := c.meas.set m (sha512 (c.meas[m] ++ d.getD k [])) }
  ext 3 4 (ext 2 3 (ext 1 2 (ext 0 1 (ext 0 0 c))))

/-- The firmware context right after boot: it begins at word 0 of its code, with every register and predicate 0 except p0
(R423, R434). -/
def bootFirm (s : State) : Ctx :=
  let code := match s.kind with
    | .compute => Config.bootCode 0
    | .scheduler => Config.bootCode 2
    | .service => ((bootService s).map (·.kCode)).getD (Config.bootCode 1)
  { s.firm with imem := sectionMem code, run := .running, lastIssue := s.now, notBefore := s.now }

/-- The leaf certificate: its subject key, in the form of RFC 8410, is the device's Ed25519 identity key (R436). -/
def leafCert : List Byte :=
  Config.certHead.take 0x2000 ++ [0x30, 0x2A, 0x30, 0x05, 0x06, 0x03, 0x2B, 0x65, 0x70, 0x03, 0x21, 0x00] ++
    edPublic Config.identityKey ++ Config.certTail.take 0x2000

/-- The slot-0 certificate chain in the format of DSP0274: a length of 16 bits, 16 reserved bits, the hash of the root
certificate, and the certificates from the root to the leaf (R436). PRESUMED (log 10). -/
def certChain : List Byte :=
  let root := Config.certRoot.take 0x3000
  let certs := root ++ Config.certMiddle.take 0x3000 ++ leafCert
  leBytes 2 (4 + 64 + certs.length) ++ [0, 0] ++ sha512 root ++ certs

/-- The certificate store, written at manufacture: the length of the chain, and the chain (R436). -/
def certStore : List Byte := leBytes 8 certChain.length ++ certChain

/-- The translations of the service core's own memory: the mailbox, and the certificate store, which it only reads (R435,
R436). -/
def servicePages : List PageEntry :=
  [⟨0, Config.mailboxVa, Config.mailboxPa, .hbm, true, true⟩, ⟨0, Config.certStoreVa, Config.certStorePa, .hbm, true, false⟩]

/-- What stands in memory after boot: the certificate store; the data of a service image is in HBM, mapped for the service
core alone (R434). -/
def bootData (s : State) : State :=
  let s1 := memPut [⟨Config.certStorePa, certStore.length⟩] certStore s
  if s.kind != .service then s1
  else
    let s2 := { s1 with pages := s1.pages ++ servicePages }
    match bootService s with
    | none => s2
    | some i =>
      i.data.foldl (fun s d => memPutOut d.1 d.2 s)
        { s2 with pages := s2.pages ++ i.pages.filter (fun e => e.ctx == 0 && e.tier == .hbm) }

/-- POWER_ON_BOOT: the boot counter steps, the components are measured, HBM is trained, the firmware contexts are loaded,
and Tideline record 0 is written. -/
def execPowerOnBoot (s : State) : Out :=
  if s.booted then .next s
  else
    let s1 := bootData { s with
      power := true
      booted := true
      exhausted := s.boots == 4095
      boots := Nat.min 4095 (s.boots + 1)
      crypto := bootMeas (bootDigests s) s.crypto
      firm := bootFirm s
      kv := { s.kv with pool := List.range Config.kvPages } }
    .next (tidePut titheSource 0x01 [] ((bootDigests s).flatMap (fun d => (d ++ List.replicate 64 0).take 64)) s1)

/-- Where the firmware context's frame stands at reset (R111, R140). -/
def firmFrame : Kind → Word
  | .compute => Config.firmFrameCompute
  | .service => Config.firmFrameService
  | .scheduler => Config.firmFrameSched

/-- Everything but fuses, the identity of the core and the one-time-programmable counter is lost. What stands on the
agenda, the free values to come and the service image that a debugger presents lie outside the device. -/
def afterLoss (s : State) : State :=
  { State.reset with
    agenda := s.agenda
    free := s.free
    debugFuse := s.debugFuse
    bootImage := s.bootImage
    kind := s.kind
    core := s.core
    die := s.die
    boots := s.boots
    firm := { State.reset.firm with tframe := firmFrame s.kind } }

/-- A device reset that is carried out: the owner's (R406), or one by the debugger of a part whose service-debug fuse is blown,
`uzdb --service` (R437). -/
def resetAllowed (s : State) : Bool :=
  match s.resetBy with
  | some m => isOwner s m
  | none => s.debugFuse

/-- DEVICE_RESET: the device restarts from reset, with every claim register clear; it has power. A reset asked for by another
master than the owner is dropped. -/
def execDeviceReset (s : State) : Out :=
  .next (if !s.power then s else if resetAllowed s then afterLoss s else { s with resetBy := none })

/-- POWER_LOSS. -/
def execPowerLoss (s : State) : Out := .next { afterLoss s with power := false }

/-- THERMAL_TRIP: the rails go, and a trip report reaches the BMC. -/
def execThermalTrip (s : State) : Out := .next { afterLoss s with power := false, notices := [⟨ticks s, titheSource, .trip⟩] }

/-- CLOCK_THROTTLE: a step of 0.25 GHz down above the limits, to 1.0 GHz at the lowest; a step up below them. -/
def execClockThrottle (hot : Bool) (s : State) : Out :=
  .next { s with clock := if hot then Nat.max 4 (s.clock - 1) else Nat.min 8 (s.clock + 1) }

end Sys2Proof.Machine
end

