-- ==== Sys2Proof/Machine/Spdm.lean ====
section
/-! DEFINITION. The SPDM 1.2 responder on the host mailbox (R424, R434 to R438): each request's answer, with the layouts
that chapter 21 gives. -/

namespace Sys2Proof.Machine

/-! ### The mailbox and the certificate store (R435, R436) -/

def inDoorbell (s : State) : Nat := memWord s.mem (Config.mailboxPa + 0xFF0) 8
def requestLen (s : State) : Nat := inDoorbell s % 2 ^ 32
def requestBytes (s : State) : List Byte := memRead s.mem Config.mailboxPa (Nat.min 2048 (requestLen s))

def chainLen (s : State) : Nat := memWord s.mem Config.certStorePa 8
def chainBytes (s : State) : List Byte := memRead s.mem (Config.certStorePa + 8) (chainLen s)

/-- Write a response, empty the inward doorbell, ring the outward one with the request's SEQ. -/
def respond (r : List Byte) (s : State) : State :=
  let seq := inDoorbell s / 2 ^ 32
  let put (off : Nat) (b : List Byte) (s : State) : State := memPut [⟨Config.mailboxPa + off, b.length⟩] b s
  put 0xFF8 (leBytes 8 (seq * 2 ^ 32 + r.length)) (put 0xFF0 (leBytes 8 0) (put 0x800 r s))

/-! ### Answers -/

def bytesOf (l : List Nat) : List Byte := l.map (BitVec.ofNat 8)

/-- An ERROR: it changes no state and enters no transcript. -/
def spdmError (code data : Nat) (s : State) : State :=
  respond (bytesOf [if s.spdm.phase = 0 then 0x10 else 0x12, 0x7F, code, data]) s

def asciiBytes (t : String) : List Byte := t.toList.map (fun c => BitVec.ofNat 8 c.toNat)

/-- The combined prefix of a signing context, 100 bytes. -/
def signPrefix (zeros : Nat) (ctx : String) : List Byte :=
  (List.replicate 4 (asciiBytes "dmtf-spdm-v1.2.*")).flatten ++ List.replicate zeros 0 ++ asciiBytes ctx

/-- An accepted request's answer: the response before its signature, the new state, whether T is emptied first, whether
VCA ends after it, and the signing prefix. -/
structure Answer where
  resp  : List Byte
  phase : Nat
  fresh : Bool
  ends  : Bool
  sign  : Option (List Byte)
deriving DecidableEq, Repr, Inhabited

/-- The transcript takes request and response; a signed answer is signed over it and takes it back to VCA. -/
def spdmCommit (req : List Byte) (a : Answer) (s : State) : State :=
  let old := if a.fresh then [] else s.spdm.log
  let vca := if a.fresh then 0 else s.spdm.vca
  let log := old ++ req ++ a.resp
  if 8192 < log.length then spdmError 0x05 0 s
  else
    let v := if a.ends then log.length else vca
    match a.sign with
    | none => respond a.resp { s with spdm := ⟨a.phase, log, v⟩ }
    | some p =>
      respond (a.resp ++ edSign Config.identityKey (p ++ sha512 log)) { s with spdm := ⟨a.phase, log.take v, v⟩ }

def versionResp : List Byte := bytesOf [0x10, 0x04, 0, 0, 0, 1, 0, 0x12]
def capabilitiesResp : List Byte := bytesOf [0x12, 0x61, 0, 0, 0, 12, 0, 0, 0x16, 0, 0, 0, 0, 8, 0, 0, 0, 8, 0, 0]
def algorithmsResp : List Byte :=
  bytesOf [0x12, 0x63, 0, 0, 36, 0, 1, 0, 8, 0, 0, 0, 0, 4, 0, 0, 4] ++ List.replicate 19 0

/-- The value type of a measurement register's block. -/
def measType (n : Nat) : Nat := [0, 1, 1, 2].getD n 3

/-- A DMTF measurement block of a register. -/
def measBlock (s : State) (n : Fin 8) : List Byte := bytesOf [n.val + 1, 1, 67, 0, measType n.val, 64, 0] ++ s.crypto.meas[n]

/-- 32 bytes of noise from the firmware's channel. -/
def nonceBytes (s : State) : List Byte × State :=
  (List.range 4).foldl (fun p _ => let q := drawNoise 4 64 p.2; (p.1 ++ leBytes 8 q.1, q.2)) ([], s)

/-- The requests of R424. -/
inductive SpdmReq where
  | version | capabilities | algorithms | digests | certificate | challenge | measurements
deriving DecidableEq, Repr, Inhabited

def spdmCode : SpdmReq → Nat
  | .version => 0x84 | .capabilities => 0xE1 | .algorithms => 0xE3 | .digests => 0x81 | .certificate => 0x82
  | .challenge => 0x83 | .measurements => 0xE0
def spdmAll : List SpdmReq := [.version, .capabilities, .algorithms, .digests, .certificate, .challenge, .measurements]

/-- The state in which a request is in sequence. -/
def inSequence (s : State) : SpdmReq → Bool
  | .version => true
  | .capabilities => s.spdm.phase == 1
  | .algorithms => s.spdm.phase == 2
  | .measurements => s.spdm.phase == 3 && s.spdm.log.length == s.spdm.vca
  | _ => s.spdm.phase == 3

/-- The length and field checks of a request. -/
def fieldsOk (s : State) (b : List Byte) : SpdmReq → Bool
  | .version => b.length == 4
  | .capabilities => b.length == 20
  | .algorithms =>
    fieldAt b 4 2 == b.length && 32 ≤ b.length && (fieldAt b 8 4).testBit 10 && (fieldAt b 12 4).testBit 2 &&
      (fieldAt b 6 1).testBit 0
  | .digests => b.length == 4
  | .certificate => b.length == 8 && fieldAt b 2 1 == 0 && fieldAt b 4 2 ≤ chainLen s
  | .challenge => b.length == 36 && fieldAt b 2 2 == 0
  | .measurements =>
    b.length == 37 && fieldAt b 2 1 == 1 && fieldAt b 36 1 == 0 &&
      ((1 ≤ fieldAt b 3 1 && fieldAt b 3 1 ≤ 8) || fieldAt b 3 1 == 0xFF)

/-- The answer to a request that has passed its checks, with the noise it draws. -/
def spdmAnswer (b : List Byte) (s : State) : SpdmReq → Answer × State
  | .version => (⟨versionResp, 1, true, false, none⟩, s)
  | .capabilities => (⟨capabilitiesResp, 2, false, false, none⟩, s)
  | .algorithms => (⟨algorithmsResp, 3, false, true, none⟩, s)
  | .digests => (⟨bytesOf [0x12, 0x01, 0, 1] ++ sha512 (chainBytes s), 3, false, false, none⟩, s)
  | .certificate =>
    let off := fieldAt b 4 2
    let n := Nat.min 2024 (Nat.min (fieldAt b 6 2) (chainLen s - off))
    (⟨bytesOf [0x12, 0x02, 0, 0] ++ leBytes 2 n ++ leBytes 2 (chainLen s - off - n) ++ ((chainBytes s).drop off).take n, 3,
      false, false, none⟩, s)
  | .challenge =>
    let p := nonceBytes s
    (⟨bytesOf [0x12, 0x03, 0, 1] ++ sha512 (chainBytes s) ++ p.1 ++ [0, 0], 3, false, false,
      some (signPrefix 4 "responder-challenge_auth signing")⟩, p.2)
  | .measurements =>
    let i := fieldAt b 3 1
    let blocks := (List.finRange 8).filter (fun n => i == 0xFF || n.val + 1 == i)
    let rec_ := blocks.flatMap (measBlock s)
    let p := nonceBytes s
    (⟨bytesOf [0x12, 0x60, 0, 0, blocks.length] ++ leBytes 3 rec_.length ++ rec_ ++ p.1 ++ [0, 0], 3, false, false,
      some (signPrefix 6 "responder-measurements signing")⟩, p.2)

/-- A request in the mailbox is answered; `q` is the request that its code names, if any (the order of chapter 21). -/
def answerWith (q : Option SpdmReq) (b : List Byte) (s : State) : State :=
  if requestLen s < 4 || 2048 < requestLen s then spdmError 0x01 0 s
  else if q != some .version && fieldAt b 0 1 != 0x12 then spdmError 0x41 0 s
  else match q with
    | none => spdmError 0x07 (fieldAt b 1 1) s
    | some r =>
      if !inSequence s r then spdmError 0x04 0 s
      else if !fieldsOk s b r then spdmError 0x01 0 s
      else
        let a := spdmAnswer b s r
        spdmCommit b a.1 a.2

/-- One of the seven steps of a service core that no debugger holds (R437): it answers a waiting request with its own code, or one whose code is nobody's. -/
def spdmStep (r : SpdmReq) (s : State) : Out :=
  let b := requestBytes s
  let q := spdmAll.find? (fun x => spdmCode x == fieldAt b 1 1)
  if serving s && s.svcStop.isNone && requestLen s != 0 && (q.isNone || q == some r) then .next (answerWith q b s) else .next s

def execGetVersion (s : State) : Out := spdmStep .version s
def execGetCapabilities (s : State) : Out := spdmStep .capabilities s
def execNegotiateAlgorithms (s : State) : Out := spdmStep .algorithms s
def execGetDigests (s : State) : Out := spdmStep .digests s
def execGetCertificate (s : State) : Out := spdmStep .certificate s
def execChallenge (s : State) : Out := spdmStep .challenge s
def execGetMeasurements (s : State) : Out := spdmStep .measurements s

end Sys2Proof.Machine
end

