-- ==== Sys2Proof/Machine/Dispatch.lean ====
section
/-! DEFINITION. The dispatch: one arm per constructor, each a direct call of its meaning. -/

namespace Sys2Proof.Machine

/-- What an instruction, or a step of the machine, does. -/
def exec (i : Instr) (s : State) : Host.Outcome State Fault Refusal :=
  match i with
  | .nop h => Sys2Proof.Machine.execNop h s
  | .li h d imm => Sys2Proof.Machine.execLi h d imm s
  | .lih h d imm => Sys2Proof.Machine.execLih h d imm s
  | .alu h fn d a b => Sys2Proof.Machine.execAlu h fn d a b s
  | .addi h d a imm => Sys2Proof.Machine.execAddi h d a imm s
  | .andi h d a imm => Sys2Proof.Machine.execAndi h d a imm s
  | .ori h d a imm => Sys2Proof.Machine.execOri h d a imm s
  | .xori h d a imm => Sys2Proof.Machine.execXori h d a imm s
  | .shli h d a n => Sys2Proof.Machine.execShli h d a n s
  | .shri h d a n => Sys2Proof.Machine.execShri h d a n s
  | .sari h d a n => Sys2Proof.Machine.execSari h d a n s
  | .muli h d a imm => Sys2Proof.Machine.execMuli h d a imm s
  | .cmp h cc pd a b => Sys2Proof.Machine.execCmp h cc pd a b s
  | .cmpi h cc pd a imm => Sys2Proof.Machine.execCmpi h cc pd a imm s
  | .plog h fn d a b => Sys2Proof.Machine.execPlog h fn d a b s
  | .sel h d a b => Sys2Proof.Machine.execSel h d a b s
  | .lea h scale d a b => Sys2Proof.Machine.execLea h scale d a b s
  | .br h off => Sys2Proof.Machine.execBr h off s
  | .call h off => Sys2Proof.Machine.execCall h off s
  | .jr h d a => Sys2Proof.Machine.execJr h d a s
  | .loop h n src => Sys2Proof.Machine.execLoop h n src s
  | .endl h n off => Sys2Proof.Machine.execEndl h n off s
  | .safe h => Sys2Proof.Machine.execSafe h s
  | .endT h => Sys2Proof.Machine.execEndT h s
  | .ldk h sz d a ac off => Sys2Proof.Machine.execLdk h sz d a ac off s
  | .stk h sz d a ac off => Sys2Proof.Machine.execStk h sz d a ac off s
  | .lds h sz d a off => Sys2Proof.Machine.execLds h sz d a off s
  | .sts h sz d a off => Sys2Proof.Machine.execSts h sz d a off s
  | .rsr h d r => Sys2Proof.Machine.execRsr h d r s
  | .wsr h r a => Sys2Proof.Machine.execWsr h r a s
  | .epush h port a => Sys2Proof.Machine.execEpush h port a s
  | .epop h d port => Sys2Proof.Machine.execEpop h d port s
  | .ecountOut h d port => Sys2Proof.Machine.execEcountOut h d port s
  | .ecountIn h d port => Sys2Proof.Machine.execEcountIn h d port s
  | .rnd h d => Sys2Proof.Machine.execRnd h d s
  | .tkp h f n => Sys2Proof.Machine.execTkp h f n s
  | .tkw h f n => Sys2Proof.Machine.execTkw h f n s
  | .tkc h d f => Sys2Proof.Machine.execTkc h d f s
  | .bar h b => Sys2Proof.Machine.execBar h b s
  | .bara h b => Sys2Proof.Machine.execBara h b s
  | .barw h b => Sys2Proof.Machine.execBarw h b s
  | .renq h a b => Sys2Proof.Machine.execRenq h a b s
  | .amo h op sc dw d a b => Sys2Proof.Machine.execAmo h op sc dw d a b s
  | .fence h kind sc => Sys2Proof.Machine.execFence h kind sc s
  | .mark h => Sys2Proof.Machine.execMark h s
  | .wfe h imm => Sys2Proof.Machine.execWfe h imm s
  | .sysCall h imm => Sys2Proof.Machine.execSysCall h imm s
  | .sysResume h st => Sys2Proof.Machine.execSysResume h st s
  | .sysKill h imm => Sys2Proof.Machine.execSysKill h imm s
  | .sysTmr h mask imm => Sys2Proof.Machine.execSysTmr h mask imm s
  | .trap h imm => Sys2Proof.Machine.execTrap h imm s
  | .brk h imm => Sys2Proof.Machine.execBrk h imm s
  | .rfi h => Sys2Proof.Machine.execRfi h s
  | .ld h zp sz q ab ac off => Sys2Proof.Machine.execLd h zp sz q ab ac off s
  | .ldp h sz q ab ac off => Sys2Proof.Machine.execLdp h sz q ab ac off s
  | .ldi h sz q ab ac off => Sys2Proof.Machine.execLdi h sz q ab ac off s
  | .ldg h zp sz iq q ab ac off => Sys2Proof.Machine.execLdg h zp sz iq q ab ac off s
  | .ldr h f pitch ab ac off => Sys2Proof.Machine.execLdr h f pitch ab ac off s
  | .ldw h w ab ac off => Sys2Proof.Machine.execLdw h w ab ac off s
  | .pf h tr ab off => Sys2Proof.Machine.execPf h tr ab off s
  | .st h sz q ab ac off => Sys2Proof.Machine.execSt h sz q ab ac off s
  | .stp h sz q ab ac off => Sys2Proof.Machine.execStp h sz q ab ac off s
  | .stg h sz iq q ab ac off => Sys2Proof.Machine.execStg h sz iq q ab ac off s
  | .stw h w ab ac off => Sys2Proof.Machine.execStw h w ab ac off s
  | .stt h keep f pitch ab ac off => Sys2Proof.Machine.execStt h keep f pitch ab ac off s
  | .qfl h q => Sys2Proof.Machine.execQfl h q s
  | .qln h dst q => Sys2Proof.Machine.execQln h dst q s
  | .fop h fn ed ea eb => Sys2Proof.Machine.execFop h fn ed ea eb s
  | .fma h c ed ea eb => Sys2Proof.Machine.execFma h c ed ea eb s
  | .fnma h c ed ea eb => Sys2Proof.Machine.execFnma h c ed ea eb s
  | .frcp h ed ea => Sys2Proof.Machine.execFrcp h ed ea s
  | .frsq h ed ea => Sys2Proof.Machine.execFrsq h ed ea s
  | .frfr h ed ea eb => Sys2Proof.Machine.execFrfr h ed ea eb s
  | .frfs h ed ea eb => Sys2Proof.Machine.execFrfs h ed ea eb s
  | .fcmp h cc pd ea eb => Sys2Proof.Machine.execFcmp h cc pd ea eb s
  | .icmp h cc pd ea eb => Sys2Proof.Machine.execIcmp h cc pd ea eb s
  | .fcvt h dst src r ed ea => Sys2Proof.Machine.execFcvt h dst src r ed ea s
  | .iop h fn ed ea eb => Sys2Proof.Machine.execIop h fn ed ea eb s
  | .eli h ed imm => Sys2Proof.Machine.execEli h ed imm s
  | .elih h ed imm => Sys2Proof.Machine.execElih h ed imm s
  | .emov h ed ea => Sys2Proof.Machine.execEmov h ed ea s
  | .esel h ed ea eb => Sys2Proof.Machine.execEsel h ed ea eb s
  | .rot h imm => Sys2Proof.Machine.execRot h imm s
  | .lbr h n off => Sys2Proof.Machine.execLbr h n off s
  | .eld h ed base off => Sys2Proof.Machine.execEld h ed base off s
  | .est h data base off => Sys2Proof.Machine.execEst h data base off s
  | .vop h fn r wd wa wb => Sys2Proof.Machine.execVop h fn r wd wa wb s
  | .vfma h neg sc r wd wa wb => Sys2Proof.Machine.execVfma h neg sc r wd wa wb s
  | .vsc h fn r wd wa ea => Sys2Proof.Machine.execVsc h fn r wd wa ea s
  | .vun h fn r wd wa => Sys2Proof.Machine.execVun h fn r wd wa s
  | .vcvt h r wd wa => Sys2Proof.Machine.execVcvt h r wd wa s
  | .vred h fn idx wa ea => Sys2Proof.Machine.execVred h fn idx wa ea s
  | .vscan h exc r wd wa => Sys2Proof.Machine.execVscan h exc r wd wa s
  | .vcmp h cc sc wd wa wb => Sys2Proof.Machine.execVcmp h cc sc wd wa wb s
  | .vsel h wd wa wb wm => Sys2Proof.Machine.execVsel h wd wa wb wm s
  | .vcpr h wd wa wm ea => Sys2Proof.Machine.execVcpr h wd wa wm ea s
  | .vxpd h wd wa wm ea => Sys2Proof.Machine.execVxpd h wd wa wm ea s
  | .vgat h z wd wa wb => Sys2Proof.Machine.execVgat h z wd wa wb s
  | .vsct h drop wd wa wb => Sys2Proof.Machine.execVsct h drop wd wa wb s
  | .vsca h drop wd wa wb => Sys2Proof.Machine.execVsca h drop wd wa wb s
  | .vfill h r wd ea => Sys2Proof.Machine.execVfill h r wd ea s
  | .vrnd h unif wd => Sys2Proof.Machine.execVrnd h unif wd s
  | .vhad h inv k wd wa ea => Sys2Proof.Machine.execVhad h inv k wd wa ea s
  | .vqnt h mode wd wa wb => Sys2Proof.Machine.execVqnt h mode wd wa wb s
  | .vdqt h r wd wa wb => Sys2Proof.Machine.execVdqt h r wd wa wb s
  | .vtopk h wd wa wb ea => Sys2Proof.Machine.execVtopk h wd wa wb ea s
  | .vsamp h res wa wb ea => Sys2Proof.Machine.execVsamp h res wa wb ea s
  | .vsoft h wd wa => Sys2Proof.Machine.execVsoft h wd wa s
  | .wset h fn wd ea => Sys2Proof.Machine.execWset h fn wd ea s
  | .wget h rowf wa ea => Sys2Proof.Machine.execWget h rowf wa ea s
  | .vbit h fn valid drop wd wa wb ea => Sys2Proof.Machine.execVbit h fn valid drop wd wa wb ea s
  | .vmov h wd wa => Sys2Proof.Machine.execVmov h wd wa s
  | .mtw h lvl a role => Sys2Proof.Machine.execMtw h lvl a role s
  | .mtr h role d lvl => Sys2Proof.Machine.execMtr h role d lvl s
  | .mcfg h mode r => Sys2Proof.Machine.execMcfg h mode r s
  | .mfmt h a => Sys2Proof.Machine.execMfmt h a s
  | .mgo h a ev tag => Sys2Proof.Machine.execMgo h a ev tag s
  | .mtile h a ev tag => Sys2Proof.Machine.execMtile h a ev tag s
  | .mwait h => Sys2Proof.Machine.execMwait h s
  | .mzero h a => Sys2Proof.Machine.execMzero h a s
  | .mdrain h f a ev tag => Sys2Proof.Machine.execMdrain h f a ev tag s
  | .mtsm h => Sys2Proof.Machine.execMtsm h s
  | .fset h f a => Sys2Proof.Machine.execFset h f a s
  | .fget h state d f => Sys2Proof.Machine.execFget h state d f s
  | .fdrop h f a => Sys2Proof.Machine.execFdrop h f a s
  | .hgen h wa ws => Sys2Proof.Machine.execHgen h wa ws s
  | .hgenRel h wa => Sys2Proof.Machine.execHgenRel h wa s
  | .hchk h ro t ea => Sys2Proof.Machine.execHchk h ro t ea s
  | .hfix h corr t ea => Sys2Proof.Machine.execHfix h corr t ea s
  | .hupd h wd wa => Sys2Proof.Machine.execHupd h wd wa s
  | .hrd h t ea => Sys2Proof.Machine.execHrd h t ea s
  | .htol h ea => Sys2Proof.Machine.execHtol h ea s
  | .mccfg h d a f => Sys2Proof.Machine.execMccfg h d a f s
  | .mccfgRst h => Sys2Proof.Machine.execMccfgRst h s
  | .mcld h a f ev tag => Sys2Proof.Machine.execMcld h a f ev tag s
  | .mcldL h a ev tag => Sys2Proof.Machine.execMcldL h a ev tag s
  | .mcldR h a f ev tag => Sys2Proof.Machine.execMcldR h a f ev tag s
  | .mcst h glob a f ev tag => Sys2Proof.Machine.execMcst h glob a f ev tag s
  | .mccmp h a ev tag => Sys2Proof.Machine.execMccmp h a ev tag s
  | .mctree h a ev tag => Sys2Proof.Machine.execMctree h a ev tag s
  | .mcapp h d a f => Sys2Proof.Machine.execMcapp h d a f s
  | .mcappT h d a f => Sys2Proof.Machine.execMcappT h d a f s
  | .mcmsk h a f ev tag => Sys2Proof.Machine.execMcmsk h a f ev tag s
  | .mcchk h fn pd a => Sys2Proof.Machine.execMcchk h fn pd a s
  | .thopen h b a => Sys2Proof.Machine.execThopen h b a s
  | .thclose h b => Sys2Proof.Machine.execThclose h b s
  | .thabort h b => Sys2Proof.Machine.execThabort h b s
  | .thbind h b f => Sys2Proof.Machine.execThbind h b f s
  | .thbindR h b a => Sys2Proof.Machine.execThbindR h b a s
  | .thrd h fn d a => Sys2Proof.Machine.execThrd h fn d a s
  | .thstm h d a f => Sys2Proof.Machine.execThstm h d a f s
  | .cpy h a ev tag => Sys2Proof.Machine.execCpy h a ev tag s
  | .cpy2 h a ev tag => Sys2Proof.Machine.execCpy2 h a ev tag s
  | .cpres h => Sys2Proof.Machine.execCpres h s
  | .cpresDrop h => Sys2Proof.Machine.execCpresDrop h s
  | .cpwait h => Sys2Proof.Machine.execCpwait h s
  | .fxs h a ev tag => Sys2Proof.Machine.execFxs h a ev tag s
  | .fxr h a ev tag => Sys2Proof.Machine.execFxr h a ev tag s
  | .fxred h a ev tag => Sys2Proof.Machine.execFxred h a ev tag s
  | .fxwait h => Sys2Proof.Machine.execFxwait h s
  | .tsat h a => Sys2Proof.Machine.execTsat h a s
  | .tsatWait h a => Sys2Proof.Machine.execTsatWait h a s
  | .hshInit h n => Sys2Proof.Machine.execHshInit h n s
  | .hsh h n a => Sys2Proof.Machine.execHsh h n a s
  | .hfin h n d a len => Sys2Proof.Machine.execHfin h n d a len s
  | .sgn h a => Sys2Proof.Machine.execSgn h a s
  | .vfy h d a => Sys2Proof.Machine.execVfy h d a s
  | .mext h m a => Sys2Proof.Machine.execMext h m a s
  | .mextRd h m a => Sys2Proof.Machine.execMextRd h m a s
  | .kunw h d slot a => Sys2Proof.Machine.execKunw h d slot a s
  | .pxlk h d a => Sys2Proof.Machine.execPxlk h d a s
  | .pxlkAcq h d a => Sys2Proof.Machine.execPxlkAcq h d a s
  | .pxins h d a => Sys2Proof.Machine.execPxins h d a s
  | .pxrefAdd h d a => Sys2Proof.Machine.execPxrefAdd h d a s
  | .pxrefDrop h d a => Sys2Proof.Machine.execPxrefDrop h d a s
  | .pxevc h d a => Sys2Proof.Machine.execPxevc h d a s
  | .kvpgAlloc h d a => Sys2Proof.Machine.execKvpgAlloc h d a s
  | .kvpgFree h d a => Sys2Proof.Machine.execKvpgFree h d a s
  | .kvpgRel h d a => Sys2Proof.Machine.execKvpgRel h d a s
  | .kvpgAck h d a => Sys2Proof.Machine.execKvpgAck h d a s
  | .resultLanding => Sys2Proof.Machine.execResultLanding s
  | .checkedActionConfirm o => Sys2Proof.Machine.execCheckedActionConfirm o s
  | .loadArrival id => Sys2Proof.Machine.execLoadArrival id s
  | .accessPerformed id => Sys2Proof.Machine.execAccessPerformed id s
  | .slotJoin id => Sys2Proof.Machine.execSlotJoin id s
  | .tlbInvalidate ctx vbase e => Sys2Proof.Machine.execTlbInvalidate ctx vbase e s
  | .matrixStep => Sys2Proof.Machine.execMatrixStep s
  | .marker => Sys2Proof.Machine.execMarker s
  | .drain => Sys2Proof.Machine.execDrain s
  | .mceCommand => Sys2Proof.Machine.execMceCommand s
  | .copyStep => Sys2Proof.Machine.execCopyStep s
  | .fabricMatch send iv far => Sys2Proof.Machine.execFabricMatch send iv far s
  | .fabricFrame send iv bytes => Sys2Proof.Machine.execFabricFrame send iv bytes s
  | .fabricLinkFail iv => Sys2Proof.Machine.execFabricLinkFail iv s
  | .titheDecide => Sys2Proof.Machine.execTitheDecide s
  | .meterStatement => Sys2Proof.Machine.execMeterStatement s
  | .kvDecide => Sys2Proof.Machine.execKvDecide s
  | .barrierPhaseComplete b => Sys2Proof.Machine.execBarrierPhaseComplete b s
  | .timerExpiry => Sys2Proof.Machine.execTimerExpiry s
  | .budgetExpiry => Sys2Proof.Machine.execBudgetExpiry s
  | .wfeTimeout iv => Sys2Proof.Machine.execWfeTimeout iv s
  | .attn v => Sys2Proof.Machine.execAttn v s
  | .takeInterrupt iv => Sys2Proof.Machine.execTakeInterrupt iv s
  | .fEventTake => Sys2Proof.Machine.execFEventTake s
  | .noiseReseed ch => Sys2Proof.Machine.execNoiseReseed ch s
  | .sluicePass u => Sys2Proof.Machine.execSluicePass u s
  | .hungDetect => Sys2Proof.Machine.execHungDetect s
  | .preemptDemand => Sys2Proof.Machine.execPreemptDemand s
  | .engineSavePoint => Sys2Proof.Machine.execEngineSavePoint s
  | .partitionSave => Sys2Proof.Machine.execPartitionSave s
  | .partitionRestore => Sys2Proof.Machine.execPartitionRestore s
  | .qtailWrite master die q t => Sys2Proof.Machine.execQtailWrite master die q t s
  | .registerWrite master off v => Sys2Proof.Machine.execRegisterWrite master off v s
  | .packetCheck die q => Sys2Proof.Machine.execPacketCheck die q s
  | .timedStart => Sys2Proof.Machine.execTimedStart s
  | .groupPlace p => Sys2Proof.Machine.execGroupPlace p s
  | .gatedAdmit => Sys2Proof.Machine.execGatedAdmit s
  | .completionRecord failed => Sys2Proof.Machine.execCompletionRecord failed s
  | .imemRepair core addr => Sys2Proof.Machine.execImemRepair core addr s
  | .dieHold die => Sys2Proof.Machine.execDieHold die s
  | .schedRestart core => Sys2Proof.Machine.execSchedRestart core s
  | .claim master nonce => Sys2Proof.Machine.execClaim master nonce s
  | .beat master => Sys2Proof.Machine.execBeat master s
  | .release master => Sys2Proof.Machine.execRelease master s
  | .leaseExpiry => Sys2Proof.Machine.execLeaseExpiry s
  | .defineEnclosure m => Sys2Proof.Machine.execDefineEnclosure m s
  | .registerModel m => Sys2Proof.Machine.execRegisterModel m s
  | .replace model gen list => Sys2Proof.Machine.execReplace model gen list s
  | .waveLayer ok => Sys2Proof.Machine.execWaveLayer ok s
  | .firmwareStage m => Sys2Proof.Machine.execFirmwareStage m s
  | .firmwareActivate => Sys2Proof.Machine.execFirmwareActivate s
  | .ownerKeyRegistry n key => Sys2Proof.Machine.execOwnerKeyRegistry n key s
  | .fabricRoute dev ports => Sys2Proof.Machine.execFabricRoute dev ports s
  | .tidelineTrim seq => Sys2Proof.Machine.execTidelineTrim seq s
  | .tidelineSeal => Sys2Proof.Machine.execTidelineSeal s
  | .contextCreate ctx key images => Sys2Proof.Machine.execContextCreate ctx key images s
  | .contextDestroy ctx => Sys2Proof.Machine.execContextDestroy ctx s
  | .extend m v => Sys2Proof.Machine.execExtend m v s
  | .foreshoreSplit die steps => Sys2Proof.Machine.execForeshoreSplit die steps s
  | .installTerms msg => Sys2Proof.Machine.execInstallTerms msg s
  | .hostWrite tier pa bytes relaxed => Sys2Proof.Machine.execHostWrite tier pa bytes relaxed s
  | .hostRead ctx va len => Sys2Proof.Machine.execHostRead ctx va len s
  | .getVersion => Sys2Proof.Machine.execGetVersion s
  | .getCapabilities => Sys2Proof.Machine.execGetCapabilities s
  | .negotiateAlgorithms => Sys2Proof.Machine.execNegotiateAlgorithms s
  | .getDigests => Sys2Proof.Machine.execGetDigests s
  | .getCertificate => Sys2Proof.Machine.execGetCertificate s
  | .challenge => Sys2Proof.Machine.execChallenge s
  | .getMeasurements => Sys2Proof.Machine.execGetMeasurements s
  | .ptpCorrection delta => Sys2Proof.Machine.execPtpCorrection delta s
  | .powerOnBoot => Sys2Proof.Machine.execPowerOnBoot s
  | .deviceReset => Sys2Proof.Machine.execDeviceReset s
  | .powerLoss => Sys2Proof.Machine.execPowerLoss s
  | .thermalTrip => Sys2Proof.Machine.execThermalTrip s
  | .clockThrottle hot => Sys2Proof.Machine.execClockThrottle hot s
  | .cxlAgentAccess pa w => Sys2Proof.Machine.execCxlAgentAccess pa w s
  | .softError t => Sys2Proof.Machine.execSoftError t s
  | .cryptoUnitResult => Sys2Proof.Machine.execCryptoUnitResult s

end Sys2Proof.Machine
end

