-- ==== Sys2Proof/Machine/Cycle.lean ====
section
/-! DEFINITION. The machine's cycle: the machine's own steps that are enabled, the issue of one word of a stream (R38,
R54, R158), the end of a cycle (R6, R158, R410, R439), and how a word comes to stand where the next step fetches it. Which
step comes next is plain data of the state (log 1). -/

namespace Sys2Proof.Machine

/-! ### The machine's own steps -/

/-- The step that performs an issued access, by its kind. -/
def accessEvent (a : Access) : Instr :=
  match a.kind with
  | .load .. => .loadArrival a.id
  | .loadTile .. => .slotJoin a.id
  | .loadWindow .. | .store .. => .accessPerformed a.id

/-- The oldest access that may be performed and whose latency has passed (R165). -/
def accessPick (s : State) : Option Instr :=
  (s.task.accesses.find? (fun a => decide (a.due ≤ s.now) && canPerform s a)).map accessEvent

/-- The matrix, copy and fabric engines stand at their save points between steps: they make none while a pre-emption is
pending (R155). -/
def enginesRun (s : State) : Bool := !preempting s

/-- The map-composition engine goes on to its next save point (R321). -/
def mceGoes (s : State) : Bool := mcRuns s && (!preempting s || !mceAtSave s)

/-- A step of the matrix engine. -/
def matrixEvent (s : State) : Option Instr :=
  if (owedPick s).isSome || (matrixPick s).isSome then some .matrixStep
  else if markerPick s then some .marker
  else if (drainPick s).isSome then some .drain
  else none

/-- A send to this core itself that finds its buffer, or the next frame of one: no other side takes part (R356). -/
def selfFabric (s : State) : Option Instr :=
  let ready (p : FxCmd × Nat) : Option Instr :=
    if p.1.send && selfPeer s p.1.peer then
      if fxMayMatch s p.2 p.1 && (selfBuffer s p.1).isSome then some (.fabricMatch true p.2 ⟨0, false⟩)
      else if fxMaySend s p.2 p.1 then
        some (.fabricFrame true p.2 (List.replicate (Nat.min 9216 (p.1.len - p.1.moved)) 0))
      else none
    else none
  s.task.fx.cmds.zipIdx.findSome? ready

/-- A step of one of the core's engines or of the units it shares. -/
def engineEvent (s : State) : Option Instr :=
  if !enginesRun s then (if mceGoes s then some .mceCommand else none)
  else match matrixEvent s with
    | some i => some i
    | none =>
      if mceGoes s then some .mceCommand
      else if cpRuns s then some .copyStep
      else selfFabric s

def unitEvents : List EgressUser := [.sStore, .kAction, .copy, .mce, .fabric, .host]

/-- A step of the units of the die and of the launch path. -/
def serviceEvent (s : State) : Option Instr :=
  if crRuns s then some .cryptoUnitResult
  else if titheRuns s false then some .titheDecide
  else if titheRuns s true then some .meterStatement
  else if (kvPick s).isSome then some .kvDecide
  else match unitEvents.find? (fun u => (sluiceReady s u).isSome) with
    | some u => some (.sluicePass u)
    | none =>
      if s.task.group ≤ 1 && hungDue s then some .hungDetect
      else if savePointDue s then some .engineSavePoint
      else if saveDue s then some .partitionSave
      else if s.restoring.any (fun t => decide (t ≤ s.now)) && !s.saves.isEmpty && !s.task.alive && !s.quarantined then
        some .partitionRestore
      else if s.launches.any (startDue s) then some .timedStart
      else if s.launches.any (fun l => (gateOf s l).isSome) then some .gatedAdmit
      else if holdDue s 0 && !s.dieHeld[0] then some (.dieHold 0)
      else if holdDue s 1 && !s.dieHeld[1] then some (.dieHold 1)
      else if leaseDue s then some .leaseExpiry
      else if activateDue s then some .firmwareActivate
      else if (s.launches.find? (launchOver s)).any (fun l => levelProduct 2 l.pkt.loops * levelProduct 3 l.pkt.loops == 1) then
        some (.completionRecord 0)
      else none

/-- What ends a cycle: K's confirmed action is performed, or an engine makes a step; its effect is seen from the next cycle
on (R116, R266). -/
def endEvent (s : State) : Option Instr :=
  if confirmRuns s then some (.checkedActionConfirm .confirmed) else engineEvent s

/-! ### Issue (R38, R54, R158) -/

/-- The word at the pc of a context. -/
def wordOf (c : Ctx) : Word := fetchWord c.imem c.pc

/-- IDLE of the next word is met (R38): counted from the start or the restore for the first word, else from the stream's
last issue; a word that has issued and goes on does not issue again. -/
def idleMet (s : State) (x : Issuer) : Bool :=
  let c := ctxOf s x
  let n := (fld (wordOf c) 54 10).toNat
  c.inFlight || decide (c.lastIssue + (if c.fresh then n else Nat.max n 1) ≤ s.now)

/-- K issues nothing while a trap that it is to take waits for the checker (R117, R142, R148): the trap's resumption pc
is the word at which it became due. -/
def trapWaits (s : State) (x : Issuer) : Bool :=
  unconfirmed s x && (ctxOf s x).wfe.isNone &&
    ((pendingCause s x).isSome || (x == .kFirm && !s.fEvents.isEmpty && !s.firm.trp))

/-- A fault of a context of K waits for the checker to reach it (R117). -/
def faultQueued (s : State) (x : Issuer) : Bool :=
  isK x && s.checkq.any (fun c => c.firm == (x == .kFirm) && (match c.act with
    | .fault _ _ => true
    | _ => false))

/-- The stream may attempt its next word in this cycle; firmware of a service core that a debugger has stopped may not (R437). -/
def streamReady (s : State) (x : Issuer) : Bool :=
  let c := ctxOf s x
  c.run == .running && !c.stopped && (x != .kFirm || s.svcStop.isNone) && decide (c.notBefore ≤ s.now) && !trapWaits s x && !faultQueued s x && idleMet s x

/-- What a word that is no instruction of the stream raises (R53, R54). -/
def decodeTrap (w : Word) : DecodeFault → TrapInfo
  | .nullWord => ⟨.nullWord, 0, w⟩
  | .undef => ⟨.undef, 0, w⟩
  | .wrongStream st => ⟨.wrongStream, streamCode st * 0x10000, w⟩
  | .priv => ⟨.priv, 0, w⟩
  | .reservedField bit => ⟨.reservedField, bit * 0x10000, w⟩

/-- What stream x reads at its pc. -/
def fetch (s : State) (x : Issuer) : Except DecodeFault Instr := decode x (s.kind == .service) (wordOf (ctxOf s x))

/-- The stream would issue a word now, or meet a fault at one: what it does in its turn starts a word in this cycle, or
puts an action before the checker. -/
def issuesNow (s : State) (x : Issuer) : Bool :=
  streamReady s x && (match fetch s x with
    | .error _ => true
    | .ok i =>
      match exec i { s with turn := .issue x } with
      | .next t => (!(ctxOf t x).fresh && (ctxOf t x).lastIssue == s.now) || decide (s.checkq.length < t.checkq.length)
      | _ => true)

/-- Both contexts of K are ready to issue (R158). -/
def contested (s : State) : Bool :=
  streamReady s .kFirm && streamReady s .kTask && issuesNow s .kFirm && issuesNow s .kTask

/-- An F event, a double fault or a `sys.call` of the task waits for firmware: a stream is halted on it. -/
def eventWaits (s : State) : Bool :=
  taskStreams.any (fun x => match (ctxOf s x).run with
    | .halted _ _ _ => true
    | _ => false)

/-- Firmware issues in a contested cycle (R158). -/
def firmwareWins (s : State) : Bool :=
  if s.share = 0 then eventWaits s && s.taken == 0 else decide (s.taken < s.share.toNat)

/-- A stream issues in its turn of this cycle; a word of K that has issued goes on without a slot. -/
def mayIssue (s : State) (x : Issuer) : Bool :=
  streamReady s x && (match x with
    | .kTask => s.task.k.inFlight || (!s.kSlot && !(contested s && firmwareWins s))
    | .kFirm => s.firm.inFlight || !s.kSlot
    | _ => true)

/-- The chunk that C's vector word would run next faults: the fault comes before an interrupt there (R206, R222). -/
def chunkFaults (s : State) : Bool :=
  s.task.c.inFlight && (match fetch s .c with
    | .error _ => false
    | .ok i =>
      match exec i { s with turn := .issue .c } with
      | .next t => t.task.c.run != .running || (t.task.c.trp && !s.task.c.trp)
      | _ => false)

/-- A stream's interrupt, time-out or timer that comes before the landings of the cycle (R207). -/
def interruptEvent (s : State) : Option Instr :=
  if timerDue s then some .timerExpiry
  else match (.kFirm :: taskStreams).find? (wfeDue s) with
    | some x => some (.wfeTimeout x)
    | none =>
      ((.kFirm :: taskStreams).find? (fun x => takesInterrupt s x && !(x == .c && chunkFaults s))).map .takeInterrupt

/-- The first of the machine's own steps that is enabled in this cycle; what the environment decides comes from the
agenda alone. -/
def unitEvent (s : State) : Option Instr :=
  if !s.power then none
  else if !s.booted then some .powerOnBoot
  else match interruptEvent s with
    | some i => some i
    | none =>
      if s.task.latches.any (fun l => decide (l.land ≤ s.now)) then some .resultLanding
      else match accessPick s with
        | some i => some i
        | none =>
          if firmwareTakes s then some .fEventTake else serviceEvent s

/-- Whose turn follows. -/
def nextTurn : Turn → Turn
  | .unit => .issue .kTask
  | .issue .kTask => .issue .kFirm
  | .issue .kFirm => .issue .l
  | .issue .l => .issue .c
  | .issue .c => .issue .s
  | .issue .s => .tick
  | .tick => .unit

def advance (s : State) : State := { s with turn := nextTurn s.turn }

/-- Advance after a step that answers a next state. -/
def advanced : Out → Out
  | .next s => .next (advance s)
  | .fault r => .fault r
  | .refused r => .refused r

/-- A contested cycle that firmware takes counts against its share. -/
def takeSlot (x : Issuer) (s : State) : State :=
  if x == .kFirm && contested s then { s with taken := s.taken + 1 } else s

/-- A result of C has failed parity twice, and C would issue a new word (R210). -/
def latchFails (s : State) (x : Issuer) : Bool := x == .c && s.task.latchFail && !s.task.c.inFlight

/-- The turn of stream x: it runs the word at its pc, or faults on it. -/
def issueTurn (x : Issuer) (s : State) : Out :=
  if !mayIssue s x then .next (advance s)
  else match fetch s x with
    | .ok i =>
      if latchFails s x then
        .next (advance (takeTrap .c (trapOf .parityLasting) s.task.c.pc { s with task.latchFail := false }))
      else advanced (exec i (takeSlot x s))
    | .error f => .next (advance (faultHere x (decodeTrap (wordOf (ctxOf s x)) f) (takeSlot x s)))

/-! ### The end of a cycle -/

/-- The stream that pops a FIFO. -/
def consumerOf : Fifo → Issuer
  | .lk | .sk | .ck => .kTask
  | .kl | .cl => .l
  | .lc | .sc | .kc => .c
  | .cs | .ks => .s

/-- Token pushes that are due become tokens, and end the waits of their consumers (R124, R139). -/
def arriveTokens (s : State) : State :=
  let due := s.task.pushes.filter (fun p => decide (p.due ≤ s.now))
  due.foldl (fun s p => modCtx (consumerOf p.fifo) fireWfe (tokenAdd p.fifo p.n s))
    { s with task.pushes := s.task.pushes.filter (fun p => !decide (p.due ≤ s.now)) }

/-- The length of a cycle in 1/840 ns (R6, R425). -/
def cycleTime (s : State) : Nat := 3360 / Nat.max 1 s.clock

/-- The time bases run on; a backward correction of PTP time holds it for one cycle in a thousand (R410). -/
def passTime (s : State) : State :=
  let d := cycleTime s
  let hold := if s.now % 1000 = 0 then Nat.min s.slew.toNat d else 0
  { s with now := s.now + 1, timeBase := s.timeBase + d, ptp := s.ptp + (d - hold), slew := s.slew - hold }

/-- A Sluice's allowance grows by its rate, to its burst (R439). -/
def growAllowance (d : Nat) (e : Enclosure) : Enclosure :=
  { e with allowance := if e.allowance + (e.rate * d : Nat) ≤ (e.burst * msUnits : Nat) then e.allowance + (e.rate * d : Nat)
      else (e.burst * msUnits : Nat) }

/-- The loop budget steps down, from the cycle after a write on; its last step is BUDGET_EXPIRY (R113, R250, R430). -/
def stepBudget (s : State) : State :=
  if !s.task.alive || s.now < s.task.budgetFrom then s
  else if 1 < s.task.budget.toNat then { s with task.budget := s.task.budget - 1 }
  else if s.task.budget = 1 then { s with agenda := s.agenda ++ [.budgetExpiry] }
  else s

/-- A new cycle: K's slot is free, a debugger's stop may be over, and firmware's share counts anew in every frame of 256 cycles (R158). -/
def newCycle (s : State) : State :=
  { s with
    kSlot := false
    svcStop := s.svcStop.filter (fun t => decide (s.now < t))
    taken := if s.now % 256 = 0 then 0 else s.taken
    quietFrom := if quiet s then s.quietFrom else s.now
    task.landedNow := [] }

/-- A use of the task is still to be settled (R337). -/
def settling (s : State) : Bool :=
  s.tithe.any (fun r => r.id.isNone && !r.firm && r.key == keyOf s s.task.ctx && (match r.op with
    | .settle .. => true
    | _ => false))

/-- The task is over: open brackets end first, and the task ends once their uses are settled (R332, R337). -/
def closeTask (s : State) : State :=
  if !taskOver s then s
  else if s.task.brackets.toList.any (·.isOpen) then endBrackets s
  else if settling s then s
  else finishTask s

/-- A block of another core can enter its queue: its task holds this core, no image of its context waits for its restore, and
the queue has room beside what K has sent it (R133, R353). -/
def blockEnters (s : State) (b : Block) : Bool :=
  decide (b.due ≤ s.now) && s.task.alive && b.ctx == s.task.ctx && !s.saves.any (fun i => i.task.ctx == b.ctx) &&
    queueRoom s b.queue s.die.toNat s.core.toNat (blocksTo s b.queue + if b.queue = 0 then 0 else copiesDue s)

/-- The blocks that other cores have sent arrive in their order. -/
def takeBlocks : List Block → State → State
  | [], s => s
  | b :: rest, s =>
    if blockEnters s b then
      takeBlocks rest (deliver b.queue s.die.toNat s.core.toNat b.words { s with inbox := s.inbox.erase b })
    else takeBlocks rest s
def arriveBlocks (s : State) : State := takeBlocks s.inbox s

/-- The end of a cycle. -/
def tick (s : State) : State :=
  let s1 := dropLater (acknowledge (stepBudget (arriveBlocks (arriveTokens (applyFlushes s)))))
  let s2 := closeTask (stopAtSafe (fun x => x == .c && chunkFaults s1) s1)
  newCycle (passTime { s2 with enclosures := s2.enclosures.map (growAllowance (cycleTime s2)) })

/-! ### One step -/

/-- Steps of the machine and its environment, which no instruction word is. -/
def isEvent : Instr → Bool
  | .resultLanding | .checkedActionConfirm _ | .loadArrival _ | .accessPerformed _ | .slotJoin _ | .tlbInvalidate _ _ _
  | .matrixStep | .marker | .drain | .mceCommand | .copyStep | .fabricMatch _ _ _ | .fabricFrame _ _ _
  | .fabricLinkFail _ | .titheDecide | .meterStatement | .kvDecide | .barrierPhaseComplete _ | .timerExpiry
  | .budgetExpiry | .wfeTimeout _ | .attn _ | .takeInterrupt _ | .fEventTake | .noiseReseed _ | .sluicePass _
  | .hungDetect | .preemptDemand | .engineSavePoint | .partitionSave | .partitionRestore | .qtailWrite _ _ _ _
  | .registerWrite _ _ _ | .packetCheck _ _ | .timedStart | .groupPlace _ | .gatedAdmit | .completionRecord _
  | .imemRepair _ _ | .dieHold _ | .schedRestart _ | .claim _ _ | .beat _ | .release _ | .leaseExpiry
  | .defineEnclosure _ | .registerModel _ | .replace _ _ _ | .waveLayer _ | .firmwareStage _ | .firmwareActivate
  | .ownerKeyRegistry _ _ | .fabricRoute _ _ | .tidelineTrim _ | .tidelineSeal | .contextCreate _ _ _
  | .contextDestroy _ | .extend _ _ | .foreshoreSplit _ _ | .installTerms _ | .hostWrite _ _ _ _ | .hostRead _ _ _
  | .getVersion | .getCapabilities | .negotiateAlgorithms | .getDigests | .getCertificate | .challenge
  | .getMeasurements | .ptpCorrection _ | .powerOnBoot | .deviceReset | .powerLoss | .thermalTrip | .clockThrottle _
  | .cxlAgentAccess _ _ | .softError _ | .cryptoUnitResult => true
  | _ => false

/-- A step that comes from the agenda; an instruction word there is dropped. -/
def agendaStep (i : Instr) (s : State) : Out := if isEvent i then exec i s else .next s

/-- A step by whose turn it is; K's actions and the engines come at the end of a cycle. -/
def turnStep (s : State) : Out :=
  match s.turn with
  | .unit =>
    match unitEvent s with
    | some i => exec i s
    | none => .next (advance s)
  | .issue x => issueTurn x s
  | .tick =>
    match endEvent s with
    | some i => exec i s
    | none => .next (advance (tick s))

/-- One step of the machine: what stands on the agenda, else the step whose turn it is; without power, or before it has
booted, no stream issues and only the machine's own steps run. -/
def machineStep (s : State) : Out :=
  match s.agenda with
  | i :: rest => agendaStep i { s with agenda := rest }
  | [] => if s.power && s.booted then turnStep s
    else match unitEvent s with
      | some i => exec i s
      | none => .next s

/-! ### Placing a word (log 1) -/

/-- A stream that stands before its next word and may issue it in this cycle. -/
def standReady (c : Ctx) : Ctx :=
  { c with
    run := .running, blocked := false, stopped := false, lastIssue := 0, fresh := true, notBefore := 0, popped := none, inFlight := false
    asked := none, wfe := none, busy := [], bad := [] }

/-- The first stream on which a word is an instruction, and whether it needs the service core. -/
def issuerFor (w : Word) : Issuer × Bool :=
  match firstAccept w issuersInOrder with
  | some (x, svc, _) => (x, svc)
  | none => (.kTask, false)

/-- A word put at the pc of the first stream on which it is an instruction, whose turn it is. -/
def placeWord (w : Word) (s : State) : State :=
  let p := issuerFor w
  let c := standReady (ctxOf s p.1)
  let c1 := { c with imem := memWrite c.imem c.pc.toNat (leBytes 8 w.toNat) }
  setCtx p.1 c1 { s with
    agenda := []
    turn := .issue p.1
    now := Nat.max s.now 1024
    power := true
    booted := true
    preempt := false
    svcStop := none
    kSlot := false
    kind := if p.2 then .service else s.kind
    checkq := []
    task.alive := true
    task.latchFail := false
    task.vprog := none }

end Sys2Proof.Machine
end

