-- ==== Sys2Proof/Safety.lean ====
section
/-! DEFINITION. The terms of the claims: when a word issues and acts, what a word leaves as it was, and what every state
of a safe run satisfies. -/

namespace Sys2Proof.Machine

/-! ### Memories in canonical form -/

/-- The memories of a task are in canonical form. -/
def Task.MemWf (t : Task) : Prop :=
  memWf t.k.imem = true ∧ memWf t.l.imem = true ∧ memWf t.c.imem = true ∧ memWf t.s.imem = true

/-- Every memory of the machine is in canonical form. -/
def State.MemWf (s : State) : Prop :=
  memWf s.mem = true ∧ memWf s.spad = true ∧ memWf s.firm.imem = true ∧ s.task.MemWf ∧ ∀ i ∈ s.saves, i.task.MemWf

/-! ### Instruction addresses -/

def Ctx.Aligned (c : Ctx) : Prop := c.pc.toNat % 8 = 0
def Task.Aligned (t : Task) : Prop := t.k.Aligned ∧ t.l.Aligned ∧ t.c.Aligned ∧ t.s.Aligned

/-- Every stream stands at a word, and so does every context that a failed check or a restore brings back, and every fault that
waits for the checker. -/
def State.Aligned (s : State) : Prop :=
  s.task.Aligned ∧ s.firm.Aligned ∧ (∀ c ∈ s.checkq, c.snap.Aligned) ∧
    (∀ c ∈ s.checkq, ∀ t pc, c.act = .fault t pc → pc.toNat % 8 = 0) ∧ ∀ i ∈ s.saves, i.task.Aligned

/-! ### A word that issues and acts -/

/-- The tokens that a word takes and pushes: those of its TOK bits and its own (R39, R40). -/
def takes (x : Issuer) (h : Hdr) (own : List (Fifo × Nat)) (s : State) : List (Fifo × Nat) :=
  popsOf (ctxOf s x) (headerPops h x.stream ++ own)
def pushesOf (x : Issuer) (h : Hdr) (own : List (Fifo × Nat)) : List (Fifo × Nat) := headerPushes h x.stream ++ own

/-- Stream x may issue the word with this header, its guard is true, and its operands are readable: it is the stream's
turn; on K the checker is less than 64 words behind (R118); the guard's predicate and the operands are ready and pass
parity (R88, R121); the tokens to take are there and those to push find room (R40, R125). -/
structure Issues (x : Issuer) (h : Hdr) (ownPush ownTake : List (Fifo × Nat)) (reads : List Nat) (s : State) : Prop where
  turn     : s.turn = .issue x
  checker  : (isK x && s.checkq.head?.any (fun a => decide (a.word + 64 ≤ s.words))) = false
  ready    : hazard s x (if h.pq = 0 then [] else [64 + h.pq.toNat]) = .ready
  guard    : guardOf s h = true
  tokens   : popsReady s (takes x h ownTake s) = true
  room     : overflowOf s (pushesOf x h ownPush) = none
  operands : hazard s x reads = .ready

/-- The same without tokens of its own. -/
abbrev Acts (x : Issuer) (h : Hdr) (reads : List Nat) (s : State) : Prop := Issues x h [] [] reads s

/-- The state after a word that has finished: `s'` is the effect of its body on the state `s` where it stood. -/
def finished (x : Issuer) (h : Hdr) (s s' : State) (lat : Nat) : State :=
  settle x (takes x h [] s) (pushesOf x h []) s (.done s' lat)

/-! ### Instruction words -/

/-- The header of an instruction word, with its guard; `sel` and `esel` have none (R48, R95). Steps that no word encodes
have no header. -/
def header : Instr → Option Hdr
  | .nop h => some h
  | .li h _ _ => some h
  | .lih h _ _ => some h
  | .alu h _ _ _ _ => some h
  | .addi h _ _ _ => some h
  | .andi h _ _ _ => some h
  | .ori h _ _ _ => some h
  | .xori h _ _ _ => some h
  | .shli h _ _ _ => some h
  | .shri h _ _ _ => some h
  | .sari h _ _ _ => some h
  | .muli h _ _ _ => some h
  | .cmp h _ _ _ _ => some h
  | .cmpi h _ _ _ _ => some h
  | .plog h _ _ _ _ => some h
  | .sel h _ _ _ => some (Hdr.noGuard h)
  | .lea h _ _ _ _ => some h
  | .br h _ => some h
  | .call h _ => some h
  | .jr h _ _ => some h
  | .loop h _ _ => some h
  | .endl h _ _ => some h
  | .safe h => some h
  | .endT h => some h
  | .ldk h _ _ _ _ _ => some h
  | .stk h _ _ _ _ _ => some h
  | .lds h _ _ _ _ => some h
  | .sts h _ _ _ _ => some h
  | .rsr h _ _ => some h
  | .wsr h _ _ => some h
  | .epush h _ _ => some h
  | .epop h _ _ => some h
  | .ecountOut h _ _ => some h
  | .ecountIn h _ _ => some h
  | .rnd h _ => some h
  | .tkp h _ _ => some h
  | .tkw h _ _ => some h
  | .tkc h _ _ => some h
  | .bar h _ => some h
  | .bara h _ => some h
  | .barw h _ => some h
  | .renq h _ _ => some h
  | .amo h _ _ _ _ _ _ => some h
  | .fence h _ _ => some h
  | .mark h => some h
  | .wfe h _ => some h
  | .sysCall h _ => some h
  | .sysResume h _ => some h
  | .sysKill h _ => some h
  | .sysTmr h _ _ => some h
  | .trap h _ => some h
  | .brk h _ => some h
  | .rfi h => some h
  | .ld h _ _ _ _ _ _ => some h
  | .ldp h _ _ _ _ _ => some h
  | .ldi h _ _ _ _ _ => some h
  | .ldg h _ _ _ _ _ _ _ => some h
  | .ldr h _ _ _ _ _ => some h
  | .ldw h _ _ _ _ => some h
  | .pf h _ _ _ => some h
  | .st h _ _ _ _ _ => some h
  | .stp h _ _ _ _ _ => some h
  | .stg h _ _ _ _ _ _ => some h
  | .stw h _ _ _ _ => some h
  | .stt h _ _ _ _ _ _ => some h
  | .qfl h _ => some h
  | .qln h _ _ => some h
  | .fop h _ _ _ _ => some h
  | .fma h _ _ _ _ => some h
  | .fnma h _ _ _ _ => some h
  | .frcp h _ _ => some h
  | .frsq h _ _ => some h
  | .frfr h _ _ _ => some h
  | .frfs h _ _ _ => some h
  | .fcmp h _ _ _ _ => some h
  | .icmp h _ _ _ _ => some h
  | .fcvt h _ _ _ _ _ => some h
  | .iop h _ _ _ _ => some h
  | .eli h _ _ => some h
  | .elih h _ _ => some h
  | .emov h _ _ => some h
  | .esel h _ _ _ => some (Hdr.noGuard h)
  | .rot h _ => some h
  | .lbr h _ _ => some h
  | .eld h _ _ _ => some h
  | .est h _ _ _ => some h
  | .vop h _ _ _ _ _ => some h
  | .vfma h _ _ _ _ _ _ => some h
  | .vsc h _ _ _ _ _ => some h
  | .vun h _ _ _ _ => some h
  | .vcvt h _ _ _ => some h
  | .vred h _ _ _ _ => some h
  | .vscan h _ _ _ _ => some h
  | .vcmp h _ _ _ _ _ => some h
  | .vsel h _ _ _ _ => some h
  | .vcpr h _ _ _ _ => some h
  | .vxpd h _ _ _ _ => some h
  | .vgat h _ _ _ _ => some h
  | .vsct h _ _ _ _ => some h
  | .vsca h _ _ _ _ => some h
  | .vfill h _ _ _ => some h
  | .vrnd h _ _ => some h
  | .vhad h _ _ _ _ _ => some h
  | .vqnt h _ _ _ _ => some h
  | .vdqt h _ _ _ _ => some h
  | .vtopk h _ _ _ _ => some h
  | .vsamp h _ _ _ _ => some h
  | .vsoft h _ _ => some h
  | .wset h _ _ _ => some h
  | .wget h _ _ _ => some h
  | .vbit h _ _ _ _ _ _ _ => some h
  | .vmov h _ _ => some h
  | .mtw h _ _ _ => some h
  | .mtr h _ _ _ => some h
  | .mcfg h _ _ => some h
  | .mfmt h _ => some h
  | .mgo h _ _ _ => some h
  | .mtile h _ _ _ => some h
  | .mwait h => some h
  | .mzero h _ => some h
  | .mdrain h _ _ _ _ => some h
  | .mtsm h => some h
  | .fset h _ _ => some h
  | .fget h _ _ _ => some h
  | .fdrop h _ _ => some h
  | .hgen h _ _ => some h
  | .hgenRel h _ => some h
  | .hchk h _ _ _ => some h
  | .hfix h _ _ _ => some h
  | .hupd h _ _ => some h
  | .hrd h _ _ => some h
  | .htol h _ => some h
  | .mccfg h _ _ _ => some h
  | .mccfgRst h => some h
  | .mcld h _ _ _ _ => some h
  | .mcldL h _ _ _ => some h
  | .mcldR h _ _ _ _ => some h
  | .mcst h _ _ _ _ _ => some h
  | .mccmp h _ _ _ => some h
  | .mctree h _ _ _ => some h
  | .mcapp h _ _ _ => some h
  | .mcappT h _ _ _ => some h
  | .mcmsk h _ _ _ _ => some h
  | .mcchk h _ _ _ => some h
  | .thopen h _ _ => some h
  | .thclose h _ => some h
  | .thabort h _ => some h
  | .thbind h _ _ => some h
  | .thbindR h _ _ => some h
  | .thrd h _ _ _ => some h
  | .thstm h _ _ _ => some h
  | .cpy h _ _ _ => some h
  | .cpy2 h _ _ _ => some h
  | .cpres h => some h
  | .cpresDrop h => some h
  | .cpwait h => some h
  | .fxs h _ _ _ => some h
  | .fxr h _ _ _ => some h
  | .fxred h _ _ _ => some h
  | .fxwait h => some h
  | .tsat h _ => some h
  | .tsatWait h _ => some h
  | .hshInit h _ => some h
  | .hsh h _ _ => some h
  | .hfin h _ _ _ _ => some h
  | .sgn h _ => some h
  | .vfy h _ _ => some h
  | .mext h _ _ => some h
  | .mextRd h _ _ => some h
  | .kunw h _ _ _ => some h
  | .pxlk h _ _ => some h
  | .pxlkAcq h _ _ => some h
  | .pxins h _ _ => some h
  | .pxrefAdd h _ _ => some h
  | .pxrefDrop h _ _ => some h
  | .pxevc h _ _ => some h
  | .kvpgAlloc h _ _ => some h
  | .kvpgFree h _ _ => some h
  | .kvpgRel h _ _ => some h
  | .kvpgAck h _ _ => some h
  | .resultLanding => none
  | .checkedActionConfirm _ => none
  | .loadArrival _ => none
  | .accessPerformed _ => none
  | .slotJoin _ => none
  | .tlbInvalidate _ _ _ => none
  | .matrixStep => none
  | .marker => none
  | .drain => none
  | .mceCommand => none
  | .copyStep => none
  | .fabricMatch _ _ _ => none
  | .fabricFrame _ _ _ => none
  | .fabricLinkFail _ => none
  | .titheDecide => none
  | .meterStatement => none
  | .kvDecide => none
  | .barrierPhaseComplete _ => none
  | .timerExpiry => none
  | .budgetExpiry => none
  | .wfeTimeout _ => none
  | .attn _ => none
  | .takeInterrupt _ => none
  | .fEventTake => none
  | .noiseReseed _ => none
  | .sluicePass _ => none
  | .hungDetect => none
  | .preemptDemand => none
  | .engineSavePoint => none
  | .partitionSave => none
  | .partitionRestore => none
  | .qtailWrite _ _ _ _ => none
  | .registerWrite _ _ _ => none
  | .packetCheck _ _ => none
  | .timedStart => none
  | .groupPlace _ => none
  | .gatedAdmit => none
  | .completionRecord _ => none
  | .imemRepair _ _ => none
  | .dieHold _ => none
  | .schedRestart _ => none
  | .claim _ _ => none
  | .beat _ => none
  | .release _ => none
  | .leaseExpiry => none
  | .defineEnclosure _ => none
  | .registerModel _ => none
  | .replace _ _ _ => none
  | .waveLayer _ => none
  | .firmwareStage _ => none
  | .firmwareActivate => none
  | .ownerKeyRegistry _ _ => none
  | .fabricRoute _ _ => none
  | .tidelineTrim _ => none
  | .tidelineSeal => none
  | .contextCreate _ _ _ => none
  | .contextDestroy _ => none
  | .extend _ _ => none
  | .foreshoreSplit _ _ => none
  | .installTerms _ => none
  | .hostWrite _ _ _ _ => none
  | .hostRead _ _ _ => none
  | .getVersion => none
  | .getCapabilities => none
  | .negotiateAlgorithms => none
  | .getDigests => none
  | .getCertificate => none
  | .challenge => none
  | .getMeasurements => none
  | .ptpCorrection _ => none
  | .powerOnBoot => none
  | .deviceReset => none
  | .powerLoss => none
  | .thermalTrip => none
  | .clockThrottle _ => none
  | .cxlAgentAccess _ _ => none
  | .softError _ => none
  | .cryptoUnitResult => none

/-! ### What a word leaves as it was -/

/-- Register n of stream x as a word reads it (R14). -/
def regOf (x : Issuer) (s : State) (n : BitVec 6) : Word := if n = 0 then 0 else (ctxOf s x).regs[n.toNat]

/-- A context without what the issue of a word itself changes: the pc, the spacing of issues, the pops taken and what
they order, a load that waits, and which registers are ready, repaired or replayed. -/
def Ctx.still (c : Ctx) : Ctx :=
  { c with
    pc := 0, blocked := false, inFlight := false, lastIssue := 0, fresh := false, popped := none, asked := none, tried := none, epoch := 0
    busy := [], bad := [], replay := [] }

/-- The machine without the context of stream x and what the issue of a word of x itself changes: tokens, pushes, the
compare queue, K's count of words and its slot, C's vector progress. -/
def State.rest (x : Issuer) (s : State) : State :=
  setCtx x Ctx.reset { s with
    checkq := if isK x then [] else s.checkq
    words := if isK x then 0 else s.words
    kSlot := if isK x then false else s.kSlot
    task.tokens := Vector.replicate 10 0
    task.pushes := if isK x then s.task.pushes else []
    task.vprog := if x == .c then none else s.task.vprog }

/-- `t` follows from `s` by a word of stream x whose whole effect is that of `e`, and goes on at `pc`. Every byte of
memory and scratchpad, every register and every other part of the machine is as `e` has it. -/
structure After (x : Issuer) (e t : State) (pc : Pc) : Prop where
  pc    : (ctxOf t x).pc = pc
  ctx   : (ctxOf t x).still = (ctxOf e x).still
  rest  : t.rest x = e.rest x

/-- The machine-wide registers that a word writes only where its rule says so: sr.share, sr.budget, sr.arg, sr.lidx,
C's rotation configuration, the tolerance SLACK, the row flags. -/
def State.special (s : State) : BitVec 8 × BitVec 8 × Word × Word × Word × (BitVec 7 × BitVec 7 × BitVec 4 × BitVec 10) × BitVec 16 × BitVec 64 :=
  (s.share, s.shareView, s.task.budget, s.task.arg, s.task.lidx, (s.task.rbase, s.task.rsize, s.task.epi, s.task.roff), s.task.slack,
    s.task.rowFlags)

/-- Nothing that holds a value of the program has changed but in the context of stream x: every byte of memory and of
scratchpad, the other streams, the special registers, C's element registers and windows, the accumulators, the furrows. -/
structure Keeps (x : Issuer) (s t : State) : Prop where
  mem      : ∀ a, memGet t.mem a = memGet s.mem a
  spad     : ∀ a, memGet t.spad a = memGet s.spad a
  streams  : ∀ y, y ≠ x → ctxOf t y = ctxOf s y
  special  : t.special = s.special
  elements : t.task.e = s.task.e ∧ t.task.w = s.task.w
  accs     : t.task.mx.acc = s.task.mx.acc
  furrows  : t.task.furrows = s.task.furrows

/-- A word of stream x changed nothing that holds a value of the program, not even in its own context, and goes on at
`pc`. -/
structure Unchanged (x : Issuer) (pc : Pc) (s t : State) : Prop where
  ctx    : (ctxOf t x).still = (ctxOf s x).still
  keeps  : Keeps x s t
  pc     : (ctxOf t x).pc = pc

/-- A word of stream x wrote v to register d and goes on at `pc`: register 0 stays zero; every other register, predicate,
loop counter, special and exception register of the stream is unchanged, and so is all that `Keeps` names. -/
structure WroteReg (x : Issuer) (d : BitVec 6) (v : Word) (pc : Pc) (s t : State) : Prop where
  value  : regOf x t d = if d = 0 then 0 else v
  others : ∀ r, r ≠ d → regOf x t r = regOf x s r
  preds  : (ctxOf t x).preds = (ctxOf s x).preds
  loops  : (ctxOf t x).lc = (ctxOf s x).lc ∧ (ctxOf t x).ls = (ctxOf s x).ls
  ctx    : { (ctxOf t x).still with regs := (ctxOf s x).regs } = (ctxOf s x).still
  keeps  : Keeps x s t
  pc     : (ctxOf t x).pc = pc

/-- A word of stream x wrote v to predicate p and goes on at `pc`; p0 stays true; nothing else has changed. -/
structure WrotePred (x : Issuer) (p : BitVec 4) (v : Bool) (pc : Pc) (s t : State) : Prop where
  value  : ctxPred (ctxOf t x) p = if p = 0 then true else v
  others : ∀ q, q ≠ p → ctxPred (ctxOf t x) q = ctxPred (ctxOf s x) q
  ctx    : { (ctxOf t x).still with preds := (ctxOf s x).preds } = (ctxOf s x).still
  keeps  : Keeps x s t
  pc     : (ctxOf t x).pc = pc

/-- A word of stream x set the loop counters to `lc` and the loop starts to `ls` and goes on at `pc`, from cycle
`notBefore` on where it says so; nothing else has changed. -/
structure WroteLoops (x : Issuer) (lc : Vector (BitVec 32) 8) (ls : Vector Pc 8) (pc : Pc) (notBefore : Nat) (s t : State) :
    Prop where
  counts : (ctxOf t x).lc = lc
  starts : (ctxOf t x).ls = ls
  ctx    : { (ctxOf t x).still with lc := (ctxOf s x).lc, ls := (ctxOf s x).ls, notBefore := (ctxOf s x).notBefore } =
    (ctxOf s x).still
  after  : (ctxOf t x).notBefore = notBefore
  keeps  : Keeps x s t
  pc     : (ctxOf t x).pc = pc

/-- The word of K that issues in `s` put these actions into the compare queue, and after them the token pushes of the
word, `own` among them; none is performed in the first four cycles (R116, R126). -/
def Queued (x : Issuer) (h : Hdr) (own : List (Fifo × Nat)) (acts : List Action) (s t : State) : Prop :=
  ∃ cs, t.checkq = s.checkq ++ cs ∧
    cs.map (·.act) = acts ++ (pushesOf x h own).map (fun p => Action.tokens p.1 p.2) ∧
    ∀ c ∈ cs, s.now + 4 ≤ c.due ∧ c.cycle = s.now ∧ c.firm = (x == .kFirm)

/-- A word of L or S issued an access of the given class and address, whose kind satisfies P: it is the last of the issued
accesses, with the word's cycle, marks, pc and pushes. -/
def IssuedAccess (x : Issuer) (h : Hdr) (isLoad : Bool) (ac : BitVec 3) (va : Word) (P : AccessKind → Prop) (s t : State) :
    Prop :=
  ∃ a, t.task.accesses = s.task.accesses ++ [a] ∧ a.isLoad = isLoad ∧ a.cycle = s.now ∧ a.ac = ac ∧ a.va = va ∧
    a.marks = (ctxOf s x).marks ∧ a.pc = (ctxOf s x).pc ∧ a.pushes = pushesOf x h [] ∧ P a.kind

/-- A word of C sent the result v to its destination, bound now, to land `lat` cycles later: a register as it is mapped
now, or a slot of a queue that is reserved now (R188, R192, R194). -/
def Landing (ed : EOp) (v : Elem) (lat : Nat) (s t : State) : Prop :=
  ∃ l, t.task.latches = s.task.latches ++ [l] ∧ l.val = v ∧ l.land = s.now + lat ∧ l.corrupt = none ∧
    match ed with
    | .e n => l.dest = .reg (mapE s n)
    | .sq n => ∃ k, l.dest = .queue (sqIdx n) k ∧ qOf t (sqIdx n) = qOf s (sqIdx n) ++ [⟨k, none, none, none⟩]
    | .iq n => ∃ k, l.dest = .queue (iqIdx n) k ∧ qOf t (iqIdx n) = qOf s (iqIdx n) ++ [⟨k, none, none, none⟩]
    | _ => False

/-- The address of the next word of stream x. -/
def nextPc (x : Issuer) (s : State) : Pc := (ctxOf s x).pc + 8

/-- Executing i at s answers a next state, of which P holds. -/
def Answers (i : Instr) (s : State) (P : State → Prop) : Prop := ∃ t, exec i s = .next t ∧ P t

end Sys2Proof.Machine
end

