-- ==== Sys2Proof/Certificates/Slice0/Obligations.lean ====
section
/-! DEFINITION. The statements for the provers, family by family. `Acts x h reads s` says that stream x may issue the word
with header h in its turn and that its guard is true; `Answers i s P` that executing i at s answers a next state of which P
holds. -/

open Sys2Proof Sys2Proof.Machine

/-! ### Control (chapter 04) -/

/-- R89, R92, R95, R96: the words that compute one register. Each writes its value to d, goes on at the next word, and
changes nothing else. `sel` always executes. -/
def Obligations.RegisterWordsWrite : Prop := ∀ (x : Issuer) (s : State) (h : Hdr) (d a b : BitVec 6),
  let wrote (v : Word) : State → Prop := WroteReg x d v (nextPc x s) s
  let ra := regOf x s a
  let rb := regOf x s b
  (∀ imm, Acts x h [] s → Answers (.li h d imm) s (wrote (imm.signExtend 64))) ∧
  (∀ imm, Acts x h [rId d] s → Answers (.lih h d imm) s (wrote (imm ++ (regOf x s d).setWidth 32))) ∧
  (∀ imm, Acts x h [rId a] s → Answers (.addi h d a imm) s (wrote (ra + imm.signExtend 64))) ∧
  (∀ imm, Acts x h [rId a] s → Answers (.andi h d a imm) s (wrote (ra &&& imm.signExtend 64))) ∧
  (∀ imm, Acts x h [rId a] s → Answers (.ori h d a imm) s (wrote (ra ||| imm.signExtend 64))) ∧
  (∀ imm, Acts x h [rId a] s → Answers (.xori h d a imm) s (wrote (ra ^^^ imm.signExtend 64))) ∧
  (∀ imm, Acts x h [rId a] s → Answers (.muli h d a imm) s (wrote (ra * imm.signExtend 64))) ∧
  (∀ n, Acts x h [rId a] s → Answers (.shli h d a n) s (wrote (ra <<< n.toNat))) ∧
  (∀ n, Acts x h [rId a] s → Answers (.shri h d a n) s (wrote (ra >>> n.toNat))) ∧
  (∀ n, Acts x h [rId a] s → Answers (.sari h d a n) s (wrote (ra.sshiftRight n.toNat))) ∧
  (Acts x (Hdr.noGuard h) [rId a, rId b, pId h.pq] s →
    Answers (.sel h d a b) s (wrote (if ctxPred (ctxOf s x) h.pq != h.neg then ra else rb))) ∧
  (∀ n, Acts x h [rId a, rId b] s → Answers (.lea h n d a b) s (wrote (ra + (rb <<< n.toNat))))

/-- R90: the binary and the unary forms of `alu` write the result of their function (of the divisions:
DivisionValues) to d and change nothing else.

The results of the functions but for the divisions: -/
def Obligations.AluWritesItsResult : Prop :=
  (∀ (x : Issuer) (s : State) (h : Hdr) (fn : AluFn) (d a b : BitVec 6),
    Acts x h (if fn.unary then [rId a] else [rId a, rId b]) s →
      Answers (.alu h fn d a b) s (WroteReg x d (aluFn fn (regOf x s a) (regOf x s b)) (nextPc x s) s)) ∧
  (∀ a b : Word,
    (aluFn .add a b).toNat = (a.toNat + b.toNat) % 2 ^ 64 ∧
    (aluFn .sub a b).toNat = (a.toNat + (2 ^ 64 - b.toNat)) % 2 ^ 64 ∧
    (∀ i, i < 64 →
      (aluFn .and a b).getLsbD i = (a.getLsbD i && b.getLsbD i) ∧
      (aluFn .or a b).getLsbD i = (a.getLsbD i || b.getLsbD i) ∧
      (aluFn .xor a b).getLsbD i = (a.getLsbD i != b.getLsbD i) ∧
      (aluFn .andn a b).getLsbD i = (a.getLsbD i && !b.getLsbD i) ∧
      (aluFn .shl a b).getLsbD i = (decide (b.toNat % 64 ≤ i) && a.getLsbD (i - b.toNat % 64)) ∧
      (aluFn .shr a b).getLsbD i = a.getLsbD (i + b.toNat % 64) ∧
      (aluFn .sar a b).getLsbD i = a.getLsbD (Nat.min (i + b.toNat % 64) 63) ∧
      (aluFn .rol a b).getLsbD ((i + b.toNat % 64) % 64) = a.getLsbD i ∧
      (aluFn .bswap a b).getLsbD i = a.getLsbD (8 * (7 - i / 8) + i % 8) ∧
      (aluFn .sxb a b).getLsbD i = a.getLsbD (Nat.min i 7) ∧
      (aluFn .sxh a b).getLsbD i = a.getLsbD (Nat.min i 15) ∧
      (aluFn .sxw a b).getLsbD i = a.getLsbD (Nat.min i 31)) ∧
    (aluFn .mul a b).toNat = a.toNat * b.toNat % 2 ^ 64 ∧
    (aluFn .mulh a b).toInt = a.toInt * b.toInt / 2 ^ 64 ∧
    (aluFn .mulhz a b).toNat = a.toNat * b.toNat / 2 ^ 64 ∧
    (aluFn .min a b).toInt = min a.toInt b.toInt ∧
    (aluFn .max a b).toInt = max a.toInt b.toInt ∧
    (aluFn .minz a b).toNat = min a.toNat b.toNat ∧
    (aluFn .maxz a b).toNat = max a.toNat b.toNat ∧
    (∃ n, n ≤ 64 ∧ (aluFn .clz a b).toNat = n ∧ a.toNat < 2 ^ (64 - n) ∧ (n < 64 → 2 ^ (63 - n) ≤ a.toNat)) ∧
    (∃ n, n ≤ 64 ∧ (aluFn .ctz a b).toNat = n ∧ (∀ i, i < n → a.getLsbD i = false) ∧ (n < 64 → a.getLsbD n = true)) ∧
    (aluFn .popc a b).toNat = (List.range 64).countP (fun i => a.getLsbD i))

/-- R91: the four division functions never trap, and write to d: by zero, for the one quotient that overflows, and for every
other pair. -/
def Obligations.DivisionValues : Prop :=
  (∀ (x : Issuer) (s : State) (h : Hdr) (fn : AluFn) (d a b : BitVec 6), fn ∈ [AluFn.div, .divz, .rem, .remz] →
    Acts x h [rId a, rId b] s →
      Answers (.alu h fn d a b) s (WroteReg x d (aluFn fn (regOf x s a) (regOf x s b)) (nextPc x s) s)) ∧
  ∀ a b : Word,
  (b = 0 → aluFn .div a b = 0xFFFFFFFFFFFFFFFF ∧ aluFn .divz a b = 0xFFFFFFFFFFFFFFFF ∧ aluFn .rem a b = a ∧
    aluFn .remz a b = a) ∧
  (a = 0x8000000000000000 → b = 0xFFFFFFFFFFFFFFFF → aluFn .div a b = a ∧ aluFn .rem a b = 0) ∧
  (b ≠ 0 → ¬(a = 0x8000000000000000 ∧ b = 0xFFFFFFFFFFFFFFFF) →
    (aluFn .div a b).toInt = a.toInt.tdiv b.toInt ∧ (aluFn .rem a b).toInt = a.toInt - a.toInt.tdiv b.toInt * b.toInt) ∧
  (b ≠ 0 → (aluFn .divz a b).toNat = a.toNat / b.toNat ∧ (aluFn .remz a b).toNat = a.toNat % b.toNat)

/-- R93, R94: `cmp`, `cmpi` and `plog` write one predicate, a pd of 0 discards the result, and nothing else changes. -/
def Obligations.PredicateWordsWrite : Prop := ∀ (x : Issuer) (s : State) (h : Hdr) (p pa pb : BitVec 4) (a b : BitVec 6),
  let relation (cc : CmpCc) (u v : Word) : Bool := match cc with
    | .eq => decide (u = v)
    | .ne => decide (u ≠ v)
    | .lt => decide (u.toInt < v.toInt)
    | .ge => decide (v.toInt ≤ u.toInt)
    | .ltz => decide (u.toNat < v.toNat)
    | .gez => decide (v.toNat ≤ u.toNat)
  let logic (fn : PlogFn) (u v : Bool) : Bool := match fn with
    | .pand => u && v
    | .por => u || v
    | .pxor => xor u v
    | .pandn => u && !v
    | .pmov => u
  (∀ cc, Acts x h [rId a, rId b] s →
    Answers (.cmp h cc p a b) s (WrotePred x p (relation cc (regOf x s a) (regOf x s b)) (nextPc x s) s)) ∧
  (∀ cc imm, Acts x h [rId a] s →
    Answers (.cmpi h cc p a imm) s (WrotePred x p (relation cc (regOf x s a) (imm.signExtend 64)) (nextPc x s) s)) ∧
  (∀ fn, Acts x h (if fn = .pmov then [pId pa] else [pId pa, pId pb]) s →
    Answers (.plog h fn p pa pb) s
      (WrotePred x p (logic fn (ctxPred (ctxOf s x) pa) (ctxPred (ctxOf s x) pb)) (nextPc x s) s))

/-- R97, R98: `br` and `call` transfer to PC + 8 × off modulo 2^17, `jr` to the value of a read before d is written; `call`
and `jr` write PC + 8 to their link. A target of `jr` that is no instruction address is a precise fault ALIGN at the `jr`
with the target as its operand. -/
def Obligations.TransfersGo : Prop := ∀ (x : Issuer) (s : State) (h : Hdr) (off : BitVec 32) (d a : BitVec 6),
  let pc := (ctxOf s x).pc
  let target : Pc := BitVec.ofInt 17 (pc.toNat + 8 * off.toInt)
  let ra := regOf x s a
  (Acts x h [] s → Answers (.br h off) s (fun t => After x s t target)) ∧
  (Acts x h [] s → Answers (.call h off) s (WroteReg x 63 ((pc + 8).setWidth 64) target s)) ∧
  (Acts x h [rId a] s → ra.toNat % 8 = 0 → ra.toNat < 2 ^ 17 →
    Answers (.jr h d a) s (WroteReg x d ((pc + 8).setWidth 64) (ra.setWidth 17) s)) ∧
  (Acts x h [rId a] s → ¬(ra.toNat % 8 = 0 ∧ ra.toNat < 2 ^ 17) →
    exec (.jr h d a) s = .next (faultHere x ⟨.align, 0, ra⟩ s))

/-- R99, R100, R101: `loop` sets its counter and its loop start and goes on; with a count of 0 it goes on after the first
word behind it that ends a loop over that counter (an `endl`, on C also an `lbr`, R191), one cycle for each word it has
passed; `endl` counts down and goes back, or clears the counter and goes on. (What the manual leaves to inference here is
the model's reading: log 20.) -/
def Obligations.LoopsRun : Prop := ∀ (x : Issuer) (s : State) (h : Hdr) (n : BitVec 3) (src : LoopSrc) (off : BitVec 32),
  let c := ctxOf s x
  let count : BitVec 32 := match src with
    | .imm v => v
    | .reg r => (regOf x s r).setWidth 32
    | .ereg e => getE s e
  let reads : List Nat := match src with
    | .imm _ => []
    | .reg r => [rId r]
    | .ereg e => [eId s e]
  let word (j : Nat) : Word := fetchWord c.imem (c.pc + BitVec.ofNat 17 (8 * j))
  let ends (w : Word) : Prop :=
    (w.extractLsb' 42 8 = 0x16 ∨ (x = .c ∧ w.extractLsb' 42 8 = 0x70)) ∧ w.extractLsb' 32 3 = n
  let v := c.lc[n.toNat]
  (Acts x h reads s → count ≠ 0 →
    Answers (.loop h n src) s
      (WroteLoops x (c.lc.set n.toNat count) (c.ls.set n.toNat (c.pc + 8)) (nextPc x s) c.notBefore s)) ∧
  (∀ k, Acts x h reads s → count = 0 → k < 16383 → (∀ j, j < k → word (j + 1) ≠ 0 ∧ ¬ends (word (j + 1))) →
    ends (word (k + 1)) →
    Answers (.loop h n src) s
      (WroteLoops x (c.lc.set n.toNat 0) (c.ls.set n.toNat (c.pc + 8)) (c.pc + BitVec.ofNat 17 (8 * (k + 2)))
        (s.now + (8 * (k + 2)) % 2 ^ 17 / 8) s)) ∧
  (Acts x h [lcId n] s → 1 < v.toNat →
    Answers (.endl h n off) s
      (WroteLoops x (c.lc.set n.toNat (v - 1)) c.ls (BitVec.ofInt 17 (c.pc.toNat + 8 * off.toInt)) c.notBefore s)) ∧
  (Acts x h [lcId n] s → v.toNat ≤ 1 →
    Answers (.endl h n off) s (WroteLoops x (c.lc.set n.toNat 0) c.ls (nextPc x s) c.notBefore s))

/-! ### The issue protocol, for every instruction word (chapter 02) -/

/-- R48, R49: a word whose guard is false acts on its tokens and nothing else, whatever the word. -/
def Obligations.GuardFalseActsOnTokensOnly : Prop := ∀ (i : Instr) (x : Issuer) (h : Hdr) (s : State),
  header i = some h → s.turn = .issue x →
  (isK x && s.checkq.head?.any (fun a => decide (a.word + 64 ≤ s.words))) = false →
  hazard s x (if h.pq = 0 then [] else [64 + h.pq.toNat]) = .ready →
  guardOf s h = false → popsReady s (takes x h [] s) = true → overflowOf s (pushesOf x h []) = none →
  Answers i s (fun t => After x s t (nextPc x s) ∧ ∀ f, tokenCount t f = tokenCount s f - tokensFor f (takes x h [] s))

/-- R40, R88, R118, R125: whatever the word, it waits and changes nothing while K is 64 words ahead of the checker, while
its guard is not ready, or while a token that it pops is missing; one whose pushes would overflow a FIFO faults TOKEN_OVF
with the FIFO's code and the sum (`sys.call` pushes later, R40). Each such fault is precise, with the word's own pc. (What
the manual leaves to inference here is the model's reading: logs 21, 55.) -/
def Obligations.WordsWaitAtIssue : Prop := ∀ (i : Instr) (x : Issuer) (h : Hdr) (s : State),
  header i = some h → s.turn = .issue x →
  let ahead := isK x && s.checkq.head?.any (fun a => decide (a.word + 64 ≤ s.words))
  let guard := hazard s x (if h.pq = 0 then [] else [64 + h.pq.toNat])
  (ahead = true → exec i s = .next (block x s)) ∧
  (ahead = false → guard = .wait → exec i s = .next (block x s)) ∧
  (ahead = false → guard = .ready → ¬(∀ p ∈ takes x h [] s, tokensFor p.1 (takes x h [] s) ≤ tokenCount s p.1) →
    (∀ f n, i ≠ .tkw h f n) → exec i s = .next (block x s)) ∧
  (∀ f n, i = .tkw h f n → ahead = false → guard = .ready → guardOf s h = true →
    ¬(∀ p ∈ takes x h [(f, n.toNat)] s, tokensFor p.1 (takes x h [(f, n.toNat)] s) ≤ tokenCount s p.1) →
    exec i s = .next (block x s)) ∧
  (∀ p, ahead = false → guard = .ready → popsReady s (takes x h [] s) = true → overflowOf s (pushesOf x h []) = some p →
    (∀ f n, i ≠ .tkp h f n ∧ i ≠ .tkw h f n) → (∀ imm, i ≠ .sysCall h imm) →
    exec i s = .next (faultHere x ⟨.tokenOvf, (fifoIdx p.1).val * 2 ^ 16 + p.2 % 256 * 2 ^ 20, 0⟩ s))

/-- R38 to R40, R103, R104, R137 to R139: the words that compute nothing finish and go on. `nop` changes nothing more;
`safe` once the stream's results have landed, and on K its window is empty; `fence` once the stream's accesses are
performed where it releases (an acquire beyond the core, and `sc`, empties K's data cache, R371, R373; one of L or S puts
what the stream accesses later behind what it has accessed, as a token pop does, R371); `mark` counts; `wfe` once an event
has ended its wait, having noted when it began and when it times out. (What the manual leaves to inference here is the
model's reading: log 19.) -/
def Obligations.PlainWordsFinish : Prop := ∀ (x : Issuer) (s : State) (h : Hdr) (kind : FenceKind) (sc : Scope)
    (imm : BitVec 20),
  let c := ctxOf s x
  (Acts x h [] s → Answers (.nop h) s (fun t => After x s t (nextPc x s))) ∧
  (Acts x h [] s → landed s x = true → unconfirmed s x = false →
    Answers (.safe h) s (fun t =>
      After x (setCtx x { c with stopped := preempting s && x != .kFirm && (pendingCause s x).isNone } s) t (nextPc x s))) ∧
  (Acts x h [] s → (kind ≠ .acq → allPerformed s x = true) →
    Answers (.fence h kind sc) s (fun t =>
      After x (if kind ≠ .rel ∧ (sc ≠ .core ∨ kind = .sc) then { s with dcache := [] } else s) t (nextPc x s) ∧
      (ctxOf t x).epoch = c.epoch + (if kind = .rel then 0 else 1) + (if (takes x h [] s).isEmpty then 0 else 1))) ∧
  (Acts x h [] s → c.marks < (ctxOf s (if x = .l then .s else .l)).marks + 15 →
    Answers (.mark h) s (fun t => After x (setCtx x { c with marks := c.marks + 1 } s) t (nextPc x s))) ∧
  (∀ w, Acts x h [] s → c.wfe = some w → w.fired = true →
    Answers (.wfe h imm) s (fun t => After x (setCtx x { c with wfe := none } s) t (nextPc x s))) ∧
  (Acts x h [] s → c.wfe = none →
    exec (.wfe h imm) s = .next (block x (setCtx x
      { c with wfe := some ⟨s.now, if imm = 0 then none else some (s.now + 64 * imm.toNat), false⟩ } s)))

/-- R39, R40, R124, R127, R128: `tkw` and the TOK bits take their tokens when the word issues; `tkp` and the TOK bits push
at its finish: on K as checked actions, on the other streams in the same cycle; `tkc` writes a count. -/
def Obligations.TokenWordsMoveTokens : Prop := ∀ (x : Issuer) (s : State) (h : Hdr) (f : Fifo) (n d : BitVec 6),
  let taken (own : List (Fifo × Nat)) (t : State) : Prop :=
    ∀ g, tokenCount t g = tokenCount s g - tokensFor g (takes x h own s)
  let pushed (own : List (Fifo × Nat)) (t : State) : Prop :=
    if isK x then Queued x h own [] s t
    else t.task.pushes = s.task.pushes ++ (pushesOf x h own).map (fun p => ⟨p.1, p.2, s.now⟩)
  (Acts x h [] s → Answers (.nop h) s (fun t => taken [] t ∧ pushed [] t)) ∧
  (Issues x h [(f, n.toNat)] [] [] s →
    Answers (.tkp h f n) s (fun t => After x s t (nextPc x s) ∧ taken [] t ∧ pushed [(f, n.toNat)] t)) ∧
  (Issues x h [] [(f, n.toNat)] [] s →
    Answers (.tkw h f n) s (fun t => After x s t (nextPc x s) ∧ taken [(f, n.toNat)] t ∧ pushed [] t)) ∧
  (Acts x h [] s →
    Answers (.tkc h d f) s (WroteReg x d (BitVec.ofNat 64 (tokenCount s f)) (nextPc x s) s))

/-! ### K: memory, special registers, ports (chapter 04) -/

/-- R106, R107, R109: an aligned `ldk` of a readable run writes the bytes at its physical address, or those of its line in
the data cache, extended as its size says; an aligned `lds` those of the scratchpad. Nothing else that holds a value
changes. -/
def Obligations.KLoadsWrite : Prop := ∀ (x : Issuer) (s : State) (h : Hdr) (sz : Sz) (d a : BitVec 6) (ac : BitVec 3)
    (off : BitVec 20) (pa : Nat) (ps : List Piece),
  let ea := regOf x s a + off.signExtend 64
  let n := szBytes sz
  let firm := x == .kFirm
  (Acts x h [rId a] s → ea.toNat % n = 0 → globalCheck s .k firm ea n true false .unbound = .ok ps →
    piecesSegs ps = [⟨pa, n⟩] → mayLoad s false [⟨pa, n⟩] ac = true → s.dcache.find? (fun l => l.1 == pa / 64 * 64) = none →
    (∀ b ∈ s.memBad, ¬(pa ≤ b ∧ b < pa + n)) →
    Answers (.ldk h sz d a ac off) s (WroteReg x d (extendSz sz (leVal (memRead s.mem pa n))) (nextPc x s) s)) ∧
  (∀ line, Acts x h [rId a] s → ea.toNat % n = 0 → globalCheck s .k firm ea n true false .unbound = .ok ps →
    piecesSegs ps = [⟨pa, n⟩] → mayLoad s false [⟨pa, n⟩] ac = true →
    s.dcache.find? (fun l => l.1 == pa / 64 * 64) = some line →
    Answers (.ldk h sz d a ac off) s
      (WroteReg x d (extendSz sz (leVal ((line.2.drop (pa % 64)).take n))) (nextPc x s) s)) ∧
  (Acts x h [rId a] s → ea.toNat % n = 0 → spadMap s firm ea.toNat n = some pa → mayLoad s true [⟨pa, n⟩] 0 = true →
    (∀ b ∈ s.spadBad, ¬(pa ≤ b ∧ b < pa + n)) →
    Answers (.lds h sz d a off) s (WroteReg x d (extendSz sz (leVal (memRead s.spad pa n))) (nextPc x s) s))

/-- R106, R107, R116: `stk` and `sts` of an aligned run that may be written put one checked action into the compare queue,
with the low bytes of d for the bytes of the run; at their issue no register and no byte changes. -/
def Obligations.KStoresAreCheckedActions : Prop := ∀ (x : Issuer) (s : State) (h : Hdr) (sz : Sz) (d a : BitVec 6)
    (ac : BitVec 3) (off : BitVec 20) (pa : Nat) (ps : List Piece),
  let ea := regOf x s a + off.signExtend 64
  let n := szBytes sz
  let firm := x == .kFirm
  let bytes := leBytes n (regOf x s d).toNat
  isK x = true → Acts x h [rId a, rId d] s → ea.toNat % n = 0 →
  (globalCheck s .k firm ea n false true .unbound = .ok ps →
    egressPassed s .kAction (ctxNum s firm) (egressBytes ps) = true →
    Answers (.stk h sz d a ac off) s (fun t =>
      Unchanged x (nextPc x s) s t ∧ Queued x h [] [.stk (piecesSegs ps) bytes] s t)) ∧
  (spadMap s firm ea.toNat n = some pa →
    Answers (.sts h sz d a off) s (fun t =>
      Unchanged x (nextPc x s) s t ∧ Queued x h [] [.sts pa bytes] s t))

/-- R108: the faults of K's accesses, in their order, each precise at the word with ea for the operand: ALIGN; for global
memory PROT on an address that is not canonical, PAGE without a translation; for the scratchpad PROT out of range; detail
bit 16 for a store. A lasting error in the bytes read is ECC_UC.

R106, R157: which scratchpad bytes a context may name: firmware, and a task on a core that is not shared, all of it;
on a shared foreshore core a bulk task (`holds` 1) has the first S bytes and a latency task the rest; an offset below the
share's size less 64 KiB maps from the share's start, the reserved top 64 KiB to the top of the share, and no other where
the share is less than the whole. -/
def Obligations.KAccessesFaultOutsideTheirRanges : Prop :=
  (∀ (x : Issuer) (s : State) (h : Hdr) (sz : Sz) (d a : BitVec 6) (ac : BitVec 3)
      (off : BitVec 20),
    let ea := regOf x s a + off.signExtend 64
    let n := szBytes sz
    let firm := x == .kFirm
    let canonical := ∀ i, 56 ≤ i → i < 64 → ea.getLsbD i = ea.getLsbD 55
    let trap (c : Cause) (bit : Nat) : Host.Outcome State Fault Refusal :=
      .next (faultHere x ⟨c, bit, ea⟩ s)
    Acts x h [rId a] s → Acts x h [rId a, rId d] s →
    (ea.toNat % n ≠ 0 →
      exec (.ldk h sz d a ac off) s = trap .align 0 ∧ exec (.stk h sz d a ac off) s = trap .align 0 ∧
      exec (.lds h sz d a off) s = trap .align 0 ∧ exec (.sts h sz d a off) s = trap .align 0) ∧
    (ea.toNat % n = 0 → ¬canonical →
      exec (.ldk h sz d a ac off) s = trap .prot 0 ∧ exec (.stk h sz d a ac off) s = trap .prot 0x10000) ∧
    (ea.toNat % n = 0 → canonical → lookup s .k (ctxNum s firm) (ea.toNat % 2 ^ 56) = none →
      exec (.ldk h sz d a ac off) s = trap .page 0 ∧ exec (.stk h sz d a ac off) s = trap .page 0x10000) ∧
    (ea.toNat % n = 0 → spadMap s firm ea.toNat n = none →
      exec (.lds h sz d a off) s = trap .prot 0 ∧ exec (.sts h sz d a off) s = trap .prot 0x10000) ∧
    (∀ pa, ea.toNat % n = 0 → spadMap s firm ea.toNat n = some pa → mayLoad s true [⟨pa, n⟩] 0 = true →
      (∃ b ∈ s.spadBad, pa ≤ b ∧ b < pa + n) → exec (.lds h sz d a off) s = trap .eccUc 0)) ∧
  (∀ (s : State) (firm : Bool) (off len : Nat),
    let size := match s.kind with
      | .compute => 0x800000
      | .service => 0x100000
      | .scheduler => 0x40000
    (size < off + len → spadMap s firm off len = none) ∧
    (off + len ≤ size → firm = true ∨ s.task.ctx = 0 ∨ s.holds = 0 → spadMap s firm off len = some off) ∧
    (∀ base share, off + len ≤ size → firm = false → s.task.ctx ≠ 0 → s.holds ≠ 0 →
      (let bulk := s.bulkShare[s.die.toNat]! * 0x80000
       if s.holds = 1 then base = 0 ∧ share = bulk else base = bulk ∧ share = 0x800000 - bulk) →
      (off + len ≤ share - 0x10000 → 0x10000 ≤ share → spadMap s firm off len = some (base + off)) ∧
      (share - 0x10000 < off + len → 0x7F0000 ≤ off → 0x10000 ≤ share →
        spadMap s firm off len = some (base + share - 0x10000 + (off - 0x7F0000))) ∧
      (share - 0x10000 < off + len → off < 0x7F0000 → share < 0x800000 → spadMap s firm off len = none)))

/-- R111 to R113: `rsr` writes the register's value to d, `wsr` writes it for K at its issue; reserved bits of sr.tframe
and sr.status read 0; read-only registers ignore writes; sr.share may be written by firmware only, where the new
share's use and a changed NRP wait for the checker; a new sr.budget counts from the next cycle. -/
def Obligations.SpecialRegistersReadAndWrite : Prop := ∀ (x : Issuer) (s : State) (h : Hdr) (d a : BitVec 6),
  let c := ctxOf s x
  let v := regOf x s a
  let bit (b : Bool) (n : Nat) : Nat := if b then 2 ^ n else 0
  let status := BitVec.ofNat 64 (bit (x == .kTask && c.nrp) 4 + bit (s.kind == .service) 3 + bit (x == .kFirm) 2 +
    bit c.trp 1 + bit c.ie 0)
  let rd (r : SpecialReg) (w : Word) : Prop := Answers (.rsr h d r) s (WroteReg x d w (nextPc x s) s)
  let wr (r : SpecialReg) (e : State) (acts : List Action) : Prop :=
    Answers (.wsr h r a) s (fun t => After x e t (nextPc x s) ∧ Queued x h [] acts s t)
  isK x = true →
  (Acts x h [] s →
    rd .core (s.core.setWidth 64) ∧ rd .die (s.die.setWidth 64) ∧
    rd .ctx (BitVec.ofNat 64 (if x = .kFirm then 0 else s.task.ctx)) ∧ rd .time (BitVec.ofNat 64 (s.timeBase / 840)) ∧
    rd .ptp (BitVec.ofNat 64 (s.ptp / 840)) ∧ rd .tvec c.tvec ∧ rd .tframe c.tframe ∧ rd .cause c.cause ∧ rd .epc c.epc ∧
    rd .status status ∧ rd .share (s.shareView.setWidth 64) ∧
    rd .rot (BitVec.ofNat 64 (s.task.rbase.toNat + s.task.rsize.toNat * 2 ^ 7 + s.task.epi.toNat * 2 ^ 14 +
      s.task.roff.toNat * 2 ^ 18)) ∧
    rd .arg s.task.arg ∧ rd .lidx s.task.lidx ∧ rd .budget s.task.budget) ∧
  (Acts x h [rId a] s →
    wr .tvec (setCtx x { c with tvec := v } s) [.wsr none none] ∧
    wr .tframe (setCtx x { c with tframe := v &&& 0x7FFF00 } s) [.wsr none none] ∧
    wr .cause (setCtx x { c with cause := v } s) [.wsr none none] ∧
    wr .epc (setCtx x { c with epc := v } s) [.wsr none none] ∧
    (x = .kTask → wr .status (setCtx x { c with nrp := v.getLsbD 4, trp := v.getLsbD 1, ie := v.getLsbD 0 } s)
      [.wsr (if v.getLsbD 4 = c.nrp then none else some (v.getLsbD 4)) none]) ∧
    (x = .kFirm → c.nrp = false →
      wr .status (setCtx x { c with trp := v.getLsbD 1, ie := v.getLsbD 0 } s) [.wsr none none]) ∧
    wr .share (if x = .kFirm then { s with shareView := v.setWidth 8 } else s)
      [.wsr none (if x = .kFirm then some (v.setWidth 8) else none)] ∧
    wr .budget { s with task.budget := v, task.budgetFrom := s.now + 1 } [.wsr none none] ∧
    (∀ r ∈ [SpecialReg.core, .die, .ctx, .time, .ptp, .rot, .arg, .lidx], wr r s [.wsr none none]))

/-- R114, R115: `epop` removes the head of a port's output FIFO into d and waits while it is empty; the eighth dword of a
task-queue block empties K's data cache (R109); `ecount` writes the entries of the output FIFO, the free entries of the
input FIFO; `rnd` writes 64 bits of the context's noise channel. (What the manual leaves to inference here is the model's
reading: log 27.)

R133: `renq` of the task sends the 64 bytes at its aligned block, as they stand, to the queue that its descriptor
names on a core that its context holds, once that queue has room beside what K has sent it; a descriptor that names nothing is PROT, an unaligned block ALIGN. -/
def Obligations.PortWordsMove : Prop :=
  (∀ (x : Issuer) (s : State) (h : Hdr) (d : BitVec 6) (p : Port),
    Acts x h [] s →
    (portOutOf s p = [] → exec (.epop h d p) s = .next (block x s)) ∧
    (∀ w rest, portOutOf s p = w :: rest →
      Answers (.epop h d p) s (fun t => WroteReg x d w (nextPc x s) s t ∧ portOutOf t p = rest ∧
        (∀ q, q ≠ p → portOutOf t q = portOutOf s q) ∧
        t.dcache = if p = .tq ∧ rest.length % 8 = 0 then [] else s.dcache)) ∧
    Answers (.ecountOut h d p) s (WroteReg x d (BitVec.ofNat 64 (portOutOf s p).length) (nextPc x s) s) ∧
    Answers (.ecountIn h d p) s (WroteReg x d (BitVec.ofNat 64 (32 - portIn s p)) (nextPc x s) s) ∧
    Answers (.rnd h d) s
      (WroteReg x d (BitVec.ofNat 64 (drawNoise (if x = .kFirm then 4 else 0) 64 s).1) (nextPc x s) s)) ∧
  (∀ (x : Issuer) (s : State) (h : Hdr) (a b : BitVec 6) (p : Nat),
    let desc := regOf x s a
    let block := regOf x s b
    let core := (desc.extractLsb' 0 6).toNat
    let die := (desc.extractLsb' 6 1).toNat
    let queue := (desc.extractLsb' 7 2).toNat
    let good := desc.toNat < 2 ^ 9 ∧ queue < 2 ∧ core ≤ 47 ∧ x ≠ .kFirm ∧
      (die * 64 + core ∈ s.task.partition ∨ ∃ l ∈ s.launches, l.pkt.ctx = s.task.ctx ∧ die * 64 + core ∈ l.cores)
    isK x = true → Acts x h [rId a, rId b] s →
    (good → block.toNat % 64 = 0 → spadMap s false block.toNat 64 = some p → ownStoresPending s = false →
      queueRoom s queue die core (blocksTo s queue + if queue = 0 then 0 else copiesDue s) = true →
      Answers (.renq h a b) s (fun t => Unchanged x (nextPc x s) s t ∧
        Queued x h [] [.renq queue die core ((List.range 8).map (fun i => BitVec.ofNat 64 (memWord s.spad (p + 8 * i) 8)))]
          s t)) ∧
    (¬good → exec (.renq h a b) s = .next (faultHere x ⟨.prot, 0, desc⟩ s)) ∧
    (good → block.toNat % 64 ≠ 0 → exec (.renq h a b) s = .next (faultHere x ⟨.align, 0, block⟩ s)))

/-! ### Synchronisation (chapter 05) -/

/-- R134 to R136: an aligned `amo` of readable and writable memory. On S it is performed at its issue, once the stores and marks
of its stream let it: d takes the old value, the location the new one, and every other byte of memory keeps its value. On K it
becomes a checked action, and d is not ready until that is performed. -/
def Obligations.AtomicsReadModifyWrite : Prop := ∀ (x : Issuer) (s : State) (h : Hdr) (op : AmoOp) (sc : Scope) (dw : Bool)
    (d a b : BitVec 6) (pa : Nat) (ps : List Piece),
  let va := regOf x s a
  let n := if dw then 8 else 4
  let agent : TlbAgent := if x = .s then .s else .k
  let user : EgressUser := if x = .s then .sStore else .kAction
  let old := leVal (memRead s.mem pa n)
  let new {w : Nat} (o v c : BitVec w) : BitVec w := match op with
    | .swap => v
    | .add => o + v
    | .and => o &&& v
    | .or => o ||| v
    | .xor => o ^^^ v
    | .min => if o.toInt ≤ v.toInt then o else v
    | .max => if o.toInt ≤ v.toInt then v else o
    | .minz => if o.toNat ≤ v.toNat then o else v
    | .maxz => if o.toNat ≤ v.toNat then v else o
    | .cas => if o = c then v else o
  let stored : Nat :=
    if dw then (new (BitVec.ofNat 64 old) (regOf x s b) (regOf x s d)).toNat
    else (new (BitVec.ofNat 32 old) ((regOf x s b).setWidth 32) ((regOf x s d).setWidth 32)).toNat
  let result : Word := if dw then BitVec.ofNat 64 old else (BitVec.ofNat 32 old).signExtend 64
  let c := ctxOf s x
  let store : Access := ⟨s.task.nextId, false, s.now, 0, c.marks, c.epoch, va, s.now, c.pc, .store false (piecesSegs ps) [] none, []⟩
  s.MemWf → Acts x h (if op = .cas then [rId a, rId b, rId d] else [rId a, rId b]) s → va.toNat % n = 0 →
  globalCheck s agent (x == .kFirm) va n true true .unbound = .ok ps → piecesSegs ps = [⟨pa, n⟩] →
  (∀ y ∈ s.memBad, ¬(pa ≤ y ∧ y < pa + n)) →
  egressPassed s user (ctxNum s (x == .kFirm)) (egressBytes ps) = true →
  (x = .s → storesSettled s = true → canPerform s store = true →
    Answers (.amo h op sc dw d a b) s (fun t =>
      regOf x t d = (if d = 0 then 0 else result) ∧ memRead t.mem pa n = leBytes n stored ∧
      (∀ y, ¬(pa ≤ y ∧ y < pa + n) → memGet t.mem y = memGet s.mem y) ∧ t.spad = s.spad ∧
      (∀ r, r ≠ d → regOf x t r = regOf x s r) ∧ (ctxOf t x).preds = (ctxOf s x).preds ∧
      (∀ y, y ≠ x → ctxOf t y = ctxOf s y) ∧ t.special = s.special ∧ (ctxOf t x).pc = nextPc x s)) ∧
  (isK x = true →
    Answers (.amo h op sc dw d a b) s (fun t =>
      Unchanged x (nextPc x s) s t ∧
      Queued x h [] [.amo op dw pa d (regOf x s b) (regOf x s d) (sc != .core) (piecesLatency ps)] s t ∧
      (d ≠ 0 → (d.toNat, .word s.words) ∈ (ctxOf t x).busy)))

/-- R116, R134, R113, R126: the oldest checked action, once it is due and ordered, is performed when the checker agrees,
also after a re-execution, which is logged: the bytes of a `stk` and of a `sts` reach their places and every other byte
keeps its value; an `amo` reads, modifies and writes, and its register takes the old value unless a later word has
written it; sr.share takes a firmware write; tokens are pushed, those of an `amo` or an `fget` when its register is written (R40);
commands and requests arrive in their unit's queue; a fault of K, which waits in the same queue, is taken (R117). Before
that nothing changes.

R119: a lasting mismatch performs no unconfirmed action, stands K before the word of the oldest one, with what it had
written to sr.budget and sr.share undone, and its other context before the word of that context's oldest one; L, C and S
keep what they have; CHECKER is raised and the core is quarantined. What is undone beside K's registers, where the other
context stands, and that an action is due 4 cycles after its issue are the model's reading, DEDUCED (log 26). -/
def Obligations.CheckedActionsAreDecided : Prop :=
  (∀ (s : State) (c : Checked) (rest : List Checked) (o : CheckOutcome),
    let x : Issuer := if c.firm then .kFirm else .kTask
    let pushOf (k : Checked) : Bool := k.firm == c.firm && k.word == c.word && (match k.act with
      | .tokens _ _ => true
      | _ => false)
    s.MemWf → s.checkq = c :: rest →
    (confirmRuns s = false → exec (.checkedActionConfirm o) s = .next s) ∧
    (confirmRuns s = true → o ≠ .lasting →
      Answers (.checkedActionConfirm o) s (fun t =>
        t.checkq = (match c.act with
          | .amo .. | .fget .. => rest.filter (fun k => !pushOf k)
          | _ => rest) ∧
        (∀ k f n, k ∈ rest → pushOf k = true → k.act = .tokens f n →
          (∀ op dw pa d b cmp wide lat, c.act = .amo op dw pa d b cmp wide lat → ⟨f, n, s.now + lat⟩ ∈ t.task.pushes) ∧
          (∀ st g d, c.act = .fget st g d → ⟨f, n, s.now + 1⟩ ∈ t.task.pushes)) ∧
        (∀ pa bs, c.act = .stk [⟨pa, bs.length⟩] bs →
          memRead t.mem pa bs.length = bs ∧ (∀ y, ¬(pa ≤ y ∧ y < pa + bs.length) → memGet t.mem y = memGet s.mem y) ∧
          t.spad = s.spad ∧ ∀ y, ctxOf t y = ctxOf s y) ∧
        (∀ off bs, c.act = .sts off bs →
          memRead t.spad off bs.length = bs ∧ (∀ y, ¬(off ≤ y ∧ y < off + bs.length) → memGet t.spad y = memGet s.spad y) ∧
          t.mem = s.mem ∧ ∀ y, ctxOf t y = ctxOf s y) ∧
        (∀ op dw pa d b cmp wide lat, c.act = .amo op dw pa d b cmp wide lat →
          let n := if dw then 8 else 4
          let old := memWord s.mem pa n
          regOf x t d = (if d = 0 then 0 else if (d.toNat, Due.word c.word) ∈ (ctxOf s x).busy then amoOld dw old
            else regOf x s d) ∧
          memRead t.mem pa n = leBytes n (amoNew op n old b.toNat cmp.toNat) ∧
          (∀ y, ¬(pa ≤ y ∧ y < pa + n) → memGet t.mem y = memGet s.mem y) ∧ (∀ r, r ≠ d → regOf x t r = regOf x s r) ∧
          ∀ y, y ≠ x → ctxOf t y = ctxOf s y) ∧
        (∀ v, c.act = .wsr none (some v) → t.share = v) ∧
        (∀ f n, c.act = .tokens f n → t.task.pushes = s.task.pushes ++ [⟨f, n, s.now⟩]) ∧
        (∀ cmd, c.act = .mc cmd → t.task.mc.queue = s.task.mc.queue ++ [{ cmd with ready := s.now }]) ∧
        (∀ cmd, c.act = .cp cmd → t.task.cp.queue = s.task.cp.queue ++ [{ cmd with ready := s.now + 8 }]) ∧
        (∀ cmd, c.act = .fx cmd → t.task.fx.cmds = s.task.fx.cmds ++
          [{ cmd with gate := s.task.fx.gate, num := s.task.fx.count }]) ∧
        (∀ op id, c.act = .cr op id → ∃ due, s.now ≤ due ∧ t.crypto.queue = s.crypto.queue ++ [(op, id, due)]) ∧
        (∀ r, c.act = .kv r → ∃ due, s.now ≤ due ∧ t.kv.queue = s.kv.queue ++ [{ r with due := due }]) ∧
        (∀ u id, c.act = .await u id → ⟨id, BitVec.ofNat 64 (match u with
          | .copy => s.task.cp.count
          | .fabric => s.task.fx.count
          | .time => 0), 0, none⟩ ∈ t.replies) ∧
        (∀ f pc, c.act = .fault f pc → o = .confirmed → (ctxOf s x).run = .running →
          t = takeTrap x f pc { s with checkq := rest }) ∧
        (∀ r, c.act = .tithe r → t.tithe = s.tithe ++ [r]) ∧
        (∀ ss bs, c.act = .stk ss bs →
          t.log.length + t.logLost = s.log.length + s.logLost + (if o = .transient then 1 else 0))))) ∧
  (∀ (s : State) (c : Checked) (rest : List Checked),
    let x : Issuer := if c.firm then .kFirm else .kTask
    s.checkq = c :: rest → confirmRuns s = true →
    ∃ e, exec (.checkedActionConfirm .lasting) s = .next (takeTrap x ⟨.checker, 0, 0⟩ c.snap.pc e) ∧
      e.checkq = [] ∧ (ctxOf e x).regs = c.snap.regs ∧ (ctxOf e x).preds = c.snap.preds ∧
      (ctxOf e x).lc = c.snap.lc ∧ (ctxOf e x).tvec = c.snap.tvec ∧ (ctxOf e x).trp = c.snap.trp ∧ e.quarantined = true ∧
      e.mem = s.mem ∧ e.spad = s.spad ∧ e.shareView = c.snapShare ∧
      e.task.budget = (if c.cycle < s.task.budgetFrom then c.snapBudget else s.task.budget) ∧
      (∀ y ∈ [Issuer.l, .c, .s], ctxOf e y = ctxOf s y) ∧
      let other : Issuer := if c.firm then .kTask else .kFirm
      ((∀ k ∈ rest, k.firm = c.firm) → ctxOf e other = ctxOf s other) ∧
      (∀ k, rest.find? (fun k => k.firm != c.firm) = some k → (ctxOf e other).regs = k.snap.regs ∧
        (ctxOf e other).pc = k.snap.pc))

/-- R129 to R132: the barrier words. `bara` arrives, `barw` waits until the phase it arrived at is complete, `bar` does
both; a task alone in its group completes a phase by arriving; a wait that was needed empties K's data cache. Touches of
guard granules are reported after a barw step. (What the manual leaves to inference here is the model's reading: log 46.)

R132: a barw step after touches of guard granules finishes, and then raises GUARD with the bank, the offset and the
further touches, at the next word; the touches are forgotten. -/
def Obligations.BarriersCount : Prop :=
  (∀ (x : Issuer) (s : State) (h : Hdr) (b : BitVec 2),
    let v := barOf s b
    let alone := s.task.group ≤ 1
    let arrived (w : Bar) : Bar := { w with arrive := w.arrive + 1, complete := if alone then w.arrive + 1 else w.complete }
    let waited (e : State) : State := { setBar b { v with waited := v.arrive } e with dcache := [] }
    let issuedNow := (ctxOf s x).popped = some (ctxOf s x).pc
    Acts x h [] s → unconfirmed s x = false → s.task.touch = none →
    (v.arrive ≤ v.waited → Answers (.bara h b) s (fun t => After x (setBar b (arrived v) s) t (nextPc x s))) ∧
    (v.waited < v.arrive → v.arrive ≤ v.complete →
      Answers (.bara h b) s (fun t =>
        After x (setBar b (arrived { v with waited := v.arrive }) (waited s)) t (nextPc x s))) ∧
    (v.waited < v.arrive → v.complete < v.arrive →
      exec (.bara h b) s = .next (block x s) ∧ exec (.barw h b) s = .next (block x s)) ∧
    (v.arrive ≤ v.waited → Answers (.barw h b) s (fun t => After x s t (nextPc x s))) ∧
    (v.waited < v.arrive → v.arrive ≤ v.complete →
      Answers (.barw h b) s (fun t => After x (waited s) t (nextPc x s))) ∧
    (v.arrive = v.waited → ¬issuedNow → alone →
      Answers (.bar h b) s (fun t =>
        After x { setBar b ⟨v.arrive + 1, v.arrive + 1, v.arrive + 1⟩ s with dcache := [] } t (nextPc x s))) ∧
    (v.arrive = v.waited → ¬issuedNow → ¬alone → v.complete ≤ v.arrive →
      Answers (.bar h b) s (fun t => barOf t b = arrived v ∧ (ctxOf t x).pc = (ctxOf s x).pc)) ∧
    (v.waited < v.arrive → issuedNow → v.arrive ≤ v.complete →
      Answers (.bar h b) s (fun t => After x (waited s) t (nextPc x s)))) ∧
  (∀ (x : Issuer) (s : State) (h : Hdr) (b : BitVec 2) (g : Touch),
    Acts x h [] s → s.task.touch = some g → (barOf s b).arrive ≤ (barOf s b).waited →
    ∃ e, exec (.barw h b) s = .next (raise x
        ⟨.guard, g.bank * 2 ^ 16 + g.off * 2 ^ 21 + g.more * 2 ^ 44, BitVec.ofNat 64 g.off⟩ (nextPc x s) s e) ∧
      After x { s with task.touch := none } e (nextPc x s))

/-! ### Exceptions (chapter 05) -/

/-- R140 to R143: a stream outside a handler that has one takes a fault that is not routed to firmware: its frame holds
the cause, the resumption pc, the operand, the status and the predicates; K also has them in sr.cause and sr.epc; TRP is
set, and the stream goes on at its handler. Its registers, every byte of memory, every byte of scratchpad outside the
frame, and the other streams keep their values.

R140: the frames of the five contexts: 256 bytes each, at sr.tframe for K and behind it for L, C and S, which have no
register of their own for it.

R141, R149: what a stream of the task cannot handle halts it and becomes an event for firmware: a cause routed there,
a stream without a handler, and with detail bit 15 in its cause word a fault inside a handler. A fault of firmware inside
its own handler, or without one, holds the core and quarantines it. Events stand in the order of their times. -/
def Obligations.TrapsEnterOrHalt : Prop :=
  (∀ (x : Issuer) (s : State) (t : TrapInfo) (pc handler : Pc) (a : Nat),
    let c := ctxOf s x
    let u := takeTrap x t pc s
    let cause : Word := BitVec.ofNat 64 (causeCode t.cause + causeClass t.cause * 256 + t.detail)
    let bit (b : Bool) (n : Nat) : Nat := if b then 2 ^ n else 0
    let status := bit (x == .kTask && c.nrp) 4 + bit (isK x && s.kind == .service) 3 + bit (x == .kFirm) 2 + bit c.trp 1 +
      bit (isK x && c.ie) 0
    s.MemWf → c.trp = false → handler.toNat = c.tvec.toNat % 2 ^ 17 / 8 * 8 → handler ≠ 0 → causeRouteF t.cause = false →
    spadMap s (x == .kFirm) (frameAt s x) 256 = some a →
    memWord u.spad a 8 = cause.toNat ∧ memWord u.spad (a + 0x08) 8 = pc.toNat ∧ memWord u.spad (a + 0x10) 8 = t.operand.toNat ∧
    memWord u.spad (a + 0x18) 8 = status ∧ memWord u.spad (a + 0x20) 8 = (c.preds ||| 1).toNat ∧
    (∀ y, ¬(a ≤ y ∧ y < a + 256) → memGet u.spad y = memGet s.spad y) ∧ u.mem = s.mem ∧
    (ctxOf u x).pc = handler ∧ (ctxOf u x).trp = true ∧ (ctxOf u x).regs = c.regs ∧ (ctxOf u x).preds = c.preds ∧
    (ctxOf u x).ie = c.ie ∧ (ctxOf u x).run = c.run ∧
    ((ctxOf u x).cause, (ctxOf u x).epc) = (if isK x then (cause, pc.setWidth 64) else (c.cause, c.epc)) ∧
    ∀ y, y ≠ x → ctxOf u y = ctxOf s y) ∧
  (∀ (s : State),
    frameAt s .kFirm = s.firm.tframe.toNat ∧ frameAt s .kTask = s.task.k.tframe.toNat ∧
    frameAt s .l = s.task.k.tframe.toNat + 0x100 ∧ frameAt s .c = s.task.k.tframe.toNat + 0x200 ∧
    frameAt s .s = s.task.k.tframe.toNat + 0x300) ∧
  (∀ (x : Issuer) (s : State) (t : TrapInfo) (pc : Pc),
    let c := ctxOf s x
    let u := takeTrap x t pc s
    let w := causeWord t
    (x ≠ .kFirm → c.trp = true →
      (ctxOf u x).run = .halted (w ||| 0x8000) t.operand true ∧ (ctxOf u x).pc = pc ∧
      u.fEvents = insertEvent ⟨s.now, x.stream, (w ||| 0x8000) &&& 0xFFFF, t.operand, true⟩ s.fEvents ∧ u.mem = s.mem ∧ u.spad = s.spad ∧
      ∀ y, y ≠ x → ctxOf u y = ctxOf s y) ∧
    (x ≠ .kFirm → c.trp = false → causeRouteF t.cause = true ∨ c.tvec.toNat % 2 ^ 17 / 8 = 0 →
      (ctxOf u x).run = .halted w t.operand (framePhys s x).isSome ∧ (ctxOf u x).pc = pc ∧ (ctxOf u x).regs = c.regs ∧
      u.fEvents = insertEvent ⟨s.now, x.stream, w &&& 0xFFFF, t.operand, (framePhys s x).isSome⟩ s.fEvents ∧ u.mem = s.mem ∧
      ∀ y, y ≠ x → ctxOf u y = ctxOf s y) ∧
    (x = .kFirm → c.trp = true ∨ c.tvec.toNat % 2 ^ 17 / 8 = 0 →
      u.firm.run = .held ∧ u.quarantined = true ∧ u.mem = s.mem ∧ u.spad = s.spad ∧ u.task.k = s.task.k) ∧
    (∀ e l, (∀ f ∈ l, f.time < e.time) → insertEvent e l = l ++ [e]))

/-- R147, R159, R427: `sys.resume` lets a halted stream go on and leaves any other as it is (of C with latch records and of K
after `sys.call` nothing is said here); `sys.kill` records its reason
and ends every stream of the task, firmware keeps its own; `sys.tmr` sets the timer's streams and interval in units of 256
cycles, and 0 stops it.

R40, R146, R147: `trap` finishes and then traps with its immediate for the detail, to go on behind it; `brk` traps at
itself, K's in both cases once the checker reaches it (R117, `raise`); that `brk` is a fault at its own place, which takes
no tokens, is the model's reading (log 21). In a service image that a debugger runs, `brk` stops the service core instead,
and goes on after it: DESIGN CHOICE (log 83). `sys.call` of the task finishes without its pushes and traps to firmware with register 1 for the operand; each
`sys` of the other context is PRIV. -/
def Obligations.SystemWordsAct : Prop :=
  (∀ (x : Issuer) (s : State) (h : Hdr) (imm : BitVec 20) (st : BitVec 2)
      (mask : BitVec 4),
    let y : Issuer := match st.toNat with
      | 0 => .kTask
      | 1 => .l
      | 2 => .c
      | _ => .s
    Acts x h [] s →
    (x = .kFirm → (∀ w o wr, (ctxOf s y).run ≠ .halted w o wr) →
      Answers (.sysResume h st) s (fun t => After x s t (nextPc x s))) ∧
    (∀ w o wr, x = .kFirm → (ctxOf s y).run = .halted w o wr → w.getLsbD 15 = true ∨ y = .l ∨ y = .s →
      Answers (.sysResume h st) s (fun t => After x
        (setCtx y { ctxOf s y with run := .running, lastIssue := s.now, fresh := false, blocked := false } s) t
        (nextPc x s))) ∧
    (x = .kFirm → s.task.alive = true →
      Answers (.sysKill h imm) s (fun t => t.task.failed = some imm ∧ t.fEvents = [] ∧ t.mem = s.mem ∧ t.spad = s.spad ∧
        (∀ z ∈ [Issuer.kTask, .l, .c, .s], (ctxOf t z).run = .ended) ∧ t.firm.regs = s.firm.regs ∧
        t.firm.pc = s.firm.pc + 8)) ∧
    Answers (.sysTmr h mask imm) s (fun t => After x
      { s with task.timer := if imm = 0 then none else some ⟨mask, 256 * imm.toNat, s.now + 256 * imm.toNat⟩ } t
      (nextPc x s))) ∧
  (∀ (x : Issuer) (s : State) (h : Hdr) (imm : BitVec 20) (st : BitVec 2),
    let pc := (ctxOf s x).pc
    let detail := imm.toNat * 2 ^ 16
    let h' : Hdr := { h with sp := false, sn := false }
    let debugger := x = .kFirm ∧ s.kind = .service ∧ (bootService s).isSome
    (Acts x h [] s →
      (∃ e, exec (.trap h imm) s = .next (raise x ⟨.swTrap, detail, 0⟩ (pc + 8) s e) ∧ After x s e (pc + 8)) ∧
      (¬debugger → exec (.brk h imm) s = .next (faultHere x ⟨.breakPt, detail, 0⟩ s)) ∧
      (debugger → (ctxOf s x).popped ≠ some pc →
        Answers (.brk h imm) s (fun t => (∃ n, s.now < n ∧ t.svcStop = some n) ∧ (ctxOf t x).pc = pc)) ∧
      (debugger → (ctxOf s x).popped = some pc → Answers (.brk h imm) s (fun t => After x s t (pc + 8)))) ∧
    (x = .kTask → Acts x h' [rId 1] s → overflowOf s (headerPushes h .k) = none →
      ∃ e, exec (.sysCall h imm) s = .next (raise x ⟨.sysCall, detail, regOf x s 1⟩ (pc + 8) s e) ∧ After x s e (pc + 8)) ∧
    (x = .kFirm → Acts x h' [] s → exec (.sysCall h imm) s = .next (faultHere x ⟨.priv, 0, 0⟩ s)) ∧
    (x = .kTask → Acts x h [] s →
      exec (.sysResume h st) s = .next (faultHere x ⟨.priv, 0, 0⟩ s) ∧
      exec (.sysKill h imm) s = .next (faultHere x ⟨.priv, 0, 0⟩ s)) ∧
    (∀ t p e, isK x = false → raise x t p s e = takeTrap x t p e) ∧
    (∀ t p e, s.turn = .issue x → isK x = true → ∃ k, raise x t p s e =
        block x { e with checkq := e.checkq ++ [k] } ∧ k.act = .fault t p ∧ s.now + 4 ≤ k.due ∧ k.firm = (x == .kFirm)))

/-- R145: `rfi` inside a handler, once its results have landed and what the stream has written to its frame is there (R370),
restores the predicates from the frame, clears TRP and
goes on at the frame's pc, K at sr.epc with IE and NRP from the frame; registers, memory and every other value stay.
Outside a handler it is PRIV. (What the manual leaves to inference here is the model's reading: logs 21, 67.) -/
def Obligations.RfiRestores : Prop := ∀ (x : Issuer) (s : State) (h : Hdr) (a : Nat),
  let c := ctxOf s x
  let f (k : Nat) : Nat := memWord s.spad (a + k) 8
  let back : Nat := if isK x then c.epc.toNat else f 0x08
  Acts x h [] s →
  (c.trp = true → landed s x = true → spadMap s (x == .kFirm) (frameAt s x) 256 = some a → frameBusy s x a = false →
    (x = .c → frameFault s (readFrame s a) (pcOfWord (BitVec.ofNat 64 (f 0x08))) = none) →
    Answers (.rfi h) s (fun t =>
      (ctxOf t x).trp = false ∧ (ctxOf t x).pc.toNat = back % 2 ^ 17 / 8 * 8 ∧
      (ctxOf t x).preds = BitVec.ofNat 16 (f 0x20) ||| 1 ∧ (ctxOf t x).regs = c.regs ∧ (ctxOf t x).tvec = c.tvec ∧
      (ctxOf t x).cause = c.cause ∧ (ctxOf t x).epc = c.epc ∧
      (ctxOf t x).ie = (if isK x then (f 0x18).testBit 0 else c.ie) ∧
      (ctxOf t x).nrp = (if isK x then x == .kTask && (f 0x18).testBit 4 else c.nrp) ∧ Keeps x s t)) ∧
  (c.trp = false → exec (.rfi h) s = .next (faultHere x ⟨.priv, 0, 0⟩ s))

/-! ### Access (chapter 06) -/

/-- R162, R163, R168, R169, R171, R173, R174: the words of L issue what they name. `ld`, `ldp`, `ldi` and `ldg` reserve
the slots of their elements at the tail of the queue, `ldg` takes its index from an index queue; `ldw` names the window's
image, and an empty window loads nothing; `ldr` reserves the tail slot of its furrow. No value changes at the issue. (What
the manual leaves to inference here is the model's reading: log 25.) -/
def Obligations.LoadsIssue : Prop := ∀ (s : State) (h : Hdr) (zp tr : Bool) (sz : Sz) (n : Fin 8) (k : Fin 4) (w : BitVec 5)
    (f pitch : BitVec 4) (ab : BitVec 6) (ac : BitVec 3) (off : BitVec 16) (ps : List Piece) (p : Nat) (e : QSlot) (disp : Int),
  let x : Issuer := .l
  let ea := regOf x s ab + off.signExtend 64
  let size := szBytes sz
  let load (q : Fin 20) (sp : Bool) (segs : List Seg) (z : Bool) (va : Word) (t : State) : Prop :=
    Unchanged x (nextPc x s) s t ∧
    ∃ slots : List QSlot, slots.length = (if sz = .d then 2 else 1) ∧ (∀ e ∈ slots, e.val = none) ∧
      qOf t q = qOf s q ++ slots ∧ IssuedAccess x h true ac va (· = .load sp segs sz q (slots.map (·.id)) z) s t
  let passes (va : Word) : Prop := va.toNat % size = 0 ∧ globalCheck s .l false va size true false .unbound = .ok ps
  let room (q : Fin 20) : Prop := (qOf s q).length + (if sz = .d then 2 else 1) ≤ 64
  let img := winOf s w
  let fur := furOf s f.toFin
  let pr := regOf x s (pitch.setWidth 6)
  (Acts x h [rId ab] s → passes ea → room (lqIdx n) →
    Answers (.ld h zp sz n ab ac off) s (load (lqIdx n) false (piecesSegs ps) zp ea)) ∧
  (Acts x h [rId ab] s → passes ea → room (iqIdx k) →
    Answers (.ldi h sz k ab ac off) s (load (iqIdx k) false (piecesSegs ps) false ea)) ∧
  (Acts x h [rId ab] s → ea.toNat % size = 0 → spadMap s false ea.toNat size = some p →
    (∀ y ∈ s.spadBad, ¬(p ≤ y ∧ y < p + size)) → room (lqIdx n) →
    Answers (.ldp h sz n ab ac off) s (load (lqIdx n) true [⟨p, size⟩] false ea)) ∧
  (Acts x h [rId ab] s → (qPresent s (iqIdx k)).head? = some e → e.poison = none →
    (let va := ea + BitVec.ofNat 64 ((e.val.getD 0).toNat * size)
     passes va → room (lqIdx n) → Answers (.ldg h zp sz k n ab ac off) s (fun t =>
       load (lqIdx n) false (piecesSegs ps) zp va t ∧ qOf t (iqIdx k) = (qOf s (iqIdx k)).drop 1))) ∧
  (Acts x h [rId ab, wId w] s → winCount img = 0 →
    Answers (.ldw h w ab ac off) s (fun t => After x s t (nextPc x s))) ∧
  (Acts x h [rId ab, wId w] s → winCount img ≠ 0 → moveWindow s w.toNat img false = .ok disp →
    ea.toNat % elemSize (winFmt img) = 0 → globalCheck s .l false ea (winBytes img) true false (winInto img) = .ok ps →
    Answers (.ldw h w ab ac off) s (fun t => Unchanged x (nextPc x s) s t ∧
      IssuedAccess x h true ac ea (· = .loadWindow (piecesSegs ps) img) s t)) ∧
  (Acts x h [rId ab, rId (pitch.setWidth 6)] s → fur.cap ≠ 0 → tileMisaligned fur.fmt ea pr = false →
    runsCheck s .l false (tileRuns fur.fmt ea pr) true false (.furrow f.toFin) = .ok ps →
    fur.present + fur.fill.length < fur.cap →
    Answers (.ldr h f pitch ab ac off) s (fun t =>
      t.task.furrows = s.task.furrows.set f.toFin { fur with fill := fur.fill ++ [false] } ∧
      IssuedAccess x h true ac ea (fun a => ∃ rows, a = .loadTile rows [] f.toFin (nextSlot fur)) s t ∧
      t.mem = s.mem ∧ t.spad = s.spad ∧ (ctxOf t x).still = (ctxOf s x).still ∧ (ctxOf t x).pc = nextPc x s ∧
      ∀ y, y ≠ x → ctxOf t y = ctxOf s y)) ∧
  (∀ y : Issuer, y = .l ∨ y = .s → Acts y h [rId ab] s →
    Answers (.pf h tr ab off) s (fun t => Unchanged y (nextPc y s) s t))

/-- R163, R168, R170, R172, R173: the words of S issue their stores: `st`, `stp` and `stg` take the elements at the head
of their queues, `stg` its index first; `stw` the elements of its window, `stt` the slot of its furrow's oldest unclaimed
tile, each once S's earlier stores to the scratchpad and its marks let it (log 82), with what a check of the headland has
corrected. No byte of memory changes at the issue. (What the manual leaves to inference here is the model's reading: log
25.) -/
def Obligations.StoresIssue : Prop := ∀ (s s1 : State) (h : Hdr) (keep : Bool) (sz : Sz) (n k : Fin 8) (w : BitVec 5)
    (f pitch : BitVec 4) (ab : BitVec 6) (ac : BitVec 3) (off : BitVec 16) (ps : List Piece) (p : Nat) (i : QSlot)
    (l : List QSlot) (disp : Int),
  let x : Issuer := .s
  let ea := regOf x s ab + off.signExtend 64
  let size := szBytes sz
  let count := if sz = .d then 2 else 1
  let value : Nat := match l with
    | [a] => (a.val.getD 0).toNat
    | [a, b] => (a.val.getD 0).toNat + 2 ^ 32 * (b.val.getD 0).toNat
    | _ => 0
  let data := leBytes size value
  let heads (q : Fin 20) (m : Nat) : Prop :=
    ((qPresent s q).drop m).take count = l ∧ l.length = count ∧ ∀ a ∈ l, a.poison = none
  let passes (va : Word) (len : Nat) : Prop := globalCheck s .s false va len false true .unbound = .ok ps
  let lets (u : State) : Prop := egressPassed u .sStore s.task.ctx (egressBytes ps) = true
  let img := winOf s w
  let span := (winSpan img).getD (0, 0)
  let fur := furOf s f.toFin
  let pr := regOf x s (pitch.setWidth 6)
  let at_ := if keep then 0 else claimed s f.toFin
  let slot := slotNum fur at_
  (Acts x h [rId ab] s → heads (sqIdx n) 0 → ea.toNat % size = 0 → passes ea size → lets s →
    Answers (.st h sz n ab ac off) s (fun t => Unchanged x (nextPc x s) s t ∧
      qOf t (sqIdx n) = (qOf s (sqIdx n)).drop count ∧
      IssuedAccess x h false ac ea (· = .store false (piecesSegs ps) data none) s t)) ∧
  (Acts x h [rId ab] s → heads (sqIdx n) 0 → ea.toNat % size = 0 → spadMap s false ea.toNat size = some p →
    Answers (.stp h sz n ab ac off) s (fun t => Unchanged x (nextPc x s) s t ∧
      qOf t (sqIdx n) = (qOf s (sqIdx n)).drop count ∧
      IssuedAccess x h false ac ea (· = .store true [⟨p, size⟩] data none) s t)) ∧
  (Acts x h [rId ab] s → k ≠ n → (qPresent s (sqIdx k)).head? = some i → i.poison = none → heads (sqIdx n) 0 →
    (let va := ea + BitVec.ofNat 64 ((i.val.getD 0).toNat * size)
     va.toNat % size = 0 → passes va size → lets s →
     Answers (.stg h sz k n ab ac off) s (fun t => Unchanged x (nextPc x s) s t ∧
       qOf t (sqIdx k) = (qOf s (sqIdx k)).drop 1 ∧ qOf t (sqIdx n) = (qOf s (sqIdx n)).drop count ∧
       IssuedAccess x h false ac va (· = .store false (piecesSegs ps) data none) s t))) ∧
  (Acts x h [rId ab] s → (qPresent s (sqIdx n)).head? = some i → i.poison = none → heads (sqIdx n) 1 →
    (let va := ea + BitVec.ofNat 64 ((i.val.getD 0).toNat * size)
     va.toNat % size = 0 → passes va size → lets s →
     Answers (.stg h sz n n ab ac off) s (fun t => Unchanged x (nextPc x s) s t ∧
       qOf t (sqIdx n) = (qOf s (sqIdx n)).drop (1 + count) ∧
       IssuedAccess x h false ac va (· = .store false (piecesSegs ps) data none) s t))) ∧
  (Acts x h [rId ab, wId w] s → winCount img = 0 →
    Answers (.stw h w ab ac off) s (fun t => After x s t (nextPc x s))) ∧
  (Acts x h [rId ab, wId w] s → winCount img ≠ 0 → moveWindow s w.toNat img true = .ok disp →
    ea.toNat % elemSize (winFmt img) = 0 → passes ea (winBytes img) → bytesSettled s = true →
    boundMeets s false span.1.toNat (span.2 - span.1).toNat = none →
    checkTiles 0 disp (tilesMeeting s (((span.1.toNat : Nat) : Int) + disp).toNat (span.2 - span.1).toNat) s = (s1, none) →
    windowBad s1 img disp = false → lets s1 →
    Answers (.stw h w ab ac off) s (fun t => Unchanged x (nextPc x s) s1 t ∧ t.mem = s.mem ∧
      IssuedAccess x h false ac ea (· = .store false (piecesSegs ps) (windowOut s1 img disp) none) s t)) ∧
  (Acts x h [rId ab, rId (pitch.setWidth 6)] s → fur.cap ≠ 0 → tileMisaligned fur.fmt ea pr = false →
    runsCheck s .s false (tileRuns fur.fmt ea pr) false true .unbound = .ok ps → bytesSettled s = true →
    furrowBound s f.toFin = false →
    at_ < fur.present →
    checkTiles slot ((slotPhys s fur slot : Int) - slotAt fur slot) (slotRec s f.toFin slot).toList s = (s1, none) →
    anyBad s1.spadBad (slotPhys s fur slot) (slotBytes fur.fmt) = false → lets s1 →
    Answers (.stt h keep f pitch ab ac off) s (fun t => Unchanged x (nextPc x s) s1 t ∧ t.mem = s.mem ∧
      IssuedAccess x h false ac ea (· = .store false (piecesSegs ps)
        (memRead s1.spad (slotPhys s fur slot) (slotBytes fur.fmt)) (if keep then none else some f.toFin)) s t))

/-- R159, R160, R166, R175: `qfl` marks its queue, to be emptied at the end of the cycle, after its pops: the elements
present go and those still due stay, but for L's those of the loads that it reaches; of these, L drops the loads that have
not started, and waits for the others, whose data are discarded; `qln` writes the number of elements present. (What the manual leaves to inference here is the
model's reading: log 25.) -/
def Obligations.QueueWordsAct : Prop := ∀ (x : Issuer) (s : State) (h : Hdr) (q : QName) (d : BitVec 6) (e : Fin 768),
  let i := qnameIdx q
  let present := (qOf s i).takeWhile (fun e => e.val.isSome)
  let due := (qOf s i).drop present.length
  let m := s.task.l.marks
  let reached (k : Nat) : Bool := m == 0 || decide (k < m)
  let issuedNow := (ctxOf s x).popped = some (ctxOf s x).pc
  let hit (a : Access) : Bool := match a.kind with
    | .load _ _ _ q' _ _ => q' == i && reached a.marks
    | _ => false
  let left := (s.task.accesses.filter (fun a => !(hit a && !canPerform s a))).map (fun a =>
    if hit a then { a with kind := match a.kind with
      | .load sp ss sz q _ zp => .load sp ss sz q [] zp
      | k => k } else a)
  let waits (l : List Access) : Prop := ∃ a ∈ l, ∃ sp ss sz zp, a.kind = .load sp ss sz i [] zp
  Acts x h [] s →
  (x ≠ .l → Answers (.qfl h q) s (fun t =>
    After x { s with task.flushes := s.task.flushes ++ [⟨i, none⟩] } t (nextPc x s))) ∧
  (x = .l → ¬issuedNow → ¬waits left → Answers (.qfl h q) s (fun t => Unchanged x (nextPc x s) s t ∧
    t.task.flushes = s.task.flushes ++ [⟨i, some m⟩] ∧ t.task.accesses = left)) ∧
  (x = .l → ¬issuedNow → waits left → Answers (.qfl h q) s (fun t => Unchanged x (ctxOf s x).pc s t ∧
    t.task.flushes = s.task.flushes ++ [⟨i, some m⟩] ∧ t.task.accesses = left)) ∧
  (x = .l → issuedNow → ¬waits s.task.accesses → Answers (.qfl h q) s (fun t => After x s t (nextPc x s))) ∧
  qOf (applyFlush s ⟨i, none⟩) i = due ∧ qOf (applyFlush s ⟨i, some m⟩) i = due.filter (fun e => !e.load.any reached) ∧
  (∀ f j, j ≠ i → qOf (applyFlush s ⟨i, f⟩) j = qOf s j) ∧
  Answers (.qln h (.areg d) q) s (WroteReg x d (BitVec.ofNat 64 present.length) (nextPc x s) s) ∧
  (x = .c → latchRoom s = true → Answers (.qln h (.ereg e) q) s (fun t => Unchanged x (nextPc x s) s t ∧
    Landing (.e e) (BitVec.ofNat 32 present.length) 1 s t))

/-- R162, R164, R169, R170, R176, R182: the steps that perform issued accesses, once ordering lets them. A load's bytes
fill the slots it reserved, poisoned when a byte was, zeroed under `.zp`; a store's bytes reach their places and every
other byte keeps its value; an access that is not there, or may not go, changes nothing. TLB_INVALIDATE takes a
translation from every TLB, puts what the remap gives into the page tables where it can be a translation, and is
acknowledged at once when nothing that was issued uses the page. (What the manual leaves to inference here
is the model's reading: logs 45, 69.)

R171, R172, R173, R177, R257: a performed `stt` pops its furrow; the bytes of an `ldw` reach the elements of its
window, those of an `ldr` their furrow's slot; a slot whose predecessors have all joined joins the furrow with them. No other byte of scratchpad changes, and none of
memory. -/
def Obligations.AccessesArePerformed : Prop :=
  (∀ (s : State) (id pa : Nat) (a : Access) (segs : List Seg) (sz : Sz)
      (q : Fin 20) (i j : Nat) (zp sp : Bool) (bs : List (BitVec 8)),
    let gone (t : State) : Prop := t.task.accesses = s.task.accesses.filter (fun b => b.id != id) ∧
      t.task.pushes = s.task.pushes ++ a.pushes.map (fun p => ⟨p.1, p.2, s.now⟩)
    let bytes := segRead (if sp then s.spad else s.mem) segs
    let bad := segsBad (if sp then s.spadBad else s.memBad) segs
    let fill (m : Nat) (v : Elem) (poison : Option Word) (e : QSlot) : QSlot :=
      if e.id = m then { e with val := some v, poison := poison } else e
    let still (t : State) : Prop := t.mem = s.mem ∧ t.spad = s.spad ∧ (∀ y, ctxOf t y = ctxOf s y) ∧
      t.task.e = s.task.e ∧ ∀ q', q' ≠ q → qOf t q' = qOf s q'
    (s.task.accesses.find? (fun b => b.id == id) = none →
      exec (.loadArrival id) s = .next s ∧ exec (.accessPerformed id) s = .next s ∧ exec (.slotJoin id) s = .next s) ∧
    (s.task.accesses.find? (fun b => b.id == id) = some a → canPerform s a = false →
      exec (.loadArrival id) s = .next s ∧ exec (.accessPerformed id) s = .next s ∧ exec (.slotJoin id) s = .next s) ∧
    (s.task.accesses.find? (fun b => b.id == id) = some a → canPerform s a = true →
      a.kind = .load sp segs sz q [i] zp → sz ≠ .d →
      Answers (.loadArrival id) s (fun t => gone t ∧ still t ∧
        qOf t q = (qOf s q).map (fill i (if bad && zp then 0 else (extendSz sz (leVal bytes)).setWidth 32)
          (if bad && !zp then some a.va else none)))) ∧
    (s.task.accesses.find? (fun b => b.id == id) = some a → canPerform s a = true →
      a.kind = .load sp segs sz q [i, j] zp → sz = .d → bad = false →
      Answers (.loadArrival id) s (fun t => gone t ∧ still t ∧
        qOf t q = (qOf s q).map (fun e => fill j (BitVec.ofNat 32 (leVal bytes / 2 ^ 32)) none
          (fill i (BitVec.ofNat 32 (leVal bytes)) none e)))) ∧
    (s.MemWf → s.task.accesses.find? (fun b => b.id == id) = some a → canPerform s a = true →
      a.kind = .store sp [⟨pa, bs.length⟩] bs none →
      Answers (.accessPerformed id) s (fun t => gone t ∧ (∀ y, ctxOf t y = ctxOf s y) ∧ t.task.e = s.task.e ∧
        (if sp then t.mem = s.mem ∧ memRead t.spad pa bs.length = bs ∧
            ∀ y, ¬(pa ≤ y ∧ y < pa + bs.length) → memGet t.spad y = memGet s.spad y
          else t.spad = s.spad ∧ memRead t.mem pa bs.length = bs ∧
            ∀ y, ¬(pa ≤ y ∧ y < pa + bs.length) → memGet t.mem y = memGet s.mem y))) ∧
    (∀ ctx vbase e,
      Answers (.tlbInvalidate ctx vbase e) s (fun t =>
        (∀ b p, p ∈ tlbOf t b ↔ p ∈ tlbOf s b ∧ ¬(p.ctx = ctx ∧ p.vbase = vbase)) ∧
        (∀ p, p ∈ t.pages ↔ (p ∈ s.pages ∧ ¬(p.ctx = ctx ∧ p.vbase = vbase)) ∨ (e = some p ∧ pageFits p = true)) ∧
        (s.task.accesses = [] → s.checkq = [] → t.shootdowns = []) ∧ t.mem = s.mem))) ∧
  (∀ (s : State) (id : Nat) (a : Access) (segs : List Seg) (img : BitVec 64)
      (disp lo hi : Int) (f : Fin 16) (slot : Nat),
    let v := furOf s f
    let p := slotPhys s v slot
    let bytes := segRead s.mem segs
    s.MemWf → s.task.accesses.find? (fun b => b.id == id) = some a → canPerform s a = true →
    (a.kind = .loadWindow segs img → winPhys s img = some disp → winSpan img = some (lo, hi) → 0 ≤ lo + disp →
      (∀ b ∈ s.memBad, ∀ g ∈ segs, ¬(g.pa ≤ b ∧ b < g.pa + g.len)) →
      Answers (.accessPerformed id) s (fun t => t.mem = s.mem ∧ (∀ y, ctxOf t y = ctxOf s y) ∧ t.task.e = s.task.e ∧
        (∀ y : Nat, ¬(lo + disp ≤ y ∧ (y : Int) < hi + disp) → memGet t.spad y = memGet s.spad y) ∧
        (winStride img = 1 → fmtBits (winFmt img) % 8 = 0 → bytes.length = winBytes img →
          memRead t.spad (lo + disp).toNat (winBytes img) = bytes))) ∧
    (a.kind = .loadTile segs [] f slot → v.fill = [false] → slot = slotNum v v.present → slot < v.cap →
      Answers (.slotJoin id) s (fun t => t.mem = s.mem ∧ (∀ y, ctxOf t y = ctxOf s y) ∧
        memRead t.spad p bytes.length = bytes ∧
        (∀ y, ¬(p ≤ y ∧ y < p + bytes.length) → memGet t.spad y = memGet s.spad y) ∧
        furOf t f = { v with present := v.present + 1, fill := [] } ∧ ∀ g, g ≠ f → furOf t g = furOf s g)) ∧
    (∀ ss bs, a.kind = .store false ss bs (some f) → 0 < v.present →
      Answers (.accessPerformed id) s (fun t => t.spad = s.spad ∧ (∀ y, ctxOf t y = ctxOf s y) ∧
        furOf t f = { v with head := (v.head + 1) % v.cap, present := v.present - 1 } ∧ ∀ g, g ≠ f → furOf t g = furOf s g)))

/-! ### Element words of C (chapter 07) -/

/-- R192, R194, R197 to R204: the element words send the value of their function to their destination, to land after
their latency; a word whose destination has no room, or one of whose operands is not there, waits. No value changes at the
issue but that queues give up the elements that were read.

R46, R47, R188, R194: an element operand reads the register that its code names now (in the rotating region the code
moves by ROFF), a constant, or the head of a load queue, which it pops; with no element there the word waits, and a
poisoned one is ECC_UC with the address of its load.

R201: the compares of C write their relation to one predicate.

R47, R188, R192, R194 to R204: EVERY ELEMENT WORD OF C COMPLETES: when its operands can be read (each queue that it names
holds as many landed elements, none of them poisoned, as it names it), its destination has room and C has a latch free, the
word answers a next state. The value sent, or the predicate written, is its function of the operands: a register as it is
mapped now, a constant, an element of a queue from its head on in the order in which the word names it. -/
def Obligations.ElementWordsReadAndSend : Prop :=
  (∀ (s s1 : State) (h : Hdr) (ed ea eb : EOp) (vs : List Elem) (fn : FopFn)
      (ifn : IopFn) (c : Addend) (r : Rnd) (dst src : Fmt) (i18 : BitVec 18) (i14 : BitVec 14) (n : Fin 768),
    let x : Issuer := .c
    let sends (i : Instr) (o : EOp) (srcs : List EOp) (lat : Nat) (v : List Elem → Elem) : Prop :=
      Acts x h (srcs.flatMap (opIds s)) s → o.isDst = true → latchRoom s = true → destRoom s o = true →
      sources srcs s = .ok (vs, s1) →
      Answers i s (fun t => Unchanged x (nextPc x s) s t ∧ Landing o (v vs) lat s t ∧
        ∀ q, qOf t (lqIdx q) = qOf s1 (lqIdx q))
    let addend : EOp := match c with
      | .ed => ed
      | .lq m => .lq m
    sends (.fop h fn ed ea eb) ed (if fn = .fabs ∨ fn = .fneg then [ea] else [ea, eb]) 4
      (fun vs => fopFn fn (vs.getD 0 0) (vs.getD 1 0)) ∧
    sends (.fma h c ed ea eb) ed [ea, eb, addend] 4 (fun vs => fma32 false (vs.getD 0 0) (vs.getD 1 0) (vs.getD 2 0)) ∧
    sends (.fnma h c ed ea eb) ed [ea, eb, addend] 4 (fun vs => fma32 true (vs.getD 0 0) (vs.getD 1 0) (vs.getD 2 0)) ∧
    sends (.frcp h ed ea) ed [ea] 6 (fun vs => estimate (vunEx .rcp (val32 (vs.getD 0 0)))) ∧
    sends (.frsq h ed ea) ed [ea] 6 (fun vs => estimate (vunEx .rsq (val32 (vs.getD 0 0)))) ∧
    sends (.frfr h ed ea eb) ed [ea, eb] 6 (fun vs => frfrFn (vs.getD 0 0) (vs.getD 1 0)) ∧
    sends (.frfs h ed ea eb) ed [ea, eb] 6 (fun vs => frfsFn (vs.getD 0 0) (vs.getD 1 0)) ∧
    sends (.iop h ifn ed ea eb) ed [ea, eb] 1 (fun vs => iopFn ifn (vs.getD 0 0) (vs.getD 1 0)) ∧
    sends (.fcvt h dst src r ed ea) ed [ea] 2
      (fun vs => BitVec.ofNat 32 (roundDraw 1 dst r (elemVal src (vs.getD 0 0).toNat) s1).1) ∧
    sends (.eli h ed i18) ed [] 1 (fun _ => i18.signExtend 32) ∧
    sends (.elih h n i14) (.e n) [.e n] 1 (fun vs => i14 ++ (vs.getD 0 0).setWidth 18) ∧
    sends (.emov h ed ea) ed [ea] 1 (fun vs => vs.getD 0 0) ∧
    (Acts x (Hdr.noGuard h) (pId h.pq :: [ea, eb].flatMap (opIds s)) s → ed.isDst = true → latchRoom s = true →
      destRoom s ed = true → sources [ea, eb] s = .ok (vs, s1) →
      Answers (.esel h ed ea eb) s (fun t => Unchanged x (nextPc x s) s t ∧
        Landing ed (if ctxPred (ctxOf s x) h.pq != h.neg then vs.getD 0 0 else vs.getD 1 0) 1 s t)) ∧
    (Acts x h [] s → latchRoom s = false → exec (.eli h ed i18) s = .next (block x s))) ∧
  (∀ (s : State) (n : Fin 768) (q : Fin 8) (e : QSlot),
    let rb := 8 * s.task.rbase.toNat
    let rs := 8 * s.task.rsize.toNat
    sources [.e n] s = .ok ([s.task.e[mapE s n]], s) ∧ sources [.zero] s = .ok ([0], s) ∧
    sources [.one] s = .ok ([0x3F800000], s) ∧
    (rb + rs ≤ 768 → (mapE s n).val =
      if 0 < rs ∧ rb ≤ n.val ∧ n.val < rb + rs then rb + (n.val - rb + s.task.roff.toNat) % rs else n.val) ∧
    (qPresent s (lqIdx q) = [] → sources [.lq q] s = .error .wait) ∧
    (∀ rest v, qOf s (lqIdx q) = e :: rest → e.val = some v →
      sources [.lq q] s = match e.poison with
        | some va => .error (.ecc va)
        | none => .ok ([v], { s with task.queues := s.task.queues.set (lqIdx q) rest }))) ∧
  (∀ (s s1 : State) (h : Hdr) (p : BitVec 4) (ea eb : EOp) (a b : Elem)
      (fc : FcmpCc) (ic : CmpCc),
    let x : Issuer := .c
    let relation : Bool := match ic with
      | .eq => decide (a = b)
      | .ne => decide (a ≠ b)
      | .lt => decide (a.toInt < b.toInt)
      | .ge => decide (b.toInt ≤ a.toInt)
      | .ltz => decide (a.toNat < b.toNat)
      | .gez => decide (b.toNat ≤ a.toNat)
    Acts x h ([ea, eb].flatMap (opIds s)) s → sources [ea, eb] s = .ok ([a, b], s1) →
    Answers (.icmp h ic p ea eb) s (WrotePred x p relation (nextPc x s) s) ∧
    Answers (.fcmp h fc p ea eb) s (WrotePred x p (fcmpRel fc (val32 a) (val32 b)) (nextPc x s) s)) ∧
  (∀ (s : State) (h : Hdr) (ed ea eb : EOp) (q : Fin 8) (fn : FopFn) (ifn : IopFn)
      (r : Rnd) (dst src : Fmt) (p : BitVec 4) (fc : FcmpCc) (ic : CmpCc) (i18 : BitVec 18) (i14 : BitVec 14) (n : Fin 768),
    let x : Issuer := .c
    let isSource (o : EOp) : Prop := (∃ n, o = .e n) ∨ o = .zero ∨ o = .one ∨ ∃ q, o = .lq q
    let present (q : Fin 8) : List QSlot := (qOf s (lqIdx q)).takeWhile (fun e => e.val.isSome)
    let readable (srcs : List EOp) : Prop := (∀ o ∈ srcs, isSource o) ∧ ∀ q,
      srcs.count (.lq q) ≤ (present q).length ∧ ∀ e ∈ (present q).take (srcs.count (.lq q)), e.poison = none
    let operand (srcs : List EOp) (k : Nat) : Elem := match srcs.getD k .zero with
      | .e n => s.task.e[mapE s n]
      | .one => 0x3F800000
      | .lq q => (((present q)[(srcs.take k).count (.lq q)]?).bind (·.val)).getD 0
      | _ => 0
    let room (o : EOp) : Prop := (s.task.latches.filter (fun l => decide (s.now < l.land))).length < 8 ∧ match o with
      | .e _ => True
      | .sq n => (qOf s (sqIdx n)).length < 64
      | .iq n => (qOf s (iqIdx n)).length < 64
      | _ => False
    let sends (i : Instr) (o : EOp) (srcs : List EOp) (lat : Nat) (P : Elem → Prop) : Prop :=
      Acts x h (srcs.flatMap (opIds s)) s → readable srcs → room o →
      ∃ v, P v ∧ Answers i s (fun t => Unchanged x (nextPc x s) s t ∧ Landing o v lat s t)
    let two := [ea, eb]
    let a (k : Nat) : Elem := operand two k
    sends (.fop h fn ed ea eb) ed (if fn = .fabs ∨ fn = .fneg then [ea] else two) 4
      (· = fopFn fn (a 0) (if fn = .fabs ∨ fn = .fneg then 0 else a 1)) ∧
    sends (.fma h .ed ed ea eb) ed [ea, eb, ed] 4 (· = fma32 false (a 0) (a 1) (operand [ea, eb, ed] 2)) ∧
    sends (.fma h (.lq q) ed ea eb) ed [ea, eb, .lq q] 4 (· = fma32 false (a 0) (a 1) (operand [ea, eb, .lq q] 2)) ∧
    sends (.fnma h .ed ed ea eb) ed [ea, eb, ed] 4 (· = fma32 true (a 0) (a 1) (operand [ea, eb, ed] 2)) ∧
    sends (.fnma h (.lq q) ed ea eb) ed [ea, eb, .lq q] 4 (· = fma32 true (a 0) (a 1) (operand [ea, eb, .lq q] 2)) ∧
    sends (.frcp h ed ea) ed [ea] 6 (· = estimate (vunEx .rcp (val32 (a 0)))) ∧
    sends (.frsq h ed ea) ed [ea] 6 (· = estimate (vunEx .rsq (val32 (a 0)))) ∧
    sends (.frfr h ed ea eb) ed two 6 (· = frfrFn (a 0) (a 1)) ∧
    sends (.frfs h ed ea eb) ed two 6 (· = frfsFn (a 0) (a 1)) ∧
    sends (.fcvt h dst src r ed ea) ed [ea] 2
      (fun v => ∃ noise, v = BitVec.ofNat 32 (roundTo dst r noise (elemVal src (a 0).toNat))) ∧
    sends (.iop h ifn ed ea eb) ed two 1 (· = iopFn ifn (a 0) (a 1)) ∧
    sends (.eli h ed i18) ed [] 1 (· = i18.signExtend 32) ∧
    sends (.elih h n i14) (.e n) [.e n] 1 (· = i14 ++ (s.task.e[mapE s n]).setWidth 18) ∧
    sends (.emov h ed ea) ed [ea] 1 (· = a 0) ∧
    (Acts x (Hdr.noGuard h) (pId h.pq :: two.flatMap (opIds s)) s → readable two → room ed →
      Answers (.esel h ed ea eb) s (fun t => Unchanged x (nextPc x s) s t ∧
        Landing ed (if ctxPred (ctxOf s x) h.pq != h.neg then a 0 else a 1) 1 s t)) ∧
    (Acts x h (two.flatMap (opIds s)) s → readable two →
      Answers (.fcmp h fc p ea eb) s (WrotePred x p (fcmpRel fc (val32 (a 0)) (val32 (a 1))) (nextPc x s) s) ∧
      Answers (.icmp h ic p ea eb) s (WrotePred x p (cmpRel ic (a 0) (a 1)) (nextPc x s) s)))

/-- R197, R203: the functions of `iop` on 32-bit words, and the functions of `fop` that move bits.

R62, R197, R198, R201: a NaN operand makes the arithmetic functions the one NaN, every relation of `fcmp` false
but `fun`, which is true of nothing else; equal words that are no NaN compare equal. -/
def Obligations.ElementFunctionsCompute : Prop :=
  (∀ a b : Elem,
    (iopFn .add a b).toNat = (a.toNat + b.toNat) % 2 ^ 32 ∧ (iopFn .sub a b).toNat = (a.toNat + (2 ^ 32 - b.toNat)) % 2 ^ 32 ∧
    (iopFn .mul a b).toNat = a.toNat * b.toNat % 2 ^ 32 ∧ (iopFn .mulh a b).toInt = a.toInt * b.toInt / 2 ^ 32 ∧
    (iopFn .min a b).toInt = min a.toInt b.toInt ∧ (iopFn .max a b).toInt = max a.toInt b.toInt ∧
    (iopFn .minz a b).toNat = min a.toNat b.toNat ∧ (iopFn .maxz a b).toNat = max a.toNat b.toNat ∧
    ∀ i, i < 32 →
      (iopFn .and a b).getLsbD i = (a.getLsbD i && b.getLsbD i) ∧ (iopFn .or a b).getLsbD i = (a.getLsbD i || b.getLsbD i) ∧
      (iopFn .xor a b).getLsbD i = (a.getLsbD i != b.getLsbD i) ∧
      (iopFn .shl a b).getLsbD i = (decide (b.toNat % 32 ≤ i) && a.getLsbD (i - b.toNat % 32)) ∧
      (iopFn .shr a b).getLsbD i = a.getLsbD (i + b.toNat % 32) ∧
      (iopFn .sar a b).getLsbD i = a.getLsbD (Nat.min (i + b.toNat % 32) 31) ∧
      (fopFn .fabs a b).getLsbD i = (decide (i ≠ 31) && a.getLsbD i) ∧
      (fopFn .fneg a b).getLsbD i = (decide (i = 31) != a.getLsbD i) ∧
      (fopFn .fsgn a b).getLsbD i = if i = 31 then b.getLsbD i else a.getLsbD i) ∧
  (∀ (a b c : Elem) (neg : Bool),
    let nan (v : Elem) : Prop := v.extractLsb' 23 8 = 0xFF ∧ v.extractLsb' 0 23 ≠ 0
    (nan a ∨ nan b →
      (∀ fn ∈ [FopFn.fadd, .fsub, .fmul, .fmin, .fmax], fopFn fn a b = 0x7FC00000) ∧
      (∀ c, fma32 neg a b c = 0x7FC00000) ∧ (∀ cc, fcmpRel cc (val32 a) (val32 b) = decide (cc = .fun_))) ∧
    (nan c → fma32 neg a b c = 0x7FC00000) ∧
    (¬nan a → fcmpRel .feq (val32 a) (val32 a) = true ∧ fcmpRel .fle (val32 a) (val32 a) = true ∧
      fcmpRel .flt (val32 a) (val32 a) = false ∧ fcmpRel .fun_ (val32 a) (val32 a) = false))

/-- R205: `eld` sends the word of the scratchpad at base plus offset, `est` stores a register there and changes no other
byte; an address that is no multiple of 4 is ALIGN, one out of range PROT. -/
def Obligations.ElementAccesses : Prop := ∀ (s : State) (h : Hdr) (ed : EOp) (data : Fin 768) (base : Option (Fin 768))
    (off : BitVec 18) (a p : Nat),
  let x : Issuer := .c
  let b : Int := match base with
    | some n => (getE s n).toNat
    | none => 0
  let ids : List Nat := match base with
    | some n => [eId s n]
    | none => []
  let addr : Int := b + off.toInt
  let faults (c : Cause) : Prop :=
    (Acts x h ids s → exec (.eld h ed base off) s = .next (takeTrap x ⟨c, 0, BitVec.ofInt 64 addr⟩ (ctxOf s x).pc s)) ∧
    (Acts x h (eId s data :: ids) s →
      exec (.est h data base off) s = .next (takeTrap x ⟨c, 0, BitVec.ofInt 64 addr⟩ (ctxOf s x).pc s))
  (Acts x h ids s → ed.isDst = true → addr = a → a % 4 = 0 → spadMap s false a 4 = some p →
    anyBad s.spadBad p 4 = false → latchRoom s = true → destRoom s ed = true →
    Answers (.eld h ed base off) s (fun t => Unchanged x (nextPc x s) s t ∧
      Landing ed (BitVec.ofNat 32 (leVal (memRead s.spad p 4))) 8 s t)) ∧
  (s.MemWf → Acts x h (eId s data :: ids) s → addr = a → a % 4 = 0 → spadMap s false a 4 = some p →
    Answers (.est h data base off) s (fun t => memRead t.spad p 4 = leBytes 4 (getE s data).toNat ∧
      (∀ y, ¬(p ≤ y ∧ y < p + 4) → memGet t.spad y = memGet s.spad y) ∧ t.mem = s.mem ∧ t.task.e = s.task.e ∧
      t.task.latches = s.task.latches ∧ (ctxOf t x).still = (ctxOf s x).still ∧ (ctxOf t x).pc = nextPc x s ∧
      ∀ y, y ≠ x → ctxOf t y = ctxOf s y)) ∧
  (addr % 4 ≠ 0 → faults .align) ∧ (addr % 4 = 0 → addr < 0 → faults .prot) ∧
  (addr = a → a % 4 = 0 → spadMap s false a 4 = none → faults .prot)

/-- R192, R193, R210: the oldest result that is due lands: its register takes the value, or its slot of a queue becomes
present; a lost result is made again and comes, with every other result, 4 cycles and its latency later, and one that is
lost again is noted for C's next word; with none due nothing changes. (What
the manual leaves to inference here is the model's reading: log 22.) -/
def Obligations.ResultsLand : Prop := ∀ (s : State) (l : Latch),
  let due := s.task.latches.find? (fun l => decide (l.land ≤ s.now))
  (due = none → exec .resultLanding s = .next s) ∧
  (∀ n, due = some l → l.corrupt = none → l.dest = .reg n →
    Answers .resultLanding s (fun t => t.task.e = s.task.e.set n l.val ∧ t.task.latches = s.task.latches.erase l ∧
      t.task.queues = s.task.queues ∧ t.mem = s.mem ∧ t.spad = s.spad)) ∧
  (∀ q id, due = some l → l.corrupt = none → l.dest = .queue q id →
    Answers .resultLanding s (fun t => t.task.e = s.task.e ∧ t.task.latches = s.task.latches.erase l ∧
      qOf t q = (qOf s q).map (fun e => if e.id = id then { e with val := some l.val, poison := none } else e) ∧
      (∀ q', q' ≠ q → qOf t q' = qOf s q') ∧ t.mem = s.mem ∧ t.spad = s.spad)) ∧
  (∀ again, due = some l → l.corrupt = some again →
    Answers .resultLanding s (fun t => t.task.e = s.task.e ∧ t.task.queues = s.task.queues ∧
      t.task.latchFail = (s.task.latchFail || again) ∧
      t.task.latches = s.task.latches.map (fun m =>
        if m = l then { m with corrupt := none, land := m.land + (4 + l.lat) } else { m with land := m.land + (4 + l.lat) })))

/-! ### Vector-region words (chapter 08) -/

/-- R212, R213, R215, R82: an element of a window whose format has whole bytes is the bytes at its base plus its distance,
low byte first; writing it changes those bytes and no other byte, and the windows, the element registers, memory and the
streams stay as they are. A bitmask element is one bit of its byte.

R218, R216: the window checks in their order, on `vmov`, whose windows may have any format but the same one: an
unconfigured window is WINDOW with reason 0, two formats reason 9, a base that does not suit the format ALIGN, a span
outside the scratchpad reason 1, a packed format that is not dense reason 2, two counts reason 3, an overlap that is not
identity reason 4. Each is precise; a WINDOW fault has the window's number in the detail and its image for the operand, ALIGN
has no detail and the base for the operand. That an unconfigured window comes before differing formats, and wd before wa
within one check, is the model's reading (log 21). -/
def Obligations.WindowsHoldElementsOrFault : Prop :=
  (∀ (s : State) (w : Win) (i v k : Nat),
    let at_ : Int := winBase w.img + w.disp + i * winStride w.img * k
    let t := w.put i v s
    let still := t.mem = s.mem ∧ t.task.w = s.task.w ∧ t.task.e = s.task.e ∧ ∀ y, ctxOf t y = ctxOf s y
    s.MemWf →
    (fmtBits w.fmt = 8 * k → 0 ≤ at_ →
      w.get s i = memWord s.spad at_.toNat k ∧ memRead t.spad at_.toNat k = leBytes k (v % 2 ^ (8 * k)) ∧
      (∀ y, ¬(at_.toNat ≤ y ∧ y < at_.toNat + k) → memGet t.spad y = memGet s.spad y) ∧ still) ∧
    (w.fmt = .bitmask → winStride w.img = 1 → 0 ≤ winBase w.img + w.disp →
      let b := (winBase w.img + w.disp).toNat + i / 8
      (w.get s i = 1 ↔ (memWord s.spad b 1).testBit (i % 8) = true) ∧
      (∀ j, j < 8 → (memWord t.spad b 1).testBit j = if j = i % 8 then v.testBit 0 else (memWord s.spad b 1).testBit j) ∧
      (∀ y, y ≠ b → memGet t.spad y = memGet s.spad y) ∧ still)) ∧
  (∀ (s : State) (h : Hdr) (wd wa : BitVec 5),
    let d := winOf s wd
    let a := winOf s wa
    let fault (reason : Nat) (n : BitVec 5) : Prop := exec (.vmov h wd wa) s =
      .next (takeTrap .c ⟨.window, reason * 2 ^ 21 + n.toNat * 2 ^ 16, winOf s n⟩ (ctxOf s .c).pc s)
    let misaligned (w : BitVec 64) : Prop := exec (.vmov h wd wa) s =
      .next (takeTrap .c ⟨.align, 0, BitVec.ofNat 64 (winBase w)⟩ (ctxOf s .c).pc s)
    let odd (w : BitVec 64) : Prop := packed (winFmt w) = false ∧ winBase w % elemSize (winFmt w) ≠ 0
    let open_ (w : BitVec 64) : Prop := packed (winFmt w) = true ∧ winStride w ≠ 1
    let f0 := winFmt d ≠ .none ∧ winFmt a ≠ .none
    let f1 := f0 ∧ winFmt d = winFmt a
    let f2 := f1 ∧ ¬odd d ∧ ¬odd a
    let f3 := f2 ∧ (winPhys s d).isSome ∧ (winPhys s a).isSome
    let f4 := f3 ∧ ¬open_ d ∧ ¬open_ a
    Acts .c h [wId wd, wId wa] s →
    (winFmt d = .none → fault 0 wd) ∧ (winFmt d ≠ .none → winFmt a = .none → fault 0 wa) ∧
    (f0 → winFmt d ≠ winFmt a → fault 9 wa) ∧
    (f1 → odd d → misaligned d) ∧ (f1 → ¬odd d → odd a → misaligned a) ∧
    (f2 → winPhys s d = none → fault 1 wd) ∧ (f2 → (winPhys s d).isSome → winPhys s a = none → fault 1 wa) ∧
    (f3 → open_ d → fault 2 wd) ∧ (f3 → ¬open_ d → open_ a → fault 2 wa) ∧
    (f4 → winCount d ≠ winCount a → fault 3 wd) ∧
    (f4 → winCount d = winCount a → spansMeet d a = true → winSame d a = false → fault 4 wa))

/-- R219, R227 to R232, R235, R236, R240, R244, R221: the element-wise words at a step that does all their elements: in
ascending order each element of the destination takes the function of the elements at its place, the next word issues
after the word's cycles, and nothing else changes but what writing the scratchpad and drawing noise change. That all elements
of a chunk are written in the step that does it is the model's choice (log 23), and the values of `vun`'s functions are
open values (log 11). -/
def Obligations.VectorWordsMap : Prop := ∀ (s s1 : State) (h : Hdr) (wd wa wb wm : BitVec 5) (ea : EOp) (ws : List Win)
    (vs : List Elem),
  let d := win ws 0
  let a := win ws 1
  let b := win ws 2
  let maps (i : Instr) (us : List Use) (cs : List Clash) (scal : List EOp) (n cycles : Nat) (srcs : List Win)
      (f : Nat → State → Nat × State) : Prop :=
    Acts .c h (us.map (fun u => wId u.num) ++ eReads s scal) s → progOf s = none → checkUses s us cs = .ok ws →
    sources scal s = .ok (vs, s1) →
    n ≤ chunkOf ws → (∀ w ∈ srcs, ∀ k, k < n → elemBad s w.img w.disp k = none) →
    Answers i s (fun t => After .c
      (holdUntil (s.now + cycles) ((List.range n).foldl (fun e k => d.put k (f k e).1 (f k e).2) (touchAll ws 0 n s1))) t
      (nextPc .c s))
  let g := passes a.count ws
  let same := sameN (cnt s wa)
  let x := arg vs 0
  let scalar := scalarEx d.fmt x
  let round (r : Rnd) (v : Ex) (e : State) : Nat × State := roundDraw 1 d.fmt r v e
  (∀ fn r, maps (.vop h fn r wd wa wb) [⟨wd, isFI, .kind, same⟩, ⟨wa, isFI, .kind, anyN⟩, ⟨wb, isFI, .kind, same⟩]
    [⟨0, 1, true⟩, ⟨0, 2, true⟩] [] a.count (4 + g) [a, b]
    (fun k e => round r (opEx fn (isRd r) (a.val e k) (b.val e k)) e)) ∧
  (∀ neg r, maps (.vfma h neg none r wd wa wb) [⟨wd, isFI, .kind, same⟩, ⟨wa, isFI, .kind, anyN⟩, ⟨wb, isFI, .kind, same⟩]
    [⟨0, 1, true⟩, ⟨0, 2, true⟩] [] a.count (4 + g) [a, b, d]
    (fun k e => round r (Ex.add (isRd r)
      (if neg then (Ex.mul (a.val e k) (b.val e k)).neg else Ex.mul (a.val e k) (b.val e k)) (d.val e k)) e)) ∧
  (∀ neg r, maps (.vfma h neg (some ea) r wd wa wb)
    [⟨wd, isFI, .kind, same⟩, ⟨wa, isFI, .kind, anyN⟩, ⟨wb, isFI, .kind, same⟩]
    [⟨0, 1, true⟩, ⟨0, 2, true⟩] [ea] a.count (4 + g) [a, b]
    (fun k e => round r (Ex.add (isRd r)
      (if neg then (Ex.mul (a.val e k) (b.val e k)).neg else Ex.mul (a.val e k) (b.val e k)) scalar) e)) ∧
  (∀ fn r, maps (.vsc h fn r wd wa ea) [⟨wd, isFI, .kind, same⟩, ⟨wa, isFI, .kind, anyN⟩]
    [⟨0, 1, true⟩] [ea] a.count (4 + g) [a] (fun k e => round r (opEx fn (isRd r) (a.val e k) scalar) e)) ∧
  (∀ fn r, fn ≠ .neg → fn ≠ .abs → maps (.vun h fn r wd wa) [⟨wd, isF, .free, same⟩, ⟨wa, isF, .free, anyN⟩]
    [⟨0, 1, true⟩] [] a.count (4 + 2 * g) [a] (fun k e => round r (vunEx fn (a.val e k)) e)) ∧
  (∀ fn r, fn = .neg ∨ fn = .abs → maps (.vun h fn r wd wa) [⟨wd, isFI, .format, same⟩, ⟨wa, isFI, .lead, anyN⟩]
    [⟨0, 1, true⟩] [] a.count (4 + g) [a] (fun k e => (negAbs fn d.fmt (a.get e k), e))) ∧
  (∀ r, maps (.vcvt h r wd wa) [⟨wd, isFI, .free, same⟩, ⟨wa, isFI, .free, anyN⟩] [⟨0, 1, true⟩] [] a.count (4 + g) [a]
    (fun k e => round r (a.val e k) e)) ∧
  (∀ cc, maps (.vcmp h cc none wd wa wb) [⟨wd, isB, .free, same⟩, ⟨wa, isFI, .kind, anyN⟩, ⟨wb, isFI, .kind, same⟩]
    [⟨0, 1, true⟩, ⟨0, 2, true⟩] [] a.count (4 + g) (ws.drop 1)
    (fun k e => (if vcmpRel cc (a.val e k) (b.val e k) then 1 else 0, e))) ∧
  (∀ cc, maps (.vcmp h cc (some ea) wd wa wb) [⟨wd, isB, .free, same⟩, ⟨wa, isFI, .kind, anyN⟩]
    [⟨0, 1, true⟩, ⟨0, 2, true⟩] [ea] a.count (4 + g) (ws.drop 1)
    (fun k e => (if vcmpRel cc (a.val e k) (scalarEx a.fmt x) then 1 else 0, e))) ∧
  maps (.vsel h wd wa wb wm) [⟨wd, isAny, .format, same⟩, ⟨wa, isAny, .format, anyN⟩, ⟨wb, isAny, .format, same⟩,
    ⟨wm, isB, .free, same⟩] [⟨0, 1, true⟩, ⟨0, 2, true⟩, ⟨0, 3, true⟩] [] a.count (4 + g) (ws.drop 1)
    (fun k e => (if (win ws 3).get e k = 1 then a.get e k else b.get e k, e)) ∧
  (∀ r, r.mode ≠ .sr → maps (.vfill h r wd ea) [⟨wd, isFIB, .free, anyN⟩] [] [ea] d.count (4 + passes d.count ws) []
    (fun _ e => (if isF d.fmt then roundTo d.fmt r 0 (val32 x)
      else if isI d.fmt then (BitVec.ofInt (fmtBits d.fmt) (satInt (Nat.min 32 (fmtBits d.fmt)) x.toInt)).toNat
      else x.toNat % 2, e))) ∧
  maps (.vrnd h false wd) [⟨wd, isFIB, .free, anyN⟩] [] [] d.count (4 + passes d.count ws) []
    (fun _ e => drawNoise 1 (fmtBits d.fmt) e) ∧
  maps (.vrnd h true wd) [⟨wd, isF, .free, anyN⟩] [] [] d.count (4 + passes d.count ws) []
    (fun _ e => (roundTo d.fmt ⟨.rz, false⟩ 0 (.fin false ((drawNoise 1 32 e).1 / 256 % 2 ^ 24) (2 ^ 24)), (drawNoise 1 32 e).2)) ∧
  ((∀ r ∈ s.side, r.live = false) →
    maps (.vmov h wd wa) [⟨wd, isAny, .format, same⟩, ⟨wa, isAny, .format, anyN⟩] [⟨0, 1, true⟩] [] a.count (4 + g) [a]
      (fun k e => (a.get e k, e)))

/-- R222, R223: a vector word does one chunk a step. `vmov` that has not reached its last chunk keeps its place: it stands
at the same word, its progress names the elements still to do, those of this chunk have moved, and nothing else has
changed. A word that issues keeps its time and its window registers in the progress; one that has issued takes them from
there (R213, R219). The step of a chunk is the model's choice (log 23); what the progress keeps is log 12.

R234, R237, R238, R241, R242, R247 to R249: the words with a carried value or a block, at a step that does all their
elements (`vsoft`: its third phase): what they write, in order, and the results that they send, after their cycles; nothing
else changes but what writing the scratchpad and drawing noise change. A chunk a step is the model's choice (log 23), the
scalars that `vhad`, `vtopk` and `vsamp` keep are log 12, `vqnt` of x / 0 is log 56, the exponential weights of `vsoft` and
`vtopk` are open values (log 11), `vdqt` of INT8 is log 64 and its rounding mode log 77. -/
def Obligations.ChunkedVectorWordsRun : Prop :=
  (∀ (s : State) (h : Hdr) (wd wa : BitVec 5) (ws : List Win) (p : VProg),
    let d := win ws 0
    let a := win ws 1
    let hi := p.next + chunkOf ws
    let v := asIssued s
    Acts .c h [wId wd, wId wa] s → (∀ r ∈ s.side, r.live = false) →
    (progOf s = none ∧ p = ⟨(ctxOf s .c).pc, s.now, false, 0, 0, 0, [], 0, s.task.w⟩ ∨
      s.task.c.inFlight = true ∧ progOf s = some p ∨
      s.task.c.inFlight = false ∧ ∃ q, progOf s = some q ∧ p = { q with start := s.now }) →
    checkUses v [⟨wd, isAny, .format, sameN (cnt v wa)⟩, ⟨wa, isAny, .format, anyN⟩] [⟨0, 1, true⟩] = .ok ws →
    hi < a.count → (∀ k, p.next ≤ k → k < hi → elemBad s a.img a.disp k = none) →
    ∃ t, exec (.vmov h wd wa) s = .next t ∧ t.task.vprog = some (if s.task.c.inFlight && (progOf s).isSome then { p with restart := false, next := hi }
        else { p with restart := false, next := hi, cycles := 4 + passes a.count ws, windows := s.task.w }) ∧
      (ctxOf t .c).pc = (ctxOf s .c).pc ∧ (ctxOf t .c).regs = (ctxOf s .c).regs ∧
      (ctxOf t .c).popped = some (ctxOf s .c).pc ∧ t.mem = s.mem ∧
      t.spad = ((List.range (chunkOf ws)).foldl (fun e k => d.put (p.next + k) (a.get e (p.next + k)) e)
        (touchAll ws p.next hi s)).spad ∧
      t.task.e = s.task.e ∧ t.task.w = s.task.w ∧ t.special = s.special ∧ ∀ y, y ≠ .c → ctxOf t y = ctxOf s y) ∧
  (∀ (s : State) (h : Hdr) (wd wa wb : BitVec 5) (ea : Fin 768)
      (ws : List Win) (p : VProg),
    let d := win ws 0
    let a := win ws 1
    let m := win ws 2
    let n := a.count
    let ids := [eId s ea, eId s (nextE ea 1)]
    let u := asIssued s
    let finishes (i : Instr) (us : List Use) (cs : List Clash) (reads : List Nat) (srcs : List Win) (cycles : Nat) (e : State)
        (rs : List (Fin 768 × Elem)) : Prop :=
      Acts .c h (us.map (fun u => wId u.num) ++ reads) s → checkUses u us cs = .ok ws → s.task.guards = [] →
      (∀ w ∈ srcs, ∀ k, k < w.count → elemBad s w.img w.disp k = none) →
      Answers i s (fun t => t.spad = e.spad ∧ t.mem = s.mem ∧ (∀ y, y ≠ .c → ctxOf t y = ctxOf s y) ∧
        t.task.e = s.task.e ∧ t.task.w = s.task.w ∧ t.task.rowFlags = e.task.rowFlags ∧
        (ctxOf t .c).regs = (ctxOf s .c).regs ∧ (ctxOf t .c).preds = (ctxOf s .c).preds ∧ (ctxOf t .c).pc = nextPc .c s ∧
        s.now + cycles ≤ (ctxOf t .c).notBefore ∧
        ∃ ls : List Latch, t.task.latches = s.task.latches ++ ls ∧ ls.map (fun l => (l.dest, l.val, l.land, l.corrupt)) =
          rs.map (fun r => (.reg (mapE s r.1), r.2, s.now + cycles, none)))
    let same := sameN (cnt u wa)
    let put (w : Win) (k : Nat) (vs : List Nat) (e : State) : State := (vs.zipIdx k).foldl (fun e q => w.put q.2 q.1 e) e
    let kept := (List.range m.count).filter (fun k => m.get s k == 1)
    let xs := (List.range n).map (a.val s)
    let seed := (getE s ea).toNat + (getE s (nextE ea 1)).toNat * 2 ^ 32
    let scale := quantScale d.fmt xs
    let list := shortlist xs
    let short := if n = 0 then s else put m 0 (list.2.1.map BitVec.toNat) (put d 0 (list.1.map BitVec.toNat) s)
    let weight (w : Win) (k : Nat) : Elem :=
      let v := w.val s k
      if v.isFin && !v.isZero && !v.isNeg then round32 v else 0
    let u1 := drawNoise 1 32 s
    let u2 := drawNoise 1 32 u1.2
    let uni (q : Nat × State) : Ex := .fin false (q.1 % 2 ^ 32 / 256) (2 ^ 24)
    -- R237: each kept element goes to the next place; `vxpd` takes the elements of a to the kept places
    (progOf s = none → n ≤ chunkOf ws →
      finishes (.vcpr h wd wa wb ea) [⟨wd, isAny, .format, fun c => decide (cnt u wa ≤ c)⟩, ⟨wa, isAny, .format, anyN⟩,
        ⟨wb, isB, .free, same⟩] [⟨0, 1, true⟩, ⟨0, 2, true⟩] [] [a, m] (4 + passes n ws)
        (kept.zipIdx.foldl (fun e q => d.put q.2 (a.get e q.1) e) s) [(ea, BitVec.ofNat 32 kept.length)]) ∧
    (progOf s = none → d.count ≤ chunkOf ws →
      finishes (.vxpd h wd wa wb ea) [⟨wd, isAny, .format, anyN⟩, ⟨wa, isAny, .format, anyN⟩,
        ⟨wb, isB, .free, sameN (cnt u wd)⟩] [⟨0, 1, false⟩, ⟨0, 2, false⟩] [] [a, m] (4 + passes d.count ws)
        ((kept.take n).zipIdx.foldl (fun e q => d.put q.1 (a.get e q.2) e) s) [(ea, BitVec.ofNat 32 (kept.take n).length)]) ∧
    -- R234 under kind I: the running sum saturates to INT64, each output to its format
    (∀ exc r, progOf s = none → n ≤ chunkOf ws → isI d.fmt = true →
      finishes (.vscan h exc r wd wa) [⟨wd, isFI, .kind, same⟩, ⟨wa, isFI, .kind, anyN⟩] [⟨0, 1, true⟩] [] [a]
        (4 + passes n ws)
        ((List.range n).foldl (fun (q : Int × State) k =>
          let c := satInt 64 (q.1 + sgn (fmtBits a.fmt) (a.get q.2 k))
          (c, d.put k (BitVec.ofInt (fmtBits d.fmt) (satInt (fmtBits d.fmt) (if exc then q.1 else c))).toNat q.2)) (0, s)).2
        []) ∧
    -- R241, R242: one block
    (∀ inv k, progOf s = none → n = 2 ^ k.toNat →
      finishes (.vhad h inv k wd wa ea) [⟨wd, isF, .free, same⟩, ⟨wa, isF, .free, fun c => c % 2 ^ k.toNat == 0⟩]
        [⟨0, 1, true⟩] ids [a] (4 + (k.toNat + 1) * passes n ws)
        (put d 0 ((hadamard inv k.toNat seed (xs.map round32)).map (fun x => roundTo d.fmt ⟨.rne, false⟩ 0 (val32 x))) s) []) ∧
    (∀ mode, progOf s = none → n = 32 → mode ≠ .sr →
      finishes (.vqnt h mode wd wa wb) [⟨wd, isM, .free, same⟩, ⟨wa, isF, .free, fun c => c % 32 == 0⟩,
        ⟨wb, (· == .fp32), .free, sameN (cnt u wa / 32)⟩] [⟨0, 1, true⟩, ⟨1, 2, true⟩] [] [a] (4 + 2 * passes n ws)
        (put d 0 (xs.map (fun x => match quantQuot xs scale x with
          | none => 0
          | some v => (BitVec.ofInt (fmtBits d.fmt) (quantElem d.fmt mode 0 v)).toNat)) (m.put 0 scale.toNat s)) []) ∧
    (∀ r, progOf s = none → n = 32 → r.mode ≠ .sr → winFmt (winOf s wa) ≠ .int8 →
      finishes (.vdqt h r wd wa wb) [⟨wd, isF, .free, same⟩, ⟨wa, fun f => isM f || f == .int8, .free, fun c => c % 32 == 0⟩,
        ⟨wb, (· == .fp32), .free, sameN (cnt u wa / 32)⟩] [⟨0, 1, true⟩, ⟨0, 2, true⟩] [] [a, m] (4 + 2 * passes n ws)
        ((List.range n).foldl (fun e k => d.put k (roundTo d.fmt r 0 (Ex.mul (a.val e k) (m.val e (k / 32)))) e) s) []) ∧
    -- R66: INT8 has a scale of 1.0 and no scale plane
    (∀ r, progOf s = none → n = 32 → r.mode ≠ .sr → winFmt (winOf s wa) = .int8 →
      finishes (.vdqt h r wd wa wb) [⟨wd, isF, .free, same⟩, ⟨wa, fun f => isM f || f == .int8, .free, fun c => c % 32 == 0⟩]
        [⟨0, 1, true⟩, ⟨0, 2, true⟩] [] [a] (4 + 2 * passes n ws)
        ((List.range n).foldl (fun e k => d.put k (roundTo d.fmt r 0 (Ex.mul (a.val e k) (.fin false 1 1))) e) s) []) ∧
    -- R247: the shortlist, its mass, and the row's flag
    (progOf s = none → n ≤ chunkOf ws →
      finishes (.vtopk h wd wa wb ea) [⟨wd, (· == .int32), .free, sameN 64⟩, ⟨wa, isF, .free, anyN⟩,
        ⟨wb, (· == .fp32), .free, sameN 64⟩] [⟨0, 1, true⟩, ⟨1, 2, true⟩] ids [a] (72 + 2 * passes n ws)
        { short with task.rowFlags := if Ex.le (val32 (getE s ea)) (val32 list.2.2) then s.task.rowFlags
          else s.task.rowFlags ||| ((1 : BitVec 64) <<< ((getE s (nextE ea 1)).toNat % 64)) }
        [(nextE ea 2, list.2.2)]) ∧
    -- R248: the third phase writes the weights over their sum; the word took its time, 4 + 5g, when it issued
    (s.task.c.inFlight = true → progOf s = some p → p.phase = 2 → p.next = 0 → n ≤ chunkOf ws →
      finishes (.vsoft h wd wa) [⟨wd, isF, .free, same⟩, ⟨wa, isF, .free, anyN⟩] [⟨0, 1, true⟩] [] [a]
        (p.start + p.cycles - s.now)
        ((List.range n).foldl (fun e k => d.put k (roundTo d.fmt ⟨.rne, false⟩ 0
          (Ex.div (val32 (weightOf (val32 p.carry) (a.val e k))) (val32 (laneTree p.words)))) e) s) []) ∧
    -- R249: the position and the status
    (progOf s = none → d.count ≤ chunkOf ws →
      (let r := pick ((List.range d.count).map (weight d)) (uni u1)
       finishes (.vsamp h false wd wb ea) [⟨wd, isF, .free, anyN⟩] [] [] [d] (8 + 2 * passes d.count ws) s
         [(nextE ea 1, r.1), (nextE ea 2, if r.2 then 4 else 0)])) ∧
    (progOf s = none → d.count ≤ chunkOf ws → (getE s ea).toNat < d.count →
      (let ps := (List.range d.count).map (weight d)
       let qs := (List.range d.count).map (weight a)
       let r := residual ps qs (getE s ea).toNat (uni u1) (uni u2)
       finishes (.vsamp h true wd wa ea) [⟨wd, isF, .free, anyN⟩, ⟨wa, isF, .free, sameN (cnt u wd)⟩] [] [eId s ea] ws
         (8 + 4 * passes d.count ws) s [(nextE ea 1, r.1), (nextE ea 2, r.2)])))

/-- R233, R243: a reduction that is done in one step sends its result to e[ea] and touches no other value: under kind I the
saturated sum, or an extreme element saturated to INT32; under kind F a NaN element makes every extreme NaN; the results of
an empty window; with the index form the least place of the extreme goes to the next register. `vbit.cnt` counts bits. The
results land 8 + g cycles after the issue (R219); that the work is done in the issue step is the model's choice (log 23). -/
def Obligations.ReductionsSendResults : Prop := ∀ (s : State) (h : Hdr) (fn : VredFn) (idx : Bool) (wa wd wb : BitVec 5)
    (ea : Fin 768) (a : Win),
  let v (k : Nat) : Int := elemInt a.fmt (a.get s k)
  let sat (z : Int) : Int := max (-2 ^ 31) (min z (2 ^ 31 - 1))
  let size (z : Int) : Int := if fn = .amax ∨ fn = .amin then sat (z.natAbs) else sat z
  let lower : Bool := fn == .min || fn == .amin
  let results (rs : List (Fin 768 × Elem)) (t : State) : Prop :=
    (∃ ls : List Latch, t.task.latches = s.task.latches ++ ls ∧ ls.map (fun l => (l.dest, l.val, l.land, l.corrupt)) =
      rs.map (fun r => (.reg (mapE s r.1), r.2, s.now + (8 + passes a.count [a]), none))) ∧
    Keeps .c s t ∧ (ctxOf t .c).pc = nextPc .c s ∧ (ctxOf t .c).regs = (ctxOf s .c).regs ∧
    (ctxOf t .c).preds = (ctxOf s .c).preds
  let sends (P : List Elem → Prop) : Prop := Answers (.vred h fn idx wa ea) s (fun t => ∃ e i, P [e, i] ∧
    results ((ea, e) :: (if idx then [(nextE ea 1, i)] else [])) t)
  let ready (kinds : Fmt → Bool) : Prop := Acts .c h [wId wa] s ∧ progOf s = none ∧
    checkUses s [⟨wa, kinds, .free, anyN⟩] [] = .ok [a] ∧ a.count ≤ chunkOf [a] ∧
    ∀ k, k < a.count → elemBad s a.img a.disp k = none
  (ready isFI → isI a.fmt = true → fn = .sum → idx = false →
    sends (fun l => (l.getD 0 0).toInt = sat ((List.range a.count).foldl (fun z k => z + v k) 0))) ∧
  (ready isFI → isI a.fmt = true → fn ≠ .sum → 0 < a.count →
    sends (fun l => ∃ k, k < a.count ∧ (l.getD 0 0).toInt = size (v k) ∧ l.getD 1 0 = BitVec.ofNat 32 k ∧
      (∀ j, j < a.count → if lower then size (v k) ≤ size (v j) else size (v j) ≤ size (v k)) ∧
      ∀ j, j < k → size (v j) ≠ size (v k))) ∧
  (ready isFI → isF a.fmt = true → fn ≠ .sum → (∃ k, k < a.count ∧ (a.val s k).isNan = true) →
    sends (fun l => l.getD 0 0 = 0x7FC00000 ∧ ∃ k, k < a.count ∧ (a.val s k).isNan = true ∧ l.getD 1 0 = BitVec.ofNat 32 k ∧
      ∀ j, j < k → (a.val s j).isNan = false)) ∧
  (ready isFI → a.count = 0 →
    sends (fun l => l.getD 1 0 = 0xFFFFFFFF ∧ l.getD 0 0 = match fn with
      | .sum => if isF a.fmt then 0x80000000 else 0
      | .max => if isF a.fmt then 0xFF800000 else 0x80000000
      | .min | .amin => if isF a.fmt then 0x7F800000 else 0x7FFFFFFF
      | .amax => 0)) ∧
  (ready isB → Answers (.vbit h .cnt false false wd wa wb ea) s
    (results [(ea, BitVec.ofNat 32 ((List.range a.count).countP (fun k => decide (a.get s k = 1))))]))

/-- R239, R243: the indexed words at a step that does all their positions, with every index in range: in ascending order a
gather reads its table at the index, a scatter writes there, an add-scatter adds there, `vbit` sets, clears or tests the
bit; nothing else changes. An index out of range, as the positions before it leave the windows (R221), is WINDOW with
reason 5 and the position, or is dropped (gather: 0). That the fault comes no earlier than 8 cycles after the issue, and
before any position of its chunk is done, is R222; that a chunk is one step at the times of R219 is the model's choice
(log 23). -/
def Obligations.IndexedWordsMove : Prop := ∀ (s : State) (h : Hdr) (z : Bool) (wd wa wb : BitVec 5) (e0 : Fin 768)
    (ws : List Win),
  let d := win ws 0
  let a := win ws 1
  let b := win ws 2
  let at_ (x tb : Win) (e : State) (k : Nat) : Option Nat :=
    let v := sgn (fmtBits x.fmt) (x.get e k)
    if 0 ≤ v ∧ v < tb.count then some v.toNat else none
  let u := asIssued s
  let moves (i : Instr) (us : List Use) (cs : List Clash) (x tb : Win) (srcs : List Win) (rd : Bool)
      (f : Nat → Option Nat → State → State) : Prop :=
    -- the state before position lo + k, when the positions from lo on are done one after another
    let before (lo k : Nat) : State := (List.range k).foldl (fun e j => f (lo + j) (at_ x tb e (lo + j)) e) s
    Acts .c h (us.map (fun u => wId u.num)) s → checkUses u us cs = .ok ws → s.task.guards = [] →
    (progOf s = none → x.count ≤ chunkOf ws → (∀ k, k < x.count →
        (∀ w ∈ srcs, elemBad (before 0 k) w.img w.disp k = none) ∧
        match at_ x tb (before 0 k) k with
        | none => z = true
        | some t => rd = true → elemBad (before 0 k) tb.img tb.disp t = none) →
      Answers i s (fun t => ∃ c, After .c (holdUntil (s.now + c) (before 0 x.count)) t (nextPc .c s))) ∧
    (∀ k p, z = false → s.task.c.inFlight = true → progOf s = some p → p.phase = 0 → p.start + 8 ≤ s.now → p.next ≤ k → k < x.count →
      k < p.next + chunkOf ws → at_ x tb (before p.next (k - p.next)) k = none →
      (∀ j, p.next ≤ j → j ≤ k → ∀ w ∈ srcs, elemBad (before p.next (j - p.next)) w.img w.disp j = none) →
      (∀ j, p.next ≤ j → j < k → ∃ t, at_ x tb (before p.next (j - p.next)) j = some t ∧
        (rd = true → elemBad (before p.next (j - p.next)) tb.img tb.disp t = none)) →
      ∃ e, exec i s = .next (takeTrap .c ⟨.window, 5 * 2 ^ 21 + x.num.toNat * 2 ^ 16, BitVec.ofNat 64 k⟩ (ctxOf s .c).pc e) ∧
        e.mem = s.mem ∧ e.spad = s.spad ∧ e.task.e = s.task.e ∧ ∀ y, y ≠ .c → ctxOf e y = ctxOf s y)
  let like := sameN (cnt u wb)
  moves (.vgat h z wd wa wb) [⟨wd, isAny, .format, like⟩, ⟨wa, isAny, .lead, anyN⟩, ⟨wb, isI, .free, anyN⟩]
    [⟨0, 1, true⟩, ⟨0, 2, true⟩, ⟨1, 2, false⟩] b a [b] true (fun k t e => d.put k ((t.map (a.get e)).getD 0) e) ∧
  moves (.vsct h z wd wa wb) [⟨wd, isAny, .format, anyN⟩, ⟨wa, isAny, .format, like⟩, ⟨wb, isI, .free, anyN⟩]
    [⟨0, 1, true⟩, ⟨0, 2, false⟩] b d [a, b] false
    (fun k t e => match t with
      | some t => d.put t (a.get e k) e
      | none => e) ∧
  moves (.vsca h z wd wa wb) [⟨wd, isFI, .kind, anyN⟩, ⟨wa, isFI, .kind, like⟩, ⟨wb, isI, .free, anyN⟩]
    [⟨0, 1, true⟩, ⟨0, 2, false⟩] b d [a, b] true
    (fun k t e => match t with
      | some t => d.put t (roundTo d.fmt ⟨.rne, false⟩ 0 (Ex.add false (d.val e t) (a.val e k))) e
      | none => e) ∧
  moves (.vbit h .set false z wd wa wb e0) [⟨wd, isB, .free, anyN⟩, ⟨wa, isI, .free, anyN⟩]
    [⟨0, 1, true⟩, ⟨0, 2, true⟩] a d (ws.drop 1) true
    (fun _ t e => match t with
      | some t => d.put t 1 e
      | none => e) ∧
  moves (.vbit h .clr false z wd wa wb e0) [⟨wd, isB, .free, anyN⟩, ⟨wa, isI, .free, anyN⟩]
    [⟨0, 1, true⟩, ⟨0, 2, true⟩] a d (ws.drop 1) true
    (fun _ t e => match t with
      | some t => d.put t 0 e
      | none => e) ∧
  moves (.vbit h .tst false z wd wa wb e0) [⟨wd, isB, .free, sameN (cnt u wa)⟩, ⟨wa, isI, .free, anyN⟩, ⟨wb, isB, .free, anyN⟩]
    [⟨0, 1, true⟩, ⟨0, 2, true⟩] a b [a] true (fun k t e => d.put k ((t.map (b.get e)).getD 0) e)

/-- R212, R245, R246: `wset` writes a window's whole image from a register pair, or one field of it, and bits [63:59] read
0; `wset.rowf` clears the row flags that are set in its pair; `wget` sends the image or the row flags to a pair, one cycle
later. Nothing else changes.

R189, R190: `rot` sets the rotating region, its offset to 0, p8 alone of the stage predicates, and faults ROT with its
immediate outside its ranges; `lbr` moves the stage predicates up by one, rotates, and counts its loop and then its epilogue
down. No memory, no register and no other stream changes. -/
def Obligations.WindowAndRotationWordsWrite : Prop :=
  (∀ (s s1 : State) (h : Hdr) (w : BitVec 5) (n : Fin 768) (o : EOp)
      (v : Elem),
    let pair := getE s (nextE n 1) ++ getE s n
    let both := [eId s n, eId s (nextE n 1)]
    let field (fn : WsetFn) (lo len : Nat) : Prop :=
      Acts .c h (wId w :: opIds s o) s → sources [o] s = .ok ([v], s1) →
      Answers (.wset h fn w o) s (fun t => ∃ u, After .c { s1 with task.w := s.task.w.set w.toNat u } t (nextPc .c s) ∧
        ∀ k, k < 64 → u.getLsbD k =
          if lo ≤ k ∧ k < lo + len then v.getLsbD (k - lo) else decide (k < 59) && (winOf s w).getLsbD k)
    let gets (rowf : Bool) (v : BitVec 64) : Prop :=
      Acts .c h (if rowf then [] else [wId w]) s → (s.task.latches.filter (fun l => decide (s.now < l.land))).length < 7 →
      Answers (.wget h rowf w n) s (fun t => Unchanged .c (nextPc .c s) s t ∧ t.task.latches = s.task.latches ++
        [⟨.reg (mapE s n), s.now + 1, v.setWidth 32, 1, none⟩,
          ⟨.reg (mapE s (nextE n 1)), s.now + 1, (v >>> 32).setWidth 32, 1, none⟩])
    (Acts .c h both s → Answers (.wset h .image w (.e n)) s (fun t =>
      After .c { s with task.w := s.task.w.set w.toNat (pair &&& 0x07FFFFFFFFFFFFFF) } t (nextPc .c s))) ∧
    (Acts .c h both s → Answers (.wset h .rowf w (.e n)) s (fun t =>
      After .c { s with task.rowFlags := s.task.rowFlags &&& ~~~pair } t (nextPc .c s))) ∧
    field .base 0 23 ∧ field .count 23 16 ∧ field .stride 39 16 ∧ field .fmt 55 4 ∧
    gets false (winOf s w) ∧ gets true s.task.rowFlags) ∧
  (∀ (s : State) (h : Hdr) (imm off : BitVec 18) (n : BitVec 3),
    let x : Issuer := .c
    let c := ctxOf s x
    let rb := imm.extractLsb' 0 7
    let rs := imm.extractLsb' 7 7
    let ep := imm.extractLsb' 14 4
    let good := rs.toNat ≤ 96 ∧ rb.toNat + rs.toNat ≤ 96 ∧ ep.toNat ≤ 8
    let v := c.lc[n.toNat]
    let r := 8 * s.task.rsize.toNat
    let target : Pc := BitVec.ofInt 17 (c.pc.toNat + 8 * off.toInt)
    let still (t : State) : Prop := t.mem = s.mem ∧ t.spad = s.spad ∧ t.task.e = s.task.e ∧ t.task.w = s.task.w ∧
      (∀ y, y ≠ x → ctxOf t y = ctxOf s y) ∧ (ctxOf t x).ls = c.ls
    (Acts x h [] s → good →
      Answers (.rot h imm) s (fun t => still t ∧ (ctxOf t x).lc = c.lc ∧ (ctxOf t x).pc = c.pc + 8 ∧
        (t.task.rbase, t.task.rsize, t.task.epi, t.task.roff) = (rb, rs, ep, 0) ∧
        ∀ k, k < 16 → (ctxOf t x).preds.getLsbD k = if k < 8 then c.preds.getLsbD k else decide (k = 8))) ∧
    (Acts x h [] s → ¬good →
      exec (.rot h imm) s = .next (takeTrap x ⟨.rot, 0, imm.setWidth 64⟩ c.pc s)) ∧
    (Acts x h (lcId n :: [72, 73, 74, 75, 76, 77, 78]) s →
      Answers (.lbr h n off) s (fun t => still t ∧
        (t.task.rbase, t.task.rsize) = (s.task.rbase, s.task.rsize) ∧
        (t.task.roff = if r = 0 then s.task.roff else BitVec.ofNat 10 ((s.task.roff.toNat + r - 1) % r)) ∧
        (∀ k, k < 16 → (ctxOf t x).preds.getLsbD k =
          if k < 8 then c.preds.getLsbD k else if k = 8 then decide (1 < v.toNat) else c.preds.getLsbD (k - 1)) ∧
        (ctxOf t x).lc = c.lc.set n.toNat (if 1 < v.toNat then v - 1 else 0) ∧
        (t.task.epi = if 1 < v.toNat then s.task.epi else if 1 < s.task.epi.toNat then s.task.epi - 1 else 0) ∧
        (ctxOf t x).pc = if 1 < v.toNat ∨ 1 < s.task.epi.toNat then target else c.pc + 8)))

/-! ### The matrix engine (chapter 09) -/

/-- R116, R258 to R260, R266, R269 to R279: K's matrix words pass their checks at the issue, change what K itself keeps for
the engine (the table, the mode, the format words, the furrows as issued), and put their commands into the compare queue.
No accumulator, furrow, register or byte changes at the issue. That RESERVEDFIELD of a register's value (R268) has detail 0,
and that FMT_BAD and FMT_EMPTY have the register's value for their operand, is the model's reading (log 21); that `mwait`
waits before it issues is log 73. -/
def Obligations.MatrixWordsQueueCommands : Prop := ∀ (x : Issuer) (s : State) (h : Hdr) (lvl : Fin 6) (d a : BitVec 6)
    (role : Role) (mode : Fusion) (r : Rnd) (ev rl : Bool) (tag : BitVec 11) (fn : BitVec 4),
  let k := s.task.mx.k
  let w := regOf x s a
  let bits (lo n : Nat) : Nat := w.toNat / 2 ^ lo % 2 ^ n
  let f := fn.toFin
  let v := k.fur[f]
  let queues (i : Instr) (reads : List Nat) (acts : List Action) (k' : MxK) : Prop :=
    Acts x h reads s → Answers i s (fun t =>
      Unchanged x (nextPc x s) s t ∧ Queued x h [] acts s t ∧ t.task.mx = { s.task.mx with k := k' })
  let sends (i : Instr) (reads : List Nat) (acts : List Action) (k' : MxK) : Prop :=
    mxQueued s < 32 → queues i reads acts k'
  let one (op : MOp) (ev : Bool) (tag : BitVec 11) : MCmd := ⟨op, 0, ev, tag⟩
  let nest (n : Nest) : Nest := { n with base := { n.base with sm := match k.words with
    | (w, _) :: _ => w.extractLsb' 32 2
    | [] => 0 } }
  let formats := bits 60 4 ∈ [1, 2, 3, 4] ∧ bits 56 4 ∈ [1, 2, 3, 4] ∧ bits 52 4 ∈ [4, 5, 6, 7, 8, 9, 10] ∧ bits 40 12 ≠ 0 ∧
    bits 34 6 = 0 ∧ bits 0 32 = 0
  let faults (i : Instr) (c : Cause) : Prop :=
    Acts x h [rId a] s → exec i s = .next (faultHere x ⟨c, 0, w⟩ s)
  let accs := if w.getLsbD 4 then (List.range 4).map (fun i => 4 * i + bits 0 2) else [bits 0 4]
  let g : FurCfg := ⟨fmtOfCode (bits 36 4), bits 24 12, bits 0 23⟩
  let g' : FurCfg := if g.cap = 0 then ⟨.none, 0, 0⟩ else g
  isK x = true →
  sends (.mtw h lvl a role) [rId a] [.mx []] { k with
    table := k.table.set lvl ⟨w.extractLsb' 0 16, w.extractLsb' 16 16, w.extractLsb' 32 16, w.extractLsb' 48 16, role⟩ } ∧
  (Acts x h [] s → Answers (.mtr h rl d lvl) s (fun t => Queued x h [] [.mx []] s t ∧ WroteReg x d
    (if rl then (match k.table[lvl].role with
      | .m => 0
      | .n => 1
      | .k => 2
      | .outer => 3)
     else k.table[lvl].c ++ k.table[lvl].b ++ k.table[lvl].a ++ k.table[lvl].count) (nextPc x s) s t)) ∧
  sends (.mcfg h mode r) [] [.mx [one (.cfg mode r) false 0]] { k with mode := mode, rnd := r } ∧
  (∀ i ∈ [Instr.mfmt h a, .epush h .mxf a],
    (formats → k.words.length < 16 → queues i [rId a] [.mx []] { k with words := k.words ++ [(w, bits 40 12)] }) ∧
    (formats → 16 ≤ k.words.length → Acts x h [rId a] s → exec i s = .next (block x s)) ∧
    (¬formats → faults i .fmtBad)) ∧
  (bits 41 23 = 0 → bits 12 4 = 0 → tileChecks k (mgoNest w k) w = none →
    sends (.mgo h a ev tag) [rId a] [.mx [one (.nest (nest (mgoNest w k))) ev tag]] (claimWord (nestAccs (mgoNest w k)) k)) ∧
  (¬(bits 41 23 = 0 ∧ bits 12 4 = 0) → faults (.mgo h a ev tag) .reservedField) ∧
  (bits 39 25 = 0 → tileChecks k (mtileNest w k) w = none →
    sends (.mtile h a ev tag) [rId a] [.mx [one (.nest (nest (mtileNest w k))) ev tag]]
      (claimWord (nestAccs (mtileNest w k)) k)) ∧
  (bits 39 25 = 0 → k.fur[Fin.ofNat 16 (bits 0 4)].cap ≠ 0 → operandFmt k.fur[Fin.ofNat 16 (bits 0 4)].fmt = true →
    k.fur[Fin.ofNat 16 (bits 16 4)].cap ≠ 0 → operandFmt k.fur[Fin.ofNat 16 (bits 16 4)].fmt = true → k.words = [] →
    faults (.mtile h a ev tag) .fmtEmpty) ∧
  (matrixIdle s = true → queues (.mwait h) [] [.mx []] k) ∧
  (Acts x h [] s → matrixIdle s = false → exec (.mwait h) s = .next (block x s)) ∧
  (w.toNat < 2 ^ 16 → sends (.mzero h a) [rId a] [.mx [one (.zero (w.setWidth 16)) false 0]] k) ∧
  (2 ^ 16 ≤ w.toNat → faults (.mzero h a) .reservedField) ∧
  (w.toNat < 2 ^ 5 → (w.getLsbD 4 = true → bits 2 2 = 0 ∧ k.mode ≠ .quad) → v.cap ≠ 0 → outFmt v.fmt = true →
    (∀ i ∈ accs, k.out[i]?.getD .none = v.fmt) →
    sends (.mdrain h fn a ev tag) [rId a] [.mx [one (.marker accs) false tag, one (.drain f accs (accs.foldl Nat.min 15)) ev tag]] k) ∧
  sends (.mtsm h) [] [.mx [one (.marker []) false 0]] k ∧
  (bits 40 24 = 0 → bits 23 1 = 0 → furrowBound s f = false → fsetFault s f g w = none →
    sends (.fset h fn a) [rId a] [.mx [one (.fset f g') false 0]] { k with fur := k.fur.set f g' }) ∧
  (Acts x h [] s → Answers (.fget h rl d fn) s (fun t => Unchanged x (nextPc x s) s t ∧
    Queued x h [] [.fget rl f d] s t ∧ (d ≠ 0 → (d.toNat, Due.word s.words) ∈ (ctxOf t x).busy))) ∧
  (w.toNat < 2 ^ 12 → v.cap ≠ 0 →
    sends (.fdrop h fn a) [rId a] [.mx [one (.marker []) false 0, one (.fdrop f w.toNat) false 0]] k) ∧
  (2 ^ 12 ≤ w.toNat → faults (.fdrop h fn a) .reservedField)

/-- R73, R255, R257, R262, R263, R266, R270, R274, R275, R277, R279: the engine's steps. With nothing that may act they
change nothing. A command that may act has its effect: `mzero` zeroes, `mcfg` sets the mode, `fset` empties its furrow,
`fdrop` pops, a tile command in quad mode adds its block to each element of its accumulator; a marker copies the
accumulators to their shadows and retires pops; a drain of an accumulator without errors writes its tile to the tail slot,
which joins. (What the manual leaves to inference here is the model's reading: logs 6, 65.) -/
def Obligations.MatrixEngineSteps : Prop := ∀ (s : State) (j : Nat) (c : MCmd) (f : Fin 16) (n : Nat),
  let m := s.task.mx
  let v := furOf s f
  let outside (t : State) : Prop := t.mem = s.mem ∧ (∀ y ∈ [Issuer.kTask, .kFirm, .l, .c, .s],
    (ctxOf t y).regs = (ctxOf s y).regs ∧ (ctxOf t y).pc = (ctxOf s y).pc)
  let popped (p : Nat) (t : State) : Prop :=
    furOf t f = { v with head := (v.head + p) % v.cap, present := v.present - p } ∧ ∀ g, g ≠ f → furOf t g = furOf s g
  (owedPick s = none → matrixPick s = none → exec .matrixStep s = .next s) ∧
  (markerPick s = false → exec .marker s = .next s) ∧ (drainPick s = none → exec .drain s = .next s) ∧
  (∀ mask, owedPick s = none → matrixPick s = some (j, c) → c.op = .zero mask →
    Answers .matrixStep s (fun t => outside t ∧ t.spad = s.spad ∧ t.task.furrows = s.task.furrows ∧
      ∀ i, i < 16 → accAt t.task.mx i = if mask.getLsbD i then ⟨List.replicate 1024 0, List.replicate 32 ⟨0, 0⟩,
        List.replicate 32 ⟨0, 0⟩, false, s.accWorn.contains i⟩ else accAt m i)) ∧
  (∀ mode r, owedPick s = none → matrixPick s = some (j, c) → c.op = .cfg mode r →
    Answers .matrixStep s (fun t => outside t ∧ t.spad = s.spad ∧ t.task.furrows = s.task.furrows ∧
      t.task.mx.acc = m.acc ∧ t.task.mx.mode = mode ∧ t.task.mx.rnd = r)) ∧
  (∀ g, owedPick s = none → matrixPick s = some (j, c) → c.op = .fset f g →
    Answers .matrixStep s (fun t => outside t ∧ t.spad = s.spad ∧ t.task.mx.acc = m.acc ∧
      furOf t f = ⟨g.fmt, g.cap, g.base, 0, 0, []⟩ ∧ ∀ k, k ≠ f → furOf t k = furOf s k)) ∧
  (owedPick s = none → matrixPick s = some (j, c) → c.op = .fdrop f n → v.head < v.cap →
    Answers .matrixStep s (fun t => outside t ∧ t.spad = s.spad ∧ t.task.mx.acc = m.acc ∧
      popped (if n = 0 then v.present else min n v.present) t)) ∧
  (∀ ne, owedPick s = none → matrixPick s = some (j, c) → c.op = .nest ne → ne.fin = none → ne.z = false →
    ne.base.mode = .quad →
    (let e := nestStep ne.base ne.levels ne.next
     let va := furOf s e.af
     let vb := furOf s e.bf
     let sla := slotNum va e.i
     let slb := slotNum vb e.j
     let q := 4 * e.sub + e.q
     let old := accAt m q
     q < 16 → old.vals.length = 1024 → (old.lost = false ∨ old.poison = true) →
     (∀ p ∈ [(e.af, sla), (e.bf, slb)],
       anyBad s.spadBad (slotPhys s (furOf s p.1) p.2) (slotBytes (furOf s p.1).fmt) = false ∧
       ∀ r, slotRec s p.1 p.2 = some r → checkTile .correct r s = (HStatus.zero, s)) →
     Answers .matrixStep s (fun t => outside t ∧ t.spad = s.spad ∧ t.task.furrows = s.task.furrows ∧
       (∀ i, i ≠ q → accAt t.task.mx i = accAt m i) ∧
       ∀ mi ni, mi < 32 → ni < 32 → (accAt t.task.mx q).vals[32 * mi + ni]? = some
         (add32 (old.vals.getD (32 * mi + ni) 0)
           (mul32 (round32 (Ex.ofInt (dotInt ((tileInts s va sla).getD mi []) ((tileInts s vb slb).getD ni []))))
             (mul32 ((tileScales s va sla (e.sm.getLsbD 0)).getD mi 0) ((tileScales s vb slb (e.sm.getLsbD 1)).getD ni 0))))))) ∧
  (∀ cs also, markerPick s = true → m.cmds = c :: cs → c.op = .marker also → (∀ i ∈ also, accFix i s = (false, s)) → m.kept = [] → m.pops = [(f, n)] → n ≤ v.present →
    v.head < v.cap →
    Answers .marker s (fun t => outside t ∧ t.spad = s.spad ∧ t.task.mx.acc = m.acc ∧ t.task.mx.shadow = m.acc ∧
      t.task.mx.pops = [] ∧ t.task.mx.cmds.length = cs.length ∧ popped n t)) ∧
  (∀ a lo, s.MemWf → drainPick s = some (j, c) → c.op = .drain f [a] lo → v.fill = [] → (accAt m a).poison = false →
    (accAt m a).lost = false →
    m.rnd.mode ≠ .sr →
    (let p := slotPhys s v (slotNum v v.present)
     let bytes := (accAt m a).vals.flatMap (fun e => leBytes (fmtBits v.fmt / 8) (roundTo v.fmt m.rnd 0 (val32 e)))
     Answers .drain s (fun t => outside t ∧ t.task.mx.acc = m.acc ∧ memRead t.spad p bytes.length = bytes ∧
       (∀ y, ¬(p ≤ y ∧ y < p + bytes.length) → memGet t.spad y = memGet s.spad y) ∧
       furOf t f = { v with present := v.present + 1 } ∧ ∀ g, g ≠ f → furOf t g = furOf s g)))

/-! ### Headland words (chapter 10) -/

/-- R78, R80, R284, R288, R290, R293 to R298: the headland words. `hgen` registers a tile and generates its checksums,
with which an integer tile passes; `hgen.rel` releases the tiles; `hchk` checks and counts its corrections, and a tile
that fails is a precise fault; `hfix` reports the status of one tile; `hupd` copies; `hrd` reads one checksum; `htol` sets
the slack. Each occupies its stream for its time, and no other value changes. The step in which `hchk` checks its tiles, and
that on S it does its work at once and takes its time then (R292), is the model's choice (log 23). (What the manual leaves
to inference here is the model's reading: logs 24, 58, 59, 63.) -/
def Obligations.HeadlandWordsAct : Prop := ∀ (x : Issuer) (s s1 : State) (h : Hdr) (wa wd : BitVec 5) (w d : Win) (r : HRec)
    (rs : List HRec) (b : Bool) (t : HTarget) (ea : Fin 768) (ts : Tiles) (k : Nat) (o : EOp) (v : Elem),
  let after (e : State) (cycles : Nat) (ls : List (Fin 768 × Elem)) (u : State) : Prop :=
    let sent : List Latch := ls.map (fun q => ⟨.reg (mapE s q.1), s.now + cycles, q.2, 1, none⟩)
    After x (setCtx x { ctxOf e x with notBefore := s.now + cycles } { e with task.latches := e.task.latches ++ sent }) u
      (nextPc x s)
  let sel := getE s ea
  let line := (sel.extractLsb' 17 5).toNat
  let sum : HSum := (if sel.getLsbD 16 then r.cols else r.rows).getD line ⟨0, 0⟩
  let flag (p : Bool) (n : Nat) : Nat := if p then 2 ^ n else 0
  let named : List Nat := match t with
    | .win n => [wId n]
    | .fur _ => []
  let fresh := if (ctxOf s x).inFlight then [] else named
  (∀ mode, fmtF r.fmt = false → (checkTile mode (genTile s.spad r) s).1 = HStatus.zero) ∧
  (x = .c → Acts x h [wId wa] s → s.task.c.inFlight = false → progOf s = none → fmtM (winFmt (winOf s wa)) = false →
    checkUses s [⟨wa, isAny, .free, anyN⟩] [] = .ok [w] → hgenFault s [w] = none → w.count = 1024 →
    Answers (.hgen h wa 0) s (fun u => u.mem = s.mem ∧ u.spad = s.spad ∧ u.task.e = s.task.e ∧ u.task.w = s.task.w ∧
      u.task.furrows = s.task.furrows ∧ (∀ y, y ≠ x → ctxOf u y = ctxOf s y) ∧ (ctxOf u x).pc = nextPc x s ∧
      (ctxOf u x).notBefore = s.now + 40 ∧
      (∃ q ∈ u.side, q.owner = none ∧ q.base = tileBase w 0 ∧ q.fmt = w.fmt ∧ genTile s.spad q = q) ∧
      ∀ q ∈ s.side, ¬(q.owner = none ∧ q.base = tileBase w 0 ∧ q.fmt = w.fmt) → q ∈ u.side)) ∧
  (x = .c → Acts x h [wId wa] s → coverCheck s wa = .ok (w, rs) →
    Answers (.hgenRel h wa) s (after { s with side := s.side.filter (fun q =>
      !(q.owner.isNone && rs.any (fun p => p.base == q.base))) } (4 + w.count / 1024) [])) ∧
  (∀ b', fmtM (winFmt (winOf s wa)) = false → b' ≠ 0 → x = .c → Acts x h (if s.task.c.inFlight then [] else [wId wa]) s →
    exec (.hgen h wa b') s = .next (takeTrap x ⟨.reservedField, 27 * 2 ^ 16, fetchWord s.task.c.imem s.task.c.pc⟩ s.task.c.pc s)) ∧
  (x = .c → Acts x h fresh s → progOf s = none → tilesOf s t = .ok ts → ts.count = 1 → checkAt ts b 0 s = (k, s1, none) →
    Answers (.hchk h b t (some ea)) s (after s1 (40 + 8 * k) [(ea, BitVec.ofNat 32 k)])) ∧
  (x = .s → Acts x h fresh s → s.task.s.asked = none → tilesOf s t = .ok ts → storesSettled s = true ∨ ts.count = 0 →
    checkEvery ts b ts.count 0 s = (k, s1, none) →
    Answers (.hchk h b t none) s (after s1 (4 + 36 * ts.count + 8 * k) [])) ∧
  (∀ f, x = .s → Acts x h fresh s → s.task.s.asked = none → tilesOf s t = .ok ts → storesSettled s = true →
    checkEvery ts b ts.count 0 s = (k, s1, some f) →
    exec (.hchk h b t none) s = .next (takeTrap x f (ctxOf s x).pc s1)) ∧
  (x = .s → Acts x h fresh s → tilesOf s t = .ok ts → s.task.s.asked = none → ts.count ≠ 0 → storesSettled s = false →
    Answers (.hchk h b t none) s (fun u => Unchanged x (ctxOf s x).pc s u ∧ (ctxOf u x).asked.isSome ∧ u.side = s.side)) ∧
  (∀ st base, x = .c → Acts x h (named ++ [eId s ea]) s → tileNamed s t sel = .ok (r, base) →
    checkTile (if b then .correct else .examine) r (touchTile base r s) = (st, s1) →
    Answers (.hfix h b t ea) s
      (after s1 (if st.c then 48 else 40) [(nextE ea 1, BitVec.ofNat 32 (flag st.x 29 + flag st.l 28 + flag st.sc 27 +
        st.ccnt * 2 ^ 21 + st.rcnt * 2 ^ 15 + st.col * 2 ^ 10 + st.row * 2 ^ 5 + flag st.e 4 + flag st.stale 3 + flag st.f 2 +
        flag st.c 1 + flag st.m 0))])) ∧
  (x = .c → Acts x h [wId wd, wId wa] s → s.task.c.inFlight = false → progOf s = none → (∀ q ∈ s.side, q.live = false) →
    (∀ v ∈ s.task.furrows.toList, v.cap = 0) → pendingSets s = [] → s.task.guards = [] → s.spadBad = [] →
    checkUses s [⟨wd, fun f => isAny f && !packed f, .format, sameN (cnt s wa)⟩, ⟨wa, isAny, .format, anyN⟩]
      [⟨0, 1, true⟩] = .ok [d, w] →
    Answers (.hupd h wd wa) s
      (after ((List.range d.count).foldl (fun e i => d.put i (w.get e i) e) s) (4 + passes w.count [w]) [])) ∧
  (∀ base, x = .c → Acts x h (named ++ [eId s ea]) s → tileNamed s t sel = .ok (r, base) → sel.getLsbD 22 = false →
    Answers (.hrd h t ea) s (after s 6 [(nextE ea 1, BitVec.ofNat 32 sum.h),
      (nextE ea 2, BitVec.ofNat 32 (flag r.damaged 29 +
        (if fmtF r.fmt then sum.n % 65536 + flag r.stale 30 + 2 ^ 31 else sum.h / 2 ^ 32 % 256)))])) ∧
  (x = .c → Acts x h (opIds s o) s → sources [o] s = .ok ([v], s1) →
    Answers (.htol h o) s (after { s1 with task.slack := v.setWidth 16 } 1 []))

/-! ### Map composition (chapter 11) -/

/-- R305, R307, R311 to R318: with no deferred fault, and the engine configured as K has issued it, the words of the map
engine that pass their checks put one command into the compare queue; `mcapp` and `mcchk` send a request and wait for its
reply, which writes their register or predicate. A deferred fault is raised at the next such word. (What the manual leaves
to inference here is the model's reading: log 29.) -/
def Obligations.ComposeWordsQueueCommands : Prop := ∀ (x : Issuer) (s : State) (h : Hdr) (d a f : BitVec 6) (p : BitVec 4)
    (ev glob : Bool) (tag : BitVec 11) (fn : McchkFn) (g : McCfg) (r : Reply),
  let w := regOf x s a
  let v := regOf x s f
  let bits (lo n : Nat) : Nat := w.toNat / 2 ^ lo % 2 ^ n
  let firm := x == .kFirm
  let cmd (op : McOp) (ev : Bool) (tag : BitVec 11) (id : Option Nat) : Action := .mc ⟨op, firm, ev, tag, id, 0, 0, [], none, false⟩
  let sends (i : Instr) (reads : List Nat) (op : McOp) (ev : Bool) (tag : BitVec 11) : Prop :=
    Acts x h reads s → mcQueued s < 32 → Answers i s (fun t =>
      Unchanged x (nextPc x s) s t ∧ Queued x h [] [cmd op ev tag none] s t ∧ t.task.mc = s.task.mc)
  let asks (i : Instr) (reads : List Nat) (op : McOp) : Prop :=
    Acts x h reads s → isAsking s = false → mcQueued s < 32 → Answers i s (fun t =>
      Unchanged x (ctxOf s x).pc s t ∧ (ctxOf t x).asked = some s.task.nextId ∧
      ∃ c, t.checkq = s.checkq ++ [c] ∧ c.act = cmd op false 0 (some s.task.nextId))
  let hears (i : Instr) (reads : List Nat) (P : State → Prop) : Prop :=
    Acts x h reads s → isAsking s = true → (∀ t, s.task.mc.failed ≠ some (t, none)) → replyOf s = some r → r.fault = none →
    Answers i s P
  let traps (i : Instr) (reads : List Nat) (c : Cause) (reason operand : Nat) : Prop :=
    Acts x h reads s → isAsking s = false →
    exec i s = .next (faultHere x ⟨c, reason * 2 ^ 28, BitVec.ofNat 64 operand⟩ s)
  let slots := slotCount s g
  let slot := v.toNat % 4096
  let n := bits 0 12 + 1
  let good := bits 53 11 = 0 ∧ bits 28 4 = 0 ∧ bits 13 3 = 0 ∧ bits 32 21 ≠ 0 ∧ bits 16 12 < n ∧
    (w.getLsbD 12 = true → n ≤ 256) ∧ v.toNat % 64 = 0 ∧ canonicalVa v = true ∧
    (d ≠ 0 → (regOf x s d).toNat % 64 = 0 ∧ canonicalVa (regOf x s d) = true)
  let new : McCfg := ⟨n, if w.getLsbD 12 then 1 else 2, bits 16 12, bits 32 21, v, if d = 0 then none else some (regOf x s d)⟩
  isK x = true →
  (good → Acts x h [rId d, rId a, rId f] s → mcQueued s < 32 → Answers (.mccfg h d a f) s (fun t =>
    Unchanged x (nextPc x s) s t ∧ Queued x h [] [cmd (.cfg new) false 0 none] s t ∧ t.task.mc.kcfg = some new)) ∧
  (∀ tr, s.task.mc.failed = some (tr, none) → discardComing s = false → unconfirmed s x = false →
    (let e := { s with task.mc := { s.task.mc with failed := some (tr, some (ctxOf s x).pc) } }
     (Acts x h [] s → exec (.mccfgRst h) s = .next (faultHere x tr e)) ∧
     (Acts x h [rId a] s → exec (.mccmp h a ev tag) s = .next (faultHere x tr e)))) ∧
  (∀ tr pc, s.task.mc.failed = some (tr, some pc) → pc ≠ (ctxOf s x).pc → sends (.mccfgRst h) [] .rst false 0) ∧
  (s.task.mc.failed = none → s.task.mc.cont = false → s.task.mc.kcfg = none →
    traps (.mccmp h a ev tag) [rId a] .mcStates 4 0) ∧
  (s.task.mc.failed = none → s.task.mc.cont = false → sends (.mccfgRst h) [] .rst false 0) ∧
  (s.task.mc.failed = none → s.task.mc.cont = false → s.task.mc.kcfg = some g →
    (slot < slots → w.toNat % 2 ^ 21 < g.v → sends (.mcld h a f ev tag) [rId a, rId f] (.load slot (w.toNat % 2 ^ 21)) ev tag) ∧
    (slots ≤ slot → traps (.mcld h a f ev tag) [rId a, rId f] .mcSlot 0 slot) ∧
    (slot < slots → g.v ≤ w.toNat % 2 ^ 21 → traps (.mcld h a f ev tag) [rId a, rId f] .mcStates 3 (w.toNat % 2 ^ 21)) ∧
    (w.toNat % 64 = 0 → canonicalVa w = true → slot < slots →
      sends (.mcldR h a f ev tag) [rId a, rId f] (.loadRaw slot w) ev tag) ∧
    (bits 48 16 = 0 → bits 23 1 = 0 → bits 0 23 % 4 = 0 → (spadMap s firm (bits 0 23) (4 * bits 24 12)).isSome →
      bits 36 12 + bits 24 12 ≤ slots →
      sends (.mcldL h a ev tag) [rId a] (.loadList (bits 36 12) (bits 24 12) (bits 0 23)) ev tag) ∧
    (w.toNat % 64 = 0 → slot < slots →
      (if glob then canonicalVa w = true else (spadMap s firm w.toNat (slotLen g)).isSome) →
      sends (.mcst h glob a f ev tag) [rId a, rId f] (.store glob slot w) ev tag) ∧
    (bits 36 28 = 0 → bits 0 12 < slots → bits 12 12 < slots → bits 24 12 < slots →
      sends (.mccmp h a ev tag) [rId a] (.comp (bits 0 12) (bits 12 12) (bits 24 12)) ev tag) ∧
    (bits 36 28 = 0 → bits 0 12 < slots → bits 24 12 ≠ 0 → bits 12 12 + bits 24 12 ≤ slots →
      sends (.mctree h a ev tag) [rId a] (.tree (bits 0 12) (bits 12 12) (bits 24 12)) ev tag) ∧
    (bits 0 12 < g.n → v.toNat % 128 = 0 → (spadMap s firm v.toNat ((g.v + 7) / 8)).isSome →
      sends (.mcmsk h a f ev tag) [rId a, rId f] (.mask (bits 0 12) v.toNat) ev tag) ∧
    (bits 0 12 < g.n → slot < slots → asks (.mcapp h d a f) [rId a, rId f] (.app (bits 0 12) slot)) ∧
    (g.n ≤ bits 0 12 → traps (.mcapp h d a f) [rId a, rId f] .mcStates 2 (bits 0 12)) ∧
    (bits 0 12 < g.n → v.toNat % 2 ^ 21 < g.v →
      asks (.mcappT h d a f) [rId a, rId f] (.appT (bits 0 12) (v.toNat % 2 ^ 21))) ∧
    (bits 0 12 < slots → asks (.mcchk h fn p a) [rId a] (.chk fn (bits 0 12)))) ∧
  hears (.mcapp h d a f) [rId a, rId f] (WroteReg x d (BitVec.ofNat 64 (r.val.toNat % 4096)) (nextPc x s) s) ∧
  hears (.mcappT h d a f) [rId a, rId f] (WroteReg x d (BitVec.ofNat 64 (r.val.toNat % 4096)) (nextPc x s) s) ∧
  hears (.mcchk h fn p a) [rId a] (WrotePred x p (decide (r.val ≠ 0)) (nextPc x s) s)

/-- R300, R304, R307, R312, R315, R317: the engine's steps. One that cannot act changes nothing; `mccmp` writes b[a[i]] to
entry i of its slot; `mcapp` and `mcchk` reply with an entry and with what a map is; an invalid source is a deferred fault
that is held and announced; a command that is done leaves the queue. No register and no byte changes. (What the manual
leaves to inference here is the model's reading: log 29.) -/
def Obligations.ComposeEngineSteps : Prop := ∀ (s : State) (c : McCmd) (rest : List McCmd) (g : McCfg) (d a b : Nat)
    (ma mb : McMap),
  let mc := s.task.mc
  let outside (t : State) : Prop := t.mem = s.mem ∧ t.spad = s.spad ∧ t.task.mx = s.task.mx ∧
    ∀ y ∈ [Issuer.kTask, .kFirm, .l, .c, .s], (ctxOf t y).regs = (ctxOf s y).regs ∧ (ctxOf t y).pc = (ctxOf s y).pc
  let runs := mc.queue = c :: rest ∧ mcRuns s = true ∧ mc.failed = none ∧ c.spent = false ∧ mc.cfg = some g
  let timed := (∃ i j, c.op = .app i j) ∨ ∃ fn j, c.op = .chk fn j
  let replies (v : Word) (t : State) : Prop := outside t ∧ t.task.mc.slots = mc.slots ∧
    ∃ r ∈ t.replies, r.id = c.id.getD 0 ∧ r.val = v ∧ r.fault = none
  (mcRuns s = false → exec .mceCommand s = .next s) ∧
  (mc.queue = c :: rest → mcRuns s = true → mc.failed = none → c.spent = true →
    Answers .mceCommand s (fun t => outside t ∧ t.task.mc.queue = rest ∧ t.task.mc.slots = mc.slots)) ∧
  (mc.queue = c :: rest → mcRuns s = true → mc.failed.isSome →
    Answers .mceCommand s (fun t => outside t ∧ t.task.mc.queue = rest ∧ t.task.mc.failed = none)) ∧
  (∀ cfg, mc.queue = c :: rest → mcRuns s = true → mc.failed = none → c.spent = false → c.op = .cfg cfg →
    Answers .mceCommand s (fun t => outside t ∧ t.task.mc.cfg = some cfg ∧ t.task.mc.slots = [])) ∧
  (runs → c.op = .comp d a b → slotOf s a = some ma → slotOf s b = some mb → ma.err = none → mb.err = none →
    Answers .mceCommand s (fun t => outside t ∧
      (∃ m, slotOf t d = some m ∧ m.vals = ma.vals.map (fun i => mb.vals.getD i 0) ∧ m.err = none ∧
        (m.ident = true ↔ m.vals = List.range m.vals.length)) ∧
      ∀ k, k ≠ d → slotOf t k = slotOf s k)) ∧
  (runs → c.op = .comp d a b → slotOf s a = none →
    Answers .mceCommand s (fun t => outside t ∧ slotOf t d = none ∧
      t.task.mc.failed = some (⟨.mcSlot, 2 ^ 28 + 2 ^ 27 + c.tag.toNat * 2 ^ 16, BitVec.ofNat 64 a⟩, none) ∧
      t.task.mc.queue.head?.map (·.op) = some c.op)) ∧
  (runs → timed → c.step = 0 → Answers .mceCommand s (fun t => outside t ∧ t.task.mc.slots = mc.slots ∧
    t.replies = s.replies ∧ t.task.mc.queue = { c with step := 1, ready := s.now + 2 } :: rest)) ∧
  (runs → c.op = .app d a → c.step ≠ 0 → slotOf s a = some ma → ma.err = none →
    Answers .mceCommand s (replies (BitVec.ofNat 64 (ma.vals.getD d 0)))) ∧
  (∀ fn, runs → c.op = .chk fn a → c.step ≠ 0 → slotOf s a = some ma → ma.err = none → ma.vals ≠ [] →
    (let constant (v : Nat) : Prop := ∀ e ∈ ma.vals, e = v
     Answers .mceCommand s (fun t => ∃ o : Bool, replies (if o then 1 else 0) t ∧ (o = true ↔ match fn with
       | .const => ∃ v, constant v
       | .ident => ma.vals = List.range ma.vals.length
       | .dead => constant g.dead))))

/-! ### Copies and the fabric (chapter 13) -/

/-- R343, R346 to R348, R350 to R352, R355 to R358: `cpy`, `cpy2` and the fabric words read their block in the scratchpad
and, when it passes its checks, put its command into the compare queue; `cpres`, `tsat` put their action there; `cpwait`,
`fxwait`, `tsat.wait` finish once nothing is left to wait for, and a held command is a precise fault at the wait. (What
the manual leaves to inference here is the model's reading: log 31; that RESERVEDFIELD of a command block has detail 0 and
the block's address for its operand: log 21.) -/
def Obligations.CopyAndFabricWordsQueueCommands : Prop := ∀ (x : Issuer) (s : State) (h : Hdr) (a : BitVec 6) (ev : Bool)
    (tag : BitVec 11) (p : Nat) (f : CpHeld) (c : FxCmd) (reason : Nat),
  let v := regOf x s a
  let firm := x == .kFirm
  let blk (n : Nat) := memRead s.spad p n
  let readable (n : Nat) : Prop := v.toNat % n = 0 ∧ spadMap s firm v.toNat n = some p ∧ mayLoad s true [⟨p, n⟩] 0 = true ∧
    ∀ b ∈ s.spadBad, ¬(p ≤ b ∧ b < p + n)
  let sends (i : Instr) (reads : List Nat) (act : Action) : Prop :=
    Acts x h reads s → Answers i s (fun t => Unchanged x (nextPc x s) s t ∧ Queued x h [] [act] s t)
  let traps (i : Instr) (reads : List Nat) (t : TrapInfo) : Prop :=
    Acts x h reads s → exec i s = .next (faultHere x t s)
  let still (e : State) : Prop := Unchanged x (ctxOf s x).pc s e
  let asks (i : Instr) (reads : List Nat) (u : WaitUnit) : Prop :=
    Acts x h reads s → isAsking s = false → Answers i s (fun t => still t ∧ (ctxOf t x).asked = some s.task.nextId ∧
      ∃ q, t.checkq = s.checkq ++ [q] ∧ q.act = .await u s.task.nextId)
  let replied (n : Nat) : Prop := isAsking s = true ∧ ∃ r, replyOf s = some r ∧ r.val.toNat = n
  let waits (i : Instr) (reads : List Nat) : Prop := Acts x h reads s → Answers i s still
  let held (i : Instr) (t : TrapInfo) : Prop :=
    Acts x h [] s → ∃ e, exec i s = .next (raise x t (ctxOf s x).pc s e) ∧ still e
  let ahead (n : Nat) : List FxCmd := s.task.fx.cmds.filter (fun q => decide (q.num < n))
  isK x = true →
  (∀ two : Bool, readable 64 → cpFault s firm v (blk 64) two (cpParse (blk 64) two) = none → cpQueued s < 32 →
    sends (if two then .cpy2 h a ev tag else .cpy h a ev tag) [rId a]
      (.cp ⟨cpParse (blk 64) two, firm, ev, tag, 0, 0, false, [], 0, 0, [], none, 0, false⟩)) ∧
  (v.toNat % 64 ≠ 0 → traps (.cpy h a ev tag) [rId a] ⟨.align, 0, v⟩ ∧ traps (.cpy2 h a ev tag) [rId a] ⟨.align, 0, v⟩) ∧
  (readable 64 → cpReserved (blk 64) false (cpParse (blk 64) false) = true →
    traps (.cpy h a ev tag) [rId a] ⟨.reservedField, 0, v⟩) ∧
  sends (.cpres h) [] (.cpres false) ∧ sends (.cpresDrop h) [] (.cpres true) ∧
  asks (.cpwait h) [] .copy ∧ asks (.fxwait h) [] .fabric ∧ asks (.tsatWait h a) [rId a] .time ∧
  (isAsking s = true → replyOf s = none → waits (.cpwait h) [] ∧ waits (.fxwait h) [] ∧ waits (.tsatWait h a) [rId a]) ∧
  (∀ n, replied n →
    (n + s.task.cp.queue.length ≤ s.task.cp.count → Acts x h [] s →
      Answers (.cpwait h) s (Unchanged x (nextPc x s) s)) ∧
    (s.task.cp.count < n + s.task.cp.queue.length → s.task.cp.queue.length ≤ s.task.cp.count →
      (s.task.cp.held = none → waits (.cpwait h) []) ∧
      (s.task.cp.held = some f →
        held (.cpwait h) ⟨.cpFault, min f.off (2 ^ 40 - 1) * 2 ^ 24 + causeCode f.cause * 2 ^ 16, f.addr⟩))) ∧
  (readable 32 → fxQueued s < 32 →
    (let b := blk 32
     let cmd (send : Bool) (red : Option Fmt) : Action :=
       .fx ⟨send, red, fxPeer b, fieldAt b 8 4, fieldAt b 0x0C 4, firm, ev, tag, 0, none, 0, [], none, 0, 0, none⟩
     (fxFault s v b true false tag = none → sends (.fxs h a ev tag) [rId a] (cmd true none)) ∧
     (fxFault s v b false false tag = none → sends (.fxr h a ev tag) [rId a] (cmd false none)) ∧
     (fxFault s v b false true tag = none →
       sends (.fxred h a ev tag) [rId a] (cmd false (some (fmtOfCode (fieldAt b 0x10 4 % 16))))))) ∧
  (∀ n, replied n →
    (ahead n = [] → Acts x h [] s → Answers (.fxwait h) s (fun t => Unchanged x (nextPc x s) s t ∧
      t.dcache = (if s.task.fx.got then [] else s.dcache) ∧ t.task.fx.got = false ∧ t.task.fx.cmds = s.task.fx.cmds)) ∧
    (ahead n ≠ [] → (∀ q ∈ ahead n, q.held = none) → waits (.fxwait h) []) ∧
    (∀ rest, ahead n = c :: rest → c.held = some reason →
      held (.fxwait h) ⟨.fxFault, reason * 2 ^ 16 + c.tag.toNat * 2 ^ 20, 0⟩)) ∧
  sends (.tsat h a) [rId a] (.tsat v) ∧
  (∀ n, replied n →
    (v.toNat ≤ s.ptp / 840 → Acts x h [rId a] s → Answers (.tsatWait h a) s (Unchanged x (nextPc x s) s)) ∧
    (s.ptp / 840 < v.toNat → waits (.tsatWait h a) [rId a]))

/-- R349, R350, R356, R357: the steps of the copy engine and of the fabric interface. A step that cannot act changes
nothing. A copy within the scratchpad moves the bytes of its row up to the next 64-byte granule of its source, and no
other byte; a command that is done leaves the queue. A fabric command is matched with a message or buffer that fits, and
goes on 60 cycles later, or 2 µs later across Ethernet (R366), or is held with reason 2; the bytes of a frame go to their place in the buffer; a send without a link is held with
reason 1. (What the manual leaves to inference here is the model's reading: logs 30, 31.) -/
def Obligations.CopyAndFabricSteps : Prop := ∀ (s : State) (c : CpCmd) (rest : List CpCmd) (i len p q : Nat) (m : FxCmd)
    (bytes : List (BitVec 8)) (red : Bool),
  let b := c.blk
  let fits := if m.send then (if red then len = m.len else m.len ≤ len) else if m.red.isSome then len = m.len else len ≤ m.len
  let at_ := b.src + BitVec.ofNat 64 c.next
  let into := b.dst + BitVec.ofNat 64 c.next
  let n := min (64 - at_.toNat % 64) (b.len - c.next)
  let regs (t : State) : Prop := t.mem = s.mem ∧ ∀ y ∈ [Issuer.kTask, .kFirm, .l, .c, .s],
    (ctxOf t y).regs = (ctxOf s y).regs ∧ (ctxOf t y).pc = (ctxOf s y).pc
  let cmd (t : State) : Option FxCmd := t.task.fx.cmds[i]?
  let others (t : State) : Prop := ∀ j, j ≠ i → t.task.fx.cmds[j]? = s.task.fx.cmds[j]?
  (cpRuns s = false → exec .copyStep s = .next s) ∧
  (s.MemWf → s.task.cp.queue = c :: rest → cpRuns s = true → c.began = true → b.ss = true → b.ds = true → b.rows = 1 →
    b.sfmt = .none → b.dec = false → c.zero = false → c.next < b.len → spadMap s c.firm at_.toNat n = some p →
    spadMap s c.firm into.toNat n = some q → (∀ y ∈ s.spadBad, ¬(p ≤ y ∧ y < p + n)) →
    Answers .copyStep s (fun t => regs t ∧ memRead t.spad q n = memRead s.spad p n ∧
      (∀ y, ¬(q ≤ y ∧ y < q + n) → memGet t.spad y = memGet s.spad y) ∧
      t.task.cp.queue.head?.map (·.next) = some (c.next + n))) ∧
  (s.task.cp.queue = c :: rest → cpRuns s = true → c.began = true → b.dec = false → b.len * b.rows ≤ c.next →
    Answers .copyStep s (fun t => regs t ∧ t.spad = s.spad ∧ t.task.cp.queue = rest)) ∧
  (cmd s = none → exec (.fabricMatch true i ⟨len, red⟩) s = .next s ∧ exec (.fabricFrame true i bytes) s = .next s ∧
    exec (.fabricLinkFail i) s = .next s) ∧
  (cmd s = some m → fxMayMatch s i m = true → selfPeer s m.peer = false →
    fits → Answers (.fabricMatch m.send i ⟨len, red⟩) s (fun t => regs t ∧ t.spad = s.spad ∧
      cmd t = some { m with other := some len, ready := s.now + (if offDevice m.peer then 4000 else 60), mate := none } ∧
      others t)) ∧
  (cmd s = some m → fxMayMatch s i m = true → selfPeer s m.peer = false →
    ¬fits → Answers (.fabricMatch m.send i ⟨len, red⟩) s (fun t => regs t ∧ t.spad = s.spad ∧ cmd t = some { m with held := some 2 } ∧
      others t)) ∧
  (∀ total, s.MemWf → cmd s = some m → m.send = false → m.red = none → m.other = some total → m.held = none →
    selfPeer s m.peer = false → bytes ≠ [] → m.moved + bytes.length < total →
    spadMap s m.firm (m.addr + m.moved) bytes.length = some q →
    Answers (.fabricFrame false i bytes) s (fun t => regs t ∧ memRead t.spad q bytes.length = bytes ∧
      (∀ y, ¬(q ≤ y ∧ y < q + bytes.length) → memGet t.spad y = memGet s.spad y) ∧
      cmd t = some { m with moved := m.moved + bytes.length, msg := [] } ∧ others t)) ∧
  (cmd s = some m → m.send = true → offDevice m.peer = true → m.held = none →
    Answers (.fabricLinkFail i) s (fun t => regs t ∧ t.spad = s.spad ∧ cmd t = some { m with held := some 1 } ∧ others t))

/-! ### Words that wait for a reply: licences, the crypto unit, the KV unit (chapters 12, 13) -/

/-- R334 to R340, R345, R359 to R365: these words put a request with a number of its own into the compare queue and wait at
their place, with nothing changed, until its reply is there; then they write it, or just finish (`thopen` with the bracket
that the unit has opened); a reply that is a fault is raised at the word. (What the manual leaves to inference here is the
model's reading: log 32 for `thrd.brk` of a closed slot, which reads 0, for the waits of `thclose`, and for the furrow that
`thbind` looks at; log 42 for the trip of a reply, which counts from the issue; log 21 for the order of R336's checks; logs
14, 33 and 86 for the units' blocks.)

R334, R336: `thbind` binds a configured furrow and `thbind.r` a region to an open bracket of the task with fewer than 8
bindings, at the issue, where neither is bound to any open bracket; a closed one is TH_NOBRACKET, a bound one TH_NESTED with
reason 2, a ninth one TH_NESTED with reason 3, and from firmware each is PRIV. -/
def Obligations.LicenceAndUnitWordsAsk : Prop :=
  (∀ (x : Issuer) (s : State) (h : Hdr) (d a f slot : BitVec 6)
      (b n : BitVec 2) (m : BitVec 3) (len : BitVec 7) (fn : ThrdFn) (r : Reply) (ft : TrapInfo),
    let v := regOf x s a
    let firm := x == .kFirm
    let key := keyOf s (ctxNum s firm)
    let trip := s.now + if s.die = 0 then 200 else 600
    let br := s.task.brackets[b.toFin]
    let quiet (t : State) : Prop := Unchanged x (ctxOf s x).pc s t
    let asks (i : Instr) (reads : List Nat) (act : Nat → Action) : Prop :=
      Acts x h reads s → isAsking s = false → Answers i s (fun t => quiet t ∧ (ctxOf t x).asked = some s.task.nextId ∧
        ∃ c, t.checkq = s.checkq ++ [c] ∧ c.act = act s.task.nextId)
    let traps (i : Instr) (reads : List Nat) (c : Cause) (detail operand : Nat) : Prop :=
      Acts x h reads s → isAsking s = false →
      exec i s = .next (faultHere x ⟨c, detail, BitVec.ofNat 64 operand⟩ s)
    let valued : List (Instr × List Nat) := [(.kunw h d slot a, [rId a]), (.pxlk h d a, [rId a]), (.pxlkAcq h d a, [rId a]),
      (.pxins h d a, [rId a]), (.pxrefAdd h d a, [rId a]), (.pxrefDrop h d a, [rId a]), (.pxevc h d a, [rId a]),
      (.kvpgAlloc h d a, [rId a]), (.kvpgFree h d a, [rId a]), (.kvpgRel h d a, [rId a]), (.kvpgAck h d a, [rId a]),
      (.vfy h d a, [rId a])]
    let plain : List (Instr × List Nat) := [(.hshInit h n, []), (.hsh h n a, [rId a]), (.hfin h n d a len, [rId d, rId a]),
      (.sgn h a, [rId a]), (.mext h m a, [rId a]), (.mextRd h m a, [rId a]), (.thstm h d a f, [rId d, rId a, rId f])]
    let closes : List Instr := [.thclose h b, .thabort h b]
    let run (len : Nat) : Prop := (spadMap s firm v.toNat len).isSome ∧
      ∀ p, spadMap s firm v.toNat len = some p → ∀ y ∈ s.spadBad, ¬(p ≤ y ∧ y < p + len)
    isK x = true →
    -- the replies
    (isAsking s = true → replyOf s = some r → r.fault = none →
      (∀ i ∈ valued, Acts x h i.2 s → Answers i.1 s (WroteReg x d r.val (nextPc x s) s)) ∧
      (∀ i ∈ plain, Acts x h i.2 s → Answers i.1 s (Unchanged x (nextPc x s) s)) ∧
      (fn ≠ .brk → Acts x h [rId a] s → Answers (.thrd h fn d a) s (WroteReg x d r.val (nextPc x s) s)) ∧
      (firm = false → ∀ i ∈ closes, Acts x h [] s → Answers i s (Unchanged x (nextPc x s) s)) ∧
      (firm = false → Acts x h [rId a] s → Answers (.thopen h b a) s (fun t => Unchanged x (nextPc x s) s t ∧
        t.task.brackets = s.task.brackets))) ∧
    (isAsking s = true → replyOf s = none → ∀ i ∈ valued ++ plain, Acts x h i.2 s → Answers i.1 s quiet) ∧
    (isAsking s = true → replyOf s = some r → r.fault = some ft → unconfirmed s x = false →
      ∀ i ∈ valued ++ plain, Acts x h i.2 s → ∃ e, exec i.1 s = .next (raise x ft (ctxOf s x).pc s e) ∧ quiet e) ∧
    (isAsking s = true → replyOf s = some r → r.fault = some ft → unconfirmed s x = true →
      ∀ i ∈ valued ++ plain, Acts x h i.2 s → Answers i.1 s (fun t => quiet t ∧ t.replies = s.replies)) ∧
    -- the requests
    (firm = false → br.isOpen = false → (∀ c ∈ s.task.brackets.toList, ¬(c.isOpen = true ∧ c.index = v.toNat % 4096)) →
      asks (.thopen h b a) [rId a] (fun id => .tithe ⟨.openB (v.toNat % 4096) b.toNat, false, key, some id, trip⟩)) ∧
    (firm = false → br.isOpen = true → traps (.thopen h b a) [rId a] .thNested (b.toNat * 2 ^ 20) b.toNat) ∧
    (firm = true → traps (.thopen h b a) [rId a] .priv 0 0 ∧ ∀ i ∈ closes, traps i [] .priv 0 0) ∧
    (firm = false → br.isOpen = true → closeReady s b.toFin = true → matrixIdle s = true →
      (∀ c ∈ s.checkq, writesSpad c.act = false) → asks (.thclose h b) [] (fun id => .close b.toFin false id) ∧
      asks (.thabort h b) [] (fun id => .close b.toFin true id)) ∧
    (firm = false → br.isOpen = false → ∀ i ∈ closes,
      traps i [] .thNoBracket (b.toNat * 2 ^ 20 + 2 * 2 ^ 16) b.toNat) ∧
    (fn ≠ .brk → asks (.thrd h fn d a) [rId a] (fun id => .tithe ⟨.read fn (v.toNat % 4096), firm, key, some id, trip⟩)) ∧
    (Acts x h [rId a] s → Answers (.thrd h .brk d a) s (fun t => Queued x h [] [.wsr none none] s t ∧
      (let c := s.task.brackets[v.toNat % 4]
       WroteReg x d (if c.isOpen then BitVec.ofNat 64 (2 ^ 63 + (if c.lic then 2 ^ 62 else 0) + (if c.eg then 2 ^ 61 else 0) +
         (c.furs.length + c.regions.length) % 16 * 2 ^ 56 + c.index % 4096) else 0) (nextPc x s) s t))) ∧
    (ownStoresPending s = false → asks (.hshInit h n) [] (fun id => .cr (.init n) id)) ∧
    (ownStoresPending s = false → v.toNat % 8 = 0 → run 128 →
      asks (.hsh h n a) [rId a] (fun id => .cr (.absorb n v.toNat) id)) ∧
    (ownStoresPending s = false → run 64 → asks (.mext h m a) [rId a] (fun id => .cr (.extend m v.toNat) id)) ∧
    (ownStoresPending s = false → (spadMap s firm v.toNat 64).isSome →
      asks (.mextRd h m a) [rId a] (fun id => .cr (.read m v.toNat) id)) ∧
    (ownStoresPending s = false → v.toNat % 64 = 0 → run 128 →
      asks (.kunw h d slot a) [rId a] (fun id => .cr (.unwrap slot v.toNat) id)) ∧
    asks (.pxevc h d a) [rId a]
      (fun id => .kv ⟨.evict, firm, ctxNum s firm, [], 0, v.toNat, [], 0, false, id, 0⟩) ∧
    (∀ p, v.toNat % 32 = 0 → spadMap s firm v.toNat 32 = some p → mayLoad s true [⟨p, 32⟩] 0 = true →
      (∀ y ∈ s.spadBad, ¬(p ≤ y ∧ y < p + 32)) →
      (let blk := memRead s.spad p 32
       ∀ io ∈ ([(.pxlk h d a, .probe), (.pxlkAcq h d a, .acquire), (.pxins h d a, .insert), (.pxrefAdd h d a, .refAdd),
           (.pxrefDrop h d a, .refDrop), (.kvpgAlloc h d a, .alloc), (.kvpgFree h d a, .free), (.kvpgRel h d a, .release),
           (.kvpgAck h d a, .ack)] : List (Instr × KvOp)),
         kvReserved blk io.2 = false →
         (∀ l ∈ kvLists blk io.2, (spadMap s firm l.1 l.2).isSome) →
         asks io.1 [rId a] (fun id => .kv (kvRequest s blk io.2 id))))) ∧
  (∀ (s : State) (h : Hdr) (b : BitVec 2) (fn : BitVec 4) (a : BitVec 6),
    let x : Issuer := .kTask
    let f := fn.toFin
    let w := regOf x s a
    let bits (lo n : Nat) : Nat := w.toNat / 2 ^ lo % 2 ^ n
    let region := (bits 0 23, bits 24 23)
    let br := s.task.brackets[b.toFin]
    let open_ := s.task.brackets.toList.filter (·.isOpen)
    let valid := bits 47 17 = 0 ∧ bits 23 1 = 0 ∧ region.1 % 128 = 0 ∧ region.2 % 128 = 0 ∧ region.2 ≠ 0 ∧
      (spadMap s false region.1 region.2).isSome
    let free := ∀ c ∈ open_, f ∉ c.furs
    let apart := ∀ c ∈ open_, ∀ q ∈ c.regions, overlaps region.1 region.2 q.1 q.2 = false
    let joins (i : Instr) (reads : List Nat) (c : Bracket) : Prop := Acts x h reads s → Answers i s (fun t =>
      Unchanged x (nextPc x s) s t ∧ Queued x h [] [.wsr none none] s t ∧ t.task.brackets = s.task.brackets.set b.toFin c)
    let traps (i : Instr) (reads : List Nat) (c : Cause) (reason operand : Nat) : Prop :=
      Acts x h reads s → exec i s = .next (faultHere x ⟨c, b.toNat * 2 ^ 20 + reason * 2 ^ 16, BitVec.ofNat 64 operand⟩ s)
    let room := br.furs.length + br.regions.length < 8
    (br.isOpen = true → (s.task.mx.k.fur[f]).cap ≠ 0 → free → room →
      joins (.thbind h b fn) [] { br with furs := br.furs ++ [f] }) ∧
    (br.isOpen = true → valid → apart → room →
      joins (.thbindR h b a) [rId a] { br with regions := br.regions ++ [region] }) ∧
    (br.isOpen = false → traps (.thbind h b fn) [] .thNoBracket 2 b.toNat ∧ traps (.thbindR h b a) [rId a] .thNoBracket 2 b.toNat) ∧
    (br.isOpen = true → (s.task.mx.k.fur[f]).cap ≠ 0 → ¬free → traps (.thbind h b fn) [] .thNested 2 fn.toNat) ∧
    (br.isOpen = true → (s.task.mx.k.fur[f]).cap ≠ 0 → free → ¬room → traps (.thbind h b fn) [] .thNested 3 b.toNat) ∧
    (br.isOpen = true → valid → ¬apart → traps (.thbindR h b a) [rId a] .thNested 2 w.toNat) ∧
    (Acts .kFirm h [] s → exec (.thbind h b fn) s = .next (faultHere .kFirm ⟨.priv, 0, 0⟩ s)))

/-- R332, R335, R338, R339, R342, R345, R359 to R365: what the units decide. The Tithe unit opens, settles and reads
terms, and refuses in the order of R335; the service core writes a meter statement; the crypto unit begins, extends and
ends hashes, verifies, and reads a measurement register; the KV unit finds nothing in an empty index and returns pages to
its pool. Each replies to the request that it decided. (What the manual leaves to inference here is the model's reading:
logs 14, 32, 33, 42.) -/
def Obligations.UnitsDecide : Prop := ∀ (s : State) (r : TitheReq) (rest : List TitheReq) (index id pa due : Nat) (tm : Terms)
    (op : CrOp) (ops : List (CrOp × Nat × Nat)) (q : KvReq),
  let reply (id : Nat) (v : Word) (f : Option TrapInfo) (t : State) : Prop := ∃ at_, ⟨id, v, at_, f⟩ ∈ t.replies
  let still (t : State) : Prop := t.mem = s.mem ∧ t.spad = s.spad ∧ ∀ y, ctxOf t y = ctxOf s y
  let has (t : State) (k : Nat) : Option Terms := t.terms.find? (fun e => e.index == k)
  let others (t : State) : Prop := ∀ k, k ≠ index → has t k = has s k
  let decides (P : State → Prop) : Prop := s.tithe = r :: rest → titheRuns s false = true → r.id = some id →
    Answers .titheDecide s (fun t => still t ∧ t.tithe = rest ∧ P t)
  let refuses (slot : Nat) (c : Cause) : Prop := decides (fun t => t.terms = s.terms ∧
    reply id 0 (some ⟨c, slot * 2 ^ 20, BitVec.ofNat 64 index⟩) t)
  let licensed := r.key ≠ 0 ∧ r.key ∈ tm.licensees
  let late := tm.notAfter < s.timeBase / 840
  let unlimited := 0xFFFFFFFF
  (titheRuns s false = false → exec .titheDecide s = .next s) ∧ (titheRuns s true = false → exec .meterStatement s = .next s) ∧
  (∀ slot, r.op = .openB index slot →
    (has s index = none → refuses slot .thNoTerms) ∧
    (has s index = some tm → ¬licensed → refuses slot .thLicensee) ∧
    (has s index = some tm → licensed → late → refuses slot .thExpired) ∧
    (has s index = some tm → licensed → ¬late → tm.uses = 0 → refuses slot .thExhausted) ∧
    (has s index = some tm → tm.index = index → licensed → ¬late → tm.uses ≠ 0 → decides (fun t =>
      reply id 0 none t ∧ others t ∧ t.task.brackets = s.task.brackets.set (Fin.ofNat 4 slot)
        ⟨true, index, false, false, [], [], tm.charge⟩ ∧ has t index = some { tm with
        uses := if tm.uses = unlimited then unlimited else tm.uses - 1, rsv := tm.rsv + 1 }))) ∧
  (∀ slot charge, r.op = .settle index slot charge → has s index = some tm → tm.index = index →
    decides (fun t => reply id 0 none t ∧ others t ∧ has t index = some (match charge with
      | some n => { tm with meter := min (tm.meter + n) (2 ^ 64 - 1), rsv := tm.rsv - 1 }
      | none => { tm with
          uses := if tm.uses = unlimited then unlimited else min 0xFFFFFFFE (tm.uses + 1), rsv := tm.rsv - 1 }))) ∧
  (∀ fn, r.op = .read fn index → has s index = some tm → r.firm = true ∨ licensed →
    decides (fun t => t.terms = s.terms ∧ reply id (BitVec.ofNat 64 (match fn with
      | .owner => tm.owner
      | .notafter => tm.notAfter
      | .uses => tm.uses
      | .charge => tm.charge
      | .meter => tm.meter
      | .rsv => tm.rsv
      | .brk => 0)) none t)) ∧
  (∀ nonce, s.MemWf → s.tithe = r :: rest → titheRuns s true = true → r.id = some id → r.op = .statement index nonce [⟨pa, 128⟩] →
    has s index = some tm → r.firm = true ∨ licensed →
    Answers .meterStatement s (fun t => reply id 0 none t ∧ t.spad = s.spad ∧
      (let m := leBytes 2 tm.index ++ leBytes 2 s.boots ++ leBytes 4 tm.owner ++ leBytes 8 tm.meter ++ leBytes 4 tm.uses ++
         leBytes 4 tm.rsv ++ leBytes 8 (s.timeBase / 840) ++ leBytes 4 (tm.stm + 1) ++ leBytes 4 tm.seq ++ leBytes 8 nonce.toNat ++
         List.replicate 16 0
       memRead t.mem pa 64 = m ∧ memRead t.mem (pa + 64) 64 = (edSign Config.identityKey m).take 64) ∧
      ∀ y, ¬(pa ≤ y ∧ y < pa + 128) → memGet t.mem y = memGet s.mem y)) ∧
  (s.crypto.queue = [] → exec .cryptoUnitResult s = .next s) ∧
  (s.crypto.queue = (op, id, due) :: ops → crRuns s = true → Answers .cryptoUnitResult s (fun t => t.crypto.queue = ops ∧ t.mem = s.mem ∧
    (∀ y, ctxOf t y = ctxOf s y) ∧
    (∀ n, op = .init n → t.spad = s.spad ∧ reply id 0 none t ∧ t.crypto.hashes = s.crypto.hashes.set n.toNat ⟨shaH, 0⟩) ∧
    (∀ n a, op = .absorb n a → t.spad = s.spad ∧ reply id 0 none t ∧ t.crypto.hashes = s.crypto.hashes.set n.toNat
      ⟨shaBlock s.crypto.hashes[n.toNat].st (memRead s.spad a 128), s.crypto.hashes[n.toNat].len + 128⟩) ∧
    (∀ msg len sig pub, op = .verify msg len sig pub → t.spad = s.spad ∧ reply id (if edVerify (memRead s.spad pub 32)
      (memRead s.spad msg len) (memRead s.spad sig 64) then 1 else 0) none t) ∧
    (∀ m a, op = .extend m a → t.spad = s.spad ∧ reply id 0 none t ∧
      t.crypto.meas = s.crypto.meas.set m.toNat (sha512 (s.crypto.meas[m.toNat] ++ memRead s.spad a 64))) ∧
    (∀ m a, s.MemWf → op = .read m a → reply id 0 none t ∧
      memRead t.spad a (s.crypto.meas[m.toNat]).length = s.crypto.meas[m.toNat]))) ∧
  (kvPick s = none → exec .kvDecide s = .next s) ∧
  (kvPick s = some q → q.op = .probe → s.kv.nodes = [] →
    Answers .kvDecide s (fun t => still t ∧ reply q.id 0 none t ∧ t.kv = { s.kv with queue := s.kv.queue.erase q })) ∧
  (∀ hd pg, kvPick s = some q → q.op = .free → q.ids = [pg] → s.kv.nodes = [] → handleOf s q.ctx q.handle = some hd → pg ∈ hd.pages →
    Answers .kvDecide s (fun t => still t ∧ reply q.id 0 none t ∧ pg ∈ t.kv.pool ∧
      ∀ g ∈ t.kv.handles, pg ∉ g.pages)) ∧
  (∀ pg, kvPick s = some q → q.op = .free → q.ids = [pg] → handleOf s q.ctx q.handle = none →
    Answers .kvDecide s (fun t => still t ∧ reply q.id 1 none t ∧ t.kv.pool = s.kv.pool ∧ t.kv.handles = s.kv.handles))

/-! ### The end of a stream, interrupts and other events (chapters 04, 05) -/

/-- R105, R151, R350: `end` finishes its stream and discards its pending interrupts: of L, C and S once their accesses are
performed and their results have landed, of K once the checker and the engines have nothing left. A held copy command is
CP_FAULT there. (What the manual leaves to inference here is the model's reading: log 34.) -/
def Obligations.EndFinishesStreams : Prop := ∀ (x : Issuer) (s : State) (h : Hdr) (hd : CpHeld),
  let c := ctxOf s x
  let spent : Ctx := { c with run := .ended, pendTimer := false, pendBudget := false, pendAttn := false }
  let finishes := Answers (.endT h) s (fun t => After x (setCtx x spent s) t (nextPc x s))
  let noFault := s.task.mc.failed = none ∧ s.task.mc.cont = false
  Acts x h [] s →
  (isK x = false → allPerformed s x = true → landed s x = true → finishes) ∧
  (isK x = false → ¬(allPerformed s x = true ∧ landed s x = true) → exec (.endT h) s = .next (block x s)) ∧
  (isK x = true → unconfirmed s x = false → noFault → s.task.cp.held = none → fxHeld s = none → matrixIdle s = true →
    s.task.mc.queue = [] → s.task.cp.queue = [] → s.task.fx.cmds = [] → finishes) ∧
  (isK x = true → unconfirmed s x = true → exec (.endT h) s = .next (block x s)) ∧
  (isK x = true → unconfirmed s x = false → noFault → s.task.cp.held = some hd →
    exec (.endT h) s = .next (faultHere x (cpTrap hd) s))

/-- R129, R139, R141, R148, R225, R250, R430: what comes to the streams of the task between their words. Each event that
is not due changes nothing. The timer and the budget make their interrupts pending for streams that live; a wait ends at
its time; a stream takes BUDGET before TIMER before ATTN, K takes the last two only with IE set; firmware takes its oldest
event into its own frame; a noise channel whose seed is used up takes a fresh one. No memory and no register changes.
(What the manual leaves to inference here is the model's reading: logs 19, 49, 50, 62, 78.) -/
def Obligations.EventsReachStreams : Prop := ∀ (x : Issuer) (s : State) (b : BitVec 2) (v : Word) (tm : Timer)
    (from_ limit a : Nat) (e : FEvent) (rest : List FEvent) (ch : Fin 4) (handler : Pc),
  let streams : List (Issuer × Nat) := [(.kTask, 0), (.l, 1), (.c, 2), (.s, 3)]
  let lives (c : Ctx) : Bool := c.run != .ended && c.run != .absent
  let same (t : State) : Prop := t.mem = s.mem ∧ t.spad = s.spad ∧
    ∀ y, (ctxOf t y).regs = (ctxOf s y).regs ∧ (ctxOf t y).preds = (ctxOf s y).preds ∧ (ctxOf t y).pc = (ctxOf s y).pc
  let c := ctxOf s x
  let p := barOf s b
  let takes (k : Cause) (u : Ctx) : Prop :=
    exec (.takeInterrupt x) s = .next (takeTrap x ⟨k, 0, 0⟩ c.pc (setCtx x u s))
  let may := c.run = .running ∧ c.trp = false ∧ atBoundary s x = true
  let enabled := isK x = false ∨ c.ie = true
  let cause : Word := e.cause ||| BitVec.ofNat 64 (streamCode e.stream * 2 ^ 16 + if e.written then 0 else 2 ^ 18)
  (s.task.alive = true → p.complete < p.arrive →
    exec (.barrierPhaseComplete b) s = .next (setBar b { p with complete := p.complete + 1 } s)) ∧
  (p.arrive ≤ p.complete → exec (.barrierPhaseComplete b) s = .next s) ∧
  (s.task.timer = some tm → s.task.alive = true → tm.next < s.now →
    Answers .timerExpiry s (fun t => same t ∧ t.task.timer = some { tm with next := tm.next + tm.interval } ∧
      ∀ q ∈ streams, (ctxOf t q.1).pendTimer =
        ((ctxOf s q.1).pendTimer || (tm.sel.getLsbD q.2 && lives (ctxOf s q.1))))) ∧
  (s.task.timer = none → exec .timerExpiry s = .next s) ∧
  (s.task.alive = true → s.task.budget = 1 →
    Answers .budgetExpiry s (fun t => same t ∧ t.task.budget = 0 ∧
      ∀ q ∈ streams, (ctxOf t q.1).pendBudget = ((ctxOf s q.1).pendBudget || lives (ctxOf s q.1)))) ∧
  (s.task.budget ≠ 1 → exec .budgetExpiry s = .next s) ∧
  (c.wfe = some ⟨from_, some limit, false⟩ → limit ≤ s.now →
    exec (.wfeTimeout x) s = .next (setCtx x { c with wfe := some ⟨from_, some limit, true⟩ } s)) ∧
  (c.wfe = none → exec (.wfeTimeout x) s = .next s) ∧
  (portHasRoom s .ev 1 = true →
    Answers (.attn v) s (fun t => same t ∧ portOutOf t .ev = portOutOf s .ev ++ [v] ∧
      (s.kind = .compute → t.task.k.pendAttn = (s.task.k.pendAttn || lives s.task.k)) ∧
      (s.kind ≠ .compute → t.firm.pendAttn = true))) ∧
  (portHasRoom s .ev 1 = false → exec (.attn v) s = .next s) ∧
  (may → c.pendBudget = true → takes .budget { c with pendBudget := false }) ∧
  (may → c.pendBudget = false → enabled → c.pendTimer = true → takes .timer { c with pendTimer := false }) ∧
  (may → c.pendBudget = false → enabled → c.pendTimer = false → c.pendAttn = true →
    takes .attn { c with pendAttn := false }) ∧
  (c.trp = true ∨ (c.pendBudget = false ∧ (¬enabled ∨ (c.pendTimer = false ∧ c.pendAttn = false))) →
    exec (.takeInterrupt x) s = .next s) ∧
  (s.MemWf → s.fEvents = e :: rest → firmwareTakes s = true → handler.toNat = s.firm.tvec.toNat % 2 ^ 17 / 8 * 8 →
    handler ≠ 0 → spadMap s true s.firm.tframe.toNat 256 = some a →
    Answers .fEventTake s (fun t => t.fEvents = rest ∧ t.firm.trp = true ∧ t.firm.pc = handler ∧ t.firm.cause = cause ∧
      t.firm.epc = s.firm.pc.setWidth 64 ∧ t.firm.regs = s.firm.regs ∧ memWord t.spad a 8 = cause.toNat ∧
      memWord t.spad (a + 0x08) 8 = s.firm.pc.toNat ∧ memWord t.spad (a + 0x10) 8 = e.operand.toNat ∧
      (∀ y, ¬(a ≤ y ∧ y < a + 256) → memGet t.spad y = memGet s.spad y) ∧ t.mem = s.mem ∧
      ∀ y, y ≠ .kFirm → ctxOf t y = ctxOf s y)) ∧
  (s.fEvents = [] → exec .fEventTake s = .next s) ∧
  (s.task.noise[ch].pos < 2 ^ 41 → exec (.noiseReseed ⟨ch.val, by omega⟩) s = .next s) ∧
  (2 ^ 41 ≤ s.task.noise[ch].pos → s.task.k.nrp = false ∨ s.task.noise[ch].recorded[s.task.noise[ch].index]? = none →
    Answers (.noiseReseed ⟨ch.val, by omega⟩) s (fun t => same t ∧ ∃ seed, seed.length = 32 ∧
      t.task.noise = s.task.noise.set ch
        ⟨seed, 0, s.task.noise[ch].index + 1, s.task.noise[ch].recorded ++ [seed]⟩)) ∧
  (∀ seed, 2 ^ 41 ≤ s.task.noise[ch].pos → s.task.k.nrp = true →
    s.task.noise[ch].recorded[s.task.noise[ch].index]? = some seed →
    Answers (.noiseReseed ⟨ch.val, by omega⟩) s (fun t => same t ∧
      t.task.noise = s.task.noise.set ch ⟨seed, 0, s.task.noise[ch].index + 1, s.task.noise[ch].recorded⟩)) ∧
  (s.firmNoise.pos < 2 ^ 41 → exec (.noiseReseed 4) s = .next s) ∧
  (2 ^ 41 ≤ s.firmNoise.pos → Answers (.noiseReseed 4) s (fun t => same t ∧ t.task = s.task ∧ t.firmNoise.pos = 0 ∧
    t.firmNoise.seed.length = 32))

/-- R27, R28, R152 to R156, R161, R439: pre-emption and what watches the task. A demand makes a bulk task stop at safe
points; once every stream stands, the engines stand at their save points; 8,000 cycles later the image of the whole task
is in the save area and the core is free; the oldest image returns to a free core, after the time that this takes, with its
registers and its memory as they were, and its times shifted by the time away. A group in which no stream goes on for 2^24 cycles is recorded once as
hung. A unit of egress passes when every Sluice that binds its context has the allowance, and counts at each of them.
(What the manual leaves to inference here is the model's reading: logs 35, 51, 70.) -/
def Obligations.TasksStandAside : Prop := ∀ (s : State) (u : EgressUser) (g : Egress) (img : SaveImage) (rest : List SaveImage)
    (from_ : Nat),
  let streams : List Issuer := [.kTask, .l, .c, .s]
  let layout := (s.firmware.map (·.layout)).getD 0
  let mine (r : Reply) : Bool := s.task.k.asked == some r.id || s.task.k.keptAsk == some r.id
  let bound (e : Enclosure) : Prop := g.ctx ≠ 0 ∧ g.ctx ∈ e.ctxs
  let unit := 840000000
  (s.egress = [g] → g.user = u → g.passed = false →
    (∀ e ∈ s.enclosures, bound e → ((min g.size e.burst * unit : Nat) : Int) ≤ e.allowance) →
    Answers (.sluicePass u) s (fun t => t.egress = [{ g with passed := true }] ∧
      t.enclosures.map (fun e => (e.num, e.allowance)) = s.enclosures.map (fun e => (e.num,
        if g.ctx != 0 && e.ctxs.contains g.ctx then e.allowance - ((g.size * unit : Nat) : Int) else e.allowance)) ∧
      t.mem = s.mem ∧ ∀ y, ctxOf t y = ctxOf s y)) ∧
  (sluiceReady s u = none → exec (.sluicePass u) s = .next s) ∧
  (hungDue s = false → exec .hungDetect s = .next s) ∧
  (hungDue s = true → Answers .hungDetect s (fun t => t.hungSeen = true ∧
    (∃ r l, t.notices = s.notices ++ [r] ∧ r.what = .hung s.task.lid l ∧ l.length = 4 ∧ r.time = s.timeBase / 840) ∧ t.task = s.task ∧ t.mem = s.mem)) ∧
  (s.task.alive = true → s.task.bulk = true → s.preempt = false → s.saves.length < 512 →
    (groupCores s).any foreshore = true → bulkStays s 0 = true → bulkStays s 1 = true →
    exec .preemptDemand s = .next { s with preempt := true }) ∧
  (s.task.alive = false ∨ s.task.bulk = false ∨ 512 ≤ s.saves.length ∨ (groupCores s).any foreshore = false ∨
    bulkStays s 0 = false → exec .preemptDemand s = .next s) ∧
  (savePointDue s = false → exec .engineSavePoint s = .next s) ∧
  (savePointDue s = true → s.task.mx.kept = [] → s.task.mx.pops = [] →
    Answers .engineSavePoint s (fun t => t.saveFrom = some s.now ∧ t.mem = s.mem ∧ t.spad = s.spad ∧
      t.task.mx.acc = s.task.mx.acc ∧ ∀ y, ctxOf t y = ctxOf s y)) ∧
  (s.saveFrom = some from_ → s.now < from_ + 8000 → exec .partitionSave s = .next s) ∧
  (s.saveFrom = some from_ → streamsStopped s = false → exec .partitionSave s = .next s) ∧
  (s.saveFrom = some from_ → from_ + 8000 ≤ s.now → s.preempt = true → s.activating = false → streamsStopped s = true →
    (s.saves.filter (·.shadow)).length < 32 →
    Answers .partitionSave s (fun t => (∃ i, t.saves = s.saves ++ [i] ∧ i.task = s.task ∧ i.side = s.side ∧ i.saved = s.now ∧
        i.cause = .preempt ∧ i.events = s.fEvents ∧ i.corrected = s.corrected ∧ i.shadow = true ∧ i.layout = layout ∧
        i.replies = s.replies.filter mine) ∧ t.replies = s.replies.filter (fun r => !mine r) ∧ t.fEvents = [] ∧
      t.task.alive = false ∧ t.preempt = false ∧ t.mem = s.mem ∧ t.spad = s.spad ∧ t.firm = s.firm)) ∧
  (s.saves = [] ∨ s.task.alive = true ∨ s.quarantined = true → exec .partitionRestore s = .next s) ∧
  (s.saves = img :: rest → s.task.alive = false → s.quarantined = false → s.restoring = none →
    exec .partitionRestore s = .next { s with
      saves := { img with layout := layout } :: rest, restoring := some (s.now + if img.shadow then 8000 else 10000) }) ∧
  (s.saves = img :: rest → s.task.alive = false → s.quarantined = false → s.restoring = some from_ → s.now < from_ →
    exec .partitionRestore s = .next s) ∧
  (s.saves = img :: rest → s.task.alive = false → s.quarantined = false → s.restoring = some from_ → from_ ≤ s.now →
    Answers .partitionRestore s (fun t => t.saves = rest ∧ t.restoring = none ∧ t.replies = s.replies ++ img.replies ∧ t.side = img.side ∧ t.holds = img.holds ∧ t.mem = s.mem ∧
      t.spad = s.spad ∧ t.firm = s.firm ∧ t.task.alive = img.task.alive ∧ t.task.ctx = img.task.ctx ∧
      t.task.lid = img.task.lid ∧ t.special = { s with task := img.task }.special ∧
      t.task.e = img.task.e ∧ t.task.w = img.task.w ∧ t.task.queues = img.task.queues ∧ t.task.tokens = img.task.tokens ∧
      t.task.furrows = img.task.furrows ∧ t.task.mx.acc = img.task.mx.acc ∧
      t.task.timer = img.task.timer.map (fun m => { m with next := m.next + (s.now - img.saved) }) ∧
      ∀ y ∈ streams, (ctxOf t y).regs = (ctxOf { s with task := img.task } y).regs ∧
        (ctxOf t y).preds = (ctxOf { s with task := img.task } y).preds ∧
        (ctxOf t y).lc = (ctxOf { s with task := img.task } y).lc ∧ (ctxOf t y).pc = (ctxOf { s with task := img.task } y).pc ∧
        (ctxOf t y).imem = (ctxOf { s with task := img.task } y).imem ∧
        (ctxOf t y).run = (ctxOf { s with task := img.task } y).run))

/-- R81, R120, R164, R176, R210, R264, R282, R310, R404: a soft error corrupts what it strikes and nothing else: a
register or a predicate of a stream, whose next read fails parity, but never register 0 or p0; an element; a window register; a queue slot; a
byte of scratchpad, silently or with its check code; a byte of memory; an element of an accumulator, or all of it; a headland record; a
slot of the map engine; a latch; a scheduler core's instruction word, a die's journal, a queue table. (What the manual leaves
to inference here is the model's reading: log 1.) -/
def Obligations.SoftErrorsStrike : Prop := ∀ (s : State) (x : Issuer) (n : Fin 64) (p : Fin 16) (m : Fin 768) (flip : BitVec 64)
    (b5 : BitVec 5) (f8 : BitVec 8) (f32 : BitVec 32) (last : Bool) (a i : Nat) (q : QName) (core copy addr die : Nat),
  let c := ctxOf s x
  let strikes (t : ErrorTarget) (P : State → Prop) : Prop := Answers (.softError t) s P
  let marked (k : Nat) (l : List (Nat × Bool)) : Prop := ∀ r, r ∈ l ↔ (r ∈ c.bad ∧ r.1 ≠ k) ∨ r = (k, last)
  (n ≠ 0 → strikes (.register x n.val flip last) (fun t => (∀ y, y ≠ x → ctxOf t y = ctxOf s y) ∧ t.mem = s.mem ∧
    marked n.val (ctxOf t x).bad ∧ (ctxOf t x).regs = c.regs.set n (c.regs[n] ^^^ flip) ∧ (ctxOf t x).preds = c.preds)) ∧
  (strikes (.register x 0 flip last) (· = s)) ∧ (strikes (.register x 64 flip last) (· = s)) ∧
  (p ≠ 0 → strikes (.register x (64 + p.val) flip last) (fun t => (∀ y, y ≠ x → ctxOf t y = ctxOf s y) ∧
    marked (64 + p.val) (ctxOf t x).bad ∧ (ctxOf t x).regs = c.regs ∧ ctxPred (ctxOf t x) 0 = true ∧
    ∀ k, 0 < k → k < 16 → (ctxOf t x).preds.getLsbD k = (c.preds.getLsbD k != (k == p.val && flip.getLsbD 0)))) ∧
  (∀ k : Fin 8, strikes (.register x (80 + k.val) flip last) (fun t => (∀ y, y ≠ x → ctxOf t y = ctxOf s y) ∧
    marked (80 + k.val) (ctxOf t x).bad ∧ (ctxOf t x).regs = c.regs ∧ (ctxOf t x).preds = c.preds ∧
    (ctxOf t x).lc = c.lc.set k (c.lc[k] ^^^ flip.setWidth 32))) ∧
  (x = .c → strikes (.element m.val f32 last) (fun t => t.task.e = s.task.e.set m (s.task.e[m] ^^^ f32) ∧
    marked (128 + m.val) t.task.c.bad ∧ t.task.c.regs = s.task.c.regs ∧ t.mem = s.mem)) ∧
  (∀ e, (qOf s (qnameIdx q))[i]? = some e → e.val.isSome = true → strikes (.queue q i) (fun t =>
    (∀ k, k ≠ i → (qOf t (qnameIdx q))[k]? = (qOf s (qnameIdx q))[k]?) ∧
    ∃ d, (qOf t (qnameIdx q))[i]? = some d ∧ d.val = e.val ∧ d.poison.isSome = true)) ∧
  (s.MemWf → a < spadSize s → strikes (.scratchpad a f8) (fun t => memGet t.spad a = memGet s.spad a ^^^ f8 ∧
    (∀ y, y ≠ a → memGet t.spad y = memGet s.spad y) ∧ t.spadBad = s.spadBad)) ∧
  (a < spadSize s → strikes (.scratchpadLost a last) (fun t => t.spad = s.spad ∧
    (∀ y, y ∈ t.spadBad ↔ y ∈ s.spadBad ∨ y = a) ∧ t.spadWorn = s.spadWorn ++ (if last then [a] else []))) ∧
  (a < 2 ^ 52 → strikes (.memoryLost a last) (fun t => t.mem = s.mem ∧
    (∀ y, y ∈ t.memBad ↔ y ∈ s.memBad ∨ y = a) ∧ t.memWorn = s.memWorn ++ (if last then [a] else []))) ∧
  (x = .c → strikes (.window b5 flip last) (fun t => t.task.w = s.task.w.set b5.toNat (s.task.w[b5.toNat] ^^^ flip) ∧
    marked (896 + b5.toNat) t.task.c.bad ∧ t.task.c.regs = s.task.c.regs ∧ t.mem = s.mem)) ∧
  (a < 16 → strikes (.accumulatorLost a last) (fun t =>
    (∀ k, k ≠ a → accAt t.task.mx k = accAt s.task.mx k) ∧ accAt t.task.mx a = { accAt s.task.mx a with lost := true } ∧
    t.accWorn = s.accWorn ++ (if last then [a] else []))) ∧
  (a < 16 → i < (accAt s.task.mx a).vals.length → strikes (.accumulator a i f32) (fun t =>
    (∀ k, k ≠ a → accAt t.task.mx k = accAt s.task.mx k) ∧
    (∀ k, k ≠ i → (accAt t.task.mx a).vals[k]? = (accAt s.task.mx a).vals[k]?) ∧
    (accAt t.task.mx a).vals[i]? = (accAt s.task.mx a).vals[i]?.map (· ^^^ f32))) ∧
  (strikes (.record a) (fun t => t.side = s.side.map (fun r => if r.base = a then { r with damaged := true } else r) ∧
    t.spad = s.spad)) ∧
  (strikes (.mapSlot a last) (fun t => t.task.mc.slots.map (fun r => (r.1, r.2.vals)) =
      s.task.mc.slots.map (fun r => (r.1, r.2.vals)) ∧ ∀ r ∈ t.task.mc.slots, r.1 = a → r.2.err = some last)) ∧
  (∀ l, s.task.latches[i]? = some l → strikes (.latch i last) (fun t =>
    t.task.latches[i]? = some { l with corrupt := some last } ∧ t.task.latches.length = s.task.latches.length)) ∧
  (core < 4 → copy < 2 → strikes (.schedWord core copy addr) (fun t =>
    ∀ r, r ∈ t.imemBad ↔ r ∈ s.imemBad ∨ r = (core, copy, addr))) ∧
  (die < 2 → strikes (.journal die) (fun t => (∀ r, r ∈ t.journalBad ↔ r ∈ s.journalBad ∨ r = die) ∧ t.task = s.task)) ∧
  (core < 4 → strikes (.queueTable core) (fun t => ∀ r, r ∈ t.tableBad ↔ r ∈ s.tableBad ∨ r = core))

/-! ### Launch, ownership, boot, attestation (chapters 15 to 21) -/

/-- R7, R8, R23, R24, R30, R397 to R405, R418, R420: the launch path. A tail write of the owner copies the packets it newly
covers into the private buffer, rejects one whose loop table breaks a limit of R23, or sets OVF; no other master's write to a register does anything. The unit takes a queue's oldest
packet: one that fails a check is reported with status 3 and the number of the check, any other one becomes a launch; a
launch leaves its START, is admitted at its gate or reported there with status 4, is placed on free cores, where each
stream starts at word 0, and is reported when its tasks have ended. A scheduler core's word that is bad in one copy is
repaired; one that is bad in both, or a bad journal, holds its die. Any host writes the mailbox. (What the manual leaves to inference here is the model's
reading: logs 36, 37, 54; that `nrp` of the streams is bit 1 of FLAGS is log 28, the physical places of the mailbox and of the
rings log 10, and the rounding of QBASE log 71.) -/
def Obligations.LaunchPathActs : Prop := ∀ (s : State) (m : BitVec 24) (die q : Nat) (t : BitVec 64) (v : BitVec 64)
    (l : Launch) (ls : List Launch) (e : PageEntry) (im : Image) (g : Placement) (md : Model) (core addr copy failed gen : Nat),
  let w := queueOf s die q
  let new := (t.toNat + w.size - w.head) % w.size
  let ring := (List.range new).map (fun i => memRead s.mem (w.base.toNat + 320 * ((w.head + i) % w.size)) 320)
  let sound (b : List (BitVec 8)) : Prop := tailFault s w (die == 0 && q == 63) b = none
  let serves := s.power = true ∧ s.booted = true
  let owned := serves ∧ s.claim.owner = some m
  let queueNum := die < 2 ∧ q < 64
  let fits := w.cfg.getLsbD 0 = true ∧ w.size ≠ 0 ∧ ¬(die = 1 ∧ q = 63) ∧ t.toNat < w.size ∧ w.buf.length + new ≤ 204
  let reg := 0x100000 + 0x1000 * die + 0x40 * q
  let p := parsePacket (w.buf.headD [])
  let up (k : Launch) : Prop := schedulerUp s k.die k.q = true
  let cplOf (pk : Packet) : Prop := s.MemWf ∧ s.pages.find? (pageHas pk.ctx (vaNat pk.cpl)) = some e
  let recorded (pk : Packet) (bytes : List Byte) (u : State) : Prop :=
    memRead u.mem (e.pbase + (vaNat pk.cpl - e.vbase)) bytes.length = bytes
  let record (pk : Packet) (status reason failed gen : Nat) : List Byte :=
    leBytes 8 pk.lid.toNat ++ leBytes 1 status ++ leBytes 1 reason ++ leBytes 2 failed ++ leBytes 4 gen ++
      leBytes 8 (s.timeBase / 840) ++ List.replicate 8 0
  -- writes to the launch unit's registers
  (owned → queueNum → fits → (∀ b ∈ ring, sound b) → Answers (.qtailWrite m die q t) s (fun u => queueOf u die q = { w with
    tail := t.toNat, head := t.toNat, buf := w.buf ++ ring } ∧ u.mem = s.mem)) ∧
  (∀ b n, owned → queueNum → fits → ring = [b] → tailFault s w (die == 0 && q == 63) b = some n → cplOf (parsePacket b) →
    Answers (.qtailWrite m die q t) s (fun u => queueOf u die q = { w with
      tail := t.toNat, head := t.toNat, rej := min 0xFFFFFFFF (w.rej + 1) } ∧
      recorded (parsePacket b) (record (parsePacket b) 3 n 0 0) u)) ∧
  (owned → queueNum → ¬fits → Answers (.qtailWrite m die q t) s (fun u => queueOf u die q = { w with ovf := true } ∧
    u.mem = s.mem)) ∧
  (s.claim.owner ≠ some m → exec (.qtailWrite m die q t) s = .next s ∧
    (inMailbox addr = false → exec (.registerWrite m addr v) s = .next s)) ∧
  (serves → s.MemWf → inMailbox addr = true → Answers (.registerWrite m addr v) s (fun u =>
    let pa := Config.mailboxPa + (addr - 0x200000)
    memRead u.mem pa 8 = leBytes 8 v.toNat ∧ (∀ y, ¬(pa ≤ y ∧ y < pa + 8) → memGet u.mem y = memGet s.mem y) ∧
      u.claim = s.claim ∧ u.hostq = s.hostq)) ∧
  (owned → queueNum →
    Answers (.registerWrite m reg v) s (fun u => queueOf u die q = { w with base := v &&& 0xFFFFFFFFFFFFF000 }) ∧
    (∀ k, k ≤ 12 → v.toNat = 2 ^ k → Answers (.registerWrite m (reg + 0x08) v) s (fun u =>
      queueOf u die q = { w with size := 2 ^ k })) ∧
    Answers (.registerWrite m (reg + 0x20) v) s (fun u => queueOf u die q = { w with cfg := v &&& 0xFFFFFF0003 }) ∧
    Answers (.registerWrite m (reg + 0x28) v) s (fun u =>
      queueOf u die q = { w with ovf := w.ovf && !v.getLsbD 0 })) ∧
  (owned → Answers (.registerWrite m 0x0FF018 v) s (fun u => u.claim.lease = v.setWidth 16)) ∧
  (owned → Answers (.registerWrite m 0x0FF010 v) s (fun u => u.claim.p = v.getLsbD 24 ∧ u.claim.succ = v.setWidth 24)) ∧
  (owned → queueNum → ∃ u, exec (.registerWrite m reg v) s = .next u ∧
    readRegister u reg = v &&& 0xFFFFFFFFFFFFF000) ∧
  -- packets
  (serves → queueNum → ¬(die = 0 ∧ q = 63) → queueReady s die q = true → servesNext s die q = true →
    (packetFault s w false p = none → Answers (.packetCheck die q) s (fun u => (queueOf u die q).buf = w.buf.drop 1 ∧
      u.launches = s.launches ++ [⟨die, q, p, if p.flags.getLsbD 0 then .timed else if p.flags.getLsbD 3 then .gated
        else .ready, 0, false, 0, false, []⟩])) ∧
    (∀ n, packetFault s w false p = some n → cplOf p → Answers (.packetCheck die q) s (fun u =>
      (queueOf u die q).buf = w.buf.drop 1 ∧ (queueOf u die q).rej = min 0xFFFFFFFF (w.rej + 1) ∧
      u.launches = s.launches ∧ recorded p (record p 3 n 0 0) u))) ∧
  (queueReady s die q = false → exec (.packetCheck die q) s = .next s) ∧
  -- launches
  (s.launches = l :: ls → l.st = .timed → up l → l.pkt.start ≤ s.ptp / 840 →
    Answers .timedStart s (fun u => u.launches =
      { l with st := if l.pkt.flags.getLsbD 3 then .gated else .ready } :: ls ∧ u.task = s.task)) ∧
  (s.launches = [l] → l.st = .gated → up l → modelOf s l.pkt.model = some md → passOf s l.pkt = none →
    (md.gens[l.pkt.layer]? = some (gen, true) → l.pkt.layer = 0 → Answers .gatedAdmit s (fun u =>
      u.launches = [{ l with st := .ready, gen := gen }] ∧
      u.passes = s.passes ++ [⟨l.pkt.model, l.pkt.pass, gen, l.pkt.ctx, []⟩])) ∧
    (md.gens[l.pkt.layer]? = some (gen, false) → cplOf l.pkt → Answers .gatedAdmit s (fun u =>
      u.launches = [] ∧ recorded l.pkt (record l.pkt 4 0 0 0) u))) ∧
  (serves → s.launches = [l] → l.st = .ready → up l → l.pkt.lid = g.lid → imageOf s l.pkt.ctx l.pkt.image = some im →
    coresOk l.pkt g = true → ordinalsOk l.pkt.loops (g.cores.headD 0 / 64) g.ordinals = true → s.dieHeld[(g.cores.headD 0) / 64]! = false →
    coreFree s (l.pkt.cls == 1) im = true → coreNumber s ∈ g.cores →
    (∀ c ∈ l.cores, c / 64 ≠ g.cores.headD 0 / 64) →
    Answers (.groupPlace g) s (fun u => u.launches = [{ l with
        cores := l.cores ++ g.cores,
        st := if ((l.cores ++ g.cores).map (· / 64)).eraseDups.length = levelProduct 3 l.pkt.loops then .running else .ready }] ∧
      u.dcache = [] ∧ u.task.alive = true ∧
      u.task.ctx = l.pkt.ctx ∧ u.task.lid = l.pkt.lid ∧ u.task.group = g.group ∧ u.task.partition = g.cores ∧
      u.mem = s.mem ∧ u.firm = s.firm ∧ u.task.k.nrp = l.pkt.flags.getLsbD 1 ∧
      (∀ y ∈ [Issuer.kTask, .l, .c, .s], (ctxOf u y).run = .running ∧ (ctxOf u y).pc = 0 ∧ (ctxOf u y).preds = 1) ∧
      (u.task.l.tvec, u.task.c.tvec, u.task.s.tvec) =
        (im.lHandler.setWidth 64, im.cHandler.setWidth 64, im.sHandler.setWidth 64))) ∧
  (s.launches = [] → exec (.groupPlace g) s = .next s ∧ exec (.completionRecord failed) s = .next s) ∧
  (s.launches = [l] → l.st = .running → s.task.alive = false → s.saves = [] → l.failed = false → failed < 2 ^ 16 →
    cplOf l.pkt → Answers (.completionRecord failed) s (fun u => u.launches = [] ∧
      recorded l.pkt (record l.pkt (if failed = 0 then 0 else 1) (if failed = 0 then 0 else l.reason) failed l.gen) u)) ∧
  -- scheduler cores
  (copy < 2 → s.imemBad = [(core, copy, addr)] → Answers (.imemRepair core addr) s (fun u => u.imemBad = [] ∧
    u.task = s.task)) ∧
  (∀ d : Fin 2, s.dieHeld[d] = false → (core / 2 = d.val ∧ (core, 0, addr) ∈ s.imemBad ∧ (core, 1, addr) ∈ s.imemBad) ∨
    d.val ∈ s.journalBad →
    Answers (.dieHold d.val) s (fun u => u.dieHeld = s.dieHeld.set d true ∧ ∃ r, u.notices = s.notices ++ [r] ∧
      r.what = .dieHold d.val ∧ r.time = s.timeBase / 840 ∧ r.source = d.val * 0x400 + 0x40)) ∧
  Answers (.schedRestart core) s (fun u => ∀ k, k ∈ u.tableBad ↔ k ∈ s.tableBad ∧ k ≠ core)

/-- R157, R323, R324, R332, R412, R413, R415 to R422: a management command that runs has its effect, ends with status 0
and is recorded in the Tideline under its kind; one that breaks a limit ends with status 3 and reason 17 and has no effect but
its record (log 38). Extends wait for those that the crypto unit has taken before.
(That completion records of management commands are kept in the state is the model's choice, log 16; that the table of a
model and the list of a wave hold physical addresses, and the form of a layer's chain of copies, log 18; that a firmware
context keeps its pc and its registers in the switch, log 15.) -/
def Obligations.CommandsManage : Prop := ∀ (s : State) (m : Mgmt) (en : EnclosureMsg) (mm : ModelMsg) (md : Model)
    (gen list k seq ctx die steps n : Nat) (ok : Bool) (fw : FirmwareMsg) (key64 : BitVec 64) (key : List (BitVec 8))
    (dev ports : BitVec 16) (mi : BitVec 3) (msg : List (BitVec 8))
    (ims : List Image) (b : List (BitVec 8)),
  let roomy := s.tide.length + 78 ≤ Config.tideRecords
  let runs (kind : Nat) : Prop := s.power = true ∧ s.booted = true ∧ s.claim.owner.isSome = true ∧ roomy ∧ s.svcStop = none ∧
    s.mgmt = some m ∧ m.kind = kind ∧ (kind = 2 ∨ kind = 6 ∨ kind = 10 → measBusy s = false)
  let ended (status reason : Nat) (t : State) : Prop :=
    t.mgmt = none ∧ ∃ b, t.records = s.records ++ [leBytes 8 m.lid.toNat ++ leBytes 1 status ++ leBytes 1 reason ++ b]
  let noted (kind : Nat) (t : State) : Prop := ∃ r ∈ t.tide, r.kind = kind ∧ s.tideSeq ≤ r.seq
  let done (i : Instr) (kind : Nat) (P : State → Prop) : Prop :=
    runs kind → Answers i s (fun t => ended 0 0 t ∧ noted (0x60 + kind) t ∧ P t)
  let refused (i : Instr) (kind : Nat) : Prop := runs kind → Answers i s (fun t => ended 3 17 t ∧ noted (0x60 + kind) t ∧
    t.enclosures = s.enclosures ∧ t.models = s.models ∧ t.contexts = s.contexts ∧ t.terms = s.terms ∧
    t.ownerKeys = s.ownerKeys ∧ t.bulkShare = s.bulkShare ∧ t.crypto.meas = s.crypto.meas ∧ t.mem = s.mem)
  let good := en.num ≤ 15 ∧ en.base % 0x200000 = 0 ∧ 0 < en.pages ∧ en.base + en.pages * 0x200000 ≤ 768 * 2 ^ 30 ∧
    s.exhausted = false ∧ 0 ∉ en.ctxs
  let modelGood := mm.model ≤ 15 ∧ 1 ≤ mm.layers ∧ mm.layers ≤ 256 ∧ ∃ e ∈ s.enclosures, e.num = mm.encl
  let miss := s.saves.filter (fun i => i.layout != fw.layout && !fw.converts.contains i.layout)
  let signed := edVerify Config.vendorKey (firmwareBytes fw) fw.sig = true
  -- a run that the certificate store does not meet, which only manufacture writes (R436)
  let apart (pa len : Nat) : Prop := pa + len ≤ Config.certStorePa ∨ Config.certStorePa + Config.certStoreBytes ≤ pa
  let hasCtx := ∃ c ∈ s.contexts, c.num = ctx
  let idle := s.task.alive = false ∨ s.task.ctx ≠ ctx
  (s.mgmt = none → ∀ i ∈ [Instr.defineEnclosure en, .registerModel mm, .firmwareStage fw, .firmwareActivate,
    .ownerKeyRegistry n key, .fabricRoute dev ports, .tidelineTrim seq, .tidelineSeal, .contextCreate ctx key64 ims,
    .contextDestroy ctx, .extend mi key, .installTerms msg], exec i s = .next s) ∧
  (good → done (.defineEnclosure en) 2 (fun t => (∀ e ∈ s.enclosures, e.num ≠ en.num → e ∈ t.enclosures) ∧
    ∃ e ∈ t.enclosures, (e.num, e.base, e.pages, e.cxlBase, e.cxlLen, e.rate, e.burst) =
      (en.num, en.base, en.pages, en.cxlBase, en.cxlLen, en.rate, en.burst) ∧ ∀ c ∈ en.ctxs, c ∈ e.ctxs)) ∧
  (¬good → refused (.defineEnclosure en) 2) ∧
  (modelGood → done (.registerModel mm) 3 (fun t => (∀ q ∈ s.models, q.num ≠ mm.model → q ∈ t.models) ∧
    ∃ q ∈ t.models, (q.num, q.table, q.encl, q.wave) = (mm.model, mm.table, mm.encl, none) ∧ q.gens.length = mm.layers ∧
      ∀ k, k < mm.layers → q.gens[k]? = some (memWord s.mem (memWord s.mem (mm.table + 8 * k) 8) 4, true))) ∧
  (¬modelGood → refused (.registerModel mm) 3) ∧
  (s.models = [md] → md.wave = none → done (.replace md.num gen list) 4 (fun t =>
    t.models = [{ md with wave := some (gen, 0), list := list, halt := false }])) ∧
  (s.models = [] → refused (.replace n gen list) 4) ∧
  (roomy → s.models = [md] → md.wave = some (gen, k) → md.halt = false → k < md.gens.length → s.passes = [] →
    (let r := waveChain waveFuel (memWord s.mem (md.list + 16 * k) 8) s
     (r.1 = true → tideFits (waveLayer true md gen k s) = true →
      Answers (.waveLayer true) s (fun t => noted 0x28 t ∧ t.models = [{ md with
        gens := md.gens.set k (gen, true), wave := if k + 1 < md.gens.length then some (gen, k + 1) else none }] ∧
        (let old := memWord r.2.mem (md.table + 8 * k) 8
         let new := memWord r.2.mem (md.list + 16 * k + 8) 8
         r.2.MemWf → old + 64 ≤ 2 ^ 52 → apart old 64 → memRead t.mem old 64 = memRead r.2.mem new 64 ∧
           ∀ y, ¬(old ≤ y ∧ y < old + 64) → memGet t.mem y = memGet r.2.mem y))) ∧
     (r.1 = false → tideFits (waveLayer true md gen k s) = true →
      Answers (.waveLayer true) s (fun t => noted 0x29 t ∧ t.mem = r.2.mem ∧ t.models = [{ md with
        gens := md.gens.set k ((md.gens[k]?.getD (0, true)).1, false), halt := true }]))) ∧
    Answers (.waveLayer false) s (fun t => noted 0x29 t ∧ t.models = [{ md with
      gens := md.gens.set k ((md.gens[k]?.getD (0, true)).1, false), halt := true }])) ∧
  (s.models = [] → exec (.waveLayer ok) s = .next s) ∧
  -- the chain of copies: a block of zeros ends it; a block of one granule moves its bytes, and the next one is 64 bytes on
  ((∀ x ∈ memRead s.mem list 64, x = 0) → waveChain (n + 1) list s = (true, s)) ∧
  (s.MemWf → b = memRead s.mem list 64 → (∃ x ∈ b, x ≠ 0) → namesRows b = false → waveOk s b (cpParse b false) = true →
    (let c := cpParse b false
     c.dec = false → c.sfmt = .none → 0 < c.len → c.len ≤ 64 - c.src.toNat % 64 → apart c.dst.toNat c.len →
     ∃ t, waveChain (n + 1) list s = waveChain n (list + 64) t ∧ memRead t.mem c.dst.toNat c.len = memRead s.mem c.src.toNat c.len ∧
       ∀ y, ¬(c.dst.toNat ≤ y ∧ y < c.dst.toNat + c.len) → memGet t.mem y = memGet s.mem y)) ∧
  (signed → fw.converts.length ≤ 16 → done (.firmwareStage fw) 5 (fun t => t.staged = some fw)) ∧
  (¬signed → refused (.firmwareStage fw) 5) ∧
  (s.staged = some fw → miss = [] → s.firm.trp = false → unconfirmed s .kFirm = false → done .firmwareActivate 5 (fun t =>
    t.firmware = some fw ∧ t.staged = none ∧ noted 0x2B t ∧ t.firm.regs = s.firm.regs ∧ t.firm.pc = s.firm.pc ∧
    t.activating = false ∧ t.crypto.meas[2] = sha512 (s.crypto.meas[2] ++ sha512 (firmwareBytes fw)) ∧
    (s.kind = .compute → ∀ k, k < fw.code.length → k < 16384 →
      fetchWord t.firm.imem (BitVec.ofNat 17 (8 * k)) = fw.code.getD k 0) ∧
    (s.kind = .scheduler → ∀ k, k < fw.sched.length → k < 16384 →
      fetchWord t.firm.imem (BitVec.ofNat 17 (8 * k)) = fw.sched.getD k 0) ∧
    (s.kind = .service → t.firm.imem = s.firm.imem))) ∧
  (s.staged = some fw → miss ≠ [] → runs 5 → Answers .firmwareActivate s (fun t => ended 3 16 t ∧ noted 0x2A t ∧
    t.firmware = s.firmware ∧ t.firm = s.firm)) ∧
  (s.staged = some fw → miss = [] → s.firm.trp = true → runs 5 →
    exec .firmwareActivate s = .next { s with activating := true }) ∧
  (s.activating = true → exec .engineSavePoint s = .next s ∧ exec .partitionSave s = .next s) ∧
  (n ≤ 255 → key.length = 32 → done (.ownerKeyRegistry n key) 6 (fun t => (n, key) ∈ t.ownerKeys ∧
    ∀ p ∈ s.ownerKeys, p.1 ≠ n → p ∈ t.ownerKeys)) ∧
  (255 < n → refused (.ownerKeyRegistry n key) 6) ∧
  (done (.fabricRoute dev ports) 7 (fun t => ∀ r, r ∈ t.routes ↔ (r ∈ s.routes ∧ r.1 ≠ dev.toNat) ∨
    r = (dev.toNat, ports.toNat))) ∧
  ((∃ r ∈ s.tide, r.seq = seq ∧ r.signed = true) → (∀ r ∈ s.tide, r.seq < s.tideSeq) → done (.tidelineTrim seq) 8 (fun t =>
    (∀ r ∈ s.tide, seq < r.seq → r ∈ t.tide) ∧ ∀ r ∈ t.tide, r ∈ s.tide → seq < r.seq)) ∧
  ((∀ r ∈ s.tide, ¬(r.seq = seq ∧ r.signed = true)) → refused (.tidelineTrim seq) 8) ∧
  (done .tidelineSeal 8 (fun t => ∃ r ∈ t.tide, r.seq = s.tideSeq ∧ r.signed = true)) ∧
  (ctx ≠ 0 → key64 ≠ 0 → ¬hasCtx → (∀ i ∈ ims, i.ctx = ctx ∧ imageFits i = true) → done (.contextCreate ctx key64 ims) 9 (fun t =>
    t.contexts = s.contexts ++ [⟨ctx, key64, ims⟩] ∧ (∀ i ∈ ims, ∀ e ∈ i.pages, e.ctx = ctx → pageFits e = true → e ∈ t.pages) ∧
    ∀ e ∈ s.pages, e ∈ t.pages)) ∧
  (ctx = 0 ∨ key64 = 0 ∨ hasCtx ∨ (∃ i ∈ ims, i.ctx ≠ ctx ∨ imageFits i = false) → refused (.contextCreate ctx key64 ims) 9) ∧
  (hasCtx → idle → s.saves = [] → done (.contextDestroy ctx) 9 (fun t => (∀ c ∈ t.contexts, c.num ≠ ctx) ∧
    (∀ c ∈ s.contexts, c.num ≠ ctx → c ∈ t.contexts) ∧ (∀ p ∈ t.pages, p.ctx ≠ ctx) ∧ (∀ p ∈ t.tlbK, p.ctx ≠ ctx) ∧
    (∀ l ∈ t.launches, l.pkt.ctx ≠ ctx) ∧ (∀ g ∈ t.egress, g.ctx ≠ ctx) ∧ ∀ p ∈ s.pages, p.ctx ≠ ctx → p ∈ t.pages)) ∧
  (¬hasCtx → refused (.contextDestroy ctx) 9) ∧
  (5 ≤ mi.toNat → key.length = 64 → done (.extend mi key) 10 (fun t =>
    t.crypto.meas = s.crypto.meas.set mi.toNat (sha512 (s.crypto.meas[mi.toNat] ++ key)))) ∧
  (mi.toNat < 5 → refused (.extend mi key) 10) ∧
  (∀ d : Fin 2, steps ≤ 8 → bulkHolds s d.val = false → done (.foreshoreSplit d.val steps) 11 (fun t =>
    t.bulkShare = s.bulkShare.set d steps)) ∧
  (2 ≤ die ∨ 8 < steps → refused (.foreshoreSplit die steps) 11) ∧
  (runs 12 → m.body.take 192 = msg → (∃ x ∈ m.body.drop 192, x ≠ 0) → Answers (.installTerms msg) s (fun t =>
    ended 3 17 t ∧ noted 0x41 t ∧ t.terms = s.terms)) ∧
  (runs 12 → m.body.take 192 = msg → (∀ x ∈ m.body.drop 192, x = 0) →
    (installCheck s msg = none → Answers (.installTerms msg) s (fun t => ended 0 0 t ∧ noted 0x40 t ∧
      (∀ q ∈ s.terms, q.index ≠ fieldAt msg 4 2 → q ∈ t.terms) ∧
      ∃ q ∈ t.terms, q.index = fieldAt msg 4 2 ∧ q.owner = fieldAt msg 0 4 ∧ q.notAfter = fieldAt msg 8 8 ∧
        q.uses = fieldAt msg 0x10 4 ∧ q.charge = fieldAt msg 0x14 4 ∧ q.base = fieldAt msg 0x18 8 ∧
        q.pages = fieldAt msg 0x20 4 ∧ q.seq = fieldAt msg 0x70 4 ∧ q.licensees.length = fieldAt msg 6 1)) ∧
    (∀ c, installCheck s msg = some c → Answers (.installTerms msg) s (fun t => ended 3 17 t ∧ noted 0x41 t ∧
      t.terms = s.terms)))

/-- R32, R33, R378, R379, R406 to R410, R413, R414, R423, R425, R435, R436: the device's owner, its time and its power, and the accesses of
hosts and of other agents. A claim of a free device, or by the master that the owner has named, makes the writer the
owner; the owner's beat renews the lease, its release and the lease's end give the device up; a claim or a release that
finds the Tideline full waits. A host write reaches its
bytes and no other; an access outside the 52-bit physical space does not exist and stops the run. Booting steps the boot
counter, writes Tideline record 0 and finds the certificate store, which it maps for the service core beside the mailbox; a reset, which the owner asks for, a power loss and a thermal trip lose all but the fuses. (What the manual leaves to
inference here is the model's reading: logs 10, 15, 39, 40; what a loss leaves of memory and scratchpad, the bytes of host
memory too, is log 5, and the registers of the task logs 4 and 6.) -/
def Obligations.DeviceEventsAct : Prop := ∀ (s : State) (m n : BitVec 24) (nonce : BitVec 32) (tier : Tier) (pa ctx va len : Nat)
    (bytes : List (BitVec 8)) (relaxed : Bool) (delta : Int) (hot : Bool) (e : PageEntry),
  let serves := s.power = true ∧ s.booted = true
  let up := serves ∧ s.tide.length + 26 ≤ Config.tideRecords ∧ s.claimq = []
  let full := serves ∧ Config.tideRecords ≤ s.tide.length ∧ s.claimq = []
  let inStore (y : Nat) : Prop := Config.certStorePa ≤ y ∧ y < Config.certStorePa + certStore.length
  let kept (y : Nat) : Prop := Config.certStorePa ≤ y ∧ y < Config.certStorePa + Config.certStoreBytes
  let wrote (t : State) : Prop := memRead t.mem pa bytes.length = bytes ∧
    (∀ y, ¬(pa ≤ y ∧ y < pa + bytes.length) → memGet t.mem y = memGet s.mem y) ∧ t.spad = s.spad ∧
    t.dcache = s.dcache ∧ ∀ y, ctxOf t y = ctxOf s y
  let noted (kind : Nat) (t : State) : Prop := ∃ r ∈ t.tide, r.kind = kind ∧ s.tideSeq ≤ r.seq
  let lost (power : Bool) (t : State) : Prop := t.power = power ∧ t.booted = false ∧ t.boots = s.boots ∧
    (t.core, t.die, t.kind) = (s.core, s.die, s.kind) ∧ t.mem = [] ∧ t.spad = [] ∧ t.claim.owner = none ∧
    t.task = Task.reset ∧ t.firm.run = .absent ∧ t.contexts = [] ∧ t.terms = [] ∧ t.tide = []
  (up → s.claim.owner = none ∨ s.claim.hand = some m → Answers (.claim m nonce) s (fun t =>
    t.claim.owner = some m ∧ t.claim.nonce = nonce ∧ t.claim.hand = none ∧ noted 0x10 t ∧ t.mem = s.mem)) ∧
  (up → s.claim.owner = some n → s.claim.hand ≠ some m → exec (.claim m nonce) s = .next s) ∧
  (full → s.claim.owner = none ∨ s.claim.hand = some m → Answers (.claim m nonce) s (fun t => t.claim = s.claim ∧
    t.tide = s.tide ∧ t.claimq = [(m, some nonce)])) ∧
  (full → s.claim.owner = some m → Answers (.release m) s (fun t => t.claim = s.claim ∧ t.tide = s.tide ∧
    t.claimq = [(m, none)])) ∧
  (up → s.claim.owner = some m →
    Answers (.beat m) s (fun t => t.claim = { s.claim with last := s.timeBase }) ∧
    Answers (.release m) s (fun t => t.claim.owner = none ∧ t.claim.hand = none ∧ noted 0x11 t)) ∧
  (s.claim.owner ≠ some m → exec (.beat m) s = .next s ∧ (up → exec (.release m) s = .next s)) ∧
  (up → s.claim.owner = some m → s.claim.lease ≠ 0 → s.claim.last + s.claim.lease.toNat * 840000000 ≤ s.timeBase →
    Answers .leaseExpiry s (fun t => t.claim.owner = none ∧ noted 0x11 t)) ∧
  (s.claim.lease = 0 ∨ s.timeBase < s.claim.last + s.claim.lease.toNat * 840000000 → exec .leaseExpiry s = .next s) ∧
  (s.MemWf → pa + bytes.length ≤ 2 ^ 52 → (∀ y, kept y → ¬(pa ≤ y ∧ y < pa + bytes.length)) →
    Answers (.hostWrite tier pa bytes relaxed) s wrote ∧ Answers (.cxlAgentAccess pa (some bytes)) s wrote) ∧
  (s.MemWf → pa + bytes.length ≤ 2 ^ 52 →
    Answers (.hostWrite tier pa bytes relaxed) s (fun t => ∀ y, kept y → memGet t.mem y = memGet s.mem y) ∧
    Answers (.cxlAgentAccess pa (some bytes)) s (fun t => ∀ y, kept y → memGet t.mem y = memGet s.mem y)) ∧
  (2 ^ 52 < pa + bytes.length → exec (.hostWrite tier pa bytes relaxed) s = .fault (.outsideMemory pa) ∧
    exec (.cxlAgentAccess pa (some bytes)) s = .fault (.outsideMemory pa)) ∧
  (pa ≤ 2 ^ 52 → exec (.cxlAgentAccess pa none) s = .next s) ∧
  (s.pages.find? (pageHas ctx va) = some e → (let there : Seg := ⟨e.pbase + (va - e.vbase), len⟩
    (enclosureBad s ctx there = true → exec (.hostRead ctx va len) s = .next s) ∧
    (enclosureBad s ctx there = false → egressPassed s .host ctx len = true →
      Answers (.hostRead ctx va len) s (fun t => t.mem = s.mem ∧ t.egress.length ≤ s.egress.length ∧
        ∀ g ∈ s.egress, ¬(g.user = .host ∧ g.size = len ∧ g.ctx = ctx ∧ g.passed = true) → g ∈ t.egress)) ∧
    (enclosureBad s ctx there = false → egressPassed s .host ctx len = false →
      Answers (.hostRead ctx va len) s (fun t => t.mem = s.mem ∧ (∀ g ∈ s.egress, g ∈ t.egress) ∧
        ∃ g ∈ t.egress, g.user = .host ∧ g.size = len ∧ g.ctx = ctx)))) ∧
  (0 ≤ delta → Answers (.ptpCorrection delta) s (fun t => t.ptp = s.ptp + delta.toNat * 840 ∧ t.slew = s.slew ∧
    t.timeBase = s.timeBase)) ∧
  (delta < 0 → Answers (.ptpCorrection delta) s (fun t => t.ptp = s.ptp ∧ t.slew = s.slew - delta * 840 ∧
    t.timeBase = s.timeBase)) ∧
  (s.booted = false → (s.kind = .service → s.debugFuse = true → s.bootImage = none) → Answers .powerOnBoot s (fun t =>
    t.power = true ∧ t.booted = true ∧ t.boots = min 4095 (s.boots + 1) ∧ t.exhausted = decide (s.boots = 4095) ∧
    (s.MemWf → memRead t.mem Config.certStorePa certStore.length = certStore ∧
      ∀ y, ¬inStore y → memGet t.mem y = memGet s.mem y) ∧
    (s.kind = .service → ∀ p ∈ servicePages, p ∈ t.pages) ∧ (s.kind ≠ .service → t.pages = s.pages) ∧
    t.firm.run = .running ∧ ∃ r l, t.tide = s.tide ++ r :: l ∧ r.kind = 1 ∧ r.seq = s.tideSeq)) ∧
  (∀ img, s.booted = false → s.bootImage = some img →
    Answers .powerOnBoot s (fun t =>
      t.crypto.meas[1] = sha512 (s.crypto.meas[1] ++ if s.debugFuse then sha512 img.file else Config.bootDigest 2) ∧
      (s.debugFuse = true → s.kind = .service → t.firm.run = .running ∧ t.firm.pc = s.firm.pc ∧
        t.firm.imem = memWrite [] 0 (img.kCode.flatMap (fun w => leBytes 8 w.toNat))))) ∧
  (s.booted = true → exec .powerOnBoot s = .next s) ∧
  (s.power = true → (∃ k, s.resetBy = some k ∧ s.claim.owner = some k) ∨ (s.resetBy = none ∧ s.debugFuse = true) →
    Answers .deviceReset s (lost true)) ∧
  (s.power = true → (∃ k, s.resetBy = some k ∧ s.claim.owner ≠ some k) ∨ (s.resetBy = none ∧ s.debugFuse = false) →
    exec .deviceReset s = .next { s with resetBy := none }) ∧ Answers .powerLoss s (lost false) ∧
  Answers .thermalTrip s (fun t => lost false t ∧ t.notices.map (·.what) = [.trip]) ∧
  Answers (.clockThrottle hot) s (fun t =>
    t.clock = (if hot then max 4 (s.clock - 1) else min 8 (s.clock + 1)) ∧ t.task = s.task)

/-- R424, R434 to R438: the responder answers the request in the mailbox: it puts the response at +0x800, empties the
inward doorbell and rings the outward one with the request's SEQ and the response's length. A request in sequence whose
fields are right gets its answer and moves the protocol on; an error changes no state of the protocol; with an empty
doorbell, or another step's request, nothing happens. (What the manual leaves to inference here is the model's reading:
logs 10, 41.) -/
def Obligations.AttestationAnswers : Prop := ∀ (s : State) (r : SpdmReq),
  let mb := Config.mailboxPa
  let seq := inDoorbell s / 2 ^ 32
  let n := inDoorbell s % 2 ^ 32
  let b := requestBytes s
  let step : SpdmReq → Instr
    | .version => .getVersion
    | .capabilities => .getCapabilities
    | .algorithms => .negotiateAlgorithms
    | .digests => .getDigests
    | .certificate => .getCertificate
    | .challenge => .challenge
    | .measurements => .getMeasurements
  let code := fieldAt b 1 1
  let waits := s.MemWf ∧ s.power = true ∧ s.booted = true ∧ s.svcStop = none ∧ 4 ≤ n ∧ n ≤ 2048
  let answered (len : Nat) (head : List Byte) (t : State) : Prop :=
    inDoorbell t = 0 ∧ memWord t.mem (mb + 0xFF8) 8 = (seq * 2 ^ 32 + len) % 2 ^ 64 ∧
    memRead t.mem (mb + 0x800) head.length = head ∧ (∀ y, ¬(mb + 0x800 ≤ y ∧ y < mb + 0x1000) → memGet t.mem y = memGet s.mem y)
  let accepted := waits ∧ code = spdmCode r ∧ (r = .version ∨ fieldAt b 0 1 = 0x12) ∧ inSequence s r = true ∧
    fieldsOk s b r = true ∧ s.spdm.log.length + n + 2200 ≤ 8192
  let error (c d : Nat) : Prop := Answers (step r) s (fun t => t.spdm = s.spdm ∧
    answered 4 (bytesOf [if s.spdm.phase = 0 then 0x10 else 0x12, 0x7F, c, d]) t)
  let gives (q : SpdmReq) (len : Nat) (head : List Byte) (phase : Nat) : Prop := r = q → accepted →
    Answers (step r) s (fun t => answered len head t ∧ t.spdm.phase = phase)
  let chain := sha512 (chainBytes s)
  let off := fieldAt b 4 2
  let part := min 2024 (min (fieldAt b 6 2) (chainLen s - off))
  (s.booted = false ∨ s.power = false ∨ n = 0 ∨ s.svcStop.isSome = true → exec (step r) s = .next s) ∧
  (waits → (∃ q, q ≠ r ∧ code = spdmCode q) → exec (step r) s = .next s) ∧
  (waits → code ≠ 0x84 → fieldAt b 0 1 ≠ 0x12 → (∀ q, q ≠ r → code ≠ spdmCode q) → error 0x41 0) ∧
  (waits → fieldAt b 0 1 = 0x12 → (∀ q, code ≠ spdmCode q) → error 0x07 code) ∧
  (waits → fieldAt b 0 1 = 0x12 → code = spdmCode r → inSequence s r = false → error 0x04 0) ∧
  (waits → fieldAt b 0 1 = 0x12 → code = spdmCode r → inSequence s r = true → fieldsOk s b r = false → error 0x01 0) ∧
  gives .version 8 (bytesOf [0x10, 0x04, 0, 0, 0, 1, 0, 0x12]) 1 ∧
  gives .capabilities 20 (bytesOf [0x12, 0x61, 0, 0, 0, 12, 0, 0, 0x16, 0, 0, 0, 0, 8, 0, 0, 0, 8, 0, 0]) 2 ∧
  gives .algorithms 36 (bytesOf [0x12, 0x63, 0, 0, 36, 0, 1, 0, 8, 0, 0, 0, 0, 4, 0, 0, 4]) 3 ∧
  gives .digests (4 + chain.length) (bytesOf [0x12, 0x01, 0, 1] ++ chain) 3 ∧
  gives .certificate (8 + part) (bytesOf [0x12, 0x02, 0, 0] ++ leBytes 2 part ++ leBytes 2 (chainLen s - off - part) ++
    ((chainBytes s).drop off).take part) 3 ∧
  (r = .challenge → accepted → Answers (step r) s (fun t => inDoorbell t = 0 ∧ t.spdm.phase = 3 ∧
    memRead t.mem (mb + 0x800) 4 = bytesOf [0x12, 0x03, 0, 1])) ∧
  (r = .measurements → accepted → (∀ k, k < 8 → (s.crypto.meas[k]!).length = 64) → Answers (step r) s (fun t =>
    inDoorbell t = 0 ∧ t.spdm.phase = 3 ∧
    memRead t.mem (mb + 0x800) 4 = bytesOf [0x12, 0x60, 0, 0]))

/-! ### The machine -/

/-- R36 to R57: words of each family, written out from the encodings of the manual, decode to the instructions that they
stand for; the null word and a word of another stream do not. -/
def Obligations.WordsDecode : Prop :=
  let h (idle : BitVec 10) (sn : Bool) (pq : BitVec 4) (neg : Bool) : Hdr := ⟨idle, false, false, false, sn, pq, neg⟩
  let h0 := h 0 false 0 false
  let reads (x : Issuer) (svc : Bool) (w : Word) (i : Instr) : Prop := decode x svc w = .ok i
  reads .kTask false 0x008410310540E000 (.alu (h 2 true 4 false) .divz 3 4 5) ∧
  reads .kTask false 0x004048E0FFFFFFFB (.br (h 1 false 3 true) 0xFFFFFFFB) ∧
  reads .c false 0x0080C42040000000 (.tkw (h 2 false 0 false) .kc 4) ∧
  reads .s false 0x0000DC5187069000 (.amo h0 .max .device true 5 6 7) ∧
  reads .l false 0x00410001409C0040 (.ld (h 1 false 0 false) false .w 2 5 3 0x40) ∧
  reads .s false 0x00012C2101401000 (.stt h0 false 2 5 4 0 0x1000) ∧
  reads .c false 0x00C58428C0007900 (.fma (h 3 true 9 false) .ed (.e 40) (.lq 0) (.e 7)) ∧
  reads .c false 0x0002006110000000 (.vop h0 .add ⟨.rne, false⟩ 3 1 2) ∧
  reads .c false 0x0046248530280000 (.vcpr (h 1 true 0 false) 4 5 6 20) ∧
  reads .kTask false 0x0002900140000801 (.mgo h0 5 true 1) ∧
  reads .c false 0x0002C40300280000 (.hchk h0 false (.win 3) (some 20)) ∧
  reads .kTask false 0x0002FC3180002000 (.mcchk h0 .dead 3 6) ∧
  reads .kTask false 0x00030C0002000001 (.thbind h0 1 2) ∧
  reads .kTask false 0x0003200100000803 (.cpy h0 4 true 3) ∧
  reads .kFirm true 0x00035821C5000000 (.kunw h0 2 5 7) ∧
  decode .kTask false 0 = .error .nullWord ∧ decode .kTask false 0x0002006110000000 = .error (.wrongStream .k)

/-- R36, R37, R41, R42, R50 to R52, R54: a well-formed instruction word of a stream decodes from its encoding to itself,
with every operand at every value that the encoding admits; a word that is not well formed on the stream does not. -/
def Obligations.DecodeOfEncode : Prop := ∀ (x : Issuer) (svc : Bool) (i : Instr), isEvent i = false →
  (i.wf x svc = true ↔ decode x svc (encode i) = .ok i)

/-- R37, R41, R42, R52, R54: every word that decodes is the encoding of the instruction that it decodes to, which is well
formed: no bit of a word is dropped. -/
def Obligations.EncodeOfDecode : Prop := ∀ (x : Issuer) (svc : Bool) (w : Word) (i : Instr),
  decode x svc w = .ok i → encode i = w ∧ i.wf x svc = true

/-- R38, R54 to R56, R158: a step in which a stream may issue runs the instruction that the 8 bytes at its pc decode to,
and then passes the turn on; a word that is no instruction of the stream is a precise fault with the word for its operand;
a stream that may not issue passes the turn on. (The order of turns within a cycle is the model's, log 1.) -/
def Obligations.StepRunsDecoded : Prop := ∀ (x : Issuer) (s : State) (i : Instr) (f : DecodeFault),
  let c := ctxOf s x
  let w : Word := BitVec.ofNat 64 (memWord c.imem c.pc.toNat 8)
  let svc := s.kind == .service
  let counted : State := if x = .kFirm ∧ contested s = true then { s with taken := s.taken + 1 } else s
  let after : Turn := match x with
    | .kTask => .issue .kFirm
    | .kFirm => .issue .l
    | .l => .issue .c
    | .c => .issue .s
    | .s => .tick
  let what : TrapInfo := match f with
    | .nullWord => ⟨.nullWord, 0, w⟩
    | .undef => ⟨.undef, 0, w⟩
    | .wrongStream st => ⟨.wrongStream, streamCode st * 2 ^ 16, w⟩
    | .priv => ⟨.priv, 0, w⟩
    | .reservedField bit => ⟨.reservedField, bit * 2 ^ 16, w⟩
  s.agenda = [] → s.power = true → s.booted = true → s.turn = .issue x →
  (mayIssue s x = true → decode x svc w = .ok i → latchFails s x = true →
    step s = .next { takeTrap .c ⟨.parityLasting, 0, 0⟩ c.pc { s with task.latchFail := false } with turn := after }) ∧
  (mayIssue s x = true → decode x svc w = .ok i → latchFails s x = false → i.wf x svc = true ∧
    (∀ t, exec i counted = .next t → step s = .next { t with turn := nextTurn t.turn }) ∧
    (∀ r, exec i counted = .fault r → step s = .fault r) ∧ ∀ r, exec i counted = .refused r → step s = .refused r) ∧
  (mayIssue s x = true → decode x svc w = .error f → step s = .next { faultHere x what counted with turn := after }) ∧
  (mayIssue s x = false → step s = .next { s with turn := after })

/-- R6, R38, R158, R250, R410, R425: a cycle in which nothing is left to do ends: the clock counts on, the time base runs
by the length of the cycle, K's issue slot is free again, firmware's share counts anew at each frame of 256 cycles, and
the budget of a task that goes on steps down, its last step being an event of its own. A step on the agenda comes first.
(What the manual leaves to inference here is the model's reading: log 1.) -/
def Obligations.CyclesPass : Prop := ∀ (s : State) (i : Instr) (rest : List Instr),
  let b := s.task.budget
  (s.agenda = i :: rest → isEvent i = true → step s = exec i { s with agenda := rest }) ∧
  (s.agenda = i :: rest → isEvent i = false → step s = .next { s with agenda := rest }) ∧
  (s.agenda = [] → s.power = false → step s = .next s) ∧
  (s.agenda = [] → s.power = true → s.booted = false → step s = exec .powerOnBoot s) ∧
  (s.agenda = [] → s.power = true → s.booted = true → s.turn = .tick → endEvent s = none → 1 ≤ s.clock →
    ∃ t, step s = .next t ∧ t.turn = .unit ∧ t.now = s.now + 1 ∧ t.timeBase = s.timeBase + 3360 / s.clock ∧
      t.kSlot = false ∧ t.taken = (if (s.now + 1) % 256 = 0 then 0 else s.taken) ∧ t.mem = s.mem ∧
      (s.task.alive = true → allEnded s = false → t.spad = s.spad ∧
        t.task.budget = (if s.task.budgetFrom ≤ s.now ∧ 1 < b.toNat then b - 1 else b) ∧
        t.agenda = (if s.task.budgetFrom ≤ s.now ∧ b = 1 then [.budgetExpiry] else []) ∧
        ∀ y ∈ [Issuer.kTask, .kFirm, .l, .c, .s], (ctxOf t y).regs = (ctxOf s y).regs ∧ (ctxOf t y).pc = (ctxOf s y).pc ∧
          (ctxOf t y).run = (ctxOf s y).run))

/-- R33, R111, R112, R140, R157, R158, R361, R407, R423: the machine right after reset, where the manual gives a value,
and its memories, which are in canonical form, and its instruction addresses, which are multiples of 8. (Registers to
which the manual gives no value are the model's choice, log 4.) -/
def Obligations.ResetLeaves : Prop :=
  let s := State.reset
  (∀ x, (ctxOf s x).run = .absent ∧ (ctxOf s x).pc = 0 ∧ ctxPred (ctxOf s x) 0 = true ∧ (ctxOf s x).trp = false ∧
    (ctxOf s x).tvec = 0) ∧
  s.task.k.tframe = 0x7FF400 ∧ s.firm.tframe = 0x7FF800 ∧ s.share = 16 ∧ s.bulkShare[0] = 4 ∧ s.bulkShare[1] = 4 ∧
  s.task.alive = false ∧ s.claim.owner = none ∧ s.claim.hand = none ∧ s.claim.lease = 0 ∧ s.booted = false ∧
  (∀ m, m < 8 → s.crypto.meas[m]! = List.replicate 64 0) ∧ s.MemWf ∧ s.Aligned

/-- Every memory of the machine keeps its canonical form in every step: addresses strictly rising, no entry that an
unlisted address reads as; so equal memories are equal data. (R19, R86, R106; the form is the model's.) (What the manual
leaves to inference here is the model's reading: log 53.) -/
def Obligations.StepsKeepMemories : Prop := ∀ (s t : State), s.MemWf → step s = .next t → t.MemWf

/-- R36, R86, R97 to R101, R111, R145: instruction addresses stay multiples of 8 in every step. -/
def Obligations.StepsKeepAlignment : Prop := ∀ (s t : State), s.Aligned → step s = .next t → t.Aligned
end

