-- ==== Sys2Proof/Laws/Exec.lean ====
section
/-! SUPPORT. The dispatch of every instruction to its meaning, one equation each. -/

namespace Sys2Proof.Machine

@[simp] theorem exec_nop (h : Hdr) (s : State) :
    exec (.nop h) s = execNop h s := rfl
@[simp] theorem exec_li (h : Hdr) (d : BitVec 6) (imm : BitVec 32) (s : State) :
    exec (.li h d imm) s = execLi h d imm s := rfl
@[simp] theorem exec_lih (h : Hdr) (d : BitVec 6) (imm : BitVec 32) (s : State) :
    exec (.lih h d imm) s = execLih h d imm s := rfl
@[simp] theorem exec_alu (h : Hdr) (fn : AluFn) (d : BitVec 6) (a : BitVec 6) (b : BitVec 6) (s : State) :
    exec (.alu h fn d a b) s = execAlu h fn d a b s := rfl
@[simp] theorem exec_addi (h : Hdr) (d : BitVec 6) (a : BitVec 6) (imm : BitVec 26) (s : State) :
    exec (.addi h d a imm) s = execAddi h d a imm s := rfl
@[simp] theorem exec_andi (h : Hdr) (d : BitVec 6) (a : BitVec 6) (imm : BitVec 26) (s : State) :
    exec (.andi h d a imm) s = execAndi h d a imm s := rfl
@[simp] theorem exec_ori (h : Hdr) (d : BitVec 6) (a : BitVec 6) (imm : BitVec 26) (s : State) :
    exec (.ori h d a imm) s = execOri h d a imm s := rfl
@[simp] theorem exec_xori (h : Hdr) (d : BitVec 6) (a : BitVec 6) (imm : BitVec 26) (s : State) :
    exec (.xori h d a imm) s = execXori h d a imm s := rfl
@[simp] theorem exec_shli (h : Hdr) (d : BitVec 6) (a : BitVec 6) (n : BitVec 6) (s : State) :
    exec (.shli h d a n) s = execShli h d a n s := rfl
@[simp] theorem exec_shri (h : Hdr) (d : BitVec 6) (a : BitVec 6) (n : BitVec 6) (s : State) :
    exec (.shri h d a n) s = execShri h d a n s := rfl
@[simp] theorem exec_sari (h : Hdr) (d : BitVec 6) (a : BitVec 6) (n : BitVec 6) (s : State) :
    exec (.sari h d a n) s = execSari h d a n s := rfl
@[simp] theorem exec_muli (h : Hdr) (d : BitVec 6) (a : BitVec 6) (imm : BitVec 26) (s : State) :
    exec (.muli h d a imm) s = execMuli h d a imm s := rfl
@[simp] theorem exec_cmp (h : Hdr) (cc : CmpCc) (pd : BitVec 4) (a : BitVec 6) (b : BitVec 6) (s : State) :
    exec (.cmp h cc pd a b) s = execCmp h cc pd a b s := rfl
@[simp] theorem exec_cmpi (h : Hdr) (cc : CmpCc) (pd : BitVec 4) (a : BitVec 6) (imm : BitVec 20) (s : State) :
    exec (.cmpi h cc pd a imm) s = execCmpi h cc pd a imm s := rfl
@[simp] theorem exec_plog (h : Hdr) (fn : PlogFn) (d : BitVec 4) (a : BitVec 4) (b : BitVec 4) (s : State) :
    exec (.plog h fn d a b) s = execPlog h fn d a b s := rfl
@[simp] theorem exec_sel (h : Hdr) (d : BitVec 6) (a : BitVec 6) (b : BitVec 6) (s : State) :
    exec (.sel h d a b) s = execSel h d a b s := rfl
@[simp] theorem exec_lea (h : Hdr) (scale : BitVec 2) (d : BitVec 6) (a : BitVec 6) (b : BitVec 6) (s : State) :
    exec (.lea h scale d a b) s = execLea h scale d a b s := rfl
@[simp] theorem exec_br (h : Hdr) (off : BitVec 32) (s : State) :
    exec (.br h off) s = execBr h off s := rfl
@[simp] theorem exec_call (h : Hdr) (off : BitVec 32) (s : State) :
    exec (.call h off) s = execCall h off s := rfl
@[simp] theorem exec_jr (h : Hdr) (d : BitVec 6) (a : BitVec 6) (s : State) :
    exec (.jr h d a) s = execJr h d a s := rfl
@[simp] theorem exec_loop (h : Hdr) (n : BitVec 3) (src : LoopSrc) (s : State) :
    exec (.loop h n src) s = execLoop h n src s := rfl
@[simp] theorem exec_endl (h : Hdr) (n : BitVec 3) (off : BitVec 32) (s : State) :
    exec (.endl h n off) s = execEndl h n off s := rfl
@[simp] theorem exec_safe (h : Hdr) (s : State) :
    exec (.safe h) s = execSafe h s := rfl
@[simp] theorem exec_endT (h : Hdr) (s : State) :
    exec (.endT h) s = execEndT h s := rfl
@[simp] theorem exec_ldk (h : Hdr) (sz : Sz) (d : BitVec 6) (a : BitVec 6) (ac : BitVec 3) (off : BitVec 20) (s : State) :
    exec (.ldk h sz d a ac off) s = execLdk h sz d a ac off s := rfl
@[simp] theorem exec_stk (h : Hdr) (sz : Sz) (d : BitVec 6) (a : BitVec 6) (ac : BitVec 3) (off : BitVec 20) (s : State) :
    exec (.stk h sz d a ac off) s = execStk h sz d a ac off s := rfl
@[simp] theorem exec_lds (h : Hdr) (sz : Sz) (d : BitVec 6) (a : BitVec 6) (off : BitVec 20) (s : State) :
    exec (.lds h sz d a off) s = execLds h sz d a off s := rfl
@[simp] theorem exec_sts (h : Hdr) (sz : Sz) (d : BitVec 6) (a : BitVec 6) (off : BitVec 20) (s : State) :
    exec (.sts h sz d a off) s = execSts h sz d a off s := rfl
@[simp] theorem exec_rsr (h : Hdr) (d : BitVec 6) (r : SpecialReg) (s : State) :
    exec (.rsr h d r) s = execRsr h d r s := rfl
@[simp] theorem exec_wsr (h : Hdr) (r : SpecialReg) (a : BitVec 6) (s : State) :
    exec (.wsr h r a) s = execWsr h r a s := rfl
@[simp] theorem exec_epush (h : Hdr) (port : Port) (a : BitVec 6) (s : State) :
    exec (.epush h port a) s = execEpush h port a s := rfl
@[simp] theorem exec_epop (h : Hdr) (d : BitVec 6) (port : Port) (s : State) :
    exec (.epop h d port) s = execEpop h d port s := rfl
@[simp] theorem exec_ecountOut (h : Hdr) (d : BitVec 6) (port : Port) (s : State) :
    exec (.ecountOut h d port) s = execEcountOut h d port s := rfl
@[simp] theorem exec_ecountIn (h : Hdr) (d : BitVec 6) (port : Port) (s : State) :
    exec (.ecountIn h d port) s = execEcountIn h d port s := rfl
@[simp] theorem exec_rnd (h : Hdr) (d : BitVec 6) (s : State) :
    exec (.rnd h d) s = execRnd h d s := rfl
@[simp] theorem exec_tkp (h : Hdr) (f : Fifo) (n : BitVec 6) (s : State) :
    exec (.tkp h f n) s = execTkp h f n s := rfl
@[simp] theorem exec_tkw (h : Hdr) (f : Fifo) (n : BitVec 6) (s : State) :
    exec (.tkw h f n) s = execTkw h f n s := rfl
@[simp] theorem exec_tkc (h : Hdr) (d : BitVec 6) (f : Fifo) (s : State) :
    exec (.tkc h d f) s = execTkc h d f s := rfl
@[simp] theorem exec_bar (h : Hdr) (b : BitVec 2) (s : State) :
    exec (.bar h b) s = execBar h b s := rfl
@[simp] theorem exec_bara (h : Hdr) (b : BitVec 2) (s : State) :
    exec (.bara h b) s = execBara h b s := rfl
@[simp] theorem exec_barw (h : Hdr) (b : BitVec 2) (s : State) :
    exec (.barw h b) s = execBarw h b s := rfl
@[simp] theorem exec_renq (h : Hdr) (a : BitVec 6) (b : BitVec 6) (s : State) :
    exec (.renq h a b) s = execRenq h a b s := rfl
@[simp] theorem exec_amo (h : Hdr) (op : AmoOp) (sc : Scope) (dw : Bool) (d : BitVec 6) (a : BitVec 6) (b : BitVec 6) (s : State) :
    exec (.amo h op sc dw d a b) s = execAmo h op sc dw d a b s := rfl
@[simp] theorem exec_fence (h : Hdr) (kind : FenceKind) (sc : Scope) (s : State) :
    exec (.fence h kind sc) s = execFence h kind sc s := rfl
@[simp] theorem exec_mark (h : Hdr) (s : State) :
    exec (.mark h) s = execMark h s := rfl
@[simp] theorem exec_wfe (h : Hdr) (imm : BitVec 20) (s : State) :
    exec (.wfe h imm) s = execWfe h imm s := rfl
@[simp] theorem exec_sysCall (h : Hdr) (imm : BitVec 20) (s : State) :
    exec (.sysCall h imm) s = execSysCall h imm s := rfl
@[simp] theorem exec_sysResume (h : Hdr) (st : BitVec 2) (s : State) :
    exec (.sysResume h st) s = execSysResume h st s := rfl
@[simp] theorem exec_sysKill (h : Hdr) (imm : BitVec 20) (s : State) :
    exec (.sysKill h imm) s = execSysKill h imm s := rfl
@[simp] theorem exec_sysTmr (h : Hdr) (mask : BitVec 4) (imm : BitVec 20) (s : State) :
    exec (.sysTmr h mask imm) s = execSysTmr h mask imm s := rfl
@[simp] theorem exec_trap (h : Hdr) (imm : BitVec 20) (s : State) :
    exec (.trap h imm) s = execTrap h imm s := rfl
@[simp] theorem exec_brk (h : Hdr) (imm : BitVec 20) (s : State) :
    exec (.brk h imm) s = execBrk h imm s := rfl
@[simp] theorem exec_rfi (h : Hdr) (s : State) :
    exec (.rfi h) s = execRfi h s := rfl
@[simp] theorem exec_ld (h : Hdr) (zp : Bool) (sz : Sz) (q : Fin 8) (ab : BitVec 6) (ac : BitVec 3) (off : BitVec 16) (s : State) :
    exec (.ld h zp sz q ab ac off) s = execLd h zp sz q ab ac off s := rfl
@[simp] theorem exec_ldp (h : Hdr) (sz : Sz) (q : Fin 8) (ab : BitVec 6) (ac : BitVec 3) (off : BitVec 16) (s : State) :
    exec (.ldp h sz q ab ac off) s = execLdp h sz q ab ac off s := rfl
@[simp] theorem exec_ldi (h : Hdr) (sz : Sz) (q : Fin 4) (ab : BitVec 6) (ac : BitVec 3) (off : BitVec 16) (s : State) :
    exec (.ldi h sz q ab ac off) s = execLdi h sz q ab ac off s := rfl
@[simp] theorem exec_ldg (h : Hdr) (zp : Bool) (sz : Sz) (iq : Fin 4) (q : Fin 8) (ab : BitVec 6) (ac : BitVec 3) (off : BitVec 16) (s : State) :
    exec (.ldg h zp sz iq q ab ac off) s = execLdg h zp sz iq q ab ac off s := rfl
@[simp] theorem exec_ldr (h : Hdr) (f : BitVec 4) (pitch : BitVec 4) (ab : BitVec 6) (ac : BitVec 3) (off : BitVec 16) (s : State) :
    exec (.ldr h f pitch ab ac off) s = execLdr h f pitch ab ac off s := rfl
@[simp] theorem exec_ldw (h : Hdr) (w : BitVec 5) (ab : BitVec 6) (ac : BitVec 3) (off : BitVec 16) (s : State) :
    exec (.ldw h w ab ac off) s = execLdw h w ab ac off s := rfl
@[simp] theorem exec_pf (h : Hdr) (tr : Bool) (ab : BitVec 6) (off : BitVec 16) (s : State) :
    exec (.pf h tr ab off) s = execPf h tr ab off s := rfl
@[simp] theorem exec_st (h : Hdr) (sz : Sz) (q : Fin 8) (ab : BitVec 6) (ac : BitVec 3) (off : BitVec 16) (s : State) :
    exec (.st h sz q ab ac off) s = execSt h sz q ab ac off s := rfl
@[simp] theorem exec_stp (h : Hdr) (sz : Sz) (q : Fin 8) (ab : BitVec 6) (ac : BitVec 3) (off : BitVec 16) (s : State) :
    exec (.stp h sz q ab ac off) s = execStp h sz q ab ac off s := rfl
@[simp] theorem exec_stg (h : Hdr) (sz : Sz) (iq : Fin 8) (q : Fin 8) (ab : BitVec 6) (ac : BitVec 3) (off : BitVec 16) (s : State) :
    exec (.stg h sz iq q ab ac off) s = execStg h sz iq q ab ac off s := rfl
@[simp] theorem exec_stw (h : Hdr) (w : BitVec 5) (ab : BitVec 6) (ac : BitVec 3) (off : BitVec 16) (s : State) :
    exec (.stw h w ab ac off) s = execStw h w ab ac off s := rfl
@[simp] theorem exec_stt (h : Hdr) (keep : Bool) (f : BitVec 4) (pitch : BitVec 4) (ab : BitVec 6) (ac : BitVec 3) (off : BitVec 16) (s : State) :
    exec (.stt h keep f pitch ab ac off) s = execStt h keep f pitch ab ac off s := rfl
@[simp] theorem exec_qfl (h : Hdr) (q : QName) (s : State) :
    exec (.qfl h q) s = execQfl h q s := rfl
@[simp] theorem exec_qln (h : Hdr) (dst : QlnDst) (q : QName) (s : State) :
    exec (.qln h dst q) s = execQln h dst q s := rfl
@[simp] theorem exec_fop (h : Hdr) (fn : FopFn) (ed : EOp) (ea : EOp) (eb : EOp) (s : State) :
    exec (.fop h fn ed ea eb) s = execFop h fn ed ea eb s := rfl
@[simp] theorem exec_fma (h : Hdr) (c : Addend) (ed : EOp) (ea : EOp) (eb : EOp) (s : State) :
    exec (.fma h c ed ea eb) s = execFma h c ed ea eb s := rfl
@[simp] theorem exec_fnma (h : Hdr) (c : Addend) (ed : EOp) (ea : EOp) (eb : EOp) (s : State) :
    exec (.fnma h c ed ea eb) s = execFnma h c ed ea eb s := rfl
@[simp] theorem exec_frcp (h : Hdr) (ed : EOp) (ea : EOp) (s : State) :
    exec (.frcp h ed ea) s = execFrcp h ed ea s := rfl
@[simp] theorem exec_frsq (h : Hdr) (ed : EOp) (ea : EOp) (s : State) :
    exec (.frsq h ed ea) s = execFrsq h ed ea s := rfl
@[simp] theorem exec_frfr (h : Hdr) (ed : EOp) (ea : EOp) (eb : EOp) (s : State) :
    exec (.frfr h ed ea eb) s = execFrfr h ed ea eb s := rfl
@[simp] theorem exec_frfs (h : Hdr) (ed : EOp) (ea : EOp) (eb : EOp) (s : State) :
    exec (.frfs h ed ea eb) s = execFrfs h ed ea eb s := rfl
@[simp] theorem exec_fcmp (h : Hdr) (cc : FcmpCc) (pd : BitVec 4) (ea : EOp) (eb : EOp) (s : State) :
    exec (.fcmp h cc pd ea eb) s = execFcmp h cc pd ea eb s := rfl
@[simp] theorem exec_icmp (h : Hdr) (cc : CmpCc) (pd : BitVec 4) (ea : EOp) (eb : EOp) (s : State) :
    exec (.icmp h cc pd ea eb) s = execIcmp h cc pd ea eb s := rfl
@[simp] theorem exec_fcvt (h : Hdr) (dst : Fmt) (src : Fmt) (r : Rnd) (ed : EOp) (ea : EOp) (s : State) :
    exec (.fcvt h dst src r ed ea) s = execFcvt h dst src r ed ea s := rfl
@[simp] theorem exec_iop (h : Hdr) (fn : IopFn) (ed : EOp) (ea : EOp) (eb : EOp) (s : State) :
    exec (.iop h fn ed ea eb) s = execIop h fn ed ea eb s := rfl
@[simp] theorem exec_eli (h : Hdr) (ed : EOp) (imm : BitVec 18) (s : State) :
    exec (.eli h ed imm) s = execEli h ed imm s := rfl
@[simp] theorem exec_elih (h : Hdr) (ed : Fin 768) (imm : BitVec 14) (s : State) :
    exec (.elih h ed imm) s = execElih h ed imm s := rfl
@[simp] theorem exec_emov (h : Hdr) (ed : EOp) (ea : EOp) (s : State) :
    exec (.emov h ed ea) s = execEmov h ed ea s := rfl
@[simp] theorem exec_esel (h : Hdr) (ed : EOp) (ea : EOp) (eb : EOp) (s : State) :
    exec (.esel h ed ea eb) s = execEsel h ed ea eb s := rfl
@[simp] theorem exec_rot (h : Hdr) (imm : BitVec 18) (s : State) :
    exec (.rot h imm) s = execRot h imm s := rfl
@[simp] theorem exec_lbr (h : Hdr) (n : BitVec 3) (off : BitVec 18) (s : State) :
    exec (.lbr h n off) s = execLbr h n off s := rfl
@[simp] theorem exec_eld (h : Hdr) (ed : EOp) (base : Option (Fin 768)) (off : BitVec 18) (s : State) :
    exec (.eld h ed base off) s = execEld h ed base off s := rfl
@[simp] theorem exec_est (h : Hdr) (data : Fin 768) (base : Option (Fin 768)) (off : BitVec 18) (s : State) :
    exec (.est h data base off) s = execEst h data base off s := rfl
@[simp] theorem exec_vop (h : Hdr) (fn : VecOp) (r : Rnd) (wd : BitVec 5) (wa : BitVec 5) (wb : BitVec 5) (s : State) :
    exec (.vop h fn r wd wa wb) s = execVop h fn r wd wa wb s := rfl
@[simp] theorem exec_vfma (h : Hdr) (neg : Bool) (sc : Option EOp) (r : Rnd) (wd : BitVec 5) (wa : BitVec 5) (wb : BitVec 5) (s : State) :
    exec (.vfma h neg sc r wd wa wb) s = execVfma h neg sc r wd wa wb s := rfl
@[simp] theorem exec_vsc (h : Hdr) (fn : VecOp) (r : Rnd) (wd : BitVec 5) (wa : BitVec 5) (ea : EOp) (s : State) :
    exec (.vsc h fn r wd wa ea) s = execVsc h fn r wd wa ea s := rfl
@[simp] theorem exec_vun (h : Hdr) (fn : VunFn) (r : Rnd) (wd : BitVec 5) (wa : BitVec 5) (s : State) :
    exec (.vun h fn r wd wa) s = execVun h fn r wd wa s := rfl
@[simp] theorem exec_vcvt (h : Hdr) (r : Rnd) (wd : BitVec 5) (wa : BitVec 5) (s : State) :
    exec (.vcvt h r wd wa) s = execVcvt h r wd wa s := rfl
@[simp] theorem exec_vred (h : Hdr) (fn : VredFn) (idx : Bool) (wa : BitVec 5) (ea : Fin 768) (s : State) :
    exec (.vred h fn idx wa ea) s = execVred h fn idx wa ea s := rfl
@[simp] theorem exec_vscan (h : Hdr) (exc : Bool) (r : Rnd) (wd : BitVec 5) (wa : BitVec 5) (s : State) :
    exec (.vscan h exc r wd wa) s = execVscan h exc r wd wa s := rfl
@[simp] theorem exec_vcmp (h : Hdr) (cc : VcmpCc) (sc : Option EOp) (wd : BitVec 5) (wa : BitVec 5) (wb : BitVec 5) (s : State) :
    exec (.vcmp h cc sc wd wa wb) s = execVcmp h cc sc wd wa wb s := rfl
@[simp] theorem exec_vsel (h : Hdr) (wd : BitVec 5) (wa : BitVec 5) (wb : BitVec 5) (wm : BitVec 5) (s : State) :
    exec (.vsel h wd wa wb wm) s = execVsel h wd wa wb wm s := rfl
@[simp] theorem exec_vcpr (h : Hdr) (wd : BitVec 5) (wa : BitVec 5) (wm : BitVec 5) (ea : Fin 768) (s : State) :
    exec (.vcpr h wd wa wm ea) s = execVcpr h wd wa wm ea s := rfl
@[simp] theorem exec_vxpd (h : Hdr) (wd : BitVec 5) (wa : BitVec 5) (wm : BitVec 5) (ea : Fin 768) (s : State) :
    exec (.vxpd h wd wa wm ea) s = execVxpd h wd wa wm ea s := rfl
@[simp] theorem exec_vgat (h : Hdr) (z : Bool) (wd : BitVec 5) (wa : BitVec 5) (wb : BitVec 5) (s : State) :
    exec (.vgat h z wd wa wb) s = execVgat h z wd wa wb s := rfl
@[simp] theorem exec_vsct (h : Hdr) (drop : Bool) (wd : BitVec 5) (wa : BitVec 5) (wb : BitVec 5) (s : State) :
    exec (.vsct h drop wd wa wb) s = execVsct h drop wd wa wb s := rfl
@[simp] theorem exec_vsca (h : Hdr) (drop : Bool) (wd : BitVec 5) (wa : BitVec 5) (wb : BitVec 5) (s : State) :
    exec (.vsca h drop wd wa wb) s = execVsca h drop wd wa wb s := rfl
@[simp] theorem exec_vfill (h : Hdr) (r : Rnd) (wd : BitVec 5) (ea : EOp) (s : State) :
    exec (.vfill h r wd ea) s = execVfill h r wd ea s := rfl
@[simp] theorem exec_vrnd (h : Hdr) (unif : Bool) (wd : BitVec 5) (s : State) :
    exec (.vrnd h unif wd) s = execVrnd h unif wd s := rfl
@[simp] theorem exec_vhad (h : Hdr) (inv : Bool) (k : BitVec 4) (wd : BitVec 5) (wa : BitVec 5) (ea : Fin 768) (s : State) :
    exec (.vhad h inv k wd wa ea) s = execVhad h inv k wd wa ea s := rfl
@[simp] theorem exec_vqnt (h : Hdr) (mode : RMode) (wd : BitVec 5) (wa : BitVec 5) (wb : BitVec 5) (s : State) :
    exec (.vqnt h mode wd wa wb) s = execVqnt h mode wd wa wb s := rfl
@[simp] theorem exec_vdqt (h : Hdr) (r : Rnd) (wd : BitVec 5) (wa : BitVec 5) (wb : BitVec 5) (s : State) :
    exec (.vdqt h r wd wa wb) s = execVdqt h r wd wa wb s := rfl
@[simp] theorem exec_vtopk (h : Hdr) (wd : BitVec 5) (wa : BitVec 5) (wb : BitVec 5) (ea : Fin 768) (s : State) :
    exec (.vtopk h wd wa wb ea) s = execVtopk h wd wa wb ea s := rfl
@[simp] theorem exec_vsamp (h : Hdr) (res : Bool) (wa : BitVec 5) (wb : BitVec 5) (ea : Fin 768) (s : State) :
    exec (.vsamp h res wa wb ea) s = execVsamp h res wa wb ea s := rfl
@[simp] theorem exec_vsoft (h : Hdr) (wd : BitVec 5) (wa : BitVec 5) (s : State) :
    exec (.vsoft h wd wa) s = execVsoft h wd wa s := rfl
@[simp] theorem exec_wset (h : Hdr) (fn : WsetFn) (wd : BitVec 5) (ea : EOp) (s : State) :
    exec (.wset h fn wd ea) s = execWset h fn wd ea s := rfl
@[simp] theorem exec_wget (h : Hdr) (rowf : Bool) (wa : BitVec 5) (ea : Fin 768) (s : State) :
    exec (.wget h rowf wa ea) s = execWget h rowf wa ea s := rfl
@[simp] theorem exec_vbit (h : Hdr) (fn : VbitFn) (valid : Bool) (drop : Bool) (wd : BitVec 5) (wa : BitVec 5) (wb : BitVec 5) (ea : Fin 768) (s : State) :
    exec (.vbit h fn valid drop wd wa wb ea) s = execVbit h fn valid drop wd wa wb ea s := rfl
@[simp] theorem exec_vmov (h : Hdr) (wd : BitVec 5) (wa : BitVec 5) (s : State) :
    exec (.vmov h wd wa) s = execVmov h wd wa s := rfl
@[simp] theorem exec_mtw (h : Hdr) (lvl : Fin 6) (a : BitVec 6) (role : Role) (s : State) :
    exec (.mtw h lvl a role) s = execMtw h lvl a role s := rfl
@[simp] theorem exec_mtr (h : Hdr) (role : Bool) (d : BitVec 6) (lvl : Fin 6) (s : State) :
    exec (.mtr h role d lvl) s = execMtr h role d lvl s := rfl
@[simp] theorem exec_mcfg (h : Hdr) (mode : Fusion) (r : Rnd) (s : State) :
    exec (.mcfg h mode r) s = execMcfg h mode r s := rfl
@[simp] theorem exec_mfmt (h : Hdr) (a : BitVec 6) (s : State) :
    exec (.mfmt h a) s = execMfmt h a s := rfl
@[simp] theorem exec_mgo (h : Hdr) (a : BitVec 6) (ev : Bool) (tag : BitVec 11) (s : State) :
    exec (.mgo h a ev tag) s = execMgo h a ev tag s := rfl
@[simp] theorem exec_mtile (h : Hdr) (a : BitVec 6) (ev : Bool) (tag : BitVec 11) (s : State) :
    exec (.mtile h a ev tag) s = execMtile h a ev tag s := rfl
@[simp] theorem exec_mwait (h : Hdr) (s : State) :
    exec (.mwait h) s = execMwait h s := rfl
@[simp] theorem exec_mzero (h : Hdr) (a : BitVec 6) (s : State) :
    exec (.mzero h a) s = execMzero h a s := rfl
@[simp] theorem exec_mdrain (h : Hdr) (f : BitVec 4) (a : BitVec 6) (ev : Bool) (tag : BitVec 11) (s : State) :
    exec (.mdrain h f a ev tag) s = execMdrain h f a ev tag s := rfl
@[simp] theorem exec_mtsm (h : Hdr) (s : State) :
    exec (.mtsm h) s = execMtsm h s := rfl
@[simp] theorem exec_fset (h : Hdr) (f : BitVec 4) (a : BitVec 6) (s : State) :
    exec (.fset h f a) s = execFset h f a s := rfl
@[simp] theorem exec_fget (h : Hdr) (state : Bool) (d : BitVec 6) (f : BitVec 4) (s : State) :
    exec (.fget h state d f) s = execFget h state d f s := rfl
@[simp] theorem exec_fdrop (h : Hdr) (f : BitVec 4) (a : BitVec 6) (s : State) :
    exec (.fdrop h f a) s = execFdrop h f a s := rfl
@[simp] theorem exec_hgen (h : Hdr) (wa : BitVec 5) (ws : BitVec 5) (s : State) :
    exec (.hgen h wa ws) s = execHgen h wa ws s := rfl
@[simp] theorem exec_hgenRel (h : Hdr) (wa : BitVec 5) (s : State) :
    exec (.hgenRel h wa) s = execHgenRel h wa s := rfl
@[simp] theorem exec_hchk (h : Hdr) (ro : Bool) (t : HTarget) (ea : Option (Fin 768)) (s : State) :
    exec (.hchk h ro t ea) s = execHchk h ro t ea s := rfl
@[simp] theorem exec_hfix (h : Hdr) (corr : Bool) (t : HTarget) (ea : Fin 768) (s : State) :
    exec (.hfix h corr t ea) s = execHfix h corr t ea s := rfl
@[simp] theorem exec_hupd (h : Hdr) (wd : BitVec 5) (wa : BitVec 5) (s : State) :
    exec (.hupd h wd wa) s = execHupd h wd wa s := rfl
@[simp] theorem exec_hrd (h : Hdr) (t : HTarget) (ea : Fin 768) (s : State) :
    exec (.hrd h t ea) s = execHrd h t ea s := rfl
@[simp] theorem exec_htol (h : Hdr) (ea : EOp) (s : State) :
    exec (.htol h ea) s = execHtol h ea s := rfl
@[simp] theorem exec_mccfg (h : Hdr) (d : BitVec 6) (a : BitVec 6) (f : BitVec 6) (s : State) :
    exec (.mccfg h d a f) s = execMccfg h d a f s := rfl
@[simp] theorem exec_mccfgRst (h : Hdr) (s : State) :
    exec (.mccfgRst h) s = execMccfgRst h s := rfl
@[simp] theorem exec_mcld (h : Hdr) (a : BitVec 6) (f : BitVec 6) (ev : Bool) (tag : BitVec 11) (s : State) :
    exec (.mcld h a f ev tag) s = execMcld h a f ev tag s := rfl
@[simp] theorem exec_mcldL (h : Hdr) (a : BitVec 6) (ev : Bool) (tag : BitVec 11) (s : State) :
    exec (.mcldL h a ev tag) s = execMcldL h a ev tag s := rfl
@[simp] theorem exec_mcldR (h : Hdr) (a : BitVec 6) (f : BitVec 6) (ev : Bool) (tag : BitVec 11) (s : State) :
    exec (.mcldR h a f ev tag) s = execMcldR h a f ev tag s := rfl
@[simp] theorem exec_mcst (h : Hdr) (glob : Bool) (a : BitVec 6) (f : BitVec 6) (ev : Bool) (tag : BitVec 11) (s : State) :
    exec (.mcst h glob a f ev tag) s = execMcst h glob a f ev tag s := rfl
@[simp] theorem exec_mccmp (h : Hdr) (a : BitVec 6) (ev : Bool) (tag : BitVec 11) (s : State) :
    exec (.mccmp h a ev tag) s = execMccmp h a ev tag s := rfl
@[simp] theorem exec_mctree (h : Hdr) (a : BitVec 6) (ev : Bool) (tag : BitVec 11) (s : State) :
    exec (.mctree h a ev tag) s = execMctree h a ev tag s := rfl
@[simp] theorem exec_mcapp (h : Hdr) (d : BitVec 6) (a : BitVec 6) (f : BitVec 6) (s : State) :
    exec (.mcapp h d a f) s = execMcapp h d a f s := rfl
@[simp] theorem exec_mcappT (h : Hdr) (d : BitVec 6) (a : BitVec 6) (f : BitVec 6) (s : State) :
    exec (.mcappT h d a f) s = execMcappT h d a f s := rfl
@[simp] theorem exec_mcmsk (h : Hdr) (a : BitVec 6) (f : BitVec 6) (ev : Bool) (tag : BitVec 11) (s : State) :
    exec (.mcmsk h a f ev tag) s = execMcmsk h a f ev tag s := rfl
@[simp] theorem exec_mcchk (h : Hdr) (fn : McchkFn) (pd : BitVec 4) (a : BitVec 6) (s : State) :
    exec (.mcchk h fn pd a) s = execMcchk h fn pd a s := rfl
@[simp] theorem exec_thopen (h : Hdr) (b : BitVec 2) (a : BitVec 6) (s : State) :
    exec (.thopen h b a) s = execThopen h b a s := rfl
@[simp] theorem exec_thclose (h : Hdr) (b : BitVec 2) (s : State) :
    exec (.thclose h b) s = execThclose h b s := rfl
@[simp] theorem exec_thabort (h : Hdr) (b : BitVec 2) (s : State) :
    exec (.thabort h b) s = execThabort h b s := rfl
@[simp] theorem exec_thbind (h : Hdr) (b : BitVec 2) (f : BitVec 4) (s : State) :
    exec (.thbind h b f) s = execThbind h b f s := rfl
@[simp] theorem exec_thbindR (h : Hdr) (b : BitVec 2) (a : BitVec 6) (s : State) :
    exec (.thbindR h b a) s = execThbindR h b a s := rfl
@[simp] theorem exec_thrd (h : Hdr) (fn : ThrdFn) (d : BitVec 6) (a : BitVec 6) (s : State) :
    exec (.thrd h fn d a) s = execThrd h fn d a s := rfl
@[simp] theorem exec_thstm (h : Hdr) (d : BitVec 6) (a : BitVec 6) (f : BitVec 6) (s : State) :
    exec (.thstm h d a f) s = execThstm h d a f s := rfl
@[simp] theorem exec_cpy (h : Hdr) (a : BitVec 6) (ev : Bool) (tag : BitVec 11) (s : State) :
    exec (.cpy h a ev tag) s = execCpy h a ev tag s := rfl
@[simp] theorem exec_cpy2 (h : Hdr) (a : BitVec 6) (ev : Bool) (tag : BitVec 11) (s : State) :
    exec (.cpy2 h a ev tag) s = execCpy2 h a ev tag s := rfl
@[simp] theorem exec_cpres (h : Hdr) (s : State) :
    exec (.cpres h) s = execCpres h s := rfl
@[simp] theorem exec_cpresDrop (h : Hdr) (s : State) :
    exec (.cpresDrop h) s = execCpresDrop h s := rfl
@[simp] theorem exec_cpwait (h : Hdr) (s : State) :
    exec (.cpwait h) s = execCpwait h s := rfl
@[simp] theorem exec_fxs (h : Hdr) (a : BitVec 6) (ev : Bool) (tag : BitVec 11) (s : State) :
    exec (.fxs h a ev tag) s = execFxs h a ev tag s := rfl
@[simp] theorem exec_fxr (h : Hdr) (a : BitVec 6) (ev : Bool) (tag : BitVec 11) (s : State) :
    exec (.fxr h a ev tag) s = execFxr h a ev tag s := rfl
@[simp] theorem exec_fxred (h : Hdr) (a : BitVec 6) (ev : Bool) (tag : BitVec 11) (s : State) :
    exec (.fxred h a ev tag) s = execFxred h a ev tag s := rfl
@[simp] theorem exec_fxwait (h : Hdr) (s : State) :
    exec (.fxwait h) s = execFxwait h s := rfl
@[simp] theorem exec_tsat (h : Hdr) (a : BitVec 6) (s : State) :
    exec (.tsat h a) s = execTsat h a s := rfl
@[simp] theorem exec_tsatWait (h : Hdr) (a : BitVec 6) (s : State) :
    exec (.tsatWait h a) s = execTsatWait h a s := rfl
@[simp] theorem exec_hshInit (h : Hdr) (n : BitVec 2) (s : State) :
    exec (.hshInit h n) s = execHshInit h n s := rfl
@[simp] theorem exec_hsh (h : Hdr) (n : BitVec 2) (a : BitVec 6) (s : State) :
    exec (.hsh h n a) s = execHsh h n a s := rfl
@[simp] theorem exec_hfin (h : Hdr) (n : BitVec 2) (d : BitVec 6) (a : BitVec 6) (len : BitVec 7) (s : State) :
    exec (.hfin h n d a len) s = execHfin h n d a len s := rfl
@[simp] theorem exec_sgn (h : Hdr) (a : BitVec 6) (s : State) :
    exec (.sgn h a) s = execSgn h a s := rfl
@[simp] theorem exec_vfy (h : Hdr) (d : BitVec 6) (a : BitVec 6) (s : State) :
    exec (.vfy h d a) s = execVfy h d a s := rfl
@[simp] theorem exec_mext (h : Hdr) (m : BitVec 3) (a : BitVec 6) (s : State) :
    exec (.mext h m a) s = execMext h m a s := rfl
@[simp] theorem exec_mextRd (h : Hdr) (m : BitVec 3) (a : BitVec 6) (s : State) :
    exec (.mextRd h m a) s = execMextRd h m a s := rfl
@[simp] theorem exec_kunw (h : Hdr) (d : BitVec 6) (slot : BitVec 6) (a : BitVec 6) (s : State) :
    exec (.kunw h d slot a) s = execKunw h d slot a s := rfl
@[simp] theorem exec_pxlk (h : Hdr) (d : BitVec 6) (a : BitVec 6) (s : State) :
    exec (.pxlk h d a) s = execPxlk h d a s := rfl
@[simp] theorem exec_pxlkAcq (h : Hdr) (d : BitVec 6) (a : BitVec 6) (s : State) :
    exec (.pxlkAcq h d a) s = execPxlkAcq h d a s := rfl
@[simp] theorem exec_pxins (h : Hdr) (d : BitVec 6) (a : BitVec 6) (s : State) :
    exec (.pxins h d a) s = execPxins h d a s := rfl
@[simp] theorem exec_pxrefAdd (h : Hdr) (d : BitVec 6) (a : BitVec 6) (s : State) :
    exec (.pxrefAdd h d a) s = execPxrefAdd h d a s := rfl
@[simp] theorem exec_pxrefDrop (h : Hdr) (d : BitVec 6) (a : BitVec 6) (s : State) :
    exec (.pxrefDrop h d a) s = execPxrefDrop h d a s := rfl
@[simp] theorem exec_pxevc (h : Hdr) (d : BitVec 6) (a : BitVec 6) (s : State) :
    exec (.pxevc h d a) s = execPxevc h d a s := rfl
@[simp] theorem exec_kvpgAlloc (h : Hdr) (d : BitVec 6) (a : BitVec 6) (s : State) :
    exec (.kvpgAlloc h d a) s = execKvpgAlloc h d a s := rfl
@[simp] theorem exec_kvpgFree (h : Hdr) (d : BitVec 6) (a : BitVec 6) (s : State) :
    exec (.kvpgFree h d a) s = execKvpgFree h d a s := rfl
@[simp] theorem exec_kvpgRel (h : Hdr) (d : BitVec 6) (a : BitVec 6) (s : State) :
    exec (.kvpgRel h d a) s = execKvpgRel h d a s := rfl
@[simp] theorem exec_kvpgAck (h : Hdr) (d : BitVec 6) (a : BitVec 6) (s : State) :
    exec (.kvpgAck h d a) s = execKvpgAck h d a s := rfl
@[simp] theorem exec_resultLanding (s : State) :
    exec (.resultLanding) s = execResultLanding s := rfl
@[simp] theorem exec_checkedActionConfirm (o : CheckOutcome) (s : State) :
    exec (.checkedActionConfirm o) s = execCheckedActionConfirm o s := rfl
@[simp] theorem exec_loadArrival (id : Nat) (s : State) :
    exec (.loadArrival id) s = execLoadArrival id s := rfl
@[simp] theorem exec_accessPerformed (id : Nat) (s : State) :
    exec (.accessPerformed id) s = execAccessPerformed id s := rfl
@[simp] theorem exec_slotJoin (id : Nat) (s : State) :
    exec (.slotJoin id) s = execSlotJoin id s := rfl
@[simp] theorem exec_tlbInvalidate (ctx : Nat) (vbase : Nat) (e : Option PageEntry) (s : State) :
    exec (.tlbInvalidate ctx vbase e) s = execTlbInvalidate ctx vbase e s := rfl
@[simp] theorem exec_matrixStep (s : State) :
    exec (.matrixStep) s = execMatrixStep s := rfl
@[simp] theorem exec_marker (s : State) :
    exec (.marker) s = execMarker s := rfl
@[simp] theorem exec_drain (s : State) :
    exec (.drain) s = execDrain s := rfl
@[simp] theorem exec_mceCommand (s : State) :
    exec (.mceCommand) s = execMceCommand s := rfl
@[simp] theorem exec_copyStep (s : State) :
    exec (.copyStep) s = execCopyStep s := rfl
@[simp] theorem exec_fabricMatch (send : Bool) (iv : Nat) (far : FarSide) (s : State) :
    exec (.fabricMatch send iv far) s = execFabricMatch send iv far s := rfl
@[simp] theorem exec_fabricFrame (send : Bool) (iv : Nat) (bytes : List (BitVec 8)) (s : State) :
    exec (.fabricFrame send iv bytes) s = execFabricFrame send iv bytes s := rfl
@[simp] theorem exec_fabricLinkFail (iv : Nat) (s : State) :
    exec (.fabricLinkFail iv) s = execFabricLinkFail iv s := rfl
@[simp] theorem exec_titheDecide (s : State) :
    exec (.titheDecide) s = execTitheDecide s := rfl
@[simp] theorem exec_meterStatement (s : State) :
    exec (.meterStatement) s = execMeterStatement s := rfl
@[simp] theorem exec_kvDecide (s : State) :
    exec (.kvDecide) s = execKvDecide s := rfl
@[simp] theorem exec_barrierPhaseComplete (b : BitVec 2) (s : State) :
    exec (.barrierPhaseComplete b) s = execBarrierPhaseComplete b s := rfl
@[simp] theorem exec_timerExpiry (s : State) :
    exec (.timerExpiry) s = execTimerExpiry s := rfl
@[simp] theorem exec_budgetExpiry (s : State) :
    exec (.budgetExpiry) s = execBudgetExpiry s := rfl
@[simp] theorem exec_wfeTimeout (iv : Issuer) (s : State) :
    exec (.wfeTimeout iv) s = execWfeTimeout iv s := rfl
@[simp] theorem exec_attn (v : BitVec 64) (s : State) :
    exec (.attn v) s = execAttn v s := rfl
@[simp] theorem exec_takeInterrupt (iv : Issuer) (s : State) :
    exec (.takeInterrupt iv) s = execTakeInterrupt iv s := rfl
@[simp] theorem exec_fEventTake (s : State) :
    exec (.fEventTake) s = execFEventTake s := rfl
@[simp] theorem exec_noiseReseed (ch : Fin 5) (s : State) :
    exec (.noiseReseed ch) s = execNoiseReseed ch s := rfl
@[simp] theorem exec_sluicePass (u : EgressUser) (s : State) :
    exec (.sluicePass u) s = execSluicePass u s := rfl
@[simp] theorem exec_hungDetect (s : State) :
    exec (.hungDetect) s = execHungDetect s := rfl
@[simp] theorem exec_preemptDemand (s : State) :
    exec (.preemptDemand) s = execPreemptDemand s := rfl
@[simp] theorem exec_engineSavePoint (s : State) :
    exec (.engineSavePoint) s = execEngineSavePoint s := rfl
@[simp] theorem exec_partitionSave (s : State) :
    exec (.partitionSave) s = execPartitionSave s := rfl
@[simp] theorem exec_partitionRestore (s : State) :
    exec (.partitionRestore) s = execPartitionRestore s := rfl
@[simp] theorem exec_qtailWrite (master : BitVec 24) (die : Nat) (q : Nat) (t : BitVec 64) (s : State) :
    exec (.qtailWrite master die q t) s = execQtailWrite master die q t s := rfl
@[simp] theorem exec_registerWrite (master : BitVec 24) (off : Nat) (v : BitVec 64) (s : State) :
    exec (.registerWrite master off v) s = execRegisterWrite master off v s := rfl
@[simp] theorem exec_packetCheck (die : Nat) (q : Nat) (s : State) :
    exec (.packetCheck die q) s = execPacketCheck die q s := rfl
@[simp] theorem exec_timedStart (s : State) :
    exec (.timedStart) s = execTimedStart s := rfl
@[simp] theorem exec_groupPlace (p : Placement) (s : State) :
    exec (.groupPlace p) s = execGroupPlace p s := rfl
@[simp] theorem exec_gatedAdmit (s : State) :
    exec (.gatedAdmit) s = execGatedAdmit s := rfl
@[simp] theorem exec_completionRecord (failed : Nat) (s : State) :
    exec (.completionRecord failed) s = execCompletionRecord failed s := rfl
@[simp] theorem exec_imemRepair (core : Nat) (addr : Nat) (s : State) :
    exec (.imemRepair core addr) s = execImemRepair core addr s := rfl
@[simp] theorem exec_dieHold (die : Nat) (s : State) :
    exec (.dieHold die) s = execDieHold die s := rfl
@[simp] theorem exec_schedRestart (core : Nat) (s : State) :
    exec (.schedRestart core) s = execSchedRestart core s := rfl
@[simp] theorem exec_claim (master : BitVec 24) (nonce : BitVec 32) (s : State) :
    exec (.claim master nonce) s = execClaim master nonce s := rfl
@[simp] theorem exec_beat (master : BitVec 24) (s : State) :
    exec (.beat master) s = execBeat master s := rfl
@[simp] theorem exec_release (master : BitVec 24) (s : State) :
    exec (.release master) s = execRelease master s := rfl
@[simp] theorem exec_leaseExpiry (s : State) :
    exec (.leaseExpiry) s = execLeaseExpiry s := rfl
@[simp] theorem exec_defineEnclosure (m : EnclosureMsg) (s : State) :
    exec (.defineEnclosure m) s = execDefineEnclosure m s := rfl
@[simp] theorem exec_registerModel (m : ModelMsg) (s : State) :
    exec (.registerModel m) s = execRegisterModel m s := rfl
@[simp] theorem exec_replace (model : Nat) (gen : Nat) (list : Nat) (s : State) :
    exec (.replace model gen list) s = execReplace model gen list s := rfl
@[simp] theorem exec_waveLayer (ok : Bool) (s : State) :
    exec (.waveLayer ok) s = execWaveLayer ok s := rfl
@[simp] theorem exec_firmwareStage (m : FirmwareMsg) (s : State) :
    exec (.firmwareStage m) s = execFirmwareStage m s := rfl
@[simp] theorem exec_firmwareActivate (s : State) :
    exec (.firmwareActivate) s = execFirmwareActivate s := rfl
@[simp] theorem exec_ownerKeyRegistry (n : Nat) (key : List (BitVec 8)) (s : State) :
    exec (.ownerKeyRegistry n key) s = execOwnerKeyRegistry n key s := rfl
@[simp] theorem exec_fabricRoute (dev : BitVec 16) (ports : BitVec 16) (s : State) :
    exec (.fabricRoute dev ports) s = execFabricRoute dev ports s := rfl
@[simp] theorem exec_tidelineTrim (seq : Nat) (s : State) :
    exec (.tidelineTrim seq) s = execTidelineTrim seq s := rfl
@[simp] theorem exec_tidelineSeal (s : State) :
    exec (.tidelineSeal) s = execTidelineSeal s := rfl
@[simp] theorem exec_contextCreate (ctx : Nat) (key : BitVec 64) (images : List Image) (s : State) :
    exec (.contextCreate ctx key images) s = execContextCreate ctx key images s := rfl
@[simp] theorem exec_contextDestroy (ctx : Nat) (s : State) :
    exec (.contextDestroy ctx) s = execContextDestroy ctx s := rfl
@[simp] theorem exec_extend (m : BitVec 3) (v : List (BitVec 8)) (s : State) :
    exec (.extend m v) s = execExtend m v s := rfl
@[simp] theorem exec_foreshoreSplit (die : Nat) (steps : Nat) (s : State) :
    exec (.foreshoreSplit die steps) s = execForeshoreSplit die steps s := rfl
@[simp] theorem exec_installTerms (msg : List (BitVec 8)) (s : State) :
    exec (.installTerms msg) s = execInstallTerms msg s := rfl
@[simp] theorem exec_hostWrite (tier : Tier) (pa : Nat) (bytes : List (BitVec 8)) (relaxed : Bool) (s : State) :
    exec (.hostWrite tier pa bytes relaxed) s = execHostWrite tier pa bytes relaxed s := rfl
@[simp] theorem exec_hostRead (ctx : Nat) (va : Nat) (len : Nat) (s : State) :
    exec (.hostRead ctx va len) s = execHostRead ctx va len s := rfl
@[simp] theorem exec_getVersion (s : State) :
    exec (.getVersion) s = execGetVersion s := rfl
@[simp] theorem exec_getCapabilities (s : State) :
    exec (.getCapabilities) s = execGetCapabilities s := rfl
@[simp] theorem exec_negotiateAlgorithms (s : State) :
    exec (.negotiateAlgorithms) s = execNegotiateAlgorithms s := rfl
@[simp] theorem exec_getDigests (s : State) :
    exec (.getDigests) s = execGetDigests s := rfl
@[simp] theorem exec_getCertificate (s : State) :
    exec (.getCertificate) s = execGetCertificate s := rfl
@[simp] theorem exec_challenge (s : State) :
    exec (.challenge) s = execChallenge s := rfl
@[simp] theorem exec_getMeasurements (s : State) :
    exec (.getMeasurements) s = execGetMeasurements s := rfl
@[simp] theorem exec_ptpCorrection (delta : Int) (s : State) :
    exec (.ptpCorrection delta) s = execPtpCorrection delta s := rfl
@[simp] theorem exec_powerOnBoot (s : State) :
    exec (.powerOnBoot) s = execPowerOnBoot s := rfl
@[simp] theorem exec_deviceReset (s : State) :
    exec (.deviceReset) s = execDeviceReset s := rfl
@[simp] theorem exec_powerLoss (s : State) :
    exec (.powerLoss) s = execPowerLoss s := rfl
@[simp] theorem exec_thermalTrip (s : State) :
    exec (.thermalTrip) s = execThermalTrip s := rfl
@[simp] theorem exec_clockThrottle (hot : Bool) (s : State) :
    exec (.clockThrottle hot) s = execClockThrottle hot s := rfl
@[simp] theorem exec_cxlAgentAccess (pa : Nat) (w : Option (List (BitVec 8))) (s : State) :
    exec (.cxlAgentAccess pa w) s = execCxlAgentAccess pa w s := rfl
@[simp] theorem exec_softError (t : ErrorTarget) (s : State) :
    exec (.softError t) s = execSoftError t s := rfl
@[simp] theorem exec_cryptoUnitResult (s : State) :
    exec (.cryptoUnitResult) s = execCryptoUnitResult s := rfl

end Sys2Proof.Machine
end

