-- ==== Sys2Proof/Laws/Issue.lean ====
section
/-! SUPPORT. What the issue protocol does: a word that issues and acts, and what its finish leaves as it was. -/

namespace Sys2Proof.Machine

/-! ### Contexts -/

@[simp] theorem ctxOf_setCtx_same (x : Issuer) (c : Ctx) (s : State) : ctxOf (setCtx x c s) x = c := by
  cases x <;> rfl

theorem ctxOf_setCtx_other {x y : Issuer} (h : y ≠ x) (c : Ctx) (s : State) : ctxOf (setCtx x c s) y = ctxOf s y := by
  cases x <;> cases y <;> first | rfl | exact absurd rfl h

@[simp] theorem ctxOf_modCtx_same (x : Issuer) (f : Ctx → Ctx) (s : State) : ctxOf (modCtx x f s) x = f (ctxOf s x) := by
  simp [modCtx]

theorem ctxOf_modCtx_other {x y : Issuer} (h : y ≠ x) (f : Ctx → Ctx) (s : State) :
    ctxOf (modCtx x f s) y = ctxOf s y := ctxOf_setCtx_other h _ _

@[simp] theorem rest_setCtx (x : Issuer) (c : Ctx) (s : State) : (setCtx x c s).rest x = s.rest x := by
  cases x <;> rfl
@[simp] theorem rest_modCtx (x : Issuer) (f : Ctx → Ctx) (s : State) : (modCtx x f s).rest x = s.rest x := rest_setCtx ..

theorem issuerOf_eq {s : State} {x : Issuer} (h : s.turn = .issue x) : issuerOf s = x := by simp [issuerOf, h]
theorem cur_eq {s : State} {x : Issuer} (h : s.turn = .issue x) : cur s = ctxOf s x := by simp [cur, issuerOf_eq h]

@[simp] theorem turn_setCtx (x : Issuer) (c : Ctx) (s : State) : (setCtx x c s).turn = s.turn := by cases x <;> rfl
@[simp] theorem turn_modCtx (x : Issuer) (f : Ctx → Ctx) (s : State) : (modCtx x f s).turn = s.turn := turn_setCtx ..

/-! ### Tokens -/

theorem takePops_keeps (l : List (Fifo × Nat)) (s : State) :
    (∀ x, ctxOf (takePops l s) x = ctxOf s x) ∧ (∀ x, (takePops l s).rest x = s.rest x) := by
  induction l generalizing s with
  | nil => exact ⟨fun _ => rfl, fun _ => rfl⟩
  | cons p t ih =>
    have h := ih (tokenTake p.1 p.2 s)
    refine ⟨fun x => (h.1 x).trans ?_, fun x => (h.2 x).trans ?_⟩
    · cases x <;> rfl
    · cases x <;> rfl

@[simp] theorem ctxOf_takePops (l : List (Fifo × Nat)) (s : State) (x : Issuer) : ctxOf (takePops l s) x = ctxOf s x :=
  (takePops_keeps l s).1 x
@[simp] theorem rest_takePops (l : List (Fifo × Nat)) (s : State) (x : Issuer) :
    (takePops l s).rest x = s.rest x := (takePops_keeps l s).2 x

theorem schedule_keeps (x : Issuer) (l : List (Fifo × Nat)) (due : Nat) (s0 s : State) :
    (∀ y, ctxOf (schedule x l due s0 s) y = ctxOf s y) ∧ (schedule x l due s0 s).rest x = s.rest x := by
  unfold schedule
  by_cases hk : isK x
  · simp only [hk, if_true]
    induction l generalizing s with
    | nil => exact ⟨fun _ => rfl, rfl⟩
    | cons p t ih =>
      have h := ih (enqueueAs s0 (.tokens p.1 p.2) 0 0 due s)
      refine ⟨fun y => (h.1 y).trans ?_, h.2.trans ?_⟩
      · cases y <;> rfl
      · cases x <;> first | rfl | simp [isK] at hk
  · simp only [hk, Bool.false_eq_true, if_false]
    refine ⟨fun y => by cases y <;> rfl, ?_⟩
    cases x <;> first | rfl | simp [isK] at hk

@[simp] theorem ctxOf_schedule (x : Issuer) (l : List (Fifo × Nat)) (due : Nat) (s0 s : State) (y : Issuer) :
    ctxOf (schedule x l due s0 s) y = ctxOf s y := (schedule_keeps x l due s0 s).1 y
@[simp] theorem rest_schedule (x : Issuer) (l : List (Fifo × Nat)) (due : Nat) (s0 s : State) :
    (schedule x l due s0 s).rest x = s.rest x := (schedule_keeps x l due s0 s).2

/-! ### The bookkeeping of an issue -/

theorem beginWord_keeps (x : Issuer) (s : State) :
    (ctxOf (beginWord x s) x).still = (ctxOf s x).still ∧ (beginWord x s).rest x = s.rest x := by
  unfold beginWord
  split
  · exact ⟨rfl, rfl⟩
  · cases x <;> simp only [isK, if_true, Bool.false_eq_true, if_false] <;> exact ⟨rfl, rfl⟩

theorem issued_after (x : Issuer) (pc : Pc) (s : State) : After x s (issued x pc s) pc := by
  have h := beginWord_keeps x s
  revert h
  unfold issued
  generalize beginWord x s = u
  intro h
  refine ⟨?_, Eq.trans ?_ h.1, Eq.trans ?_ h.2⟩ <;> cases x <;>
    simp only [reduceCtorEq, beq_iff_eq, if_false, if_true] <;> rfl

/-- Taking the pops changes the tokens and what the stream's accesses come after, and nothing else. -/
theorem popAll_keeps (x : Issuer) (l : List (Fifo × Nat)) (s : State) :
    (ctxOf (popAll x l s) x).still = (ctxOf s x).still ∧ (popAll x l s).rest x = s.rest x := by
  unfold popAll
  split
  · exact ⟨rfl, rfl⟩
  · refine ⟨?_, ?_⟩
    · simp [acquire, Ctx.still]
    · simp [acquire]

theorem issued_popAll_after (x : Issuer) (pc : Pc) (l : List (Fifo × Nat)) (s : State) :
    After x s (issued x pc (popAll x l s)) pc :=
  let h := issued_after x pc (popAll x l s)
  let k := popAll_keeps x l s
  ⟨h.pc, h.ctx.trans k.1, h.rest.trans k.2⟩

/-! ### The protocol -/

/-- A word that issues and acts does what its body answers. -/
theorem issueT_acts {x : Issuer} {h : Hdr} {ps ts : List (Fifo × Nat)} {reads : List Nat} {s : State}
    (hi : Issues x h ps ts reads s) (body : State → Result) :
    issueT h ps ts reads body s = .next (settle x (takes x h ts s) (pushesOf x h ps) s (body s)) := by
  have hx := issuerOf_eq hi.turn
  simp only [issueT, hx, hi.checker, hi.ready, hi.guard, hi.operands]
  have ht := hi.tokens
  have hr := hi.room
  simp only [takes, pushesOf] at ht hr
  simp [ht, hr, takes, pushesOf]

theorem issue_acts {x : Issuer} {h : Hdr} {reads : List Nat} {s : State} (hi : Acts x h reads s) (body : State → Result) :
    issue h reads body s = .next (settle x (takes x h [] s) (pushesOf x h []) s (body s)) := issueT_acts hi body

/-- A word that finishes has the effect of its body and goes on at the next word. -/
theorem settle_done_after (x : Issuer) (pops pushes : List (Fifo × Nat)) (s s' : State) (lat : Nat) :
    After x s' (settle x pops pushes s (.done s' lat)) ((ctxOf s x).pc + 8) := by
  have h := issued_popAll_after x ((ctxOf s x).pc + 8) pops s'
  refine ⟨?_, ?_, ?_⟩
  · simpa [settle] using h.pc
  · simpa [settle] using h.ctx
  · simpa [settle] using h.rest

/-- A word that transfers has the effect of its body and goes on at its target. -/
theorem settle_goto_after (x : Issuer) (pops pushes : List (Fifo × Nat)) (s s' : State) (pc : Pc) :
    After x s' (settle x pops pushes s (.goto s' pc)) pc := by
  have h := issued_popAll_after x pc pops s'
  refine ⟨?_, ?_, ?_⟩
  · simpa [settle] using h.pc
  · simpa [settle] using h.ctx
  · simpa [settle] using h.rest

theorem rest_mem {x : Issuer} {s t : State} (h : t.rest x = s.rest x) : t.mem = s.mem := by
  have := congrArg State.mem h
  cases x <;> exact this
theorem rest_spad {x : Issuer} {s t : State} (h : t.rest x = s.rest x) : t.spad = s.spad := by
  have := congrArg State.spad h
  cases x <;> exact this

/-- Nothing but the context of stream x can differ between machines with the same rest. -/
theorem keeps_of_rest {x : Issuer} {s t : State} (h : t.rest x = s.rest x) : Keeps x s t := by
  refine ⟨?_, ?_, ?_, ?_, ⟨?_, ?_⟩, ?_, ?_⟩
  · intro a; rw [rest_mem h]
  · intro a; rw [rest_spad h]
  · intro y hy
    have := congrArg (fun u => ctxOf u y) h
    cases x <;> cases y <;> first | exact this | exact absurd rfl hy
  · have := congrArg State.special h
    cases x <;> exact this
  · have := congrArg (fun u => u.task.e) h
    cases x <;> exact this
  · have := congrArg (fun u => u.task.w) h
    cases x <;> exact this
  · have := congrArg (fun u => u.task.mx.acc) h
    cases x <;> exact this
  · have := congrArg (fun u => u.task.furrows) h
    cases x <;> exact this

theorem Keeps.trans {x : Issuer} {s t u : State} (h : Keeps x s t) (g : Keeps x t u) : Keeps x s u where
  mem a := (g.mem a).trans (h.mem a)
  spad a := (g.spad a).trans (h.spad a)
  streams y hy := (g.streams y hy).trans (h.streams y hy)
  special := g.special.trans h.special
  elements := ⟨g.elements.1.trans h.elements.1, g.elements.2.trans h.elements.2⟩
  accs := g.accs.trans h.accs
  furrows := g.furrows.trans h.furrows

/-- What follows from an effect that sets one register of an intermediate state that keeps everything. -/
theorem After.wroteReg' {x : Issuer} {s s1 t : State} {d : BitVec 6} {v : Word} {lat : Nat} {pc : Pc}
    (hx : issuerOf s1 = x) (hk : Keeps x s s1) (hc1 : ctxOf s1 x = ctxOf s x) (h : After x (setReg d v lat s1) t pc) :
    WroteReg x d v pc s t := by
  have hr : t.rest x = s1.rest x := by simpa [setReg, hx] using h.rest
  have hc : (ctxOf t x).still = (ctxSetReg d v s1.now lat (ctxOf s x)).still := by
    simpa [setReg, hx, hc1] using h.ctx
  have hregs : (ctxOf t x).regs = if d = 0 then (ctxOf s x).regs else (ctxOf s x).regs.set d.toNat v := by
    have := congrArg Ctx.regs hc
    by_cases hd : d = 0#6 <;> simpa [Ctx.still, ctxSetReg, remember, rememberAll, hd] using this
  refine ⟨?_, ?_, ?_, ⟨?_, ?_⟩, ?_, hk.trans (keeps_of_rest hr), h.pc⟩
  · by_cases hd : d = 0#6
    · simp [regOf, hd]
    · simp [regOf, hd, hregs]
  · intro r hne
    by_cases hr0 : r = 0#6
    · simp [regOf, hr0]
    · by_cases hd : d = 0#6
      · simp [regOf, hr0, hregs, hd]
      · have : d.toNat ≠ r.toNat := fun e => hne (BitVec.eq_of_toNat_eq e.symm)
        simp [regOf, hr0, hregs, hd, this]
  · have := congrArg Ctx.preds hc
    by_cases hd : d = 0#6 <;> simpa [Ctx.still, ctxSetReg, remember, rememberAll, hd] using this
  · have := congrArg Ctx.lc hc
    by_cases hd : d = 0#6 <;> simpa [Ctx.still, ctxSetReg, remember, rememberAll, hd] using this
  · have := congrArg Ctx.ls hc
    by_cases hd : d = 0#6 <;> simpa [Ctx.still, ctxSetReg, remember, rememberAll, hd] using this
  · rw [hc]
    by_cases hd : d = 0#6 <;> simp [Ctx.still, ctxSetReg, remember, rememberAll, hd]

theorem Keeps.refl (x : Issuer) (s : State) : Keeps x s s := keeps_of_rest rfl

theorem After.wroteReg {x : Issuer} {s t : State} {d : BitVec 6} {v : Word} {lat : Nat} {pc : Pc}
    (hx : issuerOf s = x) (h : After x (setReg d v lat s) t pc) : WroteReg x d v pc s t :=
  After.wroteReg' hx (Keeps.refl x s) rfl h

theorem bitTo_get (b : BitVec 16) (n m : Nat) (v : Bool) (hn : n < 16) :
    (bitTo b n v).getLsbD m = if m = n then v else b.getLsbD m := by
  unfold bitTo
  by_cases hm : m < 16
  · by_cases e : m = n
    · subst e; cases v <;> simp [hm]
    · cases v
      · by_cases hlt : m < n
        · simp [hm, e, hlt]
        · have : m - n ≠ 0 := by omega
          simp [hm, e, hlt, this]
      · by_cases hlt : m < n
        · simp [hm, e, hlt]
        · have : m - n ≠ 0 := by omega
          simp [hm, e, hlt, this]
  · have : m ≠ n := by omega
    cases v <;> simp [this, BitVec.getLsbD_of_ge _ _ (Nat.le_of_not_lt hm)]

/-- What follows from an effect that sets one predicate. -/
theorem After.wrotePred {x : Issuer} {s t : State} {p : BitVec 4} {v : Bool} {pc : Pc}
    (hx : issuerOf s = x) (h : After x (setPred p v s) t pc) : WrotePred x p v pc s t := by
  have hr : t.rest x = s.rest x := by simpa [setPred, hx] using h.rest
  have hc : (ctxOf t x).still = (ctxSetPred p v (ctxOf s x)).still := by simpa [setPred, hx] using h.ctx
  have hp : (ctxOf t x).preds = if p = 0 then (ctxOf s x).preds else bitTo (ctxOf s x).preds p.toNat v := by
    have := congrArg Ctx.preds hc
    by_cases hd : p = 0#4 <;> simpa [Ctx.still, ctxSetPred, remember, rememberAll, hd] using this
  have hlt : p.toNat < 16 := p.isLt
  refine ⟨?_, ?_, ?_, keeps_of_rest hr, h.pc⟩
  · by_cases hd : p = 0#4
    · simp [ctxPred, hd]
    · simp [ctxPred, hd, hp, bitTo_get _ _ _ _ hlt]
  · intro q hne
    by_cases hd : p = 0#4
    · simp [ctxPred, hp, hd]
    · have : q.toNat ≠ p.toNat := fun e => hne (BitVec.eq_of_toNat_eq e)
      simp [ctxPred, hp, hd, bitTo_get _ _ _ _ hlt, this]
  · rw [hc]
    by_cases hd : p = 0#4 <;> simp [Ctx.still, ctxSetPred, remember, rememberAll, hd]

/-- The register words: a body that writes one register and finishes. -/
theorem writeReg_answers {x : Issuer} {h : Hdr} {reads : List Nat} {s : State} {body : State → Result} {d : BitVec 6}
    {v : Word} {lat : Nat} (hi : Acts x h reads s) (hb : body s = writeReg d v lat s) :
    ∃ t, issue h reads body s = .next t ∧ WroteReg x d v (nextPc x s) s t :=
  ⟨_, issue_acts hi body, by
    rw [hb]; exact (settle_done_after ..).wroteReg (issuerOf_eq hi.turn)⟩

theorem done_answers {x : Issuer} {h : Hdr} {reads : List Nat} {s s' : State} {body : State → Result}
    {lat : Nat} (hi : Acts x h reads s) (hb : body s = .done s' lat) :
    ∃ t, issue h reads body s = .next t ∧ After x s' t (nextPc x s) :=
  ⟨_, issue_acts hi body, by rw [hb]; exact settle_done_after ..⟩

theorem goto_answers {x : Issuer} {h : Hdr} {reads : List Nat} {s s' : State} {body : State → Result}
    {pc : Pc} (hi : Acts x h reads s) (hb : body s = .goto s' pc) :
    ∃ t, issue h reads body s = .next t ∧ After x s' t pc :=
  ⟨_, issue_acts hi body, by rw [hb]; exact settle_goto_after ..⟩

theorem getReg_eq {x : Issuer} {s : State} (h : s.turn = .issue x) (n : BitVec 6) : getReg s n = regOf x s n := by
  simp [getReg, regOf, cur_eq h]

theorem Unchanged.of_after {x : Issuer} {s e t : State} {pc : Pc} (h : After x e t pc) (hk : Keeps x s e)
    (hc : (ctxOf e x).still = (ctxOf s x).still) : Unchanged x pc s t :=
  ⟨h.ctx.trans hc, hk.trans (keeps_of_rest h.rest), h.pc⟩

/-! ### The compare queue -/

@[simp] theorem checkq_takePops (l : List (Fifo × Nat)) (s : State) : (takePops l s).checkq = s.checkq := by
  induction l generalizing s with
  | nil => rfl
  | cons p t ih => exact (ih (tokenTake p.1 p.2 s)).trans rfl

@[simp] theorem checkq_setCtx (x : Issuer) (c : Ctx) (s : State) : (setCtx x c s).checkq = s.checkq := by cases x <;> rfl
@[simp] theorem checkq_modCtx (x : Issuer) (f : Ctx → Ctx) (s : State) : (modCtx x f s).checkq = s.checkq :=
  checkq_setCtx ..

@[simp] theorem checkq_issued (x : Issuer) (pc : Pc) (s : State) : (issued x pc s).checkq = s.checkq := by
  have h : (beginWord x s).checkq = s.checkq := by
    unfold beginWord
    split
    · rfl
    · split <;> exact checkq_modCtx ..
  unfold issued
  split <;> exact (checkq_modCtx ..).trans h

@[simp] theorem checkq_popAll (x : Issuer) (l : List (Fifo × Nat)) (s : State) : (popAll x l s).checkq = s.checkq := by
  unfold popAll
  split
  · rfl
  · simp [acquire]

theorem schedule_queues {x : Issuer} (hk : isK x = true) (l : List (Fifo × Nat)) (due : Nat) (s0 s : State) :
    ∃ cs, (schedule x l due s0 s).checkq = s.checkq ++ cs ∧ cs.map (·.act) = l.map (fun p => Action.tokens p.1 p.2) ∧
      ∀ c ∈ cs, s0.now + 4 ≤ c.due ∧ c.cycle = s0.now ∧ c.firm = isFirm s0 := by
  unfold schedule
  simp only [hk, if_true]
  induction l generalizing s with
  | nil => exact ⟨[], by simp⟩
  | cons p t ih =>
    obtain ⟨cs, h1, h2, h3⟩ := ih (enqueueAs s0 (.tokens p.1 p.2) 0 0 due s)
    refine ⟨⟨.tokens p.1 p.2, isFirm s0, s0.now, 0, 0, Nat.max due (s0.now + 4), s0.words, ctxOf s0 (issuerOf s0),
      s0.task.mx.k, s0.task.mc.kcfg, s0.task.brackets, s0.task.budget, s0.shareView⟩ :: cs, ?_, ?_, ?_⟩
    · rw [List.foldl_cons, h1]; exact List.append_assoc ..
    · simp [h2]
    · intro c hc
      rcases List.mem_cons.1 hc with rfl | hc
      · exact ⟨Nat.le_max_right _ _, rfl, rfl⟩
      · exact h3 c hc

/-- A finished word of K: its own actions, then its pushes. -/
theorem settle_done_queued {x : Issuer} {h : Hdr} {own pops : List (Fifo × Nat)} {s s' : State} {lat : Nat} {acts : List Action}
    {cs : List Checked} (ht : s.turn = .issue x) (hk : isK x = true) (hq : s'.checkq = s.checkq ++ cs)
    (ha : cs.map (·.act) = acts) (hc : ∀ c ∈ cs, s.now + 4 ≤ c.due ∧ c.cycle = s.now ∧ c.firm = (x == .kFirm)) :
    Queued x h own acts s (settle x pops (pushesOf x h own) s (.done s' lat)) := by
  obtain ⟨ds, h1, h2, h3⟩ := schedule_queues hk (pushesOf x h own) (s.now + lat) s
    (issued x ((ctxOf s x).pc + 8) (popAll x pops s'))
  have hf : isFirm s = (x == .kFirm) := by simp [isFirm, issuerOf_eq ht]
  refine ⟨cs ++ ds, ?_, ?_, ?_⟩
  · simpa [settle, hq] using h1
  · simp [ha, h2]
  · intro c hc'
    rcases List.mem_append.1 hc' with hc' | hc'
    · exact hc c hc'
    · obtain ⟨a, b, d⟩ := h3 c hc'
      exact ⟨a, b, d.trans hf⟩

/-- The entry that `enqueue` adds. -/
theorem enqueue_queues {x : Issuer} {s : State} (ht : s.turn = .issue x) (act : Action) (va : Word) (ac : BitVec 3) :
    ∃ c, (enqueue act va ac s).checkq = s.checkq ++ [c] ∧ c.act = act ∧
      (s.now + 4 ≤ c.due ∧ c.cycle = s.now ∧ c.firm = (x == .kFirm)) :=
  ⟨_, rfl, rfl, Nat.le_max_right _ _, rfl, by simp [isFirm, issuerOf_eq ht]⟩

end Sys2Proof.Machine
end

