-- ==== Sys2Proof/Laws/Memory.lean ====
section
/-! SUPPORT. Memory: reads after writes, and that every operation keeps the canonical form. -/

namespace Sys2Proof.Machine

/-! ### The canonical form -/

theorem memAbove_mono {lo hi : Nat} (hle : lo ≤ hi) : ∀ {m : Memory}, memAbove hi m = true → memAbove lo m = true
  | [], _ => rfl
  | (a, b) :: t, h => by
    simp only [memAbove, Bool.and_eq_true, decide_eq_true_eq] at h ⊢
    exact ⟨⟨Nat.le_trans hle h.1.1, h.1.2⟩, h.2⟩

theorem memAbove_memSet {x : Nat} (v : Byte) : ∀ {lo : Nat} {m : Memory}, lo ≤ x → memAbove lo m = true →
    memAbove lo (memSet m x v) = true
  | lo, [], hx, _ => by
    unfold memSet
    split
    · rfl
    · simp [memAbove, hx]; assumption
  | lo, (a, b) :: t, hx, h => by
    simp only [memAbove, Bool.and_eq_true, decide_eq_true_eq] at h
    unfold memSet
    split
    · rename_i hlt
      split
      · simp [memAbove, h.1.1, h.2]; simpa using h.1.2
      · rename_i hv
        have h2 : memAbove (x + 1) ((a, b) :: t) = true := by
          simp only [memAbove, Bool.and_eq_true, decide_eq_true_eq]
          exact ⟨⟨hlt, h.1.2⟩, h.2⟩
        simp only [memAbove, Bool.and_eq_true, decide_eq_true_eq] at h2 ⊢
        exact ⟨⟨hx, by simpa using hv⟩, h2⟩
    · split
      · split
        · exact memAbove_mono (by omega) h.2
        · rename_i hv
          simp only [memAbove, Bool.and_eq_true, decide_eq_true_eq]
          exact ⟨⟨h.1.1, by simpa using hv⟩, h.2⟩
      · simp only [memAbove, Bool.and_eq_true, decide_eq_true_eq]
        exact ⟨h.1, memAbove_memSet v (by omega) h.2⟩

/-- Writing a byte keeps the canonical form. -/
theorem memWf_memSet {m : Memory} (x : Nat) (v : Byte) (h : memWf m = true) : memWf (memSet m x v) = true :=
  memAbove_memSet v (Nat.zero_le x) h

theorem memWf_memWrite {m : Memory} (a : Nat) (bs : List Byte) (h : memWf m = true) : memWf (memWrite m a bs) = true := by
  induction bs generalizing m a with
  | nil => exact h
  | cons b t ih => exact ih _ (memWf_memSet a b h)

theorem memWf_segWrite {m : Memory} (ss : List Seg) (bs : List Byte) (h : memWf m = true) :
    memWf (segWrite m ss bs) = true := by
  induction ss generalizing m bs with
  | nil => exact h
  | cons s t ih => exact ih _ (memWf_memWrite s.pa _ h)

/-! ### Reads after writes -/

theorem memGet_below {lo x : Nat} (hx : x < lo) : ∀ {m : Memory}, memAbove lo m = true → memGet m x = 0
  | [], _ => rfl
  | (a, b) :: t, h => by
    simp only [memAbove, Bool.and_eq_true, decide_eq_true_eq] at h
    have : ¬ a = x := by omega
    have : x < a := by omega
    simp [memGet, *]

theorem memGet_memSet_same (v : Byte) (x : Nat) : ∀ {lo : Nat} {m : Memory}, memAbove lo m = true →
    memGet (memSet m x v) x = v
  | _, [], _ => by
    unfold memSet
    split
    · rename_i h; simp [memGet, h]
    · simp [memGet]
  | lo, (a, b) :: t, h => by
    simp only [memAbove, Bool.and_eq_true, decide_eq_true_eq] at h
    unfold memSet
    split
    · split
      · rename_i hlt hv
        have : ¬ a = x := by omega
        simp [memGet, this, hlt, hv]
      · simp [memGet]
    · split
      · rename_i hax
        split
        · rename_i hv
          rw [hv]; exact memGet_below (by omega) h.2
        · simp [memGet, hax]
      · rename_i h1 h2
        have : ¬ a = x := by omega
        simp only [memGet, this, if_false, h1]
        exact memGet_memSet_same v x h.2

theorem memGet_memSet_other (v : Byte) {x y : Nat} (hne : y ≠ x) : ∀ {lo : Nat} {m : Memory}, memAbove lo m = true →
    memGet (memSet m x v) y = memGet m y
  | _, [], _ => by
    unfold memSet
    split
    · rfl
    · have : ¬ x = y := fun e => hne e.symm
      simp [memGet, this]
  | lo, (a, b) :: t, h => by
    simp only [memAbove, Bool.and_eq_true, decide_eq_true_eq] at h
    have hxy : ¬ x = y := fun e => hne e.symm
    unfold memSet
    split
    · rename_i hlt
      split
      · rfl
      · by_cases hyx : y < x
        · have e1 : ¬ a = y := by omega
          have e2 : y < a := by omega
          simp [memGet, hxy, hyx, e1, e2]
        · simp [memGet, hxy, hyx]
    · split
      · rename_i hax
        have e1 : ¬ a = y := by omega
        split
        · by_cases hya : y < a
          · simp only [memGet, e1, if_false, hya, if_true]
            exact memGet_below (by omega) h.2
          · simp [memGet, e1, hya]
        · simp [memGet, e1]
      · by_cases e1 : a = y
        · simp [memGet, e1]
        · by_cases hya : y < a
          · simp [memGet, e1, hya]
          · simp only [memGet, e1, if_false, hya]
            exact memGet_memSet_other v hne h.2

/-- Reading a byte after writing one. -/
theorem memGet_memSet {m : Memory} (h : memWf m = true) (x y : Nat) (v : Byte) :
    memGet (memSet m x v) y = if y = x then v else memGet m y := by
  split
  · rename_i e; rw [e]; exact memGet_memSet_same v x h
  · rename_i e; exact memGet_memSet_other v e h

/-- Reading a byte after writing a run. -/
theorem memGet_memWrite {m : Memory} (h : memWf m = true) (a y : Nat) (bs : List Byte) :
    memGet (memWrite m a bs) y = if a ≤ y ∧ y < a + bs.length then bs.getD (y - a) 0 else memGet m y := by
  induction bs generalizing m a with
  | nil =>
    have : ¬(a ≤ y ∧ y < a + 0) := by omega
    simp only [memWrite, List.length_nil, if_neg this]
  | cons b t ih =>
    simp only [memWrite, List.length_cons]
    rw [ih (memWf_memSet a b h), memGet_memSet h]
    by_cases hya : y = a
    · subst hya
      have e1 : ¬(y + 1 ≤ y ∧ y < y + 1 + t.length) := by omega
      have e2 : y ≤ y ∧ y < y + (t.length + 1) := by omega
      simp [e1]
    · by_cases hin : a + 1 ≤ y ∧ y < a + 1 + t.length
      · have e2 : a ≤ y ∧ y < a + (t.length + 1) := by omega
        have e3 : y - a = (y - (a + 1)) + 1 := by omega
        rw [if_pos hin, if_pos e2, e3]; simp
      · have e2 : ¬(a ≤ y ∧ y < a + (t.length + 1)) := by omega
        rw [if_neg hin, if_neg e2, if_neg hya]

theorem memGet_memWrite_outside {m : Memory} (h : memWf m = true) {a y : Nat} {bs : List Byte}
    (ho : y < a ∨ a + bs.length ≤ y) : memGet (memWrite m a bs) y = memGet m y := by
  rw [memGet_memWrite h, if_neg (by omega)]

theorem memRead_length (m : Memory) (a n : Nat) : (memRead m a n).length = n := by
  induction n generalizing a with
  | zero => rfl
  | succ n ih => simp [memRead, ih]

/-- A run that lies inside one that was just written reads as what was written. -/
theorem memRead_memWrite {m : Memory} (h : memWf m = true) (a k n : Nat) (bs : List Byte) (hn : k + n ≤ bs.length) :
    memRead (memWrite m a bs) (a + k) n = (bs.drop k).take n := by
  induction n generalizing k with
  | zero => simp [memRead]
  | succ n ih =>
    have hk : k < bs.length := by omega
    simp only [memRead]
    rw [memGet_memWrite h, if_pos (by omega), show a + k + 1 = a + (k + 1) by omega, ih (k + 1) (by omega)]
    rw [show a + k - a = k by omega, List.drop_eq_getElem_cons hk]
    rw [List.take_succ_cons]
    congr 1
    simp [List.getD, hk]

theorem memRead_congr {m m' : Memory} {a n : Nat} (h : ∀ y, a ≤ y → y < a + n → memGet m y = memGet m' y) :
    memRead m a n = memRead m' a n := by
  induction n generalizing a with
  | zero => rfl
  | succ n ih =>
    simp only [memRead]
    rw [h a (by omega) (by omega), ih (fun y h1 h2 => h y (by omega) (by omega))]

theorem leBytes_length (n v : Nat) : (leBytes n v).length = n := by
  induction n generalizing v with
  | zero => rfl
  | succ n ih => simp [leBytes, ih]

theorem leVal_leBytes (n v : Nat) : leVal (leBytes n v) = v % 256 ^ n := by
  induction n generalizing v with
  | zero => simp [leBytes, leVal, Nat.mod_one]
  | succ n ih =>
    simp only [leBytes, leVal, ih, BitVec.toNat_ofNat]
    rw [show 256 ^ (n + 1) = 256 * 256 ^ n by rw [Nat.pow_succ, Nat.mul_comm], Nat.mod_mul]

end Sys2Proof.Machine
end

