-- ==== Sys2Proof/Laws/Same.lean ====
section
/-! SUPPORT. The operations that change nothing that holds a value of the program: translations, K's data cache, egress,
brackets, the guard granules, the log. -/

namespace Sys2Proof.Machine

/-- Every value of the program is the same in s and t. -/
structure Same (s t : State) : Prop where
  mem      : t.mem = s.mem
  spad     : t.spad = s.spad
  ctx      : ∀ x, ctxOf t x = ctxOf s x
  special  : t.special = s.special
  elements : t.task.e = s.task.e ∧ t.task.w = s.task.w
  accs     : t.task.mx.acc = s.task.mx.acc
  furrows  : t.task.furrows = s.task.furrows
  checkq   : t.checkq = s.checkq
  time     : t.now = s.now ∧ t.turn = s.turn

theorem Same.refl (s : State) : Same s s := ⟨rfl, rfl, fun _ => rfl, rfl, ⟨rfl, rfl⟩, rfl, rfl, rfl, ⟨rfl, rfl⟩⟩

theorem Same.trans {s t u : State} (h : Same s t) (g : Same t u) : Same s u :=
  ⟨g.mem.trans h.mem, g.spad.trans h.spad, fun x => (g.ctx x).trans (h.ctx x), g.special.trans h.special,
    ⟨g.elements.1.trans h.elements.1, g.elements.2.trans h.elements.2⟩, g.accs.trans h.accs, g.furrows.trans h.furrows,
    g.checkq.trans h.checkq, ⟨g.time.1.trans h.time.1, g.time.2.trans h.time.2⟩⟩

theorem Same.keeps {s t : State} (h : Same s t) (x : Issuer) : Keeps x s t :=
  ⟨fun a => by rw [h.mem], fun a => by rw [h.spad], fun y _ => h.ctx y, h.special, h.elements, h.accs, h.furrows⟩

theorem Same.foldl {α : Type} {f : State → α → State} (hf : ∀ s a, Same s (f s a)) (l : List α) (s : State) :
    Same s (l.foldl f s) := by
  induction l generalizing s with
  | nil => exact Same.refl s
  | cons a l ih => exact (hf s a).trans (ih _)

theorem same_tlbLoad (a : TlbAgent) (e : PageEntry) (s : State) : Same s (tlbLoad a e s) := by
  unfold tlbLoad
  dsimp only
  split
  · exact Same.refl s
  · split <;> cases a <;> exact ⟨rfl, rfl, fun x => by cases x <;> rfl, rfl, ⟨rfl, rfl⟩, rfl, rfl, rfl, ⟨rfl, rfl⟩⟩

theorem same_tlbUse (a : TlbAgent) (ps : List Piece) (s : State) : Same s (tlbUse a ps s) := by
  have h : Same s (ps.foldl (fun s p => tlbLoad a p.2.1 s) s) := Same.foldl (fun s p => same_tlbLoad a p.2.1 s) ps s
  have hl (n : Fin 5) (v : Nat) (u : State) : Same u { u with tlbLast := u.tlbLast.set n v } :=
    ⟨rfl, rfl, fun x => by cases x <;> rfl, rfl, ⟨rfl, rfl⟩, rfl, rfl, rfl, ⟨rfl, rfl⟩⟩
  unfold tlbUse
  dsimp only
  split
  · exact h
  · exact h
  · split
    · exact (h.trans (hl _ _ _)).trans (same_tlbLoad ..)
    · exact h.trans (hl _ _ _)

theorem same_cacheFill (pa : Nat) (s : State) : Same s (cacheFill pa s) := by
  unfold cacheFill
  dsimp only
  split <;> exact ⟨rfl, rfl, fun x => by cases x <;> rfl, rfl, ⟨rfl, rfl⟩, rfl, rfl, rfl, ⟨rfl, rfl⟩⟩

theorem same_flushCache (s : State) : Same s (flushCache s) :=
  ⟨rfl, rfl, fun x => by cases x <;> rfl, rfl, ⟨rfl, rfl⟩, rfl, rfl, rfl, ⟨rfl, rfl⟩⟩

theorem same_touchGuards (off phys len : Nat) (s : State) : Same s (touchGuards off phys len s) := by
  unfold touchGuards
  split
  · exact Same.refl s
  · dsimp only
    split <;> exact ⟨rfl, rfl, fun x => by cases x <;> rfl, rfl, ⟨rfl, rfl⟩, rfl, rfl, rfl, ⟨rfl, rfl⟩⟩

theorem same_egressDone (u : EgressUser) (ctx n : Nat) (s : State) : Same s (egressDone u ctx n s) :=
  ⟨rfl, rfl, fun x => by cases x <;> rfl, rfl, ⟨rfl, rfl⟩, rfl, rfl, rfl, ⟨rfl, rfl⟩⟩

theorem same_egressAsk (u : EgressUser) (ctx n : Nat) (s : State) : Same s (egressAsk u ctx n s) := by
  unfold egressAsk
  split
  · exact Same.refl s
  · exact ⟨rfl, rfl, fun x => by cases x <;> rfl, rfl, ⟨rfl, rfl⟩, rfl, rfl, rfl, ⟨rfl, rfl⟩⟩

theorem same_noteEgress (s : State) : Same s (noteEgress s) :=
  ⟨rfl, rfl, fun x => by cases x <;> rfl, rfl, ⟨rfl, rfl⟩, rfl, rfl, rfl, ⟨rfl, rfl⟩⟩

theorem same_noteLicence (d : Into) (ss : List Seg) (s : State) : Same s (noteLicence d ss s) := by
  unfold noteLicence
  split
  · split
    · exact Same.refl s
    · exact ⟨rfl, rfl, fun x => by cases x <;> rfl, rfl, ⟨rfl, rfl⟩, rfl, rfl, rfl, ⟨rfl, rfl⟩⟩
  · exact Same.refl s

theorem same_logAdd (k : LogKind) (data : List Nat) (s : State) : Same s (logAdd k data s) := by
  unfold logAdd logFrom
  exact ⟨rfl, rfl, fun x => by cases x <;> rfl, rfl, ⟨rfl, rfl⟩, rfl, rfl, rfl, ⟨rfl, rfl⟩⟩

/-- A word of K whose body changes no value of the program and puts actions into the compare queue. -/
theorem queued_answers {x : Issuer} {h : Hdr} {reads : List Nat} {s s1 s' : State} {body : State → Result} {lat : Nat}
    {acts : List Action} {cs : List Checked} (hi : Acts x h reads s) (hk : isK x = true) (hb : body s = .done s' lat)
    (hs : Same s1 s') (h1 : ∀ y, ctxOf s1 y = ctxOf s y) (hk1 : Keeps x s s1) (hq : s1.checkq = s.checkq ++ cs)
    (ha : cs.map (·.act) = acts)
    (hc : ∀ c ∈ cs, s.now + 4 ≤ c.due ∧ c.cycle = s.now ∧ c.firm = (x == .kFirm)) :
    ∃ t, issue h reads body s = .next t ∧ Unchanged x (nextPc x s) s t ∧ Queued x h [] acts s t := by
  refine ⟨_, issue_acts hi body, ?_, ?_⟩
  · rw [hb]
    exact Unchanged.of_after (settle_done_after ..) (hk1.trans (hs.keeps x)) (by rw [hs.ctx, h1])
  · rw [hb]
    exact settle_done_queued hi.turn hk (hs.checkq.trans hq) ha hc

end Sys2Proof.Machine
end

