-- ==== Sys2Proof/Laws/State.lean ====
section
/-! SUPPORT. What the plain updates of the state leave: each field that an update writes, and the fields that it keeps. -/

namespace Sys2Proof.Machine

@[simp] theorem setQ_queues (q : Fin 20) (l : List QSlot) (s : State) : (setQ q l s).task.queues = s.task.queues.set q l := rfl
@[simp] theorem setQ_mem_keeps (q : Fin 20) (l : List QSlot) (s : State) : (setQ q l s).mem = s.mem := rfl
@[simp] theorem setQ_spad_keeps (q : Fin 20) (l : List QSlot) (s : State) : (setQ q l s).spad = s.spad := rfl
@[simp] theorem setQ_firm_keeps (q : Fin 20) (l : List QSlot) (s : State) : (setQ q l s).firm = s.firm := rfl
@[simp] theorem setQ_turn_keeps (q : Fin 20) (l : List QSlot) (s : State) : (setQ q l s).turn = s.turn := rfl
@[simp] theorem setQ_now_keeps (q : Fin 20) (l : List QSlot) (s : State) : (setQ q l s).now = s.now := rfl
@[simp] theorem setQ_checkq_keeps (q : Fin 20) (l : List QSlot) (s : State) : (setQ q l s).checkq = s.checkq := rfl
@[simp] theorem setQ_side_keeps (q : Fin 20) (l : List QSlot) (s : State) : (setQ q l s).side = s.side := rfl
@[simp] theorem setQ_spadBad_keeps (q : Fin 20) (l : List QSlot) (s : State) : (setQ q l s).spadBad = s.spadBad := rfl
@[simp] theorem setQ_memBad_keeps (q : Fin 20) (l : List QSlot) (s : State) : (setQ q l s).memBad = s.memBad := rfl
@[simp] theorem setQ_task_e_keeps (q : Fin 20) (l : List QSlot) (s : State) : (setQ q l s).task.e = s.task.e := rfl
@[simp] theorem setQ_task_w_keeps (q : Fin 20) (l : List QSlot) (s : State) : (setQ q l s).task.w = s.task.w := rfl
@[simp] theorem setQ_task_tokens_keeps (q : Fin 20) (l : List QSlot) (s : State) : (setQ q l s).task.tokens = s.task.tokens := rfl
@[simp] theorem setQ_task_furrows_keeps (q : Fin 20) (l : List QSlot) (s : State) : (setQ q l s).task.furrows = s.task.furrows := rfl
@[simp] theorem setQ_task_mx_keeps (q : Fin 20) (l : List QSlot) (s : State) : (setQ q l s).task.mx = s.task.mx := rfl
@[simp] theorem setQ_task_mc_keeps (q : Fin 20) (l : List QSlot) (s : State) : (setQ q l s).task.mc = s.task.mc := rfl
@[simp] theorem setQ_task_cp_keeps (q : Fin 20) (l : List QSlot) (s : State) : (setQ q l s).task.cp = s.task.cp := rfl
@[simp] theorem setQ_task_fx_keeps (q : Fin 20) (l : List QSlot) (s : State) : (setQ q l s).task.fx = s.task.fx := rfl
@[simp] theorem setQ_task_brackets_keeps (q : Fin 20) (l : List QSlot) (s : State) : (setQ q l s).task.brackets = s.task.brackets := rfl
@[simp] theorem setQ_task_k_keeps (q : Fin 20) (l : List QSlot) (s : State) : (setQ q l s).task.k = s.task.k := rfl
@[simp] theorem setQ_task_l_keeps (q : Fin 20) (l : List QSlot) (s : State) : (setQ q l s).task.l = s.task.l := rfl
@[simp] theorem setQ_task_c_keeps (q : Fin 20) (l : List QSlot) (s : State) : (setQ q l s).task.c = s.task.c := rfl
@[simp] theorem setQ_task_s_keeps (q : Fin 20) (l : List QSlot) (s : State) : (setQ q l s).task.s = s.task.s := rfl

@[simp] theorem setFur_furrows (f : Fin 16) (v : Furrow) (s : State) : (setFur f v s).task.furrows = s.task.furrows.set f v := rfl
@[simp] theorem setFur_mem_keeps (f : Fin 16) (v : Furrow) (s : State) : (setFur f v s).mem = s.mem := rfl
@[simp] theorem setFur_spad_keeps (f : Fin 16) (v : Furrow) (s : State) : (setFur f v s).spad = s.spad := rfl
@[simp] theorem setFur_firm_keeps (f : Fin 16) (v : Furrow) (s : State) : (setFur f v s).firm = s.firm := rfl
@[simp] theorem setFur_turn_keeps (f : Fin 16) (v : Furrow) (s : State) : (setFur f v s).turn = s.turn := rfl
@[simp] theorem setFur_now_keeps (f : Fin 16) (v : Furrow) (s : State) : (setFur f v s).now = s.now := rfl
@[simp] theorem setFur_checkq_keeps (f : Fin 16) (v : Furrow) (s : State) : (setFur f v s).checkq = s.checkq := rfl
@[simp] theorem setFur_side_keeps (f : Fin 16) (v : Furrow) (s : State) : (setFur f v s).side = s.side := rfl
@[simp] theorem setFur_spadBad_keeps (f : Fin 16) (v : Furrow) (s : State) : (setFur f v s).spadBad = s.spadBad := rfl
@[simp] theorem setFur_memBad_keeps (f : Fin 16) (v : Furrow) (s : State) : (setFur f v s).memBad = s.memBad := rfl
@[simp] theorem setFur_task_e_keeps (f : Fin 16) (v : Furrow) (s : State) : (setFur f v s).task.e = s.task.e := rfl
@[simp] theorem setFur_task_w_keeps (f : Fin 16) (v : Furrow) (s : State) : (setFur f v s).task.w = s.task.w := rfl
@[simp] theorem setFur_task_queues_keeps (f : Fin 16) (v : Furrow) (s : State) : (setFur f v s).task.queues = s.task.queues := rfl
@[simp] theorem setFur_task_tokens_keeps (f : Fin 16) (v : Furrow) (s : State) : (setFur f v s).task.tokens = s.task.tokens := rfl
@[simp] theorem setFur_task_mx_keeps (f : Fin 16) (v : Furrow) (s : State) : (setFur f v s).task.mx = s.task.mx := rfl
@[simp] theorem setFur_task_mc_keeps (f : Fin 16) (v : Furrow) (s : State) : (setFur f v s).task.mc = s.task.mc := rfl
@[simp] theorem setFur_task_cp_keeps (f : Fin 16) (v : Furrow) (s : State) : (setFur f v s).task.cp = s.task.cp := rfl
@[simp] theorem setFur_task_fx_keeps (f : Fin 16) (v : Furrow) (s : State) : (setFur f v s).task.fx = s.task.fx := rfl
@[simp] theorem setFur_task_brackets_keeps (f : Fin 16) (v : Furrow) (s : State) : (setFur f v s).task.brackets = s.task.brackets := rfl
@[simp] theorem setFur_task_k_keeps (f : Fin 16) (v : Furrow) (s : State) : (setFur f v s).task.k = s.task.k := rfl
@[simp] theorem setFur_task_l_keeps (f : Fin 16) (v : Furrow) (s : State) : (setFur f v s).task.l = s.task.l := rfl
@[simp] theorem setFur_task_c_keeps (f : Fin 16) (v : Furrow) (s : State) : (setFur f v s).task.c = s.task.c := rfl
@[simp] theorem setFur_task_s_keeps (f : Fin 16) (v : Furrow) (s : State) : (setFur f v s).task.s = s.task.s := rfl

@[simp] theorem setBr_brackets (b : Fin 4) (v : Bracket) (s : State) : (setBr b v s).task.brackets = s.task.brackets.set b v := rfl
@[simp] theorem setBr_mem_keeps (b : Fin 4) (v : Bracket) (s : State) : (setBr b v s).mem = s.mem := rfl
@[simp] theorem setBr_spad_keeps (b : Fin 4) (v : Bracket) (s : State) : (setBr b v s).spad = s.spad := rfl
@[simp] theorem setBr_firm_keeps (b : Fin 4) (v : Bracket) (s : State) : (setBr b v s).firm = s.firm := rfl
@[simp] theorem setBr_turn_keeps (b : Fin 4) (v : Bracket) (s : State) : (setBr b v s).turn = s.turn := rfl
@[simp] theorem setBr_now_keeps (b : Fin 4) (v : Bracket) (s : State) : (setBr b v s).now = s.now := rfl
@[simp] theorem setBr_checkq_keeps (b : Fin 4) (v : Bracket) (s : State) : (setBr b v s).checkq = s.checkq := rfl
@[simp] theorem setBr_side_keeps (b : Fin 4) (v : Bracket) (s : State) : (setBr b v s).side = s.side := rfl
@[simp] theorem setBr_spadBad_keeps (b : Fin 4) (v : Bracket) (s : State) : (setBr b v s).spadBad = s.spadBad := rfl
@[simp] theorem setBr_memBad_keeps (b : Fin 4) (v : Bracket) (s : State) : (setBr b v s).memBad = s.memBad := rfl
@[simp] theorem setBr_task_e_keeps (b : Fin 4) (v : Bracket) (s : State) : (setBr b v s).task.e = s.task.e := rfl
@[simp] theorem setBr_task_w_keeps (b : Fin 4) (v : Bracket) (s : State) : (setBr b v s).task.w = s.task.w := rfl
@[simp] theorem setBr_task_queues_keeps (b : Fin 4) (v : Bracket) (s : State) : (setBr b v s).task.queues = s.task.queues := rfl
@[simp] theorem setBr_task_tokens_keeps (b : Fin 4) (v : Bracket) (s : State) : (setBr b v s).task.tokens = s.task.tokens := rfl
@[simp] theorem setBr_task_furrows_keeps (b : Fin 4) (v : Bracket) (s : State) : (setBr b v s).task.furrows = s.task.furrows := rfl
@[simp] theorem setBr_task_mx_keeps (b : Fin 4) (v : Bracket) (s : State) : (setBr b v s).task.mx = s.task.mx := rfl
@[simp] theorem setBr_task_mc_keeps (b : Fin 4) (v : Bracket) (s : State) : (setBr b v s).task.mc = s.task.mc := rfl
@[simp] theorem setBr_task_cp_keeps (b : Fin 4) (v : Bracket) (s : State) : (setBr b v s).task.cp = s.task.cp := rfl
@[simp] theorem setBr_task_fx_keeps (b : Fin 4) (v : Bracket) (s : State) : (setBr b v s).task.fx = s.task.fx := rfl
@[simp] theorem setBr_task_k_keeps (b : Fin 4) (v : Bracket) (s : State) : (setBr b v s).task.k = s.task.k := rfl
@[simp] theorem setBr_task_l_keeps (b : Fin 4) (v : Bracket) (s : State) : (setBr b v s).task.l = s.task.l := rfl
@[simp] theorem setBr_task_c_keeps (b : Fin 4) (v : Bracket) (s : State) : (setBr b v s).task.c = s.task.c := rfl
@[simp] theorem setBr_task_s_keeps (b : Fin 4) (v : Bracket) (s : State) : (setBr b v s).task.s = s.task.s := rfl

@[simp] theorem setBar_bars (b : BitVec 2) (v : Bar) (s : State) : (setBar b v s).task.bars = s.task.bars.set b.toNat v := rfl
@[simp] theorem setBar_mem_keeps (b : BitVec 2) (v : Bar) (s : State) : (setBar b v s).mem = s.mem := rfl
@[simp] theorem setBar_spad_keeps (b : BitVec 2) (v : Bar) (s : State) : (setBar b v s).spad = s.spad := rfl
@[simp] theorem setBar_firm_keeps (b : BitVec 2) (v : Bar) (s : State) : (setBar b v s).firm = s.firm := rfl
@[simp] theorem setBar_turn_keeps (b : BitVec 2) (v : Bar) (s : State) : (setBar b v s).turn = s.turn := rfl
@[simp] theorem setBar_now_keeps (b : BitVec 2) (v : Bar) (s : State) : (setBar b v s).now = s.now := rfl
@[simp] theorem setBar_checkq_keeps (b : BitVec 2) (v : Bar) (s : State) : (setBar b v s).checkq = s.checkq := rfl
@[simp] theorem setBar_side_keeps (b : BitVec 2) (v : Bar) (s : State) : (setBar b v s).side = s.side := rfl
@[simp] theorem setBar_spadBad_keeps (b : BitVec 2) (v : Bar) (s : State) : (setBar b v s).spadBad = s.spadBad := rfl
@[simp] theorem setBar_memBad_keeps (b : BitVec 2) (v : Bar) (s : State) : (setBar b v s).memBad = s.memBad := rfl
@[simp] theorem setBar_task_e_keeps (b : BitVec 2) (v : Bar) (s : State) : (setBar b v s).task.e = s.task.e := rfl
@[simp] theorem setBar_task_w_keeps (b : BitVec 2) (v : Bar) (s : State) : (setBar b v s).task.w = s.task.w := rfl
@[simp] theorem setBar_task_queues_keeps (b : BitVec 2) (v : Bar) (s : State) : (setBar b v s).task.queues = s.task.queues := rfl
@[simp] theorem setBar_task_tokens_keeps (b : BitVec 2) (v : Bar) (s : State) : (setBar b v s).task.tokens = s.task.tokens := rfl
@[simp] theorem setBar_task_furrows_keeps (b : BitVec 2) (v : Bar) (s : State) : (setBar b v s).task.furrows = s.task.furrows := rfl
@[simp] theorem setBar_task_mx_keeps (b : BitVec 2) (v : Bar) (s : State) : (setBar b v s).task.mx = s.task.mx := rfl
@[simp] theorem setBar_task_mc_keeps (b : BitVec 2) (v : Bar) (s : State) : (setBar b v s).task.mc = s.task.mc := rfl
@[simp] theorem setBar_task_cp_keeps (b : BitVec 2) (v : Bar) (s : State) : (setBar b v s).task.cp = s.task.cp := rfl
@[simp] theorem setBar_task_fx_keeps (b : BitVec 2) (v : Bar) (s : State) : (setBar b v s).task.fx = s.task.fx := rfl
@[simp] theorem setBar_task_brackets_keeps (b : BitVec 2) (v : Bar) (s : State) : (setBar b v s).task.brackets = s.task.brackets := rfl
@[simp] theorem setBar_task_k_keeps (b : BitVec 2) (v : Bar) (s : State) : (setBar b v s).task.k = s.task.k := rfl
@[simp] theorem setBar_task_l_keeps (b : BitVec 2) (v : Bar) (s : State) : (setBar b v s).task.l = s.task.l := rfl
@[simp] theorem setBar_task_c_keeps (b : BitVec 2) (v : Bar) (s : State) : (setBar b v s).task.c = s.task.c := rfl
@[simp] theorem setBar_task_s_keeps (b : BitVec 2) (v : Bar) (s : State) : (setBar b v s).task.s = s.task.s := rfl

@[simp] theorem setMx_mx (m : Mx) (s : State) : (setMx m s).task.mx = m := rfl
@[simp] theorem setMx_mem_keeps (m : Mx) (s : State) : (setMx m s).mem = s.mem := rfl
@[simp] theorem setMx_spad_keeps (m : Mx) (s : State) : (setMx m s).spad = s.spad := rfl
@[simp] theorem setMx_firm_keeps (m : Mx) (s : State) : (setMx m s).firm = s.firm := rfl
@[simp] theorem setMx_turn_keeps (m : Mx) (s : State) : (setMx m s).turn = s.turn := rfl
@[simp] theorem setMx_now_keeps (m : Mx) (s : State) : (setMx m s).now = s.now := rfl
@[simp] theorem setMx_checkq_keeps (m : Mx) (s : State) : (setMx m s).checkq = s.checkq := rfl
@[simp] theorem setMx_side_keeps (m : Mx) (s : State) : (setMx m s).side = s.side := rfl
@[simp] theorem setMx_spadBad_keeps (m : Mx) (s : State) : (setMx m s).spadBad = s.spadBad := rfl
@[simp] theorem setMx_memBad_keeps (m : Mx) (s : State) : (setMx m s).memBad = s.memBad := rfl
@[simp] theorem setMx_task_e_keeps (m : Mx) (s : State) : (setMx m s).task.e = s.task.e := rfl
@[simp] theorem setMx_task_w_keeps (m : Mx) (s : State) : (setMx m s).task.w = s.task.w := rfl
@[simp] theorem setMx_task_queues_keeps (m : Mx) (s : State) : (setMx m s).task.queues = s.task.queues := rfl
@[simp] theorem setMx_task_tokens_keeps (m : Mx) (s : State) : (setMx m s).task.tokens = s.task.tokens := rfl
@[simp] theorem setMx_task_furrows_keeps (m : Mx) (s : State) : (setMx m s).task.furrows = s.task.furrows := rfl
@[simp] theorem setMx_task_mc_keeps (m : Mx) (s : State) : (setMx m s).task.mc = s.task.mc := rfl
@[simp] theorem setMx_task_cp_keeps (m : Mx) (s : State) : (setMx m s).task.cp = s.task.cp := rfl
@[simp] theorem setMx_task_fx_keeps (m : Mx) (s : State) : (setMx m s).task.fx = s.task.fx := rfl
@[simp] theorem setMx_task_brackets_keeps (m : Mx) (s : State) : (setMx m s).task.brackets = s.task.brackets := rfl
@[simp] theorem setMx_task_k_keeps (m : Mx) (s : State) : (setMx m s).task.k = s.task.k := rfl
@[simp] theorem setMx_task_l_keeps (m : Mx) (s : State) : (setMx m s).task.l = s.task.l := rfl
@[simp] theorem setMx_task_c_keeps (m : Mx) (s : State) : (setMx m s).task.c = s.task.c := rfl
@[simp] theorem setMx_task_s_keeps (m : Mx) (s : State) : (setMx m s).task.s = s.task.s := rfl

@[simp] theorem setMc_mc (m : Mce) (s : State) : (setMc m s).task.mc = m := rfl
@[simp] theorem setMc_mem_keeps (m : Mce) (s : State) : (setMc m s).mem = s.mem := rfl
@[simp] theorem setMc_spad_keeps (m : Mce) (s : State) : (setMc m s).spad = s.spad := rfl
@[simp] theorem setMc_firm_keeps (m : Mce) (s : State) : (setMc m s).firm = s.firm := rfl
@[simp] theorem setMc_turn_keeps (m : Mce) (s : State) : (setMc m s).turn = s.turn := rfl
@[simp] theorem setMc_now_keeps (m : Mce) (s : State) : (setMc m s).now = s.now := rfl
@[simp] theorem setMc_checkq_keeps (m : Mce) (s : State) : (setMc m s).checkq = s.checkq := rfl
@[simp] theorem setMc_side_keeps (m : Mce) (s : State) : (setMc m s).side = s.side := rfl
@[simp] theorem setMc_spadBad_keeps (m : Mce) (s : State) : (setMc m s).spadBad = s.spadBad := rfl
@[simp] theorem setMc_memBad_keeps (m : Mce) (s : State) : (setMc m s).memBad = s.memBad := rfl
@[simp] theorem setMc_task_e_keeps (m : Mce) (s : State) : (setMc m s).task.e = s.task.e := rfl
@[simp] theorem setMc_task_w_keeps (m : Mce) (s : State) : (setMc m s).task.w = s.task.w := rfl
@[simp] theorem setMc_task_queues_keeps (m : Mce) (s : State) : (setMc m s).task.queues = s.task.queues := rfl
@[simp] theorem setMc_task_tokens_keeps (m : Mce) (s : State) : (setMc m s).task.tokens = s.task.tokens := rfl
@[simp] theorem setMc_task_furrows_keeps (m : Mce) (s : State) : (setMc m s).task.furrows = s.task.furrows := rfl
@[simp] theorem setMc_task_mx_keeps (m : Mce) (s : State) : (setMc m s).task.mx = s.task.mx := rfl
@[simp] theorem setMc_task_cp_keeps (m : Mce) (s : State) : (setMc m s).task.cp = s.task.cp := rfl
@[simp] theorem setMc_task_fx_keeps (m : Mce) (s : State) : (setMc m s).task.fx = s.task.fx := rfl
@[simp] theorem setMc_task_brackets_keeps (m : Mce) (s : State) : (setMc m s).task.brackets = s.task.brackets := rfl
@[simp] theorem setMc_task_k_keeps (m : Mce) (s : State) : (setMc m s).task.k = s.task.k := rfl
@[simp] theorem setMc_task_l_keeps (m : Mce) (s : State) : (setMc m s).task.l = s.task.l := rfl
@[simp] theorem setMc_task_c_keeps (m : Mce) (s : State) : (setMc m s).task.c = s.task.c := rfl
@[simp] theorem setMc_task_s_keeps (m : Mce) (s : State) : (setMc m s).task.s = s.task.s := rfl

@[simp] theorem modCp_cp (f : Cp → Cp) (s : State) : (modCp f s).task.cp = f s.task.cp := rfl
@[simp] theorem modCp_mem_keeps (f : Cp → Cp) (s : State) : (modCp f s).mem = s.mem := rfl
@[simp] theorem modCp_spad_keeps (f : Cp → Cp) (s : State) : (modCp f s).spad = s.spad := rfl
@[simp] theorem modCp_firm_keeps (f : Cp → Cp) (s : State) : (modCp f s).firm = s.firm := rfl
@[simp] theorem modCp_turn_keeps (f : Cp → Cp) (s : State) : (modCp f s).turn = s.turn := rfl
@[simp] theorem modCp_now_keeps (f : Cp → Cp) (s : State) : (modCp f s).now = s.now := rfl
@[simp] theorem modCp_checkq_keeps (f : Cp → Cp) (s : State) : (modCp f s).checkq = s.checkq := rfl
@[simp] theorem modCp_side_keeps (f : Cp → Cp) (s : State) : (modCp f s).side = s.side := rfl
@[simp] theorem modCp_spadBad_keeps (f : Cp → Cp) (s : State) : (modCp f s).spadBad = s.spadBad := rfl
@[simp] theorem modCp_memBad_keeps (f : Cp → Cp) (s : State) : (modCp f s).memBad = s.memBad := rfl
@[simp] theorem modCp_task_e_keeps (f : Cp → Cp) (s : State) : (modCp f s).task.e = s.task.e := rfl
@[simp] theorem modCp_task_w_keeps (f : Cp → Cp) (s : State) : (modCp f s).task.w = s.task.w := rfl
@[simp] theorem modCp_task_queues_keeps (f : Cp → Cp) (s : State) : (modCp f s).task.queues = s.task.queues := rfl
@[simp] theorem modCp_task_tokens_keeps (f : Cp → Cp) (s : State) : (modCp f s).task.tokens = s.task.tokens := rfl
@[simp] theorem modCp_task_furrows_keeps (f : Cp → Cp) (s : State) : (modCp f s).task.furrows = s.task.furrows := rfl
@[simp] theorem modCp_task_mx_keeps (f : Cp → Cp) (s : State) : (modCp f s).task.mx = s.task.mx := rfl
@[simp] theorem modCp_task_mc_keeps (f : Cp → Cp) (s : State) : (modCp f s).task.mc = s.task.mc := rfl
@[simp] theorem modCp_task_fx_keeps (f : Cp → Cp) (s : State) : (modCp f s).task.fx = s.task.fx := rfl
@[simp] theorem modCp_task_brackets_keeps (f : Cp → Cp) (s : State) : (modCp f s).task.brackets = s.task.brackets := rfl
@[simp] theorem modCp_task_k_keeps (f : Cp → Cp) (s : State) : (modCp f s).task.k = s.task.k := rfl
@[simp] theorem modCp_task_l_keeps (f : Cp → Cp) (s : State) : (modCp f s).task.l = s.task.l := rfl
@[simp] theorem modCp_task_c_keeps (f : Cp → Cp) (s : State) : (modCp f s).task.c = s.task.c := rfl
@[simp] theorem modCp_task_s_keeps (f : Cp → Cp) (s : State) : (modCp f s).task.s = s.task.s := rfl

@[simp] theorem modFx_fx (f : Fx → Fx) (s : State) : (modFx f s).task.fx = f s.task.fx := rfl
@[simp] theorem modFx_mem_keeps (f : Fx → Fx) (s : State) : (modFx f s).mem = s.mem := rfl
@[simp] theorem modFx_spad_keeps (f : Fx → Fx) (s : State) : (modFx f s).spad = s.spad := rfl
@[simp] theorem modFx_firm_keeps (f : Fx → Fx) (s : State) : (modFx f s).firm = s.firm := rfl
@[simp] theorem modFx_turn_keeps (f : Fx → Fx) (s : State) : (modFx f s).turn = s.turn := rfl
@[simp] theorem modFx_now_keeps (f : Fx → Fx) (s : State) : (modFx f s).now = s.now := rfl
@[simp] theorem modFx_checkq_keeps (f : Fx → Fx) (s : State) : (modFx f s).checkq = s.checkq := rfl
@[simp] theorem modFx_side_keeps (f : Fx → Fx) (s : State) : (modFx f s).side = s.side := rfl
@[simp] theorem modFx_spadBad_keeps (f : Fx → Fx) (s : State) : (modFx f s).spadBad = s.spadBad := rfl
@[simp] theorem modFx_memBad_keeps (f : Fx → Fx) (s : State) : (modFx f s).memBad = s.memBad := rfl
@[simp] theorem modFx_task_e_keeps (f : Fx → Fx) (s : State) : (modFx f s).task.e = s.task.e := rfl
@[simp] theorem modFx_task_w_keeps (f : Fx → Fx) (s : State) : (modFx f s).task.w = s.task.w := rfl
@[simp] theorem modFx_task_queues_keeps (f : Fx → Fx) (s : State) : (modFx f s).task.queues = s.task.queues := rfl
@[simp] theorem modFx_task_tokens_keeps (f : Fx → Fx) (s : State) : (modFx f s).task.tokens = s.task.tokens := rfl
@[simp] theorem modFx_task_furrows_keeps (f : Fx → Fx) (s : State) : (modFx f s).task.furrows = s.task.furrows := rfl
@[simp] theorem modFx_task_mx_keeps (f : Fx → Fx) (s : State) : (modFx f s).task.mx = s.task.mx := rfl
@[simp] theorem modFx_task_mc_keeps (f : Fx → Fx) (s : State) : (modFx f s).task.mc = s.task.mc := rfl
@[simp] theorem modFx_task_cp_keeps (f : Fx → Fx) (s : State) : (modFx f s).task.cp = s.task.cp := rfl
@[simp] theorem modFx_task_brackets_keeps (f : Fx → Fx) (s : State) : (modFx f s).task.brackets = s.task.brackets := rfl
@[simp] theorem modFx_task_k_keeps (f : Fx → Fx) (s : State) : (modFx f s).task.k = s.task.k := rfl
@[simp] theorem modFx_task_l_keeps (f : Fx → Fx) (s : State) : (modFx f s).task.l = s.task.l := rfl
@[simp] theorem modFx_task_c_keeps (f : Fx → Fx) (s : State) : (modFx f s).task.c = s.task.c := rfl
@[simp] theorem modFx_task_s_keeps (f : Fx → Fx) (s : State) : (modFx f s).task.s = s.task.s := rfl

@[simp] theorem setProg_vprog (p : VProg) (s : State) : (setProg p s).task.vprog = some p := rfl
@[simp] theorem setProg_mem_keeps (p : VProg) (s : State) : (setProg p s).mem = s.mem := rfl
@[simp] theorem setProg_spad_keeps (p : VProg) (s : State) : (setProg p s).spad = s.spad := rfl
@[simp] theorem setProg_firm_keeps (p : VProg) (s : State) : (setProg p s).firm = s.firm := rfl
@[simp] theorem setProg_turn_keeps (p : VProg) (s : State) : (setProg p s).turn = s.turn := rfl
@[simp] theorem setProg_now_keeps (p : VProg) (s : State) : (setProg p s).now = s.now := rfl
@[simp] theorem setProg_checkq_keeps (p : VProg) (s : State) : (setProg p s).checkq = s.checkq := rfl
@[simp] theorem setProg_side_keeps (p : VProg) (s : State) : (setProg p s).side = s.side := rfl
@[simp] theorem setProg_spadBad_keeps (p : VProg) (s : State) : (setProg p s).spadBad = s.spadBad := rfl
@[simp] theorem setProg_memBad_keeps (p : VProg) (s : State) : (setProg p s).memBad = s.memBad := rfl
@[simp] theorem setProg_task_e_keeps (p : VProg) (s : State) : (setProg p s).task.e = s.task.e := rfl
@[simp] theorem setProg_task_w_keeps (p : VProg) (s : State) : (setProg p s).task.w = s.task.w := rfl
@[simp] theorem setProg_task_queues_keeps (p : VProg) (s : State) : (setProg p s).task.queues = s.task.queues := rfl
@[simp] theorem setProg_task_tokens_keeps (p : VProg) (s : State) : (setProg p s).task.tokens = s.task.tokens := rfl
@[simp] theorem setProg_task_furrows_keeps (p : VProg) (s : State) : (setProg p s).task.furrows = s.task.furrows := rfl
@[simp] theorem setProg_task_mx_keeps (p : VProg) (s : State) : (setProg p s).task.mx = s.task.mx := rfl
@[simp] theorem setProg_task_mc_keeps (p : VProg) (s : State) : (setProg p s).task.mc = s.task.mc := rfl
@[simp] theorem setProg_task_cp_keeps (p : VProg) (s : State) : (setProg p s).task.cp = s.task.cp := rfl
@[simp] theorem setProg_task_fx_keeps (p : VProg) (s : State) : (setProg p s).task.fx = s.task.fx := rfl
@[simp] theorem setProg_task_brackets_keeps (p : VProg) (s : State) : (setProg p s).task.brackets = s.task.brackets := rfl
@[simp] theorem setProg_task_k_keeps (p : VProg) (s : State) : (setProg p s).task.k = s.task.k := rfl
@[simp] theorem setProg_task_l_keeps (p : VProg) (s : State) : (setProg p s).task.l = s.task.l := rfl
@[simp] theorem setProg_task_c_keeps (p : VProg) (s : State) : (setProg p s).task.c = s.task.c := rfl
@[simp] theorem setProg_task_s_keeps (p : VProg) (s : State) : (setProg p s).task.s = s.task.s := rfl

@[simp] theorem setTerms_terms (t : Terms) (s : State) : (setTerms t s).terms = s.terms.filter (fun q => q.index != t.index) ++ [t] := rfl
@[simp] theorem setTerms_mem_keeps (t : Terms) (s : State) : (setTerms t s).mem = s.mem := rfl
@[simp] theorem setTerms_spad_keeps (t : Terms) (s : State) : (setTerms t s).spad = s.spad := rfl
@[simp] theorem setTerms_firm_keeps (t : Terms) (s : State) : (setTerms t s).firm = s.firm := rfl
@[simp] theorem setTerms_turn_keeps (t : Terms) (s : State) : (setTerms t s).turn = s.turn := rfl
@[simp] theorem setTerms_now_keeps (t : Terms) (s : State) : (setTerms t s).now = s.now := rfl
@[simp] theorem setTerms_checkq_keeps (t : Terms) (s : State) : (setTerms t s).checkq = s.checkq := rfl
@[simp] theorem setTerms_side_keeps (t : Terms) (s : State) : (setTerms t s).side = s.side := rfl
@[simp] theorem setTerms_spadBad_keeps (t : Terms) (s : State) : (setTerms t s).spadBad = s.spadBad := rfl
@[simp] theorem setTerms_memBad_keeps (t : Terms) (s : State) : (setTerms t s).memBad = s.memBad := rfl
@[simp] theorem setTerms_task_keeps (t : Terms) (s : State) : (setTerms t s).task = s.task := rfl

@[simp] theorem modCr_crypto (f : Crypto → Crypto) (s : State) : (modCr f s).crypto = f s.crypto := rfl
@[simp] theorem modCr_mem_keeps (f : Crypto → Crypto) (s : State) : (modCr f s).mem = s.mem := rfl
@[simp] theorem modCr_spad_keeps (f : Crypto → Crypto) (s : State) : (modCr f s).spad = s.spad := rfl
@[simp] theorem modCr_firm_keeps (f : Crypto → Crypto) (s : State) : (modCr f s).firm = s.firm := rfl
@[simp] theorem modCr_turn_keeps (f : Crypto → Crypto) (s : State) : (modCr f s).turn = s.turn := rfl
@[simp] theorem modCr_now_keeps (f : Crypto → Crypto) (s : State) : (modCr f s).now = s.now := rfl
@[simp] theorem modCr_checkq_keeps (f : Crypto → Crypto) (s : State) : (modCr f s).checkq = s.checkq := rfl
@[simp] theorem modCr_side_keeps (f : Crypto → Crypto) (s : State) : (modCr f s).side = s.side := rfl
@[simp] theorem modCr_spadBad_keeps (f : Crypto → Crypto) (s : State) : (modCr f s).spadBad = s.spadBad := rfl
@[simp] theorem modCr_memBad_keeps (f : Crypto → Crypto) (s : State) : (modCr f s).memBad = s.memBad := rfl
@[simp] theorem modCr_task_keeps (f : Crypto → Crypto) (s : State) : (modCr f s).task = s.task := rfl

@[simp] theorem modKv_kv (f : Kv → Kv) (s : State) : (modKv f s).kv = f s.kv := rfl
@[simp] theorem modKv_mem_keeps (f : Kv → Kv) (s : State) : (modKv f s).mem = s.mem := rfl
@[simp] theorem modKv_spad_keeps (f : Kv → Kv) (s : State) : (modKv f s).spad = s.spad := rfl
@[simp] theorem modKv_firm_keeps (f : Kv → Kv) (s : State) : (modKv f s).firm = s.firm := rfl
@[simp] theorem modKv_turn_keeps (f : Kv → Kv) (s : State) : (modKv f s).turn = s.turn := rfl
@[simp] theorem modKv_now_keeps (f : Kv → Kv) (s : State) : (modKv f s).now = s.now := rfl
@[simp] theorem modKv_checkq_keeps (f : Kv → Kv) (s : State) : (modKv f s).checkq = s.checkq := rfl
@[simp] theorem modKv_side_keeps (f : Kv → Kv) (s : State) : (modKv f s).side = s.side := rfl
@[simp] theorem modKv_spadBad_keeps (f : Kv → Kv) (s : State) : (modKv f s).spadBad = s.spadBad := rfl
@[simp] theorem modKv_memBad_keeps (f : Kv → Kv) (s : State) : (modKv f s).memBad = s.memBad := rfl
@[simp] theorem modKv_task_keeps (f : Kv → Kv) (s : State) : (modKv f s).task = s.task := rfl

@[simp] theorem addReply_replies (r : Reply) (s : State) : (addReply r s).replies = s.replies.filter (fun q => q.id != r.id) ++ [r] := rfl
@[simp] theorem addReply_mem_keeps (r : Reply) (s : State) : (addReply r s).mem = s.mem := rfl
@[simp] theorem addReply_spad_keeps (r : Reply) (s : State) : (addReply r s).spad = s.spad := rfl
@[simp] theorem addReply_firm_keeps (r : Reply) (s : State) : (addReply r s).firm = s.firm := rfl
@[simp] theorem addReply_turn_keeps (r : Reply) (s : State) : (addReply r s).turn = s.turn := rfl
@[simp] theorem addReply_now_keeps (r : Reply) (s : State) : (addReply r s).now = s.now := rfl
@[simp] theorem addReply_checkq_keeps (r : Reply) (s : State) : (addReply r s).checkq = s.checkq := rfl
@[simp] theorem addReply_side_keeps (r : Reply) (s : State) : (addReply r s).side = s.side := rfl
@[simp] theorem addReply_spadBad_keeps (r : Reply) (s : State) : (addReply r s).spadBad = s.spadBad := rfl
@[simp] theorem addReply_memBad_keeps (r : Reply) (s : State) : (addReply r s).memBad = s.memBad := rfl
@[simp] theorem addReply_task_keeps (r : Reply) (s : State) : (addReply r s).task = s.task := rfl

@[simp] theorem setQueue_hostq (die q : Nat) (v : HostQueue) (s : State) : (setQueue die q v s).hostq = s.hostq.set (queueIdx die q) v := rfl
@[simp] theorem setQueue_mem_keeps (die q : Nat) (v : HostQueue) (s : State) : (setQueue die q v s).mem = s.mem := rfl
@[simp] theorem setQueue_spad_keeps (die q : Nat) (v : HostQueue) (s : State) : (setQueue die q v s).spad = s.spad := rfl
@[simp] theorem setQueue_firm_keeps (die q : Nat) (v : HostQueue) (s : State) : (setQueue die q v s).firm = s.firm := rfl
@[simp] theorem setQueue_turn_keeps (die q : Nat) (v : HostQueue) (s : State) : (setQueue die q v s).turn = s.turn := rfl
@[simp] theorem setQueue_now_keeps (die q : Nat) (v : HostQueue) (s : State) : (setQueue die q v s).now = s.now := rfl
@[simp] theorem setQueue_checkq_keeps (die q : Nat) (v : HostQueue) (s : State) : (setQueue die q v s).checkq = s.checkq := rfl
@[simp] theorem setQueue_side_keeps (die q : Nat) (v : HostQueue) (s : State) : (setQueue die q v s).side = s.side := rfl
@[simp] theorem setQueue_spadBad_keeps (die q : Nat) (v : HostQueue) (s : State) : (setQueue die q v s).spadBad = s.spadBad := rfl
@[simp] theorem setQueue_memBad_keeps (die q : Nat) (v : HostQueue) (s : State) : (setQueue die q v s).memBad = s.memBad := rfl
@[simp] theorem setQueue_task_keeps (die q : Nat) (v : HostQueue) (s : State) : (setQueue die q v s).task = s.task := rfl

@[simp] theorem advance_turn (s : State) : (advance s).turn = nextTurn s.turn := rfl
@[simp] theorem advance_mem_keeps (s : State) : (advance s).mem = s.mem := rfl
@[simp] theorem advance_spad_keeps (s : State) : (advance s).spad = s.spad := rfl
@[simp] theorem advance_firm_keeps (s : State) : (advance s).firm = s.firm := rfl
@[simp] theorem advance_now_keeps (s : State) : (advance s).now = s.now := rfl
@[simp] theorem advance_checkq_keeps (s : State) : (advance s).checkq = s.checkq := rfl
@[simp] theorem advance_side_keeps (s : State) : (advance s).side = s.side := rfl
@[simp] theorem advance_spadBad_keeps (s : State) : (advance s).spadBad = s.spadBad := rfl
@[simp] theorem advance_memBad_keeps (s : State) : (advance s).memBad = s.memBad := rfl
@[simp] theorem advance_task_keeps (s : State) : (advance s).task = s.task := rfl

@[simp] theorem flushCache_dcache (s : State) : (flushCache s).dcache = [] := rfl
@[simp] theorem flushCache_mem_keeps (s : State) : (flushCache s).mem = s.mem := rfl
@[simp] theorem flushCache_spad_keeps (s : State) : (flushCache s).spad = s.spad := rfl
@[simp] theorem flushCache_firm_keeps (s : State) : (flushCache s).firm = s.firm := rfl
@[simp] theorem flushCache_turn_keeps (s : State) : (flushCache s).turn = s.turn := rfl
@[simp] theorem flushCache_now_keeps (s : State) : (flushCache s).now = s.now := rfl
@[simp] theorem flushCache_checkq_keeps (s : State) : (flushCache s).checkq = s.checkq := rfl
@[simp] theorem flushCache_side_keeps (s : State) : (flushCache s).side = s.side := rfl
@[simp] theorem flushCache_spadBad_keeps (s : State) : (flushCache s).spadBad = s.spadBad := rfl
@[simp] theorem flushCache_memBad_keeps (s : State) : (flushCache s).memBad = s.memBad := rfl
@[simp] theorem flushCache_task_keeps (s : State) : (flushCache s).task = s.task := rfl

/-- A context that is written is what is read, and the update of a stream reaches nothing but its context. -/
@[simp] theorem setCtx_reads (x : Issuer) (c : Ctx) (s : State) : ctxOf (setCtx x c s) x = c := by cases x <;> rfl
@[simp] theorem setCtx_mem_keeps (x : Issuer) (c : Ctx) (s : State) : (setCtx x c s).mem = s.mem := by
  cases x <;> rfl
@[simp] theorem setCtx_spad_keeps (x : Issuer) (c : Ctx) (s : State) : (setCtx x c s).spad = s.spad := by
  cases x <;> rfl
@[simp] theorem setCtx_turn_keeps (x : Issuer) (c : Ctx) (s : State) : (setCtx x c s).turn = s.turn := by
  cases x <;> rfl
@[simp] theorem setCtx_now_keeps (x : Issuer) (c : Ctx) (s : State) : (setCtx x c s).now = s.now := by
  cases x <;> rfl
@[simp] theorem setCtx_checkq_keeps (x : Issuer) (c : Ctx) (s : State) : (setCtx x c s).checkq = s.checkq := by
  cases x <;> rfl
@[simp] theorem setCtx_side_keeps (x : Issuer) (c : Ctx) (s : State) : (setCtx x c s).side = s.side := by
  cases x <;> rfl
@[simp] theorem setCtx_spadBad_keeps (x : Issuer) (c : Ctx) (s : State) : (setCtx x c s).spadBad = s.spadBad := by
  cases x <;> rfl
@[simp] theorem setCtx_memBad_keeps (x : Issuer) (c : Ctx) (s : State) : (setCtx x c s).memBad = s.memBad := by
  cases x <;> rfl
@[simp] theorem setCtx_task_e_keeps (x : Issuer) (c : Ctx) (s : State) : (setCtx x c s).task.e = s.task.e := by
  cases x <;> rfl
@[simp] theorem setCtx_task_w_keeps (x : Issuer) (c : Ctx) (s : State) : (setCtx x c s).task.w = s.task.w := by
  cases x <;> rfl
@[simp] theorem setCtx_task_queues_keeps (x : Issuer) (c : Ctx) (s : State) : (setCtx x c s).task.queues = s.task.queues := by
  cases x <;> rfl
@[simp] theorem setCtx_task_tokens_keeps (x : Issuer) (c : Ctx) (s : State) : (setCtx x c s).task.tokens = s.task.tokens := by
  cases x <;> rfl
@[simp] theorem setCtx_task_furrows_keeps (x : Issuer) (c : Ctx) (s : State) : (setCtx x c s).task.furrows = s.task.furrows := by
  cases x <;> rfl
@[simp] theorem setCtx_task_mx_keeps (x : Issuer) (c : Ctx) (s : State) : (setCtx x c s).task.mx = s.task.mx := by
  cases x <;> rfl
@[simp] theorem setCtx_task_mc_keeps (x : Issuer) (c : Ctx) (s : State) : (setCtx x c s).task.mc = s.task.mc := by
  cases x <;> rfl
@[simp] theorem setCtx_task_cp_keeps (x : Issuer) (c : Ctx) (s : State) : (setCtx x c s).task.cp = s.task.cp := by
  cases x <;> rfl
@[simp] theorem setCtx_task_fx_keeps (x : Issuer) (c : Ctx) (s : State) : (setCtx x c s).task.fx = s.task.fx := by
  cases x <;> rfl
@[simp] theorem setCtx_task_brackets_keeps (x : Issuer) (c : Ctx) (s : State) : (setCtx x c s).task.brackets = s.task.brackets := by
  cases x <;> rfl

@[simp] theorem journal_journal (d : Nat) (r : JournalRec) (s : State) : (journal d r s).journal = s.journal ++ [(d, r)] := rfl
@[simp] theorem journal_mem_keeps (d : Nat) (r : JournalRec) (s : State) : (journal d r s).mem = s.mem := rfl
@[simp] theorem journal_spad_keeps (d : Nat) (r : JournalRec) (s : State) : (journal d r s).spad = s.spad := rfl
@[simp] theorem journal_firm_keeps (d : Nat) (r : JournalRec) (s : State) : (journal d r s).firm = s.firm := rfl
@[simp] theorem journal_turn_keeps (d : Nat) (r : JournalRec) (s : State) : (journal d r s).turn = s.turn := rfl
@[simp] theorem journal_now_keeps (d : Nat) (r : JournalRec) (s : State) : (journal d r s).now = s.now := rfl
@[simp] theorem journal_checkq_keeps (d : Nat) (r : JournalRec) (s : State) : (journal d r s).checkq = s.checkq := rfl
@[simp] theorem journal_side_keeps (d : Nat) (r : JournalRec) (s : State) : (journal d r s).side = s.side := rfl
@[simp] theorem journal_spadBad_keeps (d : Nat) (r : JournalRec) (s : State) : (journal d r s).spadBad = s.spadBad := rfl
@[simp] theorem journal_memBad_keeps (d : Nat) (r : JournalRec) (s : State) : (journal d r s).memBad = s.memBad := rfl
@[simp] theorem journal_task_keeps (d : Nat) (r : JournalRec) (s : State) : (journal d r s).task = s.task := rfl
@[simp] theorem journal_launches_keeps (d : Nat) (r : JournalRec) (s : State) : (journal d r s).launches = s.launches := rfl
@[simp] theorem journal_log_keeps (d : Nat) (r : JournalRec) (s : State) : (journal d r s).log = s.log := rfl

@[simp] theorem stopService_svcStop (s : State) : (stopService s).svcStop = some (s.now + 1 + Config.debugStop s.free) := rfl
@[simp] theorem stopService_free (s : State) : (stopService s).free = s.free + 1 := rfl
@[simp] theorem stopService_mem_keeps (s : State) : (stopService s).mem = s.mem := rfl
@[simp] theorem stopService_spad_keeps (s : State) : (stopService s).spad = s.spad := rfl
@[simp] theorem stopService_firm_keeps (s : State) : (stopService s).firm = s.firm := rfl
@[simp] theorem stopService_turn_keeps (s : State) : (stopService s).turn = s.turn := rfl
@[simp] theorem stopService_now_keeps (s : State) : (stopService s).now = s.now := rfl
@[simp] theorem stopService_checkq_keeps (s : State) : (stopService s).checkq = s.checkq := rfl
@[simp] theorem stopService_side_keeps (s : State) : (stopService s).side = s.side := rfl
@[simp] theorem stopService_spadBad_keeps (s : State) : (stopService s).spadBad = s.spadBad := rfl
@[simp] theorem stopService_memBad_keeps (s : State) : (stopService s).memBad = s.memBad := rfl
@[simp] theorem stopService_task_keeps (s : State) : (stopService s).task = s.task := rfl

@[simp] theorem holdLatches_latches (d : Nat) (s : State) : (holdLatches d s).task.latches = s.task.latches.map (fun l => { l with land := l.land + d }) := rfl
@[simp] theorem holdLatches_mem_keeps (d : Nat) (s : State) : (holdLatches d s).mem = s.mem := rfl
@[simp] theorem holdLatches_spad_keeps (d : Nat) (s : State) : (holdLatches d s).spad = s.spad := rfl
@[simp] theorem holdLatches_firm_keeps (d : Nat) (s : State) : (holdLatches d s).firm = s.firm := rfl
@[simp] theorem holdLatches_turn_keeps (d : Nat) (s : State) : (holdLatches d s).turn = s.turn := rfl
@[simp] theorem holdLatches_now_keeps (d : Nat) (s : State) : (holdLatches d s).now = s.now := rfl
@[simp] theorem holdLatches_checkq_keeps (d : Nat) (s : State) : (holdLatches d s).checkq = s.checkq := rfl
@[simp] theorem holdLatches_side_keeps (d : Nat) (s : State) : (holdLatches d s).side = s.side := rfl
@[simp] theorem holdLatches_spadBad_keeps (d : Nat) (s : State) : (holdLatches d s).spadBad = s.spadBad := rfl
@[simp] theorem holdLatches_memBad_keeps (d : Nat) (s : State) : (holdLatches d s).memBad = s.memBad := rfl
@[simp] theorem holdLatches_task_e_keeps (d : Nat) (s : State) : (holdLatches d s).task.e = s.task.e := rfl
@[simp] theorem holdLatches_task_w_keeps (d : Nat) (s : State) : (holdLatches d s).task.w = s.task.w := rfl
@[simp] theorem holdLatches_task_queues_keeps (d : Nat) (s : State) : (holdLatches d s).task.queues = s.task.queues := rfl
@[simp] theorem holdLatches_task_tokens_keeps (d : Nat) (s : State) : (holdLatches d s).task.tokens = s.task.tokens := rfl
@[simp] theorem holdLatches_task_furrows_keeps (d : Nat) (s : State) : (holdLatches d s).task.furrows = s.task.furrows := rfl
@[simp] theorem holdLatches_task_mx_keeps (d : Nat) (s : State) : (holdLatches d s).task.mx = s.task.mx := rfl
@[simp] theorem holdLatches_task_mc_keeps (d : Nat) (s : State) : (holdLatches d s).task.mc = s.task.mc := rfl
@[simp] theorem holdLatches_task_cp_keeps (d : Nat) (s : State) : (holdLatches d s).task.cp = s.task.cp := rfl
@[simp] theorem holdLatches_task_fx_keeps (d : Nat) (s : State) : (holdLatches d s).task.fx = s.task.fx := rfl
@[simp] theorem holdLatches_task_brackets_keeps (d : Nat) (s : State) : (holdLatches d s).task.brackets = s.task.brackets := rfl
@[simp] theorem holdLatches_task_k_keeps (d : Nat) (s : State) : (holdLatches d s).task.k = s.task.k := rfl
@[simp] theorem holdLatches_task_l_keeps (d : Nat) (s : State) : (holdLatches d s).task.l = s.task.l := rfl
@[simp] theorem holdLatches_task_s_keeps (d : Nat) (s : State) : (holdLatches d s).task.s = s.task.s := rfl

end Sys2Proof.Machine
end

