-- ==== Sys2Proof/Laws/Still.lean ====
section
/-! SUPPORT. What leaves the memories alone: for every operation that writes no memory, that the memories, the instruction
memories and the save area are as they were (`SameMem`), whatever it answers. The operations that do write are not here. -/

set_option linter.unusedSimpArgs false
set_option linter.unusedVariables false

namespace Sys2Proof.Machine

abbrev SameMem (s t : State) : Prop :=
  t.mem = s.mem ∧ t.spad = s.spad ∧ t.firm.imem = s.firm.imem ∧ t.task.k.imem = s.task.k.imem ∧
  t.task.l.imem = s.task.l.imem ∧ t.task.c.imem = s.task.c.imem ∧ t.task.s.imem = s.task.s.imem ∧ t.saves = s.saves

theorem SameMem.trans {s t u : State} (h : SameMem s t) (g : SameMem t u) : SameMem s u := by
  simp only [SameMem] at *; simp [g, h]
def Out.All (Q : State → Prop) : Out → Prop
  | .next s => Q s
  | _ => True
def Result.All (Q : State → Prop) : Result → Prop
  | .done s _ | .async s | .goto s _ | .doneTrap s _ _ | .wait s | .waitIssued s | .waitReply s | .chunk s
  | .trapKeep s _ | .trapIssued s _ | .jumped s => Q s
  | .trap _ => True

theorem Result.All.mono {P Q : State → Prop} (h : ∀ s, P s → Q s) {r : Result} (hr : r.All P) : r.All Q := by
  cases r <;> first | exact h _ hr | trivial
def McUnit.All (Q : State → Prop) : McUnit → Prop
  | .go s _ _ | .fail s _ _ _ _ | .reply s _ | .stall s => Q s

theorem McUnit.All.mono {P Q : State → Prop} (h : ∀ s, P s → Q s) {r : McUnit} (hr : r.All P) : r.All Q := by
  cases r <;> exact h _ hr

theorem foldl_keep {α β : Type} (g : State → β) (f : State → α → State) (h : ∀ s a, g (f s a) = g s) (l : List α) (s : State) :
    g (l.foldl f s) = g s := by
  induction l generalizing s with
  | nil => rfl
  | cons a t ih => exact (ih (f s a)).trans (h s a)

@[simp] theorem foldl_same {α : Type} (f : State → α → State) (h : ∀ s a, SameMem s (f s a)) (l : List α) (s : State) :
    SameMem s (l.foldl f s) := by
  induction l generalizing s with
  | nil => simp [SameMem]
  | cons a t ih => exact (h s a).trans (ih (f s a))

@[simp] theorem setQ_same (x0 : Fin 20) (x1 : List QSlot) (x2 : State) : SameMem x2 (setQ x0 x1 x2) := by
  unfold setQ; (try dsimp only)
  repeat' (first | (simp [SameMem, Result.All, Out.All, McUnit.All, *]; done) | split)

@[simp] theorem qReserve_same (x0 : Fin 20) (x1 : Option Nat) (x2 : State) : SameMem x2 (qReserve x0 x1 x2) := by
  unfold qReserve; (try dsimp only)
  repeat' (first | (simp [SameMem, Result.All, Out.All, McUnit.All, *]; done) | split)

@[simp] theorem latchQueue_same (x0 : Fin 20) (x1 : Elem) (x2 : Nat) (x3 : Nat) (x4 : State) : SameMem x4 (latchQueue x0 x1 x2 x3 x4) := by
  unfold latchQueue; (try dsimp only)
  repeat' (first | (simp [SameMem, Result.All, Out.All, McUnit.All, *]; done) | split)

@[simp] theorem latchRegs_same (x0 : List (Fin 768 × Elem)) (x1 : Nat) (x2 : Nat) (x3 : State) : SameMem x3 (latchRegs x0 x1 x2 x3) := by
  unfold latchRegs; (try dsimp only)
  repeat' (first | (simp [SameMem, Result.All, Out.All, McUnit.All, *]; done) | split)

@[simp] theorem latchReg_same (x0 : Fin 768) (x1 : Elem) (x2 : Nat) (x3 : Nat) (x4 : State) : SameMem x4 (latchReg x0 x1 x2 x3 x4) := by
  unfold latchReg; (try dsimp only)
  repeat' (first | (simp [SameMem, Result.All, Out.All, McUnit.All, *]; done) | split)

@[simp] theorem putResult_same (x0 : EOp) (x1 : Elem) (x2 : Nat) (x3 : State) : SameMem x3 (putResult x0 x1 x2 x3) := by
  unfold putResult; (try dsimp only)
  repeat' (first | (simp [SameMem, Result.All, Out.All, McUnit.All, *]; done) | split)

@[simp] theorem qPop_same (x0 : Fin 20) (x1 : State) : SameMem x1 (qPop x0 x1) := by
  unfold qPop; (try dsimp only)
  repeat' (first | (simp [SameMem, Result.All, Out.All, McUnit.All, *]; done) | split)

@[simp] theorem takeSrcs_same (l) (s : State) : SameMem s (takeSrcs l s).2.1 := by
  induction l generalizing s with
  | nil => simp [SameMem, takeSrcs]
  | cons o t ih =>
    have h (s : State) := ih s
    simp only [SameMem] at h
    unfold takeSrcs; dsimp only
    repeat' (first | (simp [SameMem, h]; done) | split)

theorem sources_same {os} {s : State} {vs} {s1 : State} (h : sources os s = .ok (vs, s1)) : SameMem s s1 := by
  unfold sources at h; dsimp only at h
  split at h
  · cases h
  · split at h
    · cases h
    · cases h; exact takeSrcs_same os s

@[simp] theorem stallResult_same (x0 : State) (x1 : Stall) : Result.All (SameMem x0) (stallResult x0 x1) := by
  unfold stallResult; (try dsimp only)
  repeat' (first | (simp [SameMem, Result.All, Out.All, McUnit.All, *]; done) | split)

@[simp] theorem elementOp_same (ed os l f) (s : State) : (elementOp ed os l f s).All (SameMem s) := by
  unfold elementOp
  split
  · simp [SameMem, Result.All]
  · cases h : sources os s with
    | error e => cases e <;> simp [SameMem, stallResult, Result.All]
    | ok p => obtain ⟨vs, s1⟩ := p; have := sources_same h; simp only [SameMem] at this; simp [SameMem, Result.All, this]

@[simp] theorem setCtx_same (x c) (s : State) (h : c.imem = (ctxOf s x).imem) : SameMem s (setCtx x c s) := by
  cases x <;> simp_all [setCtx, SameMem, ctxOf]

@[simp] theorem modCtx_same (x f) (s : State) (h : ∀ c, (f c).imem = c.imem) : SameMem s (modCtx x f s) := by
  unfold modCtx; exact setCtx_same _ _ _ (h _)

@[simp] theorem block_same (x0 : Issuer) (x1 : State) : SameMem x1 (block x0 x1) := by
  unfold block; (try dsimp only)
  repeat' (first | (simp [SameMem, Result.All, Out.All, McUnit.All, *]; done) | split)

@[simp] theorem enqueueAs_same (x0 : State) (x1 : Action) (x2 : Word) (x3 : BitVec 3) (x4 : Nat) (x5 : State) : SameMem x5 (enqueueAs x0 x1 x2 x3 x4 x5) := by
  unfold enqueueAs; (try dsimp only)
  repeat' (first | (simp [SameMem, Result.All, Out.All, McUnit.All, *]; done) | split)

@[simp] theorem enterHandler_same (x0 : Issuer) (x1 : Word) (x2 : Pc) (x3 : Pc) (x4 : State) : SameMem x4 (enterHandler x0 x1 x2 x3 x4) := by
  unfold enterHandler; (try dsimp only)
  repeat' (first | (simp [SameMem, Result.All, Out.All, McUnit.All, *]; done) | split)

@[simp] theorem haltStream_same (x0 : Issuer) (x1 : Word) (x2 : Word) (x3 : Pc) (x4 : Bool) (x5 : State) : SameMem x5 (haltStream x0 x1 x2 x3 x4 x5) := by
  unfold haltStream; (try dsimp only)
  repeat' (first | (simp [SameMem, Result.All, Out.All, McUnit.All, *]; done) | split)

@[simp] theorem logFrom_same (x0 : Nat) (x1 : LogKind) (x2 : List Nat) (x3 : State) : SameMem x3 (logFrom x0 x1 x2 x3) := by
  unfold logFrom; (try dsimp only)
  repeat' (first | (simp [SameMem, Result.All, Out.All, McUnit.All, *]; done) | split)

@[simp] theorem logAdd_same (x0 : LogKind) (x1 : List Nat) (x2 : State) : SameMem x2 (logAdd x0 x1 x2) := by
  unfold logAdd; (try dsimp only)
  repeat' (first | (simp [SameMem, Result.All, Out.All, McUnit.All, *]; done) | split)

@[simp] theorem logLaunch_same (x0 : LogKind) (x1 : List Nat) (x2 : State) : SameMem x2 (logLaunch x0 x1 x2) := by
  unfold logLaunch; (try dsimp only)
  repeat' (first | (simp [SameMem, Result.All, Out.All, McUnit.All, *]; done) | split)

@[simp] theorem journal_same (x0 : Nat) (x1 : JournalRec) (x2 : State) : SameMem x2 (journal x0 x1 x2) := by
  unfold journal; simp [SameMem]

@[simp] theorem notify_same (x0 : Nat) (x1 : Notice) (x2 : State) : SameMem x2 (notify x0 x1 x2) := by
  unfold notify; (try dsimp only)
  repeat' (first | (simp [SameMem, Result.All, Out.All, McUnit.All, *]; done) | split)

@[simp] theorem holdCore_same (x0 : State) : SameMem x0 (holdCore x0) := by
  unfold holdCore; (try dsimp only)
  repeat' (first | (simp [SameMem, Result.All, Out.All, McUnit.All, *]; done) | split)

@[simp] theorem reportTh_same (x0 : Bool) (x1 : TrapInfo) (x2 : State) : SameMem x2 (reportTh x0 x1 x2) := by
  unfold reportTh; (try dsimp only)
  repeat' (first | (simp [SameMem, Result.All, Out.All, McUnit.All, *]; done) | split)

@[simp] theorem dropLatches_same (x0 : Issuer) (x1 : State) : SameMem x1 (dropLatches x0 x1) := by
  unfold dropLatches; (try dsimp only)
  repeat' (first | (simp [SameMem, Result.All, Out.All, McUnit.All, *]; done) | split)

@[simp] theorem unlandOne_same (x0 : Latch × Elem) (x1 : State) : SameMem x1 (unlandOne x0 x1) := by
  unfold unlandOne; (try dsimp only)
  repeat' (first | (simp [SameMem, Result.All, Out.All, McUnit.All, *]; done) | split)

theorem foldr_same {α : Type} (f : α → State → State) (h : ∀ a s, SameMem s (f a s)) (l : List α) (s : State) :
    SameMem s (l.foldr f s) := by
  induction l with
  | nil => simp [SameMem]
  | cons a t ih => exact ih.trans (h a _)

@[simp] theorem unland_same (s : State) : SameMem s (unland s) := by
  have h := foldr_same unlandOne unlandOne_same (s.task.landedNow.filter (fun p => decide (s.task.c.lastIssue < p.1.land) &&
    decide (p.1.land ≤ s.task.c.lastIssue + 8))) s
  simp only [SameMem] at h
  unfold unland; dsimp only
  simp [SameMem, h]

@[simp] theorem repairValue_same (x0 : Nat) (x1 : Word) (x2 : Ctx) : (repairValue x0 x1 x2).imem = x2.imem := by
  unfold repairValue; (try dsimp only)
  repeat' (first | (simp [SameMem, Result.All, Out.All, McUnit.All, *]; done) | split)

@[simp] theorem repair_same (x0 : Issuer) (x1 : Nat) (x2 : Word) (x3 : Nat) (x4 : State) : SameMem x4 (repair x0 x1 x2 x3 x4) := by
  unfold repair; (try dsimp only)
  repeat' (first | (simp [SameMem, Result.All, Out.All, McUnit.All, *]; done) | split)

@[simp] theorem attachPushes_same (x0 : List (Fifo × Nat)) (x1 : List (Fifo × Nat)) (x2 : State) : SameMem x2 (attachPushes x0 x1 x2) := by
  unfold attachPushes; (try dsimp only)
  repeat' (first | (simp [SameMem, Result.All, Out.All, McUnit.All, *]; done) | split)

@[simp] theorem beginWord_same (x0 : Issuer) (x1 : State) : SameMem x1 (beginWord x0 x1) := by
  unfold beginWord; (try dsimp only)
  repeat' (first | (simp [SameMem, Result.All, Out.All, McUnit.All, *]; done) | split)

@[simp] theorem goesOn_same (x0 : Issuer) (x1 : Bool) (x2 : State) : SameMem x2 (goesOn x0 x1 x2) := by
  unfold goesOn; (try dsimp only)
  repeat' (first | (simp [SameMem, Result.All, Out.All, McUnit.All, *]; done) | split)

@[simp] theorem issued_same (x0 : Issuer) (x1 : Pc) (x2 : State) : SameMem x2 (issued x0 x1 x2) := by
  unfold issued; (try dsimp only)
  repeat' (first | (simp [SameMem, Result.All, Out.All, McUnit.All, *]; done) | split)

@[simp] theorem acquire_same (x0 : Issuer) (x1 : State) : SameMem x1 (acquire x0 x1) := by
  unfold acquire; (try dsimp only)
  repeat' (first | (simp [SameMem, Result.All, Out.All, McUnit.All, *]; done) | split)

@[simp] theorem tokenTake_same (x0 : Fifo) (x1 : Nat) (x2 : State) : SameMem x2 (tokenTake x0 x1 x2) := by
  unfold tokenTake; (try dsimp only)
  repeat' (first | (simp [SameMem, Result.All, Out.All, McUnit.All, *]; done) | split)

@[simp] theorem takePops_same (x0 : List (Fifo × Nat)) (x1 : State) : SameMem x1 (takePops x0 x1) := by
  unfold takePops; (try dsimp only)
  repeat' (first | (simp [SameMem, Result.All, Out.All, McUnit.All, *]; done) | split)

@[simp] theorem popAll_same (x0 : Issuer) (x1 : List (Fifo × Nat)) (x2 : State) : SameMem x2 (popAll x0 x1 x2) := by
  unfold popAll; (try dsimp only)
  repeat' (first | (simp [SameMem, Result.All, Out.All, McUnit.All, *]; done) | split)

@[simp] theorem schedule_same (x0 : Issuer) (x1 : List (Fifo × Nat)) (x2 : Nat) (x3 : State) (x4 : State) : SameMem x4 (schedule x0 x1 x2 x3 x4) := by
  unfold schedule; (try dsimp only)
  repeat' (first | (simp [SameMem, Result.All, Out.All, McUnit.All, *]; done) | split)

@[simp] theorem freshSeed_same (x0 : State) : SameMem x0 (freshSeed x0).2 := by
  unfold freshSeed; (try dsimp only)
  repeat' (first | (simp [SameMem, Result.All, Out.All, McUnit.All, *]; done) | split)

@[simp] theorem enqueue_same (x0 : Action) (x1 : Word) (x2 : BitVec 3) (x3 : State) : SameMem x3 (enqueue x0 x1 x2 x3) := by
  unfold enqueue; (try dsimp only)
  repeat' (first | (simp [SameMem, Result.All, Out.All, McUnit.All, *]; done) | split)

@[simp] theorem setMx_same (x0 : Mx) (x1 : State) : SameMem x1 (setMx x0 x1) := by
  unfold setMx; (try dsimp only)
  repeat' (first | (simp [SameMem, Result.All, Out.All, McUnit.All, *]; done) | split)

@[simp] theorem modMx_same (x0 : Mx → Mx) (x1 : State) : SameMem x1 (modMx x0 x1) := by
  unfold modMx; (try dsimp only)
  repeat' (first | (simp [SameMem, Result.All, Out.All, McUnit.All, *]; done) | split)

@[simp] theorem modMxK_same (x0 : MxK → MxK) (x1 : State) : SameMem x1 (modMxK x0 x1) := by
  unfold modMxK; (try dsimp only)
  repeat' (first | (simp [SameMem, Result.All, Out.All, McUnit.All, *]; done) | split)

@[simp] theorem pushFormat_same (w) (s : State) : (pushFormat w s).All (SameMem s) := by
  unfold pushFormat
  repeat' (first | (simp [SameMem, Result.All]; done) | split)

@[simp] theorem acknowledge_same (x0 : State) : SameMem x0 (acknowledge x0) := by
  unfold acknowledge; (try dsimp only)
  repeat' (first | (simp [SameMem, Result.All, Out.All, McUnit.All, *]; done) | split)

@[simp] theorem execTlbInvalidate_same (x0 : Nat) (x1 : Nat) (x2 : Option PageEntry) (x3 : State) : Out.All (SameMem x3) (execTlbInvalidate x0 x1 x2 x3) := by
  unfold execTlbInvalidate; (try dsimp only)
  repeat' (first | (simp [SameMem, Result.All, Out.All, McUnit.All, *]; done) | split)

@[simp] theorem touchOwner_same (x0 : State) : SameMem x0 (touchOwner x0) := by
  unfold touchOwner; (try dsimp only)
  repeat' (first | (simp [SameMem, Result.All, Out.All, McUnit.All, *]; done) | split)

@[simp] theorem execBeat_same (x0 : BitVec 24) (x1 : State) : Out.All (SameMem x1) (execBeat x0 x1) := by
  unfold execBeat; (try dsimp only)
  repeat' (first | (simp [SameMem, Result.All, Out.All, McUnit.All, *]; done) | split)

@[simp] theorem setMc_same (x0 : Mce) (x1 : State) : SameMem x1 (setMc x0 x1) := by
  unfold setMc; (try dsimp only)
  repeat' (first | (simp [SameMem, Result.All, Out.All, McUnit.All, *]; done) | split)

@[simp] theorem modMc_same (x0 : Mce → Mce) (x1 : State) : SameMem x1 (modMc x0 x1) := by
  unfold modMc; (try dsimp only)
  repeat' (first | (simp [SameMem, Result.All, Out.All, McUnit.All, *]; done) | split)

theorem mcGate_wait {s s1 : State} (h : mcGate s = .wait s1) : SameMem s s1 := by
  unfold mcGate at h
  repeat' (first | (cases h; done) | (cases h; simp [SameMem]; done) | split at h)

theorem mcGate_raise {s s1 : State} {t} (h : mcGate s = .raise s1 t) : SameMem s s1 := by
  unfold mcGate at h
  repeat' (first | (cases h; done) | (cases h; simp [SameMem]; done) | split at h)

theorem rstGate_wait {s s1 : State} (h : rstGate s = .wait s1) : SameMem s s1 := by
  unfold rstGate at h
  repeat' (first | (cases h; done) | exact mcGate_wait h | split at h)

theorem rstGate_raise {s s1 : State} {t} (h : rstGate s = .raise s1 t) : SameMem s s1 := by
  unfold rstGate at h
  repeat' (first | (cases h; done) | exact mcGate_raise h | split at h)

@[simp] theorem mxIssue_same (x0 : List MCmd) (x1 : MxK → MxK) (x2 : State) : Result.All (SameMem x2) (mxIssue x0 x1 x2) := by
  unfold mxIssue; (try dsimp only)
  repeat' (first | (simp [SameMem, Result.All, Out.All, McUnit.All, *]; done) | split)

@[simp] theorem touchGuards_same (x0 : Nat) (x1 : Nat) (x2 : Nat) (x3 : State) : SameMem x3 (touchGuards x0 x1 x2 x3) := by
  unfold touchGuards; (try dsimp only)
  repeat' (first | (simp [SameMem, Result.All, Out.All, McUnit.All, *]; done) | split)

@[simp] theorem touchElems_same (img d i n) (s : State) : SameMem s (touchElems img d i n s) := by
  induction n generalizing i s with
  | zero => simp [SameMem, touchElems]
  | succ n ih =>
    unfold touchElems; dsimp only
    split
    · simp [SameMem]
    · exact SameMem.trans (touchGuards_same _ _ _ _) (ih _ _)

@[simp] theorem Win.touch_same (x0 : Win) (x1 : Nat) (x2 : Nat) (x3 : State) : SameMem x3 (Win.touch x0 x1 x2 x3) := by
  unfold Win.touch; (try dsimp only)
  repeat' (first | (simp [SameMem, Result.All, Out.All, McUnit.All, *]; done) | split)

@[simp] theorem seedChannel_same (x0 : Nat) (x1 : Noise) (x2 : Bool) (x3 : State) : SameMem x3 (seedChannel x0 x1 x2 x3).2 := by
  unfold seedChannel; (try dsimp only)
  repeat' (first | (simp [SameMem, Result.All, Out.All, McUnit.All, *]; done) | split)

@[simp] theorem drawFrom_same (x0 : Nat) (x1 : Noise) (x2 : Bool) (x3 : Nat) (x4 : State) : SameMem x4 (drawFrom x0 x1 x2 x3 x4).2.2 := by
  unfold drawFrom; (try dsimp only)
  repeat' (first | (simp [SameMem, Result.All, Out.All, McUnit.All, *]; done) | split)

@[simp] theorem drawNoise_same (x0 : Fin 5) (x1 : Nat) (x2 : State) : SameMem x2 (drawNoise x0 x1 x2).2 := by
  unfold drawNoise; (try dsimp only)
  repeat' (first | (simp [SameMem, Result.All, Out.All, McUnit.All, *]; done) | split)

@[simp] theorem noFirst_same (x0 : List Win) (x1 : List Elem) (x2 : VProg) (x3 : State) : SameMem x3 (noFirst x0 x1 x2 x3).2 := by
  unfold noFirst; (try dsimp only)
  repeat' (first | (simp [SameMem, Result.All, Out.All, McUnit.All, *]; done) | split)

@[simp] theorem noScalars_same (x0 : VProg) (x1 : State) : SameMem x1 (noScalars x0 x1).2 := by
  unfold noScalars; (try dsimp only)
  repeat' (first | (simp [SameMem, Result.All, Out.All, McUnit.All, *]; done) | split)

@[simp] theorem touchAll_same (x0 : List Win) (x1 : Nat) (x2 : Nat) (x3 : State) : SameMem x3 (touchAll x0 x1 x2 x3) := by
  unfold touchAll; (try dsimp only)
  repeat' (first | (simp [SameMem, Result.All, Out.All, McUnit.All, *]; done) | split)

@[simp] theorem holdUntil_same (x0 : Nat) (x1 : State) : SameMem x1 (holdUntil x0 x1) := by
  unfold holdUntil; (try dsimp only)
  repeat' (first | (simp [SameMem, Result.All, Out.All, McUnit.All, *]; done) | split)

@[simp] theorem setProg_same (x0 : VProg) (x1 : State) : SameMem x1 (setProg x0 x1) := by
  unfold setProg; (try dsimp only)
  repeat' (first | (simp [SameMem, Result.All, Out.All, McUnit.All, *]; done) | split)

@[simp] theorem askWith_same (x0 : Nat → Action) (x1 : State) : SameMem x1 (askWith x0 x1) := by
  unfold askWith; (try dsimp only)
  repeat' (first | (simp [SameMem, Result.All, Out.All, McUnit.All, *]; done) | split)

@[simp] theorem rememberAll_same (x0 : List (Nat × Word)) (x1 : Nat) (x2 : Ctx) : (rememberAll x0 x1 x2).imem = x2.imem := by
  unfold rememberAll; (try dsimp only)
  repeat' (first | (simp [SameMem, Result.All, Out.All, McUnit.All, *]; done) | split)

@[simp] theorem remember_same (x0 : Nat) (x1 : Word) (x2 : Nat) (x3 : Ctx) : (remember x0 x1 x2 x3).imem = x3.imem := by
  unfold remember; (try dsimp only)
  repeat' (first | (simp [SameMem, Result.All, Out.All, McUnit.All, *]; done) | split)

@[simp] theorem ctxSetReg_same (x0 : BitVec 6) (x1 : Word) (x2 : Nat) (x3 : Nat) (x4 : Ctx) : (ctxSetReg x0 x1 x2 x3 x4).imem = x4.imem := by
  unfold ctxSetReg; (try dsimp only)
  repeat' (first | (simp [SameMem, Result.All, Out.All, McUnit.All, *]; done) | split)

@[simp] theorem setReg_same (x0 : BitVec 6) (x1 : Word) (x2 : Nat) (x3 : State) : SameMem x3 (setReg x0 x1 x2 x3) := by
  unfold setReg; (try dsimp only)
  repeat' (first | (simp [SameMem, Result.All, Out.All, McUnit.All, *]; done) | split)

@[simp] theorem writeReg_same (x0 : BitVec 6) (x1 : Word) (x2 : Nat) (x3 : State) : Result.All (SameMem x3) (writeReg x0 x1 x2 x3) := by
  unfold writeReg; (try dsimp only)
  repeat' (first | (simp [SameMem, Result.All, Out.All, McUnit.All, *]; done) | split)

@[simp] theorem crValue_same (d r) (s : State) : (crValue d r s).All (SameMem s) := by
  unfold crValue; exact writeReg_same _ _ _ _

@[simp] theorem waitToLoad_same (sp ss ac) (s : State) : (waitToLoad sp ss ac s).All (SameMem s) := by
  unfold waitToLoad; split <;> simp [SameMem, Result.All]

theorem readBlock_same {a n} {s : State} {b} {s1 : State} (h : readBlock a n s = .ok (b, s1)) : SameMem s s1 := by
  unfold readBlock at h
  split at h
  · cases h
  · split at h
    · cases h
    · split at h
      · cases h
      · split at h
        · cases h
        · cases h; split <;> simp [SameMem]

theorem readBlock_error {a n} {s : State} {r : Result} (h : readBlock a n s = .error r) : r.All (SameMem s) := by
  unfold readBlock at h
  repeat' (first | (cases h; done) | (cases h; exact waitToLoad_same ..) | (cases h; simp [SameMem, Result.All]; done) | split at h)

@[simp] theorem clearAsk_same (x0 : State) : SameMem x0 (clearAsk x0) := by
  unfold clearAsk; (try dsimp only)
  repeat' (first | (simp [SameMem, Result.All, Out.All, McUnit.All, *]; done) | split)

@[simp] theorem takeReply_same (w ok) (s : State) (hw : ∀ s, (w s).All (SameMem s)) (ho : ∀ r s, (ok r s).All (SameMem s)) :
    (takeReply w ok s).All (SameMem s) := by
  unfold takeReply
  split
  · exact hw s
  · split
    · split
      · exact hw s
      · simp [SameMem, Result.All]
    · exact (ho _ _).mono (fun u hu => (clearAsk_same s).trans hu)

@[simp] theorem noteEgress_same (x0 : State) : SameMem x0 (noteEgress x0) := by
  unfold noteEgress; (try dsimp only)
  repeat' (first | (simp [SameMem, Result.All, Out.All, McUnit.All, *]; done) | split)

@[simp] theorem egressOf_same (x0 : Bool) (x1 : State) : SameMem x1 (egressOf x0 x1) := by
  unfold egressOf; (try dsimp only)
  repeat' (first | (simp [SameMem, Result.All, Out.All, McUnit.All, *]; done) | split)

@[simp] theorem snoop_same (x0 : List Seg) (x1 : State) : SameMem x1 (snoop x0 x1) := by
  unfold snoop; (try dsimp only)
  repeat' (first | (simp [SameMem, Result.All, Out.All, McUnit.All, *]; done) | split)

@[simp] theorem spadPoison_same (x0 : Nat) (x1 : Nat) (x2 : State) : SameMem x2 (spadPoison x0 x1 x2) := by
  unfold spadPoison; (try dsimp only)
  repeat' (first | (simp [SameMem, Result.All, Out.All, McUnit.All, *]; done) | split)

@[simp] theorem modFx_same (x0 : Fx → Fx) (x1 : State) : SameMem x1 (modFx x0 x1) := by
  unfold modFx; (try dsimp only)
  repeat' (first | (simp [SameMem, Result.All, Out.All, McUnit.All, *]; done) | split)

@[simp] theorem takeTsat_same (x0 : Word) (x1 : State) : SameMem x1 (takeTsat x0 x1) := by
  unfold takeTsat; (try dsimp only)
  repeat' (first | (simp [SameMem, Result.All, Out.All, McUnit.All, *]; done) | split)

@[simp] theorem touchTile_same (x0 : Nat) (x1 : HRec) (x2 : State) : SameMem x2 (touchTile x0 x1 x2) := by
  unfold touchTile; (try dsimp only)
  repeat' (first | (simp [SameMem, Result.All, Out.All, McUnit.All, *]; done) | split)

@[simp] theorem egressAsk_same (x0 : EgressUser) (x1 : Nat) (x2 : Nat) (x3 : State) : SameMem x3 (egressAsk x0 x1 x2 x3) := by
  unfold egressAsk; (try dsimp only)
  repeat' (first | (simp [SameMem, Result.All, Out.All, McUnit.All, *]; done) | split)

@[simp] theorem egressDone_same (x0 : EgressUser) (x1 x2 : Nat) (x3 : State) : SameMem x3 (egressDone x0 x1 x2 x3) := by
  unfold egressDone; (try dsimp only)
  repeat' (first | (simp [SameMem, Result.All, Out.All, McUnit.All, *]; done) | split)

@[simp] theorem setTlb_same (x0 : TlbAgent) (x1 : List PageEntry) (x2 : State) : SameMem x2 (setTlb x0 x1 x2) := by
  unfold setTlb; (try dsimp only)
  repeat' (first | (simp [SameMem, Result.All, Out.All, McUnit.All, *]; done) | split)

@[simp] theorem tlbLoad_same (x0 : TlbAgent) (x1 : PageEntry) (x2 : State) : SameMem x2 (tlbLoad x0 x1 x2) := by
  unfold tlbLoad; (try dsimp only)
  repeat' (first | (simp [SameMem, Result.All, Out.All, McUnit.All, *]; done) | split)

@[simp] theorem tlbUse_same (x0 : TlbAgent) (x1 : List Piece) (x2 : State) : SameMem x2 (tlbUse x0 x1 x2) := by
  unfold tlbUse; (try dsimp only)
  repeat' (first | (simp [SameMem, Result.All, Out.All, McUnit.All, *]; done) | split)

@[simp] theorem qRelease_same (x0 : Fin 20) (x1 : Nat) (x2 : State) : SameMem x2 (qRelease x0 x1 x2) := by
  unfold qRelease; (try dsimp only)
  repeat' (first | (simp [SameMem, Result.All, Out.All, McUnit.All, *]; done) | split)

@[simp] theorem fireWfe_same (x0 : Ctx) : (fireWfe x0).imem = x0.imem := by
  unfold fireWfe; (try dsimp only)
  repeat' (first | (simp [SameMem, Result.All, Out.All, McUnit.All, *]; done) | split)

@[simp] theorem portPut_same (x0 : Port) (x1 : Word) (x2 : State) : SameMem x2 (portPut x0 x1 x2) := by
  unfold portPut; (try dsimp only)
  repeat' (first | (simp [SameMem, Result.All, Out.All, McUnit.All, *]; done) | split)

@[simp] theorem portEvent_same (x0 : Port) (x1 : Nat) (x2 : Word) (x3 : State) : SameMem x3 (portEvent x0 x1 x2 x3) := by
  unfold portEvent; (try dsimp only)
  repeat' (first | (simp [SameMem, Result.All, Out.All, McUnit.All, *]; done) | split)

@[simp] theorem mEvent_same (x0 : Nat) (x1 : Nat) (x2 : BitVec 11) (x3 : Nat) (x4 : State) : SameMem x4 (mEvent x0 x1 x2 x3 x4) := by
  unfold mEvent; (try dsimp only)
  repeat' (first | (simp [SameMem, Result.All, Out.All, McUnit.All, *]; done) | split)

@[simp] theorem clearTouch_same (x0 : State) : SameMem x0 (clearTouch x0) := by
  unfold clearTouch; (try dsimp only)
  repeat' (first | (simp [SameMem, Result.All, Out.All, McUnit.All, *]; done) | split)

@[simp] theorem barDone_same (x0 : Bool) (x1 : State) : Result.All (SameMem x1) (barDone x0 x1) := by
  unfold barDone; (try dsimp only)
  repeat' (first | (simp [SameMem, Result.All, Out.All, McUnit.All, *]; done) | split)

@[simp] theorem crBody_same (c op ok) (s : State) (ho : ∀ r s, (ok r s).All (SameMem s)) :
    (crBody c op ok s).All (SameMem s) := by
  unfold crBody
  split
  · exact takeReply_same _ _ _ (by intro s; simp [SameMem, Result.All]) ho
  · split
    · trivial
    · split <;> simp [SameMem, Result.All]

@[simp] theorem attention_same (x0 : Word) (x1 : State) : SameMem x1 (attention x0 x1) := by
  unfold attention; (try dsimp only)
  repeat' (first | (simp [SameMem, Result.All, Out.All, McUnit.All, *]; done) | split)

@[simp] theorem execAttn_same (x0 : BitVec 64) (x1 : State) : Out.All (SameMem x1) (execAttn x0 x1) := by
  unfold execAttn; (try dsimp only)
  repeat' (first | (simp [SameMem, Result.All, Out.All, McUnit.All, *]; done) | split)

@[simp] theorem markBusy_same (x0 : BitVec 6) (x1 : Nat) (x2 : Ctx) : (markBusy x0 x1 x2).imem = x2.imem := by
  unfold markBusy; (try dsimp only)
  repeat' (first | (simp [SameMem, Result.All, Out.All, McUnit.All, *]; done) | split)

@[simp] theorem tideOne_same (x0 : Nat) (x1 : Nat) (x2 : Nat) (x3 : List Byte) (x4 : List Nat) (x5 : State) : SameMem x5 (tideOne x0 x1 x2 x3 x4 x5) := by
  unfold tideOne; (try dsimp only)
  repeat' (first | (simp [SameMem, Result.All, Out.All, McUnit.All, *]; done) | split)

@[simp] theorem tideRest_same (a n k b) (s : State) : SameMem s (tideRest a n k b s) := by
  induction n generalizing k b s with
  | zero => simp [SameMem, tideRest]
  | succ n ih => unfold tideRest; exact (tideOne_same _ _ _ _ _ _).trans (ih _ _ _)

@[simp] theorem tidePut_same (x0 : Nat) (x1 : Nat) (x2 : List Nat) (x3 : List Byte) (x4 : State) : SameMem x4 (tidePut x0 x1 x2 x3 x4) := by
  unfold tidePut; (try dsimp only)
  repeat' (first | (simp [SameMem, Result.All, Out.All, McUnit.All, *]; done) | split)

@[simp] theorem tideAdd_same (x0 : Nat) (x1 : Nat) (x2 : List Nat) (x3 : State) : SameMem x3 (tideAdd x0 x1 x2 x3) := by
  unfold tideAdd; (try dsimp only)
  repeat' (first | (simp [SameMem, Result.All, Out.All, McUnit.All, *]; done) | split)

@[simp] theorem giveUp_same (x0 : State) : SameMem x0 (giveUp x0) := by
  unfold giveUp; (try dsimp only)
  repeat' (first | (simp [SameMem, Result.All, Out.All, McUnit.All, *]; done) | split)

@[simp] theorem decideClaim_same (m : BitVec 24) (n : Option (BitVec 32)) (s : State) : SameMem s (decideClaim m n s) := by
  unfold decideClaim; (try dsimp only)
  repeat' (first | (simp [SameMem, Result.All, Out.All, McUnit.All, *]; done) | split)

@[simp] theorem decideClaims_same (l : List (BitVec 24 × Option (BitVec 32))) (s : State) : SameMem s (decideClaims l s) := by
  induction l generalizing s with
  | nil => simp [SameMem, decideClaims]
  | cons p l ih =>
    unfold decideClaims
    split
    · exact (decideClaim_same ..).trans (ih _)
    · simp [SameMem]

@[simp] theorem arriveClaim_same (m : BitVec 24) (n : Option (BitVec 32)) (s : State) : SameMem s (arriveClaim m n s) := by
  unfold arriveClaim
  split <;> simp [SameMem]

@[simp] theorem noteLicence_same (x0 : Into) (x1 : List Seg) (x2 : State) : SameMem x2 (noteLicence x0 x1 x2) := by
  unfold noteLicence; (try dsimp only)
  repeat' (first | (simp [SameMem, Result.All, Out.All, McUnit.All, *]; done) | split)

@[simp] theorem modCp_same (x0 : Cp → Cp) (x1 : State) : SameMem x1 (modCp x0 x1) := by
  unfold modCp; (try dsimp only)
  repeat' (first | (simp [SameMem, Result.All, Out.All, McUnit.All, *]; done) | split)

@[simp] theorem takeCp_same (x0 : CpCmd) (x1 : State) : SameMem x1 (takeCp x0 x1) := by
  unfold takeCp; (try dsimp only)
  repeat' (first | (simp [SameMem, Result.All, Out.All, McUnit.All, *]; done) | split)

@[simp] theorem takeQueued_same (x0 : Bool) (x1 : List Word) (x2 : State) : SameMem x2 (takeQueued x0 x1 x2) := by
  unfold takeQueued; (try dsimp only)
  repeat' (first | (simp [SameMem, Result.All, Out.All, McUnit.All, *]; done) | split)

@[simp] theorem deliver_same (x0 : Nat) (x1 : Nat) (x2 : Nat) (x3 : List Word) (x4 : State) : SameMem x4 (deliver x0 x1 x2 x3 x4) := by
  unfold deliver; (try dsimp only)
  repeat' (first | (simp [SameMem, Result.All, Out.All, McUnit.All, *]; done) | split)

@[simp] theorem takeBlocks_same (l) (s : State) : SameMem s (takeBlocks l s) := by
  induction l generalizing s with
  | nil => simp [SameMem, takeBlocks]
  | cons b t ih =>
    unfold takeBlocks
    split
    · refine SameMem.trans ?_ (ih _)
      simp [SameMem]
    · exact ih _

@[simp] theorem arriveBlocks_same (x0 : State) : SameMem x0 (arriveBlocks x0) := by
  unfold arriveBlocks; (try dsimp only)
  repeat' (first | (simp [SameMem, Result.All, Out.All, McUnit.All, *]; done) | split)

@[simp] theorem modKv_same (x0 : Kv → Kv) (x1 : State) : SameMem x1 (modKv x0 x1) := by
  unfold modKv; (try dsimp only)
  repeat' (first | (simp [SameMem, Result.All, Out.All, McUnit.All, *]; done) | split)

@[simp] theorem dropHandle_same (x0 : Nat) (x1 : Nat) (x2 : State) : SameMem x2 (dropHandle x0 x1 x2) := by
  unfold dropHandle; (try dsimp only)
  repeat' (first | (simp [SameMem, Result.All, Out.All, McUnit.All, *]; done) | split)

@[simp] theorem addReply_same (x0 : Reply) (x1 : State) : SameMem x1 (addReply x0 x1) := by
  unfold addReply; (try dsimp only)
  repeat' (first | (simp [SameMem, Result.All, Out.All, McUnit.All, *]; done) | split)

@[simp] theorem kvReply_same (x0 : KvReq) (x1 : Nat) (x2 : Nat) (x3 : State) : SameMem x3 (kvReply x0 x1 x2 x3) := by
  unfold kvReply; (try dsimp only)
  repeat' (first | (simp [SameMem, Result.All, Out.All, McUnit.All, *]; done) | split)

@[simp] theorem putHandle_same (x0 : KvHandle) (x1 : State) : SameMem x1 (putHandle x0 x1) := by
  unfold putHandle; (try dsimp only)
  repeat' (first | (simp [SameMem, Result.All, Out.All, McUnit.All, *]; done) | split)

theorem pickFree_same {l} {s : State} {n} {s1 : State} (h : pickFree l s = some (n, s1)) : SameMem s s1 := by
  unfold pickFree at h
  split at h
  · cases h
  · cases h; simp [SameMem]

@[simp] theorem takePages_same (n) (s : State) : SameMem s (takePages n s).2 := by
  induction n generalizing s with
  | zero => simp [SameMem, takePages]
  | succ n ih =>
    unfold takePages
    split
    · simp [SameMem]
    · rename_i h
      exact (pickFree_same h).trans ((modKv_same _ _).trans (ih _))

@[simp] theorem modNode_same (x0 : Nat) (x1 : KvNode → KvNode) (x2 : State) : SameMem x2 (modNode x0 x1 x2) := by
  unfold modNode; (try dsimp only)
  repeat' (first | (simp [SameMem, Result.All, Out.All, McUnit.All, *]; done) | split)

@[simp] theorem acquireNodes_same (x0 : List KvNode) (x1 : State) : SameMem x1 (acquireNodes x0 x1) := by
  unfold acquireNodes; (try dsimp only)
  repeat' (first | (simp [SameMem, Result.All, Out.All, McUnit.All, *]; done) | split)

@[simp] theorem evictNodes_same (c n) (s : State) : SameMem s (evictNodes c n s).2 := by
  induction n generalizing s with
  | zero => simp [SameMem, evictNodes]
  | succ n ih =>
    unfold evictNodes
    split
    · simp [SameMem]
    · exact (modKv_same _ _).trans (ih _)

@[simp] theorem freePages_same (c n l) (s : State) : SameMem s (freePages c n l s).2 := by
  induction l generalizing s with
  | nil => simp [SameMem, freePages]
  | cons p t ih =>
    have h (s : State) := ih s
    simp only [SameMem] at h
    unfold freePages; dsimp only
    repeat' (first | (simp [SameMem, h]; done) | split)

@[simp] theorem insertNodes_same (c p b g) (s : State) : SameMem s (insertNodes c p b g s).2 := by
  induction b generalizing p g s with
  | nil => simp [SameMem, insertNodes]
  | cons x t ih =>
    cases g with
    | nil => simp [SameMem, insertNodes]
    | cons y u =>
      unfold insertNodes
      split
      · simp [SameMem]
      · rename_i h
        exact (pickFree_same h).trans ((modKv_same _ _).trans (ih _ _ _))

@[simp] theorem refNode_same (x0 : Nat) (x1 : Bool) (x2 : Nat) (x3 : State) : SameMem x3 (refNode x0 x1 x2 x3).2 := by
  unfold refNode; (try dsimp only)
  repeat' (first | (simp [SameMem, Result.All, Out.All, McUnit.All, *]; done) | split)

@[simp] theorem refNodes_same (c n l) (s : State) : SameMem s (refNodes c n l s).2 := by
  induction l generalizing s with
  | nil => simp [SameMem, refNodes]
  | cons p t ih => unfold refNodes; exact (refNode_same _ _ _ _).trans (ih _)

@[simp] theorem releaseHandle_same (x0 : Nat) (x1 : Nat) (x2 : State) : SameMem x2 (releaseHandle x0 x1 x2) := by
  unfold releaseHandle; (try dsimp only)
  repeat' (first | (simp [SameMem, Result.All, Out.All, McUnit.All, *]; done) | split)

@[simp] theorem modCr_same (x0 : Crypto → Crypto) (x1 : State) : SameMem x1 (modCr x0 x1) := by
  unfold modCr; (try dsimp only)
  repeat' (first | (simp [SameMem, Result.All, Out.All, McUnit.All, *]; done) | split)

@[simp] theorem extendMeas_same (x0 : BitVec 3) (x1 : List Byte) (x2 : State) : SameMem x2 (extendMeas x0 x1 x2) := by
  unfold extendMeas; (try dsimp only)
  repeat' (first | (simp [SameMem, Result.All, Out.All, McUnit.All, *]; done) | split)

@[simp] theorem fillAccs_same (x0 : List Nat) (x1 : Mx → Nat → Acc) (x2 : State) : SameMem x2 (fillAccs x0 x1 x2) := by
  unfold fillAccs; (try dsimp only)
  repeat' (first | (simp [SameMem, Result.All, Out.All, McUnit.All, *]; done) | split)

@[simp] theorem poisonAccs_same (x0 : List Nat) (x1 : State) : SameMem x1 (poisonAccs x0 x1) := by
  unfold poisonAccs; (try dsimp only)
  repeat' (first | (simp [SameMem, Result.All, Out.All, McUnit.All, *]; done) | split)

@[simp] theorem lastingError_same (x0 : List Nat) (x1 : Cause) (x2 : BitVec 11) (x3 : Nat) (x4 : State) : SameMem x4 (lastingError x0 x1 x2 x3 x4) := by
  unfold lastingError; (try dsimp only)
  repeat' (first | (simp [SameMem, Result.All, Out.All, McUnit.All, *]; done) | split)

@[simp] theorem stepArith_same (x0 : MStep) (x1 : State) : SameMem x1 (stepArith x0 x1) := by
  unfold stepArith; (try dsimp only)
  repeat' (first | (simp [SameMem, Result.All, Out.All, McUnit.All, *]; done) | split)

@[simp] theorem zeroAccs_same (x0 : List Nat) (x1 : State) : SameMem x1 (zeroAccs x0 x1) := by
  unfold zeroAccs; (try dsimp only)
  repeat' (first | (simp [SameMem, Result.All, Out.All, McUnit.All, *]; done) | split)

@[simp] theorem execClockThrottle_same (x0 : Bool) (x1 : State) : Out.All (SameMem x1) (execClockThrottle x0 x1) := by
  unfold execClockThrottle; (try dsimp only)
  repeat' (first | (simp [SameMem, Result.All, Out.All, McUnit.All, *]; done) | split)

@[simp] theorem mcBody_same (s : State) (f) (hf : ∀ c, (f c).All (SameMem s)) : (mcBody s f).All (SameMem s) := by
  unfold mcBody
  split
  · rename_i h; exact mcGate_wait h
  · rename_i h; exact mcGate_raise h
  · split
    · trivial
    · exact hf _

@[simp] theorem mcIssue_same (x0 : McOp) (x1 : Bool) (x2 : BitVec 11) (x3 : State) : Result.All (SameMem x3) (mcIssue x0 x1 x2 x3) := by
  unfold mcIssue; (try dsimp only)
  repeat' (first | (simp [SameMem, Result.All, Out.All, McUnit.All, *]; done) | split)

@[simp] theorem submitOne_same (c) (s : State) : SameMem s (submitOne c s) := by
  obtain ⟨op, r, e, t⟩ := c
  cases op <;> simp only [submitOne] <;> (try split) <;> exact modMx_same _ _

@[simp] theorem submit_same (x0 : List MCmd) (x1 : State) : SameMem x1 (submit x0 x1) := by
  unfold submit; (try dsimp only)
  repeat' (first | (simp [SameMem, Result.All, Out.All, McUnit.All, *]; done) | split)

@[simp] theorem ctxSetPred_same (x0 : BitVec 4) (x1 : Bool) (x2 : Ctx) : (ctxSetPred x0 x1 x2).imem = x2.imem := by
  unfold ctxSetPred; (try dsimp only)
  repeat' (first | (simp [SameMem, Result.All, Out.All, McUnit.All, *]; done) | split)

@[simp] theorem setPred_same (x0 : BitVec 4) (x1 : Bool) (x2 : State) : SameMem x2 (setPred x0 x1 x2) := by
  unfold setPred; (try dsimp only)
  repeat' (first | (simp [SameMem, Result.All, Out.All, McUnit.All, *]; done) | split)

@[simp] theorem compareOp_same (pd os f) (s : State) : (compareOp pd os f s).All (SameMem s) := by
  unfold compareOp
  cases h : sources os s with
  | error e => cases e <;> simp [SameMem, stallResult, Result.All]
  | ok p => obtain ⟨vs, s1⟩ := p; have := sources_same h; simp only [SameMem] at this; simp [SameMem, Result.All, this]

@[simp] theorem dropSlots_same (x0 : List Nat) (x1 : State) : SameMem x1 (dropSlots x0 x1) := by
  unfold dropSlots; (try dsimp only)
  repeat' (first | (simp [SameMem, Result.All, Out.All, McUnit.All, *]; done) | split)

@[simp] theorem setLc_same (x0 : BitVec 3) (x1 : BitVec 32) (x2 : State) : SameMem x2 (setLc x0 x1 x2) := by
  unfold setLc; (try dsimp only)
  repeat' (first | (simp [SameMem, Result.All, Out.All, McUnit.All, *]; done) | split)

@[simp] theorem crDone_same (x0 : Reply) (x1 : State) : Result.All (SameMem x1) (crDone x0 x1) := by
  unfold crDone; (try dsimp only)
  repeat' (first | (simp [SameMem, Result.All, Out.All, McUnit.All, *]; done) | split)

@[simp] theorem rotateDown_same (x0 : State) : SameMem x0 (rotateDown x0) := by
  unfold rotateDown; (try dsimp only)
  repeat' (first | (simp [SameMem, Result.All, Out.All, McUnit.All, *]; done) | split)

@[simp] theorem execWfeTimeout_same (x0 : Issuer) (x1 : State) : Out.All (SameMem x1) (execWfeTimeout x0 x1) := by
  unfold execWfeTimeout; (try dsimp only)
  repeat' (first | (simp [SameMem, Result.All, Out.All, McUnit.All, *]; done) | split)

@[simp] theorem setQueue_same (x0 : Nat) (x1 : Nat) (x2 : HostQueue) (x3 : State) : SameMem x3 (setQueue x0 x1 x2 x3) := by
  unfold setQueue; (try dsimp only)
  repeat' (first | (simp [SameMem, Result.All, Out.All, McUnit.All, *]; done) | split)

@[simp] theorem takeFx_same (x0 : FxCmd) (x1 : State) : SameMem x1 (takeFx x0 x1) := by
  unfold takeFx; (try dsimp only)
  repeat' (first | (simp [SameMem, Result.All, Out.All, McUnit.All, *]; done) | split)

@[simp] theorem occupy_same (x0 : Nat) (x1 : List (Fin 768 × Elem)) (x2 : State) : Result.All (SameMem x2) (occupy x0 x1 x2) := by
  unfold occupy; (try dsimp only)
  repeat' (first | (simp [SameMem, Result.All, Out.All, McUnit.All, *]; done) | split)

@[simp] theorem setRowFlag_same (x0 : Nat) (x1 : State) : SameMem x1 (setRowFlag x0 x1) := by
  unfold setRowFlag; (try dsimp only)
  repeat' (first | (simp [SameMem, Result.All, Out.All, McUnit.All, *]; done) | split)

theorem foldl_pair_same {α β : Type} (f : β × State → α → β × State) (h : ∀ p a, SameMem p.2 (f p a).2) (l : List α) (p : β × State) :
    SameMem p.2 (l.foldl f p).2 := by
  induction l generalizing p with
  | nil => simp [SameMem]
  | cons a t ih => exact (h p a).trans (ih (f p a))

@[simp] theorem nonceBytes_same (s : State) : SameMem s (nonceBytes s).2 := by
  unfold nonceBytes
  exact foldl_pair_same (β := List Byte) _ (fun p a => drawNoise_same _ _ _) _ ([], s)

@[simp] theorem spdmAnswer_same (x0 : List Byte) (x1 : State) (x2 : SpdmReq) : SameMem x1 (spdmAnswer x0 x1 x2).2 := by
  unfold spdmAnswer; (try dsimp only)
  repeat' (first | (simp [SameMem, Result.All, Out.All, McUnit.All, *]; done) | split)

@[simp] theorem accFix_same (x0 : Nat) (x1 : State) : SameMem x1 (accFix x0 x1).2 := by
  unfold accFix; (try dsimp only)
  repeat' (first | (simp [SameMem, Result.All, Out.All, McUnit.All, *]; done) | split)

@[simp] theorem accsFix_same (l) (s : State) : SameMem s (accsFix l s).2 := by
  induction l generalizing s with
  | nil => simp [SameMem, accsFix]
  | cons p t ih => unfold accsFix; exact (accFix_same _ _).trans (ih _)

@[simp] theorem transientError_same (x0 : List Nat) (x1 : BitVec 11) (x2 : Nat) (x3 : State) : SameMem x3 (transientError x0 x1 x2 x3) := by
  unfold transientError; (try dsimp only)
  repeat' (first | (simp [SameMem, Result.All, Out.All, McUnit.All, *]; done) | split)

@[simp] theorem setFur_same (x0 : Fin 16) (x1 : Furrow) (x2 : State) : SameMem x2 (setFur x0 x1 x2) := by
  unfold setFur; (try dsimp only)
  repeat' (first | (simp [SameMem, Result.All, Out.All, McUnit.All, *]; done) | split)

@[simp] theorem setLive_same (x0 : Fin 16) (x1 : Nat) (x2 : Bool) (x3 : State) : SameMem x3 (setLive x0 x1 x2 x3) := by
  unfold setLive; (try dsimp only)
  repeat' (first | (simp [SameMem, Result.All, Out.All, McUnit.All, *]; done) | split)

@[simp] theorem popTile_same (x0 : Fin 16) (x1 : State) : SameMem x1 (popTile x0 x1) := by
  unfold popTile; (try dsimp only)
  repeat' (first | (simp [SameMem, Result.All, Out.All, McUnit.All, *]; done) | split)

@[simp] theorem takeTile_same (f) (s : State) : SameMem s (takeTile f s) := by
  unfold takeTile; simp [SameMem]

@[simp] theorem clearClaims_same (f) (s : State) : SameMem s (clearClaims f s) := by simp [clearClaims, SameMem]

@[simp] theorem popTiles_same (f n) (s : State) : SameMem s (popTiles f n s) := by
  induction n generalizing s with
  | zero => simp [SameMem, popTiles]
  | succ n ih => unfold popTiles; exact (takeTile_same _ _).trans (ih _)

@[simp] theorem retire_same (x0 : Fin 16 × Nat) (x1 : State) : SameMem x1 (retire x0 x1) := by
  unfold retire; (try dsimp only)
  repeat' (first | (simp [SameMem, Result.All, Out.All, McUnit.All, *]; done) | split)

@[simp] theorem tideTh_same (x0 : TitheReq) (x1 : Cause) (x2 : Nat) (x3 : Nat) (x4 : State) : SameMem x4 (tideTh x0 x1 x2 x3 x4) := by
  unfold tideTh; (try dsimp only)
  repeat' (first | (simp [SameMem, Result.All, Out.All, McUnit.All, *]; done) | split)

@[simp] theorem mcEvent_same (x0 : Nat) (x1 : Nat) (x2 : BitVec 11) (x3 : State) : SameMem x3 (mcEvent x0 x1 x2 x3) := by
  unfold mcEvent; (try dsimp only)
  repeat' (first | (simp [SameMem, Result.All, Out.All, McUnit.All, *]; done) | split)

@[simp] theorem setSlot_same (x0 : Nat) (x1 : McMap) (x2 : State) : SameMem x2 (setSlot x0 x1 x2) := by
  unfold setSlot; (try dsimp only)
  repeat' (first | (simp [SameMem, Result.All, Out.All, McUnit.All, *]; done) | split)

theorem mcSource_same {n t} {s : State} {v} {s1 : State} (h : mcSource n t s = .ok (v, s1)) : SameMem s s1 := by
  unfold mcSource at h
  repeat' (first | (cases h; done) | (cases h; simp [SameMem]; done) | split at h)

@[simp] theorem execSchedRestart_same (x0 : Nat) (x1 : State) : Out.All (SameMem x1) (execSchedRestart x0 x1) := by
  unfold execSchedRestart; (try dsimp only)
  repeat' (first | (simp [SameMem, Result.All, Out.All, McUnit.All, *]; done) | split)

@[simp] theorem titheAsk_same (x0 : TitheOp) (x1 : State) : SameMem x1 (titheAsk x0 x1) := by
  unfold titheAsk; (try dsimp only)
  repeat' (first | (simp [SameMem, Result.All, Out.All, McUnit.All, *]; done) | split)

@[simp] theorem writeSpecial_same (x0 : SpecialReg) (x1 : Word) (x2 : State) : SameMem x2 (writeSpecial x0 x1 x2) := by
  unfold writeSpecial; (try dsimp only)
  repeat' (first | (simp [SameMem, Result.All, Out.All, McUnit.All, *]; done) | split)

@[simp] theorem raiseMsix_same (x0 : BitVec 8) (x1 : Nat) (x2 : Nat) (x3 : State) : SameMem x3 (raiseMsix x0 x1 x2 x3) := by
  unfold raiseMsix; (try dsimp only)
  repeat' (first | (simp [SameMem, Result.All, Out.All, McUnit.All, *]; done) | split)

@[simp] theorem endMgmt_same (x0 : Mgmt) (x1 : Nat) (x2 : Nat) (x3 : State) : SameMem x3 (endMgmt x0 x1 x2 x3) := by
  unfold endMgmt; (try dsimp only)
  repeat' (first | (simp [SameMem, Result.All, Out.All, McUnit.All, *]; done) | split)

@[simp] theorem mgmtNote_same (x0 : Mgmt) (x1 : List Nat) (x2 : State) : SameMem x2 (mgmtNote x0 x1 x2) := by
  unfold mgmtNote; (try dsimp only)
  repeat' (first | (simp [SameMem, Result.All, Out.All, McUnit.All, *]; done) | split)

@[simp] theorem mgmtDone_same (x0 : Mgmt) (x1 : List Nat) (x2 : State) : SameMem x2 (mgmtDone x0 x1 x2) := by
  unfold mgmtDone; (try dsimp only)
  repeat' (first | (simp [SameMem, Result.All, Out.All, McUnit.All, *]; done) | split)

@[simp] theorem mgmtRefuse_same (x0 : Mgmt) (x1 : List Nat) (x2 : State) : SameMem x2 (mgmtRefuse x0 x1 x2) := by
  unfold mgmtRefuse; (try dsimp only)
  repeat' (first | (simp [SameMem, Result.All, Out.All, McUnit.All, *]; done) | split)

theorem whenFits_same (f : State → State) (s : State) (h : SameMem s (f s)) : SameMem s (whenFits f s) := by
  unfold whenFits; split
  · exact h
  · simp [SameMem]

@[simp] theorem manage_same (k o l f) (s : State) (hf : SameMem s (f s)) : (manage k o l f s).All (SameMem s) := by
  unfold manage
  split
  · simp [SameMem, Out.All]
  · simp only [Out.All]
    refine whenFits_same _ _ ?_
    split
    · exact hf.trans (mgmtDone_same _ _ _)
    · exact mgmtRefuse_same _ _ _

@[simp] theorem execExtend_same (m v) (s : State) : (execExtend m v s).All (SameMem s) := by
  unfold execExtend; (try dsimp only)
  exact manage_same _ _ _ _ _ (by simp [SameMem])

@[simp] theorem roundDraw_same (x0 : Fin 5) (x1 : Fmt) (x2 : Rnd) (x3 : Ex) (x4 : State) : SameMem x4 (roundDraw x0 x1 x2 x3 x4).2 := by
  unfold roundDraw; (try dsimp only)
  repeat' (first | (simp [SameMem, Result.All, Out.All, McUnit.All, *]; done) | split)

@[simp] theorem scanFirst_same (x0 : List Win) (x1 : List Elem) (x2 : VProg) (x3 : State) : SameMem x3 (scanFirst x0 x1 x2 x3).2 := by
  unfold scanFirst; (try dsimp only)
  repeat' (first | (simp [SameMem, Result.All, Out.All, McUnit.All, *]; done) | split)

@[simp] theorem execFabricRoute_same (d p) (s : State) : (execFabricRoute d p s).All (SameMem s) := by
  unfold execFabricRoute; (try dsimp only)
  exact manage_same _ _ _ _ _ (by simp [SameMem])

@[simp] theorem addAccess_same (x0 : Bool) (x1 : BitVec 3) (x2 : Word) (x3 : Nat) (x4 : AccessKind) (x5 : State) : SameMem x5 (addAccess x0 x1 x2 x3 x4 x5) := by
  unfold addAccess; (try dsimp only)
  repeat' (first | (simp [SameMem, Result.All, Out.All, McUnit.All, *]; done) | split)

@[simp] theorem reserveSlots_same (f n) (s : State) : SameMem s (reserveSlots f n s).2 := by
  induction n generalizing s with
  | zero => simp [SameMem, reserveSlots]
  | succ n ih => unfold reserveSlots; exact (qReserve_same _ _ _).trans (ih _)

@[simp] theorem queueLoad_same (x0 : Bool) (x1 : List Seg) (x2 : Sz) (x3 : Fin 20) (x4 : BitVec 3) (x5 : Word) (x6 : Nat) (x7 : Bool) (x8 : State) : ∀ t, (queueLoad x0 x1 x2 x3 x4 x5 x6 x7 x8) = some t → SameMem x8 t := by
  unfold queueLoad; (try dsimp only)
  repeat' (first | (simp [SameMem, Result.All, Out.All, McUnit.All, *]; done) | split)

@[simp] theorem keep_same (x0 : Kept) (x1 : State) : SameMem x1 (keep x0 x1) := by
  unfold keep; (try dsimp only)
  repeat' (first | (simp [SameMem, Result.All, Out.All, McUnit.All, *]; done) | split)

@[simp] theorem putCmd_same (x0 : Nat) (x1 : MCmd) (x2 : State) : SameMem x2 (putCmd x0 x1 x2) := by
  unfold putCmd; (try dsimp only)
  repeat' (first | (simp [SameMem, Result.All, Out.All, McUnit.All, *]; done) | split)

@[simp] theorem execTidelineTrim_same (x0 : Nat) (x1 : State) : Out.All (SameMem x1) (execTidelineTrim x0 x1) := by
  unfold execTidelineTrim; (try dsimp only)
  repeat' (first | (simp [SameMem, Result.All, Out.All, McUnit.All, *]; done) | split)

@[simp] theorem dropFx_same (x0 : Nat) (x1 : State) : SameMem x1 (dropFx x0 x1) := by
  unfold dropFx; (try dsimp only)
  repeat' (first | (simp [SameMem, Result.All, Out.All, McUnit.All, *]; done) | split)

@[simp] theorem fxEvent_same (x0 : Nat) (x1 : Nat) (x2 : BitVec 11) (x3 : State) : SameMem x3 (fxEvent x0 x1 x2 x3) := by
  unfold fxEvent; (try dsimp only)
  repeat' (first | (simp [SameMem, Result.All, Out.All, McUnit.All, *]; done) | split)

@[simp] theorem putFx_same (x0 : Nat) (x1 : FxCmd) (x2 : State) : SameMem x2 (putFx x0 x1 x2) := by
  unfold putFx; (try dsimp only)
  repeat' (first | (simp [SameMem, Result.All, Out.All, McUnit.All, *]; done) | split)

@[simp] theorem setTerms_same (x0 : Terms) (x1 : State) : SameMem x1 (setTerms x0 x1) := by
  unfold setTerms; (try dsimp only)
  repeat' (first | (simp [SameMem, Result.All, Out.All, McUnit.All, *]; done) | split)

@[simp] theorem installTerms_same (x0 : List Byte) (x1 : State) : SameMem x1 (installTerms x0 x1).2 := by
  unfold installTerms; (try dsimp only)
  repeat' (first | (simp [SameMem, Result.All, Out.All, McUnit.All, *]; done) | split)

@[simp] theorem execInstallTerms_same (x0 : List (BitVec 8)) (x1 : State) : Out.All (SameMem x1) (execInstallTerms x0 x1) := by
  unfold execInstallTerms
  split
  · simp [SameMem, Out.All]
  · split
    · simp [SameMem, Out.All]
    · refine whenFits_same _ _ ?_
      dsimp only
      split <;> split <;> exact (installTerms_same _ _).trans (endMgmt_same _ _ _ _)

@[simp] theorem execHungDetect_same (x0 : State) : Out.All (SameMem x0) (execHungDetect x0) := by
  unfold execHungDetect; (try dsimp only)
  repeat' (first | (simp [SameMem, Result.All, Out.All, McUnit.All, *]; done) | split)

@[simp] theorem composeUnit_same (a b c d e f g) (s : State) : (composeUnit a b c d e f g s).All (SameMem s) := by
  unfold composeUnit; dsimp only
  split
  · simp [SameMem, McUnit.All]
  · rename_i h
    have h1 := mcSource_same h
    simp only [SameMem] at h1
    split
    · simp [SameMem, McUnit.All, h1]
    · split
      · simp [SameMem, McUnit.All, h1]
      · rename_i h'
        have h2 := mcSource_same h'
        simp only [SameMem] at h2
        simp [SameMem, McUnit.All, h1, h2]

@[simp] theorem mcTlb_same (x0 : Bool) (x1 : Word) (x2 : Nat) (x3 : State) : SameMem x3 (mcTlb x0 x1 x2 x3) := by
  unfold mcTlb; (try dsimp only)
  repeat' (first | (simp [SameMem, Result.All, Out.All, McUnit.All, *]; done) | split)

@[simp] theorem loadMap_same (x0 : McCfg) (x1 : McCmd) (x2 : Nat) (x3 : Word) (x4 : List Nat) (x5 : Nat) (x6 : McCmd) (x7 : State) : McUnit.All (SameMem x7) (loadMap x0 x1 x2 x3 x4 x5 x6 x7) := by
  unfold loadMap; (try dsimp only)
  repeat' (first | (simp [SameMem, Result.All, Out.All, McUnit.All, *]; done) | split)

@[simp] theorem touchRun_same (x0 : Bool) (x1 : Nat) (x2 : Nat) (x3 : State) : SameMem x3 (touchRun x0 x1 x2 x3) := by
  unfold touchRun; (try dsimp only)
  repeat' (first | (simp [SameMem, Result.All, Out.All, McUnit.All, *]; done) | split)

@[simp] theorem listUnit_same (a b c d e) (s : State) : (listUnit a b c d e s).All (SameMem s) := by
  unfold listUnit; dsimp only
  split
  · simp [SameMem, McUnit.All]
  · split
    · simp [SameMem, McUnit.All]
    · split
      · simp [SameMem, McUnit.All]
      · split
        · rename_i h; exact (congrArg (McUnit.All (SameMem s)) h).mp (loadMap_same _ _ _ _ _ _ _ s)
        · exact loadMap_same _ _ _ _ _ _ _ _

@[simp] theorem readSlot_same (c n) (f : List Nat → State → McUnit) (s : State) (hf : ∀ l s, (f l s).All (SameMem s)) :
    (readSlot c n f s).All (SameMem s) := by
  unfold readSlot
  split
  · split <;> simp [SameMem, McUnit.All]
  · rename_i h
    exact (hf _ _).mono (fun t ht => (mcSource_same h).trans ht)

@[simp] theorem treeUnit_same (a b c d e) (s : State) : (treeUnit a b c d e s).All (SameMem s) := by
  unfold treeUnit; dsimp only
  split
  · simp [SameMem, McUnit.All]
  · split
    · rename_i h; exact (congrArg (McUnit.All (SameMem s)) h).mp (composeUnit_same _ _ _ _ _ _ _ s)
    · exact composeUnit_same _ _ _ _ _ _ _ _

@[simp] theorem registerTile_same (x0 : Nat) (x1 : Fmt) (x2 : Option Nat) (x3 : State) : SameMem x3 (registerTile x0 x1 x2 x3) := by
  unfold registerTile; (try dsimp only)
  repeat' (first | (simp [SameMem, Result.All, Out.All, McUnit.All, *]; done) | split)

@[simp] theorem hgenFirst_same (x0 : List Win) (x1 : List Elem) (x2 : VProg) (x3 : State) : SameMem x3 (hgenFirst x0 x1 x2 x3).2 := by
  unfold hgenFirst; (try dsimp only)
  repeat' (first | (simp [SameMem, Result.All, Out.All, McUnit.All, *]; done) | split)

@[simp] theorem setBar_same (x0 : BitVec 2) (x1 : Bar) (x2 : State) : SameMem x2 (setBar x0 x1 x2) := by
  unfold setBar; (try dsimp only)
  repeat' (first | (simp [SameMem, Result.All, Out.All, McUnit.All, *]; done) | split)

@[simp] theorem arriveAt_same (x0 : BitVec 2) (x1 : State) : SameMem x1 (arriveAt x0 x1) := by
  unfold arriveAt; (try dsimp only)
  repeat' (first | (simp [SameMem, Result.All, Out.All, McUnit.All, *]; done) | split)

@[simp] theorem flushCache_same (x0 : State) : SameMem x0 (flushCache x0) := by
  unfold flushCache; (try dsimp only)
  repeat' (first | (simp [SameMem, Result.All, Out.All, McUnit.All, *]; done) | split)

@[simp] theorem waitOut_same (x0 : BitVec 2) (x1 : State) : ∀ t, (waitOut x0 x1) = some t → SameMem x1 t := by
  unfold waitOut; (try dsimp only)
  repeat' (first | (simp [SameMem, Result.All, Out.All, McUnit.All, *]; done) | split)

@[simp] theorem cpEvent_same (x0 : Nat) (x1 : Nat) (x2 : BitVec 11) (x3 : State) : SameMem x3 (cpEvent x0 x1 x2 x3) := by
  unfold cpEvent; (try dsimp only)
  repeat' (first | (simp [SameMem, Result.All, Out.All, McUnit.All, *]; done) | split)

@[simp] theorem cpComplete_same (x0 : CpCmd) (x1 : State) : SameMem x1 (cpComplete x0 x1) := by
  unfold cpComplete; (try dsimp only)
  repeat' (first | (simp [SameMem, Result.All, Out.All, McUnit.All, *]; done) | split)

@[simp] theorem popN_same (f n) (s : State) : SameMem s (popN f n s) := by
  induction n generalizing s with
  | zero => simp [SameMem, popN]
  | succ n ih => unfold popN; exact (qPop_same _ _).trans (ih _)

@[simp] theorem setBr_same (x0 : Fin 4) (x1 : Bracket) (x2 : State) : SameMem x2 (setBr x0 x1 x2) := by
  unfold setBr; (try dsimp only)
  repeat' (first | (simp [SameMem, Result.All, Out.All, McUnit.All, *]; done) | split)

@[simp] theorem globalStore_same (x0 : BitVec 3) (x1 : Word) (x2 : List Byte) (x3 : Option Word) (x4 : State → State) (x5 : State) (h4 : ∀ s, SameMem s (x4 s)) : Result.All (SameMem x5) (globalStore x0 x1 x2 x3 x4 x5) := by
  unfold globalStore; (try dsimp only)
  repeat' (first | (simp [SameMem, Result.All, Out.All, McUnit.All, *]; done) | split)

@[simp] theorem appDone_same (d r) (s : State) : (appDone d r s).All (SameMem s) := by
  unfold appDone; exact writeReg_same _ _ _ _

@[simp] theorem mcAsk_same (x0 : McOp) (x1 : State) : Result.All (SameMem x1) (mcAsk x0 x1) := by
  unfold mcAsk; (try dsimp only)
  repeat' (first | (simp [SameMem, Result.All, Out.All, McUnit.All, *]; done) | split)

@[simp] theorem mcAwait_same (ok) (s : State) (ho : ∀ r s, (ok r s).All (SameMem s)) :
    (mcAwait ok s).All (SameMem s) := by
  unfold mcAwait
  split
  · split <;> simp [SameMem, Result.All]
  · exact takeReply_same _ _ _ (by intro s; simp [SameMem, Result.All]) ho

@[simp] theorem execClaim_same (x0 : BitVec 24) (x1 : BitVec 32) (x2 : State) : Out.All (SameMem x2) (execClaim x0 x1 x2) := by
  unfold execClaim; (try dsimp only)
  repeat' (first | (simp [SameMem, Result.All, Out.All, McUnit.All, *]; done) | split)

@[simp] theorem restoreK_same (x0 : Issuer) (x1 : Ctx) (x2 : State) : SameMem x2 (restoreK x0 x1 x2) := by
  unfold restoreK; (try dsimp only)
  repeat' (first | (simp [SameMem, Result.All, Out.All, McUnit.All, *]; done) | split)

@[simp] theorem setPending_same (f w x) (s : State) (hf : ∀ c, (f c).imem = c.imem) : SameMem s (setPending f w x s) := by
  unfold setPending
  refine modCtx_same _ _ _ ?_
  intro c; split
  · rfl
  · simp [SameMem, hf]

@[simp] theorem execTimerExpiry_same (x0 : State) : Out.All (SameMem x0) (execTimerExpiry x0) := by
  unfold execTimerExpiry; (try dsimp only)
  repeat' (first | (simp [SameMem, Result.All, Out.All, McUnit.All, *]; done) | split)

@[simp] theorem cpHead_same (x0 : CpCmd) (x1 : State) : SameMem x1 (cpHead x0 x1) := by
  unfold cpHead; (try dsimp only)
  repeat' (first | (simp [SameMem, Result.All, Out.All, McUnit.All, *]; done) | split)

@[simp] theorem fxHold_same (x0 : Nat) (x1 : FxCmd) (x2 : Nat) (x3 : State) : SameMem x3 (fxHold x0 x1 x2 x3) := by
  unfold fxHold; (try dsimp only)
  repeat' (first | (simp [SameMem, Result.All, Out.All, McUnit.All, *]; done) | split)

@[simp] theorem execFabricMatch_same (x0 : Bool) (x1 : Nat) (x2 : FarSide) (x3 : State) : Out.All (SameMem x3) (execFabricMatch x0 x1 x2 x3) := by
  unfold execFabricMatch; (try dsimp only)
  repeat' (first | (simp [SameMem, Result.All, Out.All, McUnit.All, *]; done) | split)

@[simp] theorem sigBody_same (g d a) (s : State) : (sigBody g d a s).All (SameMem s) := by
  unfold sigBody; dsimp only
  split
  · refine takeReply_same _ _ _ (by intro s; simp [SameMem, Result.All]) ?_
    intro r s; cases g
    · exact crValue_same _ _ _
    · simp [SameMem, crDone, Result.All]
  · cases h : readBlock (getReg s a) 16 s with
    | error r => exact readBlock_error h
    | ok p =>
      obtain ⟨b, s1⟩ := p
      dsimp only
      split
      · trivial
      · exact (crBody_same _ _ _ _ (by intro r s; simp [SameMem, crDone, Result.All])).mono (fun u hu => (readBlock_same h).trans hu)

@[simp] theorem carryFirst_same (x0 : List Win) (x1 : List Elem) (x2 : VProg) (x3 : State) : SameMem x3 (carryFirst x0 x1 x2 x3).2 := by
  unfold carryFirst; (try dsimp only)
  repeat' (first | (simp [SameMem, Result.All, Out.All, McUnit.All, *]; done) | split)

@[simp] theorem qFill_same (x0 : Fin 20) (x1 : Nat) (x2 : Elem) (x3 : Option Word) (x4 : State) : SameMem x4 (qFill x0 x1 x2 x3 x4) := by
  unfold qFill; (try dsimp only)
  repeat' (first | (simp [SameMem, Result.All, Out.All, McUnit.All, *]; done) | split)

@[simp] theorem releaseRecords_same (x0 : State) : SameMem x0 (releaseRecords x0) := by
  unfold releaseRecords; (try dsimp only)
  repeat' (first | (simp [SameMem, Result.All, Out.All, McUnit.All, *]; done) | split)

@[simp] theorem setLs_same (x0 : BitVec 3) (x1 : Pc) (x2 : State) : SameMem x2 (setLs x0 x1 x2) := by
  unfold setLs; (try dsimp only)
  repeat' (first | (simp [SameMem, Result.All, Out.All, McUnit.All, *]; done) | split)

@[simp] theorem applyFlush_same (x0 : State) (x1 : Flush) : SameMem x0 (applyFlush x0 x1) := by
  unfold applyFlush; (try dsimp only)
  repeat' (first | (simp [SameMem, Result.All, Out.All, McUnit.All, *]; done) | split)

@[simp] theorem applyFlushes_same (x0 : State) : SameMem x0 (applyFlushes x0) := by
  unfold applyFlushes; (try dsimp only)
  repeat' (first | (simp [SameMem, Result.All, Out.All, McUnit.All, *]; done) | split)

@[simp] theorem redFirst_same (x0 : VredFn) (x1 : List Win) (x2 : List Elem) (x3 : VProg) (x4 : State) : SameMem x4 (redFirst x0 x1 x2 x3 x4).2 := by
  unfold redFirst; (try dsimp only)
  repeat' (first | (simp [SameMem, Result.All, Out.All, McUnit.All, *]; done) | split)

@[simp] theorem setModel_same (x0 : Model) (x1 : State) : SameMem x1 (setModel x0 x1) := by
  unfold setModel; (try dsimp only)
  repeat' (first | (simp [SameMem, Result.All, Out.All, McUnit.All, *]; done) | split)

@[simp] theorem execReplace_same (a b c) (s : State) : (execReplace a b c s).All (SameMem s) := by
  unfold execReplace
  split
  · exact manage_same _ _ _ _ _ (by simp [SameMem])
  · split
    · simp [SameMem, Out.All]
    · exact manage_same _ _ _ _ _ (setModel_same _ _)

@[simp] theorem stepBudget_same (x0 : State) : SameMem x0 (stepBudget x0) := by
  unfold stepBudget; (try dsimp only)
  repeat' (first | (simp [SameMem, Result.All, Out.All, McUnit.All, *]; done) | split)

@[simp] theorem forRange_same (x0 : Nat) (x1 : Nat) (x2 : Nat → State → State) (x3 : State) (h2 : ∀ n s, SameMem s (x2 n s)) : SameMem x3 (forRange x0 x1 x2 x3) := by
  unfold forRange; (try dsimp only)
  repeat' (first | (simp [SameMem, Result.All, Out.All, McUnit.All, *]; done) | split)

@[simp] theorem takeHeadland_same (x0 : Win) (x1 : Win) (x2 : Nat) (x3 : State) : SameMem x3 (takeHeadland x0 x1 x2 x3) := by
  unfold takeHeadland; (try dsimp only)
  repeat' (first | (simp [SameMem, Result.All, Out.All, McUnit.All, *]; done) | split)

@[simp] theorem tokenAdd_same (x0 : Fifo) (x1 : Nat) (x2 : State) : SameMem x2 (tokenAdd x0 x1 x2) := by
  unfold tokenAdd; (try dsimp only)
  repeat' (first | (simp [SameMem, Result.All, Out.All, McUnit.All, *]; done) | split)

@[simp] theorem arriveTokens_same (x0 : State) : SameMem x0 (arriveTokens x0) := by
  unfold arriveTokens; (try dsimp only)
  repeat' (first | (simp [SameMem, Result.All, Out.All, McUnit.All, *]; done) | split)

@[simp] theorem dropHeld_same (x0 : State) : SameMem x0 (dropHeld x0) := by
  unfold dropHeld; (try dsimp only)
  repeat' (first | (simp [SameMem, Result.All, Out.All, McUnit.All, *]; done) | split)

@[simp] theorem dropLater_same (x0 : State) : SameMem x0 (dropLater x0) := by
  unfold dropLater; (try dsimp only)
  repeat' (first | (simp [SameMem, Result.All, Out.All, McUnit.All, *]; done) | split)

@[simp] theorem newCycle_same (x0 : State) : SameMem x0 (newCycle x0) := by
  unfold newCycle; (try dsimp only)
  repeat' (first | (simp [SameMem, Result.All, Out.All, McUnit.All, *]; done) | split)

@[simp] theorem passTime_same (x0 : State) : SameMem x0 (passTime x0) := by
  unfold passTime; (try dsimp only)
  repeat' (first | (simp [SameMem, Result.All, Out.All, McUnit.All, *]; done) | split)

@[simp] theorem stopAtSafe_same (f) (s : State) : SameMem s (stopAtSafe f s) := by
  unfold stopAtSafe
  split
  · simp [SameMem]
  · exact foldl_same _ (fun s x => modCtx_same _ _ _ (fun c => by split <;> rfl)) taskStreams s

@[simp] theorem execDieHold_same (x0 : Nat) (x1 : State) : Out.All (SameMem x1) (execDieHold x0 x1) := by
  unfold execDieHold; (try dsimp only)
  repeat' (first | (simp [SameMem, Result.All, Out.All, McUnit.All, *]; done) | split)

@[simp] theorem strikeReg_same (x0 : Nat) (x1 : BitVec 64) (x2 : Bool) (x3 : Ctx) : (strikeReg x0 x1 x2 x3).imem = x3.imem := by
  unfold strikeReg; (try dsimp only)
  repeat' (first | (simp [SameMem, Result.All, Out.All, McUnit.All, *]; done) | split)

@[simp] theorem setWin_same (x0 : BitVec 5) (x1 : BitVec 64) (x2 : State) : SameMem x2 (setWin x0 x1 x2) := by
  unfold setWin; (try dsimp only)
  repeat' (first | (simp [SameMem, Result.All, Out.All, McUnit.All, *]; done) | split)

@[simp] theorem thGuard_same (s : State) (f) (hf : (f ()).All (SameMem s)) : (thGuard s f).All (SameMem s) := by
  unfold thGuard; split
  · trivial
  · exact hf

@[simp] theorem titheReply_same (x0 : TitheReq) (x1 : Word) (x2 : Option TrapInfo) (x3 : State) : SameMem x3 (titheReply x0 x1 x2 x3) := by
  unfold titheReply; (try dsimp only)
  repeat' (first | (simp [SameMem, Result.All, Out.All, McUnit.All, *]; done) | split)

@[simp] theorem countServed_same (x0 : Nat) (x1 : Nat) (x2 : Bool) (x3 : State) : SameMem x3 (countServed x0 x1 x2 x3) := by
  unfold countServed; (try dsimp only)
  repeat' (first | (simp [SameMem, Result.All, Out.All, McUnit.All, *]; done) | split)

@[simp] theorem execFirmwareStage_same (f) (s : State) : (execFirmwareStage f s).All (SameMem s) := by
  unfold execFirmwareStage; (try dsimp only)
  exact manage_same _ _ _ _ _ (by simp [SameMem])

@[simp] theorem mcHead_same (x0 : McCmd) (x1 : State) : SameMem x1 (mcHead x0 x1) := by
  unfold mcHead; (try dsimp only)
  repeat' (first | (simp [SameMem, Result.All, Out.All, McUnit.All, *]; done) | split)

@[simp] theorem restartChannel_same (x0 : Bool) (x1 : Fin 4) (x2 : State) : SameMem x2 (restartChannel x0 x1 x2) := by
  unfold restartChannel; (try dsimp only)
  repeat' (first | (simp [SameMem, Result.All, Out.All, McUnit.All, *]; done) | split)

@[simp] theorem restartNoise_same (x0 : Bool) (x1 : State) : SameMem x1 (restartNoise x0 x1) := by
  unfold restartNoise; (try dsimp only)
  repeat' (first | (simp [SameMem, Result.All, Out.All, McUnit.All, *]; done) | split)

@[simp] theorem awaitUnit_same (x0 : WaitUnit) (x1 : Nat → State → Result) (x2 : State) (h1 : ∀ n s, (x1 n s).All (SameMem s)) : Result.All (SameMem x2) (awaitUnit x0 x1 x2) := by
  unfold awaitUnit; (try dsimp only)
  repeat' (first | (simp [SameMem, Result.All, Out.All, McUnit.All, *]; done) | (simp_all [SameMem, Result.All, Out.All, McUnit.All]; done) | split)

@[simp] theorem cacheFill_same (x0 : Nat) (x1 : State) : SameMem x1 (cacheFill x0 x1) := by
  unfold cacheFill; (try dsimp only)
  repeat' (first | (simp [SameMem, Result.All, Out.All, McUnit.All, *]; done) | split)

@[simp] theorem setStages_same (x0 : BitVec 16) (x1 : List (Nat × Word)) (x2 : Ctx) : (setStages x0 x1 x2).imem = x2.imem := by
  unfold setStages; (try dsimp only)
  repeat' (first | (simp [SameMem, Result.All, Out.All, McUnit.All, *]; done) | split)

@[simp] theorem extendConfig_same (x0 : Nat) (x1 : List Nat) (x2 : State) : SameMem x2 (extendConfig x0 x1 x2) := by
  unfold extendConfig; (try dsimp only)
  repeat' (first | (simp [SameMem, Result.All, Out.All, McUnit.All, *]; done) | split)

@[simp] theorem execDefineEnclosure_same (m) (s : State) : (execDefineEnclosure m s).All (SameMem s) := by
  unfold execDefineEnclosure; (try dsimp only)
  exact manage_same _ _ _ _ _ (by simp [SameMem])

@[simp] theorem advance_same (x0 : State) : SameMem x0 (advance x0) := by
  unfold advance; (try dsimp only)
  repeat' (first | (simp [SameMem, Result.All, Out.All, McUnit.All, *]; done) | split)

@[simp] theorem endStream_same (x0 : Issuer) (x1 : State) : SameMem x1 (endStream x0 x1) := by
  unfold endStream; (try dsimp only)
  repeat' (first | (simp [SameMem, Result.All, Out.All, McUnit.All, *]; done) | split)

@[simp] theorem bindBody_same (x0 : Fin 4) (x1 : Option TrapInfo) (x2 : Bool) (x3 : Nat) (x4 : Bracket → Bracket) (x5 : State) : Result.All (SameMem x5) (bindBody x0 x1 x2 x3 x4 x5) := by
  unfold bindBody; (try dsimp only)
  repeat' (first | (simp [SameMem, Result.All, Out.All, McUnit.All, *]; done) | split)

@[simp] theorem convertElems_same (c l) (s : State) : SameMem s (convertElems c l s).2 := by
  induction l generalizing s with
  | nil => simp [SameMem, convertElems]
  | cons a t ih => unfold convertElems; exact (roundDraw_same _ _ _ _ _).trans (ih _)

@[simp] theorem cpHold_same (x0 : CpCmd) (x1 : Nat) (x2 : Cause) (x3 : Nat) (x4 : Word) (x5 : State) : SameMem x5 (cpHold x0 x1 x2 x3 x4 x5) := by
  unfold cpHold; (try dsimp only)
  repeat' (first | (simp [SameMem, Result.All, Out.All, McUnit.All, *]; done) | split)

@[simp] theorem cpTiles_same (x0 : CpCmd) (x1 : Nat → Nat) (x2 : CpPlace) (x3 : State) : SameMem x3 (cpTiles x0 x1 x2 x3) := by
  unfold cpTiles; (try dsimp only)
  repeat' (first | (simp [SameMem, Result.All, Out.All, McUnit.All, *]; done) | split)

@[simp] theorem execFabricLinkFail_same (x0 : Nat) (x1 : State) : Out.All (SameMem x1) (execFabricLinkFail x0 x1) := by
  unfold execFabricLinkFail; (try dsimp only)
  repeat' (first | (simp [SameMem, Result.All, Out.All, McUnit.All, *]; done) | split)

@[simp] theorem stopStreams_same (x0 : State) : SameMem x0 (stopStreams x0) := by
  unfold stopStreams; (try dsimp only)
  repeat' (first | (simp [SameMem, Result.All, Out.All, McUnit.All, *]; done) | split)

@[simp] theorem execOwnerKeyRegistry_same (n k) (s : State) : (execOwnerKeyRegistry n k s).All (SameMem s) := by
  unfold execOwnerKeyRegistry; (try dsimp only)
  exact manage_same _ _ _ _ _ (by simp [SameMem])

@[simp] theorem titheRefuse_same (x0 : TitheReq) (x1 : Cause) (x2 : Nat) (x3 : Nat) (x4 : State) : SameMem x4 (titheRefuse x0 x1 x2 x3 x4) := by
  unfold titheRefuse; (try dsimp only)
  repeat' (first | (simp [SameMem, Result.All, Out.All, McUnit.All, *]; done) | split)

@[simp] theorem decide1_same (x0 : TitheReq) (x1 : State) : SameMem x1 (decide1 x0 x1) := by
  unfold decide1; (try dsimp only)
  repeat' (first | (simp [SameMem, Result.All, Out.All, McUnit.All, *]; done) | split)

@[simp] theorem execTitheDecide_same (x0 : State) : Out.All (SameMem x0) (execTitheDecide x0) := by
  unfold execTitheDecide
  split
  · simp [SameMem, Out.All]
  · split
    · rename_i r rest h hr
      have hop : isStatement r.op = false := by
        simp only [titheRuns, h, Bool.and_eq_true, beq_iff_eq] at hr
        exact hr.1.1.1
      unfold titheNext
      split
      · rename_i h'; simp [isStatement, h'] at hop
      · exact SameMem.trans (by simp [SameMem]) (decide1_same _ _)
    · simp [SameMem, Out.All]

@[simp] theorem killTask_same (x0 : BitVec 20) (x1 : State) : SameMem x1 (killTask x0 x1) := by
  unfold killTask; (try dsimp only)
  repeat' (first | (simp [SameMem, Result.All, Out.All, McUnit.All, *]; done) | split)

@[simp] theorem nestIssue_same (mk d e t) (s : State) : (nestIssue mk d e t s).All (SameMem s) := by
  unfold nestIssue; dsimp only
  split
  · trivial
  · exact mxIssue_same _ _ _

@[simp] theorem accessDone_same (x0 : Access) (x1 : State) : SameMem x1 (accessDone x0 x1) := by
  unfold accessDone; (try dsimp only)
  repeat' (first | (simp [SameMem, Result.All, Out.All, McUnit.All, *]; done) | split)

@[simp] theorem fillSlots_same (q p l v) (s : State) : SameMem s (fillSlots q p l v s) := by
  induction l generalizing v s with
  | nil => simp [SameMem, fillSlots]
  | cons a t ih =>
    cases v with
    | nil => simp [SameMem, fillSlots]
    | cons b u => unfold fillSlots; exact (qFill_same _ _ _ _ _).trans (ih _ _)

@[simp] theorem execLoadArrival_same (x0 : Nat) (x1 : State) : Out.All (SameMem x1) (execLoadArrival x0 x1) := by
  unfold execLoadArrival; (try dsimp only)
  repeat' (first | (simp [SameMem, Result.All, Out.All, McUnit.All, *]; done) | split)

@[simp] theorem drawFirst_same (x0 : Bool) (x1 : Fin 768) (x2 : List Win) (x3 : List Elem) (x4 : VProg) (x5 : State) : SameMem x5 (drawFirst x0 x1 x2 x3 x4 x5).2 := by
  unfold drawFirst; (try dsimp only)
  repeat' (first | (simp [SameMem, Result.All, Out.All, McUnit.All, *]; done) | split)

@[simp] theorem writeQueueReg_same (x0 : Nat) (x1 : Nat) (x2 : Nat) (x3 : BitVec 64) (x4 : State) : SameMem x4 (writeQueueReg x0 x1 x2 x3 x4) := by
  unfold writeQueueReg; (try dsimp only)
  repeat' (first | (simp [SameMem, Result.All, Out.All, McUnit.All, *]; done) | split)

@[simp] theorem standReady_same (x0 : Ctx) : (standReady x0).imem = x0.imem := by
  unfold standReady; (try dsimp only)
  repeat' (first | (simp [SameMem, Result.All, Out.All, McUnit.All, *]; done) | split)

@[simp] theorem portDrop_same (x0 : Port) (x1 : State) : SameMem x1 (portDrop x0 x1) := by
  unfold portDrop; (try dsimp only)
  repeat' (first | (simp [SameMem, Result.All, Out.All, McUnit.All, *]; done) | split)

@[simp] theorem drainBytes_same (f r l) (s : State) : SameMem s (drainBytes f r l s).2 := by
  induction l generalizing s with
  | nil => simp [SameMem, drainBytes]
  | cons a t ih => unfold drainBytes; exact (roundDraw_same _ _ _ _ _).trans (ih _)

@[simp] theorem execRelease_same (x0 : BitVec 24) (x1 : State) : Out.All (SameMem x1) (execRelease x0 x1) := by
  unfold execRelease; (try dsimp only)
  repeat' (first | (simp [SameMem, Result.All, Out.All, McUnit.All, *]; done) | split)

@[simp] theorem poisonBytes_same (p) (l : List Bool) (s : State) : SameMem s (poisonBytes p l s) := by
  induction l generalizing p s with
  | nil => simp [SameMem, poisonBytes]
  | cons b t ih =>
    unfold poisonBytes
    refine SameMem.trans ?_ (ih _ _)
    split
    · exact spadPoison_same _ _ _
    · simp [SameMem]

@[simp] theorem execBarrierPhaseComplete_same (x0 : BitVec 2) (x1 : State) : Out.All (SameMem x1) (execBarrierPhaseComplete x0 x1) := by
  unfold execBarrierPhaseComplete; (try dsimp only)
  repeat' (first | (simp [SameMem, Result.All, Out.All, McUnit.All, *]; done) | split)

@[simp] theorem execBudgetExpiry_same (x0 : State) : Out.All (SameMem x0) (execBudgetExpiry x0) := by
  unfold execBudgetExpiry; (try dsimp only)
  repeat' (first | (simp [SameMem, Result.All, Out.All, McUnit.All, *]; done) | split)

@[simp] theorem restoreWindow_same (x0 : State) : SameMem x0 (restoreWindow x0) := by
  unfold restoreWindow; (try dsimp only)
  repeat' (first | (simp [SameMem, Result.All, Out.All, McUnit.All, *]; done) | split)

@[simp] theorem cacheUpdate_same (x0 : Nat) (x1 : List Byte) (x2 : State) : SameMem x2 (cacheUpdate x0 x1 x2) := by
  unfold cacheUpdate; (try dsimp only)
  repeat' (first | (simp [SameMem, Result.All, Out.All, McUnit.All, *]; done) | split)

@[simp] theorem giveReg_same (x d v w l) (s : State) : SameMem s (giveReg x d v w l s) :=
  modCtx_same _ _ _ (fun c => by split <;> simp)

@[simp] theorem takeCpres_same (x0 : Bool) (x1 : State) : SameMem x1 (takeCpres x0 x1) := by
  unfold takeCpres; (try dsimp only)
  repeat' (first | (simp [SameMem, Result.All, Out.All, McUnit.All, *]; done) | split)

@[simp] theorem takeCr_same (x0 : CrOp) (x1 : Nat) (x2 : State) : SameMem x2 (takeCr x0 x1 x2) := by
  unfold takeCr; (try dsimp only)
  repeat' (first | (simp [SameMem, Result.All, Out.All, McUnit.All, *]; done) | split)

@[simp] theorem takeKv_same (x0 : KvReq) (x1 : State) : SameMem x1 (takeKv x0 x1) := by
  unfold takeKv; (try dsimp only)
  repeat' (first | (simp [SameMem, Result.All, Out.All, McUnit.All, *]; done) | split)

@[simp] theorem takeTithe_same (x0 : TitheReq) (x1 : State) : SameMem x1 (takeTithe x0 x1) := by
  unfold takeTithe; (try dsimp only)
  repeat' (first | (simp [SameMem, Result.All, Out.All, McUnit.All, *]; done) | split)

@[simp] theorem dropCmd_same (x0 : Nat) (x1 : State) : SameMem x1 (dropCmd x0 x1) := by
  unfold dropCmd; (try dsimp only)
  repeat' (first | (simp [SameMem, Result.All, Out.All, McUnit.All, *]; done) | split)

@[simp] theorem genSlot_same (x0 : Fin 16) (x1 : Nat) (x2 : State) : SameMem x2 (genSlot x0 x1 x2) := by
  unfold genSlot; (try dsimp only)
  repeat' (first | (simp [SameMem, Result.All, Out.All, McUnit.All, *]; done) | split)

@[simp] theorem joinLoop_same (f n) (s : State) : SameMem s (joinLoop f n s) := by
  induction n generalizing s with
  | zero => simp [SameMem, joinLoop]
  | succ n ih =>
    unfold joinLoop; dsimp only
    split
    · exact ((setFur_same _ _ _).trans (setLive_same _ _ _ _)).trans (ih _)
    · simp [SameMem]

@[simp] theorem joinSlots_same (x0 : Fin 16) (x1 : State) : SameMem x1 (joinSlots x0 x1) := by
  unfold joinSlots; (try dsimp only)
  repeat' (first | (simp [SameMem, Result.All, Out.All, McUnit.All, *]; done) | split)

@[simp] theorem reserveSlot_same (x0 : Fin 16) (x1 : State) : SameMem x1 (reserveSlot x0 x1) := by
  unfold reserveSlot; (try dsimp only)
  repeat' (first | (simp [SameMem, Result.All, Out.All, McUnit.All, *]; done) | split)

@[simp] theorem endOfK_same (s : State) (f) (hf : (f s).All (SameMem s)) : (endOfK s f).All (SameMem s) := by
  unfold endOfK
  split
  · simp [SameMem, Result.All]
  · split
    · rename_i h; exact mcGate_wait h
    · rename_i h; exact mcGate_raise h
    · split
      · trivial
      · trivial
      · split
        · exact hf
        · simp [SameMem, Result.All]

@[simp] theorem execForeshoreSplit_same (d n) (s : State) : (execForeshoreSplit d n s).All (SameMem s) := by
  unfold execForeshoreSplit
  split
  · split
    · simp [SameMem, Out.All]
    · exact manage_same _ _ _ _ _ (by simp [SameMem])
  · exact manage_same _ _ _ _ _ (by simp [SameMem])

@[simp] theorem execHostRead_same (x0 : Nat) (x1 : Nat) (x2 : Nat) (x3 : State) : Out.All (SameMem x3) (execHostRead x0 x1 x2 x3) := by
  unfold execHostRead; (try dsimp only)
  repeat' (first | (simp [SameMem, Result.All, Out.All, McUnit.All, *]; done) | split)

@[simp] theorem execImemRepair_same (x0 : Nat) (x1 : Nat) (x2 : State) : Out.All (SameMem x2) (execImemRepair x0 x1 x2) := by
  unfold execImemRepair; (try dsimp only)
  repeat' (first | (simp [SameMem, Result.All, Out.All, McUnit.All, *]; done) | split)

@[simp] theorem globalLoad_same (a b c d e f) (s : State) (hf : ∀ s, SameMem s (f s)) : (globalLoad a b c d e f s).All (SameMem s) := by
  unfold globalLoad
  split
  · trivial
  · split
    · trivial
    · split
      · simp [SameMem, Result.All]
      · rename_i h
        exact ((queueLoad_same _ _ _ _ _ _ _ _ _ _ h).trans (tlbUse_same _ _ _)).trans (hf _)

@[simp] theorem execLeaseExpiry_same (x0 : State) : Out.All (SameMem x0) (execLeaseExpiry x0) := by
  unfold execLeaseExpiry; (try dsimp only)
  repeat' (first | (simp [SameMem, Result.All, Out.All, McUnit.All, *]; done) | split)

@[simp] theorem furrowSet_same (x0 : Fin 16) (x1 : FurCfg) (x2 : State) : SameMem x2 (furrowSet x0 x1 x2) := by
  unfold furrowSet; (try dsimp only)
  repeat' (first | (simp [SameMem, Result.All, Out.All, McUnit.All, *]; done) | split)

@[simp] theorem nestDone_same (x0 : Nat) (x1 : MCmd) (x2 : Nest) (x3 : State) : SameMem x3 (nestDone x0 x1 x2 x3) := by
  unfold nestDone; (try dsimp only)
  repeat' (first | (simp [SameMem, Result.All, Out.All, McUnit.All, *]; done) | split)

@[simp] theorem mcComplete_same (x0 : McCmd) (x1 : State) : SameMem x1 (mcComplete x0 x1) := by
  unfold mcComplete; (try dsimp only)
  repeat' (first | (simp [SameMem, Result.All, Out.All, McUnit.All, *]; done) | split)

@[simp] theorem execNoiseReseed_same (x0 : Fin 5) (x1 : State) : Out.All (SameMem x1) (execNoiseReseed x0 x1) := by
  unfold execNoiseReseed; (try dsimp only)
  repeat' (first | (simp [SameMem, Result.All, Out.All, McUnit.All, *]; done) | split)

@[simp] theorem execPreemptDemand_same (x0 : State) : Out.All (SameMem x0) (execPreemptDemand x0) := by
  unfold execPreemptDemand; (try dsimp only)
  repeat' (first | (simp [SameMem, Result.All, Out.All, McUnit.All, *]; done) | split)

@[simp] theorem execPtpCorrection_same (x0 : Int) (x1 : State) : Out.All (SameMem x1) (execPtpCorrection x0 x1) := by
  unfold execPtpCorrection; (try dsimp only)
  repeat' (first | (simp [SameMem, Result.All, Out.All, McUnit.All, *]; done) | split)

@[simp] theorem flushLoads_same (x0 : Fin 20) (x1 : State) : SameMem x1 (flushLoads x0 x1) := by
  unfold flushLoads; (try dsimp only)
  repeat' (first | (simp [SameMem, Result.All, Out.All, McUnit.All, *]; done) | split)

@[simp] theorem execRegisterModel_same (m) (s : State) : (execRegisterModel m s).All (SameMem s) := by
  unfold execRegisterModel; (try dsimp only)
  exact manage_same _ _ _ _ _ (by simp [SameMem])

theorem execRegisterWrite_same (x0 : BitVec 24) (x1 : Nat) (x2 : BitVec 64) (x3 : State) (h : inMailbox x1 = false) : Out.All (SameMem x3) (execRegisterWrite x0 x1 x2 x3) := by
  unfold execRegisterWrite; simp only [h, Bool.and_false, Bool.false_eq_true, if_false]
  repeat' (first | (simp [SameMem, Result.All, Out.All, McUnit.All, *]; done) | split)

@[simp] theorem holdLatches_same (x0 : Nat) (x1 : State) : SameMem x1 (holdLatches x0 x1) := by
  unfold holdLatches; (try dsimp only)
  repeat' (first | (simp [SameMem, Result.All, Out.All, McUnit.All, *]; done) | split)

@[simp] theorem landReplay_imem (n v c) : (landReplay n v c).imem = c.imem := rfl

@[simp] theorem landOne_same (x0 : Latch) (x1 : State) : SameMem x1 (landOne x0 x1) := by
  unfold landOne; (try dsimp only)
  repeat' (first | (simp [SameMem, Result.All, Out.All, McUnit.All, *]; done) | split)

@[simp] theorem execResultLanding_same (x0 : State) : Out.All (SameMem x0) (execResultLanding x0) := by
  unfold execResultLanding; (try dsimp only)
  repeat' (first | (simp [SameMem, Result.All, Out.All, McUnit.All, *]; done) | split)

@[simp] theorem reinject_same (x0 : List Word) (x1 : State) : SameMem x1 (reinject x0 x1) := by
  unfold reinject; (try dsimp only)
  repeat' (first | (simp [SameMem, Result.All, Out.All, McUnit.All, *]; done) | split)

@[simp] theorem restoreCtx_same (x0 : Frame) (x1 : Pc) (x2 : Bool) (x3 : Ctx) : (restoreCtx x0 x1 x2 x3).imem = x3.imem := by
  unfold restoreCtx; (try dsimp only)
  repeat' (first | (simp [SameMem, Result.All, Out.All, McUnit.All, *]; done) | split)

@[simp] theorem execSluicePass_same (x0 : EgressUser) (x1 : State) : Out.All (SameMem x1) (execSluicePass x0 x1) := by
  unfold execSluicePass; (try dsimp only)
  repeat' (first | (simp [SameMem, Result.All, Out.All, McUnit.All, *]; done) | split)

@[simp] theorem callPushes_same (x0 : Pc) (x1 : State) : SameMem x1 (callPushes x0 x1) := by
  unfold callPushes; (try dsimp only)
  repeat' (first | (simp [SameMem, Result.All, Out.All, McUnit.All, *]; done) | split)

@[simp] theorem clearPending_same (x0 : Cause) (x1 : Ctx) : (clearPending x0 x1).imem = x1.imem := by
  unfold clearPending; (try dsimp only)
  repeat' (first | (simp [SameMem, Result.All, Out.All, McUnit.All, *]; done) | split)

@[simp] theorem execTidelineSeal_same (s : State) : (execTidelineSeal s).All (SameMem s) := by
  unfold execTidelineSeal
  exact manage_same _ _ _ _ _ (by simp [SameMem])

@[simp] theorem standAt_same (l st g) (s : State) : SameMem s (standAt l st g s) := by simp [standAt, journal, SameMem]

@[simp] theorem execTimedStart_same (x0 : State) : Out.All (SameMem x0) (execTimedStart x0) := by
  unfold execTimedStart; (try dsimp only)
  repeat' (first | (simp [SameMem, Result.All, Out.All, McUnit.All, *]; done) | split)

@[simp] theorem fillFirst_same (x0 : Rnd) (x1 : List Win) (x2 : List Elem) (x3 : VProg) (x4 : State) : SameMem x4 (fillFirst x0 x1 x2 x3 x4).2 := by
  unfold fillFirst; (try dsimp only)
  repeat' (first | (simp [SameMem, Result.All, Out.All, McUnit.All, *]; done) | split)

@[simp] theorem pairFirst_same (x0 : Fin 768) (x1 : List Win) (x2 : List Elem) (x3 : VProg) (x4 : State) : SameMem x4 (pairFirst x0 x1 x2 x3 x4).2 := by
  unfold pairFirst; (try dsimp only)
  repeat' (first | (simp [SameMem, Result.All, Out.All, McUnit.All, *]; done) | split)

@[simp] theorem takeSlot_same (x0 : Issuer) (x1 : State) : SameMem x1 (takeSlot x0 x1) := by
  unfold takeSlot; (try dsimp only)
  repeat' (first | (simp [SameMem, Result.All, Out.All, McUnit.All, *]; done) | split)

@[simp] theorem genAt_same (x0 : Nat) (x1 : Fmt) (x2 : State) : SameMem x2 (genAt x0 x1 x2) := by
  unfold genAt; (try dsimp only)
  repeat' (first | (simp [SameMem, Result.All, Out.All, McUnit.All, *]; done) | split)

end Sys2Proof.Machine
end

