-- ==== Sys2Proof/Laws/Tide.lean ====
section
/-! SUPPORT. What appending to the Tideline does: it adds at most 26 records at the end and leaves those before as they are. -/

namespace Sys2Proof.Machine

/-- At most n records, and at least one, have been added. -/
def Appended (n : Nat) (s t : State) : Prop := ∃ l, t.tide = s.tide ++ l ∧ 1 ≤ l.length ∧ l.length ≤ n

theorem Appended.length {n : Nat} {s t : State} (h : Appended n s t) : t.tide.length ≤ s.tide.length + n := by
  obtain ⟨l, e, _, k⟩ := h
  simp [e, k]

theorem tideOne_tide (source kind part : Nat) (b : List Byte) (fields : List Nat) (s : State) :
    ∃ r, (tideOne source kind part b fields s).tide = s.tide ++ [r] := by
  unfold tideOne
  dsimp only
  split <;> exact ⟨_, rfl⟩

theorem tideRest_tide (source n k : Nat) (b : List Byte) (s : State) :
    ∃ l, (tideRest source n k b s).tide = s.tide ++ l ∧ l.length = n := by
  induction n generalizing k b s with
  | zero => exact ⟨[], by simp [tideRest], rfl⟩
  | succ n ih =>
    obtain ⟨l, e, h⟩ := ih (k + 1) (b.drop 40) (tideOne source tideCont k (b.take 40) [] s)
    obtain ⟨r, f⟩ := tideOne_tide source tideCont k (b.take 40) [] s
    exact ⟨r :: l, by simp [tideRest, e, f], by simp [h]⟩

theorem tidePut_appends (source kind : Nat) (fields : List Nat) (b : List Byte) (s : State) :
    Appended 26 s (tidePut source kind fields b s) := by
  unfold tidePut
  dsimp only
  have size : (b.take 1024).length ≤ 1024 := by simp
  generalize b.take 1024 = c at size ⊢
  obtain ⟨l, e, h⟩ := tideRest_tide source (tideParts c.length - 1) 1 (c.drop 40)
    (tideOne source kind c.length (c.take 40) fields s)
  obtain ⟨r, f⟩ := tideOne_tide source kind c.length (c.take 40) fields s
  refine ⟨r :: l, by simp [e, f], by simp, ?_⟩
  have parts : tideParts c.length ≤ 26 := Nat.max_le.mpr ⟨by decide, by omega⟩
  simp only [List.length_cons, h]
  omega

/-- A record of the machine's own is added with its continuations: 26 records at the most. -/
theorem tideAdd_appends (source kind : Nat) (fields : List Nat) (s : State) :
    Appended 26 s (tideAdd source kind fields s) := tidePut_appends source kind fields _ s

@[simp] theorem titheReply_tide (r : TitheReq) (v : Word) (f : Option TrapInfo) (s : State) :
    (titheReply r v f s).tide = s.tide := by
  unfold titheReply
  split <;> rfl

/-- What the unit decides adds 26 records at the most. -/
theorem titheNext_length (r : TitheReq) (rest : List TitheReq) (s : State) :
    (titheNext r rest s).tide.length ≤ s.tide.length + 26 := by
  have add (k : Nat) (fs : List Nat) (e : State) : (tideAdd titheSource k fs e).tide.length ≤ e.tide.length + 26 :=
    (tideAdd_appends _ k fs e).length
  unfold titheNext
  split
  · unfold writeStatement
    split <;> exact (congrArg List.length (titheReply_tide ..)).trans_le (add _ _ _)
  · unfold decide1
    split
    · split <;> exact (congrArg List.length (titheReply_tide ..)).trans_le (add _ _ _)
    · split
      · simp
      · dsimp only
        split <;> exact (congrArg List.length (titheReply_tide ..)).trans_le (add _ _ _)
    · split
      · exact (congrArg List.length (titheReply_tide ..)).trans_le (add _ _ _)
      · simp
    · exact add _ _ _
    · simp

/-- With room for 26 records the unit decides its oldest request once its time has come. -/
theorem titheRuns_of_room {s : State} {r : TitheReq} {rest : List TitheReq} (h : s.tithe = r :: rest)
    (due : r.due ≤ s.now) (stop : s.svcStop = none) (room : s.tide.length + 26 ≤ Config.tideRecords) :
    titheRuns s (isStatement r.op) = true := by
  have := titheNext_length r rest s
  simp [titheRuns, h, due, stop, tideFits]
  omega

@[simp] theorem memPutOut_tide (pa : Nat) (b : List Byte) (s : State) : (memPutOut pa b s).tide = s.tide := rfl

@[simp] theorem writeHeader_tide (m : Model) (k : Nat) (s : State) : (writeHeader m k s).tide = s.tide := by
  unfold writeHeader
  dsimp only
  split
  · exact memPutOut_tide ..
  · rfl

/-- A layer of a wave adds 26 records at the most to those of its chain of copies. -/
theorem waveLayer_length (ok : Bool) (m : Model) (g k : Nat) (s : State) :
    (waveLayer ok m g k s).tide.length ≤
      (if ok then waveChain waveFuel (memWord s.mem (m.list + 16 * k) 8) s else (false, s)).2.tide.length + 26 := by
  unfold waveLayer
  dsimp only
  generalize (if ok = true then waveChain waveFuel (memWord s.mem (m.list + 16 * k) 8) s else (false, s)) = r
  split
  · exact (tideAdd_appends ..).length.trans_eq (by simp only [setModel, writeHeader_tide])
  · exact (tideAdd_appends ..).length

end Sys2Proof.Machine
end

