-- ==== Sys2Proof/Laws/Word.lean ====
section
/-! SUPPORT. Every instruction word runs through the one issue protocol. -/

namespace Sys2Proof.Machine

/-- An outcome is that of the protocol with this header and these tokens, for some body. -/
def Runs (o : Out) (h : Hdr) (ps ts : List (Fifo × Nat)) (s : State) : Prop :=
  ∃ reads body, o = issueT h ps ts reads body s

theorem runs_issueT (h : Hdr) (ps ts : List (Fifo × Nat)) (reads : List Nat) (body : State → Result) (s : State) :
    Runs (issueT h ps ts reads body s) h ps ts s := ⟨reads, body, rfl⟩
theorem runs_issue (h : Hdr) (reads : List Nat) (body : State → Result) (s : State) :
    Runs (issue h reads body s) h [] [] s := ⟨reads, body, rfl⟩
theorem runs_immOp (f : Word → Word → Word) (lat : Nat) (h : Hdr) (d a : BitVec 6) (imm : BitVec 26) (s : State) :
    Runs (immOp f lat h d a imm s) h [] [] s := runs_issue ..
theorem runs_shiftOp (fn : AluFn) (h : Hdr) (d a n : BitVec 6) (s : State) :
    Runs (shiftOp fn h d a n s) h [] [] s := runs_issue ..
theorem runs_element (h : Hdr) (ed : EOp) (srcs : List EOp) (lat : Nat) (f : List Elem → Elem) (s : State) :
    Runs (element h ed srcs lat f s) h [] [] s := runs_issue ..
theorem runs_vectorOf (h : Hdr) (us : State → List Use) (cs : List Clash) (scal : List EOp) (ids : List Nat)
    (refuse : List Win → State → Option TrapInfo) (first : List Win → List Elem → VProg → State → VProg × State) (plan : List Win → State → Plan) (s : State) :
    Runs (vectorOf h us cs scal ids refuse first plan s) h [] [] s := runs_issue ..
theorem runs_vector (h : Hdr) (us : State → List Use) (cs : List Clash) (scal : List EOp)
    (first : List Win → List Elem → VProg → State → VProg × State) (plan : List Win → State → Plan) (s : State) :
    Runs (vector h us cs scal first plan s) h [] [] s := runs_vectorOf ..
theorem runs_closeIssue (abort : Bool) (h : Hdr) (b : BitVec 2) (s : State) :
    Runs (closeIssue abort h b s) h [] [] s := runs_issue ..
theorem runs_copyIssue (two : Bool) (h : Hdr) (a : BitVec 6) (ev : Bool) (tag : BitVec 11) (s : State) :
    Runs (copyIssue two h a ev tag s) h [] [] s := runs_issue ..
theorem runs_fabricIssue (send red : Bool) (h : Hdr) (a : BitVec 6) (ev : Bool) (tag : BitVec 11) (s : State) :
    Runs (fabricIssue send red h a ev tag s) h [] [] s := runs_issue ..
theorem runs_kvIssue (op : KvOp) (h : Hdr) (d a : BitVec 6) (s : State) :
    Runs (kvIssue op h d a s) h [] [] s := runs_issue ..
theorem runs_nop (h : Hdr) (s : State) :
    Runs (exec (.nop h) s) h [] [] s := by
  rw [exec_nop]; unfold execNop; exact runs_issue ..
theorem runs_li (h : Hdr) (d : BitVec 6) (imm : BitVec 32) (s : State) :
    Runs (exec (.li h d imm) s) h [] [] s := by
  rw [exec_li]; unfold execLi; exact runs_issue ..
theorem runs_lih (h : Hdr) (d : BitVec 6) (imm : BitVec 32) (s : State) :
    Runs (exec (.lih h d imm) s) h [] [] s := by
  rw [exec_lih]; unfold execLih; exact runs_issue ..
theorem runs_alu (h : Hdr) (fn : AluFn) (d a b : BitVec 6) (s : State) :
    Runs (exec (.alu h fn d a b) s) h [] [] s := by
  rw [exec_alu]; unfold execAlu; exact runs_issue ..
theorem runs_addi (h : Hdr) (d a : BitVec 6) (imm : BitVec 26) (s : State) :
    Runs (exec (.addi h d a imm) s) h [] [] s := by
  rw [exec_addi]; unfold execAddi; exact runs_immOp ..
theorem runs_andi (h : Hdr) (d a : BitVec 6) (imm : BitVec 26) (s : State) :
    Runs (exec (.andi h d a imm) s) h [] [] s := by
  rw [exec_andi]; unfold execAndi; exact runs_immOp ..
theorem runs_ori (h : Hdr) (d a : BitVec 6) (imm : BitVec 26) (s : State) :
    Runs (exec (.ori h d a imm) s) h [] [] s := by
  rw [exec_ori]; unfold execOri; exact runs_immOp ..
theorem runs_xori (h : Hdr) (d a : BitVec 6) (imm : BitVec 26) (s : State) :
    Runs (exec (.xori h d a imm) s) h [] [] s := by
  rw [exec_xori]; unfold execXori; exact runs_immOp ..
theorem runs_shli (h : Hdr) (d a n : BitVec 6) (s : State) :
    Runs (exec (.shli h d a n) s) h [] [] s := by
  rw [exec_shli]; unfold execShli; exact runs_shiftOp ..
theorem runs_shri (h : Hdr) (d a n : BitVec 6) (s : State) :
    Runs (exec (.shri h d a n) s) h [] [] s := by
  rw [exec_shri]; unfold execShri; exact runs_shiftOp ..
theorem runs_sari (h : Hdr) (d a n : BitVec 6) (s : State) :
    Runs (exec (.sari h d a n) s) h [] [] s := by
  rw [exec_sari]; unfold execSari; exact runs_shiftOp ..
theorem runs_muli (h : Hdr) (d a : BitVec 6) (imm : BitVec 26) (s : State) :
    Runs (exec (.muli h d a imm) s) h [] [] s := by
  rw [exec_muli]; unfold execMuli; exact runs_immOp ..
theorem runs_cmp (h : Hdr) (cc : CmpCc) (pd : BitVec 4) (a b : BitVec 6) (s : State) :
    Runs (exec (.cmp h cc pd a b) s) h [] [] s := by
  rw [exec_cmp]; unfold execCmp; exact runs_issue ..
theorem runs_cmpi (h : Hdr) (cc : CmpCc) (pd : BitVec 4) (a : BitVec 6) (imm : BitVec 20) (s : State) :
    Runs (exec (.cmpi h cc pd a imm) s) h [] [] s := by
  rw [exec_cmpi]; unfold execCmpi; exact runs_issue ..
theorem runs_plog (h : Hdr) (fn : PlogFn) (d a b : BitVec 4) (s : State) :
    Runs (exec (.plog h fn d a b) s) h [] [] s := by
  rw [exec_plog]; unfold execPlog; exact runs_issue ..
theorem runs_sel (h : Hdr) (d a b : BitVec 6) (s : State) :
    Runs (exec (.sel h d a b) s) (Hdr.noGuard h) [] [] s := by
  rw [exec_sel]; unfold execSel; exact runs_issue ..
theorem runs_lea (h : Hdr) (scale : BitVec 2) (d a b : BitVec 6) (s : State) :
    Runs (exec (.lea h scale d a b) s) h [] [] s := by
  rw [exec_lea]; unfold execLea; exact runs_issue ..
theorem runs_br (h : Hdr) (off : BitVec 32) (s : State) :
    Runs (exec (.br h off) s) h [] [] s := by
  rw [exec_br]; unfold execBr; exact runs_issue ..
theorem runs_call (h : Hdr) (off : BitVec 32) (s : State) :
    Runs (exec (.call h off) s) h [] [] s := by
  rw [exec_call]; unfold execCall; exact runs_issue ..
theorem runs_jr (h : Hdr) (d a : BitVec 6) (s : State) :
    Runs (exec (.jr h d a) s) h [] [] s := by
  rw [exec_jr]; unfold execJr; exact runs_issue ..
theorem runs_loop (h : Hdr) (n : BitVec 3) (src : LoopSrc) (s : State) :
    Runs (exec (.loop h n src) s) h [] [] s := by
  rw [exec_loop]; unfold execLoop; exact runs_issue ..
theorem runs_endl (h : Hdr) (n : BitVec 3) (off : BitVec 32) (s : State) :
    Runs (exec (.endl h n off) s) h [] [] s := by
  rw [exec_endl]; unfold execEndl; exact runs_issue ..
theorem runs_safe (h : Hdr) (s : State) :
    Runs (exec (.safe h) s) h [] [] s := by
  rw [exec_safe]; unfold execSafe; exact runs_issue ..
theorem runs_endT (h : Hdr) (s : State) :
    Runs (exec (.endT h) s) h [] [] s := by
  rw [exec_endT]; unfold execEndT; exact runs_issue ..
theorem runs_ldk (h : Hdr) (sz : Sz) (d a : BitVec 6) (ac : BitVec 3) (off : BitVec 20) (s : State) :
    Runs (exec (.ldk h sz d a ac off) s) h [] [] s := by
  rw [exec_ldk]; unfold execLdk; exact runs_issue ..
theorem runs_stk (h : Hdr) (sz : Sz) (d a : BitVec 6) (ac : BitVec 3) (off : BitVec 20) (s : State) :
    Runs (exec (.stk h sz d a ac off) s) h [] [] s := by
  rw [exec_stk]; unfold execStk; exact runs_issue ..
theorem runs_lds (h : Hdr) (sz : Sz) (d a : BitVec 6) (off : BitVec 20) (s : State) :
    Runs (exec (.lds h sz d a off) s) h [] [] s := by
  rw [exec_lds]; unfold execLds; exact runs_issue ..
theorem runs_sts (h : Hdr) (sz : Sz) (d a : BitVec 6) (off : BitVec 20) (s : State) :
    Runs (exec (.sts h sz d a off) s) h [] [] s := by
  rw [exec_sts]; unfold execSts; exact runs_issue ..
theorem runs_rsr (h : Hdr) (d : BitVec 6) (r : SpecialReg) (s : State) :
    Runs (exec (.rsr h d r) s) h [] [] s := by
  rw [exec_rsr]; unfold execRsr; exact runs_issue ..
theorem runs_wsr (h : Hdr) (r : SpecialReg) (a : BitVec 6) (s : State) :
    Runs (exec (.wsr h r a) s) h [] [] s := by
  rw [exec_wsr]; unfold execWsr; exact runs_issue ..
theorem runs_epush (h : Hdr) (port : Port) (a : BitVec 6) (s : State) :
    Runs (exec (.epush h port a) s) h [] [] s := by
  rw [exec_epush]; unfold execEpush; exact runs_issue ..
theorem runs_epop (h : Hdr) (d : BitVec 6) (port : Port) (s : State) :
    Runs (exec (.epop h d port) s) h [] [] s := by
  rw [exec_epop]; unfold execEpop; exact runs_issue ..
theorem runs_ecountOut (h : Hdr) (d : BitVec 6) (port : Port) (s : State) :
    Runs (exec (.ecountOut h d port) s) h [] [] s := by
  rw [exec_ecountOut]; unfold execEcountOut; exact runs_issue ..
theorem runs_ecountIn (h : Hdr) (d : BitVec 6) (port : Port) (s : State) :
    Runs (exec (.ecountIn h d port) s) h [] [] s := by
  rw [exec_ecountIn]; unfold execEcountIn; exact runs_issue ..
theorem runs_rnd (h : Hdr) (d : BitVec 6) (s : State) :
    Runs (exec (.rnd h d) s) h [] [] s := by
  rw [exec_rnd]; unfold execRnd; exact runs_issue ..
theorem runs_tkp (h : Hdr) (f : Fifo) (n : BitVec 6) (s : State) :
    Runs (exec (.tkp h f n) s) h [(f, n.toNat)] [] s := by
  rw [exec_tkp]; unfold execTkp; exact runs_issueT ..
theorem runs_tkw (h : Hdr) (f : Fifo) (n : BitVec 6) (s : State) :
    Runs (exec (.tkw h f n) s) h [] [(f, n.toNat)] s := by
  rw [exec_tkw]; unfold execTkw; exact runs_issueT ..
theorem runs_tkc (h : Hdr) (d : BitVec 6) (f : Fifo) (s : State) :
    Runs (exec (.tkc h d f) s) h [] [] s := by
  rw [exec_tkc]; unfold execTkc; exact runs_issue ..
theorem runs_bar (h : Hdr) (b : BitVec 2) (s : State) :
    Runs (exec (.bar h b) s) h [] [] s := by
  rw [exec_bar]; unfold execBar; exact runs_issue ..
theorem runs_bara (h : Hdr) (b : BitVec 2) (s : State) :
    Runs (exec (.bara h b) s) h [] [] s := by
  rw [exec_bara]; unfold execBara; exact runs_issue ..
theorem runs_barw (h : Hdr) (b : BitVec 2) (s : State) :
    Runs (exec (.barw h b) s) h [] [] s := by
  rw [exec_barw]; unfold execBarw; exact runs_issue ..
theorem runs_renq (h : Hdr) (a b : BitVec 6) (s : State) :
    Runs (exec (.renq h a b) s) h [] [] s := by
  rw [exec_renq]; unfold execRenq; exact runs_issue ..
theorem runs_amo (h : Hdr) (op : AmoOp) (sc : Scope) (dw : Bool) (d a b : BitVec 6) (s : State) :
    Runs (exec (.amo h op sc dw d a b) s) h [] [] s := by
  rw [exec_amo]; unfold execAmo; exact runs_issue ..
theorem runs_fence (h : Hdr) (kind : FenceKind) (sc : Scope) (s : State) :
    Runs (exec (.fence h kind sc) s) h [] [] s := by
  rw [exec_fence]; unfold execFence; exact runs_issue ..
theorem runs_mark (h : Hdr) (s : State) :
    Runs (exec (.mark h) s) h [] [] s := by
  rw [exec_mark]; unfold execMark; exact runs_issue ..
theorem runs_wfe (h : Hdr) (imm : BitVec 20) (s : State) :
    Runs (exec (.wfe h imm) s) h [] [] s := by
  rw [exec_wfe]; unfold execWfe; exact runs_issue ..
theorem runs_sysCall (h : Hdr) (imm : BitVec 20) (s : State) :
    Runs (exec (.sysCall h imm) s) (if guardOf s h then { h with sp := false, sn := false } else h) [] [] s := by
  rw [exec_sysCall]; unfold execSysCall; exact runs_issue ..
theorem runs_sysResume (h : Hdr) (st : BitVec 2) (s : State) :
    Runs (exec (.sysResume h st) s) h [] [] s := by
  rw [exec_sysResume]; unfold execSysResume; exact runs_issue ..
theorem runs_sysKill (h : Hdr) (imm : BitVec 20) (s : State) :
    Runs (exec (.sysKill h imm) s) h [] [] s := by
  rw [exec_sysKill]; unfold execSysKill; exact runs_issue ..
theorem runs_sysTmr (h : Hdr) (mask : BitVec 4) (imm : BitVec 20) (s : State) :
    Runs (exec (.sysTmr h mask imm) s) h [] [] s := by
  rw [exec_sysTmr]; unfold execSysTmr; exact runs_issue ..
theorem runs_trap (h : Hdr) (imm : BitVec 20) (s : State) :
    Runs (exec (.trap h imm) s) h [] [] s := by
  rw [exec_trap]; unfold execTrap; exact runs_issue ..
theorem runs_brk (h : Hdr) (imm : BitVec 20) (s : State) :
    Runs (exec (.brk h imm) s) h [] [] s := by
  rw [exec_brk]; unfold execBrk; exact runs_issue ..
theorem runs_rfi (h : Hdr) (s : State) :
    Runs (exec (.rfi h) s) h [] [] s := by
  rw [exec_rfi]; unfold execRfi; exact runs_issue ..
theorem runs_ld (h : Hdr) (zp : Bool) (sz : Sz) (q : Fin 8) (ab : BitVec 6) (ac : BitVec 3) (off : BitVec 16) (s : State) :
    Runs (exec (.ld h zp sz q ab ac off) s) h [] [] s := by
  rw [exec_ld]; unfold execLd; exact runs_issue ..
theorem runs_ldp (h : Hdr) (sz : Sz) (q : Fin 8) (ab : BitVec 6) (ac : BitVec 3) (off : BitVec 16) (s : State) :
    Runs (exec (.ldp h sz q ab ac off) s) h [] [] s := by
  rw [exec_ldp]; unfold execLdp; exact runs_issue ..
theorem runs_ldi (h : Hdr) (sz : Sz) (q : Fin 4) (ab : BitVec 6) (ac : BitVec 3) (off : BitVec 16) (s : State) :
    Runs (exec (.ldi h sz q ab ac off) s) h [] [] s := by
  rw [exec_ldi]; unfold execLdi; exact runs_issue ..
theorem runs_ldg (h : Hdr) (zp : Bool) (sz : Sz) (iq : Fin 4) (q : Fin 8) (ab : BitVec 6) (ac : BitVec 3) (off : BitVec 16) (s : State) :
    Runs (exec (.ldg h zp sz iq q ab ac off) s) h [] [] s := by
  rw [exec_ldg]; unfold execLdg; exact runs_issue ..
theorem runs_ldr (h : Hdr) (f : BitVec 4) (pitch : BitVec 4) (ab : BitVec 6) (ac : BitVec 3) (off : BitVec 16) (s : State) :
    Runs (exec (.ldr h f pitch ab ac off) s) h [] [] s := by
  rw [exec_ldr]; unfold execLdr; exact runs_issue ..
theorem runs_ldw (h : Hdr) (w : BitVec 5) (ab : BitVec 6) (ac : BitVec 3) (off : BitVec 16) (s : State) :
    Runs (exec (.ldw h w ab ac off) s) h [] [] s := by
  rw [exec_ldw]; unfold execLdw; exact runs_issue ..
theorem runs_pf (h : Hdr) (tr : Bool) (ab : BitVec 6) (off : BitVec 16) (s : State) :
    Runs (exec (.pf h tr ab off) s) h [] [] s := by
  rw [exec_pf]; unfold execPf; exact runs_issue ..
theorem runs_st (h : Hdr) (sz : Sz) (q : Fin 8) (ab : BitVec 6) (ac : BitVec 3) (off : BitVec 16) (s : State) :
    Runs (exec (.st h sz q ab ac off) s) h [] [] s := by
  rw [exec_st]; unfold execSt; exact runs_issue ..
theorem runs_stp (h : Hdr) (sz : Sz) (q : Fin 8) (ab : BitVec 6) (ac : BitVec 3) (off : BitVec 16) (s : State) :
    Runs (exec (.stp h sz q ab ac off) s) h [] [] s := by
  rw [exec_stp]; unfold execStp; exact runs_issue ..
theorem runs_stg (h : Hdr) (sz : Sz) (iq : Fin 8) (q : Fin 8) (ab : BitVec 6) (ac : BitVec 3) (off : BitVec 16) (s : State) :
    Runs (exec (.stg h sz iq q ab ac off) s) h [] [] s := by
  rw [exec_stg]; unfold execStg; exact runs_issue ..
theorem runs_stw (h : Hdr) (w : BitVec 5) (ab : BitVec 6) (ac : BitVec 3) (off : BitVec 16) (s : State) :
    Runs (exec (.stw h w ab ac off) s) h [] [] s := by
  rw [exec_stw]; unfold execStw; exact runs_issue ..
theorem runs_stt (h : Hdr) (keep : Bool) (f : BitVec 4) (pitch : BitVec 4) (ab : BitVec 6) (ac : BitVec 3) (off : BitVec 16) (s : State) :
    Runs (exec (.stt h keep f pitch ab ac off) s) h [] [] s := by
  rw [exec_stt]; unfold execStt; exact runs_issue ..
theorem runs_qfl (h : Hdr) (q : QName) (s : State) :
    Runs (exec (.qfl h q) s) h [] [] s := by
  rw [exec_qfl]; unfold execQfl; exact runs_issue ..
theorem runs_qln (h : Hdr) (dst : QlnDst) (q : QName) (s : State) :
    Runs (exec (.qln h dst q) s) h [] [] s := by
  rw [exec_qln]; unfold execQln; exact runs_issue ..
theorem runs_fop (h : Hdr) (fn : FopFn) (ed ea eb : EOp) (s : State) :
    Runs (exec (.fop h fn ed ea eb) s) h [] [] s := by
  rw [exec_fop]; unfold execFop; exact runs_element ..
theorem runs_fma (h : Hdr) (c : Addend) (ed ea eb : EOp) (s : State) :
    Runs (exec (.fma h c ed ea eb) s) h [] [] s := by
  rw [exec_fma]; unfold execFma; exact runs_element ..
theorem runs_fnma (h : Hdr) (c : Addend) (ed ea eb : EOp) (s : State) :
    Runs (exec (.fnma h c ed ea eb) s) h [] [] s := by
  rw [exec_fnma]; unfold execFnma; exact runs_element ..
theorem runs_frcp (h : Hdr) (ed ea : EOp) (s : State) :
    Runs (exec (.frcp h ed ea) s) h [] [] s := by
  rw [exec_frcp]; unfold execFrcp; exact runs_element ..
theorem runs_frsq (h : Hdr) (ed ea : EOp) (s : State) :
    Runs (exec (.frsq h ed ea) s) h [] [] s := by
  rw [exec_frsq]; unfold execFrsq; exact runs_element ..
theorem runs_frfr (h : Hdr) (ed ea eb : EOp) (s : State) :
    Runs (exec (.frfr h ed ea eb) s) h [] [] s := by
  rw [exec_frfr]; unfold execFrfr; exact runs_element ..
theorem runs_frfs (h : Hdr) (ed ea eb : EOp) (s : State) :
    Runs (exec (.frfs h ed ea eb) s) h [] [] s := by
  rw [exec_frfs]; unfold execFrfs; exact runs_element ..
theorem runs_fcmp (h : Hdr) (cc : FcmpCc) (pd : BitVec 4) (ea eb : EOp) (s : State) :
    Runs (exec (.fcmp h cc pd ea eb) s) h [] [] s := by
  rw [exec_fcmp]; unfold execFcmp; exact runs_issue ..
theorem runs_icmp (h : Hdr) (cc : CmpCc) (pd : BitVec 4) (ea eb : EOp) (s : State) :
    Runs (exec (.icmp h cc pd ea eb) s) h [] [] s := by
  rw [exec_icmp]; unfold execIcmp; exact runs_issue ..
theorem runs_fcvt (h : Hdr) (dst src : Fmt) (r : Rnd) (ed ea : EOp) (s : State) :
    Runs (exec (.fcvt h dst src r ed ea) s) h [] [] s := by
  rw [exec_fcvt]; unfold execFcvt; exact runs_issue ..
theorem runs_iop (h : Hdr) (fn : IopFn) (ed ea eb : EOp) (s : State) :
    Runs (exec (.iop h fn ed ea eb) s) h [] [] s := by
  rw [exec_iop]; unfold execIop; exact runs_element ..
theorem runs_eli (h : Hdr) (ed : EOp) (imm : BitVec 18) (s : State) :
    Runs (exec (.eli h ed imm) s) h [] [] s := by
  rw [exec_eli]; unfold execEli; exact runs_element ..
theorem runs_elih (h : Hdr) (ed : Fin 768) (imm : BitVec 14) (s : State) :
    Runs (exec (.elih h ed imm) s) h [] [] s := by
  rw [exec_elih]; unfold execElih; exact runs_element ..
theorem runs_emov (h : Hdr) (ed ea : EOp) (s : State) :
    Runs (exec (.emov h ed ea) s) h [] [] s := by
  rw [exec_emov]; unfold execEmov; exact runs_element ..
theorem runs_esel (h : Hdr) (ed ea eb : EOp) (s : State) :
    Runs (exec (.esel h ed ea eb) s) (Hdr.noGuard h) [] [] s := by
  rw [exec_esel]; unfold execEsel; exact runs_issue ..
theorem runs_rot (h : Hdr) (imm : BitVec 18) (s : State) :
    Runs (exec (.rot h imm) s) h [] [] s := by
  rw [exec_rot]; unfold execRot; exact runs_issue ..
theorem runs_lbr (h : Hdr) (n : BitVec 3) (off : BitVec 18) (s : State) :
    Runs (exec (.lbr h n off) s) h [] [] s := by
  rw [exec_lbr]; unfold execLbr; exact runs_issue ..
theorem runs_eld (h : Hdr) (ed : EOp) (base : Option (Fin 768)) (off : BitVec 18) (s : State) :
    Runs (exec (.eld h ed base off) s) h [] [] s := by
  rw [exec_eld]; unfold execEld; exact runs_issue ..
theorem runs_est (h : Hdr) (data : Fin 768) (base : Option (Fin 768)) (off : BitVec 18) (s : State) :
    Runs (exec (.est h data base off) s) h [] [] s := by
  rw [exec_est]; unfold execEst; exact runs_issue ..
theorem runs_vop (h : Hdr) (fn : VecOp) (r : Rnd) (wd wa wb : BitVec 5) (s : State) :
    Runs (exec (.vop h fn r wd wa wb) s) h [] [] s := by
  rw [exec_vop]; unfold execVop; exact runs_vector ..
theorem runs_vfma (h : Hdr) (neg : Bool) (sc : Option EOp) (r : Rnd) (wd wa wb : BitVec 5) (s : State) :
    Runs (exec (.vfma h neg sc r wd wa wb) s) h [] [] s := by
  rw [exec_vfma]; unfold execVfma; exact runs_vector ..
theorem runs_vsc (h : Hdr) (fn : VecOp) (r : Rnd) (wd wa : BitVec 5) (ea : EOp) (s : State) :
    Runs (exec (.vsc h fn r wd wa ea) s) h [] [] s := by
  rw [exec_vsc]; unfold execVsc; exact runs_vector ..
theorem runs_vun (h : Hdr) (fn : VunFn) (r : Rnd) (wd wa : BitVec 5) (s : State) :
    Runs (exec (.vun h fn r wd wa) s) h [] [] s := by
  rw [exec_vun]; unfold execVun; exact runs_vector ..
theorem runs_vcvt (h : Hdr) (r : Rnd) (wd wa : BitVec 5) (s : State) :
    Runs (exec (.vcvt h r wd wa) s) h [] [] s := by
  rw [exec_vcvt]; unfold execVcvt; exact runs_vector ..
theorem runs_vred (h : Hdr) (fn : VredFn) (idx : Bool) (wa : BitVec 5) (ea : Fin 768) (s : State) :
    Runs (exec (.vred h fn idx wa ea) s) h [] [] s := by
  rw [exec_vred]; unfold execVred; exact runs_vector ..
theorem runs_vscan (h : Hdr) (exc : Bool) (r : Rnd) (wd wa : BitVec 5) (s : State) :
    Runs (exec (.vscan h exc r wd wa) s) h [] [] s := by
  rw [exec_vscan]; unfold execVscan; exact runs_vector ..
theorem runs_vcmp (h : Hdr) (cc : VcmpCc) (sc : Option EOp) (wd wa wb : BitVec 5) (s : State) :
    Runs (exec (.vcmp h cc sc wd wa wb) s) h [] [] s := by
  rw [exec_vcmp]; unfold execVcmp; exact runs_vector ..
theorem runs_vsel (h : Hdr) (wd wa wb wm : BitVec 5) (s : State) :
    Runs (exec (.vsel h wd wa wb wm) s) h [] [] s := by
  rw [exec_vsel]; unfold execVsel; exact runs_vector ..
theorem runs_vcpr (h : Hdr) (wd wa wm : BitVec 5) (ea : Fin 768) (s : State) :
    Runs (exec (.vcpr h wd wa wm ea) s) h [] [] s := by
  rw [exec_vcpr]; unfold execVcpr; exact runs_vector ..
theorem runs_vxpd (h : Hdr) (wd wa wm : BitVec 5) (ea : Fin 768) (s : State) :
    Runs (exec (.vxpd h wd wa wm ea) s) h [] [] s := by
  rw [exec_vxpd]; unfold execVxpd; exact runs_vector ..
theorem runs_vgat (h : Hdr) (z : Bool) (wd wa wb : BitVec 5) (s : State) :
    Runs (exec (.vgat h z wd wa wb) s) h [] [] s := by
  rw [exec_vgat]; unfold execVgat; exact runs_vector ..
theorem runs_vsct (h : Hdr) (drop : Bool) (wd wa wb : BitVec 5) (s : State) :
    Runs (exec (.vsct h drop wd wa wb) s) h [] [] s := by
  rw [exec_vsct]; unfold execVsct; exact runs_vector ..
theorem runs_vsca (h : Hdr) (drop : Bool) (wd wa wb : BitVec 5) (s : State) :
    Runs (exec (.vsca h drop wd wa wb) s) h [] [] s := by
  rw [exec_vsca]; unfold execVsca; exact runs_vector ..
theorem runs_vfill (h : Hdr) (r : Rnd) (wd : BitVec 5) (ea : EOp) (s : State) :
    Runs (exec (.vfill h r wd ea) s) h [] [] s := by
  rw [exec_vfill]; unfold execVfill; exact runs_vector ..
theorem runs_vrnd (h : Hdr) (unif : Bool) (wd : BitVec 5) (s : State) :
    Runs (exec (.vrnd h unif wd) s) h [] [] s := by
  rw [exec_vrnd]; unfold execVrnd; exact runs_vector ..
theorem runs_vhad (h : Hdr) (inv : Bool) (k : BitVec 4) (wd wa : BitVec 5) (ea : Fin 768) (s : State) :
    Runs (exec (.vhad h inv k wd wa ea) s) h [] [] s := by
  rw [exec_vhad]; unfold execVhad; exact runs_vectorOf ..
theorem runs_vqnt (h : Hdr) (mode : RMode) (wd wa wb : BitVec 5) (s : State) :
    Runs (exec (.vqnt h mode wd wa wb) s) h [] [] s := by
  rw [exec_vqnt]; unfold execVqnt; exact runs_vector ..
theorem runs_vdqt (h : Hdr) (r : Rnd) (wd wa wb : BitVec 5) (s : State) :
    Runs (exec (.vdqt h r wd wa wb) s) h [] [] s := by
  rw [exec_vdqt]; unfold execVdqt; exact runs_vector ..
theorem runs_vtopk (h : Hdr) (wd wa wb : BitVec 5) (ea : Fin 768) (s : State) :
    Runs (exec (.vtopk h wd wa wb ea) s) h [] [] s := by
  rw [exec_vtopk]; unfold execVtopk; exact runs_vectorOf ..
theorem runs_vsamp (h : Hdr) (res : Bool) (wa wb : BitVec 5) (ea : Fin 768) (s : State) :
    Runs (exec (.vsamp h res wa wb ea) s) h [] [] s := by
  rw [exec_vsamp]; unfold execVsamp; cases res
  · exact runs_vector ..
  · exact runs_issue ..
theorem runs_vsoft (h : Hdr) (wd wa : BitVec 5) (s : State) :
    Runs (exec (.vsoft h wd wa) s) h [] [] s := by
  rw [exec_vsoft]; unfold execVsoft; exact runs_vector ..
theorem runs_wset (h : Hdr) (fn : WsetFn) (wd : BitVec 5) (ea : EOp) (s : State) :
    Runs (exec (.wset h fn wd ea) s) h [] [] s := by
  rw [exec_wset]; unfold execWset; cases fn <;> exact runs_issue ..
theorem runs_wget (h : Hdr) (rowf : Bool) (wa : BitVec 5) (ea : Fin 768) (s : State) :
    Runs (exec (.wget h rowf wa ea) s) h [] [] s := by
  rw [exec_wget]; unfold execWget; exact runs_issue ..
theorem runs_vbit (h : Hdr) (fn : VbitFn) (valid drop : Bool) (wd wa wb : BitVec 5) (ea : Fin 768) (s : State) :
    Runs (exec (.vbit h fn valid drop wd wa wb ea) s) h [] [] s := by
  rw [exec_vbit]; unfold execVbit; cases fn <;> exact runs_vector ..
theorem runs_vmov (h : Hdr) (wd wa : BitVec 5) (s : State) :
    Runs (exec (.vmov h wd wa) s) h [] [] s := by
  rw [exec_vmov]; unfold execVmov; exact runs_vector ..
theorem runs_mtw (h : Hdr) (lvl : Fin 6) (a : BitVec 6) (role : Role) (s : State) :
    Runs (exec (.mtw h lvl a role) s) h [] [] s := by
  rw [exec_mtw]; unfold execMtw; exact runs_issue ..
theorem runs_mtr (h : Hdr) (role : Bool) (d : BitVec 6) (lvl : Fin 6) (s : State) :
    Runs (exec (.mtr h role d lvl) s) h [] [] s := by
  rw [exec_mtr]; unfold execMtr; exact runs_issue ..
theorem runs_mcfg (h : Hdr) (mode : Fusion) (r : Rnd) (s : State) :
    Runs (exec (.mcfg h mode r) s) h [] [] s := by
  rw [exec_mcfg]; unfold execMcfg; exact runs_issue ..
theorem runs_mfmt (h : Hdr) (a : BitVec 6) (s : State) :
    Runs (exec (.mfmt h a) s) h [] [] s := by
  rw [exec_mfmt]; unfold execMfmt; exact runs_issue ..
theorem runs_mgo (h : Hdr) (a : BitVec 6) (ev : Bool) (tag : BitVec 11) (s : State) :
    Runs (exec (.mgo h a ev tag) s) h [] [] s := by
  rw [exec_mgo]; unfold execMgo; exact runs_issue ..
theorem runs_mtile (h : Hdr) (a : BitVec 6) (ev : Bool) (tag : BitVec 11) (s : State) :
    Runs (exec (.mtile h a ev tag) s) h [] [] s := by
  rw [exec_mtile]; unfold execMtile; exact runs_issue ..
theorem runs_mwait (h : Hdr) (s : State) :
    Runs (exec (.mwait h) s) h [] [] s := by
  rw [exec_mwait]; unfold execMwait; exact runs_issue ..
theorem runs_mzero (h : Hdr) (a : BitVec 6) (s : State) :
    Runs (exec (.mzero h a) s) h [] [] s := by
  rw [exec_mzero]; unfold execMzero; exact runs_issue ..
theorem runs_mdrain (h : Hdr) (f : BitVec 4) (a : BitVec 6) (ev : Bool) (tag : BitVec 11) (s : State) :
    Runs (exec (.mdrain h f a ev tag) s) h [] [] s := by
  rw [exec_mdrain]; unfold execMdrain; exact runs_issue ..
theorem runs_mtsm (h : Hdr) (s : State) :
    Runs (exec (.mtsm h) s) h [] [] s := by
  rw [exec_mtsm]; unfold execMtsm; exact runs_issue ..
theorem runs_fset (h : Hdr) (f : BitVec 4) (a : BitVec 6) (s : State) :
    Runs (exec (.fset h f a) s) h [] [] s := by
  rw [exec_fset]; unfold execFset; exact runs_issue ..
theorem runs_fget (h : Hdr) (state : Bool) (d : BitVec 6) (f : BitVec 4) (s : State) :
    Runs (exec (.fget h state d f) s) h [] [] s := by
  rw [exec_fget]; unfold execFget; exact runs_issue ..
theorem runs_fdrop (h : Hdr) (f : BitVec 4) (a : BitVec 6) (s : State) :
    Runs (exec (.fdrop h f a) s) h [] [] s := by
  rw [exec_fdrop]; unfold execFdrop; exact runs_issue ..
theorem runs_hgen (h : Hdr) (wa ws : BitVec 5) (s : State) :
    Runs (exec (.hgen h wa ws) s) h [] [] s := by
  rw [exec_hgen]; unfold execHgen; exact runs_issue ..
theorem runs_hgenRel (h : Hdr) (wa : BitVec 5) (s : State) :
    Runs (exec (.hgenRel h wa) s) h [] [] s := by
  rw [exec_hgenRel]; unfold execHgenRel; exact runs_issue ..
theorem runs_hchk (h : Hdr) (ro : Bool) (t : HTarget) (ea : Option (Fin 768)) (s : State) :
    Runs (exec (.hchk h ro t ea) s) h [] [] s := by
  rw [exec_hchk]; unfold execHchk; exact runs_issue ..
theorem runs_hfix (h : Hdr) (corr : Bool) (t : HTarget) (ea : Fin 768) (s : State) :
    Runs (exec (.hfix h corr t ea) s) h [] [] s := by
  rw [exec_hfix]; unfold execHfix; exact runs_issue ..
theorem runs_hupd (h : Hdr) (wd wa : BitVec 5) (s : State) :
    Runs (exec (.hupd h wd wa) s) h [] [] s := by
  rw [exec_hupd]; unfold execHupd; exact runs_issue ..
theorem runs_hrd (h : Hdr) (t : HTarget) (ea : Fin 768) (s : State) :
    Runs (exec (.hrd h t ea) s) h [] [] s := by
  rw [exec_hrd]; unfold execHrd; exact runs_issue ..
theorem runs_htol (h : Hdr) (ea : EOp) (s : State) :
    Runs (exec (.htol h ea) s) h [] [] s := by
  rw [exec_htol]; unfold execHtol; exact runs_issue ..
theorem runs_mccfg (h : Hdr) (d a f : BitVec 6) (s : State) :
    Runs (exec (.mccfg h d a f) s) h [] [] s := by
  rw [exec_mccfg]; unfold execMccfg; exact runs_issue ..
theorem runs_mccfgRst (h : Hdr) (s : State) :
    Runs (exec (.mccfgRst h) s) h [] [] s := by
  rw [exec_mccfgRst]; unfold execMccfgRst; exact runs_issue ..
theorem runs_mcld (h : Hdr) (a f : BitVec 6) (ev : Bool) (tag : BitVec 11) (s : State) :
    Runs (exec (.mcld h a f ev tag) s) h [] [] s := by
  rw [exec_mcld]; unfold execMcld; exact runs_issue ..
theorem runs_mcldL (h : Hdr) (a : BitVec 6) (ev : Bool) (tag : BitVec 11) (s : State) :
    Runs (exec (.mcldL h a ev tag) s) h [] [] s := by
  rw [exec_mcldL]; unfold execMcldL; exact runs_issue ..
theorem runs_mcldR (h : Hdr) (a f : BitVec 6) (ev : Bool) (tag : BitVec 11) (s : State) :
    Runs (exec (.mcldR h a f ev tag) s) h [] [] s := by
  rw [exec_mcldR]; unfold execMcldR; exact runs_issue ..
theorem runs_mcst (h : Hdr) (glob : Bool) (a f : BitVec 6) (ev : Bool) (tag : BitVec 11) (s : State) :
    Runs (exec (.mcst h glob a f ev tag) s) h [] [] s := by
  rw [exec_mcst]; unfold execMcst; exact runs_issue ..
theorem runs_mccmp (h : Hdr) (a : BitVec 6) (ev : Bool) (tag : BitVec 11) (s : State) :
    Runs (exec (.mccmp h a ev tag) s) h [] [] s := by
  rw [exec_mccmp]; unfold execMccmp; exact runs_issue ..
theorem runs_mctree (h : Hdr) (a : BitVec 6) (ev : Bool) (tag : BitVec 11) (s : State) :
    Runs (exec (.mctree h a ev tag) s) h [] [] s := by
  rw [exec_mctree]; unfold execMctree; exact runs_issue ..
theorem runs_mcapp (h : Hdr) (d a f : BitVec 6) (s : State) :
    Runs (exec (.mcapp h d a f) s) h [] [] s := by
  rw [exec_mcapp]; unfold execMcapp; exact runs_issue ..
theorem runs_mcappT (h : Hdr) (d a f : BitVec 6) (s : State) :
    Runs (exec (.mcappT h d a f) s) h [] [] s := by
  rw [exec_mcappT]; unfold execMcappT; exact runs_issue ..
theorem runs_mcmsk (h : Hdr) (a f : BitVec 6) (ev : Bool) (tag : BitVec 11) (s : State) :
    Runs (exec (.mcmsk h a f ev tag) s) h [] [] s := by
  rw [exec_mcmsk]; unfold execMcmsk; exact runs_issue ..
theorem runs_mcchk (h : Hdr) (fn : McchkFn) (pd : BitVec 4) (a : BitVec 6) (s : State) :
    Runs (exec (.mcchk h fn pd a) s) h [] [] s := by
  rw [exec_mcchk]; unfold execMcchk; exact runs_issue ..
theorem runs_thopen (h : Hdr) (b : BitVec 2) (a : BitVec 6) (s : State) :
    Runs (exec (.thopen h b a) s) h [] [] s := by
  rw [exec_thopen]; unfold execThopen; exact runs_issue ..
theorem runs_thclose (h : Hdr) (b : BitVec 2) (s : State) :
    Runs (exec (.thclose h b) s) h [] [] s := by
  rw [exec_thclose]; unfold execThclose; exact runs_closeIssue ..
theorem runs_thabort (h : Hdr) (b : BitVec 2) (s : State) :
    Runs (exec (.thabort h b) s) h [] [] s := by
  rw [exec_thabort]; unfold execThabort; exact runs_closeIssue ..
theorem runs_thbind (h : Hdr) (b : BitVec 2) (f : BitVec 4) (s : State) :
    Runs (exec (.thbind h b f) s) h [] [] s := by
  rw [exec_thbind]; unfold execThbind; exact runs_issue ..
theorem runs_thbindR (h : Hdr) (b : BitVec 2) (a : BitVec 6) (s : State) :
    Runs (exec (.thbindR h b a) s) h [] [] s := by
  rw [exec_thbindR]; unfold execThbindR; exact runs_issue ..
theorem runs_thrd (h : Hdr) (fn : ThrdFn) (d a : BitVec 6) (s : State) :
    Runs (exec (.thrd h fn d a) s) h [] [] s := by
  rw [exec_thrd]; unfold execThrd; exact runs_issue ..
theorem runs_thstm (h : Hdr) (d a f : BitVec 6) (s : State) :
    Runs (exec (.thstm h d a f) s) h [] [] s := by
  rw [exec_thstm]; unfold execThstm; exact runs_issue ..
theorem runs_cpy (h : Hdr) (a : BitVec 6) (ev : Bool) (tag : BitVec 11) (s : State) :
    Runs (exec (.cpy h a ev tag) s) h [] [] s := by
  rw [exec_cpy]; unfold execCpy; exact runs_copyIssue ..
theorem runs_cpy2 (h : Hdr) (a : BitVec 6) (ev : Bool) (tag : BitVec 11) (s : State) :
    Runs (exec (.cpy2 h a ev tag) s) h [] [] s := by
  rw [exec_cpy2]; unfold execCpy2; exact runs_copyIssue ..
theorem runs_cpres (h : Hdr) (s : State) :
    Runs (exec (.cpres h) s) h [] [] s := by
  rw [exec_cpres]; unfold execCpres; exact runs_issue ..
theorem runs_cpresDrop (h : Hdr) (s : State) :
    Runs (exec (.cpresDrop h) s) h [] [] s := by
  rw [exec_cpresDrop]; unfold execCpresDrop; exact runs_issue ..
theorem runs_cpwait (h : Hdr) (s : State) :
    Runs (exec (.cpwait h) s) h [] [] s := by
  rw [exec_cpwait]; unfold execCpwait; exact runs_issue ..
theorem runs_fxs (h : Hdr) (a : BitVec 6) (ev : Bool) (tag : BitVec 11) (s : State) :
    Runs (exec (.fxs h a ev tag) s) h [] [] s := by
  rw [exec_fxs]; unfold execFxs; exact runs_fabricIssue ..
theorem runs_fxr (h : Hdr) (a : BitVec 6) (ev : Bool) (tag : BitVec 11) (s : State) :
    Runs (exec (.fxr h a ev tag) s) h [] [] s := by
  rw [exec_fxr]; unfold execFxr; exact runs_fabricIssue ..
theorem runs_fxred (h : Hdr) (a : BitVec 6) (ev : Bool) (tag : BitVec 11) (s : State) :
    Runs (exec (.fxred h a ev tag) s) h [] [] s := by
  rw [exec_fxred]; unfold execFxred; exact runs_fabricIssue ..
theorem runs_fxwait (h : Hdr) (s : State) :
    Runs (exec (.fxwait h) s) h [] [] s := by
  rw [exec_fxwait]; unfold execFxwait; exact runs_issue ..
theorem runs_tsat (h : Hdr) (a : BitVec 6) (s : State) :
    Runs (exec (.tsat h a) s) h [] [] s := by
  rw [exec_tsat]; unfold execTsat; exact runs_issue ..
theorem runs_tsatWait (h : Hdr) (a : BitVec 6) (s : State) :
    Runs (exec (.tsatWait h a) s) h [] [] s := by
  rw [exec_tsatWait]; unfold execTsatWait; exact runs_issue ..
theorem runs_hshInit (h : Hdr) (n : BitVec 2) (s : State) :
    Runs (exec (.hshInit h n) s) h [] [] s := by
  rw [exec_hshInit]; unfold execHshInit; exact runs_issue ..
theorem runs_hsh (h : Hdr) (n : BitVec 2) (a : BitVec 6) (s : State) :
    Runs (exec (.hsh h n a) s) h [] [] s := by
  rw [exec_hsh]; unfold execHsh; exact runs_issue ..
theorem runs_hfin (h : Hdr) (n : BitVec 2) (d a : BitVec 6) (len : BitVec 7) (s : State) :
    Runs (exec (.hfin h n d a len) s) h [] [] s := by
  rw [exec_hfin]; unfold execHfin; exact runs_issue ..
theorem runs_sgn (h : Hdr) (a : BitVec 6) (s : State) :
    Runs (exec (.sgn h a) s) h [] [] s := by
  rw [exec_sgn]; unfold execSgn; exact runs_issue ..
theorem runs_vfy (h : Hdr) (d a : BitVec 6) (s : State) :
    Runs (exec (.vfy h d a) s) h [] [] s := by
  rw [exec_vfy]; unfold execVfy; exact runs_issue ..
theorem runs_mext (h : Hdr) (m : BitVec 3) (a : BitVec 6) (s : State) :
    Runs (exec (.mext h m a) s) h [] [] s := by
  rw [exec_mext]; unfold execMext; exact runs_issue ..
theorem runs_mextRd (h : Hdr) (m : BitVec 3) (a : BitVec 6) (s : State) :
    Runs (exec (.mextRd h m a) s) h [] [] s := by
  rw [exec_mextRd]; unfold execMextRd; exact runs_issue ..
theorem runs_kunw (h : Hdr) (d : BitVec 6) (slot : BitVec 6) (a : BitVec 6) (s : State) :
    Runs (exec (.kunw h d slot a) s) h [] [] s := by
  rw [exec_kunw]; unfold execKunw; exact runs_issue ..
theorem runs_pxlk (h : Hdr) (d a : BitVec 6) (s : State) :
    Runs (exec (.pxlk h d a) s) h [] [] s := by
  rw [exec_pxlk]; unfold execPxlk; exact runs_kvIssue ..
theorem runs_pxlkAcq (h : Hdr) (d a : BitVec 6) (s : State) :
    Runs (exec (.pxlkAcq h d a) s) h [] [] s := by
  rw [exec_pxlkAcq]; unfold execPxlkAcq; exact runs_kvIssue ..
theorem runs_pxins (h : Hdr) (d a : BitVec 6) (s : State) :
    Runs (exec (.pxins h d a) s) h [] [] s := by
  rw [exec_pxins]; unfold execPxins; exact runs_kvIssue ..
theorem runs_pxrefAdd (h : Hdr) (d a : BitVec 6) (s : State) :
    Runs (exec (.pxrefAdd h d a) s) h [] [] s := by
  rw [exec_pxrefAdd]; unfold execPxrefAdd; exact runs_kvIssue ..
theorem runs_pxrefDrop (h : Hdr) (d a : BitVec 6) (s : State) :
    Runs (exec (.pxrefDrop h d a) s) h [] [] s := by
  rw [exec_pxrefDrop]; unfold execPxrefDrop; exact runs_kvIssue ..
theorem runs_pxevc (h : Hdr) (d a : BitVec 6) (s : State) :
    Runs (exec (.pxevc h d a) s) h [] [] s := by
  rw [exec_pxevc]; unfold execPxevc; exact runs_issue ..
theorem runs_kvpgAlloc (h : Hdr) (d a : BitVec 6) (s : State) :
    Runs (exec (.kvpgAlloc h d a) s) h [] [] s := by
  rw [exec_kvpgAlloc]; unfold execKvpgAlloc; exact runs_kvIssue ..
theorem runs_kvpgFree (h : Hdr) (d a : BitVec 6) (s : State) :
    Runs (exec (.kvpgFree h d a) s) h [] [] s := by
  rw [exec_kvpgFree]; unfold execKvpgFree; exact runs_kvIssue ..
theorem runs_kvpgRel (h : Hdr) (d a : BitVec 6) (s : State) :
    Runs (exec (.kvpgRel h d a) s) h [] [] s := by
  rw [exec_kvpgRel]; unfold execKvpgRel; exact runs_kvIssue ..
theorem runs_kvpgAck (h : Hdr) (d a : BitVec 6) (s : State) :
    Runs (exec (.kvpgAck h d a) s) h [] [] s := by
  rw [exec_kvpgAck]; unfold execKvpgAck; exact runs_kvIssue ..

/-- Every meaning is the protocol over a body: with tokens of its own only for `tkp` and `tkw`, and with the word's
header but for a `sys.call` that acts, whose pushes come later. -/
theorem exec_word {i : Instr} {h : Hdr} (hi : header i = some h) (s : State) :
    ∃ hh ps ts, Runs (exec i s) hh ps ts s ∧
      ((∀ f n, i ≠ .tkp h f n) → ps = []) ∧ ((∀ f n, i ≠ .tkw h f n) → ts = []) ∧
      (∀ f n, i = .tkw h f n → ts = [(f, n.toNat)]) ∧
      (hh = h ∨ ∃ imm, i = .sysCall h imm ∧ guardOf s h = true ∧ hh = { h with sp := false, sn := false }) := by
  cases i <;> cases hi
  case nop => exact ⟨_, _, _, runs_nop .., fun _ => rfl, fun _ => rfl, nofun, .inl rfl⟩
  case li => exact ⟨_, _, _, runs_li .., fun _ => rfl, fun _ => rfl, nofun, .inl rfl⟩
  case lih => exact ⟨_, _, _, runs_lih .., fun _ => rfl, fun _ => rfl, nofun, .inl rfl⟩
  case alu => exact ⟨_, _, _, runs_alu .., fun _ => rfl, fun _ => rfl, nofun, .inl rfl⟩
  case addi => exact ⟨_, _, _, runs_addi .., fun _ => rfl, fun _ => rfl, nofun, .inl rfl⟩
  case andi => exact ⟨_, _, _, runs_andi .., fun _ => rfl, fun _ => rfl, nofun, .inl rfl⟩
  case ori => exact ⟨_, _, _, runs_ori .., fun _ => rfl, fun _ => rfl, nofun, .inl rfl⟩
  case xori => exact ⟨_, _, _, runs_xori .., fun _ => rfl, fun _ => rfl, nofun, .inl rfl⟩
  case shli => exact ⟨_, _, _, runs_shli .., fun _ => rfl, fun _ => rfl, nofun, .inl rfl⟩
  case shri => exact ⟨_, _, _, runs_shri .., fun _ => rfl, fun _ => rfl, nofun, .inl rfl⟩
  case sari => exact ⟨_, _, _, runs_sari .., fun _ => rfl, fun _ => rfl, nofun, .inl rfl⟩
  case muli => exact ⟨_, _, _, runs_muli .., fun _ => rfl, fun _ => rfl, nofun, .inl rfl⟩
  case cmp => exact ⟨_, _, _, runs_cmp .., fun _ => rfl, fun _ => rfl, nofun, .inl rfl⟩
  case cmpi => exact ⟨_, _, _, runs_cmpi .., fun _ => rfl, fun _ => rfl, nofun, .inl rfl⟩
  case plog => exact ⟨_, _, _, runs_plog .., fun _ => rfl, fun _ => rfl, nofun, .inl rfl⟩
  case sel => exact ⟨_, _, _, runs_sel .., fun _ => rfl, fun _ => rfl, nofun, .inl rfl⟩
  case lea => exact ⟨_, _, _, runs_lea .., fun _ => rfl, fun _ => rfl, nofun, .inl rfl⟩
  case br => exact ⟨_, _, _, runs_br .., fun _ => rfl, fun _ => rfl, nofun, .inl rfl⟩
  case call => exact ⟨_, _, _, runs_call .., fun _ => rfl, fun _ => rfl, nofun, .inl rfl⟩
  case jr => exact ⟨_, _, _, runs_jr .., fun _ => rfl, fun _ => rfl, nofun, .inl rfl⟩
  case loop => exact ⟨_, _, _, runs_loop .., fun _ => rfl, fun _ => rfl, nofun, .inl rfl⟩
  case endl => exact ⟨_, _, _, runs_endl .., fun _ => rfl, fun _ => rfl, nofun, .inl rfl⟩
  case safe => exact ⟨_, _, _, runs_safe .., fun _ => rfl, fun _ => rfl, nofun, .inl rfl⟩
  case endT => exact ⟨_, _, _, runs_endT .., fun _ => rfl, fun _ => rfl, nofun, .inl rfl⟩
  case ldk => exact ⟨_, _, _, runs_ldk .., fun _ => rfl, fun _ => rfl, nofun, .inl rfl⟩
  case stk => exact ⟨_, _, _, runs_stk .., fun _ => rfl, fun _ => rfl, nofun, .inl rfl⟩
  case lds => exact ⟨_, _, _, runs_lds .., fun _ => rfl, fun _ => rfl, nofun, .inl rfl⟩
  case sts => exact ⟨_, _, _, runs_sts .., fun _ => rfl, fun _ => rfl, nofun, .inl rfl⟩
  case rsr => exact ⟨_, _, _, runs_rsr .., fun _ => rfl, fun _ => rfl, nofun, .inl rfl⟩
  case wsr => exact ⟨_, _, _, runs_wsr .., fun _ => rfl, fun _ => rfl, nofun, .inl rfl⟩
  case epush => exact ⟨_, _, _, runs_epush .., fun _ => rfl, fun _ => rfl, nofun, .inl rfl⟩
  case epop => exact ⟨_, _, _, runs_epop .., fun _ => rfl, fun _ => rfl, nofun, .inl rfl⟩
  case ecountOut => exact ⟨_, _, _, runs_ecountOut .., fun _ => rfl, fun _ => rfl, nofun, .inl rfl⟩
  case ecountIn => exact ⟨_, _, _, runs_ecountIn .., fun _ => rfl, fun _ => rfl, nofun, .inl rfl⟩
  case rnd => exact ⟨_, _, _, runs_rnd .., fun _ => rfl, fun _ => rfl, nofun, .inl rfl⟩
  case tkp => exact ⟨_, _, _, runs_tkp .., fun g => absurd rfl (g _ _), fun _ => rfl, nofun, .inl rfl⟩
  case tkw => exact ⟨_, _, _, runs_tkw .., fun _ => rfl, fun g => absurd rfl (g _ _), fun _ _ g => by cases g; rfl, .inl rfl⟩
  case tkc => exact ⟨_, _, _, runs_tkc .., fun _ => rfl, fun _ => rfl, nofun, .inl rfl⟩
  case bar => exact ⟨_, _, _, runs_bar .., fun _ => rfl, fun _ => rfl, nofun, .inl rfl⟩
  case bara => exact ⟨_, _, _, runs_bara .., fun _ => rfl, fun _ => rfl, nofun, .inl rfl⟩
  case barw => exact ⟨_, _, _, runs_barw .., fun _ => rfl, fun _ => rfl, nofun, .inl rfl⟩
  case renq => exact ⟨_, _, _, runs_renq .., fun _ => rfl, fun _ => rfl, nofun, .inl rfl⟩
  case amo => exact ⟨_, _, _, runs_amo .., fun _ => rfl, fun _ => rfl, nofun, .inl rfl⟩
  case fence => exact ⟨_, _, _, runs_fence .., fun _ => rfl, fun _ => rfl, nofun, .inl rfl⟩
  case mark => exact ⟨_, _, _, runs_mark .., fun _ => rfl, fun _ => rfl, nofun, .inl rfl⟩
  case wfe => exact ⟨_, _, _, runs_wfe .., fun _ => rfl, fun _ => rfl, nofun, .inl rfl⟩
  case sysCall imm =>
    refine ⟨_, _, _, runs_sysCall .., fun _ => rfl, fun _ => rfl, nofun, ?_⟩
    by_cases hg : guardOf s h
    · exact .inr ⟨imm, rfl, hg, by simp [hg]⟩
    · exact .inl (by simp [hg])
  case sysResume => exact ⟨_, _, _, runs_sysResume .., fun _ => rfl, fun _ => rfl, nofun, .inl rfl⟩
  case sysKill => exact ⟨_, _, _, runs_sysKill .., fun _ => rfl, fun _ => rfl, nofun, .inl rfl⟩
  case sysTmr => exact ⟨_, _, _, runs_sysTmr .., fun _ => rfl, fun _ => rfl, nofun, .inl rfl⟩
  case trap => exact ⟨_, _, _, runs_trap .., fun _ => rfl, fun _ => rfl, nofun, .inl rfl⟩
  case brk => exact ⟨_, _, _, runs_brk .., fun _ => rfl, fun _ => rfl, nofun, .inl rfl⟩
  case rfi => exact ⟨_, _, _, runs_rfi .., fun _ => rfl, fun _ => rfl, nofun, .inl rfl⟩
  case ld => exact ⟨_, _, _, runs_ld .., fun _ => rfl, fun _ => rfl, nofun, .inl rfl⟩
  case ldp => exact ⟨_, _, _, runs_ldp .., fun _ => rfl, fun _ => rfl, nofun, .inl rfl⟩
  case ldi => exact ⟨_, _, _, runs_ldi .., fun _ => rfl, fun _ => rfl, nofun, .inl rfl⟩
  case ldg => exact ⟨_, _, _, runs_ldg .., fun _ => rfl, fun _ => rfl, nofun, .inl rfl⟩
  case ldr => exact ⟨_, _, _, runs_ldr .., fun _ => rfl, fun _ => rfl, nofun, .inl rfl⟩
  case ldw => exact ⟨_, _, _, runs_ldw .., fun _ => rfl, fun _ => rfl, nofun, .inl rfl⟩
  case pf => exact ⟨_, _, _, runs_pf .., fun _ => rfl, fun _ => rfl, nofun, .inl rfl⟩
  case st => exact ⟨_, _, _, runs_st .., fun _ => rfl, fun _ => rfl, nofun, .inl rfl⟩
  case stp => exact ⟨_, _, _, runs_stp .., fun _ => rfl, fun _ => rfl, nofun, .inl rfl⟩
  case stg => exact ⟨_, _, _, runs_stg .., fun _ => rfl, fun _ => rfl, nofun, .inl rfl⟩
  case stw => exact ⟨_, _, _, runs_stw .., fun _ => rfl, fun _ => rfl, nofun, .inl rfl⟩
  case stt => exact ⟨_, _, _, runs_stt .., fun _ => rfl, fun _ => rfl, nofun, .inl rfl⟩
  case qfl => exact ⟨_, _, _, runs_qfl .., fun _ => rfl, fun _ => rfl, nofun, .inl rfl⟩
  case qln => exact ⟨_, _, _, runs_qln .., fun _ => rfl, fun _ => rfl, nofun, .inl rfl⟩
  case fop => exact ⟨_, _, _, runs_fop .., fun _ => rfl, fun _ => rfl, nofun, .inl rfl⟩
  case fma => exact ⟨_, _, _, runs_fma .., fun _ => rfl, fun _ => rfl, nofun, .inl rfl⟩
  case fnma => exact ⟨_, _, _, runs_fnma .., fun _ => rfl, fun _ => rfl, nofun, .inl rfl⟩
  case frcp => exact ⟨_, _, _, runs_frcp .., fun _ => rfl, fun _ => rfl, nofun, .inl rfl⟩
  case frsq => exact ⟨_, _, _, runs_frsq .., fun _ => rfl, fun _ => rfl, nofun, .inl rfl⟩
  case frfr => exact ⟨_, _, _, runs_frfr .., fun _ => rfl, fun _ => rfl, nofun, .inl rfl⟩
  case frfs => exact ⟨_, _, _, runs_frfs .., fun _ => rfl, fun _ => rfl, nofun, .inl rfl⟩
  case fcmp => exact ⟨_, _, _, runs_fcmp .., fun _ => rfl, fun _ => rfl, nofun, .inl rfl⟩
  case icmp => exact ⟨_, _, _, runs_icmp .., fun _ => rfl, fun _ => rfl, nofun, .inl rfl⟩
  case fcvt => exact ⟨_, _, _, runs_fcvt .., fun _ => rfl, fun _ => rfl, nofun, .inl rfl⟩
  case iop => exact ⟨_, _, _, runs_iop .., fun _ => rfl, fun _ => rfl, nofun, .inl rfl⟩
  case eli => exact ⟨_, _, _, runs_eli .., fun _ => rfl, fun _ => rfl, nofun, .inl rfl⟩
  case elih => exact ⟨_, _, _, runs_elih .., fun _ => rfl, fun _ => rfl, nofun, .inl rfl⟩
  case emov => exact ⟨_, _, _, runs_emov .., fun _ => rfl, fun _ => rfl, nofun, .inl rfl⟩
  case esel => exact ⟨_, _, _, runs_esel .., fun _ => rfl, fun _ => rfl, nofun, .inl rfl⟩
  case rot => exact ⟨_, _, _, runs_rot .., fun _ => rfl, fun _ => rfl, nofun, .inl rfl⟩
  case lbr => exact ⟨_, _, _, runs_lbr .., fun _ => rfl, fun _ => rfl, nofun, .inl rfl⟩
  case eld => exact ⟨_, _, _, runs_eld .., fun _ => rfl, fun _ => rfl, nofun, .inl rfl⟩
  case est => exact ⟨_, _, _, runs_est .., fun _ => rfl, fun _ => rfl, nofun, .inl rfl⟩
  case vop => exact ⟨_, _, _, runs_vop .., fun _ => rfl, fun _ => rfl, nofun, .inl rfl⟩
  case vfma => exact ⟨_, _, _, runs_vfma .., fun _ => rfl, fun _ => rfl, nofun, .inl rfl⟩
  case vsc => exact ⟨_, _, _, runs_vsc .., fun _ => rfl, fun _ => rfl, nofun, .inl rfl⟩
  case vun => exact ⟨_, _, _, runs_vun .., fun _ => rfl, fun _ => rfl, nofun, .inl rfl⟩
  case vcvt => exact ⟨_, _, _, runs_vcvt .., fun _ => rfl, fun _ => rfl, nofun, .inl rfl⟩
  case vred => exact ⟨_, _, _, runs_vred .., fun _ => rfl, fun _ => rfl, nofun, .inl rfl⟩
  case vscan => exact ⟨_, _, _, runs_vscan .., fun _ => rfl, fun _ => rfl, nofun, .inl rfl⟩
  case vcmp => exact ⟨_, _, _, runs_vcmp .., fun _ => rfl, fun _ => rfl, nofun, .inl rfl⟩
  case vsel => exact ⟨_, _, _, runs_vsel .., fun _ => rfl, fun _ => rfl, nofun, .inl rfl⟩
  case vcpr => exact ⟨_, _, _, runs_vcpr .., fun _ => rfl, fun _ => rfl, nofun, .inl rfl⟩
  case vxpd => exact ⟨_, _, _, runs_vxpd .., fun _ => rfl, fun _ => rfl, nofun, .inl rfl⟩
  case vgat => exact ⟨_, _, _, runs_vgat .., fun _ => rfl, fun _ => rfl, nofun, .inl rfl⟩
  case vsct => exact ⟨_, _, _, runs_vsct .., fun _ => rfl, fun _ => rfl, nofun, .inl rfl⟩
  case vsca => exact ⟨_, _, _, runs_vsca .., fun _ => rfl, fun _ => rfl, nofun, .inl rfl⟩
  case vfill => exact ⟨_, _, _, runs_vfill .., fun _ => rfl, fun _ => rfl, nofun, .inl rfl⟩
  case vrnd => exact ⟨_, _, _, runs_vrnd .., fun _ => rfl, fun _ => rfl, nofun, .inl rfl⟩
  case vhad => exact ⟨_, _, _, runs_vhad .., fun _ => rfl, fun _ => rfl, nofun, .inl rfl⟩
  case vqnt => exact ⟨_, _, _, runs_vqnt .., fun _ => rfl, fun _ => rfl, nofun, .inl rfl⟩
  case vdqt => exact ⟨_, _, _, runs_vdqt .., fun _ => rfl, fun _ => rfl, nofun, .inl rfl⟩
  case vtopk => exact ⟨_, _, _, runs_vtopk .., fun _ => rfl, fun _ => rfl, nofun, .inl rfl⟩
  case vsamp => exact ⟨_, _, _, runs_vsamp .., fun _ => rfl, fun _ => rfl, nofun, .inl rfl⟩
  case vsoft => exact ⟨_, _, _, runs_vsoft .., fun _ => rfl, fun _ => rfl, nofun, .inl rfl⟩
  case wset => exact ⟨_, _, _, runs_wset .., fun _ => rfl, fun _ => rfl, nofun, .inl rfl⟩
  case wget => exact ⟨_, _, _, runs_wget .., fun _ => rfl, fun _ => rfl, nofun, .inl rfl⟩
  case vbit => exact ⟨_, _, _, runs_vbit .., fun _ => rfl, fun _ => rfl, nofun, .inl rfl⟩
  case vmov => exact ⟨_, _, _, runs_vmov .., fun _ => rfl, fun _ => rfl, nofun, .inl rfl⟩
  case mtw => exact ⟨_, _, _, runs_mtw .., fun _ => rfl, fun _ => rfl, nofun, .inl rfl⟩
  case mtr => exact ⟨_, _, _, runs_mtr .., fun _ => rfl, fun _ => rfl, nofun, .inl rfl⟩
  case mcfg => exact ⟨_, _, _, runs_mcfg .., fun _ => rfl, fun _ => rfl, nofun, .inl rfl⟩
  case mfmt => exact ⟨_, _, _, runs_mfmt .., fun _ => rfl, fun _ => rfl, nofun, .inl rfl⟩
  case mgo => exact ⟨_, _, _, runs_mgo .., fun _ => rfl, fun _ => rfl, nofun, .inl rfl⟩
  case mtile => exact ⟨_, _, _, runs_mtile .., fun _ => rfl, fun _ => rfl, nofun, .inl rfl⟩
  case mwait => exact ⟨_, _, _, runs_mwait .., fun _ => rfl, fun _ => rfl, nofun, .inl rfl⟩
  case mzero => exact ⟨_, _, _, runs_mzero .., fun _ => rfl, fun _ => rfl, nofun, .inl rfl⟩
  case mdrain => exact ⟨_, _, _, runs_mdrain .., fun _ => rfl, fun _ => rfl, nofun, .inl rfl⟩
  case mtsm => exact ⟨_, _, _, runs_mtsm .., fun _ => rfl, fun _ => rfl, nofun, .inl rfl⟩
  case fset => exact ⟨_, _, _, runs_fset .., fun _ => rfl, fun _ => rfl, nofun, .inl rfl⟩
  case fget => exact ⟨_, _, _, runs_fget .., fun _ => rfl, fun _ => rfl, nofun, .inl rfl⟩
  case fdrop => exact ⟨_, _, _, runs_fdrop .., fun _ => rfl, fun _ => rfl, nofun, .inl rfl⟩
  case hgen => exact ⟨_, _, _, runs_hgen .., fun _ => rfl, fun _ => rfl, nofun, .inl rfl⟩
  case hgenRel => exact ⟨_, _, _, runs_hgenRel .., fun _ => rfl, fun _ => rfl, nofun, .inl rfl⟩
  case hchk => exact ⟨_, _, _, runs_hchk .., fun _ => rfl, fun _ => rfl, nofun, .inl rfl⟩
  case hfix => exact ⟨_, _, _, runs_hfix .., fun _ => rfl, fun _ => rfl, nofun, .inl rfl⟩
  case hupd => exact ⟨_, _, _, runs_hupd .., fun _ => rfl, fun _ => rfl, nofun, .inl rfl⟩
  case hrd => exact ⟨_, _, _, runs_hrd .., fun _ => rfl, fun _ => rfl, nofun, .inl rfl⟩
  case htol => exact ⟨_, _, _, runs_htol .., fun _ => rfl, fun _ => rfl, nofun, .inl rfl⟩
  case mccfg => exact ⟨_, _, _, runs_mccfg .., fun _ => rfl, fun _ => rfl, nofun, .inl rfl⟩
  case mccfgRst => exact ⟨_, _, _, runs_mccfgRst .., fun _ => rfl, fun _ => rfl, nofun, .inl rfl⟩
  case mcld => exact ⟨_, _, _, runs_mcld .., fun _ => rfl, fun _ => rfl, nofun, .inl rfl⟩
  case mcldL => exact ⟨_, _, _, runs_mcldL .., fun _ => rfl, fun _ => rfl, nofun, .inl rfl⟩
  case mcldR => exact ⟨_, _, _, runs_mcldR .., fun _ => rfl, fun _ => rfl, nofun, .inl rfl⟩
  case mcst => exact ⟨_, _, _, runs_mcst .., fun _ => rfl, fun _ => rfl, nofun, .inl rfl⟩
  case mccmp => exact ⟨_, _, _, runs_mccmp .., fun _ => rfl, fun _ => rfl, nofun, .inl rfl⟩
  case mctree => exact ⟨_, _, _, runs_mctree .., fun _ => rfl, fun _ => rfl, nofun, .inl rfl⟩
  case mcapp => exact ⟨_, _, _, runs_mcapp .., fun _ => rfl, fun _ => rfl, nofun, .inl rfl⟩
  case mcappT => exact ⟨_, _, _, runs_mcappT .., fun _ => rfl, fun _ => rfl, nofun, .inl rfl⟩
  case mcmsk => exact ⟨_, _, _, runs_mcmsk .., fun _ => rfl, fun _ => rfl, nofun, .inl rfl⟩
  case mcchk => exact ⟨_, _, _, runs_mcchk .., fun _ => rfl, fun _ => rfl, nofun, .inl rfl⟩
  case thopen => exact ⟨_, _, _, runs_thopen .., fun _ => rfl, fun _ => rfl, nofun, .inl rfl⟩
  case thclose => exact ⟨_, _, _, runs_thclose .., fun _ => rfl, fun _ => rfl, nofun, .inl rfl⟩
  case thabort => exact ⟨_, _, _, runs_thabort .., fun _ => rfl, fun _ => rfl, nofun, .inl rfl⟩
  case thbind => exact ⟨_, _, _, runs_thbind .., fun _ => rfl, fun _ => rfl, nofun, .inl rfl⟩
  case thbindR => exact ⟨_, _, _, runs_thbindR .., fun _ => rfl, fun _ => rfl, nofun, .inl rfl⟩
  case thrd => exact ⟨_, _, _, runs_thrd .., fun _ => rfl, fun _ => rfl, nofun, .inl rfl⟩
  case thstm => exact ⟨_, _, _, runs_thstm .., fun _ => rfl, fun _ => rfl, nofun, .inl rfl⟩
  case cpy => exact ⟨_, _, _, runs_cpy .., fun _ => rfl, fun _ => rfl, nofun, .inl rfl⟩
  case cpy2 => exact ⟨_, _, _, runs_cpy2 .., fun _ => rfl, fun _ => rfl, nofun, .inl rfl⟩
  case cpres => exact ⟨_, _, _, runs_cpres .., fun _ => rfl, fun _ => rfl, nofun, .inl rfl⟩
  case cpresDrop => exact ⟨_, _, _, runs_cpresDrop .., fun _ => rfl, fun _ => rfl, nofun, .inl rfl⟩
  case cpwait => exact ⟨_, _, _, runs_cpwait .., fun _ => rfl, fun _ => rfl, nofun, .inl rfl⟩
  case fxs => exact ⟨_, _, _, runs_fxs .., fun _ => rfl, fun _ => rfl, nofun, .inl rfl⟩
  case fxr => exact ⟨_, _, _, runs_fxr .., fun _ => rfl, fun _ => rfl, nofun, .inl rfl⟩
  case fxred => exact ⟨_, _, _, runs_fxred .., fun _ => rfl, fun _ => rfl, nofun, .inl rfl⟩
  case fxwait => exact ⟨_, _, _, runs_fxwait .., fun _ => rfl, fun _ => rfl, nofun, .inl rfl⟩
  case tsat => exact ⟨_, _, _, runs_tsat .., fun _ => rfl, fun _ => rfl, nofun, .inl rfl⟩
  case tsatWait => exact ⟨_, _, _, runs_tsatWait .., fun _ => rfl, fun _ => rfl, nofun, .inl rfl⟩
  case hshInit => exact ⟨_, _, _, runs_hshInit .., fun _ => rfl, fun _ => rfl, nofun, .inl rfl⟩
  case hsh => exact ⟨_, _, _, runs_hsh .., fun _ => rfl, fun _ => rfl, nofun, .inl rfl⟩
  case hfin => exact ⟨_, _, _, runs_hfin .., fun _ => rfl, fun _ => rfl, nofun, .inl rfl⟩
  case sgn => exact ⟨_, _, _, runs_sgn .., fun _ => rfl, fun _ => rfl, nofun, .inl rfl⟩
  case vfy => exact ⟨_, _, _, runs_vfy .., fun _ => rfl, fun _ => rfl, nofun, .inl rfl⟩
  case mext => exact ⟨_, _, _, runs_mext .., fun _ => rfl, fun _ => rfl, nofun, .inl rfl⟩
  case mextRd => exact ⟨_, _, _, runs_mextRd .., fun _ => rfl, fun _ => rfl, nofun, .inl rfl⟩
  case kunw => exact ⟨_, _, _, runs_kunw .., fun _ => rfl, fun _ => rfl, nofun, .inl rfl⟩
  case pxlk => exact ⟨_, _, _, runs_pxlk .., fun _ => rfl, fun _ => rfl, nofun, .inl rfl⟩
  case pxlkAcq => exact ⟨_, _, _, runs_pxlkAcq .., fun _ => rfl, fun _ => rfl, nofun, .inl rfl⟩
  case pxins => exact ⟨_, _, _, runs_pxins .., fun _ => rfl, fun _ => rfl, nofun, .inl rfl⟩
  case pxrefAdd => exact ⟨_, _, _, runs_pxrefAdd .., fun _ => rfl, fun _ => rfl, nofun, .inl rfl⟩
  case pxrefDrop => exact ⟨_, _, _, runs_pxrefDrop .., fun _ => rfl, fun _ => rfl, nofun, .inl rfl⟩
  case pxevc => exact ⟨_, _, _, runs_pxevc .., fun _ => rfl, fun _ => rfl, nofun, .inl rfl⟩
  case kvpgAlloc => exact ⟨_, _, _, runs_kvpgAlloc .., fun _ => rfl, fun _ => rfl, nofun, .inl rfl⟩
  case kvpgFree => exact ⟨_, _, _, runs_kvpgFree .., fun _ => rfl, fun _ => rfl, nofun, .inl rfl⟩
  case kvpgRel => exact ⟨_, _, _, runs_kvpgRel .., fun _ => rfl, fun _ => rfl, nofun, .inl rfl⟩
  case kvpgAck => exact ⟨_, _, _, runs_kvpgAck .., fun _ => rfl, fun _ => rfl, nofun, .inl rfl⟩

end Sys2Proof.Machine
end

