-- ==== Sys2Proof/Tests/Slice0.lean ====
section
/-! SUPPORT. Tests: ill-formed terms, words written out from the encodings of the manual, single steps, and for every
statement of the certificate a state and operands that meet its hypotheses. -/

namespace Sys2Proof.Tests

open Sys2Proof Sys2Proof.Machine

-- One theorem after the other: many kernel evaluations side by side need more threads than the check allows.
set_option Elab.async false

/-! ### Well-formedness: an ill-formed term for each check -/

/-- A header without tokens and guard; with a guard; with a token bit. -/
def h0 : Hdr := ⟨0, false, false, false, false, 0, false⟩
def hNot : Hdr := { h0 with neg := true }
def hTok : Hdr := { h0 with sn := true }

theorem test_wf_stream : (Instr.ldk h0 .d 1 2 0 0).wf .l false = false ∧ (Instr.eli h0 (.e 1) 0).wf .kTask false = false ∧
    (Instr.mark h0).wf .c false = false := by decide
theorem test_wf_firmware_tokens : (Instr.nop hTok).wf .kFirm false = false ∧ (Instr.nop hTok).wf .kTask false = true := by
  decide
theorem test_wf_guard : (Instr.li hNot 1 2).wf .kTask false = false ∧ (Instr.addi hNot 1 2 3).wf .kTask false = false ∧
    (Instr.br hNot 3).wf .kTask false = true := by decide
theorem test_wf_unary : (Instr.alu h0 .clz 1 2 3).wf .kTask false = false ∧
    (Instr.fop h0 .fneg (.e 1) (.e 2) (.e 3)).wf .c false = false ∧ (Instr.plog h0 .pmov 1 2 3).wf .c false = false := by
  decide
theorem test_wf_loop_source : (Instr.loop h0 1 (.ereg 3)).wf .kTask false = false ∧
    (Instr.loop h0 1 (.reg 3)).wf .c false = false := by decide
theorem test_wf_fifo_ends : (Instr.tkp h0 .lk 1).wf .kTask false = false ∧ (Instr.tkw h0 .kl 1).wf .kTask false = false ∧
    (Instr.tkp h0 .kl 0).wf .kTask false = false := by decide
theorem test_wf_queues : (Instr.qfl h0 (.sq 0)).wf .l false = false ∧ (Instr.qln h0 (.ereg 0) (.sq 0)).wf .s false = false := by
  decide
theorem test_wf_operands : (Instr.emov h0 (.lq 0) (.e 1)).wf .c false = false ∧
    (Instr.emov h0 (.e 1) (.sq 0)).wf .c false = false ∧
    (Instr.fma h0 .ed (.sq 1) (.e 1) (.e 2)).wf .c false = false := by decide
theorem test_wf_formats : (Instr.fcvt h0 .bf16 .fp16 ⟨.rne, false⟩ (.e 1) (.e 2)).wf .c false = false := by decide
theorem test_wf_pairs : (Instr.wget h0 false 1 767).wf .c false = false ∧ (Instr.hrd h0 (.win 1) 766).wf .c false = false ∧
    (Instr.vtopk h0 1 2 3 766).wf .c false = false := by decide
theorem test_wf_vector_fields : (Instr.vhad h0 false 0 1 2 0).wf .c false = false ∧
    (Instr.vbit h0 .cnt false false 1 2 0 3).wf .c false = false ∧ (Instr.vred h0 .sum true 1 2).wf .c false = false ∧
    (Instr.vun h0 .neg ⟨.rz, false⟩ 1 2).wf .c false = false ∧ (Instr.vsamp h0 false 1 2 0).wf .c false = false ∧
    (Instr.vcmp h0 .lt (some (.e 1)) 1 2 3).wf .c false = false := by decide
theorem test_wf_wset : (Instr.wset h0 .image 1 (.e 767)).wf .c false = false ∧
    (Instr.wset h0 .rowf 1 (.e 2)).wf .c false = false := by decide
theorem test_wf_hchk : (Instr.hchk h0 true (.win 1) none).wf .s false = false ∧
    (Instr.hchk h0 true (.fur 1) none).wf .c false = false := by decide
theorem test_wf_ports : (Instr.epush h0 .mx 1).wf .kTask false = false ∧ (Instr.epop h0 1 .cr).wf .kTask true = false := by
  decide
theorem test_wf_service : (Instr.sgn h0 1).wf .kFirm false = false ∧ (Instr.sgn h0 1).wf .kTask true = false := by decide
theorem test_wf_events : Instr.marker.wf .kTask true = false := by decide

/-! ### Decoding: words written out from the encodings (R36 to R47, R85 to R87 and the class chapters) -/

def reads (x : Issuer) (svc : Bool) (w : Word) (i : Instr) : Bool := match decode x svc w with
  | .ok j => j == i
  | .error _ => false
def rejects (x : Issuer) (svc : Bool) (w : Word) (f : DecodeFault) : Bool := match decode x svc w with
  | .ok _ => false
  | .error g => g == f

/-- `alu.divz s3, s4, s5 | 2 idle, sn, (p4)`: idle 2, sn, opcode 04, guard p4, subcode 0E. -/
theorem test_decode_alu : reads .kTask false 0x008410310540E000
    (.alu ⟨2, false, false, false, true, 4, false⟩ .divz 3 4 5) = true := by decide
theorem test_decode_br : reads .s false 0x004048E0FFFFFFFB
    (.br ⟨1, false, false, false, false, 3, true⟩ 0xFFFFFFFB) = true := by decide
theorem test_decode_sel : reads .kTask false 0x000041D59D100000
    (.sel ⟨0, false, false, false, false, 1, false⟩ 29 22 29) = true := by decide
theorem test_decode_loop : reads .kTask false 0x0000541100000007
    (.loop h0 1 (.reg 7)) = true := by decide
theorem test_decode_tkw : reads .c false 0x0080C42040000000
    (.tkw { h0 with idle := 2 } .kc 4) = true := by decide
theorem test_decode_fence : reads .kTask false 0x0000E00000100002
    (.fence h0 .rel .device) = true := by decide
theorem test_decode_amo : reads .s false 0x0000DC5187069000
    (.amo h0 .max .device true 5 6 7) = true := by decide
theorem test_decode_ld : reads .l false 0x00410001409C0040
    (.ld { h0 with idle := 1 } false .w 2 5 3 0x40) = true := by decide
theorem test_decode_ldg : reads .l false 0x00010C6180440000
    (.ldg h0 true .w 2 1 6 0 0) = true := by decide
theorem test_decode_stt : reads .s false 0x00012C2101401000
    (.stt h0 false 2 5 4 0 0x1000) = true := by decide
theorem test_decode_fma : reads .c false 0x00C58428C0007900
    (.fma ⟨3, false, false, false, true, 9, false⟩ .ed (.e 40) (.lq 0) (.e 7)) = true := by decide
theorem test_decode_lbr : reads .c false 0x0001C0000003FFFE
    (.lbr h0 0 0x3FFFE) = true := by decide
theorem test_decode_vop : reads .c false 0x0002006110000000
    (.vop h0 .add ⟨.rne, false⟩ 3 1 2) = true := by decide
theorem test_decode_vcpr : reads .c false 0x0046248530280000
    (.vcpr ⟨1, false, false, false, true, 0, false⟩ 4 5 6 20) = true := by decide
theorem test_decode_mcfg : reads .kTask false 0x0002880000000002
    (.mcfg h0 .f2x2 ⟨.rne, false⟩) = true := by decide
theorem test_decode_mgo : reads .kTask false 0x0002900140000801
    (.mgo h0 5 true 1) = true := by decide
theorem test_decode_hchk : reads .c false 0x0002C40300280000
    (.hchk h0 false (.win 3) (some 20)) = true := by decide
theorem test_decode_mctree : reads .kTask false 0x0002F00100000805
    (.mctree h0 4 true 5) = true := by decide
theorem test_decode_mcchk : reads .kTask false 0x0002FC3180002000
    (.mcchk h0 .dead 3 6) = true := by decide
theorem test_decode_thbind : reads .kTask false 0x00030C0002000001
    (.thbind h0 1 2) = true := by decide
theorem test_decode_cpy : reads .kTask false 0x0003200100000803
    (.cpy h0 4 true 3) = true := by decide
theorem test_decode_hfin : reads .kFirm true 0x000349A5C0000019
    (.hfin h0 0 26 23 25) = true := by decide
theorem test_decode_kunw : reads .kFirm true 0x00035821C5000000
    (.kunw h0 2 5 7) = true := by decide
theorem test_decode_null : rejects .kTask false 0 .nullWord = true := by decide
theorem test_decode_wrong_stream : rejects .kTask false 0x0002006110000000 (.wrongStream .k) = true := by decide

/-! ### Encoding: the words above, and a form of every family -/

theorem test_encode_words : encode (.alu ⟨2, false, false, false, true, 4, false⟩ .divz 3 4 5) = 0x008410310540E000 ∧
    encode (.ld { h0 with idle := 1 } false .w 2 5 3 0x40) = 0x00410001409C0040 ∧
    encode (.vop h0 .add ⟨.rne, false⟩ 3 1 2) = 0x0002006110000000 ∧ encode (.kunw h0 2 5 7) = 0x00035821C5000000 := by decide

/-! ### States and checks for the hypotheses of the statements -/

/-- A running stream: register 1 holds 0x1000, 2 holds 8, 3 holds 1, 4 is all ones, 5 is the sign bit. -/
def live : Ctx := { Ctx.reset with
  run := .running, tvec := 0x100, pc := 64
  regs := (Vector.replicate 64 (0 : Word)).set 1 0x1000 |>.set 2 8 |>.set 3 1 |>.set 4 0xFFFFFFFFFFFFFFFF
    |>.set 5 0x8000000000000000 }

/-- A compute core in the middle of a task of context 1, with one page for the task and one for firmware. -/
def core : State := { State.reset with
  booted := true, now := 4096, timeBase := 8400000
  task := { Task.reset with alive := true, ctx := 1, k := live, l := live, c := live, s := live }
  firm := { live with tframe := 0x7FF800 }
  pages := [⟨1, 0, 0, .hbm, true, true⟩, ⟨0, 0, 0x200000, .hbm, true, true⟩] }

/-- It is the stream's turn to issue. -/
def at_ (x : Issuer) : State := { core with turn := .issue x }
def ctx (x : Issuer) (f : Ctx → Ctx) (s : State) : State := setCtx x (f (ctxOf s x)) s
def reg (x : Issuer) (n : Nat) (v : Word) (s : State) : State := ctx x (fun c => { c with regs := c.regs.set! n v }) s
def code (x : Issuer) (l : List (Nat × Word)) (s : State) : State :=
  ctx x (fun c => { c with imem := l.foldl (fun m p => memWrite m p.1 (leBytes 8 p.2.toNat)) c.imem }) s
def tok (n : Nat) (s : State) : State := { s with task.tokens := Vector.replicate 10 n }
def memb (pa : Nat) (l : List (BitVec 8)) (s : State) : State := { s with mem := memWrite s.mem pa l }
def spadb (pa : Nat) (l : List (BitVec 8)) (s : State) : State := { s with spad := memWrite s.spad pa l }
def hGuard : Hdr := { h0 with pq := 1 }
def hWait : Hdr := { h0 with wp := true }
def hBoth : Hdr := { h0 with sp := true, wp := true }

/-- `Issues` as a check. -/
def issues (x : Issuer) (h : Hdr) (push take : List (Fifo × Nat)) (reads : List Nat) (s : State) : Bool :=
  s.turn == .issue x && !(isK x && s.checkq.head?.any (fun a => decide (a.word + 64 ≤ s.words))) &&
    hazard s x (if h.pq = 0 then [] else [64 + h.pq.toNat]) == .ready && guardOf s h &&
    popsReady s (takes x h take s) && overflowOf s (pushesOf x h push) == none && hazard s x reads == .ready
def acts (x : Issuer) (h : Hdr) (reads : List Nat) (s : State) : Bool := issues x h [] [] reads s

/-- What the check says: so a theorem below that says `acts` shows that the hypothesis `Acts` is met. -/
theorem issues_iff (x : Issuer) (h : Hdr) (push take : List (Fifo × Nat)) (reads : List Nat) (s : State) :
    issues x h push take reads s = true ↔ Issues x h push take reads s := by
  constructor
  · intro e
    simp only [issues, Bool.and_eq_true, beq_iff_eq, Bool.not_eq_true'] at e
    obtain ⟨⟨⟨⟨⟨⟨a, b⟩, c⟩, d⟩, f⟩, g⟩, k⟩ := e
    exact ⟨a, b, c, d, f, g, k⟩
  · intro ⟨a, b, c, d, f, g, k⟩
    simp only [issues, a, b, c, d, f, g, k, beq_self_eq_true, Bool.not_false, Bool.and_self]
theorem acts_iff (x : Issuer) (h : Hdr) (reads : List Nat) (s : State) : acts x h reads s = true ↔ Acts x h reads s :=
  issues_iff x h [] [] reads s

/-- `MemWf` as a check. -/
def wfTask (t : Task) : Bool := memWf t.k.imem && memWf t.l.imem && memWf t.c.imem && memWf t.s.imem
def wf (s : State) : Bool :=
  memWf s.mem && memWf s.spad && memWf s.firm.imem && wfTask s.task && s.saves.all (fun i => wfTask i.task)
theorem wf_sound (s : State) (h : wf s = true) : s.MemWf := by
  simp only [wf, wfTask, Bool.and_eq_true, List.all_eq_true] at h
  obtain ⟨⟨⟨⟨a, b⟩, c⟩, ⟨⟨d, e⟩, f⟩, g⟩, k⟩ := h
  exact ⟨a, b, c, ⟨d, e, f, g⟩, fun i m => let ⟨⟨⟨p, q⟩, r⟩, u⟩ := k i m; ⟨p, q, r, u⟩⟩

/-- An answer of a check, as a value. -/
def got {α β : Type} [DecidableEq β] (e : Except α β) (v : β) : Bool := match e with
  | .ok w => w == v
  | .error _ => false
theorem got_iff {α β : Type} [DecidableEq β] (e : Except α β) (v : β) : got e v = true ↔ e = .ok v := by
  cases e <;> simp [got]

/-- The pieces of an access by the task, or firmware. -/
def pieces (s : State) (ag : TlbAgent) (firm : Bool) (va : Word) (n : Nat) (r w : Bool) : List Piece :=
  match globalCheck s ag firm va n r w .unbound with
  | .ok ps => ps
  | .error _ => []

/-! ### Hypotheses of the statements, clause by clause -/

theorem meets_RegisterWordsWrite : acts .l h0 [] (at_ .l) ∧ acts .l h0 [rId 0] (at_ .l) ∧ acts .kFirm h0 [rId 63] (at_ .kFirm) ∧
    acts .c (Hdr.noGuard { hGuard with neg := true }) [rId 4, rId 5, pId 1] (at_ .c) ∧
    acts .s hBoth [rId 1, rId 2] (tok 1 (at_ .s)) := by decide +kernel

theorem meets_AluWritesItsResult : acts .kTask h0 [rId 4] (at_ .kTask) ∧ acts .c h0 [rId 4, rId 0] (at_ .c) := by decide +kernel

theorem meets_DivisionValues : acts .kTask h0 [rId 4, rId 5] (at_ .kTask) ∧ ∃ a b c d e f : Word, b = 0 ∧ (c = 0x8000000000000000 ∧ d = 0xFFFFFFFFFFFFFFFF) ∧
    (d ≠ 0 ∧ ¬(a = 0x8000000000000000 ∧ d = 0xFFFFFFFFFFFFFFFF)) ∧ e ≠ 0 ∧ f = c :=
  ⟨by decide +kernel, 5, 0, 0x8000000000000000, 0xFFFFFFFFFFFFFFFF, 2, 0x8000000000000000, by decide⟩

theorem meets_PredicateWordsWrite : acts .l h0 [rId 1, rId 4] (at_ .l) ∧ acts .l h0 [rId 0] (at_ .l) ∧ acts .s h0 [pId 0] (at_ .s) ∧
    acts .s h0 [pId 15, pId 1] (at_ .s) := by decide +kernel

theorem meets_TransfersGo : acts .kTask h0 [] (at_ .kTask) ∧
    (acts .s h0 [rId 9] (reg .s 9 0x1FFF8 (at_ .s)) ∧ regOf .s (reg .s 9 0x1FFF8 (at_ .s)) 9 = 0x1FFF8) ∧
    (acts .s h0 [rId 9] (reg .s 9 0x20000 (at_ .s)) ∧ regOf .s (reg .s 9 0x20000 (at_ .s)) 9 = 0x20000) ∧
    (acts .kTask h0 [rId 3] (at_ .kTask) ∧ (regOf .kTask (at_ .kTask) 3).toNat % 8 ≠ 0) := by
  decide +kernel

/-- An `endl` over counter 1, four words back. -/
def endl1 : Word := encode (.endl h0 1 0xFFFFFFFC)
def loopK : State := code .kTask [(72, encode (.nop h0)), (80, endl1)] (at_ .kTask)
theorem meets_LoopsRun : acts .kTask h0 [] loopK ∧
    (fetchWord loopK.task.k.imem 72 ≠ 0 ∧ (fetchWord loopK.task.k.imem 72).extractLsb' 42 8 ≠ 0x16 ∧
      (fetchWord loopK.task.k.imem 80).extractLsb' 42 8 = 0x16 ∧ (fetchWord loopK.task.k.imem 80).extractLsb' 32 3 = 1) ∧
    (acts .l h0 [lcId 1] (ctx .l (fun c => { c with lc := c.lc.set! 1 2 }) (at_ .l)) ∧ (1 : Nat) < 2) ∧
    (acts .c h0 [lcId 1] (at_ .c) ∧ (at_ .c).task.c.lc[1].toNat ≤ 1) := by decide +kernel

theorem meets_GuardFalseActsOnTokensOnly : header (.vmov { hGuard with wp := true } 1 2) = some { hGuard with wp := true } ∧
    (tok 1 (at_ .c)).turn = .issue .c ∧ hazard (tok 1 (at_ .c)) .c [65] = .ready ∧
    guardOf (tok 1 (at_ .c)) { hGuard with wp := true } = false ∧
    popsReady (tok 1 (at_ .c)) (takes .c { hGuard with wp := true } [] (tok 1 (at_ .c))) = true ∧
    overflowOf (tok 1 (at_ .c)) (pushesOf .c { hGuard with wp := true } []) = none := by decide +kernel

/-- A checked action of K that was issued four cycles ago. -/
def checked (a : Action) (firm : Bool) (s : State) : Checked :=
  ⟨a, firm, s.now, 0, 0, s.now - 4, 0, if firm then s.firm else s.task.k, MxK.reset, none, s.task.brackets, s.task.budget,
    s.shareView⟩
def waitsK : State := { at_ .kTask with checkq := [checked (.sts 0 [1]) false core], words := 64 }
def guardK : State := ctx .kTask (fun c => { c with busy := [(65, .word 3)] }) (at_ .kTask)
theorem meets_WordsWaitAtIssue : header (.nop h0) = some h0 ∧
    (waitsK.turn = .issue .kTask ∧ waitsK.checkq.head?.any (fun a => decide (a.word + 64 ≤ waitsK.words)) = true) ∧
    hazard guardK .kTask [65] = .wait ∧
    (∃ p ∈ takes .kTask hWait [] (at_ .kTask), tokenCount (at_ .kTask) p.1 < tokensFor p.1 (takes .kTask hWait [] (at_ .kTask))) ∧
    (∃ p ∈ takes .kTask h0 [(Fifo.lk, 1)] (at_ .kTask),
      tokenCount (at_ .kTask) p.1 < tokensFor p.1 (takes .kTask h0 [(Fifo.lk, 1)] (at_ .kTask))) ∧
    (overflowOf (tok 63 (at_ .kTask)) (pushesOf .kTask hTok [])).isSome := by
  decide +kernel

def woken : State := ctx .s (fun c => { c with wfe := some ⟨1, none, true⟩ }) (at_ .s)
theorem meets_PlainWordsFinish : (acts .l h0 [] (at_ .l) ∧ landed (at_ .l) .l = true ∧ unconfirmed (at_ .l) .l = false ∧
      allPerformed (at_ .l) .l = true ∧ (at_ .l).task.l.marks < (at_ .l).task.s.marks + 15) ∧
    (acts .s h0 [] woken ∧ woken.task.s.wfe = some ⟨1, none, true⟩) ∧
    (acts .s h0 [] (at_ .s) ∧ (at_ .s).task.s.wfe = none) := by decide +kernel

theorem meets_TokenWordsMoveTokens : acts .l h0 [] (at_ .l) ∧ issues .kTask h0 [(.kl, 63)] [] [] (at_ .kTask) ∧
    issues .l hBoth [] [(.kl, 3)] [] (tok 10 (at_ .l)) := by decide +kernel

/-! ### K -/

def kMem : State := memb 0x1000 [1, 2, 3, 4, 5, 6, 7, 0x88, 9]
  (spadb 0x1000 [0xF1, 0xF2, 0xF3, 0xF4, 0xF5, 0xF6, 0xF7, 0xF8] (at_ .kTask))
def kLine : State := { kMem with dcache := [(0x1000, List.replicate 64 7)] }
theorem meets_KLoadsWrite : acts .kTask h0 [rId 1] kMem ∧
    (got (globalCheck kMem .k false 0x1000 8 true false .unbound) (pieces kMem .k false 0x1000 8 true false) ∧
      piecesSegs (pieces kMem .k false 0x1000 8 true false) = [⟨0x1000, 8⟩] ∧ mayLoad kMem false [⟨0x1000, 8⟩] 0 = true ∧
      kMem.dcache = [] ∧ kMem.memBad = []) ∧
    (got (globalCheck kLine .k false 0x1000 8 true false .unbound) (pieces kLine .k false 0x1000 8 true false) ∧
      kLine.dcache.find? (fun l => l.1 == 0x1000 / 64 * 64) = some (0x1000, List.replicate 64 7) ∧
      mayLoad kLine false [⟨0x1000, 8⟩] 0 = true) ∧
    (spadMap kMem false 0x1000 8 = some 0x1000 ∧ mayLoad kMem true [⟨0x1000, 8⟩] 0 = true ∧ kMem.spadBad = []) := by
  decide +kernel

theorem meets_KStoresAreCheckedActions : isK .kTask = true ∧ acts .kTask h0 [rId 1, rId 4] kMem ∧
    got (globalCheck kMem .k false 0x1000 8 false true .unbound) (pieces kMem .k false 0x1000 8 false true) ∧
    egressPassed kMem .kAction (ctxNum kMem false) (egressBytes (pieces kMem .k false 0x1000 8 false true)) = true ∧
    spadMap kMem false 0x1000 8 = some 0x1000 := by decide +kernel

/-- A task that shares its foreshore core: a bulk task with S = 3 steps (1), a latency task (2). -/
def shared (holds : Nat) : State := { kMem with holds := holds, bulkShare := #v[3, 5] }
theorem meets_KAccessesFaultOutsideTheirRanges :
    (acts .kTask h0 [rId 5, rId 4] kMem ∧ acts .kTask h0 [rId 1] kMem) ∧
    (regOf .kTask kMem 3).toNat % 8 ≠ 0 ∧
    ((regOf .kTask kMem 5).toNat % 8 = 0 ∧ (regOf .kTask kMem 5).getLsbD 63 ≠ (regOf .kTask kMem 5).getLsbD 55) ∧
    ((0xFFFFFFFFFFFFFFF8 : Word).toNat % 8 = 0 ∧ lookup kMem .k 1 (0xFFFFFFFFFFFFFFF8 % 2 ^ 56) = none) ∧
    spadMap kMem false 0x7FFFF9 8 = none ∧ spadMap kMem false 0x7FFFF8 8 = some 0x7FFFF8 ∧
    (∃ b ∈ ({ kMem with spadBad := [0x1007] } : State).spadBad, 0x1000 ≤ b ∧ b < 0x1000 + 8) ∧
    ((shared 1).task.ctx ≠ 0 ∧ (shared 1).holds ≠ 0 ∧ (shared 1).bulkShare[(shared 1).die.toNat]! * 0x80000 = 0x180000 ∧ 0x180000 < 0x800000) ∧
    (0x16FFF8 + 8 ≤ 0x180000 - 0x10000 ∧ 0x180000 - 0x10000 < 0x16FFF8 + 9 ∧ 0x16FFF8 < 0x7F0000) ∧
    (0x800000 - 0x180000 - 0x10000 < 0x7F0000 + 9 ∧ 0x7F0000 + 9 ≤ 0x800000) := by decide +kernel

theorem meets_SpecialRegistersReadAndWrite : isK .kTask = true ∧ acts .kTask h0 [rId 4] (at_ .kTask) ∧
    acts .kFirm h0 [rId 4] (at_ .kFirm) ∧ (at_ .kFirm).firm.nrp = false := by decide +kernel

def queued : State := { at_ .kTask with task.portOut := Vector.replicate 9 [5, 6], task.partition := [0, 64] }
/-- Register 9 names core 0 of die 1. -/
def named : State := reg .kTask 9 0x40 queued
/-- A core of the context's other task is free to name. -/
def own : State := { named with task.portOut := Vector.replicate 9 [], launches := [{ (default : Launch) with
  pkt := { (default : Packet) with ctx := 1 }, cores := [3] }] }
theorem meets_PortWordsMove : acts .kTask h0 [] (at_ .kTask) ∧ portOutOf (at_ .kTask) .mx = [] ∧ portOutOf queued .mx = [5, 6] ∧
    (acts .kTask h0 [rId 9, rId 1] named ∧ 64 ∈ named.task.partition ∧ (regOf .kTask named 9).toNat < 2 ^ 9 ∧
      (regOf .kTask named 1).toNat % 64 = 0 ∧ spadMap named false 0x1000 64 = some 0x1000 ∧ ownStoresPending named = false ∧
      queueRoom named 0 1 0 (blocksTo named 0 + 0) = true) ∧
    (acts .kTask h0 [rId 4, rId 1] queued ∧ ¬(regOf .kTask queued 4).toNat < 2 ^ 9) ∧
    (queueRoom own 0 0 0 (blocksTo own 0 + 0) = true ∧ queueRoom own 1 0 0 (blocksTo own 1 + copiesDue own) = true ∧ acts .kTask h0 [rId 9, rId 1] own ∧
      ¬3 ∈ own.task.partition ∧ ∃ l ∈ own.launches, l.pkt.ctx = own.task.ctx ∧ 3 ∈ l.cores) ∧
    (regOf .kTask queued 3).toNat % 64 ≠ 0 := by decide +kernel

theorem meets_AtomicsReadModifyWrite : (wf kMem ∧ acts .kTask h0 [rId 1, rId 2, rId 4] kMem ∧
      got (globalCheck kMem .k false 0x1000 8 true true .unbound) (pieces kMem .k false 0x1000 8 true true) ∧
      piecesSegs (pieces kMem .k false 0x1000 8 true true) = [⟨0x1000, 8⟩] ∧ kMem.memBad = [] ∧
      egressPassed kMem .kAction 1 (egressBytes (pieces kMem .k false 0x1000 8 true true)) = true) ∧
    (acts .s h0 [rId 1, rId 2] { kMem with turn := .issue .s } ∧ storesSettled { kMem with turn := .issue .s } = true ∧
      canPerform { kMem with turn := .issue .s } ⟨kMem.task.nextId, false, 4096, 0, 0, 0, 0x1000, 4096, 64,
        .store false [⟨0x1000, 4⟩] [] none, []⟩ = true ∧
      got (globalCheck kMem .s false 0x1000 4 true true .unbound) (pieces kMem .s false 0x1000 4 true true) ∧
      piecesSegs (pieces kMem .s false 0x1000 4 true true) = [⟨0x1000, 4⟩]) := by
  decide +kernel

/-- A checked action of the task, and of firmware, that is due. -/
def due (a : Action) (firm : Bool) : State := { kMem with turn := .unit, checkq := [checked a firm kMem], now := kMem.now + 8 }
/-- The task's oldest action, with one of firmware behind it. -/
def twice : State := { due (.sts 0x1001 [7]) false with
  checkq := [checked (.sts 0x1001 [7]) false kMem, checked (.wsr none (some 7)) true kMem] }
theorem meets_CheckedActionsAreDecided : wf (due (.stk [⟨0x1001, 3⟩] [7, 0, 9]) false) ∧
    [Action.stk [⟨0x1001, 3⟩] [7, 0, 9], .sts 0x1001 [7, 0, 9], .amo .add true 0x1000 7 5 0 false 90, .tokens .kl 5, .cr (.init 0) 5,
      .await .copy 5, .await .time 5, .fault ⟨.align, 0, 7⟩ 64,
      .mc ⟨.rst, false, false, 0, none, 0, 0, [], none, false⟩, .tithe ⟨.report .thNoTerms 1 1, false, 0, none, 0⟩].all
        (fun a => confirmRuns (due a false)) ∧
    confirmRuns (due (.wsr none (some 7)) true) = true ∧
    confirmRuns { due (.stk [⟨0x1001, 3⟩] [7, 0, 9]) false with
      checkq := [{ checked (.stk [⟨0x1001, 3⟩] [7, 0, 9]) false kMem with due := 9999 }] } = false ∧
    (due (.fault ⟨.align, 0, 7⟩ 64) false).task.k.run = .running ∧ confirmRuns twice = true ∧
    (twice.checkq.drop 1).find? (fun k => k.firm != false) = some (checked (.wsr none (some 7)) true kMem) := by
  decide +kernel

/-- Barrier 1 stands at these counts, in a group of `g` tasks. -/
def barrier (a w c g : Nat) : State := { at_ .kTask with task.group := g, task.bars := Vector.replicate 4 ⟨a, w, c⟩ }
def inBar (s : State) : State := ctx .kTask (fun c => { c with popped := some c.pc }) s
def touched : State := { barrier 1 1 1 2 with task.touch := some ⟨3, 0x1234, 5⟩ }
theorem meets_BarriersCount : (acts .kTask h0 [] (barrier 1 0 1 2) ∧ (barrier 1 0 1 2).task.touch = none) ∧
    ((barrier 0 0 0 1).task.group ≤ 1 ∧ (barOf (barrier 0 0 0 1) 1).arrive = (barOf (barrier 0 0 0 1) 1).waited ∧
      (barrier 0 0 0 1).task.k.popped ≠ some (barrier 0 0 0 1).task.k.pc ∧ acts .kTask h0 [] (barrier 0 0 0 1)) ∧
    (barOf (barrier 1 0 0 2) 1).complete < (barOf (barrier 1 0 0 2) 1).arrive ∧
    (acts .kTask h0 [] (barrier 1 1 1 2) ∧ (barOf (barrier 1 1 1 2) 1).complete ≤ (barOf (barrier 1 1 1 2) 1).arrive) ∧
    (acts .kTask h0 [] (inBar (barrier 1 0 1 2)) ∧
      (inBar (barrier 1 0 1 2)).task.k.popped = some (inBar (barrier 1 0 1 2)).task.k.pc) ∧
    (acts .kTask h0 [] touched ∧ touched.task.touch = some ⟨3, 0x1234, 5⟩ ∧
      (barOf touched 1).arrive ≤ (barOf touched 1).waited) := by
  decide +kernel

def inHandler (x : Issuer) : State := ctx x (fun c => { c with trp := true, epc := 0x48 }) (spadb 0x7FF600 (List.replicate 256 0) (at_ x))
def noHandler (x : Issuer) : State := ctx x (fun c => { c with tvec := 7 }) (at_ x)
theorem meets_TrapsEnterOrHalt : (wf (at_ .c) ∧ (at_ .c).task.c.trp = false ∧ (0x100 : Pc).toNat = (at_ .c).task.c.tvec.toNat % 2 ^ 17 / 8 * 8 ∧
      causeRouteF .align = false ∧ spadMap (at_ .c) false (frameAt (at_ .c) .c) 256 = some 0x7FF600 ∧
      spadMap (at_ .kFirm) true (frameAt (at_ .kFirm) .kFirm) 256 = some 0x7FF800) ∧
    (inHandler .s).task.s.trp = true ∧ (causeRouteF .page = true ∧ (at_ .l).task.l.trp = false) ∧
    (noHandler .l).task.l.tvec.toNat % 2 ^ 17 / 8 = 0 ∧ (inHandler .kFirm).firm.trp = true ∧
    (noHandler .kFirm).firm.tvec.toNat % 2 ^ 17 / 8 = 0 := by
  decide +kernel

def halted (x : Issuer) (w : Word) : State := ctx x (fun c => { c with run := .halted w 7 true }) (at_ .kFirm)
theorem meets_SystemWordsAct : acts .kFirm h0 [] (at_ .kFirm) ∧ (at_ .kFirm).task.c.run = .running ∧
    ((halted .c 0x8805).task.c.run = .halted 0x8805 7 true ∧ (0x8805 : Word).getLsbD 15 = true ∧ acts .kFirm h0 [] (halted .c 0x8805)) ∧
    ((halted .s 0x805).task.s.run = .halted 0x805 7 true ∧ acts .kFirm h0 [] (halted .s 0x805)) ∧ (at_ .kFirm).task.alive = true ∧
    (acts .kTask hBoth [] (tok 1 (at_ .kTask)) ∧ acts .kTask { hBoth with sp := false } [] (tok 1 (at_ .kTask)) ∧
      overflowOf (tok 1 (at_ .kTask)) (headerPushes hTok .k) = none) := by
  decide +kernel

/-- A service core that runs the image of a debugger (R437). -/
def debugged : State := { at_ .kFirm with kind := .service, debugFuse := true, bootImage := some ⟨[1], [7], [], []⟩ }
theorem meets_SoftwareTrapsTrap_debugger : acts .kFirm h0 [] debugged ∧ (bootService debugged).isSome ∧ debugged.firm.popped = none ∧
    (ctx .kFirm (fun c => { c with popped := some c.pc }) debugged).firm.popped = some 64 := by
  decide +kernel

theorem meets_RfiRestores : (acts .c h0 [] (inHandler .c) ∧ (inHandler .c).task.c.trp = true ∧ landed (inHandler .c) .c = true ∧
      spadMap (inHandler .c) false (frameAt (inHandler .c) .c) 256 = some 0x7FF600 ∧ frameBusy (inHandler .c) .c 0x7FF600 = false ∧
      frameFault (inHandler .c) (readFrame (inHandler .c) 0x7FF600) (pcOfWord 0) = none) ∧
    (acts .kTask h0 [] (inHandler .kTask) ∧ spadMap (inHandler .kTask) false (frameAt (inHandler .kTask) .kTask) 256 = some 0x7FF400 ∧
      frameBusy (inHandler .kTask) .kTask 0x7FF400 = false) ∧
    (acts .s h0 [] (at_ .s) ∧ (at_ .s).task.s.trp = false) := by
  decide +kernel

/-! ### Access and element words -/

/-- A window word: format code, count, stride and base. -/
def win (fc count : Nat) (stride : Int) (b : Nat) : BitVec 64 :=
  BitVec.ofNat 64 (fc * 2 ^ 55 + count * 2 ^ 23 + b) ||| ((BitVec.ofInt 16 stride).setWidth 64 <<< 39)
def setw (n : Nat) (w : BitVec 64) (s : State) : State := { s with task.w := s.task.w.set! n w }
def sete (n : Nat) (v : Elem) (s : State) : State := { s with task.e := s.task.e.set! n v }
def setq (q : Fin 20) (l : List QSlot) (s : State) : State := { s with task.queues := s.task.queues.set q l, task.nextId := 50 }
def el (id : Nat) (v : Elem) : QSlot := ⟨id, some v, none, none⟩
def owed (id : Nat) : QSlot := ⟨id, none, none, some 0⟩
def isOk {α β : Type} (e : Except α β) : Bool := match e with
  | .ok _ => true
  | .error _ => false

/-- L with elements in an index queue, window 1 of two elements a stride of 3 apart, furrow 2 of two tiles. -/
def onL : State := reg .l 5 1024 (setw 1 (win 9 4 3 0x2002) (setFur 2 ⟨.fp32, 2, 0x10000, 1, 1, []⟩
  (setq (iqIdx 3) [el 0 2, owed 1] (at_ .l))))
theorem meets_LoadsIssue : acts .l h0 [rId 1] onL ∧ isOk (globalCheck onL .l false 0x1000 8 true false .unbound) ∧
    ((qOf onL (lqIdx 0)).length + 2 ≤ 64 ∧ (qOf (setq (lqIdx 0) (List.replicate 62 (el 1 1)) onL) (lqIdx 0)).length + 2 ≤ 64) ∧
    (acts .l h0 [rId 1, wId 1] onL ∧ acts .l h0 [rId 1, wId 2] onL ∧ onL.spadBad = []) ∧
    spadMap onL false 0x1000 8 = some 0x1000 ∧ (qPresent onL (iqIdx 3)).head? = some (el 0 2) ∧ winCount (winOf onL 2) = 0 ∧
    (winCount (winOf onL 1) ≠ 0 ∧ isOk (moveWindow onL 1 (winOf onL 1) false) ∧ 0x1000 % elemSize (winFmt (winOf onL 1)) = 0 ∧
      isOk (globalCheck onL .l false 0x1000 (winBytes (winOf onL 1)) true false (winInto (winOf onL 1)))) ∧
    (acts .l h0 [rId 1, rId 5] onL ∧ (furOf onL 2).cap ≠ 0 ∧ tileMisaligned .fp32 0x1000 1024 = false ∧
      isOk (runsCheck onL .l false (tileRuns .fp32 0x1000 1024) true false (.furrow 2)) ∧
      (furOf onL 2).present + (furOf onL 2).fill.length < (furOf onL 2).cap) := by
  decide +kernel

def onS : State := spadb 0x2000 [1, 2, 3, 4, 5, 6, 7, 8] (reg .s 5 1024 (setw 1 (win 8 4 3 0x2002)
  (setFur 2 ⟨.fp32, 2, 0x10000, 0, 1, []⟩
    (setq (sqIdx 0) [el 3 7, el 4 8, owed 5] (setq (sqIdx 1) [el 6 1, el 7 9, el 8 10] (at_ .s))))))
theorem meets_StoresIssue : acts .s h0 [rId 1] onS ∧
    (acts .s h0 [rId 1, wId 1] onS ∧ acts .s h0 [rId 1, wId 2] onS ∧ bytesSettled onS = true) ∧ (qPresent onS (sqIdx 0)).take 2 = [el 3 7, el 4 8] ∧
    ((qPresent onS (sqIdx 1)).head? = some (el 6 1) ∧ ((qPresent onS (sqIdx 1)).drop 1).take 2 = [el 7 9, el 8 10]) ∧
    (isOk (globalCheck onS .s false 0x1000 8 false true .unbound) ∧
      egressPassed onS .sStore 1 (egressBytes (pieces onS .s false 0x1000 8 false true)) = true) ∧
    spadMap onS false 0x1000 8 = some 0x1000 ∧ winCount (winOf onS 2) = 0 ∧
    (winCount (winOf onS 1) ≠ 0 ∧ got (moveWindow onS 1 (winOf onS 1) true) 0 ∧ winSpan (winOf onS 1) = some (0x2002, 0x2016) ∧
      boundMeets onS false 0x2002 0x14 = none ∧ (checkTiles 0 0 (tilesMeeting onS 0x2002 0x14) onS).2 = none ∧
      windowBad (checkTiles 0 0 (tilesMeeting onS 0x2002 0x14) onS).1 (winOf onS 1) 0 = false) ∧
    (acts .s h0 [rId 1, rId 5] onS ∧ isOk (runsCheck onS .s false (tileRuns .fp32 0x1000 1024) false true .unbound) ∧
      furrowBound onS 2 = false ∧ claimed onS 2 < (furOf onS 2).present ∧
      (checkTiles 0 0 (slotRec onS 2 0).toList onS).2 = none ∧
      anyBad onS.spadBad (slotPhys onS (furOf onS 2) 0) (slotBytes .fp32) = false) := by
  decide +kernel

/-- A load into queue 1 that has been issued, and may be performed unless `held`; `again`: the flush has been issued too. -/
def flushing (held again : Bool) (ids : List Nat) : State :=
  ctx .l (fun c => { c with popped := if again then some 64 else none }) { at_ .l with
    task.accesses := [⟨1, true, 4000, 0, if held then 1 else 0, 0, 0x1000, 0, 64, .load false [⟨0x1000, 4⟩] .w (lqIdx 1) ids false, []⟩] }
theorem meets_QueueWordsAct : acts .l h0 [] onL ∧ acts .s h0 [] onS ∧ acts .c h0 [] (at_ .c) ∧ latchRoom (at_ .c) = true ∧
    acts .l h0 [] (flushing false false [1]) ∧ (flushing false false [1]).task.l.popped ≠ some (flushing false false [1]).task.l.pc ∧
    canPerform (flushing false false [1]) (flushing false false [1]).task.accesses[0]! = true ∧
    canPerform (flushing true false [1]) (flushing true false [1]).task.accesses[0]! = false ∧
    acts .l h0 [] (flushing false true [1]) ∧ (flushing false true [1]).task.l.popped = some (flushing false true [1]).task.l.pc := by
  decide +kernel

def access (k : AccessKind) (load : Bool) : Access := ⟨1, load, 4000, 0, 0, 0, 0x1000, 0, 64, k, [(.lc, 2)]⟩
def performing (k : AccessKind) (load : Bool) : State :=
  { setw 1 (win 9 4 1 0x2002) (setFur 2 ⟨.fp32, 2, 0x10000, 1, 1, [false]⟩ (memb 0x1000 [1, 2, 3, 4] core)) with
    task.accesses := [access k load] }
def early : State := { performing (.store false [⟨0x1000, 2⟩] [7, 8] none) false with
  task.accesses := [{ access (.store false [⟨0x1000, 2⟩] [7, 8] none) false with cycle := 4096 }] }
theorem meets_AccessesArePerformed : core.task.accesses = [] ∧ wf (performing (.load false [⟨0x1000, 4⟩] .w 0 [1] false) true) ∧
    canPerform (performing (.load false [⟨0x1000, 4⟩] .w 0 [1] false) true) (access (.load false [⟨0x1000, 4⟩] .w 0 [1] false) true) = true ∧
    canPerform (performing (.load false [⟨0x1000, 8⟩] .d 0 [1, 2] false) true) (access (.load false [⟨0x1000, 8⟩] .d 0 [1, 2] false) true) = true ∧
    canPerform (performing (.store false [⟨0x1000, 2⟩] [7, 8] none) false) (access (.store false [⟨0x1000, 2⟩] [7, 8] none) false) = true ∧
    canPerform (performing (.loadWindow [⟨0x1000, 8⟩] (win 9 4 1 0x2002)) true) (access (.loadWindow [⟨0x1000, 8⟩] (win 9 4 1 0x2002)) true) = true ∧
    (winPhys core (win 9 4 1 0x2002) = some 0 ∧ winSpan (win 9 4 1 0x2002) = some (0x2002, 0x2012)) ∧
    canPerform (performing (.loadTile [⟨0x1000, 4⟩] [] 2 0) true) (access (.loadTile [⟨0x1000, 4⟩] [] 2 0) true) = true ∧
    slotNum (furOf (performing (.loadTile [] [] 2 0) true) 2) 1 = 0 ∧
    pageFits ⟨1, 0x200000, 0x400000, .hbm, true, true⟩ = true ∧ pageFits ⟨1, 0x1000, 0x400000, .hbm, true, true⟩ = false ∧
    canPerform early { access (.store false [⟨0x1000, 2⟩] [7, 8] none) false with marks := 1 } = false := by
  decide +kernel

/-- C with an element in load queue 0 and a store queue that has no room. -/
def onC : State := sete 7 0x3F800000 (setq (lqIdx 0) [el 1 0x40000000] (setq (sqIdx 0) (List.replicate 64 (el 1 1)) (at_ .c)))
def latched (n : Nat) : State := { at_ .c with task.latches := List.replicate n ⟨.reg 1, 9999, 1, 1, none⟩ }
theorem meets_ElementWordsReadAndSend : (acts .c h0 ([EOp.e 7, .lq 0].flatMap (opIds onC)) onC ∧ (EOp.sq 1).isDst = true ∧
      latchRoom onC = true ∧ destRoom onC (.sq 1) = true ∧ isOk (sources [.e 7, .lq 0] onC)) ∧
    (acts .c (Hdr.noGuard hGuard) (pId 1 :: [EOp.e 7, .zero].flatMap (opIds onC)) onC ∧ isOk (sources [.e 7, .zero] onC)) ∧
    (acts .c h0 [] (latched 8) ∧ latchRoom (latched 8) = false ∧ latchRoom (latched 7) = true) ∧
    (8 * 48 + 8 * 48 ≤ 768 ∧ qPresent (at_ .c) (lqIdx 0) = [] ∧ qOf onC (lqIdx 0) = [el 1 0x40000000]) := by
  decide +kernel

theorem meets_ElementWordsReadAndSend_complete : acts .c h0 ([EOp.e 7, .lq 0, .one].flatMap (opIds onC)) onC ∧
    (qOf onC (lqIdx 0)).takeWhile (fun e => e.val.isSome) = [el 1 0x40000000] ∧ ([EOp.e 7, .lq 0, .lq 1].count (.lq 0) ≤ 1) ∧
    ((onC.task.latches.filter (fun l => decide (onC.now < l.land))).length < 8 ∧
      ((latched 7).task.latches.filter (fun l => decide ((latched 7).now < l.land))).length < 8) ∧
    ((qOf onC (sqIdx 1)).length < 64 ∧ (qOf onC (iqIdx 3)).length < 64 ∧ ¬(qOf onC (sqIdx 0)).length < 64) ∧
    (acts .c (Hdr.noGuard { hGuard with neg := true }) (pId 1 :: [EOp.e 7, .zero].flatMap (opIds onC)) onC ∧
      (el 1 0x40000000).poison = none) := by
  decide +kernel

theorem meets_ElementFunctionsCompute : ((0x7F800001 : Elem).extractLsb' 23 8 = 0xFF ∧ (0x7F800001 : Elem).extractLsb' 0 23 ≠ 0) ∧
    (0x7F800000 : Elem).extractLsb' 0 23 = 0 ∧ FopFn.fmax ∈ [FopFn.fadd, .fsub, .fmul, .fmin, .fmax] := by decide

def onE : State := spadb 0x2000 [1, 2, 3, 4, 5] (sete 7 0x1000 (sete 8 0x800000 (at_ .c)))
theorem meets_ElementAccesses : acts .c h0 [eId onE 7] onE ∧ acts .c h0 [eId onE 8, eId onE 7] onE ∧ wf onE ∧
    (((getE onE 7).toNat : Int) + (0x1000 : BitVec 18).toInt = (0x2000 : Nat) ∧ spadMap onE false 0x2000 4 = some 0x2000 ∧
      anyBad onE.spadBad 0x2000 4 = false ∧ destRoom onE (.sq 2) = true) ∧
    (((getE onE 7).toNat : Int) + (0x1001 : BitVec 18).toInt) % 4 ≠ 0 ∧
    ((0x3FFFC : BitVec 18).toInt = -4 ∧ acts .c h0 [] onE) ∧
    (((getE onE 8).toNat : Int) + (0 : BitVec 18).toInt = (0x800000 : Nat) ∧ spadMap onE false 0x800000 4 = none ∧
      spadMap onE false 0x7FFFFC 4 = some 0x7FFFFC) := by
  decide +kernel

def landing (l : Latch) : State :=
  { setq (sqIdx 1) [owed 4, owed 5] (at_ .c) with task.latches := [⟨.reg 5, 9999, 7, 4, none⟩, l] }
theorem meets_ResultsLand : (at_ .c).task.latches = [] ∧
    [(⟨.reg 6, 4096, 7, 4, none⟩ : Latch), ⟨.queue (sqIdx 1) 5, 4096, 7, 4, none⟩, ⟨.reg 6, 4096, 7, 4, some false⟩].all
      (fun l => (landing l).task.latches.find? (fun l => decide (l.land ≤ (landing l).now)) == some l) := by
  decide +kernel

/-! ### Vector words -/

/-- C with 1 and 2 to read, 3 to write, bitmasks 4 and 5, in a format code with n elements each. -/
def vec (fc n : Nat) : State := spadb 0x2000 [1, 2, 0x80, 0xFF, 0x7C, 0x7F, 0x3C, 0xC0] (spadb 0x2180 [0xA5]
  (setw 1 (win fc n 1 0x2000) (setw 2 (win fc n 1 0x2080) (setw 3 (win fc n 1 0x2100) (setw 4 (win 13 n 1 0x2180)
    (setw 5 (win 13 n 1 0x2200) (at_ .c)))))))
/-- The windows of a word's uses. -/
def wins (s : State) (us : List Use) (cs : List Clash) : List Win := match checkUses s us cs with
  | .ok ws => ws
  | .error _ => []
/-- The uses pass, the chunk takes n elements, and no element to read of these is bad. -/
def fits (s : State) (us : List Use) (cs : List Clash) (n : Nat) (srcs : List Nat) : Bool :=
  isOk (checkUses s us cs) && decide (n ≤ chunkOf (wins s us cs)) &&
    srcs.all (fun i => (List.range n).all (fun k => (elemBad s (Machine.win (wins s us cs) i).img (Machine.win (wins s us cs) i).disp k).isNone))

theorem meets_WindowsHoldElementsOrFault : wf (vec 4 8) ∧ fmtBits .int16 = 8 * 2 ∧ winStride (win 13 5 1 0x2180) = 1 ∧
    acts .c h0 [wId 3, wId 1] (at_ .c) ∧ winFmt (winOf (at_ .c) 1) = .none ∧
    (winFmt (win 9 8 1 2) ≠ winFmt (win 4 8 1 2) ∧ winBase (win 9 8 1 2) % elemSize (winFmt (win 9 8 1 2)) ≠ 0) ∧
    (winPhys (vec 4 8) (win 9 8 1 0x7FFFF0) = none ∧ (winPhys (vec 4 8) (win 9 8 1 0x7FFFE0)).isSome) ∧
    (packed (winFmt (win 13 8 2 4)) = true ∧ winStride (win 13 8 2 4) ≠ 1) ∧
    winCount (win 4 8 1 0) ≠ winCount (win 4 9 1 100) ∧
    (spansMeet (win 4 8 1 0) (win 4 8 1 7) = true ∧ winSame (win 4 8 1 0) (win 4 8 1 7) = false ∧
      spansMeet (win 4 8 1 0) (win 4 8 1 8) = false) := by
  decide +kernel

def useF : List Use := [⟨3, isFI, .kind, sameN 4⟩, ⟨1, isFI, .kind, anyN⟩, ⟨2, isFI, .kind, sameN 4⟩]
def useAny : List Use := [⟨3, isAny, .format, sameN 4⟩, ⟨1, isAny, .format, anyN⟩, ⟨2, isAny, .format, sameN 4⟩, ⟨4, isB, .free, sameN 4⟩]
def useMask : List Use := [⟨5, isB, .free, sameN 4⟩, ⟨1, isFI, .kind, anyN⟩, ⟨2, isFI, .kind, sameN 4⟩]
theorem meets_VectorWordsMap : acts .c h0 ([wId 3, wId 1, wId 2, wId 4, wId 5] ++ eReads (vec 9 4) [.e 7]) (vec 9 4) ∧
    fits (vec 9 4) [⟨3, isFI, .format, sameN 4⟩, ⟨1, isFI, .lead, anyN⟩] [⟨0, 1, true⟩] 4 [0, 1] ∧ progOf (vec 9 4) = none ∧ isOk (sources [.e 7] (vec 9 4)) ∧
    fits (vec 9 4) useF [⟨0, 1, true⟩, ⟨0, 2, true⟩] 4 [0, 1, 2] ∧ fits (vec 4 4) useF [⟨0, 1, true⟩, ⟨0, 2, true⟩] 4 [0, 1, 2] ∧
    fits (vec 9 4) [⟨3, isF, .free, sameN 4⟩, ⟨1, isF, .free, anyN⟩] [⟨0, 1, true⟩] 4 [1] ∧
    fits (vec 4 4) useAny [⟨0, 1, true⟩, ⟨0, 2, true⟩, ⟨0, 3, true⟩] 4 [1, 2, 3] ∧
    fits (vec 9 4) useMask [⟨0, 1, true⟩, ⟨0, 2, true⟩] 4 [1, 2] ∧ fits (vec 9 4) [⟨3, isFIB, .free, anyN⟩] [] 4 [] ∧
    (vec 9 4).side = [] := by
  decide +kernel

/-- A program of the word at pc 64 in its third phase, at its first element. -/
def third : State := ctx .c (fun c => { c with inFlight := true })
  { vec 9 4 with task.vprog := some ⟨64, 4090, false, 0, 2, 0x40000000, [0x3F800000, 0x3F000000], 24, (vec 9 4).task.w⟩ }
def block (fd fa : Nat) : State := setw 1 (win fa 32 1 0x2000) (setw 3 (win fd 32 1 0x2400) (setw 4 (win 9 1 1 0x2600) (at_ .c)))
def long : State := setw 1 (win 4 300 1 0x2000) (setw 3 (win 4 300 1 0x3000) (at_ .c))
theorem meets_ChunkedVectorWordsRun :
    (acts .c h0 [wId 3, wId 1] long ∧ long.task.c.inFlight = false ∧ progOf long = none) ∧
    (acts .c h0 ([3, 1, 2, 4].map wId ++ [eId (vec 4 8) 7]) (vec 4 8) ∧ acts .c h0 [wId 3, wId 1, wId 4] (block 3 9) ∧
      acts .c h0 [wId 3, wId 1] third ∧ third.task.c.inFlight = true) ∧
    (fits long [⟨3, isAny, .format, sameN 300⟩, ⟨1, isAny, .format, anyN⟩] [⟨0, 1, true⟩] 0 [] ∧
      chunkOf (wins long [⟨3, isAny, .format, sameN 300⟩, ⟨1, isAny, .format, anyN⟩] [⟨0, 1, true⟩]) < 300) ∧
    fits (vec 4 8) [⟨3, isAny, .format, fun c => decide (8 ≤ c)⟩, ⟨1, isAny, .format, anyN⟩, ⟨4, isB, .free, sameN 8⟩]
      [⟨0, 1, true⟩, ⟨0, 2, true⟩] 8 [1, 2] ∧
    fits (vec 4 8) [⟨3, isAny, .format, anyN⟩, ⟨1, isAny, .format, anyN⟩, ⟨4, isB, .free, sameN 8⟩]
      [⟨0, 1, false⟩, ⟨0, 2, false⟩] 8 [1, 2] ∧
    fits (vec 4 8) [⟨3, isFI, .kind, sameN 8⟩, ⟨1, isFI, .kind, anyN⟩] [⟨0, 1, true⟩] 8 [1] ∧
    (fits (vec 9 2) [⟨3, isF, .free, sameN 2⟩, ⟨1, isF, .free, fun c => c % 2 ^ 1 == 0⟩] [⟨0, 1, true⟩] 2 [1] ∧
      acts .c h0 [eId (vec 9 2) 7, eId (vec 9 2) (nextE 7 1)] (vec 9 2)) ∧
    fits (block 3 9) [⟨3, isM, .free, sameN 32⟩, ⟨1, isF, .free, fun c => c % 32 == 0⟩, ⟨4, (· == .fp32), .free, sameN 1⟩]
      [⟨0, 1, true⟩, ⟨1, 2, true⟩] 32 [1] ∧
    fits (block 9 3) [⟨3, isF, .free, sameN 32⟩, ⟨1, fun f => isM f || f == .int8, .free, fun c => c % 32 == 0⟩, ⟨4, (· == .fp32), .free, sameN 1⟩]
      [⟨0, 1, true⟩, ⟨0, 2, true⟩] 32 [1] ∧
    (winFmt (winOf (block 9 3) 1) ≠ .int8 ∧ winFmt (winOf (block 9 4) 1) = .int8 ∧ acts .c h0 [wId 3, wId 1] (block 9 4) ∧
      fits (block 9 4) [⟨3, isF, .free, sameN 32⟩, ⟨1, fun f => isM f || f == .int8, .free, fun c => c % 32 == 0⟩]
        [⟨0, 1, true⟩, ⟨0, 2, true⟩] 32 [1]) ∧
    fits (setw 1 (win 9 4 1 0x2000) (setw 3 (win 10 64 1 0x2400) (setw 4 (win 9 64 1 0x2600) (at_ .c))))
      [⟨3, (· == .int32), .free, sameN 64⟩, ⟨1, isF, .free, anyN⟩, ⟨4, (· == .fp32), .free, sameN 64⟩]
      [⟨0, 1, true⟩, ⟨1, 2, true⟩] 4 [1] ∧
    (progOf third = some ⟨64, 4090, false, 0, 2, 0x40000000, [0x3F800000, 0x3F000000], 24, (vec 9 4).task.w⟩ ∧ 4090 ≤ third.now ∧
      fits third [⟨3, isF, .free, sameN 4⟩, ⟨1, isF, .free, anyN⟩] [⟨0, 1, true⟩] 4 [1]) ∧
    (fits (vec 9 2) [⟨1, isF, .free, anyN⟩, ⟨2, isF, .free, sameN 2⟩] [] 2 [0, 1] ∧ (getE (vec 9 2) 7).toNat < 2) ∧
    (vec 4 8).task.guards = [] := by
  decide +kernel

def nanWin : State := spadb 0x2004 [1, 0, 0x80, 0x7F] (setw 1 (win 9 4 1 0x2000) (at_ .c))
theorem meets_ReductionsSendResults : (acts .c h0 [wId 1] (vec 4 8) ∧ acts .c h0 [wId 4] (vec 4 8) ∧ progOf (vec 4 8) = none ∧ fits (vec 4 8) [⟨1, isFI, .free, anyN⟩] [] 8 [0]) ∧
    (fits nanWin [⟨1, isFI, .free, anyN⟩] [] 4 [0] ∧
      ((Machine.win (wins nanWin [⟨1, isFI, .free, anyN⟩] []) 0).val nanWin 1).isNan = true) ∧
    fits (vec 9 0) [⟨1, isFI, .free, anyN⟩] [] 0 [] ∧ fits (vec 4 0) [⟨1, isFI, .free, anyN⟩] [] 0 [] ∧
    fits (vec 4 8) [⟨4, isB, .free, anyN⟩] [] 8 [0] := by
  decide +kernel

/-- Window 6 of indexes, window 3 for as many results, window 1 for the table. -/
def indexes (l : List (BitVec 8)) (table : Nat) : State :=
  spadb 0x2800 l (setw 6 (win 4 l.length 1 0x2800) (setw 3 (win table l.length 1 0x2100) (setw 1 (win table 4 1 0x2000) (at_ .c))))
def begun (s : State) : State := ctx .c (fun c => { c with inFlight := true })
  { s with task.vprog := some ⟨64, 4000, false, 0, 0, 0, [], 0, s.task.w⟩ }
theorem meets_IndexedWordsMove :
    (acts .c h0 [wId 3, wId 1, wId 6] (indexes [3, 0, 1] 9) ∧ progOf (indexes [3, 0, 1] 9) = none ∧ (indexes [3, 0, 1] 9).task.guards = []) ∧
    fits (indexes [3, 0, 1] 9) [⟨3, isAny, .format, sameN 3⟩, ⟨1, isAny, .lead, anyN⟩, ⟨6, isI, .free, anyN⟩]
      [⟨0, 1, true⟩, ⟨0, 2, true⟩, ⟨1, 2, false⟩] 3 [2] ∧
    fits (indexes [3, 0, 0xFF] 9) [⟨1, isFI, .kind, anyN⟩, ⟨3, isFI, .kind, sameN 3⟩, ⟨6, isI, .free, anyN⟩]
      [⟨0, 1, true⟩, ⟨0, 2, false⟩] 3 [1, 2] ∧
    fits (indexes [3, 0, 4] 13) [⟨1, isB, .free, anyN⟩, ⟨6, isI, .free, anyN⟩] [⟨0, 1, true⟩, ⟨0, 2, true⟩] 3 [1] ∧
    fits (indexes [3, 0, 4] 13) [⟨3, isB, .free, sameN 3⟩, ⟨6, isI, .free, anyN⟩, ⟨1, isB, .free, anyN⟩]
      [⟨0, 1, true⟩, ⟨0, 2, true⟩] 3 [1] ∧
    (acts .c h0 [wId 3, wId 1, wId 6] (begun (indexes [3, 0, 4] 9)) ∧ (begun (indexes [3, 0, 4] 9)).task.c.inFlight = true ∧
      progOf (begun (indexes [3, 0, 4] 9)) = some ⟨64, 4000, false, 0, 0, 0, [], 0, (indexes [3, 0, 4] 9).task.w⟩ ∧ 4000 + 8 ≤ (begun (indexes [3, 0, 4] 9)).now ∧
      sgn 8 4 = 4 ∧ sgn 8 0xFF = -1) := by
  decide +kernel

def turns : State := ctx .c (fun c => { c with lc := c.lc.set! 1 2 |>.set! 2 1 })
  { at_ .c with task.rbase := 3, task.rsize := 2, task.epi := 3 }
theorem meets_WindowAndRotationWordsWrite : (acts .c h0 [wId 2, eId turns 7, eId turns (nextE 7 1)] turns ∧ isOk (sources [.e 7] turns) ∧
      acts .c h0 [] turns ∧ (turns.task.latches.filter (fun l => decide (turns.now < l.land))).length < 7 ∧
      (latched 6).task.latches.length < 7) ∧
    (96 ≤ 96 ∧ 0 + 96 ≤ 96 ∧ 8 ≤ 8 ∧ ¬(1 + 96 ≤ 96)) ∧
    (acts .c h0 (lcId 1 :: [72, 73, 74, 75, 76, 77, 78]) turns ∧ 1 < turns.task.c.lc[1].toNat ∧ turns.task.c.lc[2].toNat ≤ 1 ∧
      1 < turns.task.epi.toNat) := by
  decide +kernel

/-! ### The matrix engine and the headland -/

def fmtWord : Word := BitVec.ofNat 64 (1 * 2 ^ 60 + 4 * 2 ^ 56 + 9 * 2 ^ 52 + 5 * 2 ^ 40 + 3 * 2 ^ 32)
def level (n a b c : Nat) (r : Role) : MLevel := ⟨BitVec.ofNat 16 n, BitVec.ofNat 16 a, BitVec.ofNat 16 b, BitVec.ofNat 16 c, r⟩
/-- K with furrows 2 to 4 as issued, one format word, a nest of one level, and w in register 9. -/
def mat (w : Word) : State := reg .kTask 9 w { at_ .kTask with task.mx.k := { MxK.reset with
  words := [(fmtWord, 5)]
  fur := MxK.reset.fur |>.set 2 ⟨.mxint4, 4, 0x10000⟩ |>.set 3 ⟨.int8, 4, 0x20000⟩ |>.set 4 ⟨.fp32, 4, 0x30000⟩
  table := MxK.reset.table.set 1 (level 3 1 1 0 .k) } }
def goWord : Word := BitVec.ofNat 64 (0x032 + 5 * 2 ^ 8 + 1 * 2 ^ 16 + 2 * 2 ^ 28 + 2 ^ 40)
def tileWord : Word := BitVec.ofNat 64 (2 + 1 * 16 + 3 * 2 ^ 16 + 2 * 2 ^ 20 + 7 * 2 ^ 32 + 2 ^ 36)
def setWord : Word := BitVec.ofNat 64 (9 * 2 ^ 36 + 2 * 2 ^ 24 + 0x40000)
def noWords : State := { mat tileWord with task.mx.k.words := [] }
theorem meets_MatrixWordsQueueCommands : (isK .kTask = true ∧ acts .kTask h0 [rId 9] (mat fmtWord) ∧ mxQueued (mat fmtWord) < 32 ∧
      (mat fmtWord).task.mx.k.words.length < 16) ∧
    (fmtWord.toNat / 2 ^ 60 % 2 ^ 4 ∈ [1, 2, 3, 4] ∧ fmtWord.toNat / 2 ^ 56 % 2 ^ 4 ∈ [1, 2, 3, 4] ∧
      fmtWord.toNat / 2 ^ 52 % 2 ^ 4 ∈ [4, 5, 6, 7, 8, 9, 10] ∧ fmtWord.toNat / 2 ^ 40 % 2 ^ 12 ≠ 0 ∧
      fmtWord.toNat / 2 ^ 34 % 2 ^ 6 = 0 ∧ fmtWord.toNat % 2 ^ 32 = 0) ∧
    (tileChecks (mat goWord).task.mx.k (mgoNest goWord (mat goWord).task.mx.k) goWord = none ∧
      goWord.toNat / 2 ^ 41 % 2 ^ 23 = 0 ∧ goWord.toNat / 2 ^ 12 % 2 ^ 4 = 0 ∧ (0x1000 : Nat) / 2 ^ 12 % 2 ^ 4 ≠ 0) ∧
    (tileChecks (mat tileWord).task.mx.k (mtileNest tileWord (mat tileWord).task.mx.k) tileWord = none ∧
      tileWord.toNat / 2 ^ 39 % 2 ^ 25 = 0) ∧
    (noWords.task.mx.k.fur[Fin.ofNat 16 (tileWord.toNat / 2 ^ 0 % 2 ^ 4)].cap ≠ 0 ∧
      operandFmt noWords.task.mx.k.fur[Fin.ofNat 16 (tileWord.toNat / 2 ^ 16 % 2 ^ 4)].fmt = true) ∧
    (matrixIdle (mat 0) = true ∧ matrixIdle { mat 0 with task.mx.cmds := [⟨.marker [], 0, false, 0⟩] } = false) ∧
    ((mat 13).task.mx.k.fur[(4 : Fin 16)].cap ≠ 0 ∧ outFmt .fp32 = true ∧ (mat 13).task.mx.k.out[13]?.getD .none = .fp32) ∧
    (fsetFault (mat setWord) 5 ⟨.int32, 2, 0x40000⟩ setWord = none ∧ setWord.toNat / 2 ^ 40 % 2 ^ 24 = 0 ∧
      setWord.toNat / 2 ^ 23 % 2 = 0 ∧ furrowBound (mat setWord) 5 = false) ∧
    ((0xFFF : Nat) < 2 ^ 12 ∧ 2 ^ 12 ≤ (0x1000 : Nat) ∧ (0xFFFF : Nat) < 2 ^ 16 ∧ 2 ^ 16 ≤ (0x10000 : Nat)) := by
  decide +kernel

/-- The engine with these commands, tiles in furrows 2 and 3, and furrow 4 for results. -/
def engine (cs : List MCmd) : State := setFur 2 ⟨.int8, 4, 0x10000, 3, 2, []⟩ (setFur 3 ⟨.int8, 4, 0x20000, 0, 2, []⟩
  (setFur 4 ⟨.fp32, 4, 0x30000, 3, 1, []⟩ { core with task.mx.cmds := cs }))
def single (op : MOp) : MCmd := ⟨op, 0, false, 0⟩
def nest : Nest := ⟨⟨2, 3, .quad, 1, 0, 1, 0, 2⟩, false, [], 1, 0, [], false, 0, 0, none⟩
def popping : State := modMx (fun m => setAcc 6 { accAt m 6 with poison := true } { m with pops := [(2, 1)] })
  (engine [single (.marker [6])])
/-- An accumulator that is refused already is not checked again. -/
theorem refused_stays (i : Nat) (s : State) (h : (accAt s.task.mx i).poison = true) : accFix i s = (false, s) := by
  simp [accFix, mxOf, h]
theorem meets_MatrixEngineSteps : (owedPick (engine []) = none ∧ matrixPick (engine []) = none ∧ markerPick (engine []) = false ∧
      drainPick (engine []) = none) ∧
    [MOp.zero 0x8001, .cfg .f1x4 ⟨.rd, true⟩, .fset 2 ⟨.fp32, 2, 0x40000⟩, .fdrop 2 0, .fdrop 2 1, .nest nest].all (fun op =>
      owedPick (engine [single op]) == none && matrixPick (engine [single op]) == some (0, single op)) ∧
    (let e := nestStep nest.base nest.levels nest.next
     4 * e.sub + e.q < 16 ∧ (e.af, e.bf) = (2, 3) ∧ slotNum (furOf (engine []) 2) e.i < 4 ∧
       anyBad (engine []).spadBad (slotPhys (engine []) (furOf (engine []) 2) 3) (slotBytes .int8) = false ∧
       slotRec (engine []) 2 3 = none ∧ (accAt (engine []).task.mx 6).vals.length = 1024 ∧
       (accAt (engine []).task.mx 6).lost = false) ∧
    (markerPick popping = true ∧ (accAt popping.task.mx 6).poison = true ∧ popping.task.mx.kept = [] ∧ (furOf popping 2).head < (furOf popping 2).cap) ∧
    (drainPick (engine [single (.drain 4 [6] 6)]) = some (0, single (.drain 4 [6] 6)) ∧ wf (engine []) ∧
      (accAt (engine []).task.mx 6).poison = false ∧ (engine []).task.mx.rnd.mode ≠ .sr) := by
  decide +kernel

/-- A registered tile of zeros at 0x10000, its record with one row sum that is wrong by v. -/
def tileRec (v : Nat) : HRec :=
  ⟨0x10000, .int8, none, none, (List.replicate 32 ⟨0, 0⟩).set 3 ⟨v, 0⟩, List.replicate 32 ⟨0, 0⟩, 0, false, false, true⟩
def headland (x : Issuer) (v : Nat) : State := { setw 1 (win 4 1024 1 0x10000) (setw 2 (win 4 4 1 0x12080) (setw 3 (win 4 4 1 0x12180)
  (sete 7 (BitVec.ofNat 32 (5 * 2 ^ 17 + 2 ^ 16)) (at_ x)))) with side := [tileRec v] }
/-- S has issued a store into the scratchpad that is not performed. -/
def storing (s : State) : State :=
  { s with task.accesses := [⟨1, false, 4096, 0, 0, 0, 0x10000, 5000, 64, .store true [⟨0x10000, 1⟩] [7] none, []⟩] }
def tiles (s : State) : Tiles := match tilesOf s (.win 1) with
  | .ok t => t
  | .error _ => default
theorem meets_HeadlandWordsAct : fmtF .int8 = false ∧
    (acts .c h0 [wId 1] (headland .c 0) ∧ (headland .c 0).task.c.inFlight = false ∧ progOf (headland .c 0) = none ∧ fmtM (winFmt (winOf (headland .c 0) 1)) = false ∧
      isOk (checkUses (headland .c 0) [⟨1, isAny, .free, anyN⟩] []) ∧
      hgenFault (headland .c 0) (wins (headland .c 0) [⟨1, isAny, .free, anyN⟩] []) = none ∧
      (Machine.win (wins (headland .c 0) [⟨1, isAny, .free, anyN⟩] []) 0).count = 1024) ∧
    isOk (coverCheck (headland .c 0) 1) ∧
    (isOk (tilesOf (headland .c 0) (.win 1)) ∧ (tiles (headland .c 0)).count = 1 ∧
      (checkAt (tiles (headland .c 0)) false 0 (headland .c 0)).2.2 = none) ∧
    (acts .s h0 [wId 1] (headland .s 0) ∧ (headland .s 0).task.s.asked = none ∧ storesSettled (headland .s 0) = true ∧
      storesSettled (storing (headland .s 0)) = false ∧ acts .s h0 [wId 1] (storing (headland .s 0)) ∧ (checkEvery (tiles (headland .s 0)) false 1 0 (headland .s 0)).2.2 = none ∧
      (checkEvery (tiles (headland .s 1)) false 1 0 (headland .s 1)).2.2.isSome) ∧
    (acts .c h0 [wId 1, eId (headland .c 0) 7] (headland .c 0) ∧
      isOk (tileNamed (headland .c 0) (.win 1) (BitVec.ofNat 32 (5 * 2 ^ 17 + 2 ^ 16))) ∧
      (BitVec.ofNat 32 (5 * 2 ^ 17 + 2 ^ 16)).getLsbD 22 = false) ∧
    (isOk (checkUses (vec 4 4) [⟨3, fun f => isAny f && !packed f, .format, sameN 4⟩, ⟨1, isAny, .format, anyN⟩] [⟨0, 1, true⟩]) ∧
      acts .c h0 [wId 3, wId 1] (vec 4 4) ∧ (vec 4 4).side = [] ∧ (vec 4 4).spadBad = [] ∧ pendingSets (vec 4 4) = [] ∧
      (vec 4 4).task.furrows.toList.all (fun v => v.cap == 0)) ∧
    (acts .c h0 (opIds (headland .c 0) (.e 7)) (headland .c 0) ∧ isOk (sources [.e 7] (headland .c 0))) := by
  decide +kernel

/-! ### Map composition, copies and the fabric -/

def cfg5 : McCfg := ⟨5, 1, 4, 100, 0x40000, none⟩
def cfg4096 : McCfg := ⟨4096, 2, 4, 100, 0x40000, none⟩
/-- K with the map engine configured as g, w in register 9 and v in register 10. -/
def maps (g : McCfg) (w v : Word) : State :=
  reg .kTask 9 w (reg .kTask 10 v { at_ .kTask with task.mc := { Mce.reset with kcfg := some g, cfg := some g } })
/-- Another way to stand at the engine: with a fault held, waiting for a reply, with the reply there. -/
def failing (s : State) : State := { s with task.mc.failed := some (⟨.mcSlot, 5, 6⟩, none) }
/-- The fault has been raised at the word at pc 56. -/
def raised (s : State) : State := { s with task.mc.failed := some (⟨.mcSlot, 5, 6⟩, some 56) }
def asking (s : State) : State := ctx .kTask (fun c => { c with popped := some c.pc, asked := some 44 }) s
def hears (r : Reply) (s : State) : State := { asking s with replies := [r] }
def plainMc : State := { at_ .kTask with task.mc := Mce.reset }
/-- The word of a configuration. -/
def cfgWord : Word := BitVec.ofNat 64 (4 + 2 ^ 12 + 3 * 2 ^ 16 + 100 * 2 ^ 32)

theorem meets_ComposeWordsQueueCommands : isK .kTask = true ∧
    (acts .kTask h0 [rId 0, rId 9, rId 10] (maps cfg5 cfgWord 0x40000) ∧ mcQueued (maps cfg5 cfgWord 0x40000) < 32 ∧
      cfgWord.toNat / 2 ^ 53 % 2 ^ 11 = 0 ∧ cfgWord.toNat / 2 ^ 28 % 2 ^ 4 = 0 ∧ cfgWord.toNat / 2 ^ 13 % 2 ^ 3 = 0 ∧
      cfgWord.toNat / 2 ^ 32 % 2 ^ 21 ≠ 0 ∧ cfgWord.toNat / 2 ^ 16 % 2 ^ 12 < 5 ∧ (0x40000 : Word).toNat % 64 = 0 ∧
      canonicalVa 0x40000 = true) ∧
    (acts .kTask h0 [rId 1] (failing (maps cfg5 3 0)) ∧ (failing (maps cfg5 3 0)).task.mc.failed = some (⟨.mcSlot, 5, 6⟩, none) ∧
      discardComing (failing (maps cfg5 3 0)) = false ∧ unconfirmed (failing (maps cfg5 3 0)) .kTask = false) ∧
    ((raised (maps cfg5 3 0)).task.mc.failed = some (⟨.mcSlot, 5, 6⟩, some 56) ∧ (56 : Pc) ≠ (raised (maps cfg5 3 0)).task.k.pc ∧
      acts .kTask h0 [] (raised (maps cfg5 3 0)) ∧ mcQueued (raised (maps cfg5 3 0)) < 32) ∧
    (acts .kTask h0 [rId 1] plainMc ∧ isAsking plainMc = false ∧ plainMc.task.mc.failed = none ∧
      plainMc.task.mc.cont = false ∧ plainMc.task.mc.kcfg = none) ∧
    (slotCount (maps cfg5 99 4095) cfg5 = 4096 ∧ (99 : Nat) < 100 ∧ (4096 : Nat) ≤ 4096 ∧ (100 : Nat) ≤ 100) ∧
    ((0xFFFFFFFFFFFFFFC0 : Word).toNat % 64 = 0 ∧ canonicalVa 0xFFFFFFFFFFFFFFC0 = true ∧
      slotCount (maps cfg4096 0 63) cfg4096 = 64 ∧ (spadMap (maps cfg4096 0 63) false 0x1000 (slotLen cfg4096)).isSome) ∧
    (0x1004 % 4 = 0 ∧ (spadMap (maps cfg4096 0 63) false 0x1004 (4 * 3)).isSome ∧ 60 + 3 ≤ 64 ∧ 4 + 60 ≤ 64) ∧
    ((0x1080 : Word).toNat % 128 = 0 ∧ (spadMap (maps cfg4096 3 0x1080) false 0x1080 ((100 + 7) / 8)).isSome ∧ 4095 < cfg4096.n ∧
      cfg4096.n ≤ 4096) ∧
    (acts .kTask h0 [rId 9, rId 10] (hears ⟨44, 0x1234, 0, none⟩ (maps cfg5 3 0)) ∧
      isAsking (hears ⟨44, 0x1234, 0, none⟩ (maps cfg5 3 0)) = true ∧
      replyOf (hears ⟨44, 0x1234, 0, none⟩ (maps cfg5 3 0)) = some ⟨44, 0x1234, 0, none⟩) := by
  decide +kernel

/-- The engine at a command, with three maps of five entries in its slots. -/
def mapCmd (op : McOp) (spent : Bool) : McCmd := ⟨op, false, true, 7, some 44, 0, 0, [], none, spent⟩
def mapEngine (c : McCmd) : State := { core with task.mc := { Mce.reset with
  kcfg := some cfg5, cfg := some cfg5, queue := [c, mapCmd .rst false]
  slots := [(1, mapOf [1, 2, 3, 4, 0]), (2, mapOf [4, 4, 4, 4, 4]), (3, mapOf [0, 1, 2, 3, 4])] } }
/-- A command whose first cycle of two is over. -/
def answering (op : McOp) : McCmd := { mapCmd op false with step := 1 }
theorem meets_ComposeEngineSteps : mcRuns core = false ∧
    [mapCmd (.comp 2 3 1) false, mapCmd (.app 2 1) false, mapCmd (.chk .dead 2) false, answering (.app 2 1), answering (.chk .dead 2), mapCmd (.comp 2 7 1) true,
      mapCmd (.cfg cfg4096) false].all (fun c => mcRuns (mapEngine c) && decide ((mapEngine c).task.mc.failed = none)) ∧
    mcRuns (failing (mapEngine (mapCmd .rst false))) = true ∧
    (slotOf (mapEngine (mapCmd .rst false)) 1 = some (mapOf [1, 2, 3, 4, 0]) ∧ (mapOf [1, 2, 3, 4, 0]).err = none ∧
      (mapOf [1, 2, 3, 4, 0]).vals ≠ [] ∧ slotOf (mapEngine (mapCmd .rst false)) 7 = none) := by
  decide +kernel

/-- K with the block b of a copy, or of the fabric, at 0x1000. -/
def blocked (b : List (BitVec 8)) : State := reg .kTask 9 0x1000 (spadb 0x1000 b (at_ .kTask))
def copyBlock (dst src len flags : Nat) : List (BitVec 8) :=
  leBytes 8 dst ++ leBytes 8 src ++ leBytes 8 len ++ leBytes 4 flags ++ List.replicate 36 0
def fabricBlock (w addr len flags : Nat) : List (BitVec 8) :=
  leBytes 8 w ++ leBytes 4 addr ++ leBytes 4 len ++ leBytes 4 flags ++ List.replicate 12 0
def copies (flags : Nat) : State := blocked (copyBlock 0x2000 0x3000 100 flags)
def fabric (flags : Nat) : State := blocked (fabricBlock (thisDevice + 5 * 2 ^ 17 + 2 ^ 32 * 3) 0x3000 64 flags)
def fabricCmd (send : Bool) (red : Option Fmt) : FxCmd := ⟨send, red, ⟨thisDevice, 0, 5, 3⟩, 0x3000, 64, false, true, 5, 0, none, 0, [], none, 0, 0, none⟩
def stopped : FxCmd := { fabricCmd true none with held := some 2 }
/-- The engine has taken three commands; one is not done. -/
def behind : State := { copies 6 with task.cp.queue := [default], task.cp.count := 3 }
theorem meets_CopyAndFabricWordsQueueCommands :
    (acts .kTask h0 [rId 9] (copies 6) ∧ spadMap (copies 6) false 0x1000 64 = some 0x1000 ∧
      mayLoad (copies 6) true [⟨0x1000, 64⟩] 0 = true ∧ (copies 6).spadBad = [] ∧ cpQueued (copies 6) < 32 ∧
      cpFault (copies 6) false 0x1000 (copyBlock 0x2000 0x3000 100 6) false (cpParse (copyBlock 0x2000 0x3000 100 6) false) = none ∧
      cpReserved (copyBlock 0x2000 0x3000 100 7) false (cpParse (copyBlock 0x2000 0x3000 100 7) false) = true) ∧
    (acts .kTask h0 [] (copies 6) ∧ isAsking (copies 6) = false ∧ isAsking (asking (copies 6)) = true ∧
      replyOf (asking (copies 6)) = none ∧ acts .kTask h0 [rId 9] (asking (copies 6))) ∧
    (isAsking (hears ⟨44, 2, 0, none⟩ behind) = true ∧ replyOf (hears ⟨44, 2, 0, none⟩ behind) = some ⟨44, 2, 0, none⟩ ∧
      2 + behind.task.cp.queue.length ≤ behind.task.cp.count ∧ behind.task.cp.count < 3 + behind.task.cp.queue.length ∧
      behind.task.cp.queue.length ≤ behind.task.cp.count ∧ acts .kTask h0 [] (hears ⟨44, 3, 0, none⟩ behind) ∧
      behind.task.cp.held = none ∧
      ({ behind with task.cp.held := some ⟨77, .page, 0x12345⟩ } : State).task.cp.held = some ⟨77, .page, 0x12345⟩) ∧
    (acts .kTask h0 [rId 9] (fabric 0) ∧ spadMap (fabric 0) false 0x1000 32 = some 0x1000 ∧ fxQueued (fabric 0) < 32 ∧
      fxFault (fabric 0) 0x1000 (memRead (fabric 0).spad 0x1000 32) true false 5 = none ∧
      fxFault (fabric 0) 0x1000 (memRead (fabric 0).spad 0x1000 32) false false 5 = none ∧
      fxFault (fabric 9) 0x1000 (memRead (fabric 9).spad 0x1000 32) false true 5 = none) ∧
    ((fabric 0).task.fx.cmds.filter (fun q => decide (q.num < 1)) = [] ∧ stopped.held = some 2 ∧
      [fabricCmd true none].filter (fun q => decide (q.num < 1)) = [fabricCmd true none] ∧ (fabricCmd true none).held = none ∧
      acts .kTask h0 [rId 9] (hears ⟨44, 1, 0, none⟩ (fabric 0))) ∧
    (acts .kTask h0 [rId 9] { fabric 0 with ptp := 0x1000 * 840 } ∧ (0x1000 : Nat) ≤ 0x1000 * 840 / 840 ∧
      (0x1000 * 840 - 1) / 840 < (0x1000 : Nat)) := by
  decide +kernel

/-- The copy engine n bytes into a copy of 100 bytes, and the fabric with two commands. -/
def copyCmd (n : Nat) : CpCmd := ⟨cpParse (copyBlock 0x2005 0x3010 100 6) false, false, false, 0, 0, n, true, [], 0, 0, [], none, 0, false⟩
def copying (n : Nat) : State := { core with task.cp.queue := [copyCmd n] }
def matching : State := { core with task.fx.cmds := [fabricCmd false none, fabricCmd true none] }
def receiving : FxCmd := { fabricCmd false none with other := some 40, moved := 10 }
theorem meets_CopyAndFabricSteps : cpRuns core = false ∧
    (wf (copying 0) ∧ cpRuns (copying 0) = true ∧ (copyCmd 0).blk.ss = true ∧ (copyCmd 0).blk.ds = true ∧ (copyCmd 0).blk.rows = 1 ∧
      (copyCmd 0).blk.sfmt = .none ∧ (copyCmd 0).blk.dec = false ∧ (copyCmd 0).blk.len = 100 ∧
      spadMap (copying 0) false 0x3010 48 = some 0x3010 ∧ spadMap (copying 0) false 0x2005 48 = some 0x2005) ∧
    cpRuns (copying 100) = true ∧ core.task.fx.cmds[0]? = none ∧
    (matching.task.fx.cmds[1]? = some (fabricCmd true none) ∧ fxMayMatch matching 1 (fabricCmd true none) = true ∧
      fxMayMatch matching 0 (fabricCmd false none) = true ∧ selfPeer matching (fabricCmd true none).peer = false ∧
      (fabricCmd true none).len ≤ 64 ∧ ¬(fabricCmd true none).len ≤ 63 ∧ (fabricCmd false (some .fp32)).red.isSome) ∧
    (receiving.moved + 3 < 40 ∧ spadMap core false (receiving.addr + receiving.moved) 3 = some 0x300A) ∧
    offDevice ⟨thisDevice + 1, 0, 5, 3⟩ = true := by
  decide +kernel

/-! ### Licences and the units -/

/-- The task may do what a key of its context licenses it to; v is in register 9. -/
def keyed (v : Word) : State := reg .kTask 9 v { at_ .kTask with task.nextId := 44, contexts := [⟨1, 0xABC, []⟩] }
def bracketed (b : Bracket) (s : State) : State := { s with task.brackets := s.task.brackets.set 2 b }
def bound : State := bracketed ⟨true, 7, true, true, [], [], 3⟩
  { keyed (BitVec.ofNat 64 (0x1000 + 0x80 * 2 ^ 24)) with task.mx.k.fur := MxK.reset.fur.set 5 ⟨.fp32, 2, 0x8000⟩ }
def refusal : TrapInfo := ⟨.thNoTerms, 5, 6⟩
theorem meets_LicenceAndUnitWordsAsk : isK .kTask = true ∧ isK .kFirm = true ∧
    (isAsking (hears ⟨44, 0x99, 0, none⟩ (keyed 0x1005)) = true ∧
      replyOf (hears ⟨44, 0x99, 0, none⟩ (keyed 0x1005)) = some ⟨44, 0x99, 0, none⟩ ∧
      acts .kTask h0 [rId 9] (hears ⟨44, 0x99, 0, none⟩ (keyed 0x1005))) ∧
    (isAsking (asking (keyed 0x1005)) = true ∧ replyOf (asking (keyed 0x1005)) = none ∧
      acts .kTask h0 [rId 7, rId 9, rId 11] (asking (keyed 0x1005))) ∧
    (replyOf (hears ⟨44, 0, 0, some refusal⟩ (keyed 0x1005)) = some ⟨44, 0, 0, some refusal⟩ ∧
      unconfirmed (hears ⟨44, 0, 0, some refusal⟩ (keyed 0x1005)) .kTask = false ∧
      unconfirmed { hears ⟨44, 0, 0, some refusal⟩ (keyed 0x1005) with checkq := [checked (.sts 0 [1]) false core] } .kTask = true) ∧
    (acts .kTask h0 [rId 9] (keyed 0x1000) ∧ isAsking (keyed 0x1000) = false ∧
      (keyed 0x1000).task.brackets[2].isOpen = false ∧ ownStoresPending (keyed 0x1000) = false ∧
      (keyed 0x1000).task.brackets.toList.all (fun c => !c.isOpen)) ∧
    (acts .kTask h0 [] bound ∧ bound.task.brackets[2].isOpen = true ∧ closeReady bound 2 = true ∧ matrixIdle bound = true ∧
      bound.checkq = []) ∧
    ((spadMap (keyed 0x1000) false 0x1000 128).isSome ∧ (keyed 0x1000).spadBad = [] ∧
      mayLoad (keyed 0x1000) true [⟨0x1000, 32⟩] 0 = true ∧
      [KvOp.probe, .acquire, .insert, .refAdd, .refDrop, .alloc, .free, .release, .ack].all (fun op =>
        !kvReserved (List.replicate 32 0) op && (kvLists (List.replicate 32 0) op).all (fun l => l.1 % 4 == 0 &&
          (spadMap (keyed 0x1000) false l.1 l.2).isSome))) ∧
    ((bound.task.mx.k.fur[5]).cap ≠ 0 ∧ 0x1000 % 128 = 0 ∧ 0x80 % 128 = 0 ∧ (spadMap bound false 0x1000 0x80).isSome ∧
      overlaps 0x1000 0x80 0xF80 0x100 = true ∧ 0 + 0 < 8 ∧ ¬(8 + 0 < 8)) := by
  decide +kernel

def terms7 : Terms := ⟨7, 3, 20000, 5, 11, 0, 1, 2, [0xABC, 0xDEF], 100, 2, 9, 4⟩
def tithed (op : TitheOp) (t : Terms) : State :=
  { core with now := 5000, terms := [{ t with index := 5 }, t], tithe := [⟨op, false, 0xABC, some 40, 100⟩] }
def kvReq (op : KvOp) : KvReq := ⟨op, false, 1, [1, 2, 3], 0x3000, 4, [9], 6, false, 40, 0⟩
def kvWaits (op : KvOp) : State :=
  { core with kv := ⟨[3, 4], [], [⟨1, 6, true, [8, 9], [], 0⟩, ⟨1, 7, true, [5], [], 0⟩], [kvReq op], none⟩ }
theorem meets_UnitsDecide : titheRuns core false = false ∧ titheRuns core true = false ∧
    wf (tithed (.statement 7 5 [⟨0x1000, 128⟩]) terms7) = true ∧
    (terms7.licensees.contains 0xABC ∧ ¬terms7.notAfter < (tithed (.openB 7 2) terms7).timeBase / 840 ∧
      9999 < (tithed (.openB 7 2) terms7).timeBase / 840 ∧ terms7.uses ≠ 0 ∧ ¬terms7.licensees.contains 1 ∧
      (tithed (.openB 7 2) terms7).terms.find? (fun e => e.index == 7) = some terms7 ∧
      (tithed (.openB 8 2) terms7).terms.find? (fun e => e.index == 8) = none) ∧
    (core.crypto.queue = [] ∧ crRuns { core with crypto.queue := [(.absorb 2 0x2000, 40, 4000)] } = true) ∧
    (kvPick core = none ∧ kvPick (kvWaits .probe) = some (kvReq .probe) ∧ (kvWaits .probe).kv.nodes = [] ∧
      kvPick (kvWaits .free) = some (kvReq .free) ∧
      handleOf (kvWaits .free) 1 6 = some ⟨1, 6, true, [8, 9], [], 0⟩ ∧
      handleOf { kvWaits .free with kv.handles := [] } 1 6 = none) := by
  decide +kernel
theorem meets_UnitsDecide_runs : ∀ op ∈ [TitheOp.openB 7 2, .openB 8 2, .settle 7 2 (some 11), .settle 7 2 none, .read .meter 7,
    .statement 7 5 [⟨0x1000, 128⟩]], titheRuns (tithed op terms7) (isStatement op) = true :=
  fun op _ => titheRuns_of_room (s := tithed op terms7) rfl (by decide : 100 ≤ 5000) rfl (by decide : 0 + 26 ≤ Config.tideRecords)

/-! ### The end of a stream, events, pre-emption, soft errors -/

theorem meets_EndFinishesStreams : (acts .l h0 [] (at_ .l) ∧ allPerformed (at_ .l) .l = true ∧ landed (at_ .l) .l = true) ∧
    (acts .c h0 [] (latched 1) ∧ landed (latched 1) .c = false) ∧
    (acts .kTask h0 [] (at_ .kTask) ∧ unconfirmed (at_ .kTask) .kTask = false ∧ (at_ .kTask).task.mc.failed = none ∧
      (at_ .kTask).task.mc.cont = false ∧ (at_ .kTask).task.cp.held = none ∧ fxHeld (at_ .kTask) = none ∧
      matrixIdle (at_ .kTask) = true ∧ (at_ .kTask).task.mc.queue = [] ∧ (at_ .kTask).task.cp.queue = [] ∧
      (at_ .kTask).task.fx.cmds = []) ∧
    (acts .kTask h0 [] { at_ .kTask with checkq := [checked (.sts 0 [1]) false core] } ∧
      unconfirmed { at_ .kTask with checkq := [checked (.sts 0 [1]) false core] } .kTask = true) := by
  decide +kernel

/-- A stream between two words, with these interrupts pending. -/
def between (x : Issuer) (b t a ie : Bool) : State := ctx x (fun c =>
  { c with pendTimer := t, pendAttn := a, pendBudget := b, ie := ie, fresh := false }) { core with turn := .unit }
def fEvent : FEvent := ⟨0, .c, 0x813, 0x55, false⟩
def crowded : State := { core with kind := .service, task.portOut := Vector.replicate 9 (List.replicate 32 5) }
theorem meets_EventsReachStreams :
    (core.task.alive = true ∧ (barOf (barrier 3 2 2 2) 2).complete < (barOf (barrier 3 2 2 2) 2).arrive ∧
      (barOf (barrier 3 2 3 2) 2).arrive ≤ (barOf (barrier 3 2 3 2) 2).complete) ∧
    ((⟨5, 256, 4000⟩ : Timer).next < core.now ∧ core.task.timer = none ∧ core.task.budget ≠ 1) ∧
    ((ctx .s (fun c => { c with wfe := some ⟨3, some 4096, false⟩ }) core).task.s.wfe = some ⟨3, some 4096, false⟩ ∧ 4096 ≤ core.now) ∧
    (portHasRoom core .ev 1 = true ∧ portHasRoom crowded .ev 1 = false) ∧
    [Issuer.kTask, .kFirm, .l, .c, .s].all (fun x => atBoundary (between x true true true true) x &&
      (ctxOf (between x true true true true) x).run == .running && !(ctxOf (between x true true true true) x).trp) ∧
    (firmwareTakes { between .kTask false false false false with fEvents := [fEvent] } = true ∧ wf core ∧
      (0x100 : Pc).toNat = core.firm.tvec.toNat % 2 ^ 17 / 8 * 8 ∧ spadMap core true core.firm.tframe.toNat 256 = some 0x7FF800) ∧
    (core.task.noise[1].pos < 2 ^ 41 ∧ core.firmNoise.pos < 2 ^ 41 ∧ core.task.k.nrp = false) := by
  decide +kernel

def slowed (size : Nat) (allowance : Int) : State := { core with
  enclosures := [⟨1, 0, 1, 0, 0, 100, 0x40000, [1], allowance⟩], egress := [⟨.copy, size, 1, false⟩] }
/-- Its streams wait at safe points, since a long time. -/
def stands (c : Ctx) : Ctx := { c with blocked := true }
def hung : State := { core with
  now := 2 ^ 24 + 5000, quietFrom := 5000
  task := { core.task with k := stands live, l := stands live, c := { live with run := .ended }, s := stands live } }
def saved : SaveImage := ⟨0, .preempt, { core.task with lid := 77, timer := some ⟨5, 256, 6000⟩ }, [], [], [], [], 2, 3000, true⟩
/-- A task on a core that is no foreshore core, the only bulk work there is, where the die keeps a core for such work. -/
def onBulk : State := { core with task.partition := [9], bulkMin := Vector.replicate 2 1 }
theorem meets_TasksStandAside : ((slowed 64 (64 * 840000000)).egress = [⟨.copy, 64, 1, false⟩] ∧
      (slowed 64 (64 * 840000000)).enclosures.all (fun e => decide (((min 64 e.burst * 840000000 : Nat) : Int) ≤ e.allowance)) ∧
      sluiceReady (slowed 64 (64 * 840000000 - 1)) .copy = none) ∧
    (hungDue core = false ∧ hungDue hung = true) ∧
    (core.task.alive = true ∧ core.task.bulk = true ∧ core.preempt = false ∧ core.saves.length < 512 ∧
      (groupCores core).any foreshore = true ∧ bulkStays core 0 = true ∧ bulkStays core 1 = true ∧
      (groupCores onBulk).any foreshore = false ∧ bulkStays onBulk 0 = false) ∧
    (streamsStopped hung = true ∧ (hung.saves.filter (·.shadow)).length < 32 ∧
      streamsStopped { hung with task.accesses := [default] } = false) ∧
    (savePointDue core = false ∧ savePointDue { hung with preempt := true } = true ∧ hung.task.mx.kept = [] ∧ hung.task.mx.pops = []) ∧
    (hung.now < 2 ^ 24 + 8000 ∧ 9005 + 8000 ≤ hung.now ∧ ({ hung with preempt := true } : State).activating = false ∧
      streamsStopped { hung with preempt := true } = true) ∧
    (({ core with task.alive := false, saves := [saved] } : State).task.alive = false ∧ core.quarantined = false ∧ core.saves = [] ∧
      core.restoring = none ∧ core.now < 5000 ∧ (4000 : Nat) ≤ core.now) := by
  decide +kernel

theorem meets_SoftErrorsStrike : (5 : Fin 64) ≠ 0 ∧ (3 : Fin 16) ≠ 0 ∧
    ((qOf (setq (lqIdx 0) [el 1 5, el 2 7] core) (qnameIdx (.lq 0)))[1]? = some (el 2 7) ∧ (el 2 7).val.isSome = true) ∧
    (wf core ∧ 64 < spadSize core) ∧ (64 : Nat) < 2 ^ 52 ∧ (0 < (accAt core.task.mx 15).vals.length) ∧
    (latched 2).task.latches[1]? = some ⟨.reg 1, 9999, 1, 1, none⟩ := by
  decide +kernel

/-! ### Launch, ownership, boot, attestation -/

def packet (flags model layer start : Nat) : List Byte :=
  leBytes 2 1 ++ leBytes 1 0 ++ leBytes 1 flags ++ leBytes 4 1 ++ leBytes 4 3 ++ leBytes 4 0 ++ leBytes 8 77 ++ leBytes 8 start ++
    leBytes 1 model ++ leBytes 1 layer ++ leBytes 2 0 ++ leBytes 4 (if flags < 8 then 0 else 33) ++ leBytes 8 0x400 ++
    (leBytes 4 1 ++ leBytes 4 2 ++ leBytes 8 0) ++ List.replicate 256 0
def plain77 : List Byte := packet 0 0 0 0
/-- Its spatial level names more cores than R23 allows. -/
def wideLoop : List Byte := plain77.take 0x30 ++ leBytes 4 49 ++ plain77.drop 0x34
def image3 : Image := ⟨3, 1, [7], [8], [9], [10], [], [⟨1, 0x200000, 0x400000, .hbm, true, true⟩], [], 0x1000, [(.kl, 2)], 0x10, 0x20, 0x30, []⟩
def queue2 (buf : List (List Byte)) : HostQueue := ⟨0x100000, 16, 14, 14, 0x10001, 0, false, buf⟩
/-- A device that master 5 owns, its core free, with a queue of packets. -/
def launching (buf : List (List Byte)) : State := { at_ .kTask with
  claim := ⟨true, 5, 1, false, 0, 10, 0⟩
  contexts := [⟨1, 0, [image3]⟩]
  task := { core.task with alive := false }
  hostq := (Vector.replicate 128 default).set 2 (queue2 buf) }
def launch (flags layer : Nat) (st : LaunchState) : Launch := ⟨0, 2, parsePacket (packet flags 2 layer 5), st, 9, false, 0, false, []⟩
def model2 (v : Bool) : Model := ⟨2, 0, 1, [(4, v), (5, true)], none, 0, false⟩
def placed : Launch := ⟨0, 2, parsePacket plain77, .ready, 0, false, 0, false, []⟩
def onCore0 : Placement := ⟨77, [0, 0, 0, 0, 0, 0], 1, [0]⟩
def page0 : PageEntry := ⟨1, 0, 0, .hbm, true, true⟩
theorem meets_LaunchPathActs : ((launching []).power = true ∧ (launching []).booted = true ∧ (launching []).claim.owner = some 5) ∧
    ((queue2 []).cfg.getLsbD 0 = true ∧ 15 < (queue2 []).size ∧ (16 - 14 : Nat) + 0 ≤ 204 ∧ ¬16 < (queue2 []).size ∧
      tailFault (launching []) (queue2 []) false plain77 = none ∧ tailFault (launching []) (queue2 []) false wideLoop = some 5) ∧
    (queueReady (launching [plain77]) 0 2 = true ∧ servesNext (launching [plain77]) 0 2 = true ∧
      packetFault (launching [plain77]) (queue2 [plain77]) false (parsePacket plain77) = none ∧
      (packetFault { launching [plain77] with contexts := [] } (queue2 [plain77]) false (parsePacket plain77)).isSome ∧
      queueReady (launching []) 0 2 = false) ∧
    (wf (launching []) ∧ (launching []).pages.find? (pageHas 1 (vaNat 0x400)) = some page0) ∧
    (schedulerUp (launching []) 0 2 = true ∧ (launch 9 0 .timed).pkt.start ≤ ({ launching [] with ptp := 4200 } : State).ptp / 840) ∧
    (modelOf { launching [] with models := [model2 true] } (launch 8 0 .gated).pkt.model = some (model2 true) ∧
      passOf { launching [] with models := [model2 true] } (launch 8 0 .gated).pkt = none ∧
      (model2 true).gens[(launch 8 0 .gated).pkt.layer]? = some (4, true) ∧ (launch 8 0 .gated).pkt.layer = 0 ∧
      (model2 false).gens[(launch 8 0 .gated).pkt.layer]? = some (4, false)) ∧
    (placed.cores.all (fun c => c / 64 != 0) ∧ placed.pkt.lid = onCore0.lid ∧ imageOf { launching [] with launches := [placed] } 1 3 = some image3 ∧
      coresOk placed.pkt onCore0 = true ∧ ordinalsOk placed.pkt.loops 0 onCore0.ordinals = true ∧
      coreFree { launching [] with launches := [placed] } false image3 = true ∧ coreNumber (launching []) = 0) ∧
    ((launching []).saves = [] ∧ (launching []).launches = [] ∧ (65535 : Nat) < 2 ^ 16 ∧ (launching []).dieHeld[1] = false) ∧
    (inMailbox 0x200FF8 = true ∧ inMailbox 0x100000 = false ∧ 1 ∈ ({ core with journalBad := [1] } : State).journalBad) := by
  decide +kernel

def managing (kind : Nat) (body : List (BitVec 8)) : State := { at_ .kTask with
  claim := ⟨true, 5, 1, false, 0, 10, 0⟩, mgmt := some ⟨kind, 0x77, 4, body⟩, tideSeq := 63
  enclosures := [⟨1, 0, 1, 0, 0, 100, 50, [1, 2], 5⟩] }
/-- A terms record that names no owner of which the device has a key. -/
def unsigned : List (BitVec 8) := leBytes 4 4 ++ List.replicate 188 0
theorem meets_CommandsManage : ((managing 2 []).power = true ∧ (managing 2 []).booted = true ∧ (managing 2 []).svcStop = none ∧ 78 ≤ Config.tideRecords ∧ (managing 2 []).tide = [] ∧ measBusy (managing 2 []) = false ∧
      (at_ .kTask).mgmt = none ∧ (managing 2 []).exhausted = false ∧
      ¬(0 ∈ [1, 3]) ∧ (0xABC : BitVec 64) ≠ 0) ∧
    (wf (managing 4 []) ∧ memWord (managing 4 []).mem ((model2 true).table + 8 * 0) 8 + 64 ≤ 2 ^ 52) ∧
    (0x400000 % 0x200000 = 0 ∧ 0x400000 + 393214 * 0x200000 ≤ 768 * 2 ^ 30 ∧ ¬0x400000 + 393215 * 0x200000 ≤ 768 * 2 ^ 30) ∧
    ((managing 3 []).models = [] ∧ (model2 true).wave = none ∧ 1 < (model2 true).gens.length ∧ (model2 true).halt = false ∧
      (managing 4 []).passes = []) ∧
    ((managing 5 []).saves = [] ∧ (managing 5 []).firm.trp = false ∧ unconfirmed (managing 5 []) .kFirm = false ∧
      (inHandler .kFirm).firm.trp = true) ∧
    ((managing 8 []).tide = [] ∧ (managing 9 []).contexts = [] ∧ imageFits image3 = true ∧ imageFits { image3 with cCode := [] } = false ∧ (managing 9 []).task.ctx = 1 ∧ image3.ctx = 1 ∧
      image3.pages.all pageFits ∧ ({ managing 9 [] with contexts := [⟨2, 5, []⟩] } : State).task.ctx ≠ 2) ∧
    ((managing 5 []).staged = none ∧ ({ managing 5 [] with staged := some default, activating := true } : State).staged = some default) ∧
    (∃ x ∈ (List.replicate 192 0 ++ [(7 : BitVec 8)]).drop 192, x ≠ 0) ∧
    ((5 : BitVec 3).toNat = 5 ∧ (4 : BitVec 3).toNat < 5 ∧ bulkHolds (managing 11 []) 0 = false) ∧
    (unsigned.length = 192 ∧ (unsigned ++ List.replicate 96 0).take 192 = unsigned ∧
      (installCheck (managing 12 (unsigned ++ List.replicate 96 0)) unsigned).isSome) := by
  decide +kernel

/-- A wave at its first layer, whose chain of copies is at address a, and what stands there. -/
def waving (a : Nat) (b : List (BitVec 8)) : State := memb a b (memb 0x8000 (leBytes 8 a)
  { managing 4 [] with models := [{ model2 true with wave := some (9, 0), list := 0x8000 }] })
/-- A block that copies 32 bytes from 0x4003000 to 0x2000000, and one with a reserved flag. -/
def oneCopy : List (BitVec 8) := copyBlock 0x2000000 0x4003000 32 0
def badCopy : List (BitVec 8) := copyBlock 0x2000000 0x4003000 32 0xFFFFFFFF
theorem meets_CommandsManage_wave :
    (waveModel (waving 0x9000 []) = some ({ model2 true with wave := some (9, 0), list := 0x8000 }, 9, 0) ∧ (waving 0x9000 []).passes = []) ∧
    ((waveChain waveFuel 0x9000 (waving 0x9000 oneCopy)).1 = true ∧ (waveChain waveFuel 0x9000 (waving 0x9000 oneCopy)).2.tide = []) ∧
    ((waveChain waveFuel 0x9000 (waving 0x9000 badCopy)).1 = false ∧ (waveChain waveFuel 0x9000 (waving 0x9000 badCopy)).2.tide = []) ∧
    wf (waving 0x9000 oneCopy) = true ∧ memWord (waving 0x9000 oneCopy).mem 0x8000 8 = 0x9000 ∧
    memRead (waving 0x9000 oneCopy).mem 0x9000 64 = oneCopy ∧ namesRows oneCopy = false ∧
    waveOk (waving 0x9000 oneCopy) oneCopy (cpParse oneCopy false) = true ∧ (cpParse oneCopy false).dec = false ∧
    (cpParse oneCopy false).sfmt = .none ∧ 32 ≤ 64 - 0x4003000 % 64 ∧ 0x2000000 + 32 ≤ Config.certStorePa ∧
    memRead (waving 0x9000 []).mem 0x9000 64 = List.replicate 64 0 ∧
    waveModel (managing 4 []) = none := by
  decide +kernel
theorem meets_CommandsManage_room : tideFits (waveLayer true { model2 true with list := 0x8000 } 9 0 (waving 0x9000 oneCopy)) = true := by
  have h := waveLayer_length true { model2 true with list := 0x8000 } 9 0 (waving 0x9000 oneCopy)
  have e : (waveChain waveFuel (memWord (waving 0x9000 oneCopy).mem (0x8000 + 16 * 0) 8) (waving 0x9000 oneCopy)).2.tide = [] := by
    decide +kernel
  simp only [if_true, e] at h
  simpa [tideFits] using h.trans (by decide)

/-- A terms record that the owner of key `owner4` has signed (RFC 8032, over the 128 bytes). -/
def owner4 : List (BitVec 8) := leBytes 32 94631498317468482426651442537008487993873081753380206627715717866622697359853
def record9 : List (BitVec 8) := leBytes 4 4 ++ leBytes 2 9 ++ leBytes 2 2 ++ leBytes 8 99 ++ leBytes 4 7 ++ leBytes 4 2 ++
  leBytes 8 0x200000 ++ leBytes 8 1 ++ leBytes 8 5 ++ leBytes 8 6 ++ List.replicate 56 0 ++ leBytes 16 3
def signed9 : List (BitVec 8) := record9 ++ leBytes 64 460095383409577967700847881206789028739039343198203842391176198031674635382736102292093248400146880171441465373115787530390813869536230116205570189767037
theorem meets_CommandsManage_signed : signed9.length = 192 ∧
    installCheck { managing 12 (signed9 ++ List.replicate 96 0) with ownerKeys := [(4, owner4)] } signed9 = none := by
  decide +kernel

def owning (m : Option (BitVec 24)) (hand : Option (BitVec 24)) : State := { at_ .kTask with claim := ⟨m.isSome, m.getD 0, 7, hand.isSome, hand.getD 0, 10, 0⟩ }
def serviceBoot : State := { State.reset with kind := .service, debugFuse := true, bootImage := some ⟨[1], [7], [], []⟩ }
theorem meets_DeviceEventsAct : ((owning none none).power = true ∧ (owning none none).claimq = [] ∧ (owning none none).tide.length + 26 ≤ Config.tideRecords ∧
      (owning (some 6) (some 5)).claim.hand = some 5 ∧ (owning (some 6) (some 9)).claim.hand ≠ some 5) ∧
    ((10 : BitVec 16).toNat * 840000000 ≤ 8400000000 ∧ 8399999999 < (10 : BitVec 16).toNat * 840000000) ∧
    (wf (owning none none) ∧ 2 ^ 52 - 3 + 3 ≤ 2 ^ 52 ∧ 2 ^ 52 < 2 ^ 52 - 2 + 3) ∧
    ((owning none none).pages.any (pageHas 1 0x3000) = true ∧ egressPassed (owning none none) .host 1 64 = true ∧
      egressPassed (slowed 64 5) .host 1 64 = false) ∧
    (State.reset.booted = false ∧ State.reset.bootImage = none ∧ (owning none none).booted = true ∧
      serviceBoot.booted = false ∧ serviceBoot.bootImage = some ⟨[1], [7], [], []⟩ ∧ serviceBoot.debugFuse = true ∧
      serviceBoot.kind = .service) := by
  decide +kernel

/-- A full Tideline: the region holds records of 192 bytes (R413). -/
theorem meets_DeviceEventsAct_full :
    let s : State := { owning (some 6) none with tide := List.replicate 400000 default }
    Config.tideRecords ≤ s.tide.length ∧ s.claimq = [] ∧ s.claim.owner = some 6 := by
  refine ⟨?_, rfl, rfl⟩
  rw [List.length_replicate]
  decide
/-- A reset that master k has asked for, of a device that master 6 owns, or that the debugger asks for. -/
def resetting (k : Option (BitVec 24)) (fuse : Bool) : State := { owning (some 6) none with resetBy := k, debugFuse := fuse }
theorem meets_DeviceEventsAct_reset : ((resetting (some 6) false).power = true ∧ (resetting (some 6) false).resetBy = some 6 ∧
      (resetting (some 6) false).claim.owner = some 6 ∧ (resetting (some 5) true).claim.owner ≠ some 5) ∧
    ((resetting none true).resetBy = none ∧ (resetting none true).debugFuse = true ∧ (resetting none false).debugFuse = false) ∧
    (Config.certStorePa + Config.certStoreBytes ≤ 2 ^ 52 ∧ 0x1000 + 64 ≤ Config.certStorePa) ∧
    (pageHas 1 0x3000 page0 = true ∧ enclosureBad (owning none none) 1 ⟨0x3000, 64⟩ = false ∧
      enclosureBad (slowed 64 5) 2 ⟨0x3000, 64⟩ = true) := by
  decide +kernel
/-- R435: a host's write to the mailbox is read back there. -/
theorem test_mailbox_write : (match exec (.registerWrite 9 0x200FF0 0x1122334455667788) (launching []) with
    | .next t => readRegister t 0x200FF0 == 0x1122334455667788
    | _ => false) = true := by
  decide +kernel

/-- The request b is in the mailbox, the protocol in phase p. -/
def asked (p : Nat) (b : List (BitVec 8)) : State :=
  memb (Config.mailboxPa + 0xFF0) (leBytes 8 (77 * 2 ^ 32 + b.length)) (memb Config.mailboxPa b { core with spdm := ⟨p, [], 0⟩ })
theorem meets_AttestationAnswers : inDoorbell core % 2 ^ 32 = 0 ∧
    ([(0, SpdmReq.version, bytesOf [0x10, 0x84, 0, 0]), (3, .digests, bytesOf [0x12, 0x81, 0, 0]),
        (3, .certificate, bytesOf [0x12, 0x82, 0, 0, 0, 0, 0, 0])] : List (Nat × SpdmReq × List (BitVec 8))).all (fun r =>
      let s := asked r.1 r.2.2
      wf s && inSequence s r.2.1 && fieldsOk s (requestBytes s) r.2.1 && fieldAt (requestBytes s) 1 1 == spdmCode r.2.1) ∧
    (inSequence (asked 1 (bytesOf [0x12, 0x81, 0, 0])) .digests = false ∧
      fieldsOk (asked 1 (bytesOf [0x12, 0xE1, 0, 0])) (bytesOf [0x12, 0xE1, 0, 0]) .capabilities = false) := by
  decide +kernel

/-! ### The machine -/

theorem meets_DecodeOfEncode : isEvent (.li h0 3 7) = false ∧ (Instr.li h0 3 7).wf .kTask false = true ∧
    reads .kTask false (encode (.li h0 3 7)) (.li h0 3 7) = true := by decide
theorem meets_EncodeOfDecode : reads .l false 0x00410001409C0040 (.ld { h0 with idle := 1 } false .w 2 5 3 0x40) = true := by decide

/-- The word w stands at the pc of the stream whose turn it is; no firmware runs. -/
def standing (x : Issuer) (w : Word) : State := { code x [(64, w)] (at_ x) with firm.run := .absent }
theorem meets_StepRunsDecoded : [Issuer.kTask, .l, .c, .s].all (fun x => mayIssue (standing x 0) x) ∧
    (reads .kTask false (BitVec.ofNat 64 (memWord (standing .kTask 0x008410310540E000).task.k.imem 64 8))
      (.alu ⟨2, false, false, false, true, 4, false⟩ .divz 3 4 5) = true ∧
      mayIssue (standing .kTask 0x008410310540E000) .kTask = true) ∧
    rejects .kTask false (BitVec.ofNat 64 (memWord (standing .kTask 0).task.k.imem 64 8)) .nullWord = true ∧
    (reads .c false (BitVec.ofNat 64 (memWord (standing .c 0x0002006110000000).task.c.imem 64 8))
      (.vop h0 .add ⟨.rne, false⟩ 3 1 2) = true ∧ latchFails (standing .c 0x0002006110000000) .c = false ∧
      latchFails { standing .c 0x0002006110000000 with task.latchFail := true } .c = true) ∧
    mayIssue (ctx .s (fun c => { c with run := .ended }) (standing .s 0)) .s = false := by
  decide +kernel

theorem meets_CyclesPass : (core.agenda = [] ∧ core.power = true ∧ core.booted = true ∧
      endEvent { core with turn := .tick } = none ∧ 1 ≤ core.clock ∧ allEnded core = false) ∧
    (isEvent (.barrierPhaseComplete 1) = true ∧ isEvent (.nop h0) = false) ∧ State.reset.booted = false := by decide +kernel
theorem meets_StepsKeepMemories : wf State.reset = true ∧ wf core = true := by decide +kernel
theorem meets_StepsKeepAlignment : State.reset.Aligned := by
  refine ⟨⟨rfl, rfl, rfl, rfl⟩, rfl, ?_, ?_, ?_⟩ <;> intro c h <;> cases h

/-! ### Table words and single steps -/

theorem test_table_words : decodeTableWord 64 0x00410001409C0040 = some (.ld { h0 with idle := 1 } false .w 2 5 3 0x40) ∧
    decodeTableWord 64 0x0002006110000000 = some (.vop h0 .add ⟨.rne, false⟩ 3 1 2) ∧
    decodeTableWord 64 0x00035821C5000000 = some (.kunw h0 2 5 7) ∧ decodeTableWord 64 0 = none := by decide +kernel

/-- The state after a step, where it goes on. -/
def next (s : State) : State := match step s with
  | .next t => t
  | _ => s
/-- The state of a stream after its word w has run, on the states above. -/
def ran (x : Issuer) (i : Instr) (s : State) : Ctx :=
  ctxOf (next { code x [(64, encode i)] s with turn := .issue x, firm.run := .absent }) x

/-- R89: the word of `li` is the first to run where it is placed after reset. -/
theorem test_step_li : (next (State.reset.withFetchWord 64 (encode (.li h0 3 0xFFFFFFF9)).toNat)).task.k.regs[3] =
    0xFFFFFFFFFFFFFFF9 := by decide +kernel
/-- R89: `lih` keeps the low half; 1 << 32 or-ed with 8 in register 2. -/
theorem test_step_lih : (ran .l (.lih h0 2 1) (at_ .l)).regs[2] = 0x100000008 := by decide +kernel
/-- R91: a quotient by zero is all ones, a remainder by zero the dividend. -/
theorem test_step_div : (ran .kTask (.alu h0 .divz 6 1 0) (at_ .kTask)).regs[6] = 0xFFFFFFFFFFFFFFFF ∧
    (ran .kTask (.alu h0 .remz 6 1 0) (at_ .kTask)).regs[6] = 0x1000 := by decide +kernel
/-- R14: register 0 reads as zero after a write, and the pc goes on by one word. -/
theorem test_step_zero : (ran .s (.addi h0 0 1 5) (at_ .s)).regs[0] = 0 ∧ (ran .s (.addi h0 0 1 5) (at_ .s)).pc = 72 := by
  decide +kernel
/-- R93: signed -1 < 8, unsigned not. -/
theorem test_step_cmp : (ran .l (.cmp h0 .lt 3 4 2) (at_ .l)).preds.getLsbD 3 = true ∧
    (ran .l (.cmp h0 .ltz 3 4 2) (at_ .l)).preds.getLsbD 3 = false := by decide +kernel
/-- R97: a branch counts words from its own. -/
theorem test_step_br : (ran .kTask (.br h0 0xFFFFFFFB) (at_ .kTask)).pc = 24 := by decide +kernel
/-- R97: a call writes the address of the next word into register 63. -/
theorem test_step_call : (ran .kTask (.call h0 3) (at_ .kTask)).pc = 88 ∧
    (ran .kTask (.call h0 3) (at_ .kTask)).regs[63] = 72 := by decide +kernel
end Sys2Proof.Tests
end

section
/-! What the end of a cycle leaves as it was, operation by operation, and O57. -/

namespace Sys2Proof.Machine

/-! ### What the end of a cycle leaves -/

/-- Whose turn it is, the times, the clock, firmware's contested cycles and memory: what every operation at the end of a
cycle leaves as it was, up to `passTime` and `newCycle`. -/
structure CycleView where
  turn : Turn
  now : Nat
  timeBase : Nat
  clock : Nat
  taken : Nat
  mem : Memory

def State.cycleView (s : State) : CycleView := ⟨s.turn, s.now, s.timeBase, s.clock, s.taken, s.mem⟩

/-- What those operations leave of a task that goes on; its budget and the agenda, which `stepBudget` changes, are apart. -/
structure TaskView where
  cycle : CycleView
  spad : Memory
  alive : Bool
  budgetFrom : Nat
  regs : Issuer → Vector Word 64
  pc : Issuer → Pc
  run : Issuer → Run

def State.taskView (s : State) : TaskView :=
  ⟨s.cycleView, s.spad, s.task.alive, s.task.budgetFrom, fun y => (ctxOf s y).regs, fun y => (ctxOf s y).pc,
    fun y => (ctxOf s y).run⟩

/-- The same, with the budget and the agenda. -/
def State.budgetView (s : State) : TaskView × Word × List Instr := (s.taskView, s.task.budget, s.agenda)

/-! #### A task that goes on -/

/-- An update of a stream that keeps its registers, its pc and its run state is not seen. -/
theorem budgetView_modCtx (x : Issuer) (f : Ctx → Ctx) (s : State) (regs : ∀ c, (f c).regs = c.regs)
    (pc : ∀ c, (f c).pc = c.pc) (run : ∀ c, (f c).run = c.run) : (modCtx x f s).budgetView = s.budgetView := by
  have streams : (fun y => (ctxOf (modCtx x f s) y).regs) = (fun y => (ctxOf s y).regs) ∧
      (fun y => (ctxOf (modCtx x f s) y).pc) = (fun y => (ctxOf s y).pc) ∧
      (fun y => (ctxOf (modCtx x f s) y).run) = (fun y => (ctxOf s y).run) := by
    refine ⟨funext fun y => ?_, funext fun y => ?_, funext fun y => ?_⟩ <;>
    · by_cases h : y = x
      · subst h; simp [regs, pc, run]
      · rw [ctxOf_modCtx_other h]
  obtain ⟨hr, hp, hn⟩ := streams
  simp only [State.budgetView, State.taskView, hr, hp, hn]
  cases x <;> rfl

theorem fireWfe_keeps (c : Ctx) : (fireWfe c).regs = c.regs ∧ (fireWfe c).pc = c.pc ∧ (fireWfe c).run = c.run := by
  unfold fireWfe
  split <;> exact ⟨rfl, rfl, rfl⟩

theorem budgetView_fireWfe (x : Issuer) (s : State) : (modCtx x fireWfe s).budgetView = s.budgetView :=
  budgetView_modCtx x fireWfe s (fun c => (fireWfe_keeps c).1) (fun c => (fireWfe_keeps c).2.1)
    (fun c => (fireWfe_keeps c).2.2)

theorem budgetView_applyFlushes (s : State) : (applyFlushes s).budgetView = s.budgetView :=
  foldl_keep State.budgetView applyFlush (fun _ _ => rfl) s.task.flushes s

theorem budgetView_arriveTokens (s : State) : (arriveTokens s).budgetView = s.budgetView :=
  foldl_keep State.budgetView (fun s (p : Push) => modCtx (consumerOf p.fifo) fireWfe (tokenAdd p.fifo p.n s))
    (fun _ _ => budgetView_fireWfe ..) (s.task.pushes.filter (fun p => decide (p.due ≤ s.now))) _

theorem budgetView_portPut (p : Port) (w : Word) (s : State) : (portPut p w s).budgetView = s.budgetView :=
  (budgetView_fireWfe ..).trans (budgetView_fireWfe ..)

theorem budgetView_deliver (queue die core : Nat) (b : List Word) (s : State) :
    (deliver queue die core b s).budgetView = s.budgetView := by
  unfold deliver
  split
  · split
    · exact foldl_keep State.budgetView (fun s w => portPut .tq w s) (fun s w => budgetView_portPut .tq w s) b s
    · rfl
  · rfl

theorem budgetView_takeBlocks (l : List Block) (s : State) : (takeBlocks l s).budgetView = s.budgetView := by
  induction l generalizing s with
  | nil => rfl
  | cons b rest ih =>
    unfold takeBlocks
    split
    · exact (ih _).trans (budgetView_deliver ..)
    · exact ih s

/-- What comes before the budget's step: flushes take effect, tokens and blocks arrive. -/
def arrivals (s : State) : State := arriveBlocks (arriveTokens (applyFlushes s))

theorem budgetView_arrivals (s : State) : (arrivals s).budgetView = s.budgetView :=
  (budgetView_takeBlocks ..).trans ((budgetView_arriveTokens _).trans (budgetView_applyFlushes s))

theorem budgetView_stopAtSafe (first : Issuer → Bool) (s : State) : (stopAtSafe first s).budgetView = s.budgetView := by
  unfold stopAtSafe
  split
  · rfl
  · refine foldl_keep State.budgetView (fun s x => modCtx x (fun c =>
      if c.run == .running && atSafePoint s x && (pendingCause s x).isNone && !first x then { c with stopped := true } else c) s)
      (fun s x => budgetView_modCtx _ _ s ?_ ?_ ?_) taskStreams s <;>
    · intro c
      split <;> rfl

/-- Streams that have not all finished have not all finished in a state with the same run states. -/
theorem allEnded_of_taskView {s t : State} (h : t.taskView = s.taskView) : allEnded t = allEnded s := by
  have run (y : Issuer) : (ctxOf t y).run = (ctxOf s y).run := congrFun (congrArg TaskView.run h) y
  have hk := run .kTask
  have hl := run .l
  have hc := run .c
  have hs := run .s
  simp only [ctxOf] at hk hl hc hs
  simp only [allEnded, isEnded, hk, hl, hc, hs]

theorem dropLater_of_goesOn {s : State} (h : allEnded s = false) : dropLater s = s := by simp [dropLater, h]
theorem closeTask_of_goesOn {s : State} (h : allEnded s = false) : closeTask s = s := by simp [closeTask, taskOver, h]

theorem taskView_stepBudget (s : State) : (stepBudget s).taskView = s.taskView := by
  unfold stepBudget
  split
  · rfl
  · split
    · rfl
    · split <;> rfl

/-- The budget's step of a task that is there: what it leaves in the budget and adds to the agenda. -/
theorem stepBudget_of_alive {s : State} (h : s.task.alive = true) :
    (stepBudget s).task.budget =
      (if s.task.budgetFrom ≤ s.now ∧ 1 < s.task.budget.toNat then s.task.budget - 1 else s.task.budget) ∧
    (stepBudget s).agenda =
      s.agenda ++ (if s.task.budgetFrom ≤ s.now ∧ s.task.budget = 1 then [.budgetExpiry] else []) := by
  unfold stepBudget
  by_cases early : s.now < s.task.budgetFrom
  · simp [h, early, Nat.not_le.2 early]
  · by_cases more : 1 < s.task.budget.toNat
    · have : s.task.budget ≠ 1#64 := by rintro e; simp [e] at more
      simp [h, early, more, Nat.not_lt.1 early, this]
    · by_cases last : s.task.budget = 1#64 <;> simp [h, early, more, last, Nat.not_lt.1 early]

/-! #### Any state -/

/-- The end of a task writes to its scratchpad. -/
theorem cycleView_spadWrite (a : Nat) (b : List Byte) (s : State) : (spadWrite a b s).cycleView = s.cycleView := by
  unfold spadWrite
  split <;> rfl

theorem cycleView_popTiles (f : Fin 16) (n : Nat) (s : State) : (popTiles f n s).cycleView = s.cycleView := by
  induction n generalizing s with
  | zero => rfl
  | succ n ih =>
    refine (ih _).trans ?_
    unfold takeTile popTile
    dsimp only
    split <;> rfl

theorem cycleView_zeroRun (off len : Nat) (s : State) : (zeroRun off len s).cycleView = s.cycleView := by
  unfold zeroRun
  split
  · exact cycleView_spadWrite ..
  · rfl

theorem cycleView_scrubFurrow (f : Fin 16) (s : State) : (scrubFurrow f s).cycleView = s.cycleView :=
  (cycleView_zeroRun ..).trans (cycleView_popTiles ..)

theorem cycleView_scrubRegion (r : Nat × Nat) (s : State) : (scrubRegion r s).cycleView = s.cycleView := by
  unfold scrubRegion
  split
  · rfl
  · refine (foldl_keep State.cycleView _ (fun s q => ?_) _ _).trans (cycleView_zeroRun r.1 r.2 s)
    split
    · exact cycleView_spadWrite ..
    · rfl

theorem cycleView_scrubs (furs : List (Fin 16)) (regions : List (Nat × Nat)) (s : State) :
    (regions.foldl (fun s r => scrubRegion r s) (furs.foldl (fun s f => scrubFurrow f s) s)).cycleView = s.cycleView :=
  (foldl_keep State.cycleView (fun s r => scrubRegion r s) (fun s r => cycleView_scrubRegion r s) regions _).trans
    (foldl_keep State.cycleView (fun s f => scrubFurrow f s) (fun s f => cycleView_scrubFurrow f s) furs s)

theorem cycleView_endBracket (i : Fin 4) (charge : Bool) (id : Option Nat) (s : State) :
    (endBracket i charge id s).cycleView = s.cycleView := by
  have scrubbed := cycleView_scrubs (brOf s i).furs (brOf s i).regions s
  unfold endBracket
  dsimp only
  generalize (brOf s i).regions.foldl (fun s r => scrubRegion r s)
    ((brOf s i).furs.foldl (fun s f => scrubFurrow f s) s) = u at scrubbed ⊢
  exact scrubbed

theorem cycleView_endBrackets (s : State) : (endBrackets s).cycleView = s.cycleView := by
  refine foldl_keep State.cycleView _ (fun s i => ?_) (List.finRange 4) s
  split
  · exact cycleView_endBracket ..
  · rfl

theorem cycleView_finishTask (s : State) : (finishTask s).cycleView = s.cycleView := by
  rw [← cycleView_endBrackets s]
  unfold finishTask
  generalize endBrackets s = u
  rfl

theorem cycleView_closeTask (s : State) : (closeTask s).cycleView = s.cycleView := by
  unfold closeTask
  split
  · rfl
  · split
    · exact cycleView_endBrackets s
    · split
      · rfl
      · exact cycleView_finishTask s

theorem cycleView_modCp (f : Cp → Cp) (s : State) : (modCp f s).cycleView = s.cycleView := rfl
theorem cycleView_modFx (f : Fx → Fx) (s : State) : (modFx f s).cycleView = s.cycleView := rfl
theorem cycleView_modMc (f : Mce → Mce) (s : State) : (modMc f s).cycleView = s.cycleView := rfl

theorem cycleView_dropLater (s : State) : (dropLater s).cycleView = s.cycleView := by
  simp only [dropLater, dropHeld, apply_ite State.cycleView, cycleView_modCp, cycleView_modFx, cycleView_modMc, ite_self]

theorem cycleView_of_budgetView {s t : State} (h : t.budgetView = s.budgetView) : t.cycleView = s.cycleView :=
  congrArg (fun v => v.1.cycle) h
theorem taskView_of_budgetView {s t : State} (h : t.budgetView = s.budgetView) : t.taskView = s.taskView :=
  congrArg Prod.fst h

/-! #### The end of a cycle -/

/-- What the end of a cycle does before time passes. -/
def settleCycle (s : State) : State :=
  let s1 := dropLater (acknowledge (stepBudget (arrivals s)))
  closeTask (stopAtSafe (fun x => x == .c && chunkFaults s1) s1)

theorem tick_eq (s : State) : tick s = newCycle (passTime { settleCycle s with
    enclosures := (settleCycle s).enclosures.map (growAllowance (cycleTime (settleCycle s))) }) := rfl

theorem cycleView_settleCycle (s : State) : (settleCycle s).cycleView = s.cycleView := by
  have arrived := cycleView_of_budgetView (budgetView_arrivals s)
  unfold settleCycle
  dsimp only
  generalize arrivals s = a at arrived ⊢
  rw [cycleView_closeTask, cycleView_of_budgetView (budgetView_stopAtSafe ..), cycleView_dropLater]
  exact (congrArg TaskView.cycle (taskView_stepBudget a)).trans arrived

/-- A task that goes on meets its budget's step, and nothing else that is seen. -/
theorem budgetView_settleCycle {s : State} (h : allEnded s = false) :
    (settleCycle s).budgetView = (stepBudget (arrivals s)).budgetView := by
  unfold settleCycle
  dsimp only
  have arrived := taskView_of_budgetView (budgetView_arrivals s)
  generalize arrivals s = a at arrived ⊢
  have goesOn : allEnded (acknowledge (stepBudget a)) = false :=
    (allEnded_of_taskView ((taskView_stepBudget a).trans arrived)).trans h
  rw [dropLater_of_goesOn goesOn]
  generalize (fun x => x == Issuer.c && chunkFaults (acknowledge (stepBudget a))) = first
  have stopped := budgetView_stopAtSafe first (acknowledge (stepBudget a))
  rw [closeTask_of_goesOn ((allEnded_of_taskView (taskView_of_budgetView stopped)).trans goesOn)]
  exact stopped

/-- Every cycle: time passes by the length of a cycle, and K's slot and firmware's share are counted anew. -/
theorem tick_passes (s : State) : (tick s).turn = s.turn ∧ (tick s).now = s.now + 1 ∧
    (tick s).timeBase = s.timeBase + cycleTime s ∧ (tick s).kSlot = false ∧
    (tick s).taken = (if (s.now + 1) % 256 = 0 then 0 else s.taken) ∧ (tick s).mem = s.mem := by
  have view := cycleView_settleCycle s
  rw [tick_eq]
  generalize settleCycle s = u at view ⊢
  simp only [State.cycleView, CycleView.mk.injEq] at view
  obtain ⟨turn, now, timeBase, clock, taken, mem⟩ := view
  simp only [newCycle, passTime, cycleTime, turn, now, timeBase, clock, taken, mem, and_self]

/-- What a task that goes on meets in a cycle is the step of its budget. -/
theorem tick_of_goesOn {s : State} (h : allEnded s = false) : (tick s).spad = s.spad ∧
    (tick s).task.budget = (stepBudget (arrivals s)).task.budget ∧
    (tick s).agenda = (stepBudget (arrivals s)).agenda ∧
    ∀ y, (ctxOf (tick s) y).regs = (ctxOf s y).regs ∧ (ctxOf (tick s) y).pc = (ctxOf s y).pc ∧
      (ctxOf (tick s) y).run = (ctxOf s y).run := by
  have settled := budgetView_settleCycle h
  have kept := (taskView_stepBudget _).trans (taskView_of_budgetView (budgetView_arrivals s))
  rw [tick_eq]
  generalize stepBudget (arrivals s) = b at settled kept ⊢
  generalize settleCycle s = u at settled ⊢
  have view := (taskView_of_budgetView settled).trans kept
  refine ⟨congrArg TaskView.spad view, congrArg (·.2.1) settled, congrArg (·.2.2) settled, fun y => ?_⟩
  refine ⟨Eq.trans ?_ (congrFun (congrArg TaskView.regs view) y), Eq.trans ?_ (congrFun (congrArg TaskView.pc view) y),
    Eq.trans ?_ (congrFun (congrArg TaskView.run view) y)⟩ <;> cases y <;> rfl

theorem stepBudget_arrivals {s : State} (h : s.task.alive = true) (i : s.agenda = []) :
    (stepBudget (arrivals s)).task.budget =
      (if s.task.budgetFrom ≤ s.now ∧ 1 < s.task.budget.toNat then s.task.budget - 1 else s.task.budget) ∧
    (stepBudget (arrivals s)).agenda =
      (if s.task.budgetFrom ≤ s.now ∧ s.task.budget = 1 then [.budgetExpiry] else []) := by
  have view := budgetView_arrivals s
  generalize arrivals s = a at view ⊢
  simp only [State.budgetView, State.taskView, State.cycleView, Prod.mk.injEq, TaskView.mk.injEq, CycleView.mk.injEq] at view
  obtain ⟨⟨⟨-, now, -⟩, -, alive, from_, -⟩, budget, agenda⟩ := view
  have stepped := stepBudget_of_alive (alive.trans h)
  rwa [now, from_, budget, agenda, i, List.nil_append] at stepped

/-! ### Whose step it is -/

theorem step_of_agenda {s : State} {i : Instr} {rest : List Instr} (h : s.agenda = i :: rest) :
    step s = agendaStep i { s with agenda := rest } := by
  simp only [step, machineStep, h]

theorem step_of_off {s : State} (h : s.agenda = []) (off : s.power = false) : step s = .next s := by
  simp [step, machineStep, h, off, unitEvent]

theorem step_of_unbooted {s : State} (h : s.agenda = []) (on : s.power = true) (b : s.booted = false) :
    step s = exec .powerOnBoot s := by
  simp [step, machineStep, h, on, b, unitEvent]

theorem step_of_tick {s : State} (h : s.agenda = []) (on : s.power = true) (b : s.booted = true) (t : s.turn = .tick)
    (e : endEvent s = none) : step s = .next (advance (tick s)) := by
  simp [step, machineStep, h, on, b, turnStep, t, e]

/-- Settles O57: every operation at the end of a cycle keeps what `CycleView` names, and of a task that goes on what
`TaskView` names, but for the step of its budget. -/
theorem cyclesPass : Obligations.CyclesPass := by
  unfold Obligations.CyclesPass
  intro s i rest
  refine ⟨fun h event => ?_, fun h word => ?_, step_of_off, step_of_unbooted, fun h on booted turn idle clock => ?_⟩
  · rw [step_of_agenda h, agendaStep, if_pos event]
  · rw [step_of_agenda h, agendaStep, if_neg (by simp [word])]
  · obtain ⟨turn', now, timeBase, kSlot, taken, mem⟩ := tick_passes s
    refine ⟨_, step_of_tick h on booted turn idle, ?_, now, ?_, kSlot, taken, mem, fun alive goesOn => ?_⟩
    · rw [advance_turn, turn', turn]; rfl
    · have length : cycleTime s = 3360 / s.clock := congrArg (3360 / ·) (Nat.max_eq_right clock)
      exact length ▸ timeBase
    · obtain ⟨spad, budget, agenda, streams⟩ := tick_of_goesOn goesOn
      obtain ⟨budget', agenda'⟩ := stepBudget_arrivals alive h
      refine ⟨spad, budget.trans budget', agenda.trans agenda', fun y _ => ?_⟩
      have same : ctxOf (advance (tick s)) y = ctxOf (tick s) y := by cases y <;> rfl
      rw [same]
      exact streams y

end Sys2Proof.Machine
end

section
/-! What the operations of the launch path do: queues, packets, reports, placement, and O49. -/

namespace Sys2Proof.Machine

/-! ### Who is served -/

theorem serving_of {s : State} (power : s.power = true) (booted : s.booted = true) : serving s = true := by
  simp [serving, power, booted]

theorem isOwner_iff {s : State} {m : BitVec 24} : isOwner s m = true ↔ s.claim.owner = some m := by simp [isOwner]

/-! ### Host queues -/

@[simp] theorem queueOf_setQueue (die q : Nat) (v : HostQueue) (s : State) : queueOf (setQueue die q v s) die q = v := by
  simp [queueOf, setQueue]

theorem queueOf_of_hostq {s t : State} (h : t.hostq = s.hostq) (die q : Nat) : queueOf t die q = queueOf s die q := by
  simp [queueOf, h]

/-! ### One run of memory -/

theorem segWrite_one (m : Memory) (a : Nat) (b : List Byte) : segWrite m [⟨a, b.length⟩] b = memWrite m a b := by
  simp [segWrite]

theorem memRead_memWrite_same {m : Memory} (h : memWf m = true) (a : Nat) (b : List Byte) :
    memRead (memWrite m a b) a b.length = b := by
  simpa using memRead_memWrite h a 0 b.length b (by simp)

/-! ### Completion records (R402) -/

theorem writeVa_writes (ctx : Nat) (va : Word) (b : List Byte) (s : State) :
    ∃ mem bad, writeVa ctx va b s = { s with mem := mem, memBad := bad } := by
  unfold writeVa
  split <;> exact ⟨_, _, rfl⟩

theorem raiseMsix_notifies (flags : BitVec 8) (die q : Nat) (s : State) :
    ∃ notices, raiseMsix flags die q s = { s with notices := notices } := by
  unfold raiseMsix
  split <;> exact ⟨_, rfl⟩

/-- A report writes memory and tells the owner, and nothing else. -/
theorem reportLaunch_writes (die q : Nat) (p : Packet) (status reason failed gen : Nat) (s : State) :
    ∃ mem bad notices, reportLaunch die q p status reason failed gen s =
      { s with mem := mem, memBad := bad, notices := notices } := by
  unfold reportLaunch
  obtain ⟨mem, bad, written⟩ := writeVa_writes p.ctx p.cpl (recordBytes s p.lid status reason failed gen) s
  obtain ⟨notices, told⟩ := raiseMsix_notifies p.flags die q { s with mem := mem, memBad := bad }
  exact ⟨mem, bad, notices, by rw [written, told]⟩

theorem reportLaunch_keeps (die q : Nat) (p : Packet) (status reason failed gen : Nat) (s : State) :
    (reportLaunch die q p status reason failed gen s).hostq = s.hostq ∧
    (reportLaunch die q p status reason failed gen s).launches = s.launches := by
  obtain ⟨mem, bad, notices, h⟩ := reportLaunch_writes die q p status reason failed gen s
  rw [h]
  exact ⟨rfl, rfl⟩

/-- The bytes b stand at the CPL of a packet, which page e maps. -/
def RecordAt (e : PageEntry) (p : Packet) (b : List Byte) (s : State) : Prop :=
  memRead s.mem (e.pbase + (vaNat p.cpl - e.vbase)) b.length = b

theorem reportLaunch_records (die q : Nat) {p : Packet} (status reason failed gen : Nat) {s : State} {e : PageEntry}
    (wf : memWf s.mem = true) (page : s.pages.find? (pageHas p.ctx (vaNat p.cpl)) = some e) :
    RecordAt e p (recordBytes s p.lid status reason failed gen) (reportLaunch die q p status reason failed gen s) := by
  unfold RecordAt reportLaunch
  generalize recordBytes s p.lid status reason failed gen = b
  have written : (raiseMsix p.flags die q (writeVa p.ctx p.cpl b s)).mem =
      memWrite s.mem (e.pbase + (vaNat p.cpl - e.vbase)) b :=
    calc _ = (writeVa p.ctx p.cpl b s).mem := (raiseMsix_same ..).1
      _ = segWrite s.mem [⟨e.pbase + (vaNat p.cpl - e.vbase), b.length⟩] b := by simp only [writeVa, page]; rfl
      _ = _ := segWrite_one ..
  rw [written, memRead_memWrite_same wf]

/-! ### Rejected packets (R400) -/

/-- A rejected packet is counted by its queue, and the launches stay. -/
theorem rejectPacket_keeps (die q : Nat) (p : Packet) (n : Nat) (s : State) :
    queueOf (rejectPacket die q p n s) die q =
      { queueOf s die q with rej := Nat.min 0xFFFFFFFF ((queueOf s die q).rej + 1) } ∧
    (rejectPacket die q p n s).launches = s.launches := by
  unfold rejectPacket
  dsimp only
  obtain ⟨queues, launches⟩ := reportLaunch_keeps die q p 3 n 0 0
    (setQueue die q { queueOf s die q with rej := Nat.min 0xFFFFFFFF ((queueOf s die q).rej + 1) } s)
  exact ⟨(queueOf_of_hostq queues die q).trans (queueOf_setQueue ..), launches⟩

theorem rejectPacket_records (die q : Nat) {p : Packet} (n : Nat) {s : State} {e : PageEntry}
    (wf : memWf s.mem = true) (page : s.pages.find? (pageHas p.ctx (vaNat p.cpl)) = some e) :
    RecordAt e p (recordBytes s p.lid 3 n 0 0) (rejectPacket die q p n s) :=
  reportLaunch_records die q 3 n 0 0 wf page

/-! ### QTAIL_WRITE (R23, R398) -/

/-- The unit takes a tail write to t: the queue is on and has a ring, t lies in the ring, and the unit's buffer has
room for the entries that it newly covers. -/
def TailFits (w : HostQueue) (die q t : Nat) : Prop :=
  w.cfg.getLsbD 0 = true ∧ w.size ≠ 0 ∧ ¬(die = 1 ∧ q = 63) ∧ t < w.size ∧
    w.buf.length + (t + w.size - w.head) % w.size ≤ 204

theorem tailFits_iff (w : HostQueue) (die q t : Nat) : TailFits w die q t ↔
    (!queueOn w || w.size == 0 || (die == 1 && q == 63) || decide (w.size ≤ t) ||
      decide (bufferPackets < w.buf.length + (ringNew w t).length)) = false := by
  simp [TailFits, queueOn, bufferPackets, ringNew, and_assoc]

/-- The packets that a tail write to t newly covers. -/
def ringPackets (s : State) (w : HostQueue) (t : Nat) : List (List Byte) :=
  (ringNew w t).map (fun i => memRead s.mem (w.base.toNat + packetBytes * i) packetBytes)

/-- The state in which the unit has copied those that keep the limits of R23. -/
def tailTaken (s : State) (die q t : Nat) : State :=
  let w := queueOf s die q
  setQueue die q { w with
    tail := t, head := t
    buf := w.buf ++ (ringPackets s w t).filter (fun b => (tailFault s w (die == 0 && q == 63) b).isNone) } (touchOwner s)

/-- What the unit does with one of them: it rejects those that do not. -/
def rejectFaulty (s : State) (die q : Nat) (u : State) (b : List Byte) : State :=
  match tailFault s (queueOf s die q) (die == 0 && q == 63) b with
  | some n => rejectPacket die q (parsePacket b) n u
  | none => u

theorem execQtailWrite_of_other {s : State} {m : BitVec 24} (h : s.claim.owner ≠ some m) (die q : Nat) (t : BitVec 64) :
    execQtailWrite m die q t s = .next s := by
  simp [execQtailWrite, mt isOwner_iff.1 h]

section
variable {s : State} {m : BitVec 24} {die q : Nat} {t : BitVec 64} (serves : serving s = true)
  (owner : s.claim.owner = some m) (hdie : die < 2) (hq : q < 64)
include serves owner hdie hq

theorem execQtailWrite_of_fits (fits : TailFits (queueOf s die q) die q t.toNat) :
    execQtailWrite m die q t s = .next ((ringPackets s (queueOf s die q) t.toNat).foldl (rejectFaulty s die q)
      (tailTaken s die q t.toNat)) := by
  simp only [execQtailWrite, serves, isOwner_iff.2 owner, Nat.not_le.2 hdie, Nat.not_le.2 hq, (tailFits_iff ..).1 fits,
    Bool.not_true, Bool.or_false, decide_false, Bool.false_eq_true, if_false]
  rfl

theorem execQtailWrite_of_not_fits (fits : ¬TailFits (queueOf s die q) die q t.toNat) :
    execQtailWrite m die q t s = .next (setQueue die q { queueOf s die q with ovf := true } (touchOwner s)) := by
  have refused := Bool.eq_true_of_not_eq_false (mt (tailFits_iff ..).2 fits)
  simp only [execQtailWrite, serves, isOwner_iff.2 owner, Nat.not_le.2 hdie, Nat.not_le.2 hq, refused, Bool.not_true,
    Bool.or_false, decide_false, Bool.false_eq_true, if_false, if_true]

end

theorem tailTaken_queue (s : State) (die q t : Nat) : queueOf (tailTaken s die q t) die q = { queueOf s die q with
    tail := t, head := t
    buf := (queueOf s die q).buf ++ (ringPackets s (queueOf s die q) t).filter
      (fun b => (tailFault s (queueOf s die q) (die == 0 && q == 63) b).isNone) } := queueOf_setQueue ..

/-- Where every packet keeps the limits, all of them are copied and none is rejected. -/
theorem tail_of_sound {s : State} {die q t : Nat}
    (sound : ∀ b ∈ ringPackets s (queueOf s die q) t, tailFault s (queueOf s die q) (die == 0 && q == 63) b = none) :
    (ringPackets s (queueOf s die q) t).foldl (rejectFaulty s die q) (tailTaken s die q t) = tailTaken s die q t ∧
    (ringPackets s (queueOf s die q) t).filter (fun b => (tailFault s (queueOf s die q) (die == 0 && q == 63) b).isNone) =
      ringPackets s (queueOf s die q) t := by
  refine ⟨?_, List.filter_eq_self.2 fun b hb => by rw [sound b hb]; rfl⟩
  generalize tailTaken s die q t = u
  generalize ringPackets s (queueOf s die q) t = ring at sound
  induction ring generalizing u with
  | nil => rfl
  | cons b rest ih =>
    have : rejectFaulty s die q u b = u := by simp only [rejectFaulty, sound b List.mem_cons_self]
    rw [List.foldl_cons, this]
    exact ih u (fun c hc => sound c (List.mem_cons_of_mem b hc))

/-! ### Registers (R397, R406, R407, R435) -/

theorem execRegisterWrite_of_mailbox {s : State} {addr : Nat} (serves : serving s = true) (inside : inMailbox addr = true)
    (m : BitVec 24) (v : BitVec 64) : execRegisterWrite m addr v s =
      .next (memPut [⟨Config.mailboxPa + (addr - 0x200000), 8⟩] (leBytes 8 v.toNat) s) := by
  simp only [execRegisterWrite, serves, inside, Bool.and_self, if_true]

theorem execRegisterWrite_of_other {s : State} {m : BitVec 24} {addr : Nat} (h : s.claim.owner ≠ some m)
    (outside : inMailbox addr = false) (v : BitVec 64) : execRegisterWrite m addr v s = .next s := by
  simp [execRegisterWrite, outside, mt isOwner_iff.1 h]

/-- The address of a register of a queue (R397): it names the die, the queue and the register, and lies in no other range. -/
theorem queueReg_names {die q off : Nat} (hdie : die < 2) (hq : q < 64) (hoff : off < 0x40) :
    let a := 0x100000 + 0x1000 * die + 0x40 * q + off
    inMailbox a = false ∧ (decide (0x100000 ≤ a) && decide (a < 0x102000)) = true ∧ (a - 0x100000) / 0x1000 = die ∧
      (a - 0x100000) % 0x1000 / 0x40 = q ∧ a % 0x40 = off := by
  simp only [inMailbox, Bool.and_eq_false_iff, decide_eq_false_iff_not, Bool.and_eq_true, decide_eq_true_eq]
  omega

theorem readRegister_of_queue {die q off : Nat} (hdie : die < 2) (hq : q < 64) (hoff : off < 0x40) (s : State) :
    readRegister s (0x100000 + 0x1000 * die + 0x40 * q + off) = readQueueReg (queueOf s die q) off := by
  obtain ⟨-, inside, die_eq, q_eq, off_eq⟩ := queueReg_names hdie hq hoff
  simp only [readRegister, inside, die_eq, q_eq, off_eq, if_true]

section
variable {s : State} {m : BitVec 24} (serves : serving s = true) (owner : s.claim.owner = some m)
include serves owner

/-- The owner's write to a register of a queue. -/
theorem execRegisterWrite_of_queue {die q off : Nat} (hdie : die < 2) (hq : q < 64) (hoff : off < 0x40) (v : BitVec 64) :
    execRegisterWrite m (0x100000 + 0x1000 * die + 0x40 * q + off) v s =
      .next (writeQueueReg die q off v (touchOwner s)) := by
  obtain ⟨outside, inside, die_eq, q_eq, off_eq⟩ := queueReg_names hdie hq hoff
  simp only [execRegisterWrite, serves, isOwner_iff.2 owner, outside, inside, die_eq, q_eq, off_eq, Bool.and_false,
    Bool.not_true, Bool.or_self, Bool.false_eq_true, if_false, if_true]

theorem execRegisterWrite_lease (v : BitVec 64) : execRegisterWrite m 0x0FF018 v s =
    .next { touchOwner s with claim := { (touchOwner s).claim with lease := v.setWidth 16 } } := by
  simp [execRegisterWrite, serves, isOwner_iff.2 owner, inMailbox]

theorem execRegisterWrite_handover (v : BitVec 64) : execRegisterWrite m 0x0FF010 v s =
    .next { touchOwner s with claim := { (touchOwner s).claim with p := v.getLsbD 24, succ := v.setWidth 24 } } := by
  simp [execRegisterWrite, serves, isOwner_iff.2 owner, inMailbox]

end

/-- A ring of a power of two of packets, 4,096 at the most, is kept. -/
theorem ringSize_pow {k : Nat} (h : k ≤ 12) : ringSize (2 ^ k) = 2 ^ k := by
  have : (List.range 13).any (fun j => 2 ^ k == 2 ^ j) = true :=
    List.any_eq_true.2 ⟨k, List.mem_range.2 (Nat.lt_succ_of_le h), beq_self_eq_true _⟩
  simp only [ringSize, this, if_true]

/-! ### PACKET_CHECK (R400, R401) -/

/-- The state in which the unit has taken the oldest packet of a queue. -/
def packetTaken (s : State) (die q : Nat) : State :=
  setQueue die q { queueOf s die q with buf := (queueOf s die q).buf.drop 1 }
    (countServed die q (queueBulk (queueOf s die q)) s)

theorem packetTaken_queue (s : State) (die q : Nat) :
    queueOf (packetTaken s die q) die q = { queueOf s die q with buf := (queueOf s die q).buf.drop 1 } := queueOf_setQueue ..
theorem packetTaken_launches (s : State) (die q : Nat) : (packetTaken s die q).launches = s.launches := rfl

section
variable {s : State} {die q : Nat} (serves : serving s = true) (hdie : die < 2) (hq : q < 64)
  (launches : ¬(die = 0 ∧ q = 63)) (ready : queueReady s die q = true) (served : servesNext s die q = true)
include serves hdie hq launches ready served

theorem execPacketCheck_of_sound {p : Packet} (packet : parsePacket ((queueOf s die q).buf.headD []) = p)
    (sound : packetFault s (queueOf s die q) false p = none) :
    execPacketCheck die q s = .next { journal die (.stands q p.lid (firstState p)) (packetTaken s die q) with
      launches := (packetTaken s die q).launches ++ [⟨die, q, p, firstState p, 0, false, 0, false, []⟩] } := by
  have other : (die == 0 && q == 63) = false := by simpa using launches
  simp only [execPacketCheck, serves, Nat.not_le.2 hdie, Nat.not_le.2 hq, ready, served, other, packet, sound,
    Bool.not_true, Bool.or_false, decide_false, Bool.false_eq_true, if_false]
  rfl

theorem execPacketCheck_of_fault {p : Packet} {n : Nat} (packet : parsePacket ((queueOf s die q).buf.headD []) = p)
    (fault : packetFault s (queueOf s die q) false p = some n) :
    execPacketCheck die q s = .next (rejectPacket die q p n (packetTaken s die q)) := by
  have other : (die == 0 && q == 63) = false := by simpa using launches
  simp only [execPacketCheck, serves, Nat.not_le.2 hdie, Nat.not_le.2 hq, ready, served, other, packet, fault,
    Bool.not_true, Bool.or_false, decide_false, Bool.false_eq_true, if_false]
  rfl

end

theorem execPacketCheck_of_not_ready {s : State} {die q : Nat} (h : queueReady s die q = false) :
    execPacketCheck die q s = .next s := by
  simp [execPacketCheck, h]

/-! ### Launches (R30, R401, R420) -/

/-- The first launch comes to stand in another state, and the later ones stay. -/
theorem standAt_of_first {s : State} {l : Launch} {ls : List Launch} (h : s.launches = l :: ls) (st : LaunchState) (gen : Nat) :
    (standAt l st gen s).launches = { l with st := st, gen := gen } :: ls := by
  simp [standAt, h, modFirst]

theorem execTimedStart_of_first {s : State} {l : Launch} {ls : List Launch} (h : s.launches = l :: ls)
    (timed : l.st = .timed) (up : schedulerUp s l.die l.q = true) (due : l.pkt.start ≤ ptpNs s) :
    execTimedStart s = .next (standAt l (if l.pkt.flags.getLsbD 3 then .gated else .ready) l.gen s) := by
  have found : s.launches.find? (startDue s) = some l := by simp [h, startDue, timed, up, due]
  simp only [execTimedStart, found]

/-- What the gate of the first layer of a pass that has not begun decides. -/
theorem gateOf_of_model {s : State} {l : Launch} {md : Model} {g : Nat} {valid : Bool} (gated : l.st = .gated)
    (up : schedulerUp s l.die l.q = true) (model : modelOf s l.pkt.model = some md) (pass : passOf s l.pkt = none)
    (layer : md.gens[l.pkt.layer]? = some (g, valid)) :
    gateOf s l = if !valid then some .refuse else if l.pkt.layer = 0 then some (.entry g) else none := by
  simp [gateOf, gated, up, model, pass, layer]

theorem execGatedAdmit_of_entry {s : State} {l : Launch} {g : Nat} (h : s.launches = [l])
    (gate : gateOf s l = some (.entry g)) (pass : passOf s l.pkt = none) :
    execGatedAdmit s = .next { standAt l .ready g s with
      passes := s.passes ++ [⟨l.pkt.model, l.pkt.pass, g, l.pkt.ctx, []⟩] } := by
  have found : s.launches.find? (fun l => (gateOf s l).isSome) = some l := by simp [h, gate]
  simp [execGatedAdmit, found, gate, pass]

/-- The state in which the only launch has left the launch unit. -/
def leaves (l : Launch) (passes : List Pass) (s : State) : State :=
  { journal l.die (.leaves l.q l.pkt.lid) s with launches := s.launches.erase l, passes := passes }

theorem execGatedAdmit_of_refuse {s : State} {l : Launch} (h : s.launches = [l]) (gate : gateOf s l = some .refuse)
    (pass : passOf s l.pkt = none) : execGatedAdmit s = .next (reportLaunch l.die l.q l.pkt 4 0 0 0
      (leaves l (s.passes.filter (fun p => !(p.model == l.pkt.model && p.pass == l.pkt.pass))) s)) := by
  have found : s.launches.find? (fun l => (gateOf s l).isSome) = some l := by simp [h, gate]
  simp [execGatedAdmit, found, gate, passGen, pass, leaves]

/-! ### COMPLETION_RECORD (R402) -/

theorem execCompletionRecord_of_single {s : State} {l : Launch} {failed : Nat} (h : s.launches = [l])
    (running : l.st = .running) (gone : s.task.alive = false) (saves : s.saves = []) (fine : l.failed = false)
    (few : failed < 2 ^ 16) : execCompletionRecord failed s = .next (reportLaunch l.die l.q l.pkt
      (if failed = 0 then 0 else 1) (if failed = 0 then 0 else l.reason) failed l.gen (leaves l (passDone s l.pkt) s)) := by
  have found : s.launches.find? (launchOver s) = some l := by simp [h, launchOver, running, gone, saves]
  have most : Nat.min failed 0xFFFF = failed := Nat.min_eq_left (Nat.le_of_lt_succ few)
  by_cases zero : failed = 0 <;> simp [execCompletionRecord, found, fine, most, zero, leaves]

/-! ### Placement (R24, R157, R225) -/

theorem logAdd_writes (k : LogKind) (data : List Nat) (s : State) :
    ∃ log lost, logAdd k data s = { s with log := log, logLost := lost } := ⟨_, _, rfl⟩

/-- A fresh seed takes a free value, and the log has it. -/
theorem seedChannel_writes (ch : Nat) (n : Noise) (nrp : Bool) (s : State) : ∃ log lost free, (seedChannel ch n nrp s).2 =
    { s with log := log, logLost := lost, free := free } := by
  unfold seedChannel
  split
  · exact ⟨_, _, _, rfl⟩
  · dsimp only
    split
    · obtain ⟨log, lost, h⟩ := logAdd_writes .noise (s.task.ctx :: s.task.lid.toNat :: ch :: n.index ::
        (freshSeed s).1.map BitVec.toNat) (freshSeed s).2
      exact ⟨log, lost, _, h⟩
    · exact ⟨_, _, _, rfl⟩

/-- What a restart of a noise channel changes. -/
theorem restartChannel_writes (nrp : Bool) (ch : Fin 4) (s : State) : ∃ noise log lost free, restartChannel nrp ch s =
    { s with task.noise := noise, log := log, logLost := lost, free := free } := by
  unfold restartChannel
  dsimp only
  generalize { s.task.noise[ch] with index := if nrp then 0 else s.task.noise[ch].recorded.length } = n
  obtain ⟨log, lost, free, h⟩ := seedChannel_writes ch.val n nrp s
  exact ⟨_, log, lost, free, by rw [h]⟩

theorem restartNoise_writes (nrp : Bool) (s : State) : ∃ noise log lost free, restartNoise nrp s =
    { s with task.noise := noise, log := log, logLost := lost, free := free } := by
  unfold restartNoise
  generalize List.finRange 4 = chs
  induction chs generalizing s with
  | nil => exact ⟨_, _, _, _, rfl⟩
  | cons ch rest ih =>
    obtain ⟨noise, log, lost, free, h⟩ := restartChannel_writes nrp ch s
    obtain ⟨noise', log', lost', free', h'⟩ := ih (restartChannel nrp ch s)
    exact ⟨noise', log', lost', free', by rw [List.foldl_cons, h', h]⟩

theorem spadWrite_writes (a : Nat) (b : List Byte) (s : State) : ∃ spad bad side corrected, spadWrite a b s =
    { s with spad := spad, spadBad := bad, side := side, corrected := corrected } := by
  unfold spadWrite
  split <;> exact ⟨_, _, _, _, rfl⟩

/-- The launch block is written where the task's share of the scratchpad has a place for it. -/
def writeBlock (l : Launch) (g : Placement) (s : State) : State :=
  match spadMap s false Config.launchBlock 256 with
  | some p => spadWrite p (launchBlock l.pkt g.ordinals) s
  | none => s

theorem writeBlock_writes (l : Launch) (g : Placement) (s : State) : ∃ spad bad side corrected, writeBlock l g s =
    { s with spad := spad, spadBad := bad, side := side, corrected := corrected } := by
  unfold writeBlock
  split
  · exact spadWrite_writes ..
  · exact ⟨_, _, _, _, rfl⟩

/-- The state in which the task of a placement has this core, before its launch block, its cache and its noise. -/
def taskTakes (l : Launch) (i : Image) (g : Placement) (s : State) : State :=
  { s with task := startTask s l i g, holds := holdOf s (l.pkt.cls == 1), quietFrom := s.now, hungSeen := false }

theorem placeTask_eq (l : Launch) (i : Image) (g : Placement) (s : State) :
    placeTask l i g s = restartNoise (l.pkt.flags.getLsbD 1) (flushCache (writeBlock l g (taskTakes l i g s))) := rfl

/-- What the start of a task changes after that: K's cache is empty, the noise has its seeds, the launch block stands. -/
theorem placeTask_writes (l : Launch) (i : Image) (g : Placement) (s : State) :
    ∃ noise log lost free spad bad side corrected, placeTask l i g s =
      { taskTakes l i g s with
        task := { startTask s l i g with noise := noise }, dcache := [], log := log, logLost := lost, free := free
        spad := spad, spadBad := bad, side := side, corrected := corrected } := by
  obtain ⟨spad, bad, side, corrected, written⟩ := writeBlock_writes l g (taskTakes l i g s)
  obtain ⟨noise, log, lost, free, seeded⟩ :=
    restartNoise_writes (l.pkt.flags.getLsbD 1) (flushCache (writeBlock l g (taskTakes l i g s)))
  exact ⟨noise, log, lost, free, spad, bad, side, corrected, by rw [placeTask_eq, seeded, written]; rfl⟩

/-- The state in which a group of the only launch is placed, before this core's own task starts. -/
def groupPlaced (l : Launch) (g : Placement) (s : State) : State :=
  { journal (groupDie g) (.placed l.pkt.lid g.cores) s with launches := [addGroup g l] }

theorem execGroupPlace_of_single {s : State} {l : Launch} {g : Placement} {im : Image} (serves : serving s = true)
    (h : s.launches = [l]) (lid : l.pkt.lid = g.lid) (ready : l.st = .ready) (up : schedulerUp s l.die l.q = true)
    (fresh : ∀ c ∈ l.cores, c / 64 ≠ groupDie g) (image : imageOf s l.pkt.ctx l.pkt.image = some im)
    (cores : coresOk l.pkt g = true) (ordinals : ordinalsOk l.pkt.loops (groupDie g) g.ordinals = true)
    (held : s.dieHeld[groupDie g]! = false) (free : coreFree s (l.pkt.cls == 1) im = true) (mine : coreNumber s ∈ g.cores) :
    execGroupPlace g s = .next (placeTask l im g (groupPlaced l g s)) := by
  have untaken : dieTaken l (groupDie g) = false := by simpa [dieTaken] using fresh
  have found : s.launches.find? (placeable s g) = some l := by simp [h, placeable, lid, ready, up, untaken]
  have own : g.cores.contains (coreNumber s) = true := List.contains_iff_mem.2 mine
  have stands : modFirst (fun k => if k == l then some (addGroup g l) else none) s.launches = [addGroup g l] := by
    simp [h, modFirst]
  simp only [execGroupPlace, found, image, serves, cores, ordinals, held, free, own, journal_launches_keeps, stands,
    groupPlaced, Bool.not_true, Bool.and_false, Bool.or_false, Bool.false_eq_true, if_false, if_true]

/-! ### Scheduler cores (R404, R405) -/

theorem execImemRepair_of_single {s : State} {core copy addr : Nat} (two : copy < 2)
    (h : s.imemBad = [(core, copy, addr)]) : execImemRepair core addr s =
      .next (logFrom (schedSource (core / 2) core) .transient [core, addr] { s with imemBad := [] }) := by
  have other : otherCopy copy ≠ copy := by unfold otherCopy; omega
  simp [execImemRepair, h, other]

/-- A word that is bad in both copies, and a bad journal, hold the die. -/
theorem holdDue_of_lost {s : State} {die core addr : Nat} (h : (core / 2 = die ∧ (core, 0, addr) ∈ s.imemBad ∧
    (core, 1, addr) ∈ s.imemBad) ∨ die ∈ s.journalBad) : holdDue s die = true := by
  rcases h with ⟨rfl, one, two⟩ | bad
  · have both : s.imemBad.any (fun p => p.1 / 2 == core / 2 && s.imemBad.contains (p.1, otherCopy p.2.1, p.2.2)) = true :=
      List.any_eq_true.2 ⟨_, one, by simp [otherCopy, two]⟩
    simp only [holdDue, both, Bool.or_true]
  · simp [holdDue, bad]

theorem execDieHold_of_due {s : State} {die : Fin 2} (held : s.dieHeld[die] = false) (due : holdDue s die.val = true) :
    execDieHold die.val s = .next (notify (schedSource die.val 0) (.dieHold die.val)
      (logFrom (schedSource die.val 0) .attention [die.val] { s with dieHeld := s.dieHeld.set die true })) := by
  have held' : s.dieHeld[die.val] = false := held
  simp only [execDieHold, dif_pos die.isLt, due, held', Bool.not_false, Bool.and_self, if_true]

/-! ### The launch path, clause by clause -/

section
variable {s : State} {m : BitVec 24} {die q : Nat} {t : BitVec 64} (serves : serving s = true)
  (owner : s.claim.owner = some m) (hdie : die < 2) (hq : q < 64)
include serves owner hdie hq

theorem qtailWrite_copies (fits : TailFits (queueOf s die q) die q t.toNat)
    (sound : ∀ b ∈ ringPackets s (queueOf s die q) t.toNat, tailFault s (queueOf s die q) (die == 0 && q == 63) b = none) :
    Answers (.qtailWrite m die q t) s (fun u => queueOf u die q = { queueOf s die q with
      tail := t.toNat, head := t.toNat
      buf := (queueOf s die q).buf ++ ringPackets s (queueOf s die q) t.toNat } ∧ u.mem = s.mem) := by
  obtain ⟨none_rejected, all_copied⟩ := tail_of_sound sound
  refine ⟨_, execQtailWrite_of_fits serves owner hdie hq fits, ?_⟩
  rw [none_rejected]
  refine ⟨(tailTaken_queue ..).trans ?_, rfl⟩
  rw [all_copied]

theorem qtailWrite_rejects {b : List Byte} {n : Nat} {e : PageEntry} (fits : TailFits (queueOf s die q) die q t.toNat)
    (one : ringPackets s (queueOf s die q) t.toNat = [b])
    (fault : tailFault s (queueOf s die q) (die == 0 && q == 63) b = some n) (wf : memWf s.mem = true)
    (page : s.pages.find? (pageHas (parsePacket b).ctx (vaNat (parsePacket b).cpl)) = some e) :
    Answers (.qtailWrite m die q t) s (fun u => queueOf u die q = { queueOf s die q with
      tail := t.toNat, head := t.toNat, rej := min 0xFFFFFFFF ((queueOf s die q).rej + 1) } ∧
      RecordAt e (parsePacket b) (recordBytes s (parsePacket b).lid 3 n 0 0) u) := by
  refine ⟨_, execQtailWrite_of_fits serves owner hdie hq fits, ?_⟩
  have rejected : (ringPackets s (queueOf s die q) t.toNat).foldl (rejectFaulty s die q) (tailTaken s die q t.toNat) =
      rejectPacket die q (parsePacket b) n (tailTaken s die q t.toNat) := by
    simp only [one, List.foldl_cons, List.foldl_nil, rejectFaulty, fault]
  have copied : (queueOf s die q).buf ++ (ringPackets s (queueOf s die q) t.toNat).filter
      (fun b => (tailFault s (queueOf s die q) (die == 0 && q == 63) b).isNone) = (queueOf s die q).buf := by
    simp [one, fault]
  refine ⟨?_, ?_⟩
  · rw [rejected, (rejectPacket_keeps ..).1, tailTaken_queue, copied]
  · rw [rejected]
    exact rejectPacket_records die q n (s := tailTaken s die q t.toNat) wf page

theorem qtailWrite_overflows (fits : ¬TailFits (queueOf s die q) die q t.toNat) :
    Answers (.qtailWrite m die q t) s (fun u => queueOf u die q = { queueOf s die q with ovf := true } ∧ u.mem = s.mem) :=
  ⟨_, execQtailWrite_of_not_fits serves owner hdie hq fits, queueOf_setQueue .., rfl⟩

end

theorem registerWrite_mailbox {s : State} {addr : Nat} (serves : serving s = true) (wf : memWf s.mem = true)
    (inside : inMailbox addr = true) (m : BitVec 24) (v : BitVec 64) : Answers (.registerWrite m addr v) s (fun u =>
      memRead u.mem (Config.mailboxPa + (addr - 0x200000)) 8 = leBytes 8 v.toNat ∧
      (∀ y, ¬(Config.mailboxPa + (addr - 0x200000) ≤ y ∧ y < Config.mailboxPa + (addr - 0x200000) + 8) →
        memGet u.mem y = memGet s.mem y) ∧ u.claim = s.claim ∧ u.hostq = s.hostq) := by
  refine ⟨_, execRegisterWrite_of_mailbox serves inside m v, ?_⟩
  generalize Config.mailboxPa + (addr - 0x200000) = pa
  have written : (memPut [⟨pa, 8⟩] (leBytes 8 v.toNat) s).mem = memWrite s.mem pa (leBytes 8 v.toNat) :=
    segWrite_one s.mem pa (leBytes 8 v.toNat)
  refine ⟨?_, fun y out => ?_, rfl, rfl⟩
  · rw [written]
    exact memRead_memWrite_same wf pa (leBytes 8 v.toNat)
  · rw [written, memGet_memWrite_outside wf]
    rw [leBytes_length]
    omega

/-- The registers of a queue. -/
theorem registerWrite_queue {s : State} {m : BitVec 24} {die q : Nat} (serves : serving s = true)
    (owner : s.claim.owner = some m) (hdie : die < 2) (hq : q < 64) (v : BitVec 64) :
    let w := queueOf s die q
    let reg := 0x100000 + 0x1000 * die + 0x40 * q
    Answers (.registerWrite m reg v) s (fun u => queueOf u die q = { w with base := v &&& 0xFFFFFFFFFFFFF000 }) ∧
    (∀ k, k ≤ 12 → v.toNat = 2 ^ k → Answers (.registerWrite m (reg + 0x08) v) s (fun u =>
      queueOf u die q = { w with size := 2 ^ k })) ∧
    Answers (.registerWrite m (reg + 0x20) v) s (fun u => queueOf u die q = { w with cfg := v &&& 0xFFFFFF0003 }) ∧
    Answers (.registerWrite m (reg + 0x28) v) s (fun u =>
      queueOf u die q = { w with ovf := w.ovf && !v.getLsbD 0 }) := by
  have written {off : Nat} (hoff : off < 0x40) := execRegisterWrite_of_queue serves owner hdie hq hoff v
  refine ⟨⟨_, written (off := 0) (by decide), queueOf_setQueue ..⟩, fun k small size => ?_,
    ⟨_, written (off := 0x20) (by decide), queueOf_setQueue ..⟩, ⟨_, written (off := 0x28) (by decide), queueOf_setQueue ..⟩⟩
  refine ⟨_, written (off := 0x08) (by decide), (queueOf_setQueue ..).trans ?_⟩
  rw [size, ringSize_pow small]
  rfl

/-- The base of a queue is read back. -/
theorem registerWrite_readBack {s : State} {m : BitVec 24} {die q : Nat} (serves : serving s = true)
    (owner : s.claim.owner = some m) (hdie : die < 2) (hq : q < 64) (v : BitVec 64) :
    ∃ u, exec (.registerWrite m (0x100000 + 0x1000 * die + 0x40 * q) v) s = .next u ∧
      readRegister u (0x100000 + 0x1000 * die + 0x40 * q) = v &&& 0xFFFFFFFFFFFFF000 := by
  obtain ⟨⟨u, written, queue⟩, -⟩ := registerWrite_queue serves owner hdie hq v
  have read := readRegister_of_queue hdie hq (off := 0) (by decide) u
  exact ⟨u, written, read.trans (congrArg HostQueue.base queue)⟩

section
variable {s : State} {die q : Nat} (serves : serving s = true) (hdie : die < 2) (hq : q < 64)
  (launches : ¬(die = 0 ∧ q = 63)) (ready : queueReady s die q = true) (served : servesNext s die q = true) {p : Packet}
  (packet : parsePacket ((queueOf s die q).buf.headD []) = p)
include serves hdie hq launches ready served packet

theorem packetCheck_launches (sound : packetFault s (queueOf s die q) false p = none) :
    Answers (.packetCheck die q) s (fun u => (queueOf u die q).buf = (queueOf s die q).buf.drop 1 ∧
      u.launches = s.launches ++ [⟨die, q, p, firstState p, 0, false, 0, false, []⟩]) := by
  refine ⟨_, execPacketCheck_of_sound serves hdie hq launches ready served packet sound, ?_⟩
  have taken := packetTaken_queue s die q
  rw [packetTaken_launches]
  generalize packetTaken s die q = u at taken ⊢
  exact ⟨congrArg HostQueue.buf taken, rfl⟩

theorem packetCheck_rejects {n : Nat} {e : PageEntry} (fault : packetFault s (queueOf s die q) false p = some n)
    (wf : memWf s.mem = true) (page : s.pages.find? (pageHas p.ctx (vaNat p.cpl)) = some e) :
    Answers (.packetCheck die q) s (fun u => (queueOf u die q).buf = (queueOf s die q).buf.drop 1 ∧
      (queueOf u die q).rej = min 0xFFFFFFFF ((queueOf s die q).rej + 1) ∧ u.launches = s.launches ∧
      RecordAt e p (recordBytes s p.lid 3 n 0 0) u) := by
  refine ⟨_, execPacketCheck_of_fault serves hdie hq launches ready served packet fault, ?_⟩
  obtain ⟨queue, kept⟩ := rejectPacket_keeps die q p n (packetTaken s die q)
  rw [queue, packetTaken_queue]
  exact ⟨rfl, rfl, kept, rejectPacket_records die q n (s := packetTaken s die q) wf page⟩

end

/-- A launch that leaves the launch unit with a record. -/
theorem leaves_reports {s : State} {l : Launch} {e : PageEntry} {i : Instr} {ps : List Pass} {status reason failed gen : Nat}
    (h : s.launches = [l]) (step : exec i s = .next (reportLaunch l.die l.q l.pkt status reason failed gen (leaves l ps s)))
    (wf : memWf s.mem = true) (page : s.pages.find? (pageHas l.pkt.ctx (vaNat l.pkt.cpl)) = some e) :
    Answers i s (fun u => u.launches = [] ∧ RecordAt e l.pkt (recordBytes s l.pkt.lid status reason failed gen) u) := by
  refine ⟨_, step, (reportLaunch_keeps ..).2.trans ?_,
    reportLaunch_records l.die l.q status reason failed gen (s := leaves l ps s) wf page⟩
  simp [leaves, h]

/-- The task of a placement has started on this core in u, and what is no part of it is as in s: its streams stand at word 0
of their code, with its handlers. -/
def TaskStarts (l : Launch) (i : Image) (g : Placement) (s u : State) : Prop :=
  u.dcache = [] ∧ u.task.alive = true ∧ u.task.ctx = l.pkt.ctx ∧ u.task.lid = l.pkt.lid ∧ u.task.group = g.group ∧
    u.task.partition = g.cores ∧ u.mem = s.mem ∧ u.firm = s.firm ∧ u.task.k.nrp = l.pkt.flags.getLsbD 1 ∧
    (∀ y ∈ [Issuer.kTask, .l, .c, .s], (ctxOf u y).run = .running ∧ (ctxOf u y).pc = 0 ∧ (ctxOf u y).preds = 1) ∧
    (u.task.l.tvec, u.task.c.tvec, u.task.s.tvec) =
      (i.lHandler.setWidth 64, i.cHandler.setWidth 64, i.sHandler.setWidth 64)

theorem placeTask_starts (l : Launch) (i : Image) (g : Placement) (s : State) : TaskStarts l i g s (placeTask l i g s) := by
  obtain ⟨noise, log, lost, free, spad, bad, side, corrected, h⟩ := placeTask_writes l i g s
  rw [h]
  refine ⟨rfl, rfl, rfl, rfl, rfl, rfl, rfl, rfl, rfl, ?_, rfl⟩
  simp only [List.forall_mem_cons, List.not_mem_nil, false_imp_iff, implies_true, and_true]
  exact ⟨⟨rfl, rfl, rfl⟩, ⟨rfl, rfl, rfl⟩, ⟨rfl, rfl, rfl⟩, rfl, rfl, rfl⟩

theorem placeTask_launches (l : Launch) (i : Image) (g : Placement) (s : State) :
    (placeTask l i g s).launches = s.launches := by
  obtain ⟨noise, log, lost, free, spad, bad, side, corrected, h⟩ := placeTask_writes l i g s
  rw [h]
  rfl

theorem addGroup_eq (g : Placement) (l : Launch) : addGroup g l = { l with
    cores := l.cores ++ g.cores
    st := if ((l.cores ++ g.cores).map (· / 64)).eraseDups.length = levelProduct 3 l.pkt.loops then .running
      else .ready } := by
  simp only [addGroup, beq_iff_eq]

/-- The launch has the group, and the task of the group starts. -/
theorem placeTask_groupPlaced (l : Launch) (i : Image) (g : Placement) (s : State) :
    (placeTask l i g (groupPlaced l g s)).launches = [{ l with
      cores := l.cores ++ g.cores
      st := if ((l.cores ++ g.cores).map (· / 64)).eraseDups.length = levelProduct 3 l.pkt.loops then .running
        else .ready }] ∧
    TaskStarts l i g s (placeTask l i g (groupPlaced l g s)) := by
  refine ⟨(placeTask_launches ..).trans (congrArg (fun k => [k]) (addGroup_eq g l)), ?_⟩
  have starts := placeTask_starts l i g (groupPlaced l g s)
  generalize placeTask l i g (groupPlaced l g s) = u at starts ⊢
  exact starts

theorem dieHold_reports {s : State} {die : Fin 2} (held : s.dieHeld[die] = false) (due : holdDue s die.val = true) :
    Answers (.dieHold die.val) s (fun u => u.dieHeld = s.dieHeld.set die true ∧ ∃ r, u.notices = s.notices ++ [r] ∧
      r.what = .dieHold die.val ∧ r.time = s.timeBase / 840 ∧ r.source = die.val * 0x400 + 0x40) :=
  ⟨_, execDieHold_of_due held due, rfl, ⟨_, _, _⟩, rfl, rfl, rfl, rfl⟩

theorem ringPackets_eq (s : State) (w : HostQueue) (t : Nat) : ringPackets s w t =
    (List.range ((t + w.size - w.head) % w.size)).map
      (fun i => memRead s.mem (w.base.toNat + 320 * ((w.head + i) % w.size)) 320) := List.map_map ..

/-- Settles O49: each clause is what the operation of its step does, as the lemmas above say it. -/
theorem launchPathActs : Obligations.LaunchPathActs := by
  unfold Obligations.LaunchPathActs
  intro s m die q t v l ls e im g md core addr copy failed gen
  dsimp only
  rw [← ringPackets_eq]
  refine ⟨?tail, ?tailReject, ?tailOverflow, ?other, ?mailbox, ?queue, ?lease, ?handover, ?readBack, ?packet, ?noPacket,
    ?timed, ?gated, ?place, ?noLaunch, ?complete, ?repair, ?hold, ?restart⟩
  case tail =>
    rintro ⟨⟨power, booted⟩, owner⟩ ⟨hdie, hq⟩ fits sound
    exact qtailWrite_copies (serving_of power booted) owner hdie hq fits sound
  case tailReject =>
    rintro b n ⟨⟨power, booted⟩, owner⟩ ⟨hdie, hq⟩ fits one fault ⟨⟨wf, -⟩, page⟩
    exact qtailWrite_rejects (serving_of power booted) owner hdie hq fits one fault wf page
  case tailOverflow =>
    rintro ⟨⟨power, booted⟩, owner⟩ ⟨hdie, hq⟩ fits
    exact qtailWrite_overflows (serving_of power booted) owner hdie hq fits
  case other =>
    exact fun other => ⟨execQtailWrite_of_other other die q t, fun outside => execRegisterWrite_of_other other outside v⟩
  case mailbox =>
    rintro ⟨power, booted⟩ ⟨wf, -⟩ inside
    exact registerWrite_mailbox (serving_of power booted) wf inside m v
  case queue =>
    rintro ⟨⟨power, booted⟩, owner⟩ ⟨hdie, hq⟩
    exact registerWrite_queue (serving_of power booted) owner hdie hq v
  case lease =>
    rintro ⟨⟨power, booted⟩, owner⟩
    exact ⟨_, execRegisterWrite_lease (serving_of power booted) owner v, rfl⟩
  case handover =>
    rintro ⟨⟨power, booted⟩, owner⟩
    exact ⟨_, execRegisterWrite_handover (serving_of power booted) owner v, rfl, rfl⟩
  case readBack =>
    rintro ⟨⟨power, booted⟩, owner⟩ ⟨hdie, hq⟩
    exact registerWrite_readBack (serving_of power booted) owner hdie hq v
  case packet =>
    rintro ⟨power, booted⟩ ⟨hdie, hq⟩ launches ready served
    have serves := serving_of power booted
    refine ⟨packetCheck_launches serves hdie hq launches ready served rfl, ?_⟩
    rintro n fault ⟨⟨wf, -⟩, page⟩
    exact packetCheck_rejects serves hdie hq launches ready served rfl fault wf page
  case noPacket => exact execPacketCheck_of_not_ready
  case timed =>
    intro h timed up due
    exact ⟨_, execTimedStart_of_first h timed up due, standAt_of_first h .., rfl⟩
  case gated =>
    intro h gated up model pass
    refine ⟨fun layer first => ?_, ?_⟩
    · have gate := gateOf_of_model gated up model pass layer
      rw [if_pos first] at gate
      exact ⟨_, execGatedAdmit_of_entry h gate pass, standAt_of_first h .., rfl⟩
    · rintro layer ⟨⟨wf, -⟩, page⟩
      have gate := gateOf_of_model gated up model pass layer
      exact leaves_reports h (execGatedAdmit_of_refuse h gate pass) wf page
  case place =>
    rintro ⟨power, booted⟩ h ready up lid image cores ordinals held free mine fresh
    exact ⟨_, execGroupPlace_of_single (serving_of power booted) h lid ready up fresh image cores ordinals held free mine,
      placeTask_groupPlaced l im g s⟩
  case noLaunch =>
    intro h
    simp [execGroupPlace, execCompletionRecord, h]
  case complete =>
    rintro h running gone saves fine few ⟨⟨wf, -⟩, page⟩
    exact leaves_reports h (execCompletionRecord_of_single h running gone saves fine few) wf page
  case repair =>
    intro two h
    exact ⟨_, execImemRepair_of_single two h, rfl, rfl⟩
  case hold =>
    intro d held due
    exact dieHold_reports held (holdDue_of_lost due)
  case restart =>
    exact ⟨_, rfl, fun k => by simp⟩
end Sys2Proof.Machine
end

section
/-! The machine after reset, and O58. -/

namespace Sys2Proof.Machine

/-! ### The machine after reset -/

theorem memWf_empty : memWf [] = true := rfl

/-- Every memory is empty after reset. -/
theorem reset_memWf : State.reset.MemWf :=
  ⟨memWf_empty, memWf_empty, memWf_empty, ⟨memWf_empty, memWf_empty, memWf_empty, memWf_empty⟩, List.forall_mem_nil _⟩

/-- Every stream stands at address 0 after reset, and nothing waits for the checker. -/
theorem reset_aligned : State.reset.Aligned :=
  ⟨⟨rfl, rfl, rfl, rfl⟩, rfl, List.forall_mem_nil _, List.forall_mem_nil _, List.forall_mem_nil _⟩

/-- Every stream is absent after reset, at address 0, with nothing but p0. -/
theorem reset_ctx (x : Issuer) : (ctxOf State.reset x).run = .absent ∧ (ctxOf State.reset x).pc = 0 ∧
    ctxPred (ctxOf State.reset x) 0 = true ∧ (ctxOf State.reset x).trp = false ∧ (ctxOf State.reset x).tvec = 0 := by
  cases x with
  | kTask => exact ⟨rfl, rfl, rfl, rfl, rfl⟩
  | kFirm => exact ⟨rfl, rfl, rfl, rfl, rfl⟩
  | l => exact ⟨rfl, rfl, rfl, rfl, rfl⟩
  | c => exact ⟨rfl, rfl, rfl, rfl, rfl⟩
  | s => exact ⟨rfl, rfl, rfl, rfl, rfl⟩

theorem reset_meas (m : Nat) (hm : m < 8) : State.reset.crypto.meas[m]! = List.replicate 64 0 := by
  have all : State.reset.crypto.meas = Vector.replicate 8 (List.replicate 64 0) := rfl
  simp [all, hm]

/-- Settles O58: each register to which the manual gives a value is read off the reset state. -/
theorem resetLeaves : Obligations.ResetLeaves := by
  unfold Obligations.ResetLeaves
  exact ⟨reset_ctx, rfl, rfl, rfl, rfl, rfl, rfl, rfl, rfl, rfl, rfl, reset_meas, reset_memWf, reset_aligned⟩

end Sys2Proof.Machine
end

section
/-! What holds of every outcome, and the canonical form of the memories through writes, traps and the issue protocol. -/

namespace Sys2Proof.Machine

/-! ### What holds of an outcome -/

section
variable {Q : State → Prop} {s : State} {t : TrapInfo} {pc : Pc} {lat : Nat}

@[simp] theorem Result.all_done : (Result.done s lat).All Q ↔ Q s := Iff.rfl
@[simp] theorem Result.all_async : (Result.async s).All Q ↔ Q s := Iff.rfl
@[simp] theorem Result.all_goto : (Result.goto s pc).All Q ↔ Q s := Iff.rfl
@[simp] theorem Result.all_doneTrap : (Result.doneTrap s t pc).All Q ↔ Q s := Iff.rfl
@[simp] theorem Result.all_wait : (Result.wait s).All Q ↔ Q s := Iff.rfl
@[simp] theorem Result.all_waitIssued : (Result.waitIssued s).All Q ↔ Q s := Iff.rfl
@[simp] theorem Result.all_waitReply : (Result.waitReply s).All Q ↔ Q s := Iff.rfl
@[simp] theorem Result.all_chunk : (Result.chunk s).All Q ↔ Q s := Iff.rfl
@[simp] theorem Result.all_trapKeep : (Result.trapKeep s t).All Q ↔ Q s := Iff.rfl
@[simp] theorem Result.all_trapIssued : (Result.trapIssued s t).All Q ↔ Q s := Iff.rfl
@[simp] theorem Result.all_jumped : (Result.jumped s).All Q ↔ Q s := Iff.rfl
@[simp] theorem Result.all_trap : (Result.trap t).All Q := trivial
@[simp] theorem Result.all_writeReg {d : BitVec 6} {v : Word} : (writeReg d v lat s).All Q ↔ Q (setReg d v lat s) := Iff.rfl
@[simp] theorem Out.all_next : Out.All Q (.next s) ↔ Q s := Iff.rfl
@[simp] theorem Out.all_fault {r : Fault} : Out.All Q (.fault r) := trivial
end

/-! ### The canonical form of the memories -/

/-- What leaves every memory alone keeps the canonical form. -/
theorem State.MemWf.same {s t : State} (hs : s.MemWf) (h : SameMem s t) : t.MemWf := by
  obtain ⟨mem, spad, firm, k, l, c, st, saves⟩ := h
  simpa only [State.MemWf, Task.MemWf, mem, spad, firm, k, l, c, st, saves] using hs

theorem SameMem.memWf {s t : State} (h : SameMem s t) (hs : s.MemWf) : t.MemWf := hs.same h

theorem Result.All.memWf {s : State} {r : Result} (hs : s.MemWf) (h : r.All (SameMem s)) : r.All State.MemWf :=
  h.mono fun _ same => hs.same same

theorem Out.All.memWf {s : State} {o : Out} (hs : s.MemWf) (h : o.All (SameMem s)) :
    o.All State.MemWf := by
  cases o with
  | next t => exact hs.same h
  | fault _ => trivial
  | refused _ => trivial

theorem State.MemWf.with_spad {s : State} (hs : s.MemWf) {m : Memory} (hm : memWf m = true) :
    State.MemWf { s with spad := m } := ⟨hs.1, hm, hs.2.2⟩

theorem State.MemWf.with_mem {s : State} (hs : s.MemWf) {m : Memory} (hm : memWf m = true) :
    State.MemWf { s with mem := m } := ⟨hm, hs.2⟩

theorem memWf_foldl {α : Type} {f : State → α → State} (hf : ∀ s a, s.MemWf → (f s a).MemWf) {l : List α} {s : State}
    (hs : s.MemWf) : (l.foldl f s).MemWf :=
  List.foldlRecOn l f hs fun t ht a _ => hf t a ht

theorem memWf_forRange {lo hi : Nat} {f : Nat → State → State} (hf : ∀ i s, s.MemWf → (f i s).MemWf) {s : State}
    (hs : s.MemWf) : (forRange lo hi f s).MemWf :=
  memWf_foldl (fun t _ ht => hf _ t ht) hs

/-! ### Writes -/

theorem memWf_spadWrite {a : Nat} {bs : List Byte} {s : State} (hs : s.MemWf) : (spadWrite a bs s).MemWf := by
  unfold spadWrite
  split
  · exact hs
  · exact hs.with_spad (memWf_memWrite _ _ hs.2.1)

theorem memWf_memPut {ss : List Seg} {bs : List Byte} {s : State} (hs : s.MemWf) : (memPut ss bs s).MemWf :=
  hs.with_mem (memWf_segWrite _ _ hs.1)

theorem memWf_memWriteBy {ss : List Seg} {bs : List Byte} {s : State} (hs : s.MemWf) : (memWriteBy ss bs s).MemWf :=
  (snoop_same ..).memWf (memWf_memPut hs)

theorem memWf_memPutOut {pa : Nat} {bs : List Byte} {s : State} (hs : s.MemWf) : (memPutOut pa bs s).MemWf :=
  memWf_memPut (memWf_memPut hs)

theorem memWf_writeVa {ctx : Nat} {va : Word} {b : List Byte} {s : State} (hs : s.MemWf) : (writeVa ctx va b s).MemWf := by
  unfold writeVa
  split
  · exact memWf_memPut hs
  · exact hs

theorem memWf_sectionMem (ws : List (BitVec 64)) : memWf (sectionMem ws) = true := memWf_memWrite _ _ rfl

/-! ### Traps -/

theorem memWf_saveFrame {x : Issuer} {cause : Word} {pc : Pc} {operand : Word} {s : State} (hs : s.MemWf) :
    (saveFrame x cause pc operand s).MemWf := by
  have hu : (if x == .c then unland s else s).MemWf := by split <;> [exact hs.same (by simp [SameMem]); exact hs]
  unfold saveFrame
  dsimp only
  generalize (if x == .c then unland s else s) = u at hu
  split
  · exact (dropLatches_same ..).memWf (memWf_spadWrite hu)
  · split
    · exact hu
    · exact hu

theorem memWf_takeTrap {x : Issuer} {t : TrapInfo} {pc : Pc} {s : State} (hs : s.MemWf) : (takeTrap x t pc s).MemWf := by
  unfold takeTrap
  dsimp only
  split
  · have hr : (reportTh (Issuer.kFirm == .kFirm) t s).MemWf := hs.same (by simp [SameMem])
    split
    · exact hr.same (by simp [SameMem])
    · split
      · exact (enterHandler_same ..).memWf (memWf_saveFrame hr)
      · exact hr.same (by simp [SameMem])
  · have hr : (reportTh (x == .kFirm) t s).MemWf := hs.same (by simp [SameMem])
    split
    · exact hr.same (by simp [SameMem])
    · split
      · exact (haltStream_same ..).memWf (memWf_saveFrame hr)
      · split
        · split
          · exact (haltStream_same ..).memWf (memWf_saveFrame hr)
          · exact (enterHandler_same ..).memWf (memWf_saveFrame hr)
        · exact (haltStream_same ..).memWf (memWf_saveFrame hr)

theorem memWf_raise {x : Issuer} {t : TrapInfo} {pc : Pc} {s0 s : State} (hs : s.MemWf) : (raise x t pc s0 s).MemWf := by
  unfold raise
  split
  · exact hs.same (by simp [SameMem])
  · exact memWf_takeTrap hs

theorem memWf_faultHere {x : Issuer} {t : TrapInfo} {s : State} (hs : s.MemWf) : (faultHere x t s).MemWf := memWf_raise hs

/-! ### The issue protocol -/

/-- What a body leaves in canonical form stays so through the end of its word. -/
theorem memWf_settle {x : Issuer} {pops pushes : List (Fifo × Nat)} {s : State} {r : Result} (hs : s.MemWf)
    (hr : r.All State.MemWf) : (settle x pops pushes s r).MemWf := by
  unfold settle
  cases r with
  | done t lat => exact State.MemWf.same (s := t) hr (by simp [SameMem])
  | async t => exact State.MemWf.same (s := t) hr (by simp [SameMem])
  | goto t pc => exact State.MemWf.same (s := t) hr (by simp [SameMem])
  | doneTrap t f pc => exact memWf_raise (State.MemWf.same (s := t) hr (by simp [SameMem]))
  | wait t => exact State.MemWf.same (s := t) hr (by simp [SameMem])
  | waitIssued t => exact State.MemWf.same (s := t) hr (by simp [SameMem])
  | waitReply t => exact State.MemWf.same (s := t) hr (by simp [SameMem])
  | chunk t => exact State.MemWf.same (s := t) hr (by simp [SameMem])
  | trap f => exact memWf_faultHere hs
  | trapKeep t f => exact memWf_faultHere hr
  | trapIssued t f => exact memWf_raise (State.MemWf.same (s := t) hr (by simp [SameMem]))
  | jumped t => exact State.MemWf.same (s := t) hr (by simp [SameMem])

theorem memWf_issueT {h : Hdr} {ps ts : List (Fifo × Nat)} {reads : List Nat} {body : State → Result} {s : State}
    (hs : s.MemWf) (hb : (body s).All State.MemWf) : (issueT h ps ts reads body s).All State.MemWf := by
  unfold issueT
  extract_lets x c guardTrue pushes pops
  split
  · exact .memWf hs (by simp [SameMem])
  split
  · exact .memWf hs (by simp [SameMem])
  · exact .memWf hs (by simp [SameMem])
  · exact memWf_faultHere hs
  split
  · exact .memWf hs (by simp [SameMem])
  split
  · exact memWf_faultHere hs
  split
  · exact memWf_settle (r := .done s 0) hs hs
  split
  · exact .memWf hs (by simp [SameMem])
  · exact .memWf hs (by simp [SameMem])
  · exact memWf_faultHere hs
  · exact memWf_settle hs hb

theorem memWf_issue {h : Hdr} {reads : List Nat} {body : State → Result} {s : State} (hs : s.MemWf)
    (hb : (body s).All State.MemWf) : (issue h reads body s).All State.MemWf := memWf_issueT hs hb

end Sys2Proof.Machine
end

section
/-! The canonical form of the memories through the words of control, barriers and `amo`. -/

namespace Sys2Proof.Machine

/-! ### Control (chapter 04) -/

theorem memWf_execNop {h : Hdr} {s : State} (hs : s.MemWf) : (execNop h s).All State.MemWf :=
  memWf_issue hs (.memWf hs (by simp [SameMem]))

theorem memWf_execLi {h : Hdr} {d : BitVec 6} {imm : BitVec 32} {s : State} (hs : s.MemWf) :
    (execLi h d imm s).All State.MemWf := memWf_issue hs (.memWf hs (by simp [SameMem]))

theorem memWf_execLih {h : Hdr} {d : BitVec 6} {imm : BitVec 32} {s : State} (hs : s.MemWf) :
    (execLih h d imm s).All State.MemWf := memWf_issue hs (.memWf hs (by simp [SameMem]))

theorem memWf_execAlu {h : Hdr} {fn : AluFn} {d a b : BitVec 6} {s : State} (hs : s.MemWf) :
    (execAlu h fn d a b s).All State.MemWf := memWf_issue hs (.memWf hs (by simp [SameMem]))

theorem memWf_immOp {f : Word → Word → Word} {lat : Nat} {h : Hdr} {d a : BitVec 6} {imm : BitVec 26} {s : State}
    (hs : s.MemWf) : (immOp f lat h d a imm s).All State.MemWf := memWf_issue hs (.memWf hs (by simp [SameMem]))

theorem memWf_shiftOp {fn : AluFn} {h : Hdr} {d a n : BitVec 6} {s : State} (hs : s.MemWf) :
    (shiftOp fn h d a n s).All State.MemWf := memWf_issue hs (.memWf hs (by simp [SameMem]))

theorem memWf_execCmp {h : Hdr} {cc : CmpCc} {pd : BitVec 4} {a b : BitVec 6} {s : State} (hs : s.MemWf) :
    (execCmp h cc pd a b s).All State.MemWf := memWf_issue hs (.memWf hs (by simp [SameMem]))

theorem memWf_execCmpi {h : Hdr} {cc : CmpCc} {pd : BitVec 4} {a : BitVec 6} {imm : BitVec 20} {s : State}
    (hs : s.MemWf) : (execCmpi h cc pd a imm s).All State.MemWf := memWf_issue hs (.memWf hs (by simp [SameMem]))

theorem memWf_execPlog {h : Hdr} {fn : PlogFn} {d a b : BitVec 4} {s : State} (hs : s.MemWf) :
    (execPlog h fn d a b s).All State.MemWf := memWf_issue hs (.memWf hs (by simp [SameMem]))

theorem memWf_execSel {h : Hdr} {d a b : BitVec 6} {s : State} (hs : s.MemWf) : (execSel h d a b s).All State.MemWf :=
  memWf_issue hs (.memWf hs (by simp [SameMem]))

theorem memWf_execLea {h : Hdr} {scale : BitVec 2} {d a b : BitVec 6} {s : State} (hs : s.MemWf) :
    (execLea h scale d a b s).All State.MemWf := memWf_issue hs (.memWf hs (by simp [SameMem]))

theorem memWf_execBr {h : Hdr} {off : BitVec 32} {s : State} (hs : s.MemWf) : (execBr h off s).All State.MemWf :=
  memWf_issue hs (.memWf hs (by simp [SameMem]))

theorem memWf_execCall {h : Hdr} {off : BitVec 32} {s : State} (hs : s.MemWf) : (execCall h off s).All State.MemWf :=
  memWf_issue hs (.memWf hs (by simp [SameMem]))

theorem memWf_execJr {h : Hdr} {d a : BitVec 6} {s : State} (hs : s.MemWf) : (execJr h d a s).All State.MemWf :=
  memWf_issue hs (.memWf hs (by dsimp only; (repeat' split) <;> simp [SameMem]))

theorem memWf_execLoop {h : Hdr} {n : BitVec 3} {src : LoopSrc} {s : State} (hs : s.MemWf) :
    (execLoop h n src s).All State.MemWf :=
  memWf_issue hs (.memWf hs (by dsimp only; (repeat' split) <;> simp [SameMem]))

theorem memWf_execEndl {h : Hdr} {n : BitVec 3} {off : BitVec 32} {s : State} (hs : s.MemWf) :
    (execEndl h n off s).All State.MemWf :=
  memWf_issue hs (.memWf hs (by dsimp only; (repeat' split) <;> simp [SameMem]))

theorem memWf_execSafe {h : Hdr} {s : State} (hs : s.MemWf) : (execSafe h s).All State.MemWf :=
  memWf_issue hs (.memWf hs (by dsimp only; (repeat' split) <;> simp [SameMem]))

theorem memWf_execLdk {h : Hdr} {sz : Sz} {d a : BitVec 6} {ac : BitVec 3} {off : BitVec 20} {s : State}
    (hs : s.MemWf) : (execLdk h sz d a ac off s).All State.MemWf :=
  memWf_issue hs (.memWf hs (by dsimp only; (repeat' split) <;> simp [SameMem]))

theorem memWf_execStk {h : Hdr} {sz : Sz} {d a : BitVec 6} {ac : BitVec 3} {off : BitVec 20} {s : State}
    (hs : s.MemWf) : (execStk h sz d a ac off s).All State.MemWf :=
  memWf_issue hs (.memWf hs (by dsimp only; (repeat' split) <;> simp [SameMem]))

theorem memWf_execLds {h : Hdr} {sz : Sz} {d a : BitVec 6} {off : BitVec 20} {s : State} (hs : s.MemWf) :
    (execLds h sz d a off s).All State.MemWf :=
  memWf_issue hs (.memWf hs (by dsimp only; (repeat' split) <;> simp [SameMem]))

theorem memWf_execSts {h : Hdr} {sz : Sz} {d a : BitVec 6} {off : BitVec 20} {s : State} (hs : s.MemWf) :
    (execSts h sz d a off s).All State.MemWf :=
  memWf_issue hs (.memWf hs (by dsimp only; (repeat' split) <;> simp [SameMem]))

theorem memWf_execRsr {h : Hdr} {d : BitVec 6} {r : SpecialReg} {s : State} (hs : s.MemWf) :
    (execRsr h d r s).All State.MemWf := memWf_issue hs (.memWf hs (by simp [SameMem]))

theorem memWf_execWsr {h : Hdr} {r : SpecialReg} {a : BitVec 6} {s : State} (hs : s.MemWf) :
    (execWsr h r a s).All State.MemWf := memWf_issue hs (.memWf hs (by simp [SameMem]))

theorem memWf_execEpop {h : Hdr} {d : BitVec 6} {port : Port} {s : State} (hs : s.MemWf) :
    (execEpop h d port s).All State.MemWf := memWf_issue hs (.memWf hs (by (repeat' split) <;> simp [SameMem]))

theorem memWf_execEcountOut {h : Hdr} {d : BitVec 6} {port : Port} {s : State} (hs : s.MemWf) :
    (execEcountOut h d port s).All State.MemWf := memWf_issue hs (.memWf hs (by simp [SameMem]))

theorem memWf_execEcountIn {h : Hdr} {d : BitVec 6} {port : Port} {s : State} (hs : s.MemWf) :
    (execEcountIn h d port s).All State.MemWf := memWf_issue hs (.memWf hs (by simp [SameMem]))

theorem memWf_execRnd {h : Hdr} {d : BitVec 6} {s : State} (hs : s.MemWf) : (execRnd h d s).All State.MemWf :=
  memWf_issue hs (.memWf hs (by simp [SameMem]))

theorem memWf_execTkc {h : Hdr} {d : BitVec 6} {f : Fifo} {s : State} (hs : s.MemWf) :
    (execTkc h d f s).All State.MemWf := memWf_issue hs (.memWf hs (by simp [SameMem]))

theorem memWf_execTkp {h : Hdr} {f : Fifo} {n : BitVec 6} {s : State} (hs : s.MemWf) :
    (execTkp h f n s).All State.MemWf := memWf_issueT hs (.memWf hs (by simp [SameMem]))

theorem memWf_execTkw {h : Hdr} {f : Fifo} {n : BitVec 6} {s : State} (hs : s.MemWf) :
    (execTkw h f n s).All State.MemWf := memWf_issueT hs (.memWf hs (by simp [SameMem]))

theorem memWf_execRenq {h : Hdr} {a b : BitVec 6} {s : State} (hs : s.MemWf) : (execRenq h a b s).All State.MemWf :=
  memWf_issue hs (.memWf hs (by dsimp only; (repeat' split) <;> simp [SameMem]))

theorem memWf_execFence {h : Hdr} {kind : FenceKind} {sc : Scope} {s : State} (hs : s.MemWf) :
    (execFence h kind sc s).All State.MemWf :=
  memWf_issue hs (.memWf hs (by dsimp only; (repeat' split) <;> simp [SameMem]))

theorem memWf_execMark {h : Hdr} {s : State} (hs : s.MemWf) : (execMark h s).All State.MemWf :=
  memWf_issue hs (.memWf hs (by dsimp only; (repeat' split) <;> simp [SameMem]))

theorem memWf_execWfe {h : Hdr} {imm : BitVec 20} {s : State} (hs : s.MemWf) : (execWfe h imm s).All State.MemWf :=
  memWf_issue hs (.memWf hs (by (repeat' split) <;> simp [SameMem]))

theorem memWf_execTrap {h : Hdr} {imm : BitVec 20} {s : State} (hs : s.MemWf) : (execTrap h imm s).All State.MemWf :=
  memWf_issue hs (.memWf hs (by simp [SameMem]))

theorem memWf_execBrk {h : Hdr} {imm : BitVec 20} {s : State} (hs : s.MemWf) : (execBrk h imm s).All State.MemWf := by
  refine memWf_issue hs ?_
  split
  · trivial
  split
  · exact .memWf hs (by simp [SameMem])
  · exact hs

theorem memWf_execSysCall {h : Hdr} {imm : BitVec 20} {s : State} (hs : s.MemWf) :
    (execSysCall h imm s).All State.MemWf := memWf_issue hs (.memWf hs (by (repeat' split) <;> simp [SameMem]))

theorem memWf_execSysTmr {h : Hdr} {mask : BitVec 4} {imm : BitVec 20} {s : State} (hs : s.MemWf) :
    (execSysTmr h mask imm s).All State.MemWf := memWf_issue hs (.memWf hs (by simp [SameMem]))

theorem memWf_execSysKill {h : Hdr} {imm : BitVec 20} {s : State} (hs : s.MemWf) :
    (execSysKill h imm s).All State.MemWf := memWf_issue hs (.memWf hs (by (repeat' split) <;> simp [SameMem]))

theorem memWf_execEndT {h : Hdr} {s : State} (hs : s.MemWf) : (execEndT h s).All State.MemWf :=
  memWf_issue hs (.memWf hs (by dsimp only; (repeat' split) <;> simp [SameMem]))

theorem memWf_execEpush {h : Hdr} {port : Port} {a : BitVec 6} {s : State} (hs : s.MemWf) :
    (execEpush h port a s).All State.MemWf := memWf_issue hs (.memWf hs (by (repeat' split) <;> simp))

theorem memWf_execRfi {h : Hdr} {s : State} (hs : s.MemWf) : (execRfi h s).All State.MemWf :=
  memWf_issue hs (.memWf hs (by dsimp only; (repeat' split) <;> simp [SameMem]))

/-! ### Barriers and atomics (chapter 05) -/

theorem memWf_waitOut {b : BitVec 2} {s t : State} (hs : s.MemWf) (h : waitOut b s = some t) : t.MemWf :=
  hs.same (waitOut_same _ _ _ h)

theorem memWf_barDone {report : Bool} {s : State} (hs : s.MemWf) : (barDone report s).All State.MemWf :=
  .memWf hs (by simp)

theorem memWf_execBara {h : Hdr} {b : BitVec 2} {s : State} (hs : s.MemWf) : (execBara h b s).All State.MemWf := by
  refine memWf_issue hs ?_
  dsimp only
  split
  · exact .memWf hs (by simp [SameMem])
  split
  · split
    · exact .memWf hs (by simp [SameMem])
    · next _ h => exact memWf_barDone ((memWf_waitOut hs h).same (by simp [SameMem]))
  · exact memWf_barDone (hs.same (by simp [SameMem]))

theorem memWf_execBarw {h : Hdr} {b : BitVec 2} {s : State} (hs : s.MemWf) : (execBarw h b s).All State.MemWf := by
  refine memWf_issue hs ?_
  split
  · exact .memWf hs (by simp [SameMem])
  · next _ h => exact memWf_barDone (memWf_waitOut hs h)

theorem memWf_execBar {h : Hdr} {b : BitVec 2} {s : State} (hs : s.MemWf) : (execBar h b s).All State.MemWf := by
  refine memWf_issue hs ?_
  dsimp only
  split
  · split
    · exact .memWf hs (by simp [SameMem])
    · next _ h => exact memWf_barDone (memWf_waitOut hs h)
  split
  · exact .memWf hs (by simp [SameMem])
  split
  · exact .memWf hs (by simp [SameMem])
  · next s1 h =>
    have h1 : s1.MemWf := by
      split at h
      · exact memWf_waitOut hs h
      · cases h
        exact hs
    split
    · exact .memWf h1 (by simp [SameMem])
    · next _ h3 => exact memWf_barDone (memWf_waitOut (h1.same (by simp [SameMem])) h3)

theorem memWf_amoMem {op : AmoOp} {dw : Bool} {pa : Nat} {b cmp : Word} {s : State} (hs : s.MemWf) :
    (amoMem op dw pa b cmp s).2.MemWf := memWf_memWriteBy hs

theorem memWf_execAmo {h : Hdr} {op : AmoOp} {sc : Scope} {dw : Bool} {d a b : BitVec 6} {s : State}
    (hs : s.MemWf) : (execAmo h op sc dw d a b s).All State.MemWf := by
  refine memWf_issue hs ?_
  extract_lets va n x ctx user
  split
  · trivial
  split
  · trivial
  next ps _ =>
  extract_lets pa out p
  split
  · exact .memWf hs (by simp [SameMem])
  split
  · split
    · exact .memWf hs (by simp [SameMem])
    · trivial
  split
  · exact .memWf hs (by simp [SameMem])
  split
  · have done : (egressDone user ctx out (tlbUse .s ps (noteEgress p.2))).MemWf :=
      State.MemWf.same (s := p.2) (memWf_amoMem hs) (by simp [SameMem])
    split
    · exact .memWf done (by simp [SameMem])
    · exact .memWf done (by simp [SameMem])
  · exact .memWf hs (by simp [SameMem])

end Sys2Proof.Machine
end

section
/-! The canonical form of the memories through tiles, accesses and the element words. -/

namespace Sys2Proof.Machine

/-! ### Tiles (chapters 03, 10) -/

theorem memWf_fillSlot {f : Fin 16} {slot : Nat} {bytes : List Byte} {bad : List Bool} {s : State} (hs : s.MemWf) :
    (fillSlot f slot bytes bad s).MemWf := by
  have written := memWf_spadWrite (a := slotPhys s (furOf s f) slot) (bs := bytes) hs
  have marked := (poisonBytes_same (slotPhys s (furOf s f) slot) bad _).memWf written
  exact (joinSlots_same ..).memWf (((genSlot_same f slot _).memWf marked).same (by simp [SameMem]))

theorem memWf_correctElem {r : HRec} {k bits : Nat} {s : State} (hs : s.MemWf) : (correctElem r k bits s).MemWf :=
  (logAdd_same ..).memWf (hs.with_spad (memWf_memWrite _ _ hs.2.1))

theorem memWf_checkPart {mode : CheckMode} {r : HRec} {rows cols : List Nat} {s : State} (hs : s.MemWf) :
    (checkPart mode r rows cols s).2.MemWf := by
  unfold checkPart
  split
  · exact hs
  split
  · exact hs
  extract_lets t st
  split
  · exact hs
  split
  · exact hs
  split
  · exact hs
  cases mode with
  | correct => exact memWf_correctElem hs
  | report => exact hs
  | examine => exact hs

theorem memWf_checkTile {mode : CheckMode} {r : HRec} {s : State} (hs : s.MemWf) : (checkTile mode r s).2.MemWf :=
  memWf_checkPart hs

theorem memWf_checkTiles {idx : Nat} {disp : Int} {rs : List HRec} {s : State} (hs : s.MemWf) :
    (checkTiles idx disp rs s).1.MemWf := by
  induction rs generalizing idx s with
  | nil => exact hs
  | cons r rs ih =>
    have checked : (checkTile .correct r s).2.MemWf := memWf_checkTile hs
    unfold checkTiles
    dsimp only
    split
    · exact checked
    · exact ih checked

theorem memWf_of_checkTiles {idx : Nat} {disp : Int} {rs : List HRec} {s t : State} {o : Option TrapInfo} (hs : s.MemWf)
    (h : checkTiles idx disp rs s = (t, o)) : t.MemWf := by
  simpa only [h] using memWf_checkTiles (idx := idx) (disp := disp) (rs := rs) hs

theorem memWf_putElem {bit w v : Nat} {s : State} (hs : s.MemWf) : (putElem bit w v s).MemWf := memWf_spadWrite hs

theorem memWf_putElems {img : BitVec 64} {disp : Int} {i : Nat} {vs : List Nat} {s : State} (hs : s.MemWf) :
    (putElems img disp i vs s).MemWf := by
  induction vs generalizing i s with
  | nil => exact hs
  | cons v vs ih =>
    unfold putElems
    dsimp only
    split
    · exact memWf_putElem hs
    · exact ih (memWf_putElem hs)

/-! ### Access (chapter 06) -/

theorem memWf_execLd {h : Hdr} {zp : Bool} {sz : Sz} {q : Fin 8} {ab : BitVec 6} {ac : BitVec 3} {off : BitVec 16}
    {s : State} (hs : s.MemWf) : (execLd h zp sz q ab ac off s).All State.MemWf :=
  memWf_issue hs (.memWf hs (by simp [SameMem]))

theorem memWf_execLdi {h : Hdr} {sz : Sz} {q : Fin 4} {ab : BitVec 6} {ac : BitVec 3} {off : BitVec 16} {s : State}
    (hs : s.MemWf) : (execLdi h sz q ab ac off s).All State.MemWf := memWf_issue hs (.memWf hs (by simp [SameMem]))

theorem memWf_execLdg {h : Hdr} {zp : Bool} {sz : Sz} {iq : Fin 4} {q : Fin 8} {ab : BitVec 6} {ac : BitVec 3}
    {off : BitVec 16} {s : State} (hs : s.MemWf) : (execLdg h zp sz iq q ab ac off s).All State.MemWf :=
  memWf_issue hs (.memWf hs (by (repeat' split) <;> simp [SameMem]))

theorem memWf_execLdp {h : Hdr} {sz : Sz} {q : Fin 8} {ab : BitVec 6} {ac : BitVec 3} {off : BitVec 16} {s : State}
    (hs : s.MemWf) : (execLdp h sz q ab ac off s).All State.MemWf := by
  refine memWf_issue hs ?_
  dsimp only
  split
  · trivial
  split
  · trivial
  split
  · exact .memWf hs (by simp [SameMem])
  · next _ h => exact .memWf (hs.same (queueLoad_same _ _ _ _ _ _ _ _ _ _ h)) (by simp [SameMem])

theorem memWf_execLdr {h : Hdr} {f : BitVec 4} {pitch : BitVec 4} {ab : BitVec 6} {ac : BitVec 3} {off : BitVec 16}
    {s : State} (hs : s.MemWf) : (execLdr h f pitch ab ac off s).All State.MemWf :=
  memWf_issue hs (.memWf hs (by dsimp only; (repeat' split) <;> simp [SameMem]))

theorem memWf_execLdw {h : Hdr} {w : BitVec 5} {ab : BitVec 6} {ac : BitVec 3} {off : BitVec 16} {s : State}
    (hs : s.MemWf) : (execLdw h w ab ac off s).All State.MemWf :=
  memWf_issue hs (.memWf hs (by dsimp only; (repeat' split) <;> simp [SameMem]))

theorem memWf_execPf {h : Hdr} {tr : Bool} {ab : BitVec 6} {off : BitVec 16} {s : State} (hs : s.MemWf) :
    (execPf h tr ab off s).All State.MemWf :=
  memWf_issue hs (.memWf hs (by dsimp only; (repeat' split) <;> simp [SameMem]))

theorem memWf_execSt {h : Hdr} {sz : Sz} {q : Fin 8} {ab : BitVec 6} {ac : BitVec 3} {off : BitVec 16} {s : State}
    (hs : s.MemWf) : (execSt h sz q ab ac off s).All State.MemWf :=
  memWf_issue hs (.memWf hs (by dsimp only; (repeat' split) <;> simp [SameMem]))

theorem memWf_execStg {h : Hdr} {sz : Sz} {iq q : Fin 8} {ab : BitVec 6} {ac : BitVec 3} {off : BitVec 16}
    {s : State} (hs : s.MemWf) : (execStg h sz iq q ab ac off s).All State.MemWf :=
  memWf_issue hs (.memWf hs (by dsimp only; (repeat' split) <;> simp [SameMem]))

theorem memWf_execStp {h : Hdr} {sz : Sz} {q : Fin 8} {ab : BitVec 6} {ac : BitVec 3} {off : BitVec 16} {s : State}
    (hs : s.MemWf) : (execStp h sz q ab ac off s).All State.MemWf :=
  memWf_issue hs (.memWf hs (by dsimp only; (repeat' split) <;> simp [SameMem]))

theorem memWf_execStw {h : Hdr} {w : BitVec 5} {ab : BitVec 6} {ac : BitVec 3} {off : BitVec 16} {s : State}
    (hs : s.MemWf) : (execStw h w ab ac off s).All State.MemWf := by
  refine memWf_issue hs ?_
  dsimp only
  split
  · exact .memWf hs (by simp [SameMem])
  split
  · trivial
  split
  · trivial
  split
  · trivial
  split
  · exact .memWf hs (by simp [SameMem])
  split
  · trivial
  split
  · next _ _ h => exact memWf_of_checkTiles hs h
  · next _ h => exact .memWf (memWf_of_checkTiles hs h) (by (repeat' split) <;> simp [SameMem])

theorem memWf_execStt {h : Hdr} {keep : Bool} {f : BitVec 4} {pitch : BitVec 4} {ab : BitVec 6} {ac : BitVec 3}
    {off : BitVec 16} {s : State} (hs : s.MemWf) : (execStt h keep f pitch ab ac off s).All State.MemWf := by
  refine memWf_issue hs ?_
  extract_lets fi v ea p i slot a n
  split
  · trivial
  split
  · trivial
  split
  · trivial
  split
  · exact .memWf hs (by simp [SameMem])
  split
  · trivial
  split
  · exact .memWf hs (by simp [SameMem])
  split
  · next _ _ h => exact memWf_of_checkTiles hs h
  · next _ h => exact .memWf (memWf_of_checkTiles hs h) (by dsimp only; (repeat' split) <;> simp [SameMem])

theorem memWf_execQfl {h : Hdr} {q : QName} {s : State} (hs : s.MemWf) : (execQfl h q s).All State.MemWf :=
  memWf_issue hs (.memWf hs (by dsimp only; (repeat' split) <;> simp [SameMem]))

theorem memWf_execQln {h : Hdr} {dst : QlnDst} {q : QName} {s : State} (hs : s.MemWf) :
    (execQln h dst q s).All State.MemWf := memWf_issue hs (.memWf hs (by (repeat' split) <;> simp [SameMem]))

theorem memWf_putMarked {img : BitVec 64} {disp : Int} {flags : List Bool} {i : Nat} {vs : List Nat} {s : State}
    (hs : s.MemWf) : (putMarked img disp flags i vs s).MemWf := by
  induction vs generalizing i s with
  | nil => exact hs
  | cons v vs ih => exact ih ((poisonBytes_same ..).memWf (memWf_putElem hs))

theorem memWf_execAccessPerformed {id : Nat} {s : State} (hs : s.MemWf) : (execAccessPerformed id s).All State.MemWf := by
  unfold execAccessPerformed
  split
  · exact hs
  split
  · exact hs
  split
  · split
    · exact hs
    · next disp _ =>
      extract_lets vs flags s1
      have put : s1.MemWf := by
        refine (touchElems_same ..).memWf ?_
        split
        · exact memWf_putMarked hs
        · exact memWf_putElems hs
      exact (accessDone_same ..).memWf ((noteLicence_same ..).memWf put)
  · extract_lets s1
    have stored : s1.MemWf := by
      unfold s1
      split
      · exact memWf_spadWrite hs
      · exact (noteEgress_same ..).memWf (memWf_memWriteBy hs)
    refine (accessDone_same ..).memWf ?_
    split
    · exact stored.same (by simp [SameMem])
    · exact stored
  · exact hs

theorem memWf_execSlotJoin {id : Nat} {s : State} (hs : s.MemWf) : (execSlotJoin id s).All State.MemWf := by
  unfold execSlotJoin
  split
  · exact hs
  split
  · split
    · exact hs
    · exact (accessDone_same ..).memWf ((noteLicence_same ..).memWf (memWf_fillSlot (hs.same (by simp [SameMem]))))
  · exact hs

/-! ### Element words (chapter 07) -/

theorem memWf_element {h : Hdr} {ed : EOp} {srcs : List EOp} {lat : Nat} {f : List Elem → Elem} {s : State}
    (hs : s.MemWf) : (element h ed srcs lat f s).All State.MemWf := memWf_issue hs (.memWf hs (by simp))

theorem memWf_execFop {h : Hdr} {fn : FopFn} {ed ea eb : EOp} {s : State} (hs : s.MemWf) :
    (execFop h fn ed ea eb s).All State.MemWf := memWf_element hs

theorem memWf_execFma {h : Hdr} {c : Addend} {ed ea eb : EOp} {s : State} (hs : s.MemWf) :
    (execFma h c ed ea eb s).All State.MemWf := memWf_element hs

theorem memWf_execFnma {h : Hdr} {c : Addend} {ed ea eb : EOp} {s : State} (hs : s.MemWf) :
    (execFnma h c ed ea eb s).All State.MemWf := memWf_element hs

theorem memWf_execFrcp {h : Hdr} {ed ea : EOp} {s : State} (hs : s.MemWf) : (execFrcp h ed ea s).All State.MemWf :=
  memWf_element hs

theorem memWf_execFrsq {h : Hdr} {ed ea : EOp} {s : State} (hs : s.MemWf) : (execFrsq h ed ea s).All State.MemWf :=
  memWf_element hs

theorem memWf_execFrfr {h : Hdr} {ed ea eb : EOp} {s : State} (hs : s.MemWf) :
    (execFrfr h ed ea eb s).All State.MemWf := memWf_element hs

theorem memWf_execFrfs {h : Hdr} {ed ea eb : EOp} {s : State} (hs : s.MemWf) :
    (execFrfs h ed ea eb s).All State.MemWf := memWf_element hs

theorem memWf_execIop {h : Hdr} {fn : IopFn} {ed ea eb : EOp} {s : State} (hs : s.MemWf) :
    (execIop h fn ed ea eb s).All State.MemWf := memWf_element hs

theorem memWf_execEli {h : Hdr} {ed : EOp} {imm : BitVec 18} {s : State} (hs : s.MemWf) :
    (execEli h ed imm s).All State.MemWf := memWf_element hs

theorem memWf_execElih {h : Hdr} {ed : Fin 768} {imm : BitVec 14} {s : State} (hs : s.MemWf) :
    (execElih h ed imm s).All State.MemWf := memWf_element hs

theorem memWf_execEmov {h : Hdr} {ed ea : EOp} {s : State} (hs : s.MemWf) : (execEmov h ed ea s).All State.MemWf :=
  memWf_element hs

theorem memWf_execFcmp {h : Hdr} {cc : FcmpCc} {pd : BitVec 4} {ea eb : EOp} {s : State} (hs : s.MemWf) :
    (execFcmp h cc pd ea eb s).All State.MemWf := memWf_issue hs (.memWf hs (by simp))

theorem memWf_execIcmp {h : Hdr} {cc : CmpCc} {pd : BitVec 4} {ea eb : EOp} {s : State} (hs : s.MemWf) :
    (execIcmp h cc pd ea eb s).All State.MemWf := memWf_issue hs (.memWf hs (by simp))

theorem memWf_execFcvt {h : Hdr} {dst src : Fmt} {r : Rnd} {ed ea : EOp} {s : State} (hs : s.MemWf) :
    (execFcvt h dst src r ed ea s).All State.MemWf := by
  refine memWf_issue hs ?_
  split
  · exact .memWf hs (by simp [SameMem])
  split
  · exact .memWf hs (by simp)
  · next _ h => exact .memWf (hs.same (sources_same h)) (by simp [SameMem])

theorem memWf_execEsel {h : Hdr} {ed ea eb : EOp} {s : State} (hs : s.MemWf) :
    (execEsel h ed ea eb s).All State.MemWf := memWf_issue hs (.memWf hs (by simp))

theorem memWf_execRot {h : Hdr} {imm : BitVec 18} {s : State} (hs : s.MemWf) : (execRot h imm s).All State.MemWf :=
  memWf_issue hs (.memWf hs (by (repeat' split) <;> simp [SameMem]))

theorem memWf_execLbr {h : Hdr} {n : BitVec 3} {off : BitVec 18} {s : State} (hs : s.MemWf) :
    (execLbr h n off s).All State.MemWf :=
  memWf_issue hs (.memWf hs (by dsimp only; (repeat' split) <;> simp [SameMem]))

theorem memWf_execEld {h : Hdr} {ed : EOp} {base : Option (Fin 768)} {off : BitVec 18} {s : State} (hs : s.MemWf) :
    (execEld h ed base off s).All State.MemWf := memWf_issue hs (.memWf hs (by (repeat' split) <;> simp [SameMem]))

theorem memWf_execEst {h : Hdr} {data : Fin 768} {base : Option (Fin 768)} {off : BitVec 18} {s : State}
    (hs : s.MemWf) : (execEst h data base off s).All State.MemWf := by
  refine memWf_issue hs ?_
  split
  · trivial
  · exact (touchGuards_same ..).memWf (memWf_spadWrite hs)

end Sys2Proof.Machine
end

section
/-! The canonical form of the memories through the vector words. -/

namespace Sys2Proof.Machine

/-! ### Vector-region words (chapter 08) -/

/-- What a vector word does in its chunks, at its end and before a fault keeps the canonical form. -/
structure Plan.MemWf (pl : Plan) : Prop where
  step : ∀ p lo hi s, s.MemWf → (pl.step p lo hi s).2.MemWf
  finish : ∀ p s, s.MemWf → (pl.finish p s).2.MemWf
  onFault : ∀ p s, s.MemWf → (pl.onFault p s).MemWf

theorem memWf_put {w : Win} {i v : Nat} {s : State} (hs : s.MemWf) : (w.put i v s).MemWf := memWf_putElem hs

/-- A loop that carries a value beside the state. -/
theorem memWf_foldl_snd {α β : Type} {f : β × State → α → β × State} (hf : ∀ q a, q.2.MemWf → (f q a).2.MemWf) {l : List α}
    {q : β × State} (hq : q.2.MemWf) : (l.foldl f q).2.MemWf :=
  List.foldlRecOn l f hq fun q hq a _ => hf q a hq

theorem memWf_complete {pl : Plan} {p : VProg} {s : State} (hpl : pl.MemWf) (hs : s.MemWf) :
    (complete pl p s).All State.MemWf := by
  unfold complete
  exact .memWf (hpl.finish p s hs) (by simp [SameMem])

theorem memWf_runPlan {pl : Plan} {p : VProg} {s : State} (hpl : pl.MemWf) (hs : s.MemWf) :
    (runPlan pl p s).All State.MemWf := by
  unfold runPlan
  extract_lets p endPhase hi r p1
  have ended {p t} (ht : t.MemWf) : (endPhase p t).All State.MemWf := by
    unfold endPhase
    split
    · exact .memWf ht (by simp [SameMem])
    · exact memWf_complete hpl ht
  have stepped : r.2.MemWf := hpl.step _ _ _ _ hs
  split
  · exact ended hs
  split
  · split
    · exact .memWf hs (by simp [SameMem])
    · exact (setProg_same ..).memWf (hpl.onFault _ _ hs)
  · split
    · exact .memWf stepped (by simp [SameMem])
    · exact ended stepped

theorem memWf_vectorOf {h : Hdr} {us : State → List Use} {cs : List Clash} {scal : List EOp} {ids : List Nat}
    {refuse : List Win → State → Option TrapInfo} {first : List Win → List Elem → VProg → State → VProg × State}
    {plan : List Win → State → Plan} {s : State} (hs : s.MemWf)
    (hf : ∀ ws vs p t, SameMem t (first ws vs p t).2) (hp : ∀ ws t, (plan ws t).MemWf) :
    (vectorOf h us cs scal ids refuse first plan s).All State.MemWf := by
  refine memWf_issue hs ?_
  split
  · trivial
  split
  · exact memWf_runPlan (hp _ _) hs
  split
  · trivial
  split
  · exact .memWf hs (stallResult_same ..)
  · next _ h => exact memWf_runPlan (hp _ _) (hs.same ((sources_same h).trans (hf ..)))

theorem memWf_vector {h : Hdr} {us : State → List Use} {cs : List Clash} {scal : List EOp}
    {first : List Win → List Elem → VProg → State → VProg × State} {plan : List Win → State → Plan} {s : State}
    (hs : s.MemWf) (hf : ∀ ws vs p t, SameMem t (first ws vs p t).2) (hp : ∀ ws t, (plan ws t).MemWf) :
    (vector h us cs scal first plan s).All State.MemWf := memWf_vectorOf hs hf hp

theorem memWf_mapPlan {n cycles : Nat} {ws : List Win} {d : Win} {srcs : List Win} {f : VProg → Nat → State → Nat × State}
    (hf : ∀ p i s, SameMem s (f p i s).2) :
    (mapPlan n cycles ws d srcs f).MemWf where
  step p _ _ _ hs := by
    dsimp only [mapPlan]
    exact memWf_forRange (fun i t ht => memWf_put (ht.same (hf p i t))) (hs.same (by simp [SameMem]))
  finish _ _ ht := ht
  onFault _ _ ht := ht

theorem memWf_indexedPlan {cycles : Nat} {ws : List Win} {idx table : Win} {srcs : List Win} {drop readsTable : Bool}
    {live : State → Nat → Bool} {f : Nat → Option Nat → State → State} (hf : ∀ i k s, s.MemWf → (f i k s).MemWf) :
    (indexedPlan cycles ws idx table srcs drop readsTable live f).MemWf where
  step p _ _ _ hs := by
    refine memWf_forRange (fun i t ht => ?_) (hs.same (by simp [SameMem]))
    split
    · refine hf _ _ _ ?_
      split
      · exact ht.same (by simp [SameMem])
      · exact ht
    · exact ht
  finish _ _ ht := ht
  onFault _ _ ht := ht

theorem memWf_execVop {h : Hdr} {fn : VecOp} {r : Rnd} {wd wa wb : BitVec 5} {s : State} (hs : s.MemWf) :
    (execVop h fn r wd wa wb s).All State.MemWf :=
  memWf_vector hs (by simp [SameMem]) fun _ _ => memWf_mapPlan (by simp [SameMem])

theorem memWf_execVfma {h : Hdr} {neg : Bool} {sc : Option EOp} {r : Rnd} {wd wa wb : BitVec 5} {s : State}
    (hs : s.MemWf) : (execVfma h neg sc r wd wa wb s).All State.MemWf :=
  memWf_vector hs (by simp [SameMem]) fun _ _ => memWf_mapPlan (by simp [SameMem])

theorem memWf_execVsc {h : Hdr} {fn : VecOp} {r : Rnd} {wd wa : BitVec 5} {ea : EOp} {s : State} (hs : s.MemWf) :
    (execVsc h fn r wd wa ea s).All State.MemWf :=
  memWf_vector hs (by simp [SameMem]) fun _ _ => memWf_mapPlan (by simp [SameMem])

theorem memWf_execVun {h : Hdr} {fn : VunFn} {r : Rnd} {wd wa : BitVec 5} {s : State} (hs : s.MemWf) :
    (execVun h fn r wd wa s).All State.MemWf :=
  memWf_vector hs (by simp [SameMem]) fun _ _ => memWf_mapPlan (by intros; (repeat' split) <;> simp [SameMem])

theorem memWf_execVcvt {h : Hdr} {r : Rnd} {wd wa : BitVec 5} {s : State} (hs : s.MemWf) :
    (execVcvt h r wd wa s).All State.MemWf :=
  memWf_vector hs (by simp [SameMem]) fun _ _ => memWf_mapPlan (by simp [SameMem])

theorem memWf_execVfill {h : Hdr} {r : Rnd} {wd : BitVec 5} {ea : EOp} {s : State} (hs : s.MemWf) :
    (execVfill h r wd ea s).All State.MemWf :=
  memWf_vector hs (by simp [SameMem]) fun _ _ => memWf_mapPlan (by simp [SameMem])

theorem memWf_execVred {h : Hdr} {fn : VredFn} {idx : Bool} {wa : BitVec 5} {ea : Fin 768} {s : State}
    (hs : s.MemWf) : (execVred h fn idx wa ea s).All State.MemWf :=
  memWf_vector hs (by simp [SameMem]) fun _ _ => ⟨fun _ _ _ _ ht => ht.same (by simp [SameMem]), fun _ _ ht => ht, fun
    _ _ ht => ht⟩

theorem memWf_execVscan {h : Hdr} {exc : Bool} {r : Rnd} {wd wa : BitVec 5} {s : State} (hs : s.MemWf) :
    (execVscan h exc r wd wa s).All State.MemWf :=
  memWf_vector hs (by simp [SameMem]) fun _ _ =>
    ⟨fun _ _ _ _ ht => memWf_foldl_snd (fun _ _ hq => memWf_put (hq.same (by simp [SameMem]))) (ht.same
      (by simp [SameMem])), fun _ _ ht => ht, fun _ _ ht => ht⟩

theorem memWf_execVcmp {h : Hdr} {cc : VcmpCc} {sc : Option EOp} {wd wa wb : BitVec 5} {s : State} (hs : s.MemWf) :
    (execVcmp h cc sc wd wa wb s).All State.MemWf :=
  memWf_vector hs (by simp [SameMem]) fun _ _ => memWf_mapPlan (by simp [SameMem])

theorem memWf_execVsel {h : Hdr} {wd wa wb wm : BitVec 5} {s : State} (hs : s.MemWf) :
    (execVsel h wd wa wb wm s).All State.MemWf :=
  memWf_vector hs (by simp [SameMem]) fun _ _ => memWf_mapPlan (by simp [SameMem])

theorem memWf_execVcpr {h : Hdr} {wd wa wm : BitVec 5} {ea : Fin 768} {s : State} (hs : s.MemWf) :
    (execVcpr h wd wa wm ea s).All State.MemWf := by
  refine memWf_vector hs (by simp [SameMem]) fun _ _ => ⟨fun _ _ _ _ ht => memWf_foldl_snd (fun _ _ hq => ?_) (ht.same
    (by simp [SameMem])), fun _ _ ht => ht, fun _ _ ht => ht⟩
  dsimp only
  split
  · exact memWf_put (hq.same (by simp [SameMem]))
  · exact hq

theorem memWf_execVxpd {h : Hdr} {wd wa wm : BitVec 5} {ea : Fin 768} {s : State} (hs : s.MemWf) :
    (execVxpd h wd wa wm ea s).All State.MemWf :=
  memWf_vector hs (by simp [SameMem]) fun _ _ => ⟨fun _ _ _ _ ht => memWf_foldl (fun _ _ hu => memWf_put (hu.same
    (by simp [SameMem]))) (ht.same (by simp [SameMem])), fun _ _ ht => ht, fun _ _ ht => ht⟩

theorem memWf_execVgat {h : Hdr} {z : Bool} {wd wa wb : BitVec 5} {s : State} (hs : s.MemWf) :
    (execVgat h z wd wa wb s).All State.MemWf :=
  memWf_vector hs (by simp [SameMem]) fun _ _ => memWf_indexedPlan fun _ _ _ ht => memWf_put (ht.same
    (by simp [SameMem]))

theorem memWf_execVsct {h : Hdr} {drop : Bool} {wd wa wb : BitVec 5} {s : State} (hs : s.MemWf) :
    (execVsct h drop wd wa wb s).All State.MemWf := by
  refine memWf_vector hs (by simp [SameMem]) fun _ _ => memWf_indexedPlan fun _ _ _ ht => ?_
  split
  · exact memWf_put ht
  · exact ht

theorem memWf_execVsca {h : Hdr} {drop : Bool} {wd wa wb : BitVec 5} {s : State} (hs : s.MemWf) :
    (execVsca h drop wd wa wb s).All State.MemWf := by
  refine memWf_vector hs (by simp [SameMem]) fun _ _ => memWf_indexedPlan fun _ _ _ ht => ?_
  split
  · exact memWf_put ht
  · exact ht

theorem memWf_bitPut {v : Bool} {valid drop : Bool} {h : Hdr} {wd wa wb : BitVec 5} {s : State} (hs : s.MemWf) :
    (bitPut v valid drop h wd wa wb s).All State.MemWf := by
  refine memWf_vector hs (by simp [SameMem]) fun _ _ => memWf_indexedPlan fun _ _ _ ht => ?_
  split
  · exact memWf_put ht
  · exact ht

theorem memWf_bitTest {drop : Bool} {h : Hdr} {wd wa wb : BitVec 5} {s : State} (hs : s.MemWf) :
    (bitTest drop h wd wa wb s).All State.MemWf :=
  memWf_vector hs (by simp [SameMem]) fun _ _ => memWf_indexedPlan fun _ _ _ ht => memWf_put (ht.same
    (by simp [SameMem]))

theorem memWf_bitCount {h : Hdr} {wa : BitVec 5} {ea : Fin 768} {s : State} (hs : s.MemWf) :
    (bitCount h wa ea s).All State.MemWf :=
  memWf_vector hs (by simp [SameMem]) fun _ _ => ⟨fun _ _ _ _ ht => ht.same (by simp [SameMem]), fun _ _ ht => ht, fun
    _ _ ht => ht⟩

theorem memWf_execVbit {h : Hdr} {fn : VbitFn} {valid drop : Bool} {wd wa wb : BitVec 5} {ea : Fin 768} {s : State}
    (hs : s.MemWf) : (execVbit h fn valid drop wd wa wb ea s).All State.MemWf := by
  cases fn with
  | set => exact memWf_bitPut hs
  | clr => exact memWf_bitPut hs
  | tst => exact memWf_bitTest hs
  | cnt => exact memWf_bitCount hs

theorem memWf_execVrnd {h : Hdr} {unif : Bool} {wd : BitVec 5} {s : State} (hs : s.MemWf) :
    (execVrnd h unif wd s).All State.MemWf :=
  memWf_vector hs (by simp [SameMem]) fun _ _ => memWf_mapPlan (by intros; (repeat' split) <;> simp [SameMem])

theorem memWf_putList {d : Win} {i : Nat} {vs : List Nat} {s : State} (hs : s.MemWf) : (putList d i vs s).MemWf :=
  memWf_foldl_snd (fun _ _ hq => memWf_put hq) hs

theorem memWf_execVhad {h : Hdr} {inv : Bool} {k : BitVec 4} {wd wa : BitVec 5} {ea : Fin 768} {s : State}
    (hs : s.MemWf) : (execVhad h inv k wd wa ea s).All State.MemWf := by
  unfold execVhad
  refine memWf_vectorOf hs (by simp [SameMem]) fun _ _ => ⟨fun _ _ _ _ ht => ?_, fun _ _ ht => ht, fun _ _ ht => ht⟩
  dsimp only
  exact memWf_putList (ht.same (by simp [SameMem]))

theorem memWf_execVqnt {h : Hdr} {mode : RMode} {wd wa wb : BitVec 5} {s : State} (hs : s.MemWf) :
    (execVqnt h mode wd wa wb s).All State.MemWf := by
  refine memWf_vector hs (by simp [SameMem]) fun _ _ => ⟨fun _ _ _ _ ht => ?_, fun _ _ ht => ht, fun _ _ ht => ht⟩
  dsimp only
  refine memWf_foldl_snd (fun q _ hq => memWf_put ?_) ?_
  · split
    · exact hq
    · split
      · exact hq.same (by simp [SameMem])
      · exact hq
  · exact memWf_put (ht.same (by simp [SameMem]))

theorem memWf_execVdqt {h : Hdr} {r : Rnd} {wd wa wb : BitVec 5} {s : State} (hs : s.MemWf) :
    (execVdqt h r wd wa wb s).All State.MemWf := by
  refine memWf_vector hs (by simp [SameMem]) fun _ _ => ⟨fun _ _ _ _ ht => ?_, fun _ _ ht => ht, fun _ _ ht => ht⟩
  dsimp only
  refine memWf_forRange (fun _ _ hu => memWf_put (hu.same (by simp [SameMem]))) ?_
  exact (foldl_same _ (fun _ _ => Win.touch_same ..) _ _).memWf (ht.same (by simp [SameMem]))

theorem memWf_execVmov {h : Hdr} {wd wa : BitVec 5} {s : State} (hs : s.MemWf) :
    (execVmov h wd wa s).All State.MemWf := by
  refine memWf_vector hs (by simp [SameMem]) fun _ _ => ⟨fun _ _ _ t ht => ?_, fun _ _ ht => ht, fun _ _ ht => ht⟩
  have moved {lo hi ws} {d a : Win} : (forRange lo hi (fun i s => d.put i (a.get s i) s) (touchAll ws lo hi t)).MemWf :=
    memWf_forRange (fun _ _ hu => memWf_put hu) (ht.same (by simp [SameMem]))
  dsimp only
  split
  · exact (takeHeadland_same ..).memWf moved
  · exact moved

theorem memWf_execWset {h : Hdr} {fn : WsetFn} {wd : BitVec 5} {ea : EOp} {s : State} (hs : s.MemWf) :
    (execWset h fn wd ea s).All State.MemWf := by
  unfold execWset
  split
  · exact memWf_issue hs (.memWf hs (by (repeat' split) <;> simp [SameMem]))
  · refine memWf_issue hs ?_
    split
    · exact .memWf hs (stallResult_same ..)
    · next _ h => exact .memWf (hs.same (sources_same h)) (by simp [SameMem])

theorem memWf_execWget {h : Hdr} {rowf : Bool} {wa : BitVec 5} {ea : Fin 768} {s : State} (hs : s.MemWf) :
    (execWget h rowf wa ea s).All State.MemWf := memWf_issue hs (.memWf hs (by (repeat' split) <;> simp [SameMem]))

theorem memWf_execVtopk {h : Hdr} {wd wa wb : BitVec 5} {ea : Fin 768} {s : State} (hs : s.MemWf) :
    (execVtopk h wd wa wb ea s).All State.MemWf := by
  refine memWf_vectorOf hs (by simp [SameMem]) fun _ _ => ⟨fun _ _ _ _ ht => ht.same (by simp [SameMem]), fun _ t ht
    => ?_, fun _ _ ht => ht⟩
  have listed {q d : Win} {vs us ws} : (putList q 0 vs (putList d 0 us (touchAll ws 0 64 t))).MemWf :=
    memWf_putList (memWf_putList (ht.same (by simp [SameMem])))
  dsimp only
  split
  · split
    · exact ht
    · exact listed
  · refine (setRowFlag_same ..).memWf ?_
    split
    · exact ht
    · exact listed

theorem memWf_execVsoft {h : Hdr} {wd wa : BitVec 5} {s : State} (hs : s.MemWf) :
    (execVsoft h wd wa s).All State.MemWf := by
  refine memWf_vector hs (by simp [SameMem]) fun _ _ => ⟨fun _ _ _ _ ht => ?_, fun _ _ ht => ht, fun _ _ ht => ht⟩
  dsimp only
  split
  · split
    · exact ht.same (by simp [SameMem])
    · exact ht.same (by simp [SameMem])
  · exact ht.same (by simp [SameMem])
  · dsimp only
    exact memWf_forRange (fun _ _ hu => memWf_put hu) (ht.same (by simp [SameMem]))

theorem memWf_execVsamp {h : Hdr} {res : Bool} {wa wb : BitVec 5} {ea : Fin 768} {s : State} (hs : s.MemWf) :
    (execVsamp h res wa wb ea s).All State.MemWf := by
  refine memWf_vectorOf hs (by simp [SameMem]) fun _ _ => ⟨fun _ _ _ _ ht => ?_, fun _ _ ht => ht, fun _ _ ht => ht⟩
  dsimp only [sampPlan]
  exact ht.same (by simp [SameMem])

end Sys2Proof.Machine
end

section
/-! The canonical form of the memories through the headland and matrix words. -/

namespace Sys2Proof.Machine

/-! ### Headland words (chapter 10) -/

theorem memWf_occupy {n : Nat} {l : List (Fin 768 × Elem)} {s : State} (hs : s.MemWf) : (occupy n l s).All State.MemWf :=
  .memWf hs (by simp)

theorem memWf_hgenPlan (ws : List Win) : (hgenPlan ws).MemWf where
  step _ _ _ _ hs := by
    dsimp only [hgenPlan]
    exact hs.same (by simp [SameMem])
  finish _ _ ht := ht
  onFault _ _ ht := ht

theorem memWf_execHgen {h : Hdr} {wa ws : BitVec 5} {s : State} (hs : s.MemWf) :
    (execHgen h wa ws s).All State.MemWf := by
  refine memWf_issue hs ?_
  extract_lets v
  split
  · trivial
  split
  · trivial
  split
  · trivial
  split
  · exact memWf_runPlan (memWf_hgenPlan _) hs
  · exact memWf_runPlan (memWf_hgenPlan _) (hs.same (hgenFirst_same ..))

theorem memWf_execHgenRel {h : Hdr} {wa : BitVec 5} {s : State} (hs : s.MemWf) :
    (execHgenRel h wa s).All State.MemWf := by
  refine memWf_issue hs ?_
  split
  · trivial
  · exact memWf_occupy hs

theorem memWf_checkAt {ts : Tiles} {ro : Bool} {i : Nat} {s : State} (hs : s.MemWf) : (checkAt ts ro i s).2.1.MemWf := by
  unfold checkAt
  split
  · exact hs
  · exact memWf_checkTile (hs.same (by simp [SameMem]))

theorem memWf_checkEvery {ts : Tiles} {ro : Bool} {k i : Nat} {s : State} (hs : s.MemWf) :
    (checkEvery ts ro k i s).2.1.MemWf := by
  induction k generalizing i s with
  | zero => exact hs
  | succ k ih =>
    unfold checkEvery
    dsimp only
    split
    · exact memWf_checkAt hs
    · exact ih (memWf_checkAt hs)

theorem memWf_hchkPlan (ts : Tiles) (ro : Bool) (ea : Fin 768) : (hchkPlan ts ro ea).MemWf where
  step _ _ _ _ hs := memWf_checkAt hs
  finish _ _ ht := ht
  onFault _ _ ht := ht

theorem memWf_checkChunks {ro : Bool} {t : HTarget} {ea : Fin 768} {s : State} (hs : s.MemWf) :
    (checkChunks ro t ea s).All State.MemWf := by
  unfold checkChunks
  split
  · split
    · trivial
    · exact memWf_runPlan (memWf_hchkPlan ..) hs
  · split
    · trivial
    · exact memWf_runPlan (memWf_hchkPlan ..) hs

theorem memWf_checkStream {ro : Bool} {t : HTarget} {s : State} (hs : s.MemWf) :
    (checkStream ro t s).All State.MemWf := by
  unfold checkStream
  split
  · trivial
  split
  · exact .memWf hs (by simp [SameMem])
  · next ts _ _ =>
    have checked : (checkEvery ts ro ts.count 0 s).2.1.MemWf := memWf_checkEvery hs
    dsimp only
    split
    · exact checked
    · exact .memWf checked (by simp [SameMem])

theorem memWf_execHchk {h : Hdr} {ro : Bool} {t : HTarget} {ea : Option (Fin 768)} {s : State} (hs : s.MemWf) :
    (execHchk h ro t ea s).All State.MemWf := by
  refine memWf_issue hs ?_
  cases ea with
  | none => exact memWf_checkStream hs
  | some e => exact memWf_checkChunks hs

theorem memWf_execHfix {h : Hdr} {corr : Bool} {t : HTarget} {ea : Fin 768} {s : State} (hs : s.MemWf) :
    (execHfix h corr t ea s).All State.MemWf := by
  refine memWf_issue hs ?_
  split
  · trivial
  · exact memWf_occupy (memWf_checkTile (hs.same (by simp [SameMem])))

theorem memWf_execHrd {h : Hdr} {t : HTarget} {ea : Fin 768} {s : State} (hs : s.MemWf) :
    (execHrd h t ea s).All State.MemWf := memWf_issue hs (.memWf hs (by dsimp only; (repeat' split) <;> simp))

theorem memWf_execHtol {h : Hdr} {ea : EOp} {s : State} (hs : s.MemWf) : (execHtol h ea s).All State.MemWf := by
  refine memWf_issue hs ?_
  split
  · exact .memWf hs (stallResult_same ..)
  · next s1 h =>
    have h1 : s1.MemWf := hs.same (sources_same h)
    exact memWf_occupy h1

theorem memWf_updTile {d a : Win} {r : HRec} {s : State} (hs : s.MemWf) : (updTile d a r s).MemWf := by
  unfold updTile
  extract_lets es s1
  have put : s1.MemWf := memWf_foldl (fun _ _ ht => memWf_put ht) hs
  exact put

theorem memWf_hupdPlan (s0 : State) (d a : Win) : (hupdPlan s0 d a).MemWf where
  step p lo hi s hs := by
    dsimp only [hupdPlan]
    split
    · exact memWf_updTile ((foldl_same _ (fun _ _ => touchAll_same ..) _ _).memWf
        ((touchTile_same ..).memWf (memWf_checkPart hs)))
    · split
      · exact hs
      · exact memWf_foldl (fun _ _ ht => memWf_put (ht.same (by simp [SameMem]))) hs
  finish _ _ ht := ht
  onFault _ _ ht := ht

theorem memWf_execHupd {h : Hdr} {wd wa : BitVec 5} {s : State} (hs : s.MemWf) :
    (execHupd h wd wa s).All State.MemWf := by
  refine memWf_issue hs ?_
  extract_lets v us
  split
  · trivial
  extract_lets d
  split
  · trivial
  split
  · exact memWf_runPlan (memWf_hupdPlan ..) hs
  · exact memWf_runPlan (memWf_hupdPlan ..) hs

/-! ### The matrix engine (chapter 09) -/

theorem memWf_operandCheck {f : Fin 16} {pos : Nat} {acc : Nat} {tag : BitVec 11} {step : Nat} {s : State}
    (hs : s.MemWf) : (operandCheck f pos acc tag step s).1.MemWf := by
  have checked {r : HRec} : (checkTile .correct r s).2.MemWf := memWf_checkTile hs
  unfold operandCheck
  dsimp only
  split
  · exact hs
  split
  · exact hs
  · split
    · exact (mEvent_same ..).memWf checked
    · exact checked

theorem memWf_operandsCheck {tag : BitVec 11} {step : Nat} {m : MStep} {ps : List (Nat × Nat × Nat)} {s : State}
    (hs : s.MemWf) : (operandsCheck tag step m ps s).1.MemWf := by
  induction ps generalizing s with
  | nil => exact hs
  | cons p ps ih =>
    unfold operandsCheck
    dsimp only
    split
    · exact memWf_operandCheck hs
    · split
      · exact memWf_operandCheck (memWf_operandCheck hs)
      · exact ih (memWf_operandCheck (memWf_operandCheck hs))

theorem memWf_stepCheck {tag : BitVec 11} {step : Nat} {m : MStep} {s : State} (hs : s.MemWf) :
    (stepCheck tag step m s).1.MemWf := by
  unfold stepCheck
  split
  · exact hs
  · exact memWf_operandsCheck hs

theorem memWf_redo {k : Kept} {s : State} (hs : s.MemWf) : (redo k s).MemWf := by
  unfold redo
  split
  · exact hs.same (by simp [SameMem])
  · exact hs.same (by simp [SameMem])
  · next m tag n =>
    have checked : (stepCheck tag n m s).1.MemWf := memWf_stepCheck hs
    dsimp only
    split
    · exact checked.same (by simp [SameMem])
    · exact checked.same (by simp [SameMem])

theorem memWf_recover {also : List Nat} {s : State} (hs : s.MemWf) : (recover also s).MemWf :=
  memWf_foldl (fun _ _ ht => memWf_redo ht) (hs.same (by simp [SameMem]))

theorem memWf_runStep {tag : BitVec 11} {step : Nat} {m : MStep} {s : State} (hs : s.MemWf) :
    (runStep tag step m s).MemWf := by
  have checked {t : State} (ht : t.MemWf) : (stepCheck tag step m t).1.MemWf := memWf_stepCheck ht
  have again : (stepCheck tag step m (recover (mAccs m) (stepCheck tag step m s).1)).1.MemWf :=
    checked (memWf_recover (checked hs))
  unfold runStep
  dsimp only
  split
  · exact (checked hs).same (by simp [SameMem])
  split
  · exact again.same (by simp [SameMem])
  · exact again.same (by simp [SameMem])

theorem memWf_markerCheck {tag : BitVec 11} {also : List Nat} {s : State} (hs : s.MemWf) :
    (markerCheck tag also s).MemWf := by
  have fixed {w : List Nat} {t : State} (ht : t.MemWf) : (accsFix w t).2.MemWf := ht.same (by simp [SameMem])
  unfold markerCheck
  extract_lets w a b
  split
  · exact fixed hs
  have again : b.2.MemWf := fixed (memWf_recover (fixed hs))
  split
  · exact again.same (by simp [SameMem])
  · exact again.same (by simp [SameMem])

theorem memWf_marker {tag : BitVec 11} {also : List Nat} {s : State} (hs : s.MemWf) : (marker tag also s).MemWf := by
  have checked : (markerCheck tag also s).MemWf := memWf_markerCheck hs
  unfold marker
  extract_lets s1 s2 pops s3
  have copied : s2.MemWf := (modMx_same ..).memWf checked
  exact (modMx_same ..).memWf ((foldl_same _ (fun _ _ => retire_same ..) _ _).memWf ((modMx_same ..).memWf copied))

theorem memWf_execMarker {s : State} (hs : s.MemWf) : (execMarker s).All State.MemWf := by
  unfold execMarker
  split
  · exact hs
  split
  · exact hs
  split
  · exact (putCmd_same ..).memWf (memWf_marker hs)
  · exact (dropCmd_same ..).memWf (memWf_marker hs)
  · exact (dropCmd_same ..).memWf (memWf_marker hs)

theorem memWf_nestRun {k : Nat} {c : MCmd} {n : Nest} {s : State} (hs : s.MemWf) : (nestRun k c n s).MemWf := by
  unfold nestRun
  extract_lets m fresh s1 t last n1
  have zeroed : s1.MemWf := by
    unfold s1
    split
    · exact hs
    · exact hs.same (by simp [SameMem])
  exact (putCmd_same ..).memWf (memWf_runStep zeroed)

theorem memWf_execMatrixStep {s : State} (hs : s.MemWf) : (execMatrixStep s).All State.MemWf := by
  unfold execMatrixStep
  split
  · exact .memWf hs (by simp [SameMem])
  split
  · exact hs
  split
  · split
    · exact .memWf hs (by simp [SameMem])
    · exact memWf_nestRun hs
  all_goals exact .memWf hs (by simp [SameMem])

theorem memWf_drainCheck {a : Nat} {tag : BitVec 11} {s : State} (hs : s.MemWf) : (drainCheck a tag s).MemWf := by
  have again : (recover [a] s).MemWf := memWf_recover hs
  unfold drainCheck
  dsimp only
  split
  · exact hs
  split
  · exact again.same (by simp [SameMem])
  · exact again.same (by simp [SameMem])

theorem memWf_execDrain {s : State} (hs : s.MemWf) : (execDrain s).All State.MemWf := by
  unfold execDrain
  split
  · exact hs
  split
  · extract_lets s0 v slot src b s1 s2
    have filled : s1.MemWf :=
      memWf_fillSlot ((reserveSlot_same ..).memWf ((drainBytes_same ..).memWf (memWf_drainCheck hs)))
    have dropped : s2.MemWf := (dropCmd_same ..).memWf filled
    split
    · split
      · exact (mEvent_same ..).memWf dropped
      · exact dropped
    · exact (putCmd_same ..).memWf filled
  · exact .memWf hs (by simp [SameMem])
  · exact hs

theorem memWf_execMtw {h : Hdr} {lvl : Fin 6} {a : BitVec 6} {role : Role} {s : State} (hs : s.MemWf) :
    (execMtw h lvl a role s).All State.MemWf := memWf_issue hs (.memWf hs (by simp))

theorem memWf_execMtr {h : Hdr} {role : Bool} {d : BitVec 6} {lvl : Fin 6} {s : State} (hs : s.MemWf) :
    (execMtr h role d lvl s).All State.MemWf := memWf_issue hs (.memWf hs (by simp [SameMem]))

theorem memWf_execMcfg {h : Hdr} {mode : Fusion} {r : Rnd} {s : State} (hs : s.MemWf) :
    (execMcfg h mode r s).All State.MemWf := memWf_issue hs (.memWf hs (by simp))

theorem memWf_execMfmt {h : Hdr} {a : BitVec 6} {s : State} (hs : s.MemWf) : (execMfmt h a s).All State.MemWf :=
  memWf_issue hs (.memWf hs (by simp))

theorem memWf_execMgo {h : Hdr} {a : BitVec 6} {ev : Bool} {tag : BitVec 11} {s : State} (hs : s.MemWf) :
    (execMgo h a ev tag s).All State.MemWf :=
  memWf_issue hs (.memWf hs (by dsimp only; (repeat' split) <;> simp))

theorem memWf_execMtile {h : Hdr} {a : BitVec 6} {ev : Bool} {tag : BitVec 11} {s : State} (hs : s.MemWf) :
    (execMtile h a ev tag s).All State.MemWf :=
  memWf_issue hs (.memWf hs (by dsimp only; (repeat' split) <;> simp))

theorem memWf_execMwait {h : Hdr} {s : State} (hs : s.MemWf) : (execMwait h s).All State.MemWf :=
  memWf_issue hs (.memWf hs (by (repeat' split) <;> simp [SameMem]))

theorem memWf_execMzero {h : Hdr} {a : BitVec 6} {s : State} (hs : s.MemWf) : (execMzero h a s).All State.MemWf :=
  memWf_issue hs (.memWf hs (by dsimp only; (repeat' split) <;> simp))

theorem memWf_execMdrain {h : Hdr} {f : BitVec 4} {a : BitVec 6} {ev : Bool} {tag : BitVec 11} {s : State}
    (hs : s.MemWf) : (execMdrain h f a ev tag s).All State.MemWf :=
  memWf_issue hs (.memWf hs (by dsimp only; (repeat' split) <;> simp))

theorem memWf_execMtsm {h : Hdr} {s : State} (hs : s.MemWf) : (execMtsm h s).All State.MemWf :=
  memWf_issue hs (.memWf hs (by simp))

theorem memWf_execFset {h : Hdr} {f : BitVec 4} {a : BitVec 6} {s : State} (hs : s.MemWf) :
    (execFset h f a s).All State.MemWf := memWf_issue hs (.memWf hs (by dsimp only; (repeat' split) <;> simp))

theorem memWf_execFget {h : Hdr} {state : Bool} {d : BitVec 6} {f : BitVec 4} {s : State} (hs : s.MemWf) :
    (execFget h state d f s).All State.MemWf := memWf_issue hs (.memWf hs (by simp [SameMem]))

theorem memWf_execFdrop {h : Hdr} {f : BitVec 4} {a : BitVec 6} {s : State} (hs : s.MemWf) :
    (execFdrop h f a s).All State.MemWf :=
  memWf_issue hs (.memWf hs (by dsimp only; (repeat' split) <;> simp))

end Sys2Proof.Machine
end

section
/-! The canonical form of the memories through the map composition, copy and fabric units. -/

namespace Sys2Proof.Machine

/-! ### Map composition (chapter 11) -/

theorem McUnit.All.memWf {s : State} {u : McUnit} (hs : s.MemWf) (h : u.All (SameMem s)) : u.All State.MemWf :=
  h.mono fun _ same => hs.same same

@[simp] theorem maskTlb_same (cfg : McCfg) (c : McCmd) (state t k : Nat) (s : State) :
    SameMem s (maskTlb cfg c state t k s) := by
  unfold maskTlb
  split
  · split
    · simp [SameMem]
    · exact mcTlb_same ..
  · exact foldl_same _ (fun _ _ => mcTlb_same ..) _ _

theorem memWf_storeGlobal {c : McCmd} {slot : Nat} {va : Word} {bytes : List Byte} {cycles : Nat} {s : State}
    (hs : s.MemWf) : (storeGlobal c slot va bytes cycles s).All State.MemWf := by
  unfold storeGlobal
  extract_lets done at_ r bs ctx
  split
  · exact hs
  extract_lets n put s1 s2
  split
  · exact hs.same (by simp [SameMem])
  have written : s1.MemWf := by
    unfold s1
    split
    · exact hs
    · exact (egressOf_same ..).memWf (memWf_memWriteBy (hs.same (by simp [SameMem])))
  have settled : s2.MemWf := (egressDone_same ..).memWf written
  split
  · exact settled
  · exact settled

theorem memWf_maskUnit {cfg : McCfg} {c : McCmd} {state addr : Nat} {s : State} (hs : s.MemWf) :
    (maskUnit cfg c state addr s).All State.MemWf := by
  unfold maskUnit
  extract_lets t k r whole off bs s0 s1 lat
  have masked : s0.MemWf := (maskTlb_same ..).memWf hs
  have written : s1.MemWf := by
    unfold s1
    split
    · exact memWf_spadWrite masked
    · exact masked
  split
  · exact written
  · exact written

theorem memWf_mcUnit {c : McCmd} {s : State} (hs : s.MemWf) : (mcUnit c s).All State.MemWf := by
  unfold mcUnit
  split
  · exact hs.same (by simp [SameMem])
  · exact hs
  · exact hs
  · exact .memWf hs (loadMap_same ..)
  · exact .memWf hs (loadMap_same ..)
  · exact .memWf hs (listUnit_same ..)
  · split
    · exact hs
    · next s1 h =>
      have h1 : s1.MemWf := hs.same (mcSource_same h)
      dsimp only
      split
      · exact memWf_storeGlobal h1
      · show State.MemWf _
        split
        · exact memWf_spadWrite h1
        · exact h1
  · next d a b cfg _ _ =>
    have composed := McUnit.All.memWf hs (composeUnit_same cfg c d a (some b) [d] { c with spent := true } s)
    split
    · next h =>
      rw [h] at composed
      exact composed
    · exact composed
  · exact .memWf hs (treeUnit_same ..)
  · exact memWf_maskUnit hs
  · exact .memWf hs (readSlot_same _ _ _ _ fun _ _ => ⟨rfl, rfl, rfl, rfl, rfl, rfl, rfl, rfl⟩)
  · dsimp only
    split
    · exact hs
    · exact hs.same (by simp [SameMem])
  · exact .memWf hs (readSlot_same _ _ _ _ fun _ _ => ⟨rfl, rfl, rfl, rfl, rfl, rfl, rfl, rfl⟩)

theorem memWf_mcStep {c : McCmd} {s : State} (hs : s.MemWf) : (mcStep c s).All State.MemWf := by
  unfold mcStep
  split
  · split
    · exact hs
    · exact memWf_mcUnit hs
  · exact memWf_mcUnit hs

theorem memWf_execMceCommand {s : State} (hs : s.MemWf) : (execMceCommand s).All State.MemWf := by
  unfold execMceCommand
  split
  · exact hs
  next c _ _ =>
  have stepped := memWf_mcStep (c := c) hs
  split
  · exact hs
  split
  · exact .memWf hs (by simp [SameMem])
  split
  · exact .memWf hs (by simp [SameMem])
  split
  · next h =>
    rw [h] at stepped
    exact (mcHead_same ..).memWf stepped
  · next h =>
    rw [h] at stepped
    exact (mcEvent_same ..).memWf ((mcHead_same ..).memWf ((dropSlots_same ..).memWf ((modMc_same ..).memWf stepped)))
  · next h =>
    rw [h] at stepped
    refine (mcHead_same ..).memWf ?_
    split
    · exact (addReply_same ..).memWf stepped
    · exact stepped
  · next h =>
    rw [h] at stepped
    exact stepped

theorem memWf_mcBody {f : McCfg → Result} {s : State} (hs : s.MemWf) (hf : ∀ c, (f c).All (SameMem s) := by
      intro c; dsimp only; (repeat' split); all_goals simp [SameMem]) : (mcBody s f).All State.MemWf :=
  .memWf hs (mcBody_same s f hf)

theorem memWf_execMccfg {h : Hdr} {d a f : BitVec 6} {s : State} (hs : s.MemWf) :
    (execMccfg h d a f s).All State.MemWf :=
  memWf_issue hs (.memWf hs (by dsimp only; (repeat' split) <;> simp [SameMem]))

theorem memWf_execMccfgRst {h : Hdr} {s : State} (hs : s.MemWf) : (execMccfgRst h s).All State.MemWf := by
  refine memWf_issue hs ?_
  split
  · next h => exact .memWf (hs.same (rstGate_wait h)) (by simp [SameMem])
  · next h => exact .memWf (hs.same (rstGate_raise h)) (by simp [SameMem])
  · exact .memWf hs (by simp)

theorem memWf_execMcld {h : Hdr} {a f : BitVec 6} {ev : Bool} {tag : BitVec 11} {s : State} (hs : s.MemWf) :
    (execMcld h a f ev tag s).All State.MemWf := memWf_issue hs (memWf_mcBody hs)

theorem memWf_execMcldR {h : Hdr} {a f : BitVec 6} {ev : Bool} {tag : BitVec 11} {s : State} (hs : s.MemWf) :
    (execMcldR h a f ev tag s).All State.MemWf := memWf_issue hs (memWf_mcBody hs)

theorem memWf_execMcldL {h : Hdr} {a : BitVec 6} {ev : Bool} {tag : BitVec 11} {s : State} (hs : s.MemWf) :
    (execMcldL h a ev tag s).All State.MemWf := memWf_issue hs (memWf_mcBody hs)

theorem memWf_execMcst {h : Hdr} {glob : Bool} {a f : BitVec 6} {ev : Bool} {tag : BitVec 11} {s : State}
    (hs : s.MemWf) : (execMcst h glob a f ev tag s).All State.MemWf := memWf_issue hs (memWf_mcBody hs)

theorem memWf_execMccmp {h : Hdr} {a : BitVec 6} {ev : Bool} {tag : BitVec 11} {s : State} (hs : s.MemWf) :
    (execMccmp h a ev tag s).All State.MemWf := memWf_issue hs (memWf_mcBody hs)

theorem memWf_execMctree {h : Hdr} {a : BitVec 6} {ev : Bool} {tag : BitVec 11} {s : State} (hs : s.MemWf) :
    (execMctree h a ev tag s).All State.MemWf := memWf_issue hs (memWf_mcBody hs)

theorem memWf_execMcmsk {h : Hdr} {a f : BitVec 6} {ev : Bool} {tag : BitVec 11} {s : State} (hs : s.MemWf) :
    (execMcmsk h a f ev tag s).All State.MemWf := memWf_issue hs (memWf_mcBody hs)

theorem memWf_execMcapp {h : Hdr} {d a f : BitVec 6} {s : State} (hs : s.MemWf) :
    (execMcapp h d a f s).All State.MemWf := by
  refine memWf_issue hs ?_
  split
  · exact .memWf hs (mcAwait_same _ _ fun _ _ => appDone_same ..)
  · exact memWf_mcBody hs

theorem memWf_execMcappT {h : Hdr} {d a f : BitVec 6} {s : State} (hs : s.MemWf) :
    (execMcappT h d a f s).All State.MemWf := by
  refine memWf_issue hs ?_
  split
  · exact .memWf hs (mcAwait_same _ _ fun _ _ => appDone_same ..)
  · exact memWf_mcBody hs

theorem memWf_execMcchk {h : Hdr} {fn : McchkFn} {pd : BitVec 4} {a : BitVec 6} {s : State} (hs : s.MemWf) :
    (execMcchk h fn pd a s).All State.MemWf := by
  refine memWf_issue hs ?_
  split
  · exact .memWf hs (mcAwait_same _ _ fun _ _ => by simp [SameMem])
  · exact memWf_mcBody hs

/-! ### The copy engine and the fabric (chapter 13) -/

theorem memWf_cpWrite {firm : Bool} {p : CpPlace} {bs : List Byte} {bad : List Bool} {s : State} (hs : s.MemWf) :
    (cpWrite firm p bs bad s).MemWf := by
  unfold cpWrite
  extract_lets places marks s1
  split
  · exact (foldl_same _ (fun _ _ => spadPoison_same ..) _ _).memWf (memWf_spadWrite hs)
  · have written : s1.MemWf := (egressOf_same ..).memWf (memWf_memWriteBy hs)
    exact written

theorem memWf_stepBytes {c : CpCmd} {k : Nat} {raw : List Byte} {s : State} (hs : s.MemWf) :
    (stepBytes c k raw s).2.MemWf := by
  unfold stepBytes
  dsimp only
  split
  · exact hs.same (by simp [SameMem])
  split
  · exact hs
  · exact hs

theorem memWf_cpStep {c : CpCmd} {s : State} (hs : s.MemWf) : (cpStep c s).MemWf := by
  unfold cpStep
  dsimp only
  split
  · exact hs.same (by simp [SameMem])
  split
  · exact hs.same (by simp [SameMem])
  split
  · exact hs.same (by simp [SameMem])
  · exact (cpHead_same ..).memWf ((cpTiles_same ..).memWf ((noteLicence_same ..).memWf
      (memWf_cpWrite (memWf_stepBytes (hs.same (by simp [SameMem]))))))

theorem memWf_cpZero {c : CpCmd} {s : State} (hs : s.MemWf) : (cpZero c s).MemWf := by
  unfold cpZero
  dsimp only
  split
  · exact hs.same (by simp [SameMem])
  split
  · exact hs.same (by simp [SameMem])
  · exact (cpHead_same ..).memWf ((egressDone_same ..).memWf ((tlbUse_same ..).memWf (memWf_cpWrite hs)))

theorem memWf_cpTag {c : CpCmd} {s : State} (hs : s.MemWf) : (cpTag c s).MemWf := by
  unfold cpTag
  extract_lets at_ fields y
  split
  · exact hs.same (by simp [SameMem])
  split
  · exact hs.same (by simp [SameMem])
  split
  · exact hs.same (by simp [SameMem])
  · exact hs.same (by simp [SameMem])

theorem memWf_cpChecks {c : CpCmd} {s : State} (hs : s.MemWf) : (cpChecks c s).1.MemWf := by
  unfold cpChecks
  dsimp only
  split
  · exact hs
  · exact memWf_checkTiles hs

theorem memWf_cpBegin {c : CpCmd} {s : State} (hs : s.MemWf) : (cpBegin c s).MemWf := by
  have checked {t o} (h : cpChecks c s = (t, o)) : t.MemWf := by
    simpa only [h] using memWf_cpChecks (c := c) hs
  unfold cpBegin
  dsimp only
  split
  · exact hs.same (by simp [SameMem])
  split
  · next h => exact (cpHold_same ..).memWf (checked h)
  · next h => exact (cpHead_same ..).memWf (checked h)

theorem memWf_execCopyStep {s : State} (hs : s.MemWf) : (execCopyStep s).All State.MemWf := by
  unfold execCopyStep
  split
  · exact hs
  split
  · exact hs
  split
  · exact memWf_cpBegin hs
  split
  · split
    · exact memWf_cpZero hs
    · exact memWf_cpStep hs
  split
  · exact memWf_cpTag hs
  · exact .memWf hs (by simp [SameMem])

theorem memWf_copyIssue {two : Bool} {h : Hdr} {a : BitVec 6} {ev : Bool} {tag : BitVec 11} {s : State}
    (hs : s.MemWf) : (copyIssue two h a ev tag s).All State.MemWf := by
  refine memWf_issue hs ?_
  split
  · next h => exact .memWf hs (readBlock_error h)
  dsimp only
  split
  · trivial
  split
  · exact .memWf hs (by simp [SameMem])
  · next h _ _ _ => exact .memWf (hs.same (readBlock_same h)) (by simp [SameMem])

theorem memWf_execCpy {h : Hdr} {a : BitVec 6} {ev : Bool} {tag : BitVec 11} {s : State} (hs : s.MemWf) :
    (execCpy h a ev tag s).All State.MemWf := memWf_copyIssue hs

theorem memWf_execCpy2 {h : Hdr} {a : BitVec 6} {ev : Bool} {tag : BitVec 11} {s : State} (hs : s.MemWf) :
    (execCpy2 h a ev tag s).All State.MemWf := memWf_copyIssue hs

theorem memWf_execCpres {h : Hdr} {s : State} (hs : s.MemWf) : (execCpres h s).All State.MemWf :=
  memWf_issue hs (.memWf hs (by simp [SameMem]))

theorem memWf_execCpresDrop {h : Hdr} {s : State} (hs : s.MemWf) : (execCpresDrop h s).All State.MemWf :=
  memWf_issue hs (.memWf hs (by simp [SameMem]))

theorem memWf_execCpwait {h : Hdr} {s : State} (hs : s.MemWf) : (execCpwait h s).All State.MemWf := by
  refine memWf_issue hs (.memWf hs (awaitUnit_same _ _ _ fun _ _ => ?_))
  (repeat' split)
  all_goals simp [SameMem]

theorem memWf_fxArrive {i : Nat} {c : FxCmd} {bytes : List Byte} {s : State} (hs : s.MemWf) :
    (fxArrive i c bytes s).MemWf := by
  unfold fxArrive
  extract_lets total bs c1 put s1 s2
  have filled : s1.MemWf := by
    unfold s1
    split
    · unfold put
      split
      · exact memWf_spadWrite hs
      · exact hs
    · split
      · exact hs
      split
      · exact memWf_spadWrite hs
      · exact hs
  split
  · exact (putFx_same ..).memWf filled
  have ended : s2.MemWf := (modFx_same ..).memWf ((dropFx_same ..).memWf filled)
  split
  · exact (fxEvent_same ..).memWf ended
  · exact ended

theorem memWf_fxCheck {c : FxCmd} {s : State} (hs : s.MemWf) : (fxCheck c s).1.MemWf := by
  unfold fxCheck
  split
  · exact hs
  split
  · exact memWf_checkTiles hs
  · exact hs

theorem memWf_fxSend {i : Nat} {c : FxCmd} {n : Nat} {s : State} (hs : s.MemWf) : (fxSend i c n s).MemWf := by
  have checked {t o} (h : fxCheck c s = (t, o)) : t.MemWf := by
    simpa only [h] using memWf_fxCheck (c := c) hs
  unfold fxSend
  extract_lets k out ctx c1
  split
  · exact hs.same (by simp [SameMem])
  split
  · next s1 _ h => exact (fxHold_same ..).memWf (checked h : s1.MemWf)
  next s1 h =>
  extract_lets bytes s2 s4 s3
  have sent : s2.MemWf := (egressOf_same ..).memWf ((egressDone_same ..).memWf (checked h))
  have dropped : s4.MemWf := (dropFx_same ..).memWf sent
  have moved : s3.MemWf := by
    unfold s3
    split
    · exact (putFx_same ..).memWf sent
    split
    · exact (fxEvent_same ..).memWf dropped
    · exact dropped
  split
  · split
    · split
      · exact memWf_fxArrive moved
      · exact moved
    · exact moved
  · exact moved

theorem memWf_execFabricFrame {send : Bool} {i : Nat} {bytes : List Byte} {s : State} (hs : s.MemWf) :
    (execFabricFrame send i bytes s).All State.MemWf := by
  unfold execFabricFrame
  split
  · exact hs
  split
  · exact hs
  split
  · split
    · exact memWf_fxSend hs
    · exact hs
  split
  · exact hs
  · exact memWf_fxArrive hs

theorem memWf_fabricIssue {send red : Bool} {h : Hdr} {a : BitVec 6} {ev : Bool} {tag : BitVec 11} {s : State}
    (hs : s.MemWf) : (fabricIssue send red h a ev tag s).All State.MemWf := by
  refine memWf_issue hs ?_
  split
  · next h => exact .memWf hs (readBlock_error h)
  split
  · trivial
  split
  · exact .memWf hs (by simp [SameMem])
  · next h _ _ _ => exact .memWf (hs.same (readBlock_same h)) (by simp [SameMem])

theorem memWf_execFxs {h : Hdr} {a : BitVec 6} {ev : Bool} {tag : BitVec 11} {s : State} (hs : s.MemWf) :
    (execFxs h a ev tag s).All State.MemWf := memWf_fabricIssue hs

theorem memWf_execFxr {h : Hdr} {a : BitVec 6} {ev : Bool} {tag : BitVec 11} {s : State} (hs : s.MemWf) :
    (execFxr h a ev tag s).All State.MemWf := memWf_fabricIssue hs

theorem memWf_execFxred {h : Hdr} {a : BitVec 6} {ev : Bool} {tag : BitVec 11} {s : State} (hs : s.MemWf) :
    (execFxred h a ev tag s).All State.MemWf := memWf_fabricIssue hs

theorem memWf_execFxwait {h : Hdr} {s : State} (hs : s.MemWf) : (execFxwait h s).All State.MemWf := by
  refine memWf_issue hs (.memWf hs (awaitUnit_same _ _ _ fun _ _ => ?_))
  dsimp only
  (repeat' split)
  all_goals simp [SameMem]

theorem memWf_execTsat {h : Hdr} {a : BitVec 6} {s : State} (hs : s.MemWf) : (execTsat h a s).All State.MemWf :=
  memWf_issue hs (.memWf hs (by simp [SameMem]))

theorem memWf_execTsatWait {h : Hdr} {a : BitVec 6} {s : State} (hs : s.MemWf) :
    (execTsatWait h a s).All State.MemWf := by
  refine memWf_issue hs (.memWf hs (awaitUnit_same _ _ _ fun _ _ => ?_))
  (repeat' split)
  all_goals simp [SameMem]

end Sys2Proof.Machine
end

section
/-! The canonical form of the memories through the crypto, Tithe and KV units. -/

namespace Sys2Proof.Machine

/-! ### The crypto unit and licensed tensors (chapters 12, 13) -/

theorem memWf_crRun {op : CrOp} {s : State} (hs : s.MemWf) : (crRun op s).2.MemWf := by
  fun_cases crRun op s with
  | case1 => exact (modCr_same ..).memWf hs
  | case2 => exact (modCr_same ..).memWf hs
  | case3 => exact memWf_spadWrite hs
  | case4 => exact memWf_spadWrite hs
  | case5 => exact hs
  | case6 => exact (extendMeas_same ..).memWf hs
  | case7 => exact memWf_spadWrite hs
  | case8 => exact (tideAdd_same ..).memWf ((modCr_same ..).memWf hs)
  | case9 => exact (tideAdd_same ..).memWf hs

theorem memWf_execCryptoUnitResult {s : State} (hs : s.MemWf) : (execCryptoUnitResult s).All State.MemWf := by
  unfold execCryptoUnitResult
  split
  · exact hs
  split
  · exact hs
  · exact (addReply_same ..).memWf ((modCr_same ..).memWf (memWf_crRun hs))

theorem memWf_execHshInit {h : Hdr} {n : BitVec 2} {s : State} (hs : s.MemWf) : (execHshInit h n s).All State.MemWf :=
  memWf_issue hs (.memWf hs (by simp))

theorem memWf_execHsh {h : Hdr} {n : BitVec 2} {a : BitVec 6} {s : State} (hs : s.MemWf) :
    (execHsh h n a s).All State.MemWf := memWf_issue hs (.memWf hs (by simp))

theorem memWf_execHfin {h : Hdr} {n : BitVec 2} {d a : BitVec 6} {len : BitVec 7} {s : State} (hs : s.MemWf) :
    (execHfin h n d a len s).All State.MemWf := memWf_issue hs (.memWf hs (by simp))

theorem memWf_execSgn {h : Hdr} {a : BitVec 6} {s : State} (hs : s.MemWf) : (execSgn h a s).All State.MemWf :=
  memWf_issue hs (.memWf hs (by simp))

theorem memWf_execVfy {h : Hdr} {d a : BitVec 6} {s : State} (hs : s.MemWf) : (execVfy h d a s).All State.MemWf :=
  memWf_issue hs (.memWf hs (by simp))

theorem memWf_execMext {h : Hdr} {m : BitVec 3} {a : BitVec 6} {s : State} (hs : s.MemWf) :
    (execMext h m a s).All State.MemWf := memWf_issue hs (.memWf hs (by simp))

theorem memWf_execMextRd {h : Hdr} {m : BitVec 3} {a : BitVec 6} {s : State} (hs : s.MemWf) :
    (execMextRd h m a s).All State.MemWf := memWf_issue hs (.memWf hs (by simp))

theorem memWf_execKunw {h : Hdr} {d : BitVec 6} {slot : BitVec 6} {a : BitVec 6} {s : State} (hs : s.MemWf) :
    (execKunw h d slot a s).All State.MemWf := memWf_issue hs (.memWf hs (by simp))

theorem memWf_writeStatement {r : TitheReq} {index : Nat} {nonce : Word} {segs : List Seg} {s : State}
    (hs : s.MemWf) : (writeStatement r index nonce segs s).MemWf := by
  unfold writeStatement
  split
  · exact hs.same (by simp [SameMem])
  · exact (titheReply_same ..).memWf ((tideAdd_same ..).memWf (memWf_memWriteBy (hs.same (by simp [SameMem]))))

theorem memWf_titheNext {r : TitheReq} {rest : List TitheReq} {s : State} (hs : s.MemWf) :
    (titheNext r rest s).MemWf := by
  have taken : ({ s with tithe := rest } : State).MemWf := hs
  unfold titheNext
  split
  · exact memWf_writeStatement taken
  · exact taken.same (by simp [SameMem])

theorem memWf_execMeterStatement {s : State} (hs : s.MemWf) : (execMeterStatement s).All State.MemWf := by
  unfold execMeterStatement
  split
  · exact hs
  split
  · exact memWf_titheNext hs
  · exact hs

theorem memWf_zeroRun {off len : Nat} {s : State} (hs : s.MemWf) : (zeroRun off len s).MemWf := by
  unfold zeroRun
  split
  · exact memWf_spadWrite hs
  · exact hs

theorem memWf_scrubFurrow {f : Fin 16} {s : State} (hs : s.MemWf) : (scrubFurrow f s).MemWf :=
  memWf_zeroRun (hs.same (by simp [SameMem]))

theorem memWf_scrubRegion {r : Nat × Nat} {s : State} (hs : s.MemWf) : (scrubRegion r s).MemWf := by
  unfold scrubRegion
  split
  · exact hs
  extract_lets inside s1 s2
  have scrubbed : s2.MemWf := by
    refine memWf_foldl (fun t q ht => ?_) (memWf_zeroRun hs)
    split
    · exact memWf_spadWrite ht
    · exact ht
  exact scrubbed

theorem memWf_endBracket {i : Fin 4} {charge : Bool} {id : Option Nat} {s : State} (hs : s.MemWf) :
    (endBracket i charge id s).MemWf := by
  unfold endBracket
  extract_lets b s1
  have scrubbed : s1.MemWf :=
    memWf_foldl (fun _ _ => memWf_scrubRegion) (memWf_foldl (fun _ _ => memWf_scrubFurrow) hs)
  have closed : (setBr i Bracket.empty s1).MemWf := (setBr_same ..).memWf scrubbed
  exact closed

theorem memWf_closeBracket {i : Fin 4} {abort : Bool} {id : Nat} {s : State} (hs : s.MemWf) :
    (closeBracket i abort id s).MemWf := memWf_endBracket hs

theorem memWf_endBrackets {s : State} (hs : s.MemWf) : (endBrackets s).MemWf := by
  refine memWf_foldl (fun t i ht => ?_) hs
  split
  · exact memWf_endBracket ht
  · exact ht

theorem memWf_execThopen {h : Hdr} {b : BitVec 2} {a : BitVec 6} {s : State} (hs : s.MemWf) :
    (execThopen h b a s).All State.MemWf :=
  memWf_issue hs (.memWf hs (by dsimp only; (repeat' split) <;> simp [SameMem]))

theorem memWf_execThbind {h : Hdr} {b : BitVec 2} {f : BitVec 4} {s : State} (hs : s.MemWf) :
    (execThbind h b f s).All State.MemWf := memWf_issue hs (.memWf hs (by simp))

theorem memWf_execThbindR {h : Hdr} {b : BitVec 2} {a : BitVec 6} {s : State} (hs : s.MemWf) :
    (execThbindR h b a s).All State.MemWf := memWf_issue hs (.memWf hs (by simp))

theorem memWf_closeIssue {abort : Bool} {h : Hdr} {b : BitVec 2} {s : State} (hs : s.MemWf) :
    (closeIssue abort h b s).All State.MemWf :=
  memWf_issue hs (.memWf hs (by dsimp only; (repeat' split) <;> simp [SameMem]))

theorem memWf_execThclose {h : Hdr} {b : BitVec 2} {s : State} (hs : s.MemWf) : (execThclose h b s).All State.MemWf :=
  memWf_closeIssue hs

theorem memWf_execThabort {h : Hdr} {b : BitVec 2} {s : State} (hs : s.MemWf) : (execThabort h b s).All State.MemWf :=
  memWf_closeIssue hs

theorem memWf_execThrd {h : Hdr} {fn : ThrdFn} {d a : BitVec 6} {s : State} (hs : s.MemWf) :
    (execThrd h fn d a s).All State.MemWf := memWf_issue hs (.memWf hs (by (repeat' split) <;> simp [SameMem]))

theorem memWf_execThstm {h : Hdr} {d a f : BitVec 6} {s : State} (hs : s.MemWf) :
    (execThstm h d a f s).All State.MemWf :=
  memWf_issue hs (.memWf hs (by dsimp only; (repeat' split) <;> simp [SameMem]))

/-! ### The KV unit (chapter 13) -/

theorem memWf_writeList {phys : Nat} {l : List Nat} {s : State} (hs : s.MemWf) : (writeList phys l s).MemWf := by
  have written : (spadWrite phys (l.flatMap (leBytes 4)) s).MemWf := memWf_spadWrite hs
  have saved : (spadWrite phys (l.flatMap (leBytes 4)) s).saves = s.saves := by
    unfold spadWrite
    split
    · rfl
    · rfl
  unfold writeList
  extract_lets t
  split
  · exact hs
  · refine ⟨written.1, written.2.1, written.2.2.1, written.2.2.2.1, fun i hi => ?_⟩
    obtain ⟨j, hj, rfl⟩ := List.mem_map.mp hi
    exact hs.2.2.2.2 j hj

theorem memWf_finishAlloc {r : KvReq} {s : State} (hs : s.MemWf) : (finishAlloc r s).MemWf := by
  unfold finishAlloc
  extract_lets p h s1
  have pages : p.2.MemWf := hs.same (takePages_same ..)
  have taken : s1.MemWf := by
    unfold s1
    split
    · exact pages
    · exact pages.same (by simp [SameMem])
  exact (kvReply_same ..).memWf (memWf_writeList taken)

theorem memWf_allocPages {r : KvReq} {s : State} (hs : s.MemWf) : (allocPages r s).MemWf := by
  unfold allocPages
  extract_lets short s1
  have evicted : s1.MemWf := hs.same (evictNodes_same ..)
  split
  · exact memWf_finishAlloc evicted
  split
  · exact memWf_finishAlloc evicted
  · exact evicted.same (by simp [SameMem])

theorem memWf_ackHandle {r : KvReq} {s : State} (hs : s.MemWf) : (ackHandle r s).MemWf := by
  unfold ackHandle
  extract_lets marked s1
  have acked : s1.MemWf := (kvReply_same ..).memWf ((dropHandle_same ..).memWf ((modKv_same ..).memWf hs))
  split
  · split
    · exact memWf_finishAlloc (acked.same (by simp [SameMem]))
    · exact acked
  · exact acked

theorem memWf_kvRun {r : KvReq} {s : State} (hs : s.MemWf) : (kvRun r s).MemWf := by
  have listed {op : KvOp} {m : List KvNode} :
      (writeList r.out (m.flatMap (fun n => [n.id, n.page])) (if op == .acquire then acquireNodes m s else s)).MemWf := by
    refine memWf_writeList ?_
    split
    · exact hs.same (by simp [SameMem])
    · exact hs
  unfold kvRun
  dsimp only
  split
  · exact (kvReply_same ..).memWf listed
  · exact (kvReply_same ..).memWf listed
  · exact hs.same (by simp [SameMem])
  · exact hs.same (by simp [SameMem])
  · exact hs.same (by simp [SameMem])
  · exact hs.same (by simp [SameMem])
  · exact memWf_allocPages hs
  · exact hs.same (by simp [SameMem])
  · exact hs.same (by simp [SameMem])
  · exact memWf_ackHandle hs

theorem memWf_execKvDecide {s : State} (hs : s.MemWf) : (execKvDecide s).All State.MemWf := by
  unfold execKvDecide
  split
  · exact hs
  · exact memWf_kvRun (hs.same (by simp [SameMem]))

theorem memWf_kvIssue {op : KvOp} {h : Hdr} {d a : BitVec 6} {s : State} (hs : s.MemWf) :
    (kvIssue op h d a s).All State.MemWf := by
  refine memWf_issue hs ?_
  split
  · exact .memWf hs (by simp [SameMem])
  split
  · next h => exact .memWf hs (readBlock_error h)
  split
  · trivial
  split
  · trivial
  · next h _ _ _ => exact .memWf (hs.same (readBlock_same h)) (by simp [SameMem])

theorem memWf_execPxlk {h : Hdr} {d a : BitVec 6} {s : State} (hs : s.MemWf) : (execPxlk h d a s).All State.MemWf :=
  memWf_kvIssue hs

theorem memWf_execPxlkAcq {h : Hdr} {d a : BitVec 6} {s : State} (hs : s.MemWf) :
    (execPxlkAcq h d a s).All State.MemWf := memWf_kvIssue hs

theorem memWf_execPxins {h : Hdr} {d a : BitVec 6} {s : State} (hs : s.MemWf) : (execPxins h d a s).All State.MemWf :=
  memWf_kvIssue hs

theorem memWf_execPxrefAdd {h : Hdr} {d a : BitVec 6} {s : State} (hs : s.MemWf) :
    (execPxrefAdd h d a s).All State.MemWf := memWf_kvIssue hs

theorem memWf_execPxrefDrop {h : Hdr} {d a : BitVec 6} {s : State} (hs : s.MemWf) :
    (execPxrefDrop h d a s).All State.MemWf := memWf_kvIssue hs

theorem memWf_execKvpgAlloc {h : Hdr} {d a : BitVec 6} {s : State} (hs : s.MemWf) :
    (execKvpgAlloc h d a s).All State.MemWf := memWf_kvIssue hs

theorem memWf_execKvpgFree {h : Hdr} {d a : BitVec 6} {s : State} (hs : s.MemWf) :
    (execKvpgFree h d a s).All State.MemWf := memWf_kvIssue hs

theorem memWf_execKvpgRel {h : Hdr} {d a : BitVec 6} {s : State} (hs : s.MemWf) :
    (execKvpgRel h d a s).All State.MemWf := memWf_kvIssue hs

theorem memWf_execKvpgAck {h : Hdr} {d a : BitVec 6} {s : State} (hs : s.MemWf) :
    (execKvpgAck h d a s).All State.MemWf := memWf_kvIssue hs

theorem memWf_execPxevc {h : Hdr} {d a : BitVec 6} {s : State} (hs : s.MemWf) : (execPxevc h d a s).All State.MemWf :=
  memWf_issue hs (.memWf hs (by (repeat' split) <;> simp [SameMem]))

end Sys2Proof.Machine
end

section
/-! The canonical form of the memories through checked actions, the end of a task, interrupts,
pre-emption and soft errors. -/

namespace Sys2Proof.Machine

/-! ### Checked actions, the end of a task, sys.resume, interrupts (chapters 4, 5) -/

theorem memWf_pushAfter {firm : Bool} {word lat : Nat} {s : State} (hs : s.MemWf) :
    (pushAfter firm word lat s).MemWf := hs

theorem memWf_perform {c : Checked} {s : State} (hs : s.MemWf) : (perform c s).MemWf := by
  unfold perform
  extract_lets x eg
  have egress {t : State} (ht : t.MemWf) : (eg t).MemWf := (egressOf_same ..).memWf ht
  split
  case h_1 => exact egress ((cacheUpdate_same ..).memWf (memWf_memPut hs))
  case h_2 => exact memWf_spadWrite hs
  case h_3 =>
    refine memWf_pushAfter ((giveReg_same ..).memWf (egress ?_))
    split
    · exact (flushCache_same ..).memWf (memWf_amoMem hs)
    · exact memWf_amoMem hs
  case h_4 =>
    extract_lets s1
    have drawn : s1.MemWf := by
      dsimp only [s1]
      split
      · exact (restartNoise_same ..).memWf hs
      · exact hs
    split
    · exact drawn.same (by simp [SameMem])
    · exact drawn
  case h_5 => exact hs
  case h_6 => exact egress (hs.same (by simp [SameMem]))
  case h_8 => exact memWf_pushAfter (hs.same (by simp [SameMem]))
  case h_18 => exact memWf_closeBracket hs
  case h_19 =>
    split
    · exact memWf_takeTrap hs
    · exact hs
  all_goals exact hs.same (by simp [SameMem])

theorem memWf_checkerFail {c : Checked} {s : State} (hs : s.MemWf) : (checkerFail c s).MemWf := by
  unfold checkerFail
  refine memWf_takeTrap ((notify_same ..).memWf ((logLaunch_same ..).memWf ((logAdd_same ..).memWf ?_)))
  exact (restoreWindow_same ..).memWf hs

theorem memWf_execCheckedActionConfirm {o : CheckOutcome} {s : State} (hs : s.MemWf) :
    (execCheckedActionConfirm o s).All State.MemWf := by
  unfold execCheckedActionConfirm
  split
  · exact hs
  split
  · exact hs
  split
  · exact memWf_perform hs
  · exact memWf_perform (hs.same (by simp [SameMem]))
  · exact memWf_checkerFail hs

theorem memWf_finishTask {s : State} (hs : s.MemWf) : (finishTask s).MemWf := by
  have ended : (journal s.die.toNat (.ended s.task.lid) (releaseRecords (endBrackets s))).MemWf :=
    (journal_same ..).memWf ((releaseRecords_same ..).memWf (memWf_endBrackets hs))
  unfold finishTask
  dsimp only
  generalize journal s.die.toNat (.ended s.task.lid) (releaseRecords (endBrackets s)) = u at ended ⊢
  exact ended

theorem memWf_resumeC {s : State} (hs : s.MemWf) : (resumeC s).MemWf := by
  unfold resumeC
  dsimp only
  split
  · exact hs
  split
  · exact memWf_takeTrap hs
  next a _ =>
    split
    · exact memWf_takeTrap hs
    · have landed : (reinject ((readFrame s a).recs.take (readFrame s a).count) s).MemWf := (reinject_same ..).memWf hs
      generalize reinject ((readFrame s a).recs.take (readFrame s a).count) s = u at landed ⊢
      exact landed

theorem memWf_resumeStream {x : Issuer} {s : State} (hs : s.MemWf) : (resumeStream x s).MemWf := by
  unfold resumeStream
  split
  · extract_lets s1
    have resumed : s1.MemWf := hs.same (modCtx_same (h := fun _ => rfl) ..)
    split
    · exact resumed
    · split
      · exact memWf_resumeC resumed
      · split
        · exact resumed.same (by simp [SameMem])
        · exact resumed
      · exact resumed
  · exact hs

theorem memWf_execSysResume {h : Hdr} {st : BitVec 2} {s : State} (hs : s.MemWf) :
    (execSysResume h st s).All State.MemWf := by
  refine memWf_issue hs ?_
  split
  · trivial
  · exact memWf_resumeStream hs

theorem memWf_execTakeInterrupt {x : Issuer} {s : State} (hs : s.MemWf) : (execTakeInterrupt x s).All State.MemWf := by
  unfold execTakeInterrupt
  split
  · exact hs
  split
  · exact memWf_takeTrap (hs.same (by simp [SameMem]))
  · exact hs

theorem memWf_execFEventTake {s : State} (hs : s.MemWf) : (execFEventTake s).All State.MemWf := by
  unfold execFEventTake
  split
  · exact hs
  split
  · exact hs
  extract_lets s1
  have taken : s1.MemWf := hs
  split
  · exact (enterHandler_same ..).memWf (memWf_saveFrame taken)
  · exact (holdCore_same ..).memWf taken

/-! ### Pre-emption (chapter 5) -/

theorem memWf_execEngineSavePoint {s : State} (hs : s.MemWf) : (execEngineSavePoint s).All State.MemWf := by
  unfold execEngineSavePoint
  split
  · exact hs
  · exact memWf_marker hs

/-- To clear an image's mark keeps every image's task. -/
theorem keepShadow_task {l : List SaveImage} {g : SaveImage} (hg : g ∈ keepShadow l) : ∃ i ∈ l, g.task = i.task := by
  unfold keepShadow at hg
  split at hg
  · exact ⟨g, hg, rfl⟩
  split at hg
  · next k _ =>
    obtain ⟨j, hj, rfl⟩ := List.mem_iff_getElem.mp hg
    rw [List.getElem_modify]
    refine ⟨l[j]'(by simpa using hj), List.getElem_mem _, ?_⟩
    split
    · rfl
    · rfl
  · exact ⟨g, hg, rfl⟩

theorem memWf_taskReset : Task.reset.MemWf := ⟨memWf_empty, memWf_empty, memWf_empty, memWf_empty⟩

theorem memWf_execPartitionSave {s : State} (hs : s.MemWf) : (execPartitionSave s).All State.MemWf := by
  unfold execPartitionSave
  split
  · exact hs
  obtain ⟨mem, spad, firm, task, saves⟩ := hs
  refine (notify_same ..).memWf ⟨mem, spad, firm, memWf_taskReset, fun g hg => ?_⟩
  obtain ⟨i, hi, same⟩ := keepShadow_task hg
  rw [same]
  rcases List.mem_append.mp hi with hi | hi
  · exact saves i hi
  · rw [List.mem_singleton.mp hi]
    exact task

theorem memWf_execPartitionRestore {s : State} (hs : s.MemWf) : (execPartitionRestore s).All State.MemWf := by
  obtain ⟨mem, spad, firm, task, saves⟩ := id hs
  unfold execPartitionRestore
  split
  · exact hs
  next img rest eq =>
    have image : img.task.MemWf := saves img (by simp [eq])
    have others : ∀ i ∈ rest, i.task.MemWf := fun i hi => saves i (by simp [eq, hi])
    split
    · exact hs
    split
    · exact ⟨mem, spad, firm, task, List.forall_mem_cons.mpr ⟨image, others⟩⟩
    split
    · exact hs
    · exact ⟨mem, spad, firm, image, others⟩

/-! ### Soft errors -/

theorem memWf_ite {p : Prop} [Decidable p] {t u : State} (ht : t.MemWf) (hu : u.MemWf) : (if p then t else u).MemWf := by
  split
  · exact ht
  · exact hu

theorem memWf_execSoftError {t : ErrorTarget} {s : State} (hs : s.MemWf) : (execSoftError t s).All State.MemWf := by
  cases t with
  | register x n flip last => exact memWf_ite hs (hs.same (by simp [SameMem]))
  | element n flip last =>
    unfold execSoftError
    dsimp only
    split
    · exact hs
    · exact hs
  | window n flip last => exact hs
  | queue q slot => exact (setQ_same ..).memWf hs
  | scratchpad off flip => exact memWf_ite (hs.with_spad (memWf_memSet _ _ hs.2.1)) hs
  | scratchpadLost off last =>
    have lost : (spadPoison off 1 s).MemWf := hs.same (by simp [SameMem])
    refine memWf_ite ?_ hs
    generalize spadPoison off 1 s = u at lost ⊢
    exact lost
  | memoryLost pa last => exact memWf_ite hs hs
  | accumulator a i flip => exact (modMx_same ..).memWf hs
  | accumulatorLost a last => exact memWf_ite (hs.same (by simp [SameMem])) hs
  | record base => exact hs
  | mapSlot slot last => exact (modMc_same ..).memWf hs
  | latch i last => exact hs
  | schedWord core copy addr => exact memWf_ite hs hs
  | journal die => exact memWf_ite hs hs
  | queueTable core => exact memWf_ite hs hs

end Sys2Proof.Machine
end

section
/-! The canonical form of the memories through the launch path, management, hosts, power and the SPDM responder. -/

namespace Sys2Proof.Machine

/-! ### The launch path (chapter 13) -/

theorem memWf_reportLaunch {die q : Nat} {p : Packet} {status reason failed gen : Nat} {s : State} (hs : s.MemWf) :
    (reportLaunch die q p status reason failed gen s).MemWf := (raiseMsix_same ..).memWf (memWf_writeVa hs)

theorem memWf_rejectPacket {die q : Nat} {p : Packet} {n : Nat} {s : State} (hs : s.MemWf) :
    (rejectPacket die q p n s).MemWf := memWf_reportLaunch ((setQueue_same ..).memWf hs)

theorem memWf_execQtailWrite {master : BitVec 24} {die q : Nat} {t : BitVec 64} {s : State} (hs : s.MemWf) :
    (execQtailWrite master die q t s).All State.MemWf := by
  unfold execQtailWrite
  split
  · exact hs
  extract_lets v s1 new management packets s2
  have touched : s1.MemWf := (touchOwner_same ..).memWf hs
  split
  · exact (setQueue_same ..).memWf touched
  · have moved : s2.MemWf := (setQueue_same ..).memWf touched
    refine memWf_foldl (fun t b ht => ?_) moved
    split
    · exact memWf_rejectPacket ht
    · exact ht

theorem memWf_execRegisterWrite {master : BitVec 24} {off : Nat} {v : BitVec 64} {s : State} (hs : s.MemWf) :
    (execRegisterWrite master off v s).All State.MemWf := by
  by_cases h : inMailbox off = true
  · unfold execRegisterWrite
    rw [h, Bool.and_true]
    split
    · exact memWf_memPut hs
    have owner : (touchOwner s).MemWf := (touchOwner_same ..).memWf hs
    extract_lets s1
    (repeat' split)
    · exact hs
    · exact (writeQueueReg_same ..).memWf owner
    all_goals exact owner
  · exact .memWf hs (execRegisterWrite_same _ _ _ _ (by simpa using h))

theorem memWf_execPacketCheck {die q : Nat} {s : State} (hs : s.MemWf) : (execPacketCheck die q s).All State.MemWf := by
  unfold execPacketCheck
  split
  · exact hs
  extract_lets v b p management s1 m s2
  have served : s1.MemWf := (setQueue_same ..).memWf ((countServed_same ..).memWf hs)
  split
  · split
    · exact (endMgmt_same ..).memWf ((setQueue_same ..).memWf served)
    · exact memWf_rejectPacket served
  · split
    · split
      · exact (endMgmt_same ..).memWf served
      · exact served
    · have noted : s2.MemWf := (journal_same ..).memWf served
      exact noted

theorem memWf_execGatedAdmit {s : State} (hs : s.MemWf) : (execGatedAdmit s).All State.MemWf := by
  unfold execGatedAdmit
  split
  · exact hs
  next l _ =>
    split
    · next g _ =>
      have ready : (standAt l .ready g s).MemWf := (standAt_same ..).memWf hs
      exact ready
    · have left : (journal l.die (.leaves l.q l.pkt.lid) s).MemWf := (journal_same ..).memWf hs
      exact memWf_reportLaunch left

/-- Each stream of a task starts with its section of the image. -/
theorem memWf_startTask (s : State) (l : Launch) (i : Image) (g : Placement) : (startTask s l i g).MemWf :=
  ⟨memWf_sectionMem _, memWf_sectionMem _, memWf_sectionMem _, memWf_sectionMem _⟩

theorem memWf_placeTask {l : Launch} {i : Image} {g : Placement} {s : State} (hs : s.MemWf) :
    (placeTask l i g s).MemWf := by
  obtain ⟨mem, spad, firm, -, saves⟩ := hs
  unfold placeTask
  extract_lets s1 s2
  have started : s1.MemWf := ⟨mem, spad, firm, memWf_startTask .., saves⟩
  have described : s2.MemWf := by
    dsimp only [s2]
    split
    · exact memWf_spadWrite started
    · exact started
  exact described.same (by simp [SameMem])

theorem memWf_execGroupPlace {g : Placement} {s : State} (hs : s.MemWf) : (execGroupPlace g s).All State.MemWf := by
  unfold execGroupPlace
  split
  · exact hs
  split
  · exact hs
  extract_lets mine s0 s1
  split
  · exact hs
  have journaled : s0.MemWf := (journal_same ..).memWf hs
  have noted : s1.MemWf := journaled
  exact memWf_ite (memWf_placeTask noted) noted

theorem memWf_execCompletionRecord {failed : Nat} {s : State} (hs : s.MemWf) :
    (execCompletionRecord failed s).All State.MemWf := by
  unfold execCompletionRecord
  split
  · exact hs
  next l _ =>
    have left : (journal l.die (.leaves l.q l.pkt.lid) s).MemWf := (journal_same ..).memWf hs
    exact memWf_reportLaunch left

/-! ### Waves of a model (chapter 15) -/

theorem memWf_writeHeader {m : Model} {k : Nat} {s : State} (hs : s.MemWf) : (writeHeader m k s).MemWf := by
  unfold writeHeader
  exact memWf_ite (memWf_memPutOut hs) hs

theorem memWf_waveMove {fuel : Nat} {c : CpCmd} {s : State} (hs : s.MemWf) : (waveMove fuel c s).2.MemWf := by
  induction fuel generalizing c s with
  | zero => exact hs
  | succ fuel ih =>
    unfold waveMove
    split
    · exact hs
    split
    extract_lets src raw conv bad s1 marks s2
    refine ih ?_
    have written : s1.MemWf := memWf_memPutOut (memWf_stepBytes hs)
    exact written

theorem memWf_waveZero {c : CpBlk} {s : State} (hs : s.MemWf) : (waveZero c s).MemWf :=
  memWf_foldl (fun _ _ ht => memWf_memPutOut ht) hs

theorem memWf_waveBlock {b : List Byte} {s : State} (hs : s.MemWf) : (waveBlock b s).2.MemWf := by
  unfold waveBlock
  extract_lets c' k base p y
  split
  · exact hs
  have moved : p.2.MemWf := memWf_waveMove hs
  split
  · exact moved
  split
  · exact (tideAdd_same ..).memWf moved
  · exact (tideAdd_same ..).memWf (memWf_waveZero moved)

theorem memWf_waveChain {fuel at_ : Nat} {s : State} (hs : s.MemWf) : (waveChain fuel at_ s).2.MemWf := by
  induction fuel generalizing at_ s with
  | zero => exact hs
  | succ fuel ih =>
    unfold waveChain
    extract_lets b r
    have moved : r.2.MemWf := memWf_waveBlock hs
    split
    · exact hs
    split
    · exact ih moved
    · exact moved

theorem memWf_waveLayer {ok : Bool} {m : Model} {g k : Nat} {s : State} (hs : s.MemWf) :
    (waveLayer ok m g k s).MemWf := by
  unfold waveLayer
  extract_lets r
  have chained : r.2.MemWf := by
    dsimp only [r]
    split
    · exact memWf_waveChain hs
    · exact hs
  split
  · exact (tideAdd_same ..).memWf ((setModel_same ..).memWf (memWf_writeHeader chained))
  · exact (tideAdd_same ..).memWf ((setModel_same ..).memWf chained)

/-! ### Management commands (chapter 13) -/

theorem memWf_whenFits {f : State → State} {s : State} (hs : s.MemWf) (hf : (f s).MemWf) : (whenFits f s).MemWf :=
  memWf_ite hf hs

/-- A management command keeps the canonical form where what it does when it is in order does. -/
theorem memWf_manage {kind : Nat} {ok : Bool} {fields : List Nat} {f : State → State} {s : State} (hs : s.MemWf)
    (hf : (f s).MemWf) : (manage kind ok fields f s).All State.MemWf := by
  unfold manage
  split
  · exact hs
  · exact memWf_whenFits hs (memWf_ite ((mgmtDone_same ..).memWf hf) (hs.same (by simp [SameMem])))

theorem memWf_execWaveLayer {ok : Bool} {s : State} (hs : s.MemWf) : (execWaveLayer ok s).All State.MemWf := by
  unfold execWaveLayer
  split
  · exact hs
  · exact memWf_whenFits hs (memWf_waveLayer hs)

theorem memWf_loadImages {is : List Image} {s : State} (hs : s.MemWf) : (loadImages is s).MemWf :=
  memWf_foldl (fun _ _ ht => memWf_foldl (fun _ _ hu => memWf_memPutOut hu) ht) hs

theorem memWf_execContextCreate {ctx : Nat} {key : BitVec 64} {images : List Image} {s : State} (hs : s.MemWf) :
    (execContextCreate ctx key images s).All State.MemWf := memWf_manage hs (memWf_loadImages hs)

theorem memWf_destroyImage {img : SaveImage} {s : State} (hs : s.MemWf) (image : img.task.MemWf) :
    (destroyImage img s).MemWf := by
  obtain ⟨mem, spad, firm, task, saves⟩ := hs
  have ended : (endBrackets { s with task := img.task, side := img.side, holds := img.holds }).MemWf :=
    memWf_endBrackets ⟨mem, spad, firm, image, saves⟩
  unfold destroyImage
  extract_lets s1
  obtain ⟨mem', spad', firm', -, saves'⟩ : s1.MemWf := ended
  exact ⟨mem', spad', firm', task, saves'⟩

theorem memWf_destroyContext {ctx : Nat} {s : State} (hs : s.MemWf) : (destroyContext ctx s).MemWf := by
  unfold destroyContext
  extract_lets mine s1 s2
  have ended : s1.MemWf := List.foldlRecOn _ _ hs fun t ht i hi =>
    memWf_destroyImage ht (hs.2.2.2.2 i (List.mem_filter.mp hi).1)
  have reported : s2.MemWf := memWf_foldl (fun t l ht => memWf_reportLaunch ((journal_same ..).memWf ht)) ended
  obtain ⟨mem, spad, firm, task, saves⟩ := reported
  exact ⟨mem, spad, firm, task, fun i hi => saves i (List.mem_filter.mp hi).1⟩

theorem memWf_execContextDestroy {ctx : Nat} {s : State} (hs : s.MemWf) : (execContextDestroy ctx s).All State.MemWf := by
  unfold execContextDestroy
  split
  · exact hs
  split
  · exact memWf_whenFits hs (hs.same (by simp [SameMem]))
  split
  · refine memWf_ite hs ?_
    have stopped : (dropHeld (stopStreams s)).MemWf := hs.same (by simp [SameMem])
    exact stopped
  · exact memWf_whenFits hs ((mgmtDone_same ..).memWf (memWf_destroyContext hs))

theorem memWf_firmwareCode {f : FirmwareMsg} {s : State} (hs : s.MemWf) : memWf (firmwareCode f s) = true := by
  unfold firmwareCode
  split
  · exact memWf_sectionMem _
  · exact memWf_sectionMem _
  · exact hs.2.2.1

theorem memWf_switchFirmware {f : FirmwareMsg} {s : State} (hs : s.MemWf) : (switchFirmware f s).MemWf := by
  obtain ⟨mem, spad, -, task, saves⟩ := id hs
  exact ⟨mem, spad, memWf_firmwareCode hs, task, saves⟩

theorem memWf_activated {m : Mgmt} {s : State} (hs : s.MemWf) : (activated m s).MemWf := by
  unfold activated
  extract_lets s0
  have active : s0.MemWf := hs
  split
  · exact (mgmtRefuse_same ..).memWf active
  extract_lets miss
  split
  · exact active.same (by simp [SameMem])
  · exact (mgmtDone_same ..).memWf ((tideAdd_same ..).memWf ((extendMeas_same ..).memWf (memWf_switchFirmware active)))

theorem memWf_execFirmwareActivate {s : State} (hs : s.MemWf) : (execFirmwareActivate s).All State.MemWf := by
  unfold execFirmwareActivate
  split
  · exact hs
  · exact memWf_ite hs (memWf_activated hs)

/-! ### Hosts, boot, reset and power (chapters 14, 16) -/

theorem memWf_execHostWrite {tier : Tier} {pa : Nat} {bytes : List (BitVec 8)} {relaxed : Bool} {s : State}
    (hs : s.MemWf) : (execHostWrite tier pa bytes relaxed s).All State.MemWf := by
  unfold execHostWrite
  split
  · trivial
  · exact memWf_memPutOut hs

theorem memWf_execCxlAgentAccess {pa : Nat} {w : Option (List (BitVec 8))} {s : State} (hs : s.MemWf) :
    (execCxlAgentAccess pa w s).All State.MemWf := by
  unfold execCxlAgentAccess
  extract_lets bytes
  split
  · trivial
  · exact memWf_ite (memWf_memPutOut hs) hs

theorem memWf_bootData {s : State} (hs : s.MemWf) : (bootData s).MemWf := by
  unfold bootData
  extract_lets s1 s2
  have stored : s1.MemWf := memWf_memPut hs
  have mapped : s2.MemWf := stored
  split
  · exact stored
  split
  · exact mapped
  · exact memWf_foldl (fun _ _ ht => memWf_memPutOut ht) mapped

theorem memWf_execPowerOnBoot {s : State} (hs : s.MemWf) : (execPowerOnBoot s).All State.MemWf := by
  obtain ⟨mem, spad, -, task, saves⟩ := id hs
  unfold execPowerOnBoot
  split
  · exact hs
  extract_lets kv s1
  have loaded : s1.MemWf := memWf_bootData ⟨mem, spad, memWf_sectionMem _, task, saves⟩
  exact (tidePut_same ..).memWf loaded

/-- A loss leaves the memories of the machine after reset. -/
theorem memWf_afterLoss (s : State) : (afterLoss s).MemWf :=
  ⟨memWf_empty, memWf_empty, memWf_empty, memWf_taskReset, List.forall_mem_nil _⟩

theorem memWf_execDeviceReset {s : State} (hs : s.MemWf) : (execDeviceReset s).All State.MemWf :=
  memWf_ite hs (memWf_ite (memWf_afterLoss s) hs)

theorem memWf_execPowerLoss (s : State) : (execPowerLoss s).All State.MemWf := memWf_afterLoss s

theorem memWf_execThermalTrip (s : State) : (execThermalTrip s).All State.MemWf := memWf_afterLoss s

/-! ### The SPDM responder (chapter 21) -/

theorem memWf_respond {r : List Byte} {s : State} (hs : s.MemWf) : (respond r s).MemWf :=
  memWf_memPut (memWf_memPut (memWf_memPut hs))

theorem memWf_spdmError {code data : Nat} {s : State} (hs : s.MemWf) : (spdmError code data s).MemWf := memWf_respond hs

theorem memWf_spdmCommit {req : List Byte} {a : Answer} {s : State} (hs : s.MemWf) : (spdmCommit req a s).MemWf := by
  unfold spdmCommit
  extract_lets old vca log v
  split
  · exact memWf_spdmError hs
  split
  · exact memWf_respond hs
  · exact memWf_respond hs

theorem memWf_answerWith {q : Option SpdmReq} {b : List Byte} {s : State} (hs : s.MemWf) : (answerWith q b s).MemWf := by
  unfold answerWith
  refine memWf_ite (memWf_spdmError hs) (memWf_ite (memWf_spdmError hs) ?_)
  split
  · exact memWf_spdmError hs
  · exact memWf_ite (memWf_spdmError hs)
      (memWf_ite (memWf_spdmError hs) (memWf_spdmCommit ((spdmAnswer_same ..).memWf hs)))

theorem memWf_spdmStep {r : SpdmReq} {s : State} (hs : s.MemWf) : (spdmStep r s).All State.MemWf := by
  unfold spdmStep
  extract_lets b q
  split
  · exact memWf_answerWith hs
  · exact hs

theorem memWf_execGetVersion {s : State} (hs : s.MemWf) : (execGetVersion s).All State.MemWf := memWf_spdmStep hs

theorem memWf_execGetCapabilities {s : State} (hs : s.MemWf) : (execGetCapabilities s).All State.MemWf :=
  memWf_spdmStep hs

theorem memWf_execNegotiateAlgorithms {s : State} (hs : s.MemWf) : (execNegotiateAlgorithms s).All State.MemWf :=
  memWf_spdmStep hs

theorem memWf_execGetDigests {s : State} (hs : s.MemWf) : (execGetDigests s).All State.MemWf := memWf_spdmStep hs

theorem memWf_execGetCertificate {s : State} (hs : s.MemWf) : (execGetCertificate s).All State.MemWf :=
  memWf_spdmStep hs

theorem memWf_execChallenge {s : State} (hs : s.MemWf) : (execChallenge s).All State.MemWf := memWf_spdmStep hs

theorem memWf_execGetMeasurements {s : State} (hs : s.MemWf) : (execGetMeasurements s).All State.MemWf :=
  memWf_spdmStep hs

end Sys2Proof.Machine
end

section
/-! The canonical form of the memories through the dispatch and the cycle, and O59. -/

namespace Sys2Proof.Machine

/-! ### The dispatch and the cycle -/

/-- Every instruction and every step of the machine keeps the canonical form. -/
theorem memWf_exec {s : State} (hs : s.MemWf) (i : Instr) : Out.All State.MemWf (exec i s) := by
  cases i with
  | nop => exact memWf_execNop hs
  | li => exact memWf_execLi hs
  | lih => exact memWf_execLih hs
  | alu => exact memWf_execAlu hs
  | addi => exact memWf_immOp hs
  | andi => exact memWf_immOp hs
  | ori => exact memWf_immOp hs
  | xori => exact memWf_immOp hs
  | shli => exact memWf_shiftOp hs
  | shri => exact memWf_shiftOp hs
  | sari => exact memWf_shiftOp hs
  | muli => exact memWf_immOp hs
  | cmp => exact memWf_execCmp hs
  | cmpi => exact memWf_execCmpi hs
  | plog => exact memWf_execPlog hs
  | sel => exact memWf_execSel hs
  | lea => exact memWf_execLea hs
  | br => exact memWf_execBr hs
  | call => exact memWf_execCall hs
  | jr => exact memWf_execJr hs
  | loop => exact memWf_execLoop hs
  | endl => exact memWf_execEndl hs
  | safe => exact memWf_execSafe hs
  | endT => exact memWf_execEndT hs
  | ldk => exact memWf_execLdk hs
  | stk => exact memWf_execStk hs
  | lds => exact memWf_execLds hs
  | sts => exact memWf_execSts hs
  | rsr => exact memWf_execRsr hs
  | wsr => exact memWf_execWsr hs
  | epush => exact memWf_execEpush hs
  | epop => exact memWf_execEpop hs
  | ecountOut => exact memWf_execEcountOut hs
  | ecountIn => exact memWf_execEcountIn hs
  | rnd => exact memWf_execRnd hs
  | tkp => exact memWf_execTkp hs
  | tkw => exact memWf_execTkw hs
  | tkc => exact memWf_execTkc hs
  | bar => exact memWf_execBar hs
  | bara => exact memWf_execBara hs
  | barw => exact memWf_execBarw hs
  | renq => exact memWf_execRenq hs
  | amo => exact memWf_execAmo hs
  | fence => exact memWf_execFence hs
  | mark => exact memWf_execMark hs
  | wfe => exact memWf_execWfe hs
  | sysCall => exact memWf_execSysCall hs
  | sysResume => exact memWf_execSysResume hs
  | sysKill => exact memWf_execSysKill hs
  | sysTmr => exact memWf_execSysTmr hs
  | trap => exact memWf_execTrap hs
  | brk => exact memWf_execBrk hs
  | rfi => exact memWf_execRfi hs
  | ld => exact memWf_execLd hs
  | ldp => exact memWf_execLdp hs
  | ldi => exact memWf_execLdi hs
  | ldg => exact memWf_execLdg hs
  | ldr => exact memWf_execLdr hs
  | ldw => exact memWf_execLdw hs
  | pf h tr => exact memWf_execPf (tr := tr) hs
  | st => exact memWf_execSt hs
  | stp => exact memWf_execStp hs
  | stg => exact memWf_execStg hs
  | stw => exact memWf_execStw hs
  | stt => exact memWf_execStt hs
  | qfl => exact memWf_execQfl hs
  | qln => exact memWf_execQln hs
  | fop => exact memWf_execFop hs
  | fma => exact memWf_execFma hs
  | fnma => exact memWf_execFnma hs
  | frcp => exact memWf_execFrcp hs
  | frsq => exact memWf_execFrsq hs
  | frfr => exact memWf_execFrfr hs
  | frfs => exact memWf_execFrfs hs
  | fcmp => exact memWf_execFcmp hs
  | icmp => exact memWf_execIcmp hs
  | fcvt => exact memWf_execFcvt hs
  | iop => exact memWf_execIop hs
  | eli => exact memWf_execEli hs
  | elih => exact memWf_execElih hs
  | emov => exact memWf_execEmov hs
  | esel => exact memWf_execEsel hs
  | rot => exact memWf_execRot hs
  | lbr => exact memWf_execLbr hs
  | eld => exact memWf_execEld hs
  | est => exact memWf_execEst hs
  | vop => exact memWf_execVop hs
  | vfma => exact memWf_execVfma hs
  | vsc => exact memWf_execVsc hs
  | vun => exact memWf_execVun hs
  | vcvt => exact memWf_execVcvt hs
  | vred => exact memWf_execVred hs
  | vscan => exact memWf_execVscan hs
  | vcmp => exact memWf_execVcmp hs
  | vsel => exact memWf_execVsel hs
  | vcpr => exact memWf_execVcpr hs
  | vxpd => exact memWf_execVxpd hs
  | vgat => exact memWf_execVgat hs
  | vsct => exact memWf_execVsct hs
  | vsca => exact memWf_execVsca hs
  | vfill => exact memWf_execVfill hs
  | vrnd => exact memWf_execVrnd hs
  | vhad => exact memWf_execVhad hs
  | vqnt => exact memWf_execVqnt hs
  | vdqt => exact memWf_execVdqt hs
  | vtopk => exact memWf_execVtopk hs
  | vsamp => exact memWf_execVsamp hs
  | vsoft => exact memWf_execVsoft hs
  | wset => exact memWf_execWset hs
  | wget => exact memWf_execWget hs
  | vbit => exact memWf_execVbit hs
  | vmov => exact memWf_execVmov hs
  | mtw => exact memWf_execMtw hs
  | mtr => exact memWf_execMtr hs
  | mcfg => exact memWf_execMcfg hs
  | mfmt => exact memWf_execMfmt hs
  | mgo => exact memWf_execMgo hs
  | mtile => exact memWf_execMtile hs
  | mwait => exact memWf_execMwait hs
  | mzero => exact memWf_execMzero hs
  | mdrain => exact memWf_execMdrain hs
  | mtsm => exact memWf_execMtsm hs
  | fset => exact memWf_execFset hs
  | fget => exact memWf_execFget hs
  | fdrop => exact memWf_execFdrop hs
  | hgen => exact memWf_execHgen hs
  | hgenRel => exact memWf_execHgenRel hs
  | hchk => exact memWf_execHchk hs
  | hfix => exact memWf_execHfix hs
  | hupd => exact memWf_execHupd hs
  | hrd => exact memWf_execHrd hs
  | htol => exact memWf_execHtol hs
  | mccfg => exact memWf_execMccfg hs
  | mccfgRst => exact memWf_execMccfgRst hs
  | mcld => exact memWf_execMcld hs
  | mcldL => exact memWf_execMcldL hs
  | mcldR => exact memWf_execMcldR hs
  | mcst => exact memWf_execMcst hs
  | mccmp => exact memWf_execMccmp hs
  | mctree => exact memWf_execMctree hs
  | mcapp => exact memWf_execMcapp hs
  | mcappT => exact memWf_execMcappT hs
  | mcmsk => exact memWf_execMcmsk hs
  | mcchk => exact memWf_execMcchk hs
  | thopen => exact memWf_execThopen hs
  | thclose => exact memWf_execThclose hs
  | thabort => exact memWf_execThabort hs
  | thbind => exact memWf_execThbind hs
  | thbindR => exact memWf_execThbindR hs
  | thrd => exact memWf_execThrd hs
  | thstm => exact memWf_execThstm hs
  | cpy => exact memWf_execCpy hs
  | cpy2 => exact memWf_execCpy2 hs
  | cpres => exact memWf_execCpres hs
  | cpresDrop => exact memWf_execCpresDrop hs
  | cpwait => exact memWf_execCpwait hs
  | fxs => exact memWf_execFxs hs
  | fxr => exact memWf_execFxr hs
  | fxred => exact memWf_execFxred hs
  | fxwait => exact memWf_execFxwait hs
  | tsat => exact memWf_execTsat hs
  | tsatWait => exact memWf_execTsatWait hs
  | hshInit => exact memWf_execHshInit hs
  | hsh => exact memWf_execHsh hs
  | hfin => exact memWf_execHfin hs
  | sgn => exact memWf_execSgn hs
  | vfy => exact memWf_execVfy hs
  | mext => exact memWf_execMext hs
  | mextRd => exact memWf_execMextRd hs
  | kunw => exact memWf_execKunw hs
  | pxlk => exact memWf_execPxlk hs
  | pxlkAcq => exact memWf_execPxlkAcq hs
  | pxins => exact memWf_execPxins hs
  | pxrefAdd => exact memWf_execPxrefAdd hs
  | pxrefDrop => exact memWf_execPxrefDrop hs
  | pxevc => exact memWf_execPxevc hs
  | kvpgAlloc => exact memWf_execKvpgAlloc hs
  | kvpgFree => exact memWf_execKvpgFree hs
  | kvpgRel => exact memWf_execKvpgRel hs
  | kvpgAck => exact memWf_execKvpgAck hs
  | resultLanding => exact .memWf hs (execResultLanding_same ..)
  | checkedActionConfirm => exact memWf_execCheckedActionConfirm hs
  | loadArrival => exact .memWf hs (execLoadArrival_same ..)
  | accessPerformed => exact memWf_execAccessPerformed hs
  | slotJoin => exact memWf_execSlotJoin hs
  | tlbInvalidate => exact .memWf hs (execTlbInvalidate_same ..)
  | matrixStep => exact memWf_execMatrixStep hs
  | marker => exact memWf_execMarker hs
  | drain => exact memWf_execDrain hs
  | mceCommand => exact memWf_execMceCommand hs
  | copyStep => exact memWf_execCopyStep hs
  | fabricMatch => exact .memWf hs (execFabricMatch_same ..)
  | fabricFrame => exact memWf_execFabricFrame hs
  | fabricLinkFail => exact .memWf hs (execFabricLinkFail_same ..)
  | titheDecide => exact .memWf hs (execTitheDecide_same ..)
  | meterStatement => exact memWf_execMeterStatement hs
  | kvDecide => exact memWf_execKvDecide hs
  | barrierPhaseComplete => exact .memWf hs (execBarrierPhaseComplete_same ..)
  | timerExpiry => exact .memWf hs (execTimerExpiry_same ..)
  | budgetExpiry => exact .memWf hs (execBudgetExpiry_same ..)
  | wfeTimeout => exact .memWf hs (execWfeTimeout_same ..)
  | attn => exact .memWf hs (execAttn_same ..)
  | takeInterrupt => exact memWf_execTakeInterrupt hs
  | fEventTake => exact memWf_execFEventTake hs
  | noiseReseed => exact .memWf hs (execNoiseReseed_same ..)
  | sluicePass => exact .memWf hs (execSluicePass_same ..)
  | hungDetect => exact .memWf hs (execHungDetect_same ..)
  | preemptDemand => exact .memWf hs (execPreemptDemand_same ..)
  | engineSavePoint => exact memWf_execEngineSavePoint hs
  | partitionSave => exact memWf_execPartitionSave hs
  | partitionRestore => exact memWf_execPartitionRestore hs
  | qtailWrite => exact memWf_execQtailWrite hs
  | registerWrite => exact memWf_execRegisterWrite hs
  | packetCheck => exact memWf_execPacketCheck hs
  | timedStart => exact .memWf hs (execTimedStart_same ..)
  | groupPlace => exact memWf_execGroupPlace hs
  | gatedAdmit => exact memWf_execGatedAdmit hs
  | completionRecord => exact memWf_execCompletionRecord hs
  | imemRepair => exact .memWf hs (execImemRepair_same ..)
  | dieHold => exact .memWf hs (execDieHold_same ..)
  | schedRestart => exact .memWf hs (execSchedRestart_same ..)
  | claim => exact .memWf hs (execClaim_same ..)
  | beat => exact .memWf hs (execBeat_same ..)
  | release => exact .memWf hs (execRelease_same ..)
  | leaseExpiry => exact .memWf hs (execLeaseExpiry_same ..)
  | defineEnclosure => exact .memWf hs (execDefineEnclosure_same ..)
  | registerModel => exact .memWf hs (execRegisterModel_same ..)
  | replace => exact .memWf hs (execReplace_same ..)
  | waveLayer => exact memWf_execWaveLayer hs
  | firmwareStage => exact .memWf hs (execFirmwareStage_same ..)
  | firmwareActivate => exact memWf_execFirmwareActivate hs
  | ownerKeyRegistry => exact .memWf hs (execOwnerKeyRegistry_same ..)
  | fabricRoute => exact .memWf hs (execFabricRoute_same ..)
  | tidelineTrim => exact .memWf hs (execTidelineTrim_same ..)
  | tidelineSeal => exact .memWf hs (execTidelineSeal_same ..)
  | contextCreate => exact memWf_execContextCreate hs
  | contextDestroy => exact memWf_execContextDestroy hs
  | extend => exact .memWf hs (execExtend_same ..)
  | foreshoreSplit => exact .memWf hs (execForeshoreSplit_same ..)
  | installTerms => exact .memWf hs (execInstallTerms_same ..)
  | hostWrite tier pa bytes relaxed => exact memWf_execHostWrite (tier := tier) (relaxed := relaxed) hs
  | hostRead => exact .memWf hs (execHostRead_same ..)
  | getVersion => exact memWf_execGetVersion hs
  | getCapabilities => exact memWf_execGetCapabilities hs
  | negotiateAlgorithms => exact memWf_execNegotiateAlgorithms hs
  | getDigests => exact memWf_execGetDigests hs
  | getCertificate => exact memWf_execGetCertificate hs
  | challenge => exact memWf_execChallenge hs
  | getMeasurements => exact memWf_execGetMeasurements hs
  | ptpCorrection => exact .memWf hs (execPtpCorrection_same ..)
  | powerOnBoot => exact memWf_execPowerOnBoot hs
  | deviceReset => exact memWf_execDeviceReset hs
  | powerLoss => exact memWf_execPowerLoss s
  | thermalTrip => exact memWf_execThermalTrip s
  | clockThrottle => exact .memWf hs (execClockThrottle_same ..)
  | cxlAgentAccess => exact memWf_execCxlAgentAccess hs
  | softError => exact memWf_execSoftError hs
  | cryptoUnitResult => exact memWf_execCryptoUnitResult hs

theorem memWf_closeTask {s : State} (hs : s.MemWf) : (closeTask s).MemWf :=
  memWf_ite hs (memWf_ite (memWf_endBrackets hs) (memWf_ite hs (memWf_finishTask hs)))

theorem memWf_tick {s : State} (hs : s.MemWf) : (tick s).MemWf := by
  unfold tick
  extract_lets s1 s2
  have arrived : s1.MemWf := by
    dsimp only [s1]
    exact hs.same (by simp [SameMem])
  have closed : s2.MemWf := memWf_closeTask ((stopAtSafe_same ..).memWf arrived)
  exact (newCycle_same ..).memWf ((passTime_same ..).memWf closed)

theorem memWf_advanced {o : Out} (ho : o.All State.MemWf) : (advanced o).All State.MemWf := by
  cases o with
  | next t => exact (advance_same ..).memWf ho
  | fault _ => trivial
  | refused _ => trivial

theorem memWf_issueTurn {x : Issuer} {s : State} (hs : s.MemWf) : (issueTurn x s).All State.MemWf := by
  have slot : (takeSlot x s).MemWf := (takeSlot_same ..).memWf hs
  unfold issueTurn
  split
  · exact (advance_same ..).memWf hs
  split
  · split
    · exact (advance_same ..).memWf (memWf_takeTrap hs)
    · exact memWf_advanced (memWf_exec slot _)
  · exact (advance_same ..).memWf (memWf_faultHere slot)

theorem memWf_turnStep {s : State} (hs : s.MemWf) : (turnStep s).All State.MemWf := by
  unfold turnStep
  split
  · split
    · exact memWf_exec hs _
    · exact (advance_same ..).memWf hs
  · exact memWf_issueTurn hs
  · split
    · exact memWf_exec hs _
    · exact (advance_same ..).memWf (memWf_tick hs)

theorem memWf_agendaStep {i : Instr} {s : State} (hs : s.MemWf) : (agendaStep i s).All State.MemWf := by
  unfold agendaStep
  split
  · exact memWf_exec hs i
  · exact hs

/-- One step keeps the canonical form, whatever it is. -/
theorem memWf_machineStep {s : State} (hs : s.MemWf) : (machineStep s).All State.MemWf := by
  unfold machineStep
  split
  · exact memWf_agendaStep hs
  · split
    · exact memWf_turnStep hs
    · split
      · exact memWf_exec hs _
      · exact hs

/-- Settles O59: every operation of the model that writes a memory writes it through `memWrite` or `memSet`, which keep the
canonical form, and every other leaves the memories as they are; the step is made of these operations. -/
theorem stepsKeepMemories : Obligations.StepsKeepMemories := by
  unfold Obligations.StepsKeepMemories
  intro s t hs hst
  have kept : Out.All State.MemWf (step s) := memWf_machineStep hs
  rw [hst] at kept
  exact kept

end Sys2Proof.Machine
end

section
/-! The Sluices, hung groups, pre-emption with its save and its restore, and O47. -/

namespace Sys2Proof.Machine

/-! ### Sluices (R439) -/

theorem boundTo_iff {ctx : Nat} {e : Enclosure} : boundTo ctx e = true ↔ ctx ≠ 0 ∧ ctx ∈ e.ctxs := by simp [boundTo]

/-- A Sluice lets a unit pass once its allowance covers the unit, or its whole burst for a larger unit. -/
theorem sluiceLets_iff {e : Enclosure} {n : Nat} :
    sluiceLets e n = true ↔ ((min n e.burst * msUnits : Nat) : Int) ≤ e.allowance := by
  unfold sluiceLets
  split
  · next fits => rw [decide_eq_true_iff, Nat.min_eq_left fits]
  · next exceeds => rw [decide_eq_true_iff, Nat.min_eq_right (by omega)]

/-- The only unit at the Sluices may pass when each that binds its context has the allowance. -/
theorem sluiceReady_of_allowance {s : State} {u : EgressUser} {g : Egress} (only : s.egress = [g]) (user : g.user = u)
    (waits : g.passed = false) (allowed : ∀ e ∈ s.enclosures, g.ctx ≠ 0 ∧ g.ctx ∈ e.ctxs →
      ((min g.size e.burst * msUnits : Nat) : Int) ≤ e.allowance) : sluiceReady s u = some g := by
  have lets : (s.enclosures.filter (boundTo g.ctx)).all (fun e => sluiceLets e g.size) = true := by
    rw [List.all_eq_true]
    intro e he
    obtain ⟨here, bound⟩ := List.mem_filter.mp he
    exact sluiceLets_iff.mpr (allowed e here (boundTo_iff.mp bound))
  unfold sluiceReady
  rw [only]
  exact List.find?_cons_of_pos (by rw [user, waits, lets, beq_self_eq_true]; rfl)

theorem execSluicePass_of_ready {s : State} {u : EgressUser} {g : Egress} (ready : sluiceReady s u = some g) :
    execSluicePass u s = .next { s with
      enclosures := s.enclosures.map (fun e =>
        if boundTo g.ctx e then { e with allowance := e.allowance - (g.size * msUnits : Nat) } else e)
      egress := s.egress.map (fun q => if q == g then { g with passed := true } else q) } := by
  unfold execSluicePass
  rw [ready]

theorem sluicePass_passes {s : State} {u : EgressUser} {g : Egress} (only : s.egress = [g])
    (ready : sluiceReady s u = some g) :
    Answers (.sluicePass u) s (fun t => t.egress = [{ g with passed := true }] ∧
      t.enclosures.map (fun e => (e.num, e.allowance)) = s.enclosures.map (fun e => (e.num,
        if g.ctx != 0 && e.ctxs.contains g.ctx then e.allowance - ((g.size * 840000000 : Nat) : Int) else e.allowance)) ∧
      t.mem = s.mem ∧ ∀ y, ctxOf t y = ctxOf s y) := by
  refine ⟨_, execSluicePass_of_ready ready, ?_, ?_, rfl, fun y => by cases y <;> rfl⟩
  · simp [only]
  · rw [List.map_map]
    refine List.map_congr_left fun e _ => ?_
    change _ = (e.num, if boundTo g.ctx e then e.allowance - ((g.size * msUnits : Nat) : Int) else e.allowance)
    rw [Function.comp_apply]
    split
    · rfl
    · rfl

theorem sluicePass_waits {s : State} {u : EgressUser} (waits : sluiceReady s u = none) : exec (.sluicePass u) s = .next s := by
  rw [exec_sluicePass]
  unfold execSluicePass
  rw [waits]

/-! ### Hung groups (R161) -/

theorem hungDetect_rests {s : State} (due : hungDue s = false) : exec .hungDetect s = .next s := by
  rw [exec_hungDetect]
  unfold execHungDetect
  rw [due]
  rfl

theorem hungDetect_reports {s : State} (due : hungDue s = true) : Answers .hungDetect s (fun t => t.hungSeen = true ∧
    (∃ r l, t.notices = s.notices ++ [r] ∧ r.what = .hung s.task.lid l ∧ l.length = 4 ∧ r.time = s.timeBase / 840) ∧
    t.task = s.task ∧ t.mem = s.mem) := by
  have reports : execHungDetect s = .next (notify (schedSource s.die.toNat 0)
      (.hung s.task.lid (taskStreams.map (fun x => if isEnded (ctxOf s x) then 0 else 1)))
      (logLaunch .hung (s.task.lid.toNat :: taskStreams.map (fun x => if isEnded (ctxOf s x) then 0 else 1))
        { s with hungSeen := true })) := by
    unfold execHungDetect
    rw [due]
    rfl
  exact ⟨_, reports, rfl, ⟨_, _, rfl, rfl, rfl, rfl⟩, rfl, rfl⟩

/-! ### Pre-emption (R27, R28, R152 to R156) -/

theorem preemptDemand_asks {s : State} (alive : s.task.alive = true) (bulk : s.task.bulk = true)
    (first : s.preempt = false) (room : s.saves.length < 512) (wanted : (groupCores s).any foreshore = true)
    (stays : bulkStays s 0 = true) (stays' : bulkStays s 1 = true) :
    exec .preemptDemand s = .next { s with preempt := true } := by
  rw [exec_preemptDemand]
  unfold execPreemptDemand
  simp [alive, bulk, first, room, wanted, stays, stays']

theorem preemptDemand_waits {s : State} (h : s.task.alive = false ∨ s.task.bulk = false ∨ 512 ≤ s.saves.length ∨
    (groupCores s).any foreshore = false ∨ bulkStays s 0 = false) : exec .preemptDemand s = .next s := by
  rw [exec_preemptDemand]
  unfold execPreemptDemand
  rw [if_neg]
  simp only [Bool.and_eq_true, decide_eq_true_eq, not_and]
  rcases h with h | h | h | h | h
  · simp [h]
  · simp [h]
  · omega
  · simp [h]
  · simp [h]

/-! ### Save points (R155, R280) -/

theorem engineSavePoint_waits {s : State} (due : savePointDue s = false) : exec .engineSavePoint s = .next s := by
  rw [exec_engineSavePoint]
  unfold execEngineSavePoint
  rw [due]
  rfl

theorem modMx_modMx (f g : Mx → Mx) (s : State) : modMx f (modMx g s) = modMx (fun x => f (g x)) s := rfl

/-- A marker of which no tile command waits checks nothing. -/
theorem markerCheck_of_kept {s : State} (kept : s.task.mx.kept = []) (tag : BitVec 11) : markerCheck tag [] s = s := by
  have none_written : writtenAccs [] (mxOf s) = [] := by simp [writtenAccs, mxOf, kept]
  unfold markerCheck
  rw [none_written]
  rfl

/-- With nothing kept and no pops due, a marker takes the accumulators as they stand. -/
theorem marker_of_idle {s : State} (kept : s.task.mx.kept = []) (pops : s.task.mx.pops = []) (tag : BitVec 11) :
    marker tag [] s = modMx (fun x => { x with shadow := x.acc, pops := [], kept := [], since := sinceMarker x.cmds }) s := by
  unfold marker
  rw [markerCheck_of_kept kept]
  have none_due : (mxOf (modMx (fun x => { x with shadow := x.acc }) s)).pops = [] := pops
  dsimp only
  rw [none_due, List.foldl_nil, modMx_modMx, modMx_modMx]

theorem engineSavePoint_stands {s : State} (due : savePointDue s = true) (kept : s.task.mx.kept = [])
    (pops : s.task.mx.pops = []) : Answers .engineSavePoint s (fun t => t.saveFrom = some s.now ∧ t.mem = s.mem ∧
      t.spad = s.spad ∧ t.task.mx.acc = s.task.mx.acc ∧ ∀ y, ctxOf t y = ctxOf s y) := by
  have stands : execEngineSavePoint s = .next { marker 0 [] s with saveFrom := some s.now } := by
    unfold execEngineSavePoint
    rw [due]
    rfl
  refine ⟨_, stands, ?_⟩
  rw [marker_of_idle kept pops]
  exact ⟨rfl, rfl, rfl, rfl, fun y => by cases y <;> rfl⟩

/-! ### The save (R156) -/

theorem partitionSave_waits {s : State} (due : saveDue s = false) : exec .partitionSave s = .next s := by
  rw [exec_partitionSave]
  unfold execPartitionSave
  rw [due]
  rfl

theorem saveDue_of_early {s : State} {t : Nat} (since : s.saveFrom = some t) (early : s.now < t + 8000) :
    saveDue s = false := by
  have not_yet : ¬t + 8000 ≤ s.now := by omega
  simp [saveDue, since, saveCycles, not_yet]

theorem saveDue_of_running {s : State} (running : streamsStopped s = false) : saveDue s = false := by
  simp [saveDue, running]

theorem saveDue_of_stopped {s : State} {t : Nat} (since : s.saveFrom = some t) (time : t + 8000 ≤ s.now)
    (preempt : s.preempt = true) (activating : s.activating = false) (stopped : streamsStopped s = true) :
    saveDue s = true := by
  simp [saveDue, preempting, since, saveCycles, time, preempt, activating, stopped]

/-- Shadow storage with room takes another image and keeps all others. -/
theorem keepShadow_of_room {l : List SaveImage} {i : SaveImage} (room : (l.filter (·.shadow)).length < 32) :
    keepShadow (l ++ [i]) = l ++ [i] := by
  have fits : ((l ++ [i]).filter (·.shadow)).length ≤ 32 := by
    have one : ([i].filter (·.shadow)).length ≤ 1 := List.length_filter_le ..
    rw [List.filter_append, List.length_append]
    omega
  unfold keepShadow
  rw [if_pos fits]

/-- The image of the task and of what belongs to it. -/
def imageNow (s : State) : SaveImage :=
  ⟨nativeLayout s, .preempt, s.task, s.fEvents, s.replies.filter (taskReply s), s.side, s.corrected, s.holds, s.now, true⟩

theorem execPartitionSave_of_due {s : State} (due : saveDue s = true) :
    execPartitionSave s = .next (notify (schedSource s.die.toNat 0) (.preempted s.task.lid) { s with
      saves := keepShadow (s.saves ++ [imageNow s])
      fEvents := []
      replies := s.replies.filter (fun r => !taskReply s r)
      task := { Task.reset with nextId := s.task.nextId }
      side := []
      corrected := []
      preempt := false
      saveFrom := none }) := by
  unfold execPartitionSave
  rw [due]
  rfl

theorem partitionSave_saves {s : State} (due : saveDue s = true) (room : (s.saves.filter (·.shadow)).length < 32) :
    Answers .partitionSave s (fun t => (∃ i, t.saves = s.saves ++ [i] ∧ i.task = s.task ∧ i.side = s.side ∧ i.saved = s.now ∧
        i.cause = .preempt ∧ i.events = s.fEvents ∧ i.corrected = s.corrected ∧ i.shadow = true ∧
        i.layout = (s.firmware.map (·.layout)).getD 0 ∧ i.replies = s.replies.filter (taskReply s)) ∧
      t.replies = s.replies.filter (fun r => !taskReply s r) ∧ t.fEvents = [] ∧ t.task.alive = false ∧ t.preempt = false ∧
      t.mem = s.mem ∧ t.spad = s.spad ∧ t.firm = s.firm) :=
  ⟨_, execPartitionSave_of_due due, ⟨imageNow s, keepShadow_of_room room, rfl, rfl, rfl, rfl, rfl, rfl, rfl, rfl, rfl⟩,
    rfl, rfl, rfl, rfl, rfl, rfl, rfl⟩

/-! ### The restore (R156) -/

theorem partitionRestore_rests {s : State} (h : s.saves = [] ∨ s.task.alive = true ∨ s.quarantined = true) :
    exec .partitionRestore s = .next s := by
  rw [exec_partitionRestore]
  unfold execPartitionRestore
  split
  · rfl
  next img rest saved =>
    have taken : (s.task.alive || s.quarantined) = true := by
      rcases h with h | h | h
      · rw [saved] at h
        cases h
      · simp [h]
      · simp [h]
    rw [if_pos taken]

section
variable {s : State} {img : SaveImage} {rest : List SaveImage} (saved : s.saves = img :: rest)
  (free : s.task.alive = false) (sound : s.quarantined = false)
include saved free sound

theorem partitionRestore_starts (first : s.restoring = none) : exec .partitionRestore s = .next { s with
    saves := { img with layout := (s.firmware.map (·.layout)).getD 0 } :: rest
    restoring := some (s.now + if img.shadow then 8000 else 10000) } := by
  rw [exec_partitionRestore]
  unfold execPartitionRestore
  simp only [saved, free, sound, first, nativeLayout, restoreCycles, Bool.or_self, Bool.false_eq_true, if_false]

theorem partitionRestore_waits {t : Nat} (until_ : s.restoring = some t) (early : s.now < t) :
    exec .partitionRestore s = .next s := by
  rw [exec_partitionRestore]
  unfold execPartitionRestore
  simp only [saved, free, sound, until_, early, Bool.or_self, Bool.false_eq_true, if_false, if_true]

theorem execPartitionRestore_of_due {t : Nat} (until_ : s.restoring = some t) (due : t ≤ s.now) :
    execPartitionRestore s = .next { s with
      saves := rest
      restoring := none
      fEvents := img.events.foldl (fun l e => insertEvent e l) s.fEvents
      replies := s.replies ++ img.replies
      corrected := img.corrected
      task := restoreTask s.now (s.now - img.saved) s.task.nextId img.task
      side := img.side
      holds := img.holds
      quietFrom := s.now
      hungSeen := false } := by
  unfold execPartitionRestore
  simp only [saved, free, sound, until_, Nat.not_lt.mpr due, Bool.or_self, Bool.false_eq_true, if_false]

theorem partitionRestore_returns {t : Nat} (until_ : s.restoring = some t) (due : t ≤ s.now) :
    Answers .partitionRestore s (fun t => t.saves = rest ∧ t.restoring = none ∧ t.replies = s.replies ++ img.replies ∧
      t.side = img.side ∧ t.holds = img.holds ∧ t.mem = s.mem ∧ t.spad = s.spad ∧ t.firm = s.firm ∧
      t.task = restoreTask s.now (s.now - img.saved) s.task.nextId img.task ∧
      t.special = { s with task := img.task }.special) :=
  ⟨_, execPartitionRestore_of_due saved free sound until_ due, rfl, rfl, rfl, rfl, rfl, rfl, rfl, rfl, rfl, rfl⟩

end

/-- What the streams of a task that returns have kept: registers, predicates, loop counters, addresses, code, and whether
they run. -/
theorem restoreTask_ctx {s t : State} {now d next : Nat} {task : Task} (h : t.task = restoreTask now d next task)
    {y : Issuer} (hy : y ∈ [Issuer.kTask, .l, .c, .s]) :
    (ctxOf t y).regs = (ctxOf { s with task := task } y).regs ∧ (ctxOf t y).preds = (ctxOf { s with task := task } y).preds ∧
    (ctxOf t y).lc = (ctxOf { s with task := task } y).lc ∧ (ctxOf t y).pc = (ctxOf { s with task := task } y).pc ∧
    (ctxOf t y).imem = (ctxOf { s with task := task } y).imem ∧ (ctxOf t y).run = (ctxOf { s with task := task } y).run := by
  cases y with
  | kFirm => simp at hy
  | kTask => simp [ctxOf, h, restoreTask, restoreStream]
  | l => simp [ctxOf, h, restoreTask, restoreStream]
  | c => simp [ctxOf, h, restoreTask, restoreStream]
  | s => simp [ctxOf, h, restoreTask, restoreStream]

/-- Settles O47: each clause is what the operation of its step does, as the lemmas above say it. -/
theorem tasksStandAside : Obligations.TasksStandAside := by
  unfold Obligations.TasksStandAside
  intro s u g img rest from_ streams layout mine bound unit
  refine ⟨fun only user waits allowed => sluicePass_passes only (sluiceReady_of_allowance only user waits allowed),
    sluicePass_waits, hungDetect_rests, hungDetect_reports, preemptDemand_asks, preemptDemand_waits, engineSavePoint_waits,
    engineSavePoint_stands, fun since early => partitionSave_waits (saveDue_of_early since early),
    fun _ running => partitionSave_waits (saveDue_of_running running),
    fun since time preempt activating stopped =>
      partitionSave_saves (saveDue_of_stopped since time preempt activating stopped),
    partitionRestore_rests, partitionRestore_starts,
    fun saved free sound => partitionRestore_waits saved free sound, fun saved free sound until_ due => ?_⟩
  obtain ⟨t, run, saves, restoring, replies, side, holds, mem, spad, firm, task, special⟩ :=
    partitionRestore_returns saved free sound until_ due
  refine ⟨t, run, saves, restoring, replies, side, holds, mem, spad, firm, ?_, ?_, ?_, special, ?_, ?_, ?_, ?_, ?_, ?_, ?_,
    fun y hy => restoreTask_ctx task hy⟩
  all_goals simp only [task, restoreTask]

end Sys2Proof.Machine
end

section
/-! What appending to the Tideline writes, and claim, release, beat and lease. -/

namespace Sys2Proof.Machine

/-! ### What appending to the Tideline writes (R412, R413) -/

theorem tideOne_writes (source kind part : Nat) (b : List Byte) (fields : List Nat) (s : State) :
    ∃ r chain notices, tideOne source kind part b fields s =
      { s with tide := s.tide ++ [r], tideSeq := s.tideSeq + 1, tideChain := chain, tideSeal := false, notices := notices } ∧
      r.kind = kind ∧ r.seq = s.tideSeq := by
  unfold tideOne
  dsimp only
  split
  · exact ⟨_, _, _, rfl, rfl, rfl⟩
  · exact ⟨_, _, _, rfl, rfl, rfl⟩

theorem tideRest_writes (source n k : Nat) (b : List Byte) (s : State) :
    ∃ l seq chain sealed notices, tideRest source n k b s =
      { s with tide := s.tide ++ l, tideSeq := seq, tideChain := chain, tideSeal := sealed, notices := notices } := by
  induction n generalizing k b s with
  | zero => exact ⟨[], _, _, _, _, by rw [List.append_nil]; rfl⟩
  | succ n ih =>
    obtain ⟨r, chain, notices, first, -⟩ := tideOne_writes source tideCont k (b.take 40) [] s
    obtain ⟨l, seq, chain', sealed, notices', rest⟩ := ih (k + 1) (b.drop 40) (tideOne source tideCont k (b.take 40) [] s)
    refine ⟨r :: l, seq, chain', sealed, notices', ?_⟩
    rw [tideRest, rest, first, List.append_assoc, List.singleton_append]

/-- A record is written behind those before it, with its continuations; the Tideline's registers move on, and the owner may
be told, and nothing else changes. -/
theorem tidePut_writes (source kind : Nat) (fields : List Nat) (b : List Byte) (s : State) :
    ∃ r l seq chain sealed notices, tidePut source kind fields b s =
      { s with tide := s.tide ++ r :: l, tideSeq := seq, tideChain := chain, tideSeal := sealed, notices := notices } ∧
      r.kind = kind ∧ r.seq = s.tideSeq := by
  unfold tidePut
  extract_lets c
  obtain ⟨r, chain, notices, first, kind_eq, seq_eq⟩ := tideOne_writes source kind c.length (c.take 40) fields s
  obtain ⟨l, seq, chain', sealed, notices', rest⟩ :=
    tideRest_writes source (tideParts c.length - 1) 1 (c.drop 40) (tideOne source kind c.length (c.take 40) fields s)
  refine ⟨r, l, seq, chain', sealed, notices', ?_, kind_eq, seq_eq⟩
  rw [rest, first, List.append_assoc, List.singleton_append]

/-- A record of the machine's own leaves what it is about as it was. -/
theorem tideAdd_keeps (kind : Nat) (fields : List Nat) (s : State) :
    (tideAdd titheSource kind fields s).claim = s.claim ∧ (tideAdd titheSource kind fields s).mem = s.mem ∧
    ∃ r ∈ (tideAdd titheSource kind fields s).tide, r.kind = kind ∧ s.tideSeq ≤ r.seq := by
  obtain ⟨r, l, seq, chain, sealed, notices, written, kind_eq, seq_eq⟩ :=
    tidePut_writes titheSource kind fields (Config.tideBytes kind fields) s
  unfold tideAdd
  rw [written]
  exact ⟨rfl, rfl, r, by simp, kind_eq, seq_eq.ge⟩

/-! ### Claim, release, beat and lease (R406 to R409, R413) -/

/-- A state with room for a record of 26 parts still fits when the record is in. -/
theorem tideFits_tideAdd {kind : Nat} {fields : List Nat} {s : State} (room : s.tide.length + 26 ≤ Config.tideRecords) :
    tideFits (tideAdd titheSource kind fields s) = true :=
  decide_eq_true ((tideAdd_appends titheSource kind fields s).length.trans room)

theorem not_tideFits_tideAdd {kind : Nat} {fields : List Nat} {s : State} (full : Config.tideRecords ≤ s.tide.length) :
    tideFits (tideAdd titheSource kind fields s) = false := by
  obtain ⟨l, appended, some_, -⟩ := tideAdd_appends titheSource kind fields s
  unfold tideFits
  rw [appended, List.length_append]
  exact decide_eq_false (by omega)

section
variable {s : State} {m : BitVec 24} {nonce : Option (BitVec 32)} (serves : serving s = true) (empty : s.claimq = [])
include serves empty

/-- A write to CLAIM or RELEASE with no other before it is decided at once where its record finds room. -/
theorem arriveClaim_of_fits (fits : tideFits (decideClaim m nonce s) = true) :
    arriveClaim m nonce s = { decideClaim m nonce s with claimq := [] } := by
  unfold arriveClaim
  rw [if_pos serves, empty, List.nil_append, decideClaims, if_pos fits, decideClaims]

theorem arriveClaim_of_full (full : tideFits (decideClaim m nonce s) = false) :
    arriveClaim m nonce s = { s with claimq := [(m, nonce)] } := by
  unfold arriveClaim
  rw [if_pos serves, empty, List.nil_append, decideClaims, if_neg (by rw [full]; exact Bool.false_ne_true)]

/-- A write that is ignored changes nothing. -/
theorem arriveClaim_of_ignored (ignored : decideClaim m nonce s = s) (room : s.tide.length ≤ Config.tideRecords) :
    arriveClaim m nonce s = s := by
  rw [arriveClaim_of_fits serves empty (by rw [ignored]; exact decide_eq_true room), ignored, ← empty]

end

theorem decideClaim_of_free {s : State} {m : BitVec 24} {n : BitVec 32}
    (free : s.claim.owner = none ∨ s.claim.hand = some m) : decideClaim m (some n) s =
      tideAdd titheSource 0x10 [m.toNat, n.toNat]
        { s with claim := { s.claim with v := true, id := m, nonce := n, p := false, last := s.timeBase } } := by
  refine if_pos ?_
  rcases free with free | free
  · rw [free]
    rfl
  · rw [free, beq_self_eq_true, Bool.or_true]

theorem decideClaim_of_owned {s : State} {m k : BitVec 24} {n : BitVec 32} (owner : s.claim.owner = some k)
    (hand : s.claim.hand ≠ some m) : decideClaim m (some n) s = s := by
  refine if_neg ?_
  rw [owner, beq_eq_false_iff_ne.mpr hand]
  exact Bool.false_ne_true

theorem decideClaim_release {s : State} {m : BitVec 24} (owner : s.claim.owner = some m) :
    decideClaim m none s = giveUp s := if_pos (isOwner_iff.mpr owner)

theorem decideClaim_release_ignored {s : State} {m : BitVec 24} (owner : s.claim.owner ≠ some m) :
    decideClaim m none s = s := if_neg (mt isOwner_iff.mp owner)

theorem giveUp_frees (s : State) : (giveUp s).claim.owner = none ∧ (giveUp s).claim.hand = none ∧
    ∃ r ∈ (giveUp s).tide, r.kind = 0x11 ∧ s.tideSeq ≤ r.seq := by
  obtain ⟨claim, -, noted⟩ := tideAdd_keeps 0x11 [(s.claim.owner.getD 0).toNat]
    { s with claim := { s.claim with v := false, p := false } }
  unfold giveUp
  rw [claim]
  exact ⟨rfl, rfl, noted⟩

theorem leaseDue_iff {s : State} : leaseDue s = true ↔ serving s = true ∧ tideFits (giveUp s) = true ∧
    s.claim.owner.isSome = true ∧ s.claim.lease ≠ 0 ∧ s.claim.last + s.claim.lease.toNat * 840000000 ≤ s.timeBase := by
  simp only [leaseDue, Bool.and_eq_true, bne_iff_ne, decide_eq_true_iff, and_assoc]
  rfl

section
variable {s : State} {m : BitVec 24} {nonce : BitVec 32} (serves : s.power = true ∧ s.booted = true)
include serves

section
variable (room : s.tide.length + 26 ≤ Config.tideRecords) (empty : s.claimq = [])
include room empty

theorem claim_takes (free : s.claim.owner = none ∨ s.claim.hand = some m) : Answers (.claim m nonce) s (fun t =>
    t.claim.owner = some m ∧ t.claim.nonce = nonce ∧ t.claim.hand = none ∧
    (∃ r ∈ t.tide, r.kind = 0x10 ∧ s.tideSeq ≤ r.seq) ∧ t.mem = s.mem) := by
  have decided := decideClaim_of_free (n := nonce) free
  refine ⟨_, congrArg Host.Outcome.next (arriveClaim_of_fits (serving_of serves.1 serves.2) empty ?_), ?_⟩
  · rw [decided]
    exact tideFits_tideAdd room
  · rw [decided]
    obtain ⟨claim, mem, noted⟩ := tideAdd_keeps 0x10 [m.toNat, nonce.toNat]
      { s with claim := { s.claim with v := true, id := m, nonce := nonce, p := false, last := s.timeBase } }
    dsimp only
    rw [claim]
    exact ⟨rfl, rfl, rfl, noted, mem⟩

theorem claim_ignored {k : BitVec 24} (owner : s.claim.owner = some k) (hand : s.claim.hand ≠ some m) :
    exec (.claim m nonce) s = .next s :=
  congrArg Host.Outcome.next (arriveClaim_of_ignored (serving_of serves.1 serves.2) empty
    (decideClaim_of_owned owner hand) (by omega))

theorem release_frees (owner : s.claim.owner = some m) : Answers (.release m) s (fun t => t.claim.owner = none ∧
    t.claim.hand = none ∧ ∃ r ∈ t.tide, r.kind = 0x11 ∧ s.tideSeq ≤ r.seq) := by
  have decided := decideClaim_release owner
  refine ⟨_, congrArg Host.Outcome.next (arriveClaim_of_fits (serving_of serves.1 serves.2) empty ?_), ?_⟩
  · rw [decided]
    exact tideFits_tideAdd room
  · rw [decided]
    exact giveUp_frees s

theorem release_ignored (owner : s.claim.owner ≠ some m) : exec (.release m) s = .next s :=
  congrArg Host.Outcome.next (arriveClaim_of_ignored (serving_of serves.1 serves.2) empty
    (decideClaim_release_ignored owner) (by omega))

end

section
variable (full : Config.tideRecords ≤ s.tide.length) (empty : s.claimq = [])
include full empty

theorem claim_waits (free : s.claim.owner = none ∨ s.claim.hand = some m) : Answers (.claim m nonce) s (fun t =>
    t.claim = s.claim ∧ t.tide = s.tide ∧ t.claimq = [(m, some nonce)]) := by
  refine ⟨_, congrArg Host.Outcome.next (arriveClaim_of_full (serving_of serves.1 serves.2) empty ?_), rfl, rfl, rfl⟩
  rw [decideClaim_of_free free]
  exact not_tideFits_tideAdd full

theorem release_waits (owner : s.claim.owner = some m) : Answers (.release m) s (fun t =>
    t.claim = s.claim ∧ t.tide = s.tide ∧ t.claimq = [(m, none)]) := by
  refine ⟨_, congrArg Host.Outcome.next (arriveClaim_of_full (serving_of serves.1 serves.2) empty ?_), rfl, rfl, rfl⟩
  rw [decideClaim_release owner]
  exact not_tideFits_tideAdd full

end

theorem beat_renews (owner : s.claim.owner = some m) :
    Answers (.beat m) s (fun t => t.claim = { s.claim with last := s.timeBase }) := by
  have beats : execBeat m s = .next (touchOwner s) := by
    unfold execBeat
    rw [if_pos (by rw [serving_of serves.1 serves.2, isOwner_iff.mpr owner]; rfl)]
  exact ⟨_, beats, rfl⟩

theorem leaseExpiry_frees (room : s.tide.length + 26 ≤ Config.tideRecords) (owner : s.claim.owner = some m)
    (lease : s.claim.lease ≠ 0) (over_ : s.claim.last + s.claim.lease.toNat * 840000000 ≤ s.timeBase) :
    Answers .leaseExpiry s (fun t => t.claim.owner = none ∧ ∃ r ∈ t.tide, r.kind = 0x11 ∧ s.tideSeq ≤ r.seq) := by
  have fits : tideFits (giveUp s) = true := tideFits_tideAdd room
  have due : leaseDue s = true :=
    leaseDue_iff.mpr ⟨serving_of serves.1 serves.2, fits, by rw [owner]; rfl, lease, over_⟩
  obtain ⟨free, -, noted⟩ := giveUp_frees s
  exact ⟨_, congrArg Host.Outcome.next (if_pos due), free, noted⟩

end

theorem beat_ignored {s : State} {m : BitVec 24} (owner : s.claim.owner ≠ some m) : exec (.beat m) s = .next s := by
  rw [exec_beat]
  unfold execBeat
  rw [if_neg]
  rw [Bool.and_eq_true, isOwner_iff]
  exact fun h => owner h.2

theorem leaseExpiry_rests {s : State}
    (h : s.claim.lease = 0 ∨ s.timeBase < s.claim.last + s.claim.lease.toNat * 840000000) :
    exec .leaseExpiry s = .next s := by
  refine congrArg Host.Outcome.next (if_neg fun due => ?_)
  obtain ⟨-, -, -, lease, over_⟩ := leaseDue_iff.mp due
  rcases h with none_ | early
  · exact lease none_
  · omega

end Sys2Proof.Machine
end

section
/-! Masters outside the core, time, boot, reset and loss, and O51. -/

namespace Sys2Proof.Machine

/-! ### Writes by masters outside the core (R109, R378, R379, R436) -/

/-- The bytes of a write at `pa` that lie below the certificate store. -/
def belowStore (pa n : Nat) : Nat := Nat.min n (Config.certStorePa - pa)

/-- How far behind `pa` the bytes of a write begin that lie above the certificate store. -/
def aboveStore (pa : Nat) : Nat :=
  Nat.max pa (if pa < Config.certStorePa + Config.certStoreBytes then Config.certStorePa + Config.certStoreBytes else 0) - pa

theorem belowStore_le (pa n : Nat) : belowStore pa n ≤ n := Nat.min_le_left ..

/-- A master's write is one of its bytes below the certificate store and one of those above it. -/
theorem memPutOut_mem (pa : Nat) (b : List Byte) (s : State) : (memPutOut pa b s).mem =
    memWrite (memWrite s.mem pa (b.take (belowStore pa b.length))) (pa + aboveStore pa) (b.drop (aboveStore pa)) := by
  have low : (b.take (belowStore pa b.length)).length = belowStore pa b.length := by
    rw [List.length_take, Nat.min_eq_left (belowStore_le ..)]
  have high : (b.drop (aboveStore pa)).length = b.length - aboveStore pa := List.length_drop
  have first := segWrite_one s.mem pa (b.take (belowStore pa b.length))
  rw [low] at first
  have second := segWrite_one (memWrite s.mem pa (b.take (belowStore pa b.length))) (pa + aboveStore pa)
    (b.drop (aboveStore pa))
  rw [high] at second
  rw [← second, ← first]
  rfl

theorem belowStore_end (pa n : Nat) : belowStore pa n = 0 ∨ pa + belowStore pa n ≤ Config.certStorePa := by
  have : belowStore pa n ≤ Config.certStorePa - pa := Nat.min_le_right ..
  omega

theorem aboveStore_start (pa : Nat) : Config.certStorePa + Config.certStoreBytes ≤ pa + aboveStore pa := by
  unfold aboveStore
  split
  · have reached : Config.certStorePa + Config.certStoreBytes ≤
        Nat.max pa (Config.certStorePa + Config.certStoreBytes) := Nat.le_max_right ..
    omega
  · omega

/-- No master outside the core writes the certificate store. -/
theorem memPutOut_keeps_store {s : State} (wf : memWf s.mem = true) (pa : Nat) (b : List Byte) {y : Nat}
    (low : Config.certStorePa ≤ y) (high : y < Config.certStorePa + Config.certStoreBytes) :
    memGet (memPutOut pa b s).mem y = memGet s.mem y := by
  have before := belowStore_end pa b.length
  have behind := aboveStore_start pa
  have out : y < pa ∨ pa + (b.take (belowStore pa b.length)).length ≤ y := by
    rw [List.length_take]
    omega
  rw [memPutOut_mem, memGet_memWrite_outside (memWf_memWrite _ _ wf) (.inl (by omega)), memGet_memWrite_outside wf out]

/-- A master's write that does not touch the certificate store is the write of its bytes. -/
theorem memPutOut_mem_of_apart {pa : Nat} {b : List Byte}
    (apart : pa + b.length ≤ Config.certStorePa ∨ Config.certStorePa + Config.certStoreBytes ≤ pa ∨ b = []) (s : State) :
    (memPutOut pa b s).mem = memWrite s.mem pa b := by
  rw [memPutOut_mem]
  rcases apart with below | above | none_
  · have whole : belowStore pa b.length = b.length := Nat.min_eq_left (by omega)
    have behind := aboveStore_start pa
    rw [whole, List.take_length, List.drop_of_length_le (by omega)]
    rfl
  · have none_below : belowStore pa b.length = 0 := by
      have := belowStore_end pa b.length
      have : Config.certStorePa - pa = 0 := by omega
      unfold belowStore
      rw [this]
      exact Nat.min_zero _
    have none_skipped : aboveStore pa = 0 := by
      unfold aboveStore
      rw [if_neg (by omega)]
      simp
    rw [none_below, none_skipped]
    rfl
  · rw [none_]
    simp [memWrite]

/-- Bytes that no byte of a run contains lie below it, or above it, or there are none. -/
theorem apart_of_disjoint {pa : Nat} {b : List Byte} (disjoint : ∀ y,
    Config.certStorePa ≤ y ∧ y < Config.certStorePa + Config.certStoreBytes → ¬(pa ≤ y ∧ y < pa + b.length)) :
    pa + b.length ≤ Config.certStorePa ∨ Config.certStorePa + Config.certStoreBytes ≤ pa ∨ b = [] := by
  have start := disjoint pa
  have store := disjoint Config.certStorePa
  have size : 0 < Config.certStoreBytes := by decide
  by_cases none_ : b = []
  · exact .inr (.inr none_)
  · have : 0 < b.length := List.length_pos_iff.mpr none_
    omega

/-- The bytes of a write stand where they were written, and no other byte has changed, nor has K's cache. -/
theorem memPutOut_writes {s : State} (wf : memWf s.mem = true) {pa : Nat} {b : List Byte}
    (disjoint : ∀ y, Config.certStorePa ≤ y ∧ y < Config.certStorePa + Config.certStoreBytes →
      ¬(pa ≤ y ∧ y < pa + b.length)) :
    memRead (memPutOut pa b s).mem pa b.length = b ∧
    (∀ y, ¬(pa ≤ y ∧ y < pa + b.length) → memGet (memPutOut pa b s).mem y = memGet s.mem y) ∧
    (memPutOut pa b s).spad = s.spad ∧ (memPutOut pa b s).dcache = s.dcache ∧
    ∀ y, ctxOf (memPutOut pa b s) y = ctxOf s y := by
  rw [memPutOut_mem_of_apart (apart_of_disjoint disjoint)]
  exact ⟨memRead_memWrite_same wf pa b, fun y out => memGet_memWrite_outside wf (by omega), rfl, rfl,
    fun y => by cases y <;> rfl⟩

theorem paOutside_iff {pa n : Nat} : paOutside pa n = true ↔ 2 ^ 52 < pa + n := decide_eq_true_iff

theorem hostWrite_runs {tier : Tier} {pa : Nat} {b : List Byte} {relaxed : Bool} {s : State}
    (inside : pa + b.length ≤ 2 ^ 52) : exec (.hostWrite tier pa b relaxed) s = .next (memPutOut pa b s) :=
  if_neg (mt paOutside_iff.mp (by omega))

theorem cxlWrite_runs {pa : Nat} {b : List Byte} {s : State} (inside : pa + b.length ≤ 2 ^ 52) :
    exec (.cxlAgentAccess pa (some b)) s = .next (memPutOut pa b s) :=
  if_neg (mt paOutside_iff.mp (by rw [Option.getD_some]; omega))

theorem hostWrite_outside {tier : Tier} {pa : Nat} {b : List Byte} {relaxed : Bool} {s : State}
    (outside : 2 ^ 52 < pa + b.length) : exec (.hostWrite tier pa b relaxed) s = .fault (.outsideMemory pa) :=
  if_pos (paOutside_iff.mpr outside)

theorem cxlWrite_outside {pa : Nat} {b : List Byte} {s : State} (outside : 2 ^ 52 < pa + b.length) :
    exec (.cxlAgentAccess pa (some b)) s = .fault (.outsideMemory pa) :=
  if_pos (paOutside_iff.mpr outside)

theorem cxlRead_runs {pa : Nat} {s : State} (inside : pa ≤ 2 ^ 52) : exec (.cxlAgentAccess pa none) s = .next s :=
  if_neg (mt paOutside_iff.mp (by rw [Option.getD_none, List.length_nil]; omega))

/-! ### Host reads (R32, R439) -/

section
variable {s : State} {ctx va len : Nat} {e : PageEntry} (page : s.pages.find? (pageHas ctx va) = some e)
include page

theorem hostRead_refused (bad : enclosureBad s ctx ⟨e.pbase + (va - e.vbase), len⟩ = true) :
    exec (.hostRead ctx va len) s = .next s := by
  rw [exec_hostRead]
  unfold execHostRead
  rw [page]
  exact if_pos bad

variable (bound : enclosureBad s ctx ⟨e.pbase + (va - e.vbase), len⟩ = false)
include bound

theorem hostRead_completes (passed : egressPassed s .host ctx len = true) :
    Answers (.hostRead ctx va len) s (fun t => t.mem = s.mem ∧ t.egress.length ≤ s.egress.length ∧
      ∀ g ∈ s.egress, ¬(g.user = .host ∧ g.size = len ∧ g.ctx = ctx ∧ g.passed = true) → g ∈ t.egress) := by
  have completes : execHostRead ctx va len s = .next (egressDone .host ctx len s) := by
    unfold execHostRead
    simp only [page, bound, passed, Bool.false_eq_true, if_false, if_true]
  refine ⟨_, completes, rfl, List.length_eraseP_le, fun g hg other => ?_⟩
  exact (List.mem_eraseP_of_neg (by simpa [and_assoc] using other)).mpr hg

theorem hostRead_asks (waits : egressPassed s .host ctx len = false) :
    Answers (.hostRead ctx va len) s (fun t => t.mem = s.mem ∧ (∀ g ∈ s.egress, g ∈ t.egress) ∧
      ∃ g ∈ t.egress, g.user = .host ∧ g.size = len ∧ g.ctx = ctx) := by
  have asks : execHostRead ctx va len s = .next (egressAsk .host ctx len s) := by
    unfold execHostRead
    simp only [page, bound, waits, Bool.false_eq_true, if_false]
  refine ⟨_, asks, ?_⟩
  unfold egressAsk
  split
  · next there =>
    obtain ⟨g, hg, same⟩ := List.any_eq_true.mp there
    exact ⟨rfl, fun _ h => h, g, hg, by simpa [and_assoc] using same⟩
  · exact ⟨rfl, fun g hg => List.mem_append_left _ hg, _, List.mem_append_right _ (List.mem_singleton_self _), rfl, rfl, rfl⟩

end

/-! ### Time (R410, R425) -/

theorem ptpCorrection_steps {delta : Int} (forward : 0 ≤ delta) (s : State) : Answers (.ptpCorrection delta) s (fun t =>
    t.ptp = s.ptp + delta.toNat * 840 ∧ t.slew = s.slew ∧ t.timeBase = s.timeBase) :=
  ⟨_, congrArg Host.Outcome.next (if_pos forward), rfl, rfl, rfl⟩

theorem ptpCorrection_slews {delta : Int} (backward : delta < 0) (s : State) : Answers (.ptpCorrection delta) s (fun t =>
    t.ptp = s.ptp ∧ t.slew = s.slew - delta * 840 ∧ t.timeBase = s.timeBase) := by
  refine ⟨_, congrArg Host.Outcome.next (if_neg (by omega)), rfl, ?_, rfl⟩
  change s.slew + (-delta) * 840 = s.slew - delta * 840
  omega

/-! ### Boot (R423, R434 to R436) -/

/-- Writes of a service image's data leave all but memory as it was. -/
theorem foldl_memPutOut_writes (l : List (Nat × List Byte)) (s : State) :
    ∃ mem bad, l.foldl (fun s d => memPutOut d.1 d.2 s) s = { s with mem := mem, memBad := bad } := by
  induction l generalizing s with
  | nil => exact ⟨_, _, rfl⟩
  | cons d l ih =>
    obtain ⟨mem, bad, h⟩ := ih (memPutOut d.1 d.2 s)
    exact ⟨mem, bad, h⟩

/-- The machine at boot before its memory and its Tideline are written. -/
def booting (s : State) : State :=
  { s with
    power := true
    booted := true
    exhausted := s.boots == 4095
    boots := Nat.min 4095 (s.boots + 1)
    crypto := bootMeas (bootDigests s) s.crypto
    firm := bootFirm s
    kv := { s.kv with pool := List.range Config.kvPages } }

/-- What boot puts into memory changes memory and the translations alone. -/
theorem bootData_writes (s : State) : ∃ mem bad pages, bootData s = { s with mem := mem, memBad := bad, pages := pages } := by
  unfold bootData
  extract_lets s1 s2
  split
  · exact ⟨_, _, _, rfl⟩
  · split
    · exact ⟨_, _, _, rfl⟩
    · next i _ =>
      obtain ⟨mem, bad, h⟩ := foldl_memPutOut_writes i.data
        { s2 with pages := s2.pages ++ i.pages.filter (fun e => e.ctx == 0 && e.tier == .hbm) }
      exact ⟨mem, bad, _, h⟩

/-- Boot leaves the machine as it was at the start of booting, with its memory, translations and Tideline written. -/
theorem powerOnBoot_runs {s : State} (off : s.booted = false) : ∃ t r l seq chain sealed notices,
    exec .powerOnBoot s = .next t ∧ t = { bootData (booting s) with
      tide := s.tide ++ r :: l, tideSeq := seq, tideChain := chain, tideSeal := sealed, notices := notices } ∧
    r.kind = 1 ∧ r.seq = s.tideSeq := by
  obtain ⟨r, l, seq, chain, sealed, notices, written, kind, first⟩ := tidePut_writes titheSource 0x01 []
    ((bootDigests s).flatMap (fun d => (d ++ List.replicate 64 0).take 64)) (bootData (booting s))
  obtain ⟨mem, bad, pages, data⟩ := bootData_writes (booting s)
  have tide : (bootData (booting s)).tide = s.tide := by rw [data]; rfl
  have head : (bootData (booting s)).tideSeq = s.tideSeq := by rw [data]; rfl
  refine ⟨_, r, l, seq, chain, sealed, notices, ?_, rfl, kind, first.trans head⟩
  rw [← tide, ← written, exec_powerOnBoot]
  unfold execPowerOnBoot
  rw [off]
  rfl

/-- Without a service image, boot writes the certificate store and nothing else in memory, and maps it with the mailbox for
the service core. -/
theorem bootData_of_firmware {s : State} (firmware : s.kind = .service → bootService s = none) :
    (bootData s).mem = memWrite s.mem Config.certStorePa certStore ∧
    (s.kind = .service → (bootData s).pages = s.pages ++ servicePages) ∧
    (s.kind ≠ .service → (bootData s).pages = s.pages) := by
  have store := segWrite_one s.mem Config.certStorePa certStore
  unfold bootData
  extract_lets s1 s2
  by_cases kind : s.kind = .service
  · rw [if_neg (by simp [kind]), firmware kind]
    exact ⟨store, fun _ => rfl, fun other => absurd kind other⟩
  · rw [if_pos (by simp [kind])]
    exact ⟨store, fun service => absurd service kind, fun _ => rfl⟩

theorem powerOnBoot_rests {s : State} (on : s.booted = true) : exec .powerOnBoot s = .next s := if_pos on

theorem powerOnBoot_boots {s : State} (off : s.booted = false)
    (firmware : s.kind = .service → s.debugFuse = true → s.bootImage = none) : Answers .powerOnBoot s (fun t =>
      t.power = true ∧ t.booted = true ∧ t.boots = min 4095 (s.boots + 1) ∧ t.exhausted = decide (s.boots = 4095) ∧
      (s.MemWf → memRead t.mem Config.certStorePa certStore.length = certStore ∧
        ∀ y, ¬(Config.certStorePa ≤ y ∧ y < Config.certStorePa + certStore.length) → memGet t.mem y = memGet s.mem y) ∧
      (s.kind = .service → ∀ p ∈ servicePages, p ∈ t.pages) ∧ (s.kind ≠ .service → t.pages = s.pages) ∧
      t.firm.run = .running ∧ ∃ r l, t.tide = s.tide ++ r :: l ∧ r.kind = 1 ∧ r.seq = s.tideSeq) := by
  obtain ⟨t, r, l, seq, chain, sealed, notices, runs, booted, record, first⟩ := powerOnBoot_runs off
  obtain ⟨mem, bad, pages, data⟩ := bootData_writes (booting s)
  have no_image : (booting s).kind = .service → bootService (booting s) = none := fun service => by
    unfold bootService
    split
    · next fuse => exact firmware service fuse
    · rfl
  obtain ⟨store, mapped, unmapped⟩ := bootData_of_firmware no_image
  have mem_eq : t.mem = memWrite s.mem Config.certStorePa certStore := by rw [booted]; exact store
  have pages_eq : t.pages = (bootData (booting s)).pages := by rw [booted]
  refine ⟨t, runs, ?_, ?_, ?_, ?_, fun wf => ?_, fun service p hp => ?_, fun other => pages_eq.trans (unmapped other), ?_,
    r, l, by rw [booted], record, first⟩
  · rw [booted, data]; rfl
  · rw [booted, data]; rfl
  · rw [booted, data]; rfl
  · rw [booted, data]; rfl
  · rw [mem_eq]
    exact ⟨memRead_memWrite_same wf.1 _ _, fun y out => memGet_memWrite_outside wf.1 (by omega)⟩
  · rw [pages_eq, mapped service]
    exact List.mem_append_right _ hp
  · rw [booted, data]; rfl

/-- Measurement register 1 is extended with the digest of the service core's firmware. -/
theorem bootMeas_one (d : List (List Byte)) (c : Crypto) :
    (bootMeas d c).meas[1] = sha512 (c.meas[1] ++ d.getD 2 []) := by
  simp [bootMeas]

theorem bootDigests_service {s : State} {img : ServiceImage} (image : s.bootImage = some img) :
    (bootDigests s).getD 2 [] = if s.debugFuse then sha512 img.file else Config.bootDigest 2 := by
  cases fuse : s.debugFuse with
  | false => simp [bootDigests, bootService, fuse]
  | true => simp [bootDigests, bootService, fuse, image]

/-- On a part whose fuse is blown, the service core begins with the code of its image. -/
theorem bootFirm_of_image {s : State} {img : ServiceImage} (image : s.bootImage = some img) (fuse : s.debugFuse = true)
    (kind : s.kind = .service) : (bootFirm s).imem = sectionMem img.kCode := by
  simp [bootFirm, kind, bootService, fuse, image]

theorem powerOnBoot_measures {s : State} {img : ServiceImage} (off : s.booted = false) (image : s.bootImage = some img) :
    Answers .powerOnBoot s (fun t =>
      t.crypto.meas[1] = sha512 (s.crypto.meas[1] ++ if s.debugFuse then sha512 img.file else Config.bootDigest 2) ∧
      (s.debugFuse = true → s.kind = .service → t.firm.run = .running ∧ t.firm.pc = s.firm.pc ∧
        t.firm.imem = memWrite [] 0 (img.kCode.flatMap (fun w => leBytes 8 w.toNat)))) := by
  obtain ⟨t, r, l, seq, chain, sealed, notices, runs, booted, -, -⟩ := powerOnBoot_runs off
  obtain ⟨mem, bad, pages, data⟩ := bootData_writes (booting s)
  have crypto : t.crypto = bootMeas (bootDigests s) s.crypto := by rw [booted, data]; rfl
  have firm : t.firm = bootFirm s := by rw [booted, data]; rfl
  refine ⟨t, runs, ?_, fun fuse kind => ?_⟩
  · rw [crypto, bootMeas_one, bootDigests_service image]
  · rw [firm]
    exact ⟨rfl, rfl, bootFirm_of_image image fuse kind⟩

/-! ### Reset and loss (R406, R423, R425, R437) -/

/-- What a loss leaves: the fuses, the boot counter and the identity of the core. -/
structure Lost (s : State) (power : Bool) (t : State) : Prop where
  power_eq : t.power = power
  booted : t.booted = false
  boots : t.boots = s.boots
  identity : (t.core, t.die, t.kind) = (s.core, s.die, s.kind)
  mem : t.mem = []
  spad : t.spad = []
  owner : t.claim.owner = none
  task : t.task = Task.reset
  firm : t.firm.run = .absent
  contexts : t.contexts = []
  terms : t.terms = []
  tide : t.tide = []

theorem lost_afterLoss (s : State) : Lost s true (afterLoss s) :=
  ⟨rfl, rfl, rfl, rfl, rfl, rfl, rfl, rfl, rfl, rfl, rfl, rfl⟩

theorem resetAllowed_iff {s : State} : resetAllowed s = true ↔
    (∃ k, s.resetBy = some k ∧ s.claim.owner = some k) ∨ (s.resetBy = none ∧ s.debugFuse = true) := by
  unfold resetAllowed
  cases s.resetBy with
  | none => simp
  | some m => simp [isOwner_iff]

theorem deviceReset_resets {s : State} (power : s.power = true)
    (allowed : (∃ k, s.resetBy = some k ∧ s.claim.owner = some k) ∨ (s.resetBy = none ∧ s.debugFuse = true)) :
    exec .deviceReset s = .next (afterLoss s) := by
  rw [exec_deviceReset]
  unfold execDeviceReset
  rw [power, if_neg (by simp), if_pos (resetAllowed_iff.mpr allowed)]

theorem deviceReset_dropped {s : State} (power : s.power = true)
    (barred : (∃ k, s.resetBy = some k ∧ s.claim.owner ≠ some k) ∨ (s.resetBy = none ∧ s.debugFuse = false)) :
    exec .deviceReset s = .next { s with resetBy := none } := by
  have refused : ¬resetAllowed s = true := by
    rw [resetAllowed_iff]
    rcases barred with ⟨k, asked, other⟩ | ⟨asked, fuse⟩
    · simp [asked, other]
    · simp [asked, fuse]
  rw [exec_deviceReset]
  unfold execDeviceReset
  rw [power, if_neg (by simp), if_neg refused]

/-- Settles O51: each clause is what the operation of its step does, as the lemmas above say it. -/
theorem deviceEventsAct : Obligations.DeviceEventsAct := by
  unfold Obligations.DeviceEventsAct
  intro s m n nonce tier pa ctx va len bytes relaxed delta hot e serves up full inStore kept wrote noted lost
  have lost_of {t : State} {power : Bool} (h : Lost s power t) : lost power t :=
    ⟨h.power_eq, h.booted, h.boots, h.identity, h.mem, h.spad, h.owner, h.task, h.firm, h.contexts, h.terms, h.tide⟩
  refine ⟨?claim, ?claim_ignored, ?claim_waits, ?release_waits, ?owner, ?other, ?lease, leaseExpiry_rests, ?writes, ?store,
    fun outside => ⟨hostWrite_outside outside, cxlWrite_outside outside⟩, cxlRead_runs, ?read,
    fun forward => ptpCorrection_steps forward s, fun backward => ptpCorrection_slews backward s, powerOnBoot_boots,
    fun img => powerOnBoot_measures, powerOnBoot_rests, ?reset, deviceReset_dropped, ?power, ?trip, ⟨_, rfl, rfl, rfl⟩⟩
  case claim =>
    rintro ⟨on, room, empty⟩ free
    exact claim_takes on room empty free
  case claim_ignored =>
    rintro ⟨on, room, empty⟩ owner hand
    exact claim_ignored on room empty owner hand
  case claim_waits =>
    rintro ⟨on, no_room, empty⟩ free
    exact claim_waits on no_room empty free
  case release_waits =>
    rintro ⟨on, no_room, empty⟩ owner
    exact release_waits on no_room empty owner
  case owner =>
    rintro ⟨on, room, empty⟩ owner
    exact ⟨beat_renews on owner, release_frees on room empty owner⟩
  case other =>
    intro owner
    exact ⟨beat_ignored owner, fun ⟨on, room, empty⟩ => release_ignored on room empty owner⟩
  case lease =>
    rintro ⟨on, room, -⟩ owner lease over_
    exact leaseExpiry_frees on room owner lease over_
  case writes =>
    intro wf inside disjoint
    exact ⟨⟨_, hostWrite_runs inside, memPutOut_writes wf.1 disjoint⟩, ⟨_, cxlWrite_runs inside, memPutOut_writes wf.1 disjoint⟩⟩
  case store =>
    intro wf inside
    exact ⟨⟨_, hostWrite_runs inside, fun y ⟨low, high⟩ => memPutOut_keeps_store wf.1 pa bytes low high⟩,
      ⟨_, cxlWrite_runs inside, fun y ⟨low, high⟩ => memPutOut_keeps_store wf.1 pa bytes low high⟩⟩
  case read =>
    intro page
    exact ⟨hostRead_refused page, hostRead_completes page, hostRead_asks page⟩
  case reset =>
    intro power allowed
    exact ⟨_, deviceReset_resets power allowed, lost_of (lost_afterLoss s)⟩
  case power => exact ⟨_, rfl, lost_of { lost_afterLoss s with power_eq := rfl }⟩
  case trip => exact ⟨_, rfl, lost_of { lost_afterLoss s with power_eq := rfl }, rfl⟩

end Sys2Proof.Machine
end

section
/-! What every word does before its body: its waits, its overflow check, its false guard; and O7, O8. -/

namespace Sys2Proof.Machine

/-! ### Tokens of a word -/

theorem fifoIdx_inj {f g : Fifo} : fifoIdx f = fifoIdx g ↔ f = g := by
  cases f <;> cases g <;> decide

theorem tokensFor_cons (f : Fifo) (p : Fifo × Nat) (l : List (Fifo × Nat)) :
    tokensFor f (p :: l) = (if p.1 = f then p.2 else 0) + tokensFor f l := by
  unfold tokensFor
  rw [← List.sum_eq_foldl, ← List.sum_eq_foldl, List.filter_cons]
  by_cases h : p.1 = f <;> simp [h]

theorem tokenCount_tokenTake (f g : Fifo) (n : Nat) (s : State) :
    tokenCount (tokenTake g n s) f = tokenCount s f - if g = f then n else 0 := by
  by_cases h : g = f
  · subst h; simp [tokenCount, tokenTake]
  · have other : (fifoIdx g).val ≠ (fifoIdx f).val := fun e => h (fifoIdx_inj.mp (Fin.ext e))
    simp [tokenCount, tokenTake, h, Vector.getElem_set_ne _ _ other]

/-- The pops of a word take what it names of each FIFO. -/
theorem tokenCount_takePops (f : Fifo) (l : List (Fifo × Nat)) (s : State) :
    tokenCount (takePops l s) f = tokenCount s f - tokensFor f l := by
  induction l generalizing s with
  | nil => rfl
  | cons p t ih =>
    calc tokenCount (takePops (p :: t) s) f
        = tokenCount (tokenTake p.1 p.2 s) f - tokensFor f t := ih _
      _ = tokenCount s f - tokensFor f (p :: t) := by rw [tokenCount_tokenTake, tokensFor_cons]; omega

@[simp] theorem tokens_modCtx (x : Issuer) (f : Ctx → Ctx) (s : State) : (modCtx x f s).task.tokens = s.task.tokens :=
  setCtx_task_tokens_keeps ..

@[simp] theorem tokens_beginWord (x : Issuer) (s : State) : (beginWord x s).task.tokens = s.task.tokens := by
  unfold beginWord
  split
  · rfl
  · split <;> exact tokens_modCtx ..

@[simp] theorem tokens_issued (x : Issuer) (pc : Pc) (s : State) : (issued x pc s).task.tokens = s.task.tokens := by
  unfold issued
  split <;> exact (tokens_modCtx ..).trans (tokens_beginWord ..)

@[simp] theorem tokens_schedule (x : Issuer) (l : List (Fifo × Nat)) (due : Nat) (s0 s : State) :
    (schedule x l due s0 s).task.tokens = s.task.tokens := by
  unfold schedule
  split
  · exact foldl_keep (fun t => t.task.tokens) (fun t (p : Fifo × Nat) => enqueueAs s0 (.tokens p.1 p.2) 0 0 due t)
      (fun _ _ => rfl) l s
  · rfl

/-- A word that finishes has taken its tokens, and no others. -/
theorem tokenCount_settle_done (x : Issuer) (pops pushes : List (Fifo × Nat)) (s s' : State) (lat : Nat) (f : Fifo) :
    tokenCount (settle x pops pushes s (.done s' lat)) f = tokenCount s' f - tokensFor f pops := by
  have bookkeeping : tokenCount (settle x pops pushes s (.done s' lat)) f = tokenCount (popAll x pops s') f := by
    simp [tokenCount, settle]
  rw [bookkeeping, ← tokenCount_takePops]
  unfold popAll
  split
  · next none => rw [List.isEmpty_iff.mp none]; rfl
  · simp [tokenCount, acquire]

/-! ### The protocol before the body -/

/-- K is 64 words ahead of the checker (R118). -/
def aheadOfChecker (x : Issuer) (s : State) : Bool :=
  isK x && s.checkq.head?.any (fun a => decide (a.word + 64 ≤ s.words))

/-- The readiness of the guard of a word (R88, R121). -/
def guardHazard (x : Issuer) (h : Hdr) (s : State) : Hazard := hazard s x (if h.pq = 0 then [] else [64 + h.pq.toNat])

section
variable {x : Issuer} {h : Hdr} {ps ts : List (Fifo × Nat)} {reads : List Nat} {body : State → Result} {s : State}

theorem issueT_ahead (turn : s.turn = .issue x) (ahead : aheadOfChecker x s = true) :
    issueT h ps ts reads body s = .next (block x s) := by
  rw [aheadOfChecker] at ahead
  simp only [issueT, issuerOf_eq turn, ahead, if_true]

theorem issueT_guard_waits (turn : s.turn = .issue x) (behind : aheadOfChecker x s = false)
    (guard : guardHazard x h s = .wait) : issueT h ps ts reads body s = .next (block x s) := by
  rw [aheadOfChecker] at behind
  rw [guardHazard] at guard
  simp only [issueT, issuerOf_eq turn, behind, guard, Bool.false_eq_true, if_false]

theorem issueT_tokens_missing (turn : s.turn = .issue x) (behind : aheadOfChecker x s = false)
    (guard : guardHazard x h s = .ready) (missing : popsReady s (takes x h (if guardOf s h then ts else []) s) = false) :
    issueT h ps ts reads body s = .next (block x s) := by
  rw [aheadOfChecker] at behind
  rw [guardHazard] at guard
  rw [takes] at missing
  simp only [issueT, issuerOf_eq turn, behind, guard, missing, Bool.false_eq_true, if_false, Bool.not_false, if_true]

theorem issueT_overflows (turn : s.turn = .issue x) (behind : aheadOfChecker x s = false)
    (guard : guardHazard x h s = .ready) (there : popsReady s (takes x h (if guardOf s h then ts else []) s) = true)
    {p : Fifo × Nat} (full : overflowOf s (pushesOf x h (if guardOf s h then ps else [])) = some p) :
    issueT h ps ts reads body s = .next (faultHere x (overflowTrap p) s) := by
  rw [aheadOfChecker] at behind
  rw [guardHazard] at guard
  rw [takes] at there
  rw [pushesOf] at full
  simp only [issueT, issuerOf_eq turn, behind, guard, there, full, Bool.false_eq_true, if_false, Bool.not_true]

/-- A word whose guard is false finishes without its body. -/
theorem issueT_guard_false (turn : s.turn = .issue x) (behind : aheadOfChecker x s = false)
    (guard : guardHazard x h s = .ready) (false_ : guardOf s h = false) (there : popsReady s (takes x h [] s) = true)
    (room : overflowOf s (pushesOf x h []) = none) :
    issueT h ps ts reads body s = .next (settle x (takes x h [] s) (pushesOf x h []) s (.done s 0)) := by
  rw [aheadOfChecker] at behind
  rw [guardHazard] at guard
  rw [takes] at there
  rw [pushesOf] at room
  simp only [issueT, issuerOf_eq turn, behind, guard, false_, there, room, Bool.false_eq_true, if_false, Bool.not_true,
    Bool.not_false, if_true, takes, pushesOf]

end

theorem popsReady_eq_false {s : State} {l : List (Fifo × Nat)} :
    popsReady s l = false ↔ ¬∀ p ∈ l, tokensFor p.1 l ≤ tokenCount s p.1 := by
  rw [← Bool.not_eq_true, popsReady, List.all_eq_true]
  simp

/-- Settles O7: whatever the word, the protocol finishes it without its body. -/
theorem guardFalseActsOnTokensOnly : Obligations.GuardFalseActsOnTokensOnly := by
  unfold Obligations.GuardFalseActsOnTokensOnly
  intro i x h s word turn behind guard false_ there room
  obtain ⟨hh, ps, ts, ⟨reads, body, runs⟩, -, -, -, own | ⟨imm, -, true_, -⟩⟩ := exec_word word s
  · subst own
    refine ⟨_, runs.trans (issueT_guard_false turn behind guard false_ there room), ?_, ?_⟩
    · exact settle_done_after ..
    · exact tokenCount_settle_done x _ _ s s 0
  · exact absurd true_ (by simp [false_])

/-- Settles O8: each clause is one step of the protocol, which every word runs through. -/
theorem wordsWaitAtIssue : Obligations.WordsWaitAtIssue := by
  unfold Obligations.WordsWaitAtIssue
  intro i x h s word turn ahead guard
  obtain ⟨hh, ps, ts, ⟨reads, body, runs⟩, no_pushes, no_pops, own_pops, header_eq⟩ := exec_word word s
  have same_guard : guardHazard x hh s = guardHazard x h s := by
    rcases header_eq with rfl | ⟨imm, -, -, rfl⟩ <;> rfl
  have same_pops (own : List (Fifo × Nat)) : takes x hh own s = takes x h own s := by
    rcases header_eq with rfl | ⟨imm, -, -, rfl⟩ <;> rfl
  have guard_eq : guardOf s hh = guardOf s h := by
    rcases header_eq with rfl | ⟨imm, -, -, rfl⟩ <;> rfl
  refine ⟨fun far => ?_, fun near waits => ?_, fun near ready missing other => ?_,
    fun f n tkw near ready true_ missing => ?_, fun p near ready there full other no_call => ?_⟩
  · exact runs.trans (issueT_ahead turn far)
  · exact runs.trans (issueT_guard_waits turn near (same_guard.trans waits))
  · refine runs.trans (issueT_tokens_missing turn near (same_guard.trans ready) ?_)
    rw [no_pops other, ite_self, same_pops]
    exact popsReady_eq_false.mpr missing
  · refine runs.trans (issueT_tokens_missing turn near (same_guard.trans ready) ?_)
    rw [own_pops f n tkw, guard_eq, if_pos true_, same_pops]
    exact popsReady_eq_false.mpr missing
  · rcases header_eq with rfl | ⟨imm, call, -, -⟩
    · have pops_nil := no_pops fun f n => (other f n).2
      have pushes_nil := no_pushes fun f n => (other f n).1
      refine runs.trans (issueT_overflows turn near ready ?_ ?_)
      · rw [pops_nil, ite_self]; exact there
      · rw [pushes_nil, ite_self]; exact full
    · exact absurd call (no_call imm)

end Sys2Proof.Machine
end

section
/-! The words that compute nothing, the token words, and O9, O10. -/

namespace Sys2Proof.Machine

/-! ### What a finished word leaves -/

/-- The effect of a word may differ from a state in what the issue of a word itself changes. -/
theorem After.of_same {x : Issuer} {e e' t : State} {pc : Pc} (after : After x e t pc)
    (ctx : (ctxOf e x).still = (ctxOf e' x).still) (rest : e.rest x = e'.rest x) : After x e' t pc :=
  ⟨after.pc, after.ctx.trans ctx, after.rest.trans rest⟩

theorem acquire_still (x : Issuer) (s : State) :
    (ctxOf (acquire x s) x).still = (ctxOf s x).still ∧ (acquire x s).rest x = s.rest x := by
  simp [acquire, Ctx.still]

@[simp] theorem epoch_beginWord (x : Issuer) (s : State) : (ctxOf (beginWord x s) x).epoch = (ctxOf s x).epoch := by
  unfold beginWord
  split
  · rfl
  · cases x <;> rfl

@[simp] theorem epoch_issued (x : Issuer) (pc : Pc) (s : State) : (ctxOf (issued x pc s) x).epoch = (ctxOf s x).epoch := by
  rw [← epoch_beginWord x s]
  cases x <;> rfl

/-- A word that finishes has acquired if it has taken tokens. -/
theorem epoch_settle_done (x : Issuer) (pops pushes : List (Fifo × Nat)) (s s' : State) (lat : Nat) :
    (ctxOf (settle x pops pushes s (.done s' lat)) x).epoch = (ctxOf s' x).epoch + if pops.isEmpty then 0 else 1 := by
  rw [settle, ctxOf_schedule, epoch_issued, popAll]
  split <;> simp [acquire]

@[simp] theorem pushes_setCtx (x : Issuer) (c : Ctx) (s : State) : (setCtx x c s).task.pushes = s.task.pushes := by
  cases x <;> rfl

@[simp] theorem pushes_modCtx (x : Issuer) (f : Ctx → Ctx) (s : State) : (modCtx x f s).task.pushes = s.task.pushes :=
  pushes_setCtx ..

@[simp] theorem pushes_takePops (l : List (Fifo × Nat)) (s : State) : (takePops l s).task.pushes = s.task.pushes :=
  foldl_keep (fun t => t.task.pushes) (fun t (p : Fifo × Nat) => tokenTake p.1 p.2 t) (fun _ _ => rfl) l s

@[simp] theorem pushes_popAll (x : Issuer) (l : List (Fifo × Nat)) (s : State) :
    (popAll x l s).task.pushes = s.task.pushes := by
  unfold popAll
  split <;> simp [acquire]

@[simp] theorem pushes_issued (x : Issuer) (pc : Pc) (s : State) : (issued x pc s).task.pushes = s.task.pushes := by
  have begun : (beginWord x s).task.pushes = s.task.pushes := by
    unfold beginWord
    split
    · rfl
    · split <;> exact pushes_modCtx ..
  unfold issued
  split <;> exact (pushes_modCtx ..).trans begun

/-- The pushes of a word of L, C or S that has finished wait for the cycle in which it finishes. -/
theorem pushes_settle_done {x : Issuer} (no_k : isK x = false) (pops pushes : List (Fifo × Nat)) (s s' : State) (lat : Nat) :
    (settle x pops pushes s (.done s' lat)).task.pushes =
      s'.task.pushes ++ pushes.map (fun p => ⟨p.1, p.2, s.now + lat⟩) := by
  simp [settle, schedule, no_k]

/-! ### The words that compute nothing -/

section
variable {x : Issuer} {s : State} {h : Hdr}

theorem nop_finishes (acts : Acts x h [] s) : exec (.nop h) s = .next (finished x h s s 0) := by
  rw [exec_nop, execNop, issue_acts acts]
  rfl

theorem safe_finishes (acts : Acts x h [] s) (land : landed s x = true) (confirmed : unconfirmed s x = false) :
    exec (.safe h) s = .next (finished x h s
      (modCtx x (fun c => { c with stopped := preempting s && x != .kFirm && (pendingCause s x).isNone }) s) 0) := by
  rw [exec_safe, execSafe, issue_acts acts]
  simp [issuerOf_eq acts.turn, land, confirmed, finished]

/-- What a `fence` does when it need not wait: it acquires, and may empty K's data cache. -/
def fenced (x : Issuer) (kind : FenceKind) (sc : Scope) (s : State) : State :=
  if acquires kind then acquire x (if wideScope sc || kind == .sc then flushCache s else s) else s

theorem fence_finishes {kind : FenceKind} {sc : Scope} (acts : Acts x h [] s)
    (performed : kind ≠ .acq → allPerformed s x = true) :
    exec (.fence h kind sc) s = .next (finished x h s (fenced x kind sc s) 0) := by
  have no_wait : (releases kind && !allPerformed s x) = false := by
    cases kind with
    | acq => rfl
    | rel => rw [performed (by simp)]; rfl
    | acqrel => rw [performed (by simp)]; rfl
    | sc => rw [performed (by simp)]; rfl
  rw [exec_fence, execFence, issue_acts acts]
  simp only [issuerOf_eq acts.turn, no_wait, Bool.false_eq_true, if_false, finished, fenced]
  split <;> rfl

theorem fenced_still (kind : FenceKind) (sc : Scope) :
    let e := if kind ≠ .rel ∧ (sc ≠ .core ∨ kind = .sc) then { s with dcache := [] } else s
    (ctxOf (fenced x kind sc s) x).still = (ctxOf e x).still ∧ (fenced x kind sc s).rest x = e.rest x := by
  cases kind with
  | rel => exact ⟨rfl, rfl⟩
  | acq => cases sc <;> exact acquire_still x _
  | acqrel => cases sc <;> exact acquire_still x _
  | sc => cases sc <;> exact acquire_still x _

theorem fenced_epoch (kind : FenceKind) (sc : Scope) :
    (ctxOf (fenced x kind sc s) x).epoch = (ctxOf s x).epoch + if kind = .rel then 0 else 1 := by
  have acquired : (ctxOf (acquire x (if wideScope sc || kind == .sc then flushCache s else s)) x).epoch =
      (ctxOf s x).epoch + 1 := by
    rw [acquire, ctxOf_modCtx_same]
    split
    · cases x <;> rfl
    · rfl
  cases kind with
  | rel => rfl
  | acq => exact acquired
  | acqrel => exact acquired
  | sc => exact acquired

theorem mark_finishes (acts : Acts x h [] s)
    (room : (ctxOf s x).marks < (ctxOf s (if x = .l then .s else .l)).marks + 15) :
    exec (.mark h) s = .next (finished x h s (modCtx x (fun c => { c with marks := c.marks + 1 }) s) 0) := by
  have other : partner x = if x = .l then .s else .l := by cases x <;> rfl
  rw [exec_mark, execMark, issue_acts acts]
  simp only [issuerOf_eq acts.turn, other, if_neg (Nat.not_le.mpr room), finished]

theorem wfe_begins {imm : BitVec 20} (acts : Acts x h [] s) (fresh : (ctxOf s x).wfe = none) :
    exec (.wfe h imm) s = .next (block x (modCtx x (fun c => { c with
      wfe := some ⟨s.now, if imm = 0 then none else some (s.now + imm.toNat * 64), false⟩ }) s)) := by
  rw [exec_wfe, execWfe, issue_acts acts]
  simp only [issuerOf_eq acts.turn, cur_eq acts.turn, fresh, settle]

theorem wfe_finishes {imm : BitVec 20} {w : Wfe} (acts : Acts x h [] s) (waits : (ctxOf s x).wfe = some w)
    (fired : w.fired = true) :
    exec (.wfe h imm) s = .next (finished x h s (modCtx x (fun c => { c with wfe := none }) s) 0) := by
  rw [exec_wfe, execWfe, issue_acts acts]
  simp only [issuerOf_eq acts.turn, cur_eq acts.turn, waits, fired, if_true, finished]

theorem finished_after (e : State) (lat : Nat) : After x e (finished x h s e lat) (nextPc x s) := settle_done_after ..

end

/-- Settles O9: each word is finished with the effect that its lemma above names. -/
theorem plainWordsFinish : Obligations.PlainWordsFinish := by
  unfold Obligations.PlainWordsFinish
  intro x s h kind sc imm c
  refine ⟨fun acts => ⟨_, nop_finishes acts, finished_after ..⟩,
    fun acts land confirmed => ⟨_, safe_finishes acts land confirmed, finished_after ..⟩,
    fun acts performed => ⟨_, fence_finishes acts performed, ?_, ?_⟩,
    fun acts room => ⟨_, mark_finishes acts room, finished_after ..⟩,
    fun w acts waits fired => ⟨_, wfe_finishes acts waits fired, finished_after ..⟩, fun acts fresh => ?_⟩
  · exact (finished_after ..).of_same (fenced_still kind sc).1 (fenced_still kind sc).2
  · rw [finished, epoch_settle_done, fenced_epoch]
  · rw [wfe_begins acts fresh, Nat.mul_comm 64]
    rfl

/-- Settles O10: a word that finishes takes and pushes the tokens of its TOK bits and its own. -/
theorem tokenWordsMoveTokens : Obligations.TokenWordsMoveTokens := by
  unfold Obligations.TokenWordsMoveTokens
  intro x s h f n d taken pushed
  have moves {own own_pops : List (Fifo × Nat)} (turn : s.turn = .issue x) :
      let t := settle x (takes x h own_pops s) (pushesOf x h own) s (.done s 0)
      taken own_pops t ∧ pushed own t := by
    refine ⟨tokenCount_settle_done x _ _ s s 0, ?_⟩
    dsimp only [pushed]
    cases k : isK x with
    | true => exact settle_done_queued turn k (List.append_nil _).symm rfl (by simp)
    | false => exact pushes_settle_done k ..
  refine ⟨fun acts => ⟨_, nop_finishes acts, moves acts.turn⟩, fun issues => ?_, fun issues => ?_, fun acts => ?_⟩
  · exact ⟨_, (exec_tkp ..).trans (issueT_acts issues _), settle_done_after .., moves issues.turn⟩
  · exact ⟨_, (exec_tkw ..).trans (issueT_acts issues _), settle_done_after .., moves issues.turn⟩
  · exact writeReg_answers acts rfl

end Sys2Proof.Machine
end

section
/-! The fields of an instruction word: what its bits must be to be the encoding of an instruction, format by format, and
what the decoder's checks of them say. -/

namespace Sys2Proof

/-! ### Words as their fields -/

/-- A word is two parts joined exactly when its upper and its lower bits are those parts. -/
theorem eq_append_iff {m n : Nat} {x : BitVec m} {y : BitVec n} {z : BitVec (m + n)} :
    z = x ++ y ↔ z.extractLsb' n m = x ∧ z.extractLsb' 0 n = y := by
  constructor
  · rintro rfl
    exact ⟨BitVec.extractLsb'_append_eq_left, BitVec.extractLsb'_append_eq_right⟩
  · rintro ⟨rfl, rfl⟩
    exact (BitVec.extractLsb'_append_extractLsb').symm

theorem extract_word (w : BitVec 64) (lo len : Nat) : w.extractLsb' lo len = fld w lo len := rfl

/-- A part of a field is a field. -/
theorem extract_fld (w : BitVec 64) {lo len a b : Nat} (le : a + b ≤ len) :
    (fld w lo len).extractLsb' a b = fld w (lo + a) b := by
  apply BitVec.eq_of_getLsbD_eq
  intro i lt
  simp only [fld, BitVec.getLsbD_extractLsb', Nat.add_assoc, lt, decide_true, Bool.true_and]
  rw [decide_eq_true (by omega), Bool.true_and]

theorem fld_one_eq (w : BitVec 64) (n : Nat) (b : Bool) : fld w n 1 = BitVec.ofBool b ↔ flb w n = b := by
  have bit : fld w n 1 = BitVec.ofBool (flb w n) := by
    apply BitVec.eq_of_getLsbD_eq
    intro i lt
    obtain rfl : i = 0 := by omega
    simp [fld, flb]
  rw [bit]
  cases flb w n <;> cases b <;> decide

theorem fln_eq (w : BitVec 64) (lo len : Nat) : fln w lo len = (fld w lo len).toNat := rfl

theorem fld_eq_of_fln {w : BitVec 64} {lo len : Nat} {v : BitVec len} (eq : fln w lo len = v.toNat) : fld w lo len = v :=
  BitVec.eq_of_toNat_eq eq

theorem fln_lt (w : BitVec 64) (lo len : Nat) : fln w lo len < 2 ^ len := (fld w lo len).isLt

/-- The bits of a word above its body (R37). -/
structure HasTop (h : Hdr) (opc : BitVec 8) (w : BitVec 64) : Prop where
  idle : fld w 54 10 = h.idle
  wp : flb w 53 = h.wp
  wn : flb w 52 = h.wn
  sp : flb w 51 = h.sp
  sn : flb w 50 = h.sn
  opc : fld w 42 8 = opc

theorem eq_withTop (w : BitVec 64) (h : Hdr) (opc : BitVec 8) (body : BitVec 42) :
    w = withTop h opc body ↔ HasTop h opc w ∧ fld w 0 42 = body := by
  simp only [withTop, eq_append_iff (n := 42), eq_append_iff (n := 8), eq_append_iff (n := 1), extract_word, extract_fld,
    fld_one_eq, Nat.reduceAdd, Nat.reduceLeDiff]
  exact ⟨fun ⟨⟨⟨⟨⟨⟨a, b⟩, c⟩, d⟩, e⟩, f⟩, g⟩ => ⟨⟨a, b, c, d, e, f⟩, g⟩, fun ⟨⟨a, b, c, d, e, f⟩, g⟩ => ⟨⟨⟨⟨⟨⟨a, b⟩, c⟩, d⟩, e⟩, f⟩, g⟩⟩

/-! ### The formats of R41 -/

section
variable (w : BitVec 64) (h : Hdr) (opc : BitVec 8)

theorem eq_packK3 (d a b : BitVec 6) (fn : BitVec 7) : w = packK3 h opc d a b fn ↔ HasTop h opc w ∧
    fld w 36 6 = d ∧ fld w 30 6 = a ∧ fld w 24 6 = b ∧ fld w 20 4 = h.pq ∧ flb w 19 = h.neg ∧ fld w 12 7 = fn ∧
      fld w 0 12 = 0 := by
  simp only [packK3, eq_withTop, eq_append_iff (n := 12), eq_append_iff (n := 7), eq_append_iff (n := 1),
    eq_append_iff (n := 4), eq_append_iff (n := 6), extract_fld, fld_one_eq, Nat.reduceAdd, Nat.reduceLeDiff, and_assoc]

theorem eq_packKI (d a : BitVec 6) (imm : BitVec 26) : w = packKI h opc d a imm ↔ HasTop h opc w ∧
    fld w 36 6 = d ∧ fld w 30 6 = a ∧ fld w 26 4 = h.pq ∧ fld w 0 26 = imm := by
  simp only [packKI, eq_withTop, eq_append_iff (n := 26), eq_append_iff (n := 4), eq_append_iff (n := 6), extract_fld,
    Nat.reduceAdd, Nat.reduceLeDiff, and_assoc]

theorem eq_packKL (d : BitVec 6) (imm : BitVec 32) : w = packKL h opc d imm ↔ HasTop h opc w ∧
    fld w 36 6 = d ∧ fld w 32 4 = 0 ∧ fld w 0 32 = imm := by
  simp only [packKL, eq_withTop, eq_append_iff (n := 32), eq_append_iff (n := 4), extract_fld, Nat.reduceAdd,
    Nat.reduceLeDiff, and_assoc]

theorem eq_packKC (pd : BitVec 4) (cc : BitVec 3) (a : BitVec 6) (tail : BitVec 20) : w = packKC h opc pd cc a tail ↔
    HasTop h opc w ∧ fld w 38 4 = pd ∧ fld w 35 3 = cc ∧ flb w 34 = h.neg ∧ fld w 30 4 = 0 ∧ fld w 24 6 = a ∧
      fld w 20 4 = h.pq ∧ fld w 0 20 = tail := by
  simp only [packKC, eq_withTop, eq_append_iff (n := 20), eq_append_iff (n := 4), eq_append_iff (n := 6),
    eq_append_iff (n := 1), eq_append_iff (n := 3), extract_fld, fld_one_eq, Nat.reduceAdd, Nat.reduceLeDiff, and_assoc]

theorem eq_packKB (fn5 : BitVec 5) (off : BitVec 32) : w = packKB h opc fn5 off ↔ HasTop h opc w ∧
    fld w 38 4 = h.pq ∧ flb w 37 = h.neg ∧ fld w 32 5 = fn5 ∧ fld w 0 32 = off := by
  simp only [packKB, eq_withTop, eq_append_iff (n := 32), eq_append_iff (n := 5), eq_append_iff (n := 1), extract_fld,
    fld_one_eq, Nat.reduceAdd, Nat.reduceLeDiff, and_assoc]

theorem eq_packKM (d a : BitVec 6) (sz ac : BitVec 3) (off : BitVec 20) : w = packKM h opc d a sz ac off ↔
    HasTop h opc w ∧ fld w 36 6 = d ∧ fld w 30 6 = a ∧ fld w 26 4 = h.pq ∧ fld w 23 3 = sz ∧ fld w 20 3 = ac ∧
      fld w 0 20 = off := by
  simp only [packKM, eq_withTop, eq_append_iff (n := 20), eq_append_iff (n := 3), eq_append_iff (n := 4),
    eq_append_iff (n := 6), extract_fld, Nat.reduceAdd, Nat.reduceLeDiff, and_assoc]

theorem eq_packKA (d a b : BitVec 6) (op : BitVec 4) (sc : BitVec 2) (dw : Bool) : w = packKA h opc d a b op sc dw ↔
    HasTop h opc w ∧ fld w 36 6 = d ∧ fld w 30 6 = a ∧ fld w 24 6 = b ∧ fld w 20 4 = h.pq ∧ fld w 16 4 = op ∧
      fld w 14 2 = sc ∧ flb w 13 = h.neg ∧ flb w 12 = dw ∧ fld w 0 12 = 0 := by
  simp only [packKA, eq_withTop, eq_append_iff (n := 12), eq_append_iff (n := 1), eq_append_iff (n := 2),
    eq_append_iff (n := 4), eq_append_iff (n := 6), extract_fld, fld_one_eq, Nat.reduceAdd, Nat.reduceLeDiff, and_assoc]

theorem eq_packE3 (ed ea eb : BitVec 10) (fn : BitVec 7) : w = packE3 h opc ed ea eb fn ↔ HasTop h opc w ∧
    fld w 32 10 = ed ∧ fld w 22 10 = ea ∧ fld w 12 10 = eb ∧ fld w 8 4 = h.pq ∧ flb w 7 = h.neg ∧ fld w 0 7 = fn := by
  simp only [packE3, eq_withTop, eq_append_iff (n := 7), eq_append_iff (n := 1), eq_append_iff (n := 4),
    eq_append_iff (n := 10), extract_fld, fld_one_eq, Nat.reduceAdd, Nat.reduceLeDiff, and_assoc]

theorem eq_packEI (ed ea : BitVec 10) (imm : BitVec 18) : w = packEI h opc ed ea imm ↔ HasTop h opc w ∧
    fld w 32 10 = ed ∧ fld w 22 10 = ea ∧ fld w 18 4 = h.pq ∧ fld w 0 18 = imm := by
  simp only [packEI, eq_withTop, eq_append_iff (n := 18), eq_append_iff (n := 4), eq_append_iff (n := 10), extract_fld,
    Nat.reduceAdd, Nat.reduceLeDiff, and_assoc]

theorem eq_packW (wd wa wb : BitVec 5) (ea : BitVec 10) (mode : BitVec 5) (fn : BitVec 7) :
    w = packW h opc wd wa wb ea mode fn ↔ HasTop h opc w ∧ fld w 37 5 = wd ∧ fld w 32 5 = wa ∧ fld w 27 5 = wb ∧
      fld w 17 10 = ea ∧ fld w 13 4 = h.pq ∧ fld w 8 5 = mode ∧ flb w 7 = h.neg ∧ fld w 0 7 = fn := by
  simp only [packW, eq_withTop, eq_append_iff (n := 7), eq_append_iff (n := 1), eq_append_iff (n := 5),
    eq_append_iff (n := 4), eq_append_iff (n := 10), extract_fld, fld_one_eq, Nat.reduceAdd, Nat.reduceLeDiff, and_assoc]

theorem eq_packA (ad ab : BitVec 6) (qn : BitVec 4) (ac sz : BitVec 3) (off : BitVec 16) :
    w = packA h opc ad ab qn ac sz off ↔ HasTop h opc w ∧ fld w 36 6 = ad ∧ fld w 30 6 = ab ∧ fld w 26 4 = h.pq ∧
      fld w 22 4 = qn ∧ fld w 19 3 = ac ∧ fld w 16 3 = sz ∧ fld w 0 16 = off := by
  simp only [packA, eq_withTop, eq_append_iff (n := 16), eq_append_iff (n := 3), eq_append_iff (n := 4),
    eq_append_iff (n := 6), extract_fld, Nat.reduceAdd, Nat.reduceLeDiff, and_assoc]

theorem eq_packM (d a f : BitVec 6) (fn : BitVec 7) (imm : BitVec 12) : w = packM h opc d a f fn imm ↔
    HasTop h opc w ∧ fld w 36 6 = d ∧ fld w 30 6 = a ∧ fld w 24 6 = f ∧ fld w 20 4 = h.pq ∧ flb w 19 = h.neg ∧
      fld w 12 7 = fn ∧ fld w 0 12 = imm := by
  simp only [packM, eq_withTop, eq_append_iff (n := 12), eq_append_iff (n := 7), eq_append_iff (n := 1),
    eq_append_iff (n := 4), eq_append_iff (n := 6), extract_fld, fld_one_eq, Nat.reduceAdd, Nat.reduceLeDiff, and_assoc]

theorem eq_packT (fifo : BitVec 4) (c6 : BitVec 6) (fn : BitVec 7) (imm : BitVec 20) : w = packT h opc fifo c6 fn imm ↔
    HasTop h opc w ∧ fld w 38 4 = h.pq ∧ fld w 34 4 = fifo ∧ fld w 28 6 = c6 ∧ flb w 27 = h.neg ∧ fld w 20 7 = fn ∧
      fld w 0 20 = imm := by
  simp only [packT, eq_withTop, eq_append_iff (n := 20), eq_append_iff (n := 7), eq_append_iff (n := 1),
    eq_append_iff (n := 6), eq_append_iff (n := 4), extract_fld, fld_one_eq, Nat.reduceAdd, Nat.reduceLeDiff, and_assoc]

end

/-! ### Codes of the fixed sets -/

section
variable {α : Type} [DecidableEq α] [Inhabited α] {tbl : List α}

omit [Inhabited α] in
theorem codeOf_lt {x : α} (mem : x ∈ tbl) : codeOf tbl x < tbl.length := List.idxOf_lt_length_of_mem mem

theorem tblAt_codeOf {x : α} (mem : x ∈ tbl) : tblAt tbl (codeOf tbl x) = x := by
  simp [tblAt, codeOf, List.getElem?_idxOf mem]

theorem codeOf_tblAt (nodup : tbl.Nodup) {n : Nat} (lt : n < tbl.length) : codeOf tbl (tblAt tbl n) = n := by
  simp [tblAt, codeOf, List.getElem?_eq_getElem lt, nodup.idxOf_getElem]

/-- A field holds the code of a member of a complete table exactly when its number is in the table, at that member. -/
theorem fld_eq_cd {w : BitVec 64} {lo n : Nat} {x : α} (nodup : tbl.Nodup) (mem : ∀ y, y ∈ tbl) (fits : tbl.length ≤ 2 ^ n) :
    fld w lo n = cd n tbl x ↔ fln w lo n < tbl.length ∧ tblAt tbl (fln w lo n) = x := by
  have code : (cd n tbl x).toNat = codeOf tbl x := by
    rw [cd, BitVec.toNat_ofNat, Nat.mod_eq_of_lt (Nat.lt_of_lt_of_le (codeOf_lt (mem x)) fits)]
  rw [fln_eq]
  constructor
  · intro eq
    rw [eq, code]
    exact ⟨codeOf_lt (mem x), tblAt_codeOf (mem x)⟩
  · rintro ⟨lt, rfl⟩
    exact BitVec.eq_of_toNat_eq (by rw [code, codeOf_tblAt nodup lt])

end

/-! ### The checks of R54 -/

theorem lowest_eq_none {l : List (Nat × Bool)} : lowest l = none ↔ ∀ p ∈ l, p.2 = false := by
  induction l with
  | nil => simp [lowest]
  | cons p r ih =>
    obtain ⟨n, b⟩ := p
    cases b with
    | false => simpa [lowest] using ih
    | true => cases h : lowest r <;> simp [lowest, h]

/-- A word passes the checks exactly when its stream may issue it and no field offends. -/
theorem verdict_eq_ok {x : Issuer} {svc svcOnly : Bool} {w : BitVec 64} {streams : List StreamId}
    {bad : List (Nat × Bool)} {i j : Instr} : verdict x svc w streams svcOnly bad i = .ok j ↔
      streams.contains x.stream = true ∧ (svcOnly = true → svc = true ∧ x = .kFirm) ∧ (∀ p ∈ bad, p.2 = false) ∧
        (x = .kFirm → flb w 50 = false ∧ flb w 51 = false ∧ flb w 52 = false ∧ flb w 53 = false) ∧ i = j := by
  have fields := lowest_eq_none (l := bad ++ [(50, x == .kFirm && flb w 50), (51, x == .kFirm && flb w 51),
    (52, x == .kFirm && flb w 52), (53, x == .kFirm && flb w 53)])
  simp only [List.forall_mem_append, List.forall_mem_cons, List.not_mem_nil, false_imp_iff, implies_true, and_true] at fields
  have tokens : ((x == .kFirm && flb w 50) = false ∧ (x == .kFirm && flb w 51) = false ∧ (x == .kFirm && flb w 52) = false ∧
      (x == .kFirm && flb w 53) = false) ↔
        (x = .kFirm → flb w 50 = false ∧ flb w 51 = false ∧ flb w 52 = false ∧ flb w 53 = false) := by
    by_cases firm : x = .kFirm <;> simp [firm]
  rw [tokens] at fields
  have allowed : (svcOnly && !(svc && x == .kFirm)) = true ↔ ¬(svcOnly = true → svc = true ∧ x = .kFirm) := by
    cases svcOnly <;> cases svc <;> simp
  unfold verdict
  dsimp only
  split
  next stream => simp_all
  next stream =>
    split
    next priv => exact ⟨fun h => (nomatch h), fun h => absurd h.2.1 (allowed.1 priv)⟩
    next priv =>
      have may := Decidable.not_not.1 (mt allowed.2 priv)
      split
      next n bit =>
        have offends := mt fields.2 (by simp [bit])
        exact ⟨fun h => (nomatch h), fun h => absurd ⟨h.2.2.1, h.2.2.2.1⟩ offends⟩
      next none =>
        obtain ⟨clean, firm⟩ := fields.1 none
        exact ⟨fun h => ⟨by simpa using stream, may, clean, firm, Except.ok.inj h⟩, fun h => congrArg _ h.2.2.2.2⟩

end Sys2Proof
end

section
/-! The operands of an instruction word: what a field says of the operand that the encoder wrote into it, and what the
decoder's checks of the field say. -/

namespace Sys2Proof

/-! ### Numbers of fields -/

theorem fln_eq_zero {w : BitVec 64} {lo len : Nat} : fln w lo len = 0 ↔ fld w lo len = 0 := by
  rw [fln_eq, BitVec.toNat_eq_nat]
  simp

theorem ofNat_fln (w : BitVec 64) (lo len : Nat) : BitVec.ofNat len (fln w lo len) = fld w lo len := by
  rw [fln_eq, BitVec.ofNat_toNat, BitVec.setWidth_eq]

theorem fld_eq_ofNat {w : BitVec 64} {lo len n : Nat} (eq : fln w lo len = n) : fld w lo len = BitVec.ofNat len n := by
  rw [← eq, ofNat_fln]

/-- A must-be-zero field does not offend exactly when it is zero. -/
theorem mbz_ok {w : BitVec 64} {lo len : Nat} : (mbz w lo len).2 = false ↔ fld w lo len = 0 := by
  rw [mbz, bne_eq_false_iff_eq, fln_eq_zero]

/-- A part of a field of known value. -/
theorem fld_part {w : BitVec 64} {lo len a b : Nat} {v : BitVec len} (eq : fld w lo len = v) (le : a + b ≤ len) :
    fld w (lo + a) b = v.extractLsb' a b := by
  rw [← eq, extract_fld w le]

theorem flb_eq {w : BitVec 64} {lo len : Nat} {v : BitVec len} (eq : fld w lo len = v) {i : Nat} (lt : i < len) :
    flb w (lo + i) = v.getLsbD i := by
  subst eq
  simp [fld, flb, lt]

theorem fld_eq_append {w : BitVec 64} {lo m n : Nat} {v : BitVec m} {y : BitVec n} (high : fld w (lo + n) m = v)
    (low : fld w lo n = y) : fld w lo (m + n) = v ++ y := by
  refine eq_append_iff.2 ⟨?_, ?_⟩
  · rw [extract_fld w (by omega), high]
  · rw [extract_fld w (by omega), Nat.add_zero, low]

/-- The number of a field is below a power of two exactly when its upper bits are zero. -/
theorem fln_lt_iff {w : BitVec 64} {lo m n : Nat} : fln w lo (m + n) < 2 ^ n ↔ fld w (lo + n) m = 0 := by
  rw [← extract_fld w (by omega : n + m ≤ m + n), ← BitVec.toNat_inj, BitVec.extractLsb'_toNat, fln_eq,
    Nat.shiftRight_eq_div_pow, Nat.mod_eq_of_lt]
  · simp [Nat.div_eq_zero_iff]
  · exact Nat.div_lt_of_lt_mul (by rw [← Nat.pow_add, Nat.add_comm n]; exact (fld w lo (m + n)).isLt)

/-- A field holds a narrower value exactly when its number is that small and its low bits are the value. -/
theorem fld_eq_zero_append {w : BitVec 64} {lo m n : Nat} {y : BitVec n} :
    fld w lo (m + n) = (0 : BitVec m) ++ y ↔ fln w lo (m + n) < 2 ^ n ∧ fld w lo n = y := by
  rw [eq_append_iff, fln_lt_iff, extract_fld w (by omega), extract_fld w (by omega), Nat.add_zero]

theorem fld_eq_b7 {w : BitVec 64} {lo : Nat} {b : Bool} : fld w lo 7 = b7 b ↔ fln w lo 7 < 2 ∧ flb w lo = b :=
  (fld_eq_zero_append (m := 6) (n := 1)).trans (and_congr_right fun _ => fld_one_eq w lo b)

/-- A field holds the number of a member of `Fin k` exactly when its own number is below `k` and is that member. -/
theorem fld_eq_ofNat_fin {w : BitVec 64} {lo len k : Nat} [NeZero k] {q : Fin k} (fits : k ≤ 2 ^ len) :
    fld w lo len = BitVec.ofNat len q.val ↔ fln w lo len < k ∧ Fin.ofNat k (fln w lo len) = q := by
  have small : q.val < 2 ^ len := Nat.lt_of_lt_of_le q.isLt fits
  rw [← BitVec.toNat_inj, BitVec.toNat_ofNat, Nat.mod_eq_of_lt small, ← fln_eq]
  constructor
  · intro eq
    rw [eq]
    exact ⟨q.isLt, Fin.ext (Nat.mod_eq_of_lt q.isLt)⟩
  · rintro ⟨lt, rfl⟩
    exact (Nat.mod_eq_of_lt lt).symm

/-! ### Codes of the tables -/

/-- A complete code table of `len` entries. -/
structure Codes {α : Type} (tbl : List α) (len : Nat) : Prop where
  size : tbl.length = len
  nodup : tbl.Nodup
  mem : ∀ y, y ∈ tbl

namespace Codes
variable {α : Type} [DecidableEq α] [Inhabited α] {tbl : List α} {len n lo : Nat} {w : BitVec 64}

theorem read (c : Codes tbl len) {x : α} (eq : fld w lo n = cd n tbl x) (fits : len ≤ 2 ^ n := by decide) :
    fln w lo n < len ∧ tblAt tbl (fln w lo n) = x :=
  c.size ▸ (fld_eq_cd c.nodup c.mem (c.size ▸ fits)).1 eq

theorem written (c : Codes tbl len) (lt : fln w lo n < len) (fits : len ≤ 2 ^ n := by decide) :
    fld w lo n = cd n tbl (tblAt tbl (fln w lo n)) :=
  (fld_eq_cd c.nodup c.mem (c.size ▸ fits)).2 ⟨c.size ▸ lt, rfl⟩

/-- A number is the code of an entry exactly when the entry stands there. -/
theorem at_eq_iff (c : Codes tbl len) {m : Nat} (lt : m < len) {x : α} : tblAt tbl m = x ↔ m = codeOf tbl x := by
  constructor
  · rintro rfl
    exact (codeOf_tblAt c.nodup (c.size ▸ lt)).symm
  · rintro rfl
    exact tblAt_codeOf (c.mem x)

end Codes

theorem AluFn.codes : Codes AluFn.table 28 := ⟨rfl, by decide, fun f => by cases f <;> decide⟩
theorem CmpCc.codes : Codes CmpCc.table 6 := ⟨rfl, by decide, fun f => by cases f <;> decide⟩
theorem PlogFn.codes : Codes PlogFn.table 5 := ⟨rfl, by decide, fun f => by cases f <;> decide⟩
theorem AmoOp.codes : Codes AmoOp.table 10 := ⟨rfl, by decide, fun f => by cases f <;> decide⟩
theorem FenceKind.codes : Codes FenceKind.table 4 := ⟨rfl, by decide, fun f => by cases f <;> decide⟩
theorem Scope.codes : Codes Scope.table 4 := ⟨rfl, by decide, fun f => by cases f <;> decide⟩
theorem FopFn.codes : Codes FopFn.table 8 := ⟨rfl, by decide, fun f => by cases f <;> decide⟩
theorem FcmpCc.codes : Codes FcmpCc.table 4 := ⟨rfl, by decide, fun f => by cases f <;> decide⟩
theorem IopFn.codes : Codes IopFn.table 14 := ⟨rfl, by decide, fun f => by cases f <;> decide⟩
theorem VecOp.vopCodes : Codes VecOp.vopTable 5 := ⟨rfl, by decide, fun f => by cases f <;> decide⟩
theorem VecOp.vscCodes : Codes VecOp.vscTable 5 := ⟨rfl, by decide, fun f => by cases f <;> decide⟩
theorem VunFn.codes : Codes VunFn.table 10 := ⟨rfl, by decide, fun f => by cases f <;> decide⟩
theorem VredFn.codes : Codes VredFn.table 5 := ⟨rfl, by decide, fun f => by cases f <;> decide⟩
theorem VcmpCc.codes : Codes VcmpCc.table 6 := ⟨rfl, by decide, fun f => by cases f <;> decide⟩
theorem VbitFn.codes : Codes VbitFn.table 4 := ⟨rfl, by decide, fun f => by cases f <;> decide⟩
theorem WsetFn.codes : Codes WsetFn.table 6 := ⟨rfl, by decide, fun f => by cases f <;> decide⟩
theorem ThrdFn.codes : Codes ThrdFn.table 7 := ⟨rfl, by decide, fun f => by cases f <;> decide⟩
theorem McchkFn.codes : Codes McchkFn.table 3 := ⟨rfl, by decide, fun f => by cases f <;> decide⟩
theorem Sz.codes : Codes Sz.table 6 := ⟨rfl, by decide, fun f => by cases f <;> decide⟩
theorem Fmt.codes : Codes Fmt.table 14 := ⟨rfl, by decide, fun f => by cases f <;> decide⟩
theorem RMode.codes : Codes RMode.table 5 := ⟨rfl, by decide, fun f => by cases f <;> decide⟩
theorem Port.codes : Codes Port.table 9 := ⟨rfl, by decide, fun f => by cases f <;> decide⟩
theorem Fifo.codes : Codes Fifo.table 10 := ⟨rfl, by decide, fun f => by cases f <;> decide⟩
theorem SpecialReg.codes : Codes SpecialReg.table 15 := ⟨rfl, by decide, fun f => by cases f <;> decide⟩
theorem Role.codes : Codes Role.table 4 := ⟨rfl, by decide, fun f => by cases f <;> decide⟩
theorem Fusion.codes : Codes Fusion.table 4 := ⟨rfl, by decide, fun f => by cases f <;> decide⟩

/-! ### Element operands (R46) -/

theorem EOp.code_lt (o : EOp) : o.code < 2 ^ 10 := by
  cases o <;> simp only [EOp.code] <;> omega

theorem EOp.ofCode_eq_some {n : Nat} {o : EOp} : EOp.ofCode n = some o ↔ n = o.code := by
  constructor
  · intro eq
    unfold EOp.ofCode at eq
    split_ifs at eq <;> cases eq <;> simp only [EOp.code] <;> omega
  · rintro rfl
    cases o with
    | zero | one => rfl
    | e q => exact dif_pos q.isLt
    | lq q =>
      rw [EOp.code, EOp.ofCode, dif_neg (by omega), dif_pos (by omega)]
      simp only [Nat.add_sub_cancel_left]
    | sq q =>
      rw [EOp.code, EOp.ofCode, dif_neg (by omega), dif_neg (by omega), dif_pos (by omega)]
      simp only [Nat.add_sub_cancel_left]
    | iq q =>
      rw [EOp.code, EOp.ofCode, dif_neg (by omega), dif_neg (by omega), dif_neg (by omega), dif_pos (by omega)]
      simp only [Nat.add_sub_cancel_left]

theorem fld_eq_ec {w : BitVec 64} {lo : Nat} {o : EOp} : fld w lo 10 = ec o ↔ EOp.ofCode (fln w lo 10) = some o := by
  rw [EOp.ofCode_eq_some, ec, ← BitVec.toNat_inj, BitVec.toNat_ofNat, Nat.mod_eq_of_lt o.code_lt, ← fln_eq]

section
variable {w : BitVec 64} {lo : Nat} {o : EOp} (eq : fld w lo 10 = ec o)
include eq

theorem eopAt_of_ec : eopAt w lo = o := by
  rw [eopAt, fld_eq_ec.1 eq, Option.getD_some]

theorem badSrc_of_ec : badSrc w lo = (lo, !o.isSrc) := by
  rw [badSrc, fld_eq_ec.1 eq]

theorem badDst_of_ec : badDst w lo = (lo, !o.isDst) := by
  rw [badDst, fld_eq_ec.1 eq]

end

theorem badSrc_ok {w : BitVec 64} {lo : Nat} : (badSrc w lo).2 = false ↔
    fld w lo 10 = ec (eopAt w lo) ∧ (eopAt w lo).isSrc = true := by
  rw [fld_eq_ec, badSrc, eopAt]
  cases EOp.ofCode (fln w lo 10) with
  | none => simp only [Option.getD_none, reduceCtorEq, false_and]
  | some o => simp only [Option.getD_some, true_and, Bool.not_eq_false']

theorem badDst_ok {w : BitVec 64} {lo : Nat} : (badDst w lo).2 = false ↔
    fld w lo 10 = ec (eopAt w lo) ∧ (eopAt w lo).isDst = true := by
  rw [fld_eq_ec, badDst, eopAt]
  cases EOp.ofCode (fln w lo 10) with
  | none => simp only [Option.getD_none, reduceCtorEq, false_and]
  | some o => simp only [Option.getD_some, true_and, Bool.not_eq_false']

theorem fld_eq_er {w : BitVec 64} {lo : Nat} {n : Fin 768} : fld w lo 10 = er n ↔ fln w lo 10 < 768 ∧ eregAt w lo = n :=
  fld_eq_ofNat_fin (by decide)

theorem eregAt_val {w : BitVec 64} {lo : Nat} (lt : fln w lo 10 < 768) : (eregAt w lo).val = fln w lo 10 := Nat.mod_eq_of_lt lt

theorem badReg_ok {w : BitVec 64} {lo g : Nat} : (badReg w lo g).2 = false ↔
    fld w lo 10 = er (eregAt w lo) ∧ (eregAt w lo).val + g < 768 := by
  rw [fld_eq_er, badReg, decide_eq_false_iff_not, Nat.not_lt]
  constructor
  · intro le
    have lt : fln w lo 10 < 768 := by omega
    exact ⟨⟨lt, rfl⟩, by rw [eregAt_val lt]; omega⟩
  · rintro ⟨⟨lt, -⟩, le⟩
    rw [eregAt_val lt] at le
    omega

theorem fld_eq_eb {w : BitVec 64} {lo : Nat} {b : Option (Fin 768)} : fld w lo 10 = eb b ↔
    (badBase w lo).2 = false ∧ baseAt w lo = b := by
  cases b with
  | none =>
    have zero : fld w lo 10 = 788 ↔ fln w lo 10 = 788 := BitVec.toNat_inj.symm
    rw [eb, zero, badBase, baseAt]
    split <;> simp_all
  | some n =>
    rw [eb, fld_eq_er, badBase, baseAt]
    split
    next h => simp [h]
    next h => simp [h, Nat.lt_succ_iff]

end Sys2Proof
end

section
/-! Encoding and decoding of the control opcodes (R50). The decoder's cases are taken in the order of the opcodes, the
encoder's in the order of the formats of R41. -/

namespace Sys2Proof

/-! ### The header -/

/-- The header that the decoder reads stands in the bits above the body. -/
theorem hasTop_hdrOf {w : BitVec 64} {pq ng : Option Nat} {n : Nat} (op : fln w 42 8 = n) :
    HasTop (hdrOf w pq ng) (BitVec.ofNat 8 n) w :=
  ⟨rfl, rfl, rfl, rfl, rfl, fld_eq_ofNat op⟩

theorem tokensOk_hdrOf {x : Issuer} {w : BitVec 64} {pq ng : Option Nat}
    (firm : x = .kFirm → flb w 50 = false ∧ flb w 51 = false ∧ flb w 52 = false ∧ flb w 53 = false) :
    (hdrOf w pq ng).tokensOk x = true := by
  by_cases h : x = .kFirm
  · obtain ⟨a, b, c, d⟩ := firm h
    simp [Hdr.tokensOk, hdrOf, a, b, c, d]
  · simp [Hdr.tokensOk, h]

section
variable {x : Issuer} {w : BitVec 64} {pq ng : Option Nat} {streams : List StreamId}
  (stream : streams.contains x.stream = true)
  (firm : x = .kFirm → flb w 50 = false ∧ flb w 51 = false ∧ flb w 52 = false ∧ flb w 53 = false)
include stream firm

/-- A word that passed the checks is of a stream that may issue it, and its header is well formed. -/
theorem accepted : (streams.contains x.stream && (hdrOf w pq ng).tokensOk x) = true := by
  rw [stream, tokensOk_hdrOf firm, Bool.and_self]

theorem accepted_and {b : Bool} (more : b = true) :
    (streams.contains x.stream && (hdrOf w pq ng).tokensOk x && b) = true := by
  rw [accepted stream firm, more, Bool.and_self]

theorem accepted_and_and {b c : Bool} (first : b = true) (second : c = true) :
    (streams.contains x.stream && (hdrOf w pq ng).tokensOk x && b && c) = true := by
  rw [accepted_and stream firm first, second, Bool.and_self]

end

namespace HasTop
variable {h : Hdr} {opc : BitVec 8} {w : BitVec 64} (top : HasTop h opc w)
include top

theorem fln_opc : fln w 42 8 = opc.toNat := congrArg _ top.opc

theorem hdrOf_guard {p n : Nat} (pq : fld w p 4 = h.pq) (neg : flb w n = h.neg) : hdrOf w (some p) (some n) = h := by
  simp only [hdrOf, top.idle, top.wp, top.wn, top.sp, top.sn, pq, neg]

theorem hdrOf_positive {p : Nat} (pq : fld w p 4 = h.pq) (pos : h.positive = true) : hdrOf w (some p) none = h := by
  have neg : h.neg = false := by simpa [Hdr.positive] using pos
  simp only [hdrOf, top.idle, top.wp, top.wn, top.sp, top.sn, pq]
  cases h
  simp_all

theorem hdrOf_unguarded (un : h.unguarded = true) : hdrOf w none none = h := by
  obtain ⟨pq, neg⟩ : h.pq = 0 ∧ h.neg = false := by simpa [Hdr.unguarded] using un
  simp only [hdrOf, top.idle, top.wp, top.wn, top.sp, top.sn]
  cases h
  simp_all

/-- A word passes the checks when its stream is allowed, its token bits are, and no field offends. -/
theorem verdict_ok {x : Issuer} {svc svcOnly : Bool} {streams : List StreamId} {bad : List (Nat × Bool)} {i j : Instr}
    (stream : streams.contains x.stream = true) (tok : h.tokensOk x = true) :
    verdict x svc w streams svcOnly bad i = .ok j ↔
      (svcOnly = true → svc = true ∧ x = .kFirm) ∧ (∀ p ∈ bad, p.2 = false) ∧ i = j := by
  have firm : x = .kFirm → flb w 50 = false ∧ flb w 51 = false ∧ flb w 52 = false ∧ flb w 53 = false := by
    rintro rfl
    simpa [Hdr.tokensOk, top.wp, top.wn, top.sp, top.sn, and_comm, and_assoc, and_left_comm] using tok
  rw [verdict_eq_ok]
  exact ⟨fun ⟨_, priv, clean, _, eq⟩ => ⟨priv, clean, eq⟩, fun ⟨priv, clean, eq⟩ => ⟨stream, priv, clean, firm, eq⟩⟩

theorem decode_control {x : Issuer} {svc : Bool} (lo : 0 < opc.toNat) (hi : opc.toNat < 0x30) :
    decode x svc w = decodeControl x svc w opc.toNat := by
  simp only [decode, top.fln_opc, Nat.ne_of_gt lo, hi, if_false, if_true]

end HasTop

theorem unless_eq_ok {c : Prop} [Decidable c] {f : DecodeFault} {r : Except DecodeFault Instr} {i : Instr} :
    (if c then .error f else r) = .ok i ↔ ¬c ∧ r = .ok i := by
  split
  next h => exact ⟨fun eq => (nomatch eq), fun both => absurd h both.1⟩
  next h => exact ⟨fun eq => ⟨h, eq⟩, And.right⟩

/-- The instructions of a family: the constructors of `Instr` from one on and before another. -/
def Instr.inFamily (lo hi : Nat) (i : Instr) : Bool := decide (lo ≤ i.ctorIdx ∧ i.ctorIdx < hi)

/-! ### Control opcodes -/

variable {x : Issuer} {svc : Bool} {w : BitVec 64} {i : Instr}

theorem decode_encode_control (fam : i.inFamily 0 35 = true) (wf : i.wf x svc = true) :
    decode x svc (encode i) = .ok i := by
  generalize e : encode i = w
  cases i
  all_goals try exact absurd fam Bool.false_ne_true
  all_goals clear fam; dsimp only [Instr.wf] at wf; simp only [Bool.and_eq_true] at wf
  case nop | safe | endT =>
    obtain ⟨stream, tok⟩ := wf
    obtain ⟨top, p, fifo, c6, g, fn, imm⟩ := (eq_packT ..).1 e.symm
    rw [top.decode_control (by decide) (by decide)]
    simp [decodeControl, KLCS, top.verdict_ok stream tok, top.hdrOf_guard p g, mbz_ok, fln_eq, fn, imm, c6, fifo]
  case li | lih =>
    obtain ⟨⟨stream, tok⟩, un⟩ := wf
    obtain ⟨top, d, z, imm⟩ := (eq_packKL ..).1 e.symm
    rw [top.decode_control (by decide) (by decide)]
    simp [decodeControl, KLS, top.verdict_ok stream tok, top.hdrOf_unguarded un, mbz_ok, z, d, imm]
  case addi | andi | ori | xori | muli =>
    obtain ⟨⟨stream, tok⟩, pos⟩ := wf
    obtain ⟨top, d, a, p, imm⟩ := (eq_packKI ..).1 e.symm
    rw [top.decode_control (by decide) (by decide)]
    simp [decodeControl, KLS, top.verdict_ok stream tok, top.hdrOf_positive p pos, d, a, imm]
  case shli | shri | sari =>
    obtain ⟨⟨stream, tok⟩, pos⟩ := wf
    obtain ⟨top, d, a, p, imm⟩ := (eq_packKI ..).1 e.symm
    obtain ⟨small, n⟩ := (fld_eq_zero_append (m := 20) (n := 6)).1 imm
    rw [top.decode_control (by decide) (by decide)]
    simp [decodeControl, KLS, top.verdict_ok stream tok, top.hdrOf_positive p pos, d, a, n, Nat.le_of_lt_succ small]
  case alu =>
    obtain ⟨⟨stream, tok⟩, unary⟩ := wf
    obtain ⟨top, d, a, b, p, g, fn, z⟩ := (eq_packK3 ..).1 e.symm
    obtain ⟨lt, fn⟩ := AluFn.codes.read fn
    rw [top.decode_control (by decide) (by decide)]
    simp [decodeControl, KLS, top.verdict_ok stream tok, top.hdrOf_guard p g, mbz_ok, Nat.not_le_of_lt lt, fn, d, a, b, z,
      fln_eq_zero]
    simpa [Decidable.imp_iff_not_or] using unary
  case plog h f d a b =>
    obtain ⟨⟨stream, tok⟩, mov⟩ := wf
    obtain ⟨top, d, a, b, p, g, fn, z⟩ := (eq_packK3 ..).1 e.symm
    obtain ⟨lt, fn⟩ := PlogFn.codes.read fn
    have b' := b
    simp only [p6, eq_append_iff (n := 4), extract_fld, Nat.reduceAdd, Nat.reduceLeDiff] at d a b
    rw [top.decode_control (by decide) (by decide)]
    simp [decodeControl, KLCS, top.verdict_ok stream tok, top.hdrOf_guard p g, mbz_ok, Nat.not_le_of_lt lt, fn, d, a, b, z,
      fln_eq_zero]
    intro four
    have isMov : f = .pmov := by rw [← fn, four]; rfl
    simp [isMov] at mov
    rw [b', mov]
    rfl
  case lea =>
    obtain ⟨stream, tok⟩ := wf
    obtain ⟨top, d, a, b, p, g, fn, z⟩ := (eq_packK3 ..).1 e.symm
    obtain ⟨lt, fn⟩ := (fld_eq_zero_append (m := 5) (n := 2)).1 fn
    replace lt : fln w 12 7 < 4 := lt
    rw [top.decode_control (by decide) (by decide)]
    simp [decodeControl, KLS, top.verdict_ok stream tok, top.hdrOf_guard p g, mbz_ok, Nat.not_le_of_lt lt, fn, d, a, b, z]
  case sel | jr | rnd =>
    obtain ⟨stream, tok⟩ := wf
    obtain ⟨top, d, a, b, p, g, fn, z⟩ := (eq_packK3 ..).1 e.symm
    rw [top.decode_control (by decide) (by decide)]
    simp [decodeControl, KLS, top.verdict_ok stream tok, top.hdrOf_guard p g, mbz_ok, fln_eq, fn, d, a, b, z]
  case cmp =>
    obtain ⟨stream, tok⟩ := wf
    obtain ⟨top, pd, cc, g, z, a, p, tail⟩ := (eq_packKC ..).1 e.symm
    obtain ⟨lt, cc⟩ := CmpCc.codes.read cc
    simp only [eq_append_iff (n := 14), extract_fld, Nat.reduceAdd, Nat.reduceLeDiff] at tail
    rw [top.decode_control (by decide) (by decide)]
    simp [decodeControl, KLS, top.verdict_ok stream tok, top.hdrOf_guard p g, mbz_ok, Nat.not_le_of_lt lt, cc, pd, a, z, tail]
  case cmpi =>
    obtain ⟨stream, tok⟩ := wf
    obtain ⟨top, pd, cc, g, z, a, p, imm⟩ := (eq_packKC ..).1 e.symm
    obtain ⟨lt, cc⟩ := CmpCc.codes.read cc
    rw [top.decode_control (by decide) (by decide)]
    simp [decodeControl, KLS, top.verdict_ok stream tok, top.hdrOf_guard p g, mbz_ok, Nat.not_le_of_lt lt, cc, pd, a, z, imm]
  case br | call =>
    obtain ⟨stream, tok⟩ := wf
    obtain ⟨top, p, g, fn, off⟩ := (eq_packKB ..).1 e.symm
    rw [top.decode_control (by decide) (by decide)]
    simp [decodeControl, KLS, KLCS, top.verdict_ok stream tok, top.hdrOf_guard p g, mbz_ok, fn, off]
  case endl =>
    obtain ⟨stream, tok⟩ := wf
    obtain ⟨top, p, g, fn, off⟩ := (eq_packKB ..).1 e.symm
    simp only [eq_append_iff (n := 3), extract_fld, Nat.reduceAdd, Nat.reduceLeDiff] at fn
    rw [top.decode_control (by decide) (by decide)]
    simp [decodeControl, KLCS, top.verdict_ok stream tok, top.hdrOf_guard p g, mbz_ok, fn, off]
  case loop h n src =>
    obtain ⟨⟨stream, tok⟩, own⟩ := wf
    cases src with
    | imm c =>
      obtain ⟨top, p, g, fn, imm⟩ := (eq_packKB ..).1 e.symm
      simp only [eq_append_iff (n := 3), extract_fld, Nat.reduceAdd, Nat.reduceLeDiff] at fn
      obtain ⟨kind, n⟩ := fn
      have sel := flb_eq kind (i := 1) (by decide)
      have zero := fld_part kind (a := 0) (b := 1) (by decide)
      rw [top.decode_control (by decide) (by decide)]
      simp [decodeControl, KLCS, top.verdict_ok stream tok, top.hdrOf_guard p g, mbz_ok, sel, zero, n, imm]
    | reg r =>
      obtain ⟨top, p, g, fn, imm⟩ := (eq_packKB ..).1 e.symm
      simp only [eq_append_iff (n := 3), eq_append_iff (n := 6), extract_fld, Nat.reduceAdd, Nat.reduceLeDiff] at fn imm
      obtain ⟨kind, n⟩ := fn
      have sel := flb_eq kind (i := 1) (by decide)
      have zero := fld_part kind (a := 0) (b := 1) (by decide)
      have notC : (x == .c) = false := by simpa [LoopSrc.okFor] using own
      rw [top.decode_control (by decide) (by decide)]
      simp [decodeControl, KLCS, top.verdict_ok stream tok, top.hdrOf_guard p g, mbz_ok, sel, zero, n, imm, notC]
    | ereg r =>
      obtain ⟨top, p, g, fn, imm⟩ := (eq_packKB ..).1 e.symm
      simp only [eq_append_iff (n := 3), eq_append_iff (n := 10), fld_eq_er, extract_fld, Nat.reduceAdd, Nat.reduceLeDiff]
        at fn imm
      obtain ⟨kind, n⟩ := fn
      obtain ⟨z, lt, r⟩ := imm
      have sel := flb_eq kind (i := 1) (by decide)
      have zero := fld_part kind (a := 0) (b := 1) (by decide)
      have isC : (x == .c) = true := own
      rw [top.decode_control (by decide) (by decide)]
      simp [decodeControl, KLCS, top.verdict_ok stream tok, top.hdrOf_guard p g, mbz_ok, badReg, sel, zero, n, z, r, isC,
        Nat.le_of_lt_succ lt]
  case ldk | stk | lds | sts =>
    obtain ⟨⟨stream, tok⟩, pos⟩ := wf
    obtain ⟨top, d, a, p, sz, ac, off⟩ := (eq_packKM ..).1 e.symm
    obtain ⟨lt, sz⟩ := Sz.codes.read sz
    rw [top.decode_control (by decide) (by decide)]
    simp [decodeControl, top.verdict_ok stream tok, top.hdrOf_positive p pos, mbz_ok, Nat.le_of_lt_succ lt, sz, d, a, ac, off]
  case rsr | wsr =>
    obtain ⟨stream, tok⟩ := wf
    obtain ⟨top, d, a, r, p, g, fn, z⟩ := (eq_packM ..).1 e.symm
    obtain ⟨lt, r⟩ := SpecialReg.codes.read r
    rw [top.decode_control (by decide) (by decide)]
    simp [decodeControl, top.verdict_ok stream tok, top.hdrOf_guard p g, mbz_ok, Nat.le_of_lt_succ lt, r, d, a, z, fln_eq _ 12, fn]
  case epush =>
    obtain ⟨⟨stream, tok⟩, mxf⟩ := wf
    obtain rfl := eq_of_beq mxf
    obtain ⟨top, d, a, port, p, g, fn, z⟩ := (eq_packM ..).1 e.symm
    have code : (cd 6 Port.table .mxf).toNat = 1 := by decide
    have entry : tblAt Port.table 1 = .mxf := rfl
    rw [top.decode_control (by decide) (by decide)]
    simp [decodeControl, top.verdict_ok stream tok, top.hdrOf_guard p g, mbz_ok, d, a, port, code, entry, z, fln_eq, fn]
  case epop h d q | ecountOut h d q | ecountIn h d q =>
    obtain ⟨⟨stream, tok⟩, priv⟩ := wf
    obtain ⟨top, d, a, port, p, g, fn, z⟩ := (eq_packM ..).1 e.symm
    obtain ⟨lt, port⟩ := Port.codes.read port
    rw [top.decode_control (by decide) (by decide)]
    simp [decodeControl, top.verdict_ok stream tok, top.hdrOf_guard p g, mbz_ok, Nat.le_of_lt_succ lt, port, d, a, z,
      fln_eq _ 12, fn]
    intro five
    have isCr : q = .cr := by rw [← port, five]; rfl
    simpa [isCr] using priv

/-- Only the port `cr` needs the service core's firmware context (R114). -/
theorem port_allowed (le : fln w 24 6 ≤ 8) (priv : fln w 24 6 = 5 → svc = true ∧ x = .kFirm) :
    (tblAt Port.table (fln w 24 6) != .cr || (svc && x == .kFirm)) = true := by
  have code : tblAt Port.table (fln w 24 6) = .cr ↔ fln w 24 6 = 5 := Port.codes.at_eq_iff (Nat.lt_succ_of_le le)
  by_cases five : fln w 24 6 = 5
  · simp [priv five]
  · simp [mt code.1 five]

theorem encode_decode_control (ok : decodeControl x svc w (fln w 42 8) = .ok i) : w = encode i ∧ i.wf x svc = true := by
  generalize op : fln w 42 8 = n at ok
  unfold decodeControl at ok
  split at ok
  case h_35 => exact nomatch ok
  case h_21 =>
    have form (z : fld w 35 1 = 0) : fld w 35 2 = BitVec.ofBool (flb w 36) ++ (0 : BitVec 1) :=
      fld_eq_append (m := 1) (n := 1) ((fld_one_eq w 36 _).2 rfl) z
    split_ifs at ok with kind onC
    all_goals simp only [verdict_eq_ok, List.forall_mem_cons, List.not_mem_nil, false_imp_iff, implies_true, and_true,
      true_and, mbz_ok, badReg_ok, Bool.false_eq_true, and_assoc, KLCS] at ok
    · obtain ⟨stream, z, high, reg, -, firm, rfl⟩ := ok
      refine ⟨(eq_packKB ..).2 ⟨hasTop_hdrOf op, ?_⟩, accepted_and stream firm onC⟩
      simp [hdrOf, eq_append_iff (n := 3), eq_append_iff (n := 10), extract_fld, form z, kind, high, reg]
    · obtain ⟨stream, z, high, firm, rfl⟩ := ok
      refine ⟨(eq_packKB ..).2 ⟨hasTop_hdrOf op, ?_⟩, accepted_and stream firm ?_⟩
      · simp [hdrOf, eq_append_iff (n := 3), eq_append_iff (n := 6), extract_fld, form z, kind, high]
      · simpa [LoopSrc.okFor] using onC
    · obtain ⟨stream, z, firm, rfl⟩ := ok
      refine ⟨(eq_packKB ..).2 ⟨hasTop_hdrOf op, ?_⟩, accepted_and stream firm rfl⟩
      simp [hdrOf, eq_append_iff (n := 3), extract_fld, form z, kind]
  case h_33 =>
    rw [unless_eq_ok] at ok
    obtain ⟨lt, ok⟩ := ok
    split_ifs at ok with out
    all_goals simp only [verdict_eq_ok, List.forall_mem_cons, List.not_mem_nil, false_imp_iff, implies_true, and_true,
      mbz_ok, beq_iff_eq, and_assoc, decide_eq_false_iff_not, Nat.not_lt] at ok out
    · obtain ⟨stream, priv, a, le, z, firm, rfl⟩ := ok
      refine ⟨(eq_packM ..).2 ⟨hasTop_hdrOf op, ?_⟩, accepted_and stream firm (port_allowed le priv)⟩
      simp [hdrOf, a, z, ← Port.codes.written (Nat.lt_succ_of_le le), fln_eq_zero.1 out]
    · obtain ⟨stream, priv, a, le, z, firm, rfl⟩ := ok
      have fn : fld w 12 7 = 1 := fld_eq_of_fln (show fln w 12 7 = 1 by omega)
      refine ⟨(eq_packM ..).2 ⟨hasTop_hdrOf op, ?_⟩, accepted_and stream firm (port_allowed le priv)⟩
      simp [hdrOf, a, z, ← Port.codes.written (Nat.lt_succ_of_le le), fn]
  all_goals simp only [unless_eq_ok, verdict_eq_ok, List.forall_mem_cons, List.not_mem_nil, false_imp_iff, implies_true,
    and_true, true_and, mbz_ok, bne_iff_ne, ne_eq, Decidable.not_not, Nat.not_le, Nat.not_lt, decide_eq_false_iff_not,
    fln_eq_zero, Bool.false_eq_true, and_assoc, KLS, KLCS] at ok
  case h_1 | h_23 | h_24 =>
    obtain ⟨fn, stream, imm, c6, fifo, firm, rfl⟩ := ok
    exact ⟨(eq_packT ..).2 ⟨hasTop_hdrOf op, by simp [hdrOf, *]⟩, accepted stream firm⟩
  case h_2 | h_3 =>
    obtain ⟨stream, z, firm, rfl⟩ := ok
    exact ⟨(eq_packKL ..).2 ⟨hasTop_hdrOf op, by simp [z]⟩, accepted_and stream firm rfl⟩
  case h_4 =>
    obtain ⟨lt, stream, z, unary, firm, rfl⟩ := ok
    refine ⟨(eq_packK3 ..).2 ⟨hasTop_hdrOf op, by simp [hdrOf, z, ← AluFn.codes.written lt]⟩, accepted_and stream firm ?_⟩
    simpa [fln_eq_zero, Decidable.imp_iff_not_or] using unary
  case h_5 | h_6 | h_7 | h_8 | h_12 =>
    obtain ⟨stream, firm, rfl⟩ := ok
    exact ⟨(eq_packKI ..).2 ⟨hasTop_hdrOf op, by simp [hdrOf]⟩, accepted_and stream firm rfl⟩
  case h_9 | h_10 | h_11 =>
    obtain ⟨stream, le, firm, rfl⟩ := ok
    have small := (fld_eq_zero_append (m := 20) (n := 6)).2 ⟨Nat.lt_succ_of_le le, rfl⟩
    exact ⟨(eq_packKI ..).2 ⟨hasTop_hdrOf op, rfl, rfl, rfl, small⟩, accepted_and stream firm rfl⟩
  case h_13 =>
    obtain ⟨lt, stream, z, low, firm, rfl⟩ := ok
    refine ⟨(eq_packKC ..).2 ⟨hasTop_hdrOf op, ?_⟩, ?_⟩
    · simp [hdrOf, z, ← CmpCc.codes.written lt, eq_append_iff (n := 14), extract_fld, low]
    · dsimp only [Instr.wf]
      simp only [stream, tokensOk_hdrOf firm, Bool.and_true]
  case h_14 =>
    obtain ⟨lt, stream, z, firm, rfl⟩ := ok
    exact ⟨(eq_packKC ..).2 ⟨hasTop_hdrOf op, by simp [hdrOf, z, ← CmpCc.codes.written lt]⟩, accepted stream firm⟩
  case h_15 =>
    obtain ⟨lt, stream, d, a, b, unary, z, firm, rfl⟩ := ok
    have mov : tblAt PlogFn.table (fln w 12 7) = .pmov ↔ fln w 12 7 = 4 := PlogFn.codes.at_eq_iff lt
    simp only [Bool.and_eq_false_iff, bne_eq_false_iff_eq, beq_eq_false_iff_ne, fln_eq_zero] at b unary
    have high : fld w 28 2 = 0 := by
      rcases unary with other | none
      · exact b.resolve_left other
      · exact fld_part none (a := 4) (b := 2) (by decide)
    refine ⟨(eq_packK3 ..).2 ⟨hasTop_hdrOf op, ?_⟩, accepted_and stream firm ?_⟩
    · simp [hdrOf, z, ← PlogFn.codes.written lt, p6, eq_append_iff (n := 4), extract_fld, d, a, high]
    · rcases unary with other | none
      · simp [mt mov.1 other]
      · simp [fld_part none (a := 0) (b := 4) (by decide)]
  case h_16 =>
    obtain ⟨fn, stream, z, firm, rfl⟩ := ok
    exact ⟨(eq_packK3 ..).2 ⟨hasTop_hdrOf op, by simp [hdrOf, fn, z]⟩, accepted stream firm⟩
  case h_20 =>
    obtain ⟨fn, stream, b, z, firm, rfl⟩ := ok
    exact ⟨(eq_packK3 ..).2 ⟨hasTop_hdrOf op, by simp [hdrOf, fn, b, z]⟩, accepted stream firm⟩
  case h_34 =>
    obtain ⟨fn, stream, a, b, z, firm, rfl⟩ := ok
    exact ⟨(eq_packK3 ..).2 ⟨hasTop_hdrOf op, by simp [hdrOf, fn, a, b, z]⟩, accepted stream firm⟩
  case h_17 =>
    obtain ⟨lt, stream, z, firm, rfl⟩ := ok
    have fn : fld w 12 7 = (0 : BitVec 5) ++ fld w 12 2 := (fld_eq_zero_append (m := 5) (n := 2)).2 ⟨lt, rfl⟩
    exact ⟨(eq_packK3 ..).2 ⟨hasTop_hdrOf op, by simpa [hdrOf, z] using fn⟩, accepted stream firm⟩
  case h_18 | h_19 =>
    obtain ⟨stream, z, firm, rfl⟩ := ok
    exact ⟨(eq_packKB ..).2 ⟨hasTop_hdrOf op, by simp [hdrOf, z]⟩, accepted stream firm⟩
  case h_22 =>
    obtain ⟨stream, z, firm, rfl⟩ := ok
    exact ⟨(eq_packKB ..).2 ⟨hasTop_hdrOf op, by simp [hdrOf, eq_append_iff (n := 3), extract_fld, z]⟩,
      accepted stream firm⟩
  case h_25 | h_26 =>
    obtain ⟨stream, le, firm, rfl⟩ := ok
    exact ⟨(eq_packKM ..).2 ⟨hasTop_hdrOf op, by simp [hdrOf, ← Sz.codes.written (Nat.lt_succ_of_le le)]⟩,
      accepted_and stream firm rfl⟩
  case h_27 | h_28 =>
    obtain ⟨stream, le, z, firm, rfl⟩ := ok
    exact ⟨(eq_packKM ..).2 ⟨hasTop_hdrOf op, by simp [hdrOf, z, ← Sz.codes.written (Nat.lt_succ_of_le le)]⟩,
      accepted_and stream firm rfl⟩
  case h_29 | h_30 =>
    obtain ⟨fn, stream, a, le, z, firm, rfl⟩ := ok
    exact ⟨(eq_packM ..).2 ⟨hasTop_hdrOf op, by simp [hdrOf, fn, a, z, ← SpecialReg.codes.written (Nat.lt_succ_of_le le)]⟩,
      accepted stream firm⟩
  case h_31 =>
    obtain ⟨fn, stream, -, d, one, z, firm, rfl⟩ := ok
    rw [bne_eq_false_iff_eq] at one
    have port : fld w 24 6 = cd 6 Port.table .mxf := fld_eq_of_fln one
    have entry : tblAt Port.table (fln w 24 6) = .mxf := by rw [one]; rfl
    exact ⟨(eq_packM ..).2 ⟨hasTop_hdrOf op, by simp [hdrOf, fn, d, z, port, entry]⟩,
      accepted_and stream firm (by rw [entry]; rfl)⟩
  case h_32 =>
    obtain ⟨fn, stream, priv, a, le, z, firm, rfl⟩ := ok
    refine ⟨(eq_packM ..).2 ⟨hasTop_hdrOf op, ?_⟩, accepted_and stream firm (port_allowed le (by simpa using priv))⟩
    simp [hdrOf, fn, a, z, ← Port.codes.written (Nat.lt_succ_of_le le)]

end Sys2Proof
end

section
/-! Encoding and decoding of the synchronisation and system opcodes and of the access opcodes (R50). -/

namespace Sys2Proof
variable {x : Issuer} {svc : Bool} {w : BitVec 64} {i : Instr}

theorem HasTop.decode_sync {h : Hdr} {opc : BitVec 8} (top : HasTop h opc w) (lo : 0x30 ≤ opc.toNat)
    (hi : opc.toNat < 0x40) : decode x svc w = decodeSync x svc w opc.toNat := by
  have n0 : opc.toNat ≠ 0 := by omega
  simp only [decode, top.fln_opc, n0, Nat.not_lt.2 lo, hi, if_false, if_true]

theorem HasTop.decode_access {h : Hdr} {opc : BitVec 8} (top : HasTop h opc w) (lo : 0x40 ≤ opc.toNat)
    (hi : opc.toNat < 0x60) : decode x svc w = decodeAccess x svc w opc.toNat := by
  have n0 : opc.toNat ≠ 0 := by omega
  have n1 : ¬opc.toNat < 0x30 := by omega
  simp only [decode, top.fln_opc, n0, n1, Nat.not_lt.2 lo, hi, if_false, if_true]

/-! ### Synchronisation and system opcodes -/

theorem decode_encode_sync (fam : i.inFamily 35 53 = true) (wf : i.wf x svc = true) : decode x svc (encode i) = .ok i := by
  generalize e : encode i = w
  cases i
  all_goals try exact absurd fam Bool.false_ne_true
  all_goals clear fam; dsimp only [Instr.wf] at wf; simp only [Bool.and_eq_true] at wf
  case tkp | tkw =>
    obtain ⟨⟨stream, tok⟩, ⟨own, task⟩, some⟩ := wf
    obtain ⟨top, p, fifo, c6, g, fn, imm⟩ := (eq_packT ..).1 e.symm
    obtain ⟨lt, fifo⟩ := Fifo.codes.read fifo
    rw [top.decode_sync (by decide) (by decide)]
    simp [decodeSync, KLCS, top.verdict_ok stream tok, top.hdrOf_guard p g, mbz_ok, Nat.le_of_lt_succ lt, fifo, imm, c6,
      fln_eq_zero, fn]
    simp_all
  case tkc =>
    obtain ⟨⟨stream, tok⟩, task⟩ := wf
    obtain ⟨top, p, fifo, c6, g, fn, imm⟩ := (eq_packT ..).1 e.symm
    obtain ⟨lt, fifo⟩ := Fifo.codes.read fifo
    simp only [eq_append_iff (n := 6), extract_fld, Nat.reduceAdd, Nat.reduceLeDiff] at imm
    rw [top.decode_sync (by decide) (by decide)]
    simp [decodeSync, top.verdict_ok stream tok, top.hdrOf_guard p g, mbz_ok, Nat.le_of_lt_succ lt, fifo, imm, c6,
      fln_eq_zero, fn]
    simpa using task
  case bar | bara | barw | sysResume =>
    obtain ⟨stream, tok⟩ := wf
    obtain ⟨top, p, fifo, c6, g, fn, imm⟩ := (eq_packT ..).1 e.symm
    simp only [eq_append_iff (n := 2), extract_fld, Nat.reduceAdd, Nat.reduceLeDiff] at imm
    rw [top.decode_sync (by decide) (by decide)]
    simp [decodeSync, top.verdict_ok stream tok, top.hdrOf_guard p g, mbz_ok, fifo, imm, c6, fln_eq, fn]
  case renq =>
    obtain ⟨stream, tok⟩ := wf
    obtain ⟨top, d, a, b, p, g, fn, z⟩ := (eq_packK3 ..).1 e.symm
    rw [top.decode_sync (by decide) (by decide)]
    simp [decodeSync, top.verdict_ok stream tok, top.hdrOf_guard p g, mbz_ok, fln_eq, fn, d, a, b, z]
  case amo =>
    obtain ⟨stream, tok⟩ := wf
    obtain ⟨top, d, a, b, p, op, sc, g, dw, z⟩ := (eq_packKA ..).1 e.symm
    obtain ⟨lt, op⟩ := AmoOp.codes.read op
    obtain ⟨-, sc⟩ := Scope.codes.read sc
    rw [top.decode_sync (by decide) (by decide)]
    simp [decodeSync, top.verdict_ok stream tok, top.hdrOf_guard p g, mbz_ok, Nat.not_le_of_lt lt, op, sc, dw, d, a, b, z]
  case fence =>
    obtain ⟨stream, tok⟩ := wf
    obtain ⟨top, p, fifo, c6, g, fn, imm⟩ := (eq_packT ..).1 e.symm
    obtain ⟨lt, fn⟩ := FenceKind.codes.read fn
    simp only [eq_append_iff (n := 2), extract_fld, Nat.reduceAdd, Nat.reduceLeDiff] at imm
    obtain ⟨z, sc⟩ := imm
    obtain ⟨-, sc⟩ := Scope.codes.read sc
    rw [top.decode_sync (by decide) (by decide)]
    simp [decodeSync, KLCS, top.verdict_ok stream tok, top.hdrOf_guard p g, mbz_ok, Nat.not_le_of_lt lt, fn, sc, fifo, z, c6]
  case mark | wfe | sysCall | sysKill | sysTmr | trap | brk | rfi =>
    obtain ⟨stream, tok⟩ := wf
    obtain ⟨top, p, fifo, c6, g, fn, imm⟩ := (eq_packT ..).1 e.symm
    rw [top.decode_sync (by decide) (by decide)]
    simp [decodeSync, KLCS, top.verdict_ok stream tok, top.hdrOf_guard p g, mbz_ok, fifo, imm, c6, fln_eq, fn]

theorem encode_decode_sync (ok : decodeSync x svc w (fln w 42 8) = .ok i) : w = encode i ∧ i.wf x svc = true := by
  generalize op : fln w 42 8 = n at ok
  unfold decodeSync at ok
  split at ok
  case h_16 => exact nomatch ok
  case h_12 =>
    split at ok
    case h_5 => exact nomatch ok
    all_goals
      rename_i fn
      replace fn := fld_eq_ofNat fn
      simp only [verdict_eq_ok, List.forall_mem_cons, List.not_mem_nil, false_imp_iff, implies_true, and_true,
        true_and, mbz_ok, Bool.false_eq_true, and_assoc] at ok
    case h_1 | h_3 =>
      obtain ⟨stream, c6, fifo, firm, rfl⟩ := ok
      exact ⟨(eq_packT ..).2 ⟨hasTop_hdrOf op, by simp [hdrOf, *]⟩, accepted stream firm⟩
    case h_2 =>
      obtain ⟨stream, imm, c6, fifo, firm, rfl⟩ := ok
      exact ⟨(eq_packT ..).2 ⟨hasTop_hdrOf op, by simp [hdrOf, eq_append_iff (n := 2), extract_fld, *]⟩, accepted stream firm⟩
    case h_4 =>
      obtain ⟨stream, c6, firm, rfl⟩ := ok
      exact ⟨(eq_packT ..).2 ⟨hasTop_hdrOf op, by simp [hdrOf, *]⟩, accepted stream firm⟩
  all_goals simp only [unless_eq_ok, verdict_eq_ok, List.forall_mem_cons, List.not_mem_nil, false_imp_iff, implies_true,
    and_true, true_and, mbz_ok, bne_iff_ne, ne_eq, Decidable.not_not, Nat.not_le, Nat.not_lt, decide_eq_false_iff_not,
    fln_eq_zero, Bool.false_eq_true, Bool.or_eq_false_iff, bne_eq_false_iff_eq, beq_eq_false_iff_ne, and_assoc, KLCS] at ok
  case h_1 | h_2 =>
    obtain ⟨fn, stream, imm, some, le, own, task, firm, rfl⟩ := ok
    refine ⟨(eq_packT ..).2 ⟨hasTop_hdrOf op, ?_⟩, accepted_and stream firm ?_⟩
    · simp [hdrOf, fn, imm, ← Fifo.codes.written (Nat.lt_succ_of_le le)]
    · simpa [own, task] using some
  case h_3 =>
    obtain ⟨fn, stream, imm, c6, le, task, firm, rfl⟩ := ok
    refine ⟨(eq_packT ..).2 ⟨hasTop_hdrOf op, ?_⟩, accepted_and stream firm (by simp [task])⟩
    simp [hdrOf, fn, imm, c6, eq_append_iff (n := 6), extract_fld, ← Fifo.codes.written (Nat.lt_succ_of_le le)]
  case h_4 | h_5 | h_6 =>
    obtain ⟨fn, stream, imm, c6, fifo, firm, rfl⟩ := ok
    exact ⟨(eq_packT ..).2 ⟨hasTop_hdrOf op, by simp [hdrOf, eq_append_iff (n := 2), extract_fld, *]⟩, accepted stream firm⟩
  case h_7 =>
    obtain ⟨fn, stream, d, z, firm, rfl⟩ := ok
    exact ⟨(eq_packK3 ..).2 ⟨hasTop_hdrOf op, by simp [hdrOf, *]⟩, accepted stream firm⟩
  case h_8 =>
    obtain ⟨lt, stream, z, firm, rfl⟩ := ok
    refine ⟨(eq_packKA ..).2 ⟨hasTop_hdrOf op, ?_⟩, accepted stream firm⟩
    simp [hdrOf, z, ← AmoOp.codes.written lt, ← Scope.codes.written (fln_lt w 14 2)]
  case h_9 =>
    obtain ⟨lt, stream, imm, c6, fifo, firm, rfl⟩ := ok
    refine ⟨(eq_packT ..).2 ⟨hasTop_hdrOf op, ?_⟩, accepted stream firm⟩
    simp [hdrOf, eq_append_iff (n := 2), extract_fld, imm, c6, fifo, ← FenceKind.codes.written lt,
      ← Scope.codes.written (fln_lt w 0 2)]
  case h_10 | h_15 =>
    obtain ⟨fn, stream, imm, c6, fifo, firm, rfl⟩ := ok
    exact ⟨(eq_packT ..).2 ⟨hasTop_hdrOf op, by simp [hdrOf, *]⟩, accepted stream firm⟩
  case h_11 | h_13 | h_14 =>
    obtain ⟨fn, stream, c6, fifo, firm, rfl⟩ := ok
    exact ⟨(eq_packT ..).2 ⟨hasTop_hdrOf op, by simp [hdrOf, *]⟩, accepted stream firm⟩

/-! ### Access opcodes -/

/-- The fields of a queue name (R166) hold a queue exactly when the decoder reads it there without offence. -/
theorem fld_eq_qname {q : QName} : fld w 22 4 = q.number ∧ fld w 19 3 = q.kind ↔
    (badQueue w).2 = false ∧ fld w 21 1 = 0 ∧ fln w 19 2 ≠ 3 ∧ qnameAt w = q := by
  have kind (k : BitVec 2) : fld w 19 3 = (0 : BitVec 1) ++ k ↔ fld w 21 1 = 0 ∧ fln w 19 2 = k.toNat := by
    simp only [eq_append_iff (n := 2), extract_fld, Nat.reduceAdd, Nat.reduceLeDiff, fln_eq, BitVec.toNat_inj]
  have number {k : Nat} [NeZero k] (q : Fin k) (fits : k ≤ 2 ^ 4) : fld w 22 4 = q4 q ↔
      fln w 22 4 ≤ k - 1 ∧ Fin.ofNat k (fln w 22 4) = q := by
    have pos := NeZero.pos k
    exact (fld_eq_ofNat_fin fits).trans (and_congr_left fun _ => by omega)
  have below : fln w 19 2 < 4 := fln_lt w 19 2
  have form : fln w 19 2 = 0 ∨ fln w 19 2 = 1 ∨ fln w 19 2 = 2 ∨ fln w 19 2 = 3 := by omega
  rw [badQueue, qnameAt, decide_eq_false_iff_not, Nat.not_lt]
  cases q with
  | lq n =>
    have kind : fld w 19 3 = 0 ↔ fld w 21 1 = 0 ∧ fln w 19 2 = 0 := kind 0
    rw [QName.kind, QName.number, kind, number n (by decide)]
    rcases form with k | k | k | k <;> simp [-Fin.ofNat_eq_cast, k, and_comm, and_assoc]
  | sq n =>
    have kind : fld w 19 3 = 1 ↔ fld w 21 1 = 0 ∧ fln w 19 2 = 1 := kind 1
    rw [QName.kind, QName.number, kind, number n (by decide)]
    rcases form with k | k | k | k <;> simp [-Fin.ofNat_eq_cast, k, and_comm, and_assoc]
  | iq n =>
    have kind : fld w 19 3 = 2 ↔ fld w 21 1 = 0 ∧ fln w 19 2 = 2 := kind 2
    rw [QName.kind, QName.number, kind, number n (by decide)]
    rcases form with k | k | k | k <;> simp [-Fin.ofNat_eq_cast, k, and_comm, and_assoc]

theorem decode_encode_access (fam : i.inFamily 53 67 = true) (wf : i.wf x svc = true) :
    decode x svc (encode i) = .ok i := by
  generalize e : encode i = w
  cases i
  all_goals try exact absurd fam Bool.false_ne_true
  all_goals clear fam; dsimp only [Instr.wf] at wf; simp only [Bool.and_eq_true] at wf
  case ld =>
    obtain ⟨⟨stream, tok⟩, pos⟩ := wf
    obtain ⟨top, d, ab, p, q, ac, sz, off⟩ := (eq_packA ..).1 e.symm
    obtain ⟨lt, sz⟩ := Sz.codes.read sz
    obtain ⟨qlt, q⟩ := (fld_eq_ofNat_fin (by decide)).1 q
    simp only [eq_append_iff (n := 1), extract_fld, fld_one_eq, Nat.reduceAdd, Nat.reduceLeDiff] at d
    rw [top.decode_access (by decide) (by decide)]
    simp [decodeAccess, -Fin.ofNat_eq_cast, top.verdict_ok stream tok, top.hdrOf_positive p pos, mbz_ok, d, ab, q, ac, sz, off,
      Nat.le_of_lt_succ lt, Nat.le_of_lt_succ qlt]
  case ldp | ldi | st | stp =>
    obtain ⟨⟨stream, tok⟩, pos⟩ := wf
    obtain ⟨top, d, ab, p, q, ac, sz, off⟩ := (eq_packA ..).1 e.symm
    obtain ⟨lt, sz⟩ := Sz.codes.read sz
    obtain ⟨qlt, q⟩ := (fld_eq_ofNat_fin (by decide)).1 q
    rw [top.decode_access (by decide) (by decide)]
    simp [decodeAccess, -Fin.ofNat_eq_cast, top.verdict_ok stream tok, top.hdrOf_positive p pos, mbz_ok, d, ab, q, ac, sz, off,
      Nat.le_of_lt_succ lt, Nat.le_of_lt_succ qlt]
  case ldg =>
    obtain ⟨⟨stream, tok⟩, pos⟩ := wf
    obtain ⟨top, d, ab, p, q, ac, sz, off⟩ := (eq_packA ..).1 e.symm
    obtain ⟨lt, sz⟩ := Sz.codes.read sz
    obtain ⟨qlt, q⟩ := (fld_eq_ofNat_fin (by decide)).1 q
    simp only [eq_append_iff (n := 2), eq_append_iff (n := 1), extract_fld, fld_one_eq, Nat.reduceAdd, Nat.reduceLeDiff] at d
    obtain ⟨d, iq⟩ := d
    obtain ⟨-, iq⟩ := (fld_eq_ofNat_fin (by decide)).1 iq
    rw [top.decode_access (by decide) (by decide)]
    simp [decodeAccess, -Fin.ofNat_eq_cast, top.verdict_ok stream tok, top.hdrOf_positive p pos, mbz_ok, d, iq, ab, q, ac, sz, off,
      Nat.le_of_lt_succ lt, Nat.le_of_lt_succ qlt]
  case stg =>
    obtain ⟨⟨stream, tok⟩, pos⟩ := wf
    obtain ⟨top, d, ab, p, q, ac, sz, off⟩ := (eq_packA ..).1 e.symm
    obtain ⟨lt, sz⟩ := Sz.codes.read sz
    obtain ⟨qlt, q⟩ := (fld_eq_ofNat_fin (by decide)).1 q
    simp only [eq_append_iff (n := 3), extract_fld, Nat.reduceAdd, Nat.reduceLeDiff] at d
    obtain ⟨d, iq⟩ := d
    obtain ⟨-, iq⟩ := (fld_eq_ofNat_fin (by decide)).1 iq
    rw [top.decode_access (by decide) (by decide)]
    simp [decodeAccess, -Fin.ofNat_eq_cast, top.verdict_ok stream tok, top.hdrOf_positive p pos, mbz_ok, d, iq, ab, q, ac, sz, off,
      Nat.le_of_lt_succ lt, Nat.le_of_lt_succ qlt]
  case ldr =>
    obtain ⟨⟨stream, tok⟩, pos⟩ := wf
    obtain ⟨top, d, ab, p, q, ac, sz, off⟩ := (eq_packA ..).1 e.symm
    simp only [p6, eq_append_iff (n := 4), extract_fld, Nat.reduceAdd, Nat.reduceLeDiff] at d
    rw [top.decode_access (by decide) (by decide)]
    simp [decodeAccess, -Fin.ofNat_eq_cast, top.verdict_ok stream tok, top.hdrOf_positive p pos, mbz_ok, d, ab, q, ac, sz, off]
  case ldw | stw =>
    obtain ⟨⟨stream, tok⟩, pos⟩ := wf
    obtain ⟨top, d, ab, p, q, ac, sz, off⟩ := (eq_packA ..).1 e.symm
    simp only [w6, eq_append_iff (n := 5), extract_fld, Nat.reduceAdd, Nat.reduceLeDiff] at d
    rw [top.decode_access (by decide) (by decide)]
    simp [decodeAccess, -Fin.ofNat_eq_cast, top.verdict_ok stream tok, top.hdrOf_positive p pos, mbz_ok, d, ab, q, ac, sz, off]
  case pf =>
    obtain ⟨⟨stream, tok⟩, pos⟩ := wf
    obtain ⟨top, d, ab, p, tr, ac, sz, off⟩ := (eq_packA ..).1 e.symm
    obtain ⟨lt, tr⟩ := (fld_eq_zero_append (m := 3) (n := 1)).1 tr
    rw [fld_one_eq] at tr
    rw [top.decode_access (by decide) (by decide)]
    simp [decodeAccess, top.verdict_ok stream tok, top.hdrOf_positive p pos, mbz_ok, d, ab, tr, ac, sz, off,
      Nat.le_of_lt_succ lt]
  case stt =>
    obtain ⟨⟨stream, tok⟩, pos⟩ := wf
    obtain ⟨top, d, ab, p, q, ac, sz, off⟩ := (eq_packA ..).1 e.symm
    simp only [eq_append_iff (n := 4), eq_append_iff (n := 1), extract_fld, fld_one_eq, Nat.reduceAdd, Nat.reduceLeDiff] at d
    rw [top.decode_access (by decide) (by decide)]
    simp [decodeAccess, top.verdict_ok stream tok, top.hdrOf_positive p pos, mbz_ok, d, ab, q, ac, sz, off]
  case qfl =>
    obtain ⟨⟨⟨stream, tok⟩, pos⟩, own⟩ := wf
    obtain ⟨top, d, ab, p, number, kind, sz, off⟩ := (eq_packA ..).1 e.symm
    obtain ⟨clean, z, kind, q⟩ := fld_eq_qname.1 ⟨number, kind⟩
    rw [top.decode_access (by decide) (by decide)]
    simp [decodeAccess, top.verdict_ok stream tok, top.hdrOf_positive p pos, mbz_ok, d, ab, clean, z, kind, q, own, sz, off]
  case qln h dst q =>
    obtain ⟨⟨⟨stream, tok⟩, pos⟩, own⟩ := wf
    cases dst with
    | areg d =>
      obtain ⟨top, d, ab, p, number, kind, sz, off⟩ := (eq_packA ..).1 e.symm
      obtain ⟨clean, z, kind, q⟩ := fld_eq_qname.1 ⟨number, kind⟩
      have notC : (x == .c) = false := by cases x <;> first | rfl | exact absurd own Bool.false_ne_true
      rw [top.decode_access (by decide) (by decide)]
      simp [decodeAccess, top.verdict_ok stream tok, top.hdrOf_positive p pos, mbz_ok, d, ab, clean, z, kind, q, notC, sz, off]
    | ereg d =>
      obtain ⟨top, z', ab, p, number, kind, sz, off⟩ := (eq_packA ..).1 e.symm
      obtain ⟨clean, z, kind, q⟩ := fld_eq_qname.1 ⟨number, kind⟩
      have isC : (x == .c) = true := own
      simp only [eq_append_iff (n := 10), fld_eq_er, extract_fld, Nat.reduceAdd, Nat.reduceLeDiff] at off
      obtain ⟨high, lt, d⟩ := off
      rw [top.decode_access (by decide) (by decide)]
      simp [decodeAccess, top.verdict_ok stream tok, top.hdrOf_positive p pos, mbz_ok, badReg, Nat.le_of_lt_succ lt, z', d, ab, clean, z, kind, q, isC, sz, high]

theorem encode_decode_access (ok : decodeAccess x svc w (fln w 42 8) = .ok i) : w = encode i ∧ i.wf x svc = true := by
  generalize op : fln w 42 8 = n at ok
  unfold decodeAccess at ok
  split at ok
  case h_15 => exact nomatch ok
  case h_14 =>
    split_ifs at ok with onC
    all_goals simp only [verdict_eq_ok, List.forall_mem_cons, List.not_mem_nil, false_imp_iff, implies_true, and_true,
      true_and, mbz_ok, badReg_ok, Bool.false_eq_true, beq_eq_false_iff_ne, and_assoc] at ok
    · obtain ⟨stream, d, ab, clean, z, kind, sz, reg, -, high, firm, rfl⟩ := ok
      obtain ⟨number, kind⟩ := fld_eq_qname.2 ⟨clean, z, kind, rfl⟩
      refine ⟨(eq_packA ..).2 ⟨hasTop_hdrOf op, ?_⟩, accepted_and_and stream firm rfl onC⟩
      simp [hdrOf, eq_append_iff (n := 10), extract_fld, *]
    · obtain ⟨stream, ab, clean, z, kind, sz, off, firm, rfl⟩ := ok
      obtain ⟨number, kind⟩ := fld_eq_qname.2 ⟨clean, z, kind, rfl⟩
      have own : (QlnDst.areg (fld w 36 6)).okFor x = true := by
        cases x with
        | l | s => rfl
        | kTask | kFirm => exact nomatch stream
        | c => exact absurd rfl onC
      exact ⟨(eq_packA ..).2 ⟨hasTop_hdrOf op, by simp [hdrOf, *]⟩, accepted_and_and stream firm rfl own⟩
  all_goals simp only [verdict_eq_ok, List.forall_mem_cons, List.not_mem_nil, false_imp_iff, implies_true,
    and_true, true_and, mbz_ok, Nat.not_lt, decide_eq_false_iff_not, Bool.false_eq_true, Bool.or_eq_false_iff,
    beq_eq_false_iff_ne, Bool.not_eq_false', and_assoc] at ok
  case h_1 =>
    obtain ⟨stream, d, qle, le, firm, rfl⟩ := ok
    refine ⟨(eq_packA ..).2 ⟨hasTop_hdrOf op, ?_⟩, accepted_and stream firm rfl⟩
    simp [hdrOf, ← Sz.codes.written (Nat.lt_succ_of_le le), q4, ofNat_fln, Nat.mod_eq_of_lt (Nat.lt_succ_of_le qle), eq_append_iff (n := 1), extract_fld, d,
      fld_one_eq]
  case h_2 | h_3 | h_8 | h_9 =>
    obtain ⟨stream, d, qle, le, firm, rfl⟩ := ok
    refine ⟨(eq_packA ..).2 ⟨hasTop_hdrOf op, ?_⟩, accepted_and stream firm rfl⟩
    simp [hdrOf, ← Sz.codes.written (Nat.lt_succ_of_le le), q4, ofNat_fln, Nat.mod_eq_of_lt (Nat.lt_succ_of_le qle), d]
  case h_4 =>
    obtain ⟨stream, d, qle, le, firm, rfl⟩ := ok
    refine ⟨(eq_packA ..).2 ⟨hasTop_hdrOf op, ?_⟩, accepted_and stream firm rfl⟩
    have whole : fln w 36 2 < 4 := fln_lt w 36 2
    simp [hdrOf, ← Sz.codes.written (Nat.lt_succ_of_le le), q4, ofNat_fln, Nat.mod_eq_of_lt (Nat.lt_succ_of_le qle), Nat.mod_eq_of_lt whole, eq_append_iff (n := 2), eq_append_iff (n := 1), extract_fld, d, fld_one_eq]
  case h_10 =>
    obtain ⟨stream, d, qle, le, firm, rfl⟩ := ok
    refine ⟨(eq_packA ..).2 ⟨hasTop_hdrOf op, ?_⟩, accepted_and stream firm rfl⟩
    have whole : fln w 36 3 < 8 := fln_lt w 36 3
    simp [hdrOf, ← Sz.codes.written (Nat.lt_succ_of_le le), q4, ofNat_fln, Nat.mod_eq_of_lt (Nat.lt_succ_of_le qle), Nat.mod_eq_of_lt whole, eq_append_iff (n := 3), extract_fld, d]
  case h_5 =>
    obtain ⟨stream, d, sz, firm, rfl⟩ := ok
    exact ⟨(eq_packA ..).2 ⟨hasTop_hdrOf op, by simp [hdrOf, p6, eq_append_iff (n := 4), extract_fld, d, sz]⟩,
      accepted_and stream firm rfl⟩
  case h_6 | h_11 =>
    obtain ⟨stream, d, qn, sz, firm, rfl⟩ := ok
    exact ⟨(eq_packA ..).2 ⟨hasTop_hdrOf op, by simp [hdrOf, w6, eq_append_iff (n := 5), extract_fld, d, qn, sz]⟩,
      accepted_and stream firm rfl⟩
  case h_7 =>
    obtain ⟨stream, d, le, ac, sz, firm, rfl⟩ := ok
    have tr : fld w 22 4 = (0 : BitVec 3) ++ BitVec.ofBool (flb w 22) :=
      (fld_eq_zero_append (m := 3) (n := 1)).2 ⟨Nat.lt_succ_of_le le, (fld_one_eq w 22 _).2 rfl⟩
    exact ⟨(eq_packA ..).2 ⟨hasTop_hdrOf op, by simpa [hdrOf, d, ac, sz] using tr⟩, accepted_and stream firm rfl⟩
  case h_12 =>
    obtain ⟨stream, d, sz, firm, rfl⟩ := ok
    refine ⟨(eq_packA ..).2 ⟨hasTop_hdrOf op, ?_⟩, accepted_and stream firm rfl⟩
    simp [hdrOf, eq_append_iff (n := 4), eq_append_iff (n := 1), extract_fld, fld_one_eq, d, sz]
  case h_13 =>
    obtain ⟨stream, d, ab, clean, z, kind, own, sz, off, firm, rfl⟩ := ok
    obtain ⟨number, kind⟩ := fld_eq_qname.2 ⟨clean, z, kind, rfl⟩
    exact ⟨(eq_packA ..).2 ⟨hasTop_hdrOf op, by simp [hdrOf, *]⟩, accepted_and_and stream firm rfl own⟩

end Sys2Proof
end

section
/-! Encoding and decoding of the element opcodes (R50). -/

namespace Sys2Proof
variable {x : Issuer} {svc : Bool} {w : BitVec 64} {i : Instr}

theorem HasTop.decode_element {h : Hdr} {opc : BitVec 8} (top : HasTop h opc w) (lo : 0x60 ≤ opc.toNat)
    (hi : opc.toNat < 0x80) : decode x svc w = decodeElement x svc w opc.toNat := by
  have n0 : opc.toNat ≠ 0 := by omega
  have n1 : ¬opc.toNat < 0x30 := by omega
  have n2 : ¬opc.toNat < 0x40 := by omega
  simp only [decode, top.fln_opc, n0, n1, n2, Nat.not_lt.2 lo, hi, if_false, if_true]

/-! ### Addends and formats -/

/-- The addend field of `fma` and `fnma` (R198). -/
theorem addendAt_ed (eq : fld w 0 7 = 0) : fln w 0 7 = 0 ∧ addendAt w = .ed := by
  rw [← fln_eq_zero] at eq
  exact ⟨eq, if_pos eq⟩

theorem addendAt_lq {n : Fin 8} (eq : fld w 0 7 = BitVec.ofNat 7 (n.val + 1)) : fln w 0 7 = n.val + 1 ∧ addendAt w = .lq n := by
  have num : fln w 0 7 = n.val + 1 := by
    rw [fln_eq, eq, BitVec.toNat_ofNat, Nat.mod_eq_of_lt (by omega)]
  refine ⟨num, (if_neg (by omega)).trans ?_⟩
  rw [num]
  exact congrArg Addend.lq (Fin.ext (Nat.mod_eq_of_lt n.isLt))

theorem addendAt_some (lt : fln w 0 7 < 9) (some : fln w 0 7 ≠ 0) :
    ∃ n : Fin 8, fld w 0 7 = BitVec.ofNat 7 (n.val + 1) ∧ addendAt w = .lq n := by
  have num : fld w 0 7 = BitVec.ofNat 7 ((⟨fln w 0 7 - 1, by omega⟩ : Fin 8).val + 1) := by
    rw [Nat.sub_add_cancel (by omega), ofNat_fln]
  exact ⟨_, num, (addendAt_lq num).2⟩

/-- `fcvt` names no format outside the table (R202). -/
theorem lt_of_fcvtPair {m n : Nat} (pair : Fmt.fcvtPair (tblAt Fmt.table m) (tblAt Fmt.table n) = true) : m < 14 ∧ n < 14 := by
  have outside {k : Nat} (le : 14 ≤ k) : tblAt Fmt.table k = .none := by
    rw [tblAt, List.getElem?_eq_none (by exact le)]
    rfl
  have none_src (f : Fmt) : Fmt.fcvtPair f .none = false := by cases f <;> rfl
  have none_dst (f : Fmt) : Fmt.fcvtPair .none f = false := by cases f <;> rfl
  constructor
  · refine Nat.not_le.1 fun le => ?_
    rw [outside le, none_dst] at pair
    cases pair
  · refine Nat.not_le.1 fun le => ?_
    rw [outside le, none_src] at pair
    cases pair

/-! ### Element opcodes -/

theorem decode_encode_element (fam : i.inFamily 67 86 = true) (wf : i.wf x svc = true) :
    decode x svc (encode i) = .ok i := by
  generalize e : encode i = w
  cases i
  all_goals try exact absurd fam Bool.false_ne_true
  all_goals clear fam; dsimp only [Instr.wf] at wf; simp only [Bool.and_eq_true] at wf
  case fop h f ed ea eb =>
    obtain ⟨⟨⟨⟨⟨stream, tok⟩, isD⟩, isA⟩, isB⟩, unary⟩ := wf
    obtain ⟨top, d, a, b, p, g, fn⟩ := (eq_packE3 ..).1 e.symm
    obtain ⟨lt, fn⟩ := FopFn.codes.read fn
    rw [top.decode_element (by decide) (by decide)]
    simp [decodeElement, top.verdict_ok stream tok, top.hdrOf_guard p g, Nat.not_le_of_lt lt, fn, eopAt_of_ec d, eopAt_of_ec a,
      eopAt_of_ec b, badDst_of_ec d, badSrc_of_ec a, badSrc_of_ec b, isD, isA]
    split
    next one =>
      obtain rfl : eb = .e 0 := by simpa [one] using unary
      exact mbz_ok.2 b
    next => simpa using isB
  case fma h c ed ea eb | fnma h c ed ea eb =>
    obtain ⟨⟨⟨⟨⟨stream, tok⟩, isD⟩, isA⟩, isB⟩, reg⟩ := wf
    obtain ⟨top, d, a, b, p, g, fn⟩ := (eq_packE3 ..).1 e.symm
    rw [top.decode_element (by decide) (by decide)]
    cases c with
    | ed =>
      obtain ⟨num, add⟩ := addendAt_ed fn
      obtain ⟨n, rfl⟩ : ∃ n, ed = .e n := by cases ed <;> first | exact ⟨_, rfl⟩ | exact absurd reg Bool.false_ne_true
      have reg : (badReg w 32 0).2 = false := badReg_ok.2 ⟨by rw [(fld_eq_er.1 d).2]; exact d, (eregAt w 32).isLt⟩
      simp [decodeElement, top.verdict_ok stream tok, top.hdrOf_guard p g, num, add, eopAt_of_ec d, eopAt_of_ec a,
        eopAt_of_ec b, reg, badSrc_of_ec a, badSrc_of_ec b, isA, isB]
    | lq n =>
      obtain ⟨num, add⟩ := addendAt_lq fn
      have le : ¬8 ≤ n.val := by omega
      simp [decodeElement, top.verdict_ok stream tok, top.hdrOf_guard p g, num, add, eopAt_of_ec d, eopAt_of_ec a,
        eopAt_of_ec b, badDst_of_ec d, badSrc_of_ec a, badSrc_of_ec b, isD, isA, isB, le]
  case frcp | frsq | emov =>
    obtain ⟨⟨⟨stream, tok⟩, isD⟩, isA⟩ := wf
    obtain ⟨top, d, a, b, p, g, fn⟩ := (eq_packE3 ..).1 e.symm
    rw [top.decode_element (by decide) (by decide)]
    simp [decodeElement, top.verdict_ok stream tok, top.hdrOf_guard p g, mbz_ok, fln_eq, fn, eopAt_of_ec d, eopAt_of_ec a,
      badDst_of_ec d, badSrc_of_ec a, b, isD, isA]
  case frfr | frfs | esel =>
    obtain ⟨⟨⟨⟨stream, tok⟩, isD⟩, isA⟩, isB⟩ := wf
    obtain ⟨top, d, a, b, p, g, fn⟩ := (eq_packE3 ..).1 e.symm
    rw [top.decode_element (by decide) (by decide)]
    simp [decodeElement, top.verdict_ok stream tok, top.hdrOf_guard p g, fln_eq, fn, eopAt_of_ec d, eopAt_of_ec a,
      eopAt_of_ec b, badDst_of_ec d, badSrc_of_ec a, badSrc_of_ec b, isD, isA, isB]
  case iop =>
    obtain ⟨⟨⟨⟨stream, tok⟩, isD⟩, isA⟩, isB⟩ := wf
    obtain ⟨top, d, a, b, p, g, fn⟩ := (eq_packE3 ..).1 e.symm
    obtain ⟨lt, fn⟩ := IopFn.codes.read fn
    rw [top.decode_element (by decide) (by decide)]
    simp [decodeElement, top.verdict_ok stream tok, top.hdrOf_guard p g, Nat.not_le_of_lt lt, fn, eopAt_of_ec d, eopAt_of_ec a,
      eopAt_of_ec b, badDst_of_ec d, badSrc_of_ec a, badSrc_of_ec b, isD, isA, isB]
  case fcmp =>
    obtain ⟨⟨⟨stream, tok⟩, isA⟩, isB⟩ := wf
    obtain ⟨top, d, a, b, p, g, fn⟩ := (eq_packE3 ..).1 e.symm
    obtain ⟨lt, fn⟩ := FcmpCc.codes.read fn
    simp only [eq_append_iff (n := 4), extract_fld, Nat.reduceAdd, Nat.reduceLeDiff] at d
    rw [top.decode_element (by decide) (by decide)]
    simp [decodeElement, top.verdict_ok stream tok, top.hdrOf_guard p g, mbz_ok, Nat.not_le_of_lt lt, fn, d, eopAt_of_ec a,
      eopAt_of_ec b, badSrc_of_ec a, badSrc_of_ec b, isA, isB]
  case icmp =>
    obtain ⟨⟨⟨stream, tok⟩, isA⟩, isB⟩ := wf
    obtain ⟨top, d, a, b, p, g, fn⟩ := (eq_packE3 ..).1 e.symm
    obtain ⟨lt, fn⟩ := CmpCc.codes.read fn
    simp only [eq_append_iff (n := 4), extract_fld, Nat.reduceAdd, Nat.reduceLeDiff] at d
    rw [top.decode_element (by decide) (by decide)]
    simp [decodeElement, top.verdict_ok stream tok, top.hdrOf_guard p g, mbz_ok, Nat.not_le_of_lt lt, fn, d, eopAt_of_ec a,
      eopAt_of_ec b, badSrc_of_ec a, badSrc_of_ec b, isA, isB]
  case fcvt h dst src r ed ea =>
    obtain ⟨⟨⟨⟨stream, tok⟩, isD⟩, isA⟩, pair⟩ := wf
    obtain ⟨top, d, a, b, p, g, fn⟩ := (eq_packE3 ..).1 e.symm
    simp only [eq_append_iff (n := 4), eq_append_iff (n := 3), eq_append_iff (n := 1), extract_fld, fld_one_eq, Nat.reduceAdd,
      Nat.reduceLeDiff] at b fn
    obtain ⟨⟨z, dst⟩, src⟩ := b
    obtain ⟨⟨z', ovf⟩, mode⟩ := fn
    obtain ⟨-, dst⟩ := Fmt.codes.read dst
    obtain ⟨-, src⟩ := Fmt.codes.read src
    obtain ⟨lt, mode⟩ := RMode.codes.read mode
    rw [top.decode_element (by decide) (by decide)]
    simp [decodeElement, top.verdict_ok stream tok, top.hdrOf_guard p g, mbz_ok, eopAt_of_ec d, eopAt_of_ec a,
      badDst_of_ec d, badSrc_of_ec a, isD, isA, z, z', dst, src, pair, ovf, mode, Nat.le_of_lt_succ lt]
  case eli =>
    obtain ⟨⟨⟨stream, tok⟩, pos⟩, isD⟩ := wf
    obtain ⟨top, d, a, p, imm⟩ := (eq_packEI ..).1 e.symm
    rw [top.decode_element (by decide) (by decide)]
    simp [decodeElement, top.verdict_ok stream tok, top.hdrOf_positive p pos, mbz_ok, eopAt_of_ec d, badDst_of_ec d, isD, a, imm]
  case elih =>
    obtain ⟨⟨stream, tok⟩, pos⟩ := wf
    obtain ⟨top, d, a, p, imm⟩ := (eq_packEI ..).1 e.symm
    simp only [eq_append_iff (n := 14), fld_eq_er, extract_fld, Nat.reduceAdd, Nat.reduceLeDiff] at d imm
    obtain ⟨lt, d⟩ := d
    rw [top.decode_element (by decide) (by decide)]
    simp [decodeElement, top.verdict_ok stream tok, top.hdrOf_positive p pos, mbz_ok, badReg, Nat.le_of_lt_succ lt, d, a, imm]
  case rot =>
    obtain ⟨⟨stream, tok⟩, pos⟩ := wf
    obtain ⟨top, d, a, p, imm⟩ := (eq_packEI ..).1 e.symm
    rw [top.decode_element (by decide) (by decide)]
    simp [decodeElement, top.verdict_ok stream tok, top.hdrOf_positive p pos, mbz_ok, d, a, imm]
  case lbr =>
    obtain ⟨⟨stream, tok⟩, pos⟩ := wf
    obtain ⟨top, d, a, p, imm⟩ := (eq_packEI ..).1 e.symm
    simp only [eq_append_iff (n := 3), extract_fld, Nat.reduceAdd, Nat.reduceLeDiff] at d
    rw [top.decode_element (by decide) (by decide)]
    simp [decodeElement, top.verdict_ok stream tok, top.hdrOf_positive p pos, mbz_ok, d, a, imm]
  case eld =>
    obtain ⟨⟨⟨stream, tok⟩, pos⟩, isD⟩ := wf
    obtain ⟨top, d, b, p, off⟩ := (eq_packEI ..).1 e.symm
    obtain ⟨clean, base⟩ := fld_eq_eb.1 b
    rw [top.decode_element (by decide) (by decide)]
    simp [decodeElement, top.verdict_ok stream tok, top.hdrOf_positive p pos, eopAt_of_ec d, badDst_of_ec d, isD, clean, base, off]
  case est =>
    obtain ⟨⟨stream, tok⟩, pos⟩ := wf
    obtain ⟨top, d, b, p, off⟩ := (eq_packEI ..).1 e.symm
    obtain ⟨clean, base⟩ := fld_eq_eb.1 b
    obtain ⟨lt, d⟩ := fld_eq_er.1 d
    rw [top.decode_element (by decide) (by decide)]
    simp [decodeElement, top.verdict_ok stream tok, top.hdrOf_positive p pos, badReg, Nat.le_of_lt_succ lt, d, clean, base, off]

theorem encode_decode_element (ok : decodeElement x svc w (fln w 42 8) = .ok i) : w = encode i ∧ i.wf x svc = true := by
  generalize op : fln w 42 8 = n at ok
  unfold decodeElement at ok
  split at ok
  case h_20 => exact nomatch ok
  all_goals simp only [unless_eq_ok, verdict_eq_ok, List.forall_mem_cons, List.not_mem_nil, false_imp_iff, implies_true,
    and_true, true_and, mbz_ok, badReg_ok, badSrc_ok, badDst_ok, bne_iff_ne, ne_eq, Decidable.not_not, Nat.not_le, Nat.not_lt,
    decide_eq_false_iff_not, fln_eq_zero, Bool.false_eq_true, Bool.not_eq_false', and_assoc] at ok
  case h_1 =>
    obtain ⟨lt, stream, d, isD, a, isA, b, firm, rfl⟩ := ok
    have second : fld w 12 10 = ec (eopAt w 12) ∧ (eopAt w 12).isSrc = true ∧
        (!(tblAt FopFn.table (fln w 0 7)).unary || eopAt w 12 == .e 0) = true := by
      split at b
      next one =>
        have zero : fld w 12 10 = ec (.e 0) := mbz_ok.1 b
        rw [eopAt_of_ec zero]
        exact ⟨zero, rfl, Bool.or_true _⟩
      next two => exact ⟨(badSrc_ok.1 b).1, (badSrc_ok.1 b).2, by simp [two]⟩
    obtain ⟨b, isB, unary⟩ := second
    refine ⟨(eq_packE3 ..).2 ⟨hasTop_hdrOf op, by simp [hdrOf, ← d, ← a, ← b, ← FopFn.codes.written lt]⟩, ?_⟩
    dsimp only [Instr.wf]
    simp only [accepted stream firm, isD, isA, isB, unary, Bool.and_self]
  case h_2 | h_3 =>
    obtain ⟨lt, stream, d, a, isA, b, isB, firm, rfl⟩ := ok
    split at d
    next zero =>
      obtain ⟨num, add⟩ := addendAt_ed (fln_eq_zero.1 (eq_of_beq zero))
      obtain ⟨reg, -⟩ := badReg_ok.1 d
      replace d : eopAt w 32 = .e (eregAt w 32) := eopAt_of_ec reg
      rw [add, d]
      refine ⟨(eq_packE3 ..).2 ⟨hasTop_hdrOf op, reg, a, b, rfl, rfl, fln_eq_zero.1 num⟩, ?_⟩
      dsimp only [Instr.wf]
      simp only [accepted stream firm, isA, isB]
      rfl
    next some =>
      obtain ⟨d, isD⟩ := badDst_ok.1 d
      obtain ⟨n, num, add⟩ := addendAt_some lt (by simpa using some)
      rw [add]
      refine ⟨(eq_packE3 ..).2 ⟨hasTop_hdrOf op, d, a, b, rfl, rfl, num⟩, ?_⟩
      dsimp only [Instr.wf]
      simp only [accepted stream firm, isD, isA, isB, Bool.and_self]
      rfl
  case h_4 | h_5 | h_14 =>
    obtain ⟨fn, stream, d, isD, a, isA, b, firm, rfl⟩ := ok
    refine ⟨(eq_packE3 ..).2 ⟨hasTop_hdrOf op, by simp [hdrOf, ← d, ← a, b, fn]⟩, ?_⟩
    exact accepted_and_and stream firm isD isA
  case h_6 | h_7 | h_15 =>
    obtain ⟨fn, stream, d, isD, a, isA, b, isB, firm, rfl⟩ := ok
    refine ⟨(eq_packE3 ..).2 ⟨hasTop_hdrOf op, by simp [hdrOf, ← d, ← a, ← b, fn]⟩, ?_⟩
    dsimp only [Instr.wf]
    simp only [accepted stream firm, isD, isA, isB, Bool.and_self]
  case h_8 =>
    obtain ⟨lt, stream, d, a, isA, b, isB, firm, rfl⟩ := ok
    refine ⟨(eq_packE3 ..).2 ⟨hasTop_hdrOf op, ?_⟩, accepted_and_and stream firm isA isB⟩
    simp [hdrOf, eq_append_iff (n := 4), extract_fld, d, ← a, ← b, ← FcmpCc.codes.written lt]
  case h_11 =>
    obtain ⟨lt, stream, d, a, isA, b, isB, firm, rfl⟩ := ok
    refine ⟨(eq_packE3 ..).2 ⟨hasTop_hdrOf op, ?_⟩, accepted_and_and stream firm isA isB⟩
    simp [hdrOf, eq_append_iff (n := 4), extract_fld, d, ← a, ← b, ← CmpCc.codes.written lt]
  case h_9 =>
    obtain ⟨stream, d, isD, a, isA, pair, z, le, z', firm, rfl⟩ := ok
    obtain ⟨dlt, slt⟩ := lt_of_fcvtPair pair
    refine ⟨(eq_packE3 ..).2 ⟨hasTop_hdrOf op, ?_⟩, ?_⟩
    · simp [hdrOf, eq_append_iff (n := 4), eq_append_iff (n := 3), eq_append_iff (n := 1), extract_fld, fld_one_eq, ← d, ← a,
        z, z', ← Fmt.codes.written dlt, ← Fmt.codes.written slt, ← RMode.codes.written (Nat.lt_succ_of_le le)]
    · dsimp only [Instr.wf]
      simp only [accepted stream firm, isD, isA, pair, Bool.and_self]
  case h_10 =>
    obtain ⟨lt, stream, d, isD, a, isA, b, isB, firm, rfl⟩ := ok
    refine ⟨(eq_packE3 ..).2 ⟨hasTop_hdrOf op, by simp [hdrOf, ← d, ← a, ← b, ← IopFn.codes.written lt]⟩, ?_⟩
    dsimp only [Instr.wf]
    simp only [accepted stream firm, isD, isA, isB, Bool.and_self]
  case h_12 =>
    obtain ⟨stream, d, isD, a, firm, rfl⟩ := ok
    exact ⟨(eq_packEI ..).2 ⟨hasTop_hdrOf op, by simp [hdrOf, ← d, a]⟩, accepted_and_and stream firm rfl isD⟩
  case h_13 =>
    obtain ⟨stream, d, -, a, z, firm, rfl⟩ := ok
    refine ⟨(eq_packEI ..).2 ⟨hasTop_hdrOf op, ?_⟩, accepted_and stream firm rfl⟩
    simp [hdrOf, eq_append_iff (n := 14), extract_fld, ← d, a, z]
  case h_16 =>
    obtain ⟨stream, d, a, firm, rfl⟩ := ok
    exact ⟨(eq_packEI ..).2 ⟨hasTop_hdrOf op, by simp [hdrOf, d, a]⟩, accepted_and stream firm rfl⟩
  case h_17 =>
    obtain ⟨stream, d, a, firm, rfl⟩ := ok
    refine ⟨(eq_packEI ..).2 ⟨hasTop_hdrOf op, ?_⟩, accepted_and stream firm rfl⟩
    simp [hdrOf, eq_append_iff (n := 3), extract_fld, d, a]
  case h_18 =>
    obtain ⟨stream, d, isD, clean, firm, rfl⟩ := ok
    have base := fld_eq_eb.2 ⟨clean, rfl⟩
    exact ⟨(eq_packEI ..).2 ⟨hasTop_hdrOf op, by simp [hdrOf, ← d, ← base]⟩, accepted_and_and stream firm rfl isD⟩
  case h_19 =>
    obtain ⟨stream, d, -, clean, firm, rfl⟩ := ok
    have base := fld_eq_eb.2 ⟨clean, rfl⟩
    exact ⟨(eq_packEI ..).2 ⟨hasTop_hdrOf op, by simp [hdrOf, ← d, ← base]⟩, accepted_and stream firm rfl⟩

end Sys2Proof
end

section
/-! Encoding and decoding of the vector opcodes (R50). -/

namespace Sys2Proof
variable {x : Issuer} {svc : Bool} {w : BitVec 64} {i : Instr}

theorem HasTop.decode_vector {h : Hdr} {opc : BitVec 8} (top : HasTop h opc w) (lo : 0x80 ≤ opc.toNat)
    (hi : opc.toNat < 0xA0) : decode x svc w = decodeVector x svc w opc.toNat := by
  have n0 : opc.toNat ≠ 0 := by omega
  have n1 : ¬opc.toNat < 0x30 := by omega
  have n2 : ¬opc.toNat < 0x40 := by omega
  have n3 : ¬opc.toNat < 0x60 := by omega
  simp only [decode, top.fln_opc, n0, n1, n2, n3, Nat.not_lt.2 lo, hi, if_false, if_true]

/-! ### Modes (R226) and registers -/

theorem fld_eq_rnd5 {r : Rnd} : fld w 8 5 = rnd5 r ↔
    fld w 12 1 = 0 ∧ flb w 11 = r.ovf ∧ fln w 8 3 < 5 ∧ tblAt RMode.table (fln w 8 3) = r.mode := by
  have mode : fld w 8 3 = cd 3 RMode.table r.mode ↔ fln w 8 3 < 5 ∧ tblAt RMode.table (fln w 8 3) = r.mode :=
    fld_eq_cd RMode.codes.nodup RMode.codes.mem (by decide)
  have ovf : fld w 11 1 = BitVec.ofBool r.ovf ↔ flb w 11 = r.ovf := fld_one_eq w 11 r.ovf
  simp only [rnd5, eq_append_iff (n := 3), eq_append_iff (n := 1), extract_fld, Nat.reduceAdd, Nat.reduceLeDiff, mode, ovf,
    BitVec.ofBool_false, and_assoc]

/-- What the decoder reads of a mode field is what was written there. -/
theorem rnd5_written (z : fld w 12 1 = 0) (lt : fln w 8 3 < 5) :
    fld w 8 5 = rnd5 ⟨tblAt RMode.table (fln w 8 3), flb w 11⟩ := fld_eq_rnd5.2 ⟨z, rfl, lt, rfl⟩

theorem fld_eq_flag5 {b : Bool} : fld w 8 5 = flag5 b ↔ fld w 9 4 = 0 ∧ flb w 8 = b := by
  simp only [flag5, eq_append_iff (n := 1), extract_fld, fld_one_eq, Nat.reduceAdd, Nat.reduceLeDiff]

theorem eregAt_of_er {lo : Nat} {n : Fin 768} (eq : fld w lo 10 = er n) : eregAt w lo = n := (fld_eq_er.1 eq).2

theorem badReg_of_er {lo g : Nat} {n : Fin 768} (eq : fld w lo 10 = er n) (lt : n.val + g < 768) : (badReg w lo g).2 = false :=
  badReg_ok.2 (by rw [eregAt_of_er eq]; exact ⟨eq, lt⟩)

theorem eregAt_zero {lo : Nat} (zero : fld w lo 10 = 0) : eregAt w lo = 0 := eregAt_of_er (n := 0) zero

theorem b7_written {lo : Nat} (lt : fln w lo 7 < 2) : fld w lo 7 = b7 (flb w lo) := fld_eq_b7.2 ⟨lt, rfl⟩

theorem flag5_written (z : fld w 9 4 = 0) : fld w 8 5 = flag5 (flb w 8) := fld_eq_flag5.2 ⟨z, rfl⟩

/-! ### Vector opcodes -/

theorem decode_encode_vector (fam : i.inFamily 86 112 = true) (wf : i.wf x svc = true) :
    decode x svc (encode i) = .ok i := by
  generalize e : encode i = w
  cases i
  all_goals try exact absurd fam Bool.false_ne_true
  all_goals clear fam; dsimp only [Instr.wf] at wf; simp only [Bool.and_eq_true] at wf
  case vop =>
    obtain ⟨stream, tok⟩ := wf
    obtain ⟨top, d, a, b, ea, p, mode, g, fn⟩ := (eq_packW ..).1 e.symm
    obtain ⟨lt, fn⟩ := VecOp.vopCodes.read fn
    obtain ⟨z, ovf, le, mode⟩ := fld_eq_rnd5.1 mode
    rw [top.decode_vector (by decide) (by decide)]
    simp [decodeVector, top.verdict_ok stream tok, top.hdrOf_guard p g, mbz_ok, Nat.not_le_of_lt lt, fn, d, a, b, ea, z, ovf,
      Nat.le_of_lt_succ le, mode]
  case vfma h ng sc r wd wa wb =>
    obtain ⟨⟨stream, tok⟩, src⟩ := wf
    obtain ⟨top, d, a, b, ea, p, mode, g, fn⟩ := (eq_packW ..).1 e.symm
    obtain ⟨z, ovf, le, mode⟩ := fld_eq_rnd5.1 mode
    simp only [eq_append_iff (n := 1), extract_fld, fld_one_eq, Nat.reduceAdd, Nat.reduceLeDiff] at fn
    have lt : fln w 0 7 < 4 := (fln_lt_iff (m := 5) (n := 2)).2 fn.1.1
    rw [top.decode_vector (by decide) (by decide)]
    cases sc with
    | none =>
      simp [decodeVector, top.verdict_ok stream tok, top.hdrOf_guard p g, mbz_ok, Nat.not_le_of_lt lt, fn, d, a, b, ea, z, ovf,
        Nat.le_of_lt_succ le, mode]
    | some o =>
      have src : o.isSrc = true := src
      simp [decodeVector, top.verdict_ok stream tok, top.hdrOf_guard p g, mbz_ok, Nat.not_le_of_lt lt, fn, d, a, b,
        badSrc_of_ec ea, eopAt_of_ec ea, src, z, ovf, Nat.le_of_lt_succ le, mode]
  case vsc =>
    obtain ⟨⟨stream, tok⟩, isA⟩ := wf
    obtain ⟨top, d, a, b, ea, p, mode, g, fn⟩ := (eq_packW ..).1 e.symm
    obtain ⟨lt, fn⟩ := VecOp.vscCodes.read fn
    obtain ⟨z, ovf, le, mode⟩ := fld_eq_rnd5.1 mode
    rw [top.decode_vector (by decide) (by decide)]
    simp [decodeVector, top.verdict_ok stream tok, top.hdrOf_guard p g, mbz_ok, Nat.not_le_of_lt lt, fn, d, a, b,
      badSrc_of_ec ea, eopAt_of_ec ea, isA, z, ovf, Nat.le_of_lt_succ le, mode]
  case vun h f r wd wa =>
    obtain ⟨⟨stream, tok⟩, plain⟩ := wf
    obtain ⟨top, d, a, b, ea, p, mode, g, fn⟩ := (eq_packW ..).1 e.symm
    obtain ⟨lt, fn⟩ := VunFn.codes.read fn
    have mode' := mode
    obtain ⟨z, ovf, le, mode⟩ := fld_eq_rnd5.1 mode
    rw [top.decode_vector (by decide) (by decide)]
    simp [decodeVector, top.verdict_ok stream tok, top.hdrOf_guard p g, mbz_ok, Nat.not_le_of_lt lt, fn, d, a, b, ea, ovf, mode]
    have neg : f = .neg ↔ fln w 0 7 = 0 := fn ▸ VunFn.codes.at_eq_iff lt
    have abs : f = .abs ↔ fln w 0 7 = 1 := fn ▸ VunFn.codes.at_eq_iff lt
    split
    next low =>
      have none : r = ⟨.rne, false⟩ := by
        rcases Nat.le_one_iff_eq_zero_or_eq_one.1 low with zero | one
        · simpa [neg.2 zero] using plain
        · simpa [abs.2 one] using plain
      rw [none] at mode'
      exact ⟨mbz_ok.2 mode', fun le => absurd low (by omega)⟩
    next => exact ⟨decide_eq_false (by omega), fun _ => (fld_one_eq w 12 false).1 z⟩
  case vcvt =>
    obtain ⟨stream, tok⟩ := wf
    obtain ⟨top, d, a, b, ea, p, mode, g, fn⟩ := (eq_packW ..).1 e.symm
    obtain ⟨z, ovf, le, mode⟩ := fld_eq_rnd5.1 mode
    rw [top.decode_vector (by decide) (by decide)]
    simp [decodeVector, top.verdict_ok stream tok, top.hdrOf_guard p g, mbz_ok, fln_eq _ 0, fn, d, a, b, ea, z, ovf,
      Nat.le_of_lt_succ le, mode]
  case vscan =>
    obtain ⟨stream, tok⟩ := wf
    obtain ⟨top, d, a, b, ea, p, mode, g, fn⟩ := (eq_packW ..).1 e.symm
    obtain ⟨lt, fn⟩ := fld_eq_b7.1 fn
    obtain ⟨z, ovf, le, mode⟩ := fld_eq_rnd5.1 mode
    rw [top.decode_vector (by decide) (by decide)]
    simp [decodeVector, top.verdict_ok stream tok, top.hdrOf_guard p g, mbz_ok, Nat.not_le_of_lt lt, fn, d, a, b, ea, z, ovf,
      Nat.le_of_lt_succ le, mode]
  case vred h f flag wa ea' =>
    obtain ⟨⟨stream, tok⟩, pair⟩ := wf
    obtain ⟨top, d, a, b, ea, p, mode, g, fn⟩ := (eq_packW ..).1 e.symm
    obtain ⟨lt, fn⟩ := VredFn.codes.read fn
    obtain ⟨z, idx⟩ := fld_eq_flag5.1 mode
    rw [top.decode_vector (by decide) (by decide)]
    simp [decodeVector, top.verdict_ok stream tok, top.hdrOf_guard p g, mbz_ok, Nat.not_le_of_lt lt, fn, d, a, b,
      eregAt_of_er ea, z, idx]
    have sum : f = .sum ↔ fln w 0 7 = 0 := fn ▸ VredFn.codes.at_eq_iff lt
    cases flag
    · exact ⟨badReg_of_er ea ea'.isLt, fun h => (nomatch h)⟩
    · obtain ⟨notSum, room⟩ : f ≠ .sum ∧ ea'.val < 767 := by simpa using pair
      exact ⟨badReg_of_er ea (Nat.succ_lt_succ room), fun _ => mt sum.2 notSum⟩
  case vcmp h cc sc wd wa wb =>
    obtain ⟨⟨stream, tok⟩, src⟩ := wf
    obtain ⟨top, d, a, b, ea, p, mode, g, fn⟩ := (eq_packW ..).1 e.symm
    obtain ⟨lt, fn⟩ := VcmpCc.codes.read fn
    obtain ⟨z, idx⟩ := fld_eq_flag5.1 mode
    rw [top.decode_vector (by decide) (by decide)]
    cases sc with
    | none =>
      simp [decodeVector, top.verdict_ok stream tok, top.hdrOf_guard p g, mbz_ok, Nat.not_le_of_lt lt, fn, d, a, b, ea, z, idx]
    | some o =>
      obtain ⟨isO, none⟩ : o.isSrc = true ∧ wb = 0 := by simpa using src
      simp [decodeVector, top.verdict_ok stream tok, top.hdrOf_guard p g, mbz_ok, Nat.not_le_of_lt lt, fn, d, a, b,
        badSrc_of_ec ea, eopAt_of_ec ea, isO, z, idx, fln_eq_zero, none]
  case vsel =>
    obtain ⟨stream, tok⟩ := wf
    obtain ⟨top, d, a, b, ea, p, mode, g, fn⟩ := (eq_packW ..).1 e.symm
    simp only [eq_append_iff (n := 5), extract_fld, Nat.reduceAdd, Nat.reduceLeDiff] at ea
    rw [top.decode_vector (by decide) (by decide)]
    simp [decodeVector, top.verdict_ok stream tok, top.hdrOf_guard p g, mbz_ok, fln_eq, fn, d, a, b, ea, mode]
  case vcpr | vxpd =>
    obtain ⟨stream, tok⟩ := wf
    obtain ⟨top, d, a, b, ea, p, mode, g, fn⟩ := (eq_packW ..).1 e.symm
    rw [top.decode_vector (by decide) (by decide)]
    simp [decodeVector, top.verdict_ok stream tok, top.hdrOf_guard p g, mbz_ok, fln_eq, fn, d, a, b, eregAt_of_er ea,
      badReg_of_er ea, mode]
  case vgat | vsct | vsca =>
    obtain ⟨stream, tok⟩ := wf
    obtain ⟨top, d, a, b, ea, p, mode, g, fn⟩ := (eq_packW ..).1 e.symm
    rw [top.decode_vector (by decide) (by decide)]
    simp [decodeVector, top.verdict_ok stream tok, top.hdrOf_guard p g, mbz_ok, fln_eq, fn, d, a, b, ea, fld_eq_flag5.1 mode]
  case vfill =>
    obtain ⟨⟨stream, tok⟩, isA⟩ := wf
    obtain ⟨top, d, a, b, ea, p, mode, g, fn⟩ := (eq_packW ..).1 e.symm
    obtain ⟨z, ovf, le, mode⟩ := fld_eq_rnd5.1 mode
    rw [top.decode_vector (by decide) (by decide)]
    simp [decodeVector, top.verdict_ok stream tok, top.hdrOf_guard p g, mbz_ok, fln_eq _ 0, fn, d, a, b, badSrc_of_ec ea,
      eopAt_of_ec ea, isA, z, ovf, Nat.le_of_lt_succ le, mode]
  case vrnd =>
    obtain ⟨stream, tok⟩ := wf
    obtain ⟨top, d, a, b, ea, p, mode, g, fn⟩ := (eq_packW ..).1 e.symm
    obtain ⟨lt, fn⟩ := fld_eq_b7.1 fn
    rw [top.decode_vector (by decide) (by decide)]
    simp [decodeVector, top.verdict_ok stream tok, top.hdrOf_guard p g, mbz_ok, Nat.not_le_of_lt lt, fn, d, a, b, ea, mode]
  case vhad =>
    obtain ⟨⟨stream, tok⟩, ⟨one, twelve⟩, pair⟩ := wf
    obtain ⟨top, d, a, b, ea, p, mode, g, fn⟩ := (eq_packW ..).1 e.symm
    obtain ⟨lt, fn⟩ := fld_eq_b7.1 fn
    simp only [eq_append_iff (n := 4), extract_fld, Nat.reduceAdd, Nat.reduceLeDiff] at mode
    rw [top.decode_vector (by decide) (by decide)]
    simp [decodeVector, top.verdict_ok stream tok, top.hdrOf_guard p g, mbz_ok, Nat.not_le_of_lt lt, fn, d, a, b,
      eregAt_of_er ea, badReg_of_er ea (Nat.succ_lt_succ (of_decide_eq_true pair)), mode, fln_eq _ 8]
    have least := of_decide_eq_true one
    exact ⟨by omega, of_decide_eq_true twelve⟩
  case vqnt =>
    obtain ⟨stream, tok⟩ := wf
    obtain ⟨top, d, a, b, ea, p, mode, g, fn⟩ := (eq_packW ..).1 e.symm
    obtain ⟨z, ovf, le, mode⟩ := fld_eq_rnd5.1 mode
    have ovf : fld w 11 1 = BitVec.ofBool false := (fld_one_eq w 11 _).2 ovf
    rw [top.decode_vector (by decide) (by decide)]
    simp [decodeVector, top.verdict_ok stream tok, top.hdrOf_guard p g, mbz_ok, fln_eq _ 0, fn, d, a, b, ea, z, ovf,
      Nat.le_of_lt_succ le, mode]
  case vdqt =>
    obtain ⟨stream, tok⟩ := wf
    obtain ⟨top, d, a, b, ea, p, mode, g, fn⟩ := (eq_packW ..).1 e.symm
    obtain ⟨z, ovf, le, mode⟩ := fld_eq_rnd5.1 mode
    rw [top.decode_vector (by decide) (by decide)]
    simp [decodeVector, top.verdict_ok stream tok, top.hdrOf_guard p g, mbz_ok, fln_eq _ 0, fn, d, a, b, ea, z, ovf,
      Nat.le_of_lt_succ le, mode]
  case vtopk =>
    obtain ⟨⟨stream, tok⟩, pair⟩ := wf
    obtain ⟨top, d, a, b, ea, p, mode, g, fn⟩ := (eq_packW ..).1 e.symm
    rw [top.decode_vector (by decide) (by decide)]
    simp [decodeVector, top.verdict_ok stream tok, top.hdrOf_guard p g, mbz_ok, fln_eq, fn, d, a, b, eregAt_of_er ea,
      badReg_of_er ea (Nat.add_lt_add_right (of_decide_eq_true pair) 2), mode]
  case vsamp h res wa wb ea =>
    obtain ⟨⟨stream, tok⟩, pair, plain⟩ := wf
    obtain ⟨top, d, a, b, ea, p, mode, g, fn⟩ := (eq_packW ..).1 e.symm
    obtain ⟨lt, fn⟩ := fld_eq_b7.1 fn
    rw [top.decode_vector (by decide) (by decide)]
    simp [decodeVector, top.verdict_ok stream tok, top.hdrOf_guard p g, mbz_ok, Nat.not_le_of_lt lt, fn, d, a, b,
      eregAt_of_er ea, badReg_of_er ea (Nat.add_lt_add_right (of_decide_eq_true pair) 2), mode,
      fln_eq_zero]
    rintro rfl
    simpa using plain
  case vsoft | vmov =>
    obtain ⟨stream, tok⟩ := wf
    obtain ⟨top, d, a, b, ea, p, mode, g, fn⟩ := (eq_packW ..).1 e.symm
    rw [top.decode_vector (by decide) (by decide)]
    simp [decodeVector, top.verdict_ok stream tok, top.hdrOf_guard p g, mbz_ok, fln_eq, fn, d, a, b, ea, mode]
  case wset h f wd ea' =>
    obtain ⟨⟨stream, tok⟩, ⟨isA, pair⟩, rowf⟩ := wf
    obtain ⟨top, d, a, b, ea, p, mode, g, fn⟩ := (eq_packW ..).1 e.symm
    obtain ⟨lt, fn⟩ := WsetFn.codes.read fn
    rw [top.decode_vector (by decide) (by decide)]
    simp [decodeVector, top.verdict_ok stream tok, top.hdrOf_guard p g, mbz_ok, Nat.not_le_of_lt lt, fn, d, a, b,
      eopAt_of_ec ea, mode, fln_eq_zero (lo := 37)]
    have num : fln w 0 7 = codeOf WsetFn.table f := (WsetFn.codes.at_eq_iff lt).1 fn
    have group (isPair : ea'.isPair = true) : (badReg w 17 1).2 = false := by
      cases ea' with
      | e n => exact badReg_of_er (n := n) ea (Nat.succ_lt_succ (of_decide_eq_true isPair))
      | lq | sq | iq | zero | one => exact absurd isPair Bool.false_ne_true
    cases f with
    | image =>
      replace num : fln w 0 7 = 0 := num
      simpa [num] using group pair
    | rowf =>
      replace num : fln w 0 7 = 5 := num
      simpa [num, group pair] using rowf
    | base | count | stride | fmt =>
      have other : fln w 0 7 ≠ 0 ∧ fln w 0 7 ≠ 5 := by rw [num]; decide
      simp [other, badSrc_of_ec ea, isA]
  case wget h rf wa ea =>
    obtain ⟨⟨stream, tok⟩, pair, rowf⟩ := wf
    obtain ⟨top, d, a, b, ea, p, mode, g, fn⟩ := (eq_packW ..).1 e.symm
    have room := badReg_of_er ea (Nat.succ_lt_succ (of_decide_eq_true pair))
    rw [top.decode_vector (by decide) (by decide)]
    cases rf with
    | false =>
      have num : fln w 0 7 = 0 := fln_eq_zero.2 fn
      simp [decodeVector, top.verdict_ok stream tok, top.hdrOf_guard p g, mbz_ok, num, d, a, b, eregAt_of_er ea, room, mode]
    | true =>
      have num : fln w 0 7 = 5 := congrArg BitVec.toNat fn
      have none : wa = 0 := by simpa using rowf
      simp [decodeVector, top.verdict_ok stream tok, top.hdrOf_guard p g, mbz_ok, num, d, a, b, eregAt_of_er ea, room, mode,
        fln_eq_zero, none]
  case vbit h f valid drop wd wa wb ea' =>
    obtain ⟨⟨stream, tok⟩, form⟩ := wf
    obtain ⟨top, d, a, b, ea, p, mode, g, fn⟩ := (eq_packW ..).1 e.symm
    obtain ⟨lt, fn⟩ := VbitFn.codes.read fn
    simp only [eq_append_iff (n := 1), extract_fld, fld_one_eq, Nat.reduceAdd, Nat.reduceLeDiff] at mode
    rw [top.decode_vector (by decide) (by decide)]
    simp [decodeVector, top.verdict_ok stream tok, top.hdrOf_guard p g, mbz_ok, Nat.not_le_of_lt lt, fn, d, a, b,
      eregAt_of_er ea, mode, fln_eq_zero (lo := 37), fln_eq_zero (lo := 27)]
    have num : fln w 0 7 = codeOf VbitFn.table f := (VbitFn.codes.at_eq_iff lt).1 fn
    have none (zero : ea' = 0) : fld w 17 10 = 0 := by rw [ea, zero]; rfl
    cases f with
    | set =>
      replace num : fln w 0 7 = 0 := num
      simp [VbitFn.wf] at form
      simp [num, mbz_ok, none form.2]
      exact fun other => form.1.resolve_left (by simp [other])
    | clr =>
      replace num : fln w 0 7 = 1 := num
      simp [VbitFn.wf] at form
      simp [num, mbz_ok, none form.2]
      exact fun other => form.1.resolve_left (by simp [other])
    | tst =>
      replace num : fln w 0 7 = 2 := num
      simp [VbitFn.wf] at form
      simp [num, mbz_ok, none form.2, form.1]
    | cnt =>
      replace num : fln w 0 7 = 3 := num
      simp [VbitFn.wf] at form
      simp [num, badReg_of_er ea, form]

theorem encode_decode_vector (ok : decodeVector x svc w (fln w 42 8) = .ok i) : w = encode i ∧ i.wf x svc = true := by
  generalize op : fln w 42 8 = n at ok
  unfold decodeVector at ok
  split at ok
  case h_27 => exact nomatch ok
  all_goals simp only [unless_eq_ok, verdict_eq_ok, List.forall_mem_cons, List.not_mem_nil, false_imp_iff, implies_true,
    and_true, true_and, mbz_ok, badReg_ok, badSrc_ok, bne_iff_ne, ne_eq, Decidable.not_not, Nat.not_le, Nat.not_lt,
    decide_eq_false_iff_not, fln_eq_zero, Bool.false_eq_true, and_assoc] at ok
  case h_1 =>
    obtain ⟨lt, stream, ea, le, z, firm, rfl⟩ := ok
    refine ⟨(eq_packW ..).2 ⟨hasTop_hdrOf op, ?_⟩, accepted stream firm⟩
    simp [hdrOf, ea, ← VecOp.vopCodes.written lt, ← rnd5_written z (Nat.lt_succ_of_le le)]
  case h_2 =>
    obtain ⟨lt, stream, ea, le, z, firm, rfl⟩ := ok
    have high : fld w 2 5 = 0 := (fln_lt_iff (m := 5) (n := 2)).1 lt
    have mode := rnd5_written z (Nat.lt_succ_of_le le)
    split at ea
    next scalar =>
      obtain ⟨ea, isA⟩ := badSrc_ok.1 ea
      have one : fld w 0 1 = 1 := (fld_one_eq w 0 true).2 scalar
      rw [if_pos scalar]
      refine ⟨(eq_packW ..).2 ⟨hasTop_hdrOf op, ?_⟩, accepted_and stream firm isA⟩
      simp [hdrOf, ← ea, ← mode, eq_append_iff (n := 1), extract_fld, fld_one_eq, high, one]
    next vector =>
      have zero : fld w 0 1 = 0 := (fld_one_eq w 0 false).2 (Bool.eq_false_of_not_eq_true vector)
      rw [if_neg vector]
      refine ⟨(eq_packW ..).2 ⟨hasTop_hdrOf op, ?_⟩, accepted_and stream firm rfl⟩
      simp [hdrOf, mbz_ok.1 ea, ← mode, eq_append_iff (n := 1), extract_fld, fld_one_eq, high, zero]
  case h_3 =>
    obtain ⟨lt, stream, b, ea, isA, le, z, firm, rfl⟩ := ok
    refine ⟨(eq_packW ..).2 ⟨hasTop_hdrOf op, ?_⟩, accepted_and stream firm isA⟩
    simp [hdrOf, b, ← ea, ← VecOp.vscCodes.written lt, ← rnd5_written z (Nat.lt_succ_of_le le)]
  case h_4 =>
    obtain ⟨lt, stream, b, ea, mode, high, firm, rfl⟩ := ok
    have neg : tblAt VunFn.table (fln w 0 7) = .neg ↔ fln w 0 7 = 0 := VunFn.codes.at_eq_iff lt
    have abs : tblAt VunFn.table (fln w 0 7) = .abs ↔ fln w 0 7 = 1 := VunFn.codes.at_eq_iff lt
    split at mode
    next low =>
      have zero := mbz_ok.1 mode
      have plain : (⟨tblAt RMode.table (fln w 8 3), flb w 11⟩ : Rnd) = ⟨.rne, false⟩ := by
        rw [fln_eq_zero.2 (fld_part zero (a := 0) (b := 3) (by decide)), flb_eq zero (i := 3) (by decide)]
        rfl
      rw [plain]
      refine ⟨(eq_packW ..).2 ⟨hasTop_hdrOf op, ?_⟩, accepted_and stream firm (Bool.or_true _)⟩
      have none : rnd5 ⟨.rne, false⟩ = 0 := rfl
      simp [hdrOf, b, ea, none, zero, ← VunFn.codes.written lt]
    next rounds =>
      have z : fld w 12 1 = 0 := (fld_one_eq w 12 false).2 (by simpa [Nat.not_lt.1 rounds] using high)
      have mode := rnd5_written z (Nat.lt_succ_of_le (Nat.not_lt.1 (of_decide_eq_false mode)))
      refine ⟨(eq_packW ..).2 ⟨hasTop_hdrOf op, ?_⟩, accepted_and stream firm ?_⟩
      · simp [hdrOf, b, ea, ← mode, ← VunFn.codes.written lt]
      · have other : fln w 0 7 ≠ 0 ∧ fln w 0 7 ≠ 1 := by omega
        simp [mt neg.1 other.1, mt abs.1 other.2]
  case h_5 =>
    obtain ⟨fn, stream, b, ea, le, z, firm, rfl⟩ := ok
    refine ⟨(eq_packW ..).2 ⟨hasTop_hdrOf op, ?_⟩, accepted stream firm⟩
    simp [hdrOf, b, ea, fn, ← rnd5_written z (Nat.lt_succ_of_le le)]
  case h_6 =>
    obtain ⟨lt, stream, d, b, ea, room, sum, z, firm, rfl⟩ := ok
    refine ⟨(eq_packW ..).2 ⟨hasTop_hdrOf op, ?_⟩, accepted_and stream firm ?_⟩
    · simp [hdrOf, d, b, ← ea, ← VredFn.codes.written lt, ← flag5_written z]
    · have code : tblAt VredFn.table (fln w 0 7) = .sum ↔ fln w 0 7 = 0 := VredFn.codes.at_eq_iff lt
      cases idx : flb w 8 with
      | false => rfl
      | true =>
        have notSum : fln w 0 7 ≠ 0 := by simpa [idx] using sum
        have room : (eregAt w 17).val + 1 < 768 := by simpa [idx] using room
        simp [mt code.1 notSum, Nat.lt_of_succ_lt_succ room]
  case h_7 =>
    obtain ⟨lt, stream, b, ea, le, z, firm, rfl⟩ := ok
    refine ⟨(eq_packW ..).2 ⟨hasTop_hdrOf op, ?_⟩, accepted stream firm⟩
    simp [hdrOf, b, ea, ← b7_written lt, ← rnd5_written z (Nat.lt_succ_of_le le)]
  case h_8 =>
    obtain ⟨lt, stream, none, ea, z, firm, rfl⟩ := ok
    have mode := flag5_written z
    split at ea
    next scalar =>
      obtain ⟨ea, isA⟩ := badSrc_ok.1 ea
      have none : fld w 27 5 = 0 := by simpa [scalar, fln_eq_zero] using none
      rw [if_pos scalar]
      rw [scalar] at mode
      refine ⟨(eq_packW ..).2 ⟨hasTop_hdrOf op, ?_⟩, accepted_and stream firm (by simp [isA, none])⟩
      simp [hdrOf, ← ea, mode, ← VcmpCc.codes.written lt]
    next vector =>
      rw [if_neg vector]
      rw [Bool.eq_false_of_not_eq_true vector] at mode
      refine ⟨(eq_packW ..).2 ⟨hasTop_hdrOf op, ?_⟩, accepted_and stream firm rfl⟩
      simp [hdrOf, mbz_ok.1 ea, mode, ← VcmpCc.codes.written lt]
  case h_9 =>
    obtain ⟨fn, stream, high, mode, firm, rfl⟩ := ok
    refine ⟨(eq_packW ..).2 ⟨hasTop_hdrOf op, ?_⟩, accepted stream firm⟩
    simp [hdrOf, eq_append_iff (n := 5), extract_fld, high, mode, fn]
  case h_10 | h_11 =>
    obtain ⟨fn, stream, ea, -, mode, firm, rfl⟩ := ok
    exact ⟨(eq_packW ..).2 ⟨hasTop_hdrOf op, by simp [hdrOf, ← ea, mode, fn]⟩, accepted stream firm⟩
  case h_12 | h_13 | h_14 =>
    obtain ⟨fn, stream, ea, z, firm, rfl⟩ := ok
    exact ⟨(eq_packW ..).2 ⟨hasTop_hdrOf op, by simp [hdrOf, ea, ← flag5_written z, fn]⟩, accepted stream firm⟩
  case h_15 =>
    obtain ⟨fn, stream, a, b, ea, isA, le, z, firm, rfl⟩ := ok
    refine ⟨(eq_packW ..).2 ⟨hasTop_hdrOf op, ?_⟩, accepted_and stream firm isA⟩
    simp [hdrOf, a, b, ← ea, fn, ← rnd5_written z (Nat.lt_succ_of_le le)]
  case h_16 =>
    obtain ⟨lt, stream, a, b, ea, mode, firm, rfl⟩ := ok
    exact ⟨(eq_packW ..).2 ⟨hasTop_hdrOf op, by simp [hdrOf, a, b, ea, mode, ← b7_written lt]⟩, accepted stream firm⟩
  case h_17 =>
    obtain ⟨lt, stream, b, ea, room, rounds, z, firm, rfl⟩ := ok
    obtain ⟨some, le⟩ : fln w 8 4 ≠ 0 ∧ fln w 8 4 ≤ 12 := by simpa using rounds
    refine ⟨(eq_packW ..).2 ⟨hasTop_hdrOf op, ?_⟩, accepted_and stream firm ?_⟩
    · simp [hdrOf, b, ← ea, eq_append_iff (n := 4), extract_fld, z, ← b7_written lt]
    · rw [← fln_eq]
      simp [Nat.one_le_iff_ne_zero, some, le, Nat.lt_of_succ_lt_succ room]
  case h_18 =>
    obtain ⟨fn, stream, ea, le, ovf, z, firm, rfl⟩ := ok
    have mode := rnd5_written z (Nat.lt_succ_of_le le)
    rw [(fld_one_eq w 11 false).1 ovf] at mode
    exact ⟨(eq_packW ..).2 ⟨hasTop_hdrOf op, by simp [hdrOf, ea, fn, ← mode]⟩, accepted stream firm⟩
  case h_19 =>
    obtain ⟨fn, stream, ea, le, z, firm, rfl⟩ := ok
    refine ⟨(eq_packW ..).2 ⟨hasTop_hdrOf op, ?_⟩, accepted stream firm⟩
    simp [hdrOf, ea, fn, ← rnd5_written z (Nat.lt_succ_of_le le)]
  case h_20 =>
    obtain ⟨fn, stream, ea, room, mode, firm, rfl⟩ := ok
    exact ⟨(eq_packW ..).2 ⟨hasTop_hdrOf op, by simp [hdrOf, ← ea, mode, fn]⟩,
      accepted_and stream firm (decide_eq_true (Nat.lt_of_add_lt_add_right room))⟩
  case h_21 =>
    obtain ⟨lt, stream, d, plain, ea, room, mode, firm, rfl⟩ := ok
    refine ⟨(eq_packW ..).2 ⟨hasTop_hdrOf op, by simp [hdrOf, d, ← ea, mode, ← b7_written lt]⟩, accepted_and stream firm ?_⟩
    simp only [decide_eq_true (Nat.lt_of_add_lt_add_right room : (eregAt w 17).val < 766), Bool.true_and]
    cases res : flb w 0 with
    | true => rfl
    | false => simpa [res, fln_eq_zero] using plain
  case h_22 | h_26 =>
    obtain ⟨fn, stream, b, ea, mode, firm, rfl⟩ := ok
    exact ⟨(eq_packW ..).2 ⟨hasTop_hdrOf op, by simp [hdrOf, b, ea, mode, fn]⟩, accepted stream firm⟩
  case h_23 =>
    obtain ⟨lt, stream, rowf, a, b, ea, mode, firm, rfl⟩ := ok
    have image : tblAt WsetFn.table (fln w 0 7) = .image ↔ fln w 0 7 = 0 := WsetFn.codes.at_eq_iff lt
    have row : tblAt WsetFn.table (fln w 0 7) = .rowf ↔ fln w 0 7 = 5 := WsetFn.codes.at_eq_iff lt
    have rowOk : (tblAt WsetFn.table (fln w 0 7) != .rowf || fld w 37 5 == 0) = true := by
      simpa [row, fln_eq_zero, Decidable.imp_iff_not_or] using rowf
    split at ea
    next group =>
      obtain ⟨reg, room⟩ := badReg_ok.1 ea
      have isE : eopAt w 17 = .e (eregAt w 17) := eopAt_of_ec reg
      have isPair : (EOp.e (eregAt w 17)).isPair = true := decide_eq_true (Nat.lt_of_succ_lt_succ room)
      rw [isE]
      refine ⟨(eq_packW ..).2 ⟨hasTop_hdrOf op, ?_⟩, accepted_and stream firm ?_⟩
      · simp [hdrOf, a, b, mode, ← WsetFn.codes.written lt]
        exact reg
      · rw [isPair, rowOk, Bool.or_true]
        rfl
    next single =>
      obtain ⟨ea, isA⟩ := badSrc_ok.1 ea
      have plain : (tblAt WsetFn.table (fln w 0 7)).pair = false := by
        rw [Bool.or_eq_true, beq_iff_eq, beq_iff_eq, ← image, ← row] at single
        cases form : tblAt WsetFn.table (fln w 0 7) <;> simp_all [WsetFn.pair]
      refine ⟨(eq_packW ..).2 ⟨hasTop_hdrOf op, ?_⟩, accepted_and stream firm ?_⟩
      · simp [hdrOf, a, b, ← ea, mode, ← WsetFn.codes.written lt]
      · rw [isA, plain, rowOk]
        rfl
  case h_24 =>
    obtain ⟨form, stream, d, rowf, b, ea, room, mode, firm, rfl⟩ := ok
    have pair : decide ((eregAt w 17).val < 767) = true := decide_eq_true (Nat.lt_of_succ_lt_succ room)
    have fn : fld w 0 7 = if fln w 0 7 == 5 then 5 else 0 := by
      split
      next five => exact fld_eq_of_fln (eq_of_beq five)
      next other => exact fln_eq_zero.1 (by simpa [show fln w 0 7 ≠ 5 by simpa using other] using form)
    refine ⟨(eq_packW ..).2 ⟨hasTop_hdrOf op, by simp only [hdrOf, d, b, ← ea, mode, ← fn, and_self]⟩,
      accepted_and stream firm ?_⟩
    rw [pair]
    simpa [fln_eq_zero, Decidable.imp_iff_not_or] using rowf
  case h_25 =>
    obtain ⟨lt, stream, d, b, ea, valid, drop, z, firm, rfl⟩ := ok
    have reg : fld w 17 10 = er (eregAt w 17) := by
      split at ea
      · exact (badReg_ok.1 ea).1
      · rw [eregAt_zero (mbz_ok.1 ea)]
        exact mbz_ok.1 ea
    have none (other : fln w 0 7 ≠ 3) : eregAt w 17 = 0 := eregAt_zero (by simpa [other, mbz_ok] using ea)
    refine ⟨(eq_packW ..).2 ⟨hasTop_hdrOf op, ?_⟩, accepted_and stream firm ?_⟩
    · simp [hdrOf, ← reg, eq_append_iff (n := 1), extract_fld, fld_one_eq, z, ← VbitFn.codes.written lt]
    · have form (f : VbitFn) (code : fln w 0 7 = codeOf VbitFn.table f) : tblAt VbitFn.table (fln w 0 7) = f :=
        (VbitFn.codes.at_eq_iff lt).2 code
      have num : fln w 0 7 = 0 ∨ fln w 0 7 = 1 ∨ fln w 0 7 = 2 ∨ fln w 0 7 = 3 := by omega
      rcases num with num | num | num | num
      · have b : (flb w 8 || fld w 27 5 == 0) = true := by
          simpa [num, fln_eq_zero, Bool.or_eq_true, ← Bool.not_eq_true, Decidable.imp_iff_not_or] using b
        rw [form .set num, none (by omega), VbitFn.wf, b]
        rfl
      · have b : (flb w 8 || fld w 27 5 == 0) = true := by
          simpa [num, fln_eq_zero, Bool.or_eq_true, ← Bool.not_eq_true, Decidable.imp_iff_not_or] using b
        rw [form .clr num, none (by omega), VbitFn.wf, b]
        rfl
      · have valid : flb w 8 = false := by simpa [num] using valid
        rw [form .tst num, none (by omega), VbitFn.wf, valid]
        rfl
      · have valid : flb w 8 = false := by simpa [num] using valid
        have drop : flb w 9 = false := by simpa [num] using drop
        have d : fld w 37 5 = 0 := by simpa [num, fln_eq_zero] using d
        have b : fld w 27 5 = 0 := by simpa [num, fln_eq_zero] using b
        rw [form .cnt num, VbitFn.wf, valid, drop, d, b]
        rfl

end Sys2Proof
end

section
/-! Encoding and decoding of the matrix, headland and map composition opcodes (R50). -/

namespace Sys2Proof
variable {x : Issuer} {svc : Bool} {w : BitVec 64} {i : Instr}

/-! ### Shared fields -/

/-- The event bit and the tag of a command. -/
theorem fld_eq_evTag {ev : Bool} {tag : BitVec 11} : fld w 0 12 = evTag ev tag ↔ flb w 11 = ev ∧ fld w 0 11 = tag := by
  simp only [evTag, eq_append_iff (n := 11), extract_fld, fld_one_eq, Nat.reduceAdd, Nat.reduceLeDiff]

theorem evTag_read : evTag (flb w 11) (fld w 0 11) = fld w 0 12 := (fld_eq_evTag.2 ⟨rfl, rfl⟩).symm

theorem fld_eq_p6 {lo : Nat} {f : BitVec 4} : fld w lo 6 = p6 f ↔ fln w lo 6 < 16 ∧ fld w lo 4 = f :=
  fld_eq_zero_append (m := 2) (n := 4)

theorem p6_read {lo : Nat} (le : fln w lo 6 ≤ 15) : p6 (fld w lo 4) = fld w lo 6 :=
  (fld_eq_p6.2 ⟨Nat.lt_succ_of_le le, rfl⟩).symm

/-- A form bit in a subcode that is otherwise zero. -/
theorem flb_of_zero {lo : Nat} (zero : fld w lo 7 = 0) : fln w lo 7 = 0 ∧ flb w lo = false :=
  ⟨fln_eq_zero.2 zero, flb_eq zero (i := 0) (by decide)⟩

theorem flb_of_one {lo : Nat} (one : fld w lo 7 = 1) : fln w lo 7 = 1 ∧ flb w lo = true :=
  ⟨congrArg BitVec.toNat one, flb_eq one (i := 0) (by decide)⟩

theorem one_of_flb {lo : Nat} (lt : fln w lo 7 < 2) (set : flb w lo = true) : fld w lo 7 = 1 := by
  rw [b7_written lt, set]
  rfl

theorem zero_of_flb {lo : Nat} (lt : fln w lo 7 < 2) (clear : ¬flb w lo = true) : fld w lo 7 = 0 := by
  rw [b7_written lt, Bool.eq_false_of_not_eq_true clear]
  rfl

/-! ### Matrix opcodes -/

theorem HasTop.decode_matrix {h : Hdr} {opc : BitVec 8} (top : HasTop h opc w) (lo : 0xA0 ≤ opc.toNat)
    (hi : opc.toNat < 0xB0) : decode x svc w = decodeMatrix x svc w opc.toNat := by
  have n0 : opc.toNat ≠ 0 := by omega
  have n1 : ¬opc.toNat < 0x30 := by omega
  have n2 : ¬opc.toNat < 0x40 := by omega
  have n3 : ¬opc.toNat < 0x60 := by omega
  have n4 : ¬opc.toNat < 0x80 := by omega
  simp only [decode, top.fln_opc, n0, n1, n2, n3, n4, Nat.not_lt.2 lo, hi, if_false, if_true]

theorem decode_encode_matrix (fam : i.inFamily 112 125 = true) (wf : i.wf x svc = true) :
    decode x svc (encode i) = .ok i := by
  generalize e : encode i = w
  cases i
  all_goals try exact absurd fam Bool.false_ne_true
  all_goals clear fam; dsimp only [Instr.wf] at wf; rw [Bool.and_eq_true] at wf; obtain ⟨stream, tok⟩ := wf
  case mtw =>
    obtain ⟨top, d, a, lvl, p, g, fn, role⟩ := (eq_packM ..).1 e.symm
    obtain ⟨lt, lvl⟩ := (fld_eq_ofNat_fin (by decide)).1 lvl
    simp only [eq_append_iff (n := 2), extract_fld, Nat.reduceAdd, Nat.reduceLeDiff] at role
    obtain ⟨z, role⟩ := role
    obtain ⟨-, role⟩ := Role.codes.read role
    rw [top.decode_matrix (by decide) (by decide)]
    simp [decodeMatrix, -Fin.ofNat_eq_cast, top.verdict_ok stream tok, top.hdrOf_guard p g, mbz_ok, fln_eq _ 12, fn, d, a, lvl,
      Nat.le_of_lt_succ lt, z, role]
  case mtr =>
    obtain ⟨top, d, a, lvl, p, g, fn, imm⟩ := (eq_packM ..).1 e.symm
    obtain ⟨lt, lvl⟩ := (fld_eq_ofNat_fin (by decide)).1 lvl
    obtain ⟨two, fn⟩ := fld_eq_b7.1 fn
    rw [top.decode_matrix (by decide) (by decide)]
    simp [decodeMatrix, -Fin.ofNat_eq_cast, top.verdict_ok stream tok, top.hdrOf_guard p g, mbz_ok, Nat.not_le_of_lt two, fn, d, a,
      lvl, Nat.le_of_lt_succ lt, imm]
  case mcfg =>
    obtain ⟨top, d, a, f, p, g, fn, imm⟩ := (eq_packM ..).1 e.symm
    simp only [eq_append_iff (n := 2), eq_append_iff (n := 3), eq_append_iff (n := 1), extract_fld, fld_one_eq, Nat.reduceAdd,
      Nat.reduceLeDiff] at imm
    obtain ⟨⟨⟨z, ovf⟩, mode⟩, form⟩ := imm
    obtain ⟨lt, mode⟩ := RMode.codes.read mode
    obtain ⟨-, form⟩ := Fusion.codes.read form
    rw [top.decode_matrix (by decide) (by decide)]
    simp [decodeMatrix, top.verdict_ok stream tok, top.hdrOf_guard p g, mbz_ok, fln_eq _ 12, fn, d, a, f, z, ovf, mode, form,
      Nat.le_of_lt_succ lt]
  case mfmt | mwait | mzero | mtsm =>
    obtain ⟨top, d, a, f, p, g, fn, imm⟩ := (eq_packM ..).1 e.symm
    rw [top.decode_matrix (by decide) (by decide)]
    simp [decodeMatrix, top.verdict_ok stream tok, top.hdrOf_guard p g, mbz_ok, fln_eq, fn, d, a, f, imm]
  case mgo | mtile =>
    obtain ⟨top, d, a, f, p, g, fn, imm⟩ := (eq_packM ..).1 e.symm
    rw [top.decode_matrix (by decide) (by decide)]
    simp [decodeMatrix, top.verdict_ok stream tok, top.hdrOf_guard p g, mbz_ok, fln_eq, fn, d, a, f, fld_eq_evTag.1 imm]
  case mdrain =>
    obtain ⟨top, d, a, f, p, g, fn, imm⟩ := (eq_packM ..).1 e.symm
    obtain ⟨lt, f⟩ := fld_eq_p6.1 f
    rw [top.decode_matrix (by decide) (by decide)]
    simp [decodeMatrix, top.verdict_ok stream tok, top.hdrOf_guard p g, mbz_ok, fln_eq _ 12, fn, d, a, f, Nat.le_of_lt_succ lt,
      fld_eq_evTag.1 imm]
  case fset | fdrop =>
    obtain ⟨top, d, a, f, p, g, fn, imm⟩ := (eq_packM ..).1 e.symm
    obtain ⟨lt, f⟩ := fld_eq_p6.1 f
    rw [top.decode_matrix (by decide) (by decide)]
    simp [decodeMatrix, top.verdict_ok stream tok, top.hdrOf_guard p g, mbz_ok, fln_eq _ 12, fn, d, a, f, Nat.le_of_lt_succ lt, imm]
  case fget =>
    obtain ⟨top, d, a, f, p, g, fn, imm⟩ := (eq_packM ..).1 e.symm
    obtain ⟨lt, f⟩ := fld_eq_p6.1 f
    obtain ⟨two, fn⟩ := fld_eq_b7.1 fn
    rw [top.decode_matrix (by decide) (by decide)]
    simp [decodeMatrix, top.verdict_ok stream tok, top.hdrOf_guard p g, mbz_ok, Nat.not_le_of_lt two, fn, d, a, f,
      Nat.le_of_lt_succ lt, imm]

theorem encode_decode_matrix (ok : decodeMatrix x svc w (fln w 42 8) = .ok i) : w = encode i ∧ i.wf x svc = true := by
  generalize op : fln w 42 8 = n at ok
  unfold decodeMatrix at ok
  split at ok
  case h_14 => exact nomatch ok
  all_goals simp only [unless_eq_ok, verdict_eq_ok, List.forall_mem_cons, List.not_mem_nil, false_imp_iff, implies_true,
    and_true, true_and, mbz_ok, bne_iff_ne, ne_eq, Decidable.not_not, Nat.not_le, Nat.not_lt, decide_eq_false_iff_not,
    fln_eq_zero, Bool.false_eq_true, and_assoc] at ok
  case h_1 =>
    obtain ⟨fn, stream, d, le, z, firm, rfl⟩ := ok
    refine ⟨(eq_packM ..).2 ⟨hasTop_hdrOf op, ?_⟩, accepted stream firm⟩
    simp [hdrOf, fn, d, ofNat_fln, Nat.mod_eq_of_lt (Nat.lt_succ_of_le le), eq_append_iff (n := 2), extract_fld, z,
      ← Role.codes.written (fln_lt w 0 2)]
  case h_2 =>
    obtain ⟨lt, stream, a, le, imm, firm, rfl⟩ := ok
    refine ⟨(eq_packM ..).2 ⟨hasTop_hdrOf op, ?_⟩, accepted stream firm⟩
    simp [hdrOf, ← b7_written lt, a, ofNat_fln, Nat.mod_eq_of_lt (Nat.lt_succ_of_le le), imm]
  case h_3 =>
    obtain ⟨fn, stream, d, a, f, le, z, firm, rfl⟩ := ok
    refine ⟨(eq_packM ..).2 ⟨hasTop_hdrOf op, ?_⟩, accepted stream firm⟩
    simp [hdrOf, fn, d, a, f, eq_append_iff (n := 2), eq_append_iff (n := 3), eq_append_iff (n := 1), extract_fld, fld_one_eq, z,
      ← RMode.codes.written (Nat.lt_succ_of_le le), ← Fusion.codes.written (fln_lt w 0 2)]
  case h_4 | h_7 =>
    obtain ⟨fn, stream, d, f, imm, firm, rfl⟩ := ok
    exact ⟨(eq_packM ..).2 ⟨hasTop_hdrOf op, by simp [hdrOf, *]⟩, accepted stream firm⟩
  case h_5 | h_9 =>
    obtain ⟨fn, stream, d, f, firm, rfl⟩ := ok
    exact ⟨(eq_packM ..).2 ⟨hasTop_hdrOf op, by simp [hdrOf, evTag_read, *]⟩, accepted stream firm⟩
  case h_6 | h_10 =>
    obtain ⟨fn, stream, d, a, f, imm, firm, rfl⟩ := ok
    exact ⟨(eq_packM ..).2 ⟨hasTop_hdrOf op, by simp [hdrOf, *]⟩, accepted stream firm⟩
  case h_8 =>
    obtain ⟨fn, stream, d, le, firm, rfl⟩ := ok
    exact ⟨(eq_packM ..).2 ⟨hasTop_hdrOf op, by simp [hdrOf, fn, d, p6_read le, evTag_read]⟩, accepted stream firm⟩
  case h_11 | h_13 =>
    obtain ⟨fn, stream, d, le, imm, firm, rfl⟩ := ok
    exact ⟨(eq_packM ..).2 ⟨hasTop_hdrOf op, by simp [hdrOf, fn, d, p6_read le, imm]⟩, accepted stream firm⟩
  case h_12 =>
    obtain ⟨lt, stream, a, le, imm, firm, rfl⟩ := ok
    exact ⟨(eq_packM ..).2 ⟨hasTop_hdrOf op, by simp [hdrOf, ← b7_written lt, a, p6_read le, imm]⟩, accepted stream firm⟩

/-! ### Headland opcodes -/

theorem HasTop.decode_headland {h : Hdr} {opc : BitVec 8} (top : HasTop h opc w) (lo : 0xB0 ≤ opc.toNat)
    (hi : opc.toNat < 0xB8) : decode x svc w = decodeHeadland x svc w opc.toNat := by
  have n0 : opc.toNat ≠ 0 := by omega
  have n1 : ¬opc.toNat < 0x30 := by omega
  have n2 : ¬opc.toNat < 0x40 := by omega
  have n3 : ¬opc.toNat < 0x60 := by omega
  have n4 : ¬opc.toNat < 0x80 := by omega
  have n5 : ¬opc.toNat < 0xA0 := by omega
  simp only [decode, top.fln_opc, n0, n1, n2, n3, n4, n5, Nat.not_lt.2 lo, hi, if_false, if_true]

/-- The fields of a target (R291) hold a window or a furrow exactly when the decoder reads it there without offence. -/
theorem fld_eq_target {t : HTarget} : fld w 32 5 = t.field ∧ fld w 0 7 = t.fn ↔
    fln w 0 7 < 2 ∧ (flb w 0 && flb w 36) = false ∧ (if flb w 0 then .fur (fld w 32 4) else .win (fld w 32 5)) = t := by
  cases t with
  | win v =>
    have fn : fld w 0 7 = 0 ↔ fln w 0 7 < 2 ∧ flb w 0 = false := fld_eq_b7 (b := false)
    rw [HTarget.fn, HTarget.field, fn]
    cases flb w 0 <;> simp [and_comm]
  | fur v =>
    have fn : fld w 0 7 = 1 ↔ fln w 0 7 < 2 ∧ flb w 0 = true := fld_eq_b7 (b := true)
    have field : fld w 32 5 = (0 : BitVec 1) ++ v ↔ flb w 36 = false ∧ fld w 32 4 = v := by
      have top : fld w 36 1 = 0 ↔ flb w 36 = false := fld_one_eq w 36 false
      simp only [eq_append_iff (n := 4), extract_fld, Nat.reduceAdd, Nat.reduceLeDiff, top]
    rw [HTarget.fn, HTarget.field, fn, field]
    cases flb w 0 <;> simp [and_comm, and_assoc]

theorem decode_encode_headland (fam : i.inFamily 125 132 = true) (wf : i.wf x svc = true) :
    decode x svc (encode i) = .ok i := by
  generalize e : encode i = w
  cases i
  all_goals try exact absurd fam Bool.false_ne_true
  all_goals clear fam; dsimp only [Instr.wf] at wf; replace wf := Bool.and_eq_true_iff.1 wf
  case hgen =>
    obtain ⟨stream, tok⟩ := wf
    obtain ⟨top, d, a, b, ea, p, mode, g, fn⟩ := (eq_packW ..).1 e.symm
    rw [top.decode_headland (by decide) (by decide)]
    simp [decodeHeadland, top.verdict_ok stream tok, top.hdrOf_guard p g, mbz_ok, flb_of_zero fn, d, a, b, ea, mode]
  case hgenRel =>
    obtain ⟨stream, tok⟩ := wf
    obtain ⟨top, d, a, b, ea, p, mode, g, fn⟩ := (eq_packW ..).1 e.symm
    rw [top.decode_headland (by decide) (by decide)]
    simp [decodeHeadland, top.verdict_ok stream tok, top.hdrOf_guard p g, mbz_ok, flb_of_one fn, d, a, b, ea, mode]
  case hchk h ro t' ea' =>
    obtain ⟨head, own⟩ := wf
    obtain ⟨stream, tok⟩ := Bool.and_eq_true_iff.1 head
    obtain ⟨top, d, a, b, ea, p, mode, g, fn⟩ := (eq_packW ..).1 e.symm
    obtain ⟨lt, clean, t⟩ := fld_eq_target.1 ⟨a, fn⟩
    rw [top.decode_headland (by decide) (by decide)]
    cases x with
    | kTask | kFirm | l => exact absurd own Bool.false_ne_true
    | c =>
      cases ea' with
      | none => exact absurd own Bool.false_ne_true
      | some n =>
        simp [decodeHeadland, top.verdict_ok stream tok, top.hdrOf_guard p g, mbz_ok, Nat.not_le_of_lt lt, d, b,
          eregAt_of_er ea, badReg_of_er ea, fld_eq_flag5.1 mode, t]
        simpa using clean
    | s =>
      cases t' with
      | win v => exact absurd own Bool.false_ne_true
      | fur v =>
        cases ea' with
        | some n => exact absurd own Bool.false_ne_true
        | none =>
          obtain ⟨num, one⟩ := flb_of_one fn
          simp [decodeHeadland, top.verdict_ok stream tok, top.hdrOf_guard p g, mbz_ok, num, one, d, b, ea,
            fld_eq_flag5.1 mode]
          simpa [one] using And.intro clean t
  case hfix h c t ea' =>
    obtain ⟨head, pair⟩ := wf
    obtain ⟨stream, tok⟩ := Bool.and_eq_true_iff.1 head
    obtain ⟨top, d, a, b, ea, p, mode, g, fn⟩ := (eq_packW ..).1 e.symm
    obtain ⟨lt, clean, t⟩ := fld_eq_target.1 ⟨a, fn⟩
    have room := badReg_of_er ea (Nat.succ_lt_succ (of_decide_eq_true pair))
    rw [top.decode_headland (by decide) (by decide)]
    simp [decodeHeadland, top.verdict_ok stream tok, top.hdrOf_guard p g, mbz_ok, Nat.not_le_of_lt lt, d, b, eregAt_of_er ea, room,
      fld_eq_flag5.1 mode, t]
    simpa using clean
  case hupd =>
    obtain ⟨stream, tok⟩ := wf
    obtain ⟨top, d, a, b, ea, p, mode, g, fn⟩ := (eq_packW ..).1 e.symm
    rw [top.decode_headland (by decide) (by decide)]
    simp [decodeHeadland, top.verdict_ok stream tok, top.hdrOf_guard p g, mbz_ok, fln_eq, fn, d, a, b, ea, mode]
  case hrd h t ea' =>
    obtain ⟨head, pair⟩ := wf
    obtain ⟨stream, tok⟩ := Bool.and_eq_true_iff.1 head
    obtain ⟨top, d, a, b, ea, p, mode, g, fn⟩ := (eq_packW ..).1 e.symm
    obtain ⟨lt, clean, t⟩ := fld_eq_target.1 ⟨a, fn⟩
    have room := badReg_of_er ea (Nat.add_lt_add_right (of_decide_eq_true pair) 2)
    rw [top.decode_headland (by decide) (by decide)]
    simp [decodeHeadland, top.verdict_ok stream tok, top.hdrOf_guard p g, mbz_ok, Nat.not_le_of_lt lt, d, b, eregAt_of_er ea, room,
      mode, t]
    simpa using clean
  case htol =>
    obtain ⟨head, isA⟩ := wf
    obtain ⟨stream, tok⟩ := Bool.and_eq_true_iff.1 head
    obtain ⟨top, d, a, b, ea, p, mode, g, fn⟩ := (eq_packW ..).1 e.symm
    rw [top.decode_headland (by decide) (by decide)]
    simp [decodeHeadland, top.verdict_ok stream tok, top.hdrOf_guard p g, mbz_ok, fln_eq, fn, d, a, b, badSrc_of_ec ea,
      eopAt_of_ec ea, isA, mode]

theorem encode_decode_headland (ok : decodeHeadland x svc w (fln w 42 8) = .ok i) : w = encode i ∧ i.wf x svc = true := by
  generalize op : fln w 42 8 = n at ok
  unfold decodeHeadland at ok
  split at ok
  case h_7 => exact nomatch ok
  case h_1 =>
    rw [unless_eq_ok] at ok
    obtain ⟨lt, ok⟩ := ok
    rw [Nat.not_le] at lt
    split_ifs at ok with rel
    all_goals simp only [verdict_eq_ok, List.forall_mem_cons, List.not_mem_nil, false_imp_iff, implies_true, and_true,
      true_and, mbz_ok, Bool.false_eq_true, and_assoc] at ok
    · obtain ⟨stream, d, b, ea, mode, firm, rfl⟩ := ok
      refine ⟨(eq_packW ..).2 ⟨hasTop_hdrOf op, ?_⟩, accepted stream firm⟩
      simp [hdrOf, d, b, ea, mode, one_of_flb lt rel]
    · obtain ⟨stream, d, ea, mode, firm, rfl⟩ := ok
      refine ⟨(eq_packW ..).2 ⟨hasTop_hdrOf op, ?_⟩, accepted stream firm⟩
      simp [hdrOf, d, ea, mode, zero_of_flb lt rel]
  case h_2 =>
    simp only [unless_eq_ok, Nat.not_le] at ok
    obtain ⟨lt, furrow, ok⟩ := ok
    split at ok
    all_goals
      rename_i onS
      simp only [verdict_eq_ok, List.forall_mem_cons, List.not_mem_nil, false_imp_iff, implies_true, and_true,
        true_and, mbz_ok, badReg_ok, Bool.false_eq_true, and_assoc] at ok
    · obtain ⟨stream, d, clean, b, ea, z, firm, rfl⟩ := ok
      obtain rfl := eq_of_beq onS
      have one : flb w 0 = true := by simpa using furrow
      have target := fld_eq_target.2 ⟨lt, clean, rfl⟩
      rw [one, if_pos rfl] at target
      exact ⟨(eq_packW ..).2 ⟨hasTop_hdrOf op, d, target.1, b, ea, rfl, flag5_written z, rfl, target.2⟩,
        accepted_and (pq := some 13) (ng := some 7) (b := true) stream firm rfl⟩
    · obtain ⟨stream, d, clean, b, ea, -, z, firm, rfl⟩ := ok
      have target := fld_eq_target.2 ⟨lt, clean, rfl⟩
      obtain rfl : x = .c := by
        cases x with
        | c => rfl
        | s => exact absurd rfl onS
        | kTask | kFirm | l => exact nomatch stream
      exact ⟨(eq_packW ..).2 ⟨hasTop_hdrOf op, d, target.1, b, ea, rfl, flag5_written z, rfl, target.2⟩,
        accepted_and (pq := some 13) (ng := some 7) (b := true) stream firm rfl⟩
  all_goals simp only [unless_eq_ok, verdict_eq_ok, List.forall_mem_cons, List.not_mem_nil, false_imp_iff, implies_true,
    and_true, true_and, mbz_ok, badReg_ok, badSrc_ok, bne_iff_ne, ne_eq, Decidable.not_not, Nat.not_le, fln_eq_zero,
    Bool.false_eq_true, and_assoc] at ok
  case h_3 =>
    obtain ⟨lt, stream, d, clean, b, ea, room, z, firm, rfl⟩ := ok
    have target := fld_eq_target.2 ⟨lt, clean, rfl⟩
    exact ⟨(eq_packW ..).2 ⟨hasTop_hdrOf op, d, target.1, b, ea, rfl, flag5_written z, rfl, target.2⟩,
      accepted_and stream firm (decide_eq_true (Nat.lt_of_succ_lt_succ room))⟩
  case h_4 =>
    obtain ⟨fn, stream, b, ea, mode, firm, rfl⟩ := ok
    exact ⟨(eq_packW ..).2 ⟨hasTop_hdrOf op, by simp [hdrOf, b, ea, mode, fn]⟩, accepted stream firm⟩
  case h_5 =>
    obtain ⟨lt, stream, d, clean, b, ea, room, mode, firm, rfl⟩ := ok
    have target := fld_eq_target.2 ⟨lt, clean, rfl⟩
    exact ⟨(eq_packW ..).2 ⟨hasTop_hdrOf op, d, target.1, b, ea, rfl, mode, rfl, target.2⟩,
      accepted_and stream firm (decide_eq_true (Nat.lt_of_add_lt_add_right room))⟩
  case h_6 =>
    obtain ⟨fn, stream, d, a, b, ea, isA, mode, firm, rfl⟩ := ok
    exact ⟨(eq_packW ..).2 ⟨hasTop_hdrOf op, by simp [hdrOf, d, a, b, ← ea, mode, fn]⟩, accepted_and stream firm isA⟩

end Sys2Proof
end

section
/-! Encoding and decoding of the map composition, Tithe and engine opcodes (R50), and what the decoder and the encoder are
to each other. -/

namespace Sys2Proof
variable {x : Issuer} {svc : Bool} {w : BitVec 64} {i : Instr}

/-! ### Map composition opcodes -/

theorem HasTop.decode_compose {h : Hdr} {opc : BitVec 8} (top : HasTop h opc w) (lo : 0xB8 ≤ opc.toNat)
    (hi : opc.toNat < 0xC0) : decode x svc w = decodeCompose x svc w opc.toNat := by
  have n0 : opc.toNat ≠ 0 := by omega
  have n1 : ¬opc.toNat < 0x30 := by omega
  have n2 : ¬opc.toNat < 0x40 := by omega
  have n3 : ¬opc.toNat < 0x60 := by omega
  have n4 : ¬opc.toNat < 0x80 := by omega
  have n5 : ¬opc.toNat < 0xA0 := by omega
  have n6 : ¬opc.toNat < 0xB0 := by omega
  simp only [decode, top.fln_opc, n0, n1, n2, n3, n4, n5, n6, Nat.not_lt.2 lo, hi, if_false, if_true]

theorem decode_encode_compose (fam : i.inFamily 132 144 = true) (wf : i.wf x svc = true) :
    decode x svc (encode i) = .ok i := by
  generalize e : encode i = w
  cases i
  all_goals try exact absurd fam Bool.false_ne_true
  all_goals clear fam; dsimp only [Instr.wf] at wf; rw [Bool.and_eq_true] at wf; obtain ⟨stream, tok⟩ := wf
  case mccfg | mcapp =>
    obtain ⟨top, d, a, f, p, g, fn, imm⟩ := (eq_packM ..).1 e.symm
    rw [top.decode_compose (by decide) (by decide)]
    simp [decodeCompose, top.verdict_ok stream tok, top.hdrOf_guard p g, mbz_ok, flb_of_zero fn, d, a, f, imm]
  case mccfgRst | mcappT =>
    obtain ⟨top, d, a, f, p, g, fn, imm⟩ := (eq_packM ..).1 e.symm
    rw [top.decode_compose (by decide) (by decide)]
    simp [decodeCompose, top.verdict_ok stream tok, top.hdrOf_guard p g, mbz_ok, flb_of_one fn, d, a, f, imm]
  case mcld | mcldL | mcldR | mccmp | mctree | mcmsk =>
    obtain ⟨top, d, a, f, p, g, fn, imm⟩ := (eq_packM ..).1 e.symm
    rw [top.decode_compose (by decide) (by decide)]
    simp [decodeCompose, top.verdict_ok stream tok, top.hdrOf_guard p g, mbz_ok, fln_eq, fn, d, a, f, fld_eq_evTag.1 imm]
  case mcst =>
    obtain ⟨top, d, a, f, p, g, fn, imm⟩ := (eq_packM ..).1 e.symm
    obtain ⟨lt, fn⟩ := fld_eq_b7.1 fn
    rw [top.decode_compose (by decide) (by decide)]
    simp [decodeCompose, top.verdict_ok stream tok, top.hdrOf_guard p g, mbz_ok, Nat.not_le_of_lt lt, fn, d, a, f,
      fld_eq_evTag.1 imm]
  case mcchk =>
    obtain ⟨top, d, a, f, p, g, fn, imm⟩ := (eq_packM ..).1 e.symm
    obtain ⟨lt, fn⟩ := McchkFn.codes.read fn
    simp only [p6, eq_append_iff (n := 4), extract_fld, Nat.reduceAdd, Nat.reduceLeDiff] at d
    rw [top.decode_compose (by decide) (by decide)]
    simp [decodeCompose, top.verdict_ok stream tok, top.hdrOf_guard p g, mbz_ok, Nat.not_le_of_lt lt, fn, d, a, f, imm]

/-- What an accepted word says, the instruction first. -/
theorem verdict_accepts {svcOnly : Bool} {streams : List StreamId} {bad : List (Nat × Bool)} {j : Instr} :
    verdict x svc w streams svcOnly bad i = .ok j ↔ i = j ∧ streams.contains x.stream = true ∧
      (x = .kFirm → flb w 50 = false ∧ flb w 51 = false ∧ flb w 52 = false ∧ flb w 53 = false) ∧
        (svcOnly = true → svc = true ∧ x = .kFirm) ∧ ∀ p ∈ bad, p.2 = false := by
  rw [verdict_eq_ok]
  exact ⟨fun ⟨stream, priv, clean, firm, eq⟩ => ⟨eq, stream, firm, priv, clean⟩,
    fun ⟨eq, stream, firm, priv, clean⟩ => ⟨stream, priv, clean, firm, eq⟩⟩

theorem encode_decode_compose (ok : decodeCompose x svc w (fln w 42 8) = .ok i) : w = encode i ∧ i.wf x svc = true := by
  generalize op : fln w 42 8 = n at ok
  unfold decodeCompose at ok
  split at ok
  case h_9 => exact nomatch ok
  case h_1 | h_6 =>
    rw [unless_eq_ok, Nat.not_le] at ok
    obtain ⟨lt, ok⟩ := ok
    split at ok
    all_goals
      rename_i form
      simp only [verdict_accepts, List.forall_mem_cons, List.not_mem_nil, false_imp_iff, implies_true, and_true, true_and,
        mbz_ok, Bool.false_eq_true] at ok
      obtain ⟨rfl, stream, firm, clean⟩ := ok
    case isTrue => exact ⟨(eq_packM ..).2 ⟨hasTop_hdrOf op, by simp [hdrOf, one_of_flb lt form, clean]⟩, accepted stream firm⟩
    case isFalse => exact ⟨(eq_packM ..).2 ⟨hasTop_hdrOf op, by simp [hdrOf, zero_of_flb lt form, clean]⟩, accepted stream firm⟩
  case h_2 =>
    split at ok
    case h_4 => exact nomatch ok
    all_goals
      rename_i fn
      replace fn := fld_eq_ofNat fn
      simp only [verdict_accepts, List.forall_mem_cons, List.not_mem_nil, false_imp_iff, implies_true, and_true, true_and,
        mbz_ok, Bool.false_eq_true] at ok
      obtain ⟨rfl, stream, firm, clean⟩ := ok
      exact ⟨(eq_packM ..).2 ⟨hasTop_hdrOf op, by simp [hdrOf, evTag_read, fn, clean]⟩, accepted stream firm⟩
  all_goals
    simp only [unless_eq_ok, verdict_accepts, List.forall_mem_cons, List.not_mem_nil, false_imp_iff, implies_true,
      and_true, true_and, mbz_ok, bne_iff_ne, ne_eq, Decidable.not_not, Nat.not_le, fln_eq_zero, Bool.false_eq_true] at ok
    obtain ⟨fn, rfl, stream, firm, clean⟩ := ok
  case h_3 =>
    exact ⟨(eq_packM ..).2 ⟨hasTop_hdrOf op, by simp [hdrOf, evTag_read, ← b7_written fn, clean]⟩, accepted stream firm⟩
  case h_4 | h_5 | h_7 =>
    exact ⟨(eq_packM ..).2 ⟨hasTop_hdrOf op, by simp [hdrOf, evTag_read, fn, clean]⟩, accepted stream firm⟩
  case h_8 =>
    refine ⟨(eq_packM ..).2 ⟨hasTop_hdrOf op, ?_⟩, accepted stream firm⟩
    simp [hdrOf, p6, eq_append_iff (n := 4), extract_fld, ← McchkFn.codes.written fn, clean]

/-! ### Tithe opcodes -/

theorem HasTop.decode_tithe {h : Hdr} {opc : BitVec 8} (top : HasTop h opc w) (lo : 0xC0 ≤ opc.toNat)
    (hi : opc.toNat < 0xC8) : decode x svc w = decodeTithe x svc w opc.toNat := by
  have n0 : opc.toNat ≠ 0 := by omega
  have n1 : ¬opc.toNat < 0x30 := by omega
  have n2 : ¬opc.toNat < 0x40 := by omega
  have n3 : ¬opc.toNat < 0x60 := by omega
  have n4 : ¬opc.toNat < 0x80 := by omega
  have n5 : ¬opc.toNat < 0xA0 := by omega
  have n6 : ¬opc.toNat < 0xB0 := by omega
  have n7 : ¬opc.toNat < 0xB8 := by omega
  simp only [decode, top.fln_opc, n0, n1, n2, n3, n4, n5, n6, n7, Nat.not_lt.2 lo, hi, if_false, if_true]

theorem fld_eq_bk12 {b : BitVec 2} : fld w 0 12 = bk12 b ↔ fld w 2 10 = 0 ∧ fld w 0 2 = b := by
  simp only [bk12, eq_append_iff (n := 2), extract_fld, Nat.reduceAdd, Nat.reduceLeDiff]

theorem bk12_read (z : fld w 2 10 = 0) : bk12 (fld w 0 2) = fld w 0 12 := (fld_eq_bk12.2 ⟨z, rfl⟩).symm

theorem decode_encode_tithe (fam : i.inFamily 144 151 = true) (wf : i.wf x svc = true) :
    decode x svc (encode i) = .ok i := by
  generalize e : encode i = w
  cases i
  all_goals try exact absurd fam Bool.false_ne_true
  all_goals clear fam; dsimp only [Instr.wf] at wf; rw [Bool.and_eq_true] at wf; obtain ⟨stream, tok⟩ := wf
  case thopen | thclose | thabort =>
    obtain ⟨top, d, a, f, p, g, fn, imm⟩ := (eq_packM ..).1 e.symm
    rw [top.decode_tithe (by decide) (by decide)]
    simp [decodeTithe, top.verdict_ok stream tok, top.hdrOf_guard p g, mbz_ok, fln_eq, fn, d, a, f, fld_eq_bk12.1 imm]
  case thbind =>
    obtain ⟨top, d, a, f, p, g, fn, imm⟩ := (eq_packM ..).1 e.symm
    obtain ⟨lt, f⟩ := fld_eq_p6.1 f
    rw [top.decode_tithe (by decide) (by decide)]
    simp [decodeTithe, top.verdict_ok stream tok, top.hdrOf_guard p g, mbz_ok, flb_of_zero fn, d, a, f, Nat.le_of_lt_succ lt,
      fld_eq_bk12.1 imm]
  case thbindR =>
    obtain ⟨top, d, a, f, p, g, fn, imm⟩ := (eq_packM ..).1 e.symm
    rw [top.decode_tithe (by decide) (by decide)]
    simp [decodeTithe, top.verdict_ok stream tok, top.hdrOf_guard p g, mbz_ok, flb_of_one fn, d, a, f, fld_eq_bk12.1 imm]
  case thrd =>
    obtain ⟨top, d, a, f, p, g, fn, imm⟩ := (eq_packM ..).1 e.symm
    obtain ⟨lt, fn⟩ := ThrdFn.codes.read fn
    rw [top.decode_tithe (by decide) (by decide)]
    simp [decodeTithe, top.verdict_ok stream tok, top.hdrOf_guard p g, mbz_ok, Nat.not_le_of_lt lt, fn, d, a, f, imm]
  case thstm =>
    obtain ⟨top, d, a, f, p, g, fn, imm⟩ := (eq_packM ..).1 e.symm
    rw [top.decode_tithe (by decide) (by decide)]
    simp [decodeTithe, top.verdict_ok stream tok, top.hdrOf_guard p g, mbz_ok, fln_eq, fn, d, a, f, imm]

theorem encode_decode_tithe (ok : decodeTithe x svc w (fln w 42 8) = .ok i) : w = encode i ∧ i.wf x svc = true := by
  generalize op : fln w 42 8 = n at ok
  unfold decodeTithe at ok
  split at ok
  case h_7 => exact nomatch ok
  case h_4 =>
    rw [unless_eq_ok, Nat.not_le] at ok
    obtain ⟨lt, ok⟩ := ok
    split at ok
    all_goals
      rename_i form
      simp only [verdict_accepts, List.forall_mem_cons, List.not_mem_nil, false_imp_iff, implies_true, and_true, true_and,
        mbz_ok, decide_eq_false_iff_not, Nat.not_lt, Bool.false_eq_true] at ok
    case isTrue =>
      obtain ⟨rfl, stream, firm, d, f, z⟩ := ok
      exact ⟨(eq_packM ..).2 ⟨hasTop_hdrOf op, by simp [hdrOf, one_of_flb lt form, bk12_read z, d, f]⟩, accepted stream firm⟩
    case isFalse =>
      obtain ⟨rfl, stream, firm, d, a, le, z⟩ := ok
      refine ⟨(eq_packM ..).2 ⟨hasTop_hdrOf op, ?_⟩, accepted stream firm⟩
      simp [hdrOf, zero_of_flb lt form, bk12_read z, p6_read le, d, a]
  all_goals
    simp only [unless_eq_ok, verdict_accepts, List.forall_mem_cons, List.not_mem_nil, false_imp_iff, implies_true,
      and_true, true_and, mbz_ok, bne_iff_ne, ne_eq, Decidable.not_not, Nat.not_le, fln_eq_zero, Bool.false_eq_true] at ok
    obtain ⟨fn, rfl, stream, firm, clean⟩ := ok
  case h_1 =>
    obtain ⟨d, f, z⟩ := clean
    exact ⟨(eq_packM ..).2 ⟨hasTop_hdrOf op, by simp [hdrOf, bk12_read z, fn, d, f]⟩, accepted stream firm⟩
  case h_2 | h_3 =>
    obtain ⟨d, a, f, z⟩ := clean
    exact ⟨(eq_packM ..).2 ⟨hasTop_hdrOf op, by simp [hdrOf, bk12_read z, fn, d, a, f]⟩, accepted stream firm⟩
  case h_5 =>
    exact ⟨(eq_packM ..).2 ⟨hasTop_hdrOf op, by simp [hdrOf, ← ThrdFn.codes.written fn, clean]⟩, accepted stream firm⟩
  case h_6 =>
    exact ⟨(eq_packM ..).2 ⟨hasTop_hdrOf op, by simp [hdrOf, fn, clean]⟩, accepted stream firm⟩

/-! ### Engine opcodes -/

theorem HasTop.decode_engine {h : Hdr} {opc : BitVec 8} (top : HasTop h opc w) (lo : 0xC8 ≤ opc.toNat) :
    decode x svc w = decodeEngine x svc w opc.toNat := by
  have n0 : opc.toNat ≠ 0 := by omega
  have n1 : ¬opc.toNat < 0x30 := by omega
  have n2 : ¬opc.toNat < 0x40 := by omega
  have n3 : ¬opc.toNat < 0x60 := by omega
  have n4 : ¬opc.toNat < 0x80 := by omega
  have n5 : ¬opc.toNat < 0xA0 := by omega
  have n6 : ¬opc.toNat < 0xB0 := by omega
  have n7 : ¬opc.toNat < 0xB8 := by omega
  have n8 : ¬opc.toNat < 0xC0 := by omega
  simp only [decode, top.fln_opc, n0, n1, n2, n3, n4, n5, n6, n7, n8, Nat.not_lt.2 lo, if_false]

theorem decode_encode_engine (fam : i.inFamily 151 180 = true) (wf : i.wf x svc = true) :
    decode x svc (encode i) = .ok i := by
  generalize e : encode i = w
  cases i
  all_goals try exact absurd fam Bool.false_ne_true
  all_goals clear fam; dsimp only [Instr.wf] at wf; simp only [Bool.and_eq_true] at wf
  case cpy | cpy2 | fxs | fxr | fxred =>
    obtain ⟨stream, tok⟩ := wf
    obtain ⟨top, d, a, f, p, g, fn, imm⟩ := (eq_packM ..).1 e.symm
    rw [top.decode_engine (by decide)]
    simp [decodeEngine, top.verdict_ok stream tok, top.hdrOf_guard p g, mbz_ok, fln_eq, fn, d, a, f, fld_eq_evTag.1 imm]
  case cpwait | fxwait | pxins | pxevc | kvpgAlloc | kvpgFree | kvpgRel | kvpgAck =>
    obtain ⟨stream, tok⟩ := wf
    obtain ⟨top, d, a, f, p, g, fn, imm⟩ := (eq_packM ..).1 e.symm
    rw [top.decode_engine (by decide)]
    simp [decodeEngine, top.verdict_ok stream tok, top.hdrOf_guard p g, mbz_ok, fln_eq, fn, d, a, f, imm]
  case cpres | tsat | pxlk | pxrefAdd =>
    obtain ⟨stream, tok⟩ := wf
    obtain ⟨top, d, a, f, p, g, fn, imm⟩ := (eq_packM ..).1 e.symm
    rw [top.decode_engine (by decide)]
    simp [decodeEngine, top.verdict_ok stream tok, top.hdrOf_guard p g, mbz_ok, flb_of_zero fn, d, a, f, imm]
  case cpresDrop | tsatWait | pxlkAcq | pxrefDrop =>
    obtain ⟨stream, tok⟩ := wf
    obtain ⟨top, d, a, f, p, g, fn, imm⟩ := (eq_packM ..).1 e.symm
    rw [top.decode_engine (by decide)]
    simp [decodeEngine, top.verdict_ok stream tok, top.hdrOf_guard p g, mbz_ok, flb_of_one fn, d, a, f, imm]
  case sgn | vfy | kunw =>
    obtain ⟨⟨⟨stream, tok⟩, rfl⟩, onFirm⟩ := wf
    obtain rfl := eq_of_beq onFirm
    obtain ⟨top, d, a, f, p, g, fn, imm⟩ := (eq_packM ..).1 e.symm
    rw [top.decode_engine (by decide)]
    simp [decodeEngine, top.verdict_ok stream tok, top.hdrOf_guard p g, mbz_ok, fln_eq, fn, d, a, f, imm]
  case hshInit =>
    obtain ⟨⟨⟨stream, tok⟩, rfl⟩, onFirm⟩ := wf
    obtain rfl := eq_of_beq onFirm
    obtain ⟨top, d, a, f, p, g, fn, imm⟩ := (eq_packM ..).1 e.symm
    obtain ⟨lt, f⟩ := (fld_eq_zero_append (m := 4) (n := 2)).1 f
    rw [top.decode_engine (by decide)]
    simp [decodeEngine, top.verdict_ok stream tok, top.hdrOf_guard p g, mbz_ok, flb_of_one fn, d, a, f, Nat.le_of_lt_succ lt,
      imm]
  case hsh =>
    obtain ⟨⟨⟨stream, tok⟩, rfl⟩, onFirm⟩ := wf
    obtain rfl := eq_of_beq onFirm
    obtain ⟨top, d, a, f, p, g, fn, imm⟩ := (eq_packM ..).1 e.symm
    obtain ⟨lt, f⟩ := (fld_eq_zero_append (m := 4) (n := 2)).1 f
    rw [top.decode_engine (by decide)]
    simp [decodeEngine, top.verdict_ok stream tok, top.hdrOf_guard p g, mbz_ok, flb_of_zero fn, d, a, f, Nat.le_of_lt_succ lt,
      imm]
  case hfin =>
    obtain ⟨⟨⟨stream, tok⟩, rfl⟩, onFirm⟩ := wf
    obtain rfl := eq_of_beq onFirm
    obtain ⟨top, d, a, f, p, g, fn, imm⟩ := (eq_packM ..).1 e.symm
    obtain ⟨lt, f⟩ := (fld_eq_zero_append (m := 4) (n := 2)).1 f
    simp only [eq_append_iff (n := 7), extract_fld, Nat.reduceAdd, Nat.reduceLeDiff] at imm
    rw [top.decode_engine (by decide)]
    simp [decodeEngine, top.verdict_ok stream tok, top.hdrOf_guard p g, mbz_ok, fln_eq _ 12, fn, d, a, f, Nat.le_of_lt_succ lt,
      imm]
  case mext =>
    obtain ⟨⟨⟨stream, tok⟩, rfl⟩, onFirm⟩ := wf
    obtain rfl := eq_of_beq onFirm
    obtain ⟨top, d, a, f, p, g, fn, imm⟩ := (eq_packM ..).1 e.symm
    obtain ⟨lt, f⟩ := (fld_eq_zero_append (m := 3) (n := 3)).1 f
    rw [top.decode_engine (by decide)]
    simp [decodeEngine, top.verdict_ok stream tok, top.hdrOf_guard p g, mbz_ok, flb_of_zero fn, d, a, f, Nat.le_of_lt_succ lt,
      imm]
  case mextRd =>
    obtain ⟨⟨⟨stream, tok⟩, rfl⟩, onFirm⟩ := wf
    obtain rfl := eq_of_beq onFirm
    obtain ⟨top, d, a, f, p, g, fn, imm⟩ := (eq_packM ..).1 e.symm
    obtain ⟨lt, f⟩ := (fld_eq_zero_append (m := 3) (n := 3)).1 f
    rw [top.decode_engine (by decide)]
    simp [decodeEngine, top.verdict_ok stream tok, top.hdrOf_guard p g, mbz_ok, flb_of_one fn, d, a, f, Nat.le_of_lt_succ lt,
      imm]

/-- The number of a hash unit (R359). -/
theorem slot_written (le : fln w 24 6 ≤ 3) : fld w 24 6 = (0 : BitVec 4) ++ fld w 24 2 :=
  (fld_eq_zero_append (m := 4) (n := 2)).2 ⟨Nat.lt_succ_of_le le, rfl⟩

theorem encode_decode_engine (ok : decodeEngine x svc w (fln w 42 8) = .ok i) : w = encode i ∧ i.wf x svc = true := by
  generalize op : fln w 42 8 = n at ok
  unfold decodeEngine at ok
  split at ok
  case h_21 => exact nomatch ok
  case h_3 | h_9 | h_16 | h_18 =>
    rw [unless_eq_ok, Nat.not_le] at ok
    obtain ⟨lt, ok⟩ := ok
    split at ok
    all_goals
      rename_i form
      simp only [verdict_accepts, List.forall_mem_cons, List.not_mem_nil, false_imp_iff, implies_true, and_true, true_and,
        mbz_ok, Bool.false_eq_true] at ok
      obtain ⟨rfl, stream, firm, clean⟩ := ok
    case isTrue => exact ⟨(eq_packM ..).2 ⟨hasTop_hdrOf op, by simp [hdrOf, one_of_flb lt form, clean]⟩, accepted stream firm⟩
    case isFalse => exact ⟨(eq_packM ..).2 ⟨hasTop_hdrOf op, by simp [hdrOf, zero_of_flb lt form, clean]⟩, accepted stream firm⟩
  case h_10 =>
    rw [unless_eq_ok, Nat.not_le] at ok
    obtain ⟨lt, ok⟩ := ok
    split at ok
    all_goals
      rename_i form
      simp only [verdict_accepts, List.forall_mem_cons, List.not_mem_nil, false_imp_iff, implies_true, and_true, mbz_ok,
        decide_eq_false_iff_not, Nat.not_lt, forall_const] at ok
    case isTrue =>
      obtain ⟨rfl, stream, firm, ⟨rfl, rfl⟩, d, a, le, imm⟩ := ok
      exact ⟨(eq_packM ..).2 ⟨hasTop_hdrOf op, d, a, slot_written le, rfl, rfl, one_of_flb lt form, imm⟩,
        accepted_and_and stream firm rfl rfl⟩
    case isFalse =>
      obtain ⟨rfl, stream, firm, ⟨rfl, rfl⟩, d, le, imm⟩ := ok
      exact ⟨(eq_packM ..).2 ⟨hasTop_hdrOf op, d, rfl, slot_written le, rfl, rfl, zero_of_flb lt form, imm⟩,
        accepted_and_and stream firm rfl rfl⟩
  case h_14 =>
    rw [unless_eq_ok, Nat.not_le] at ok
    obtain ⟨lt, ok⟩ := ok
    split at ok
    all_goals
      rename_i form
      simp only [verdict_accepts, List.forall_mem_cons, List.not_mem_nil, false_imp_iff, implies_true, and_true, mbz_ok,
        decide_eq_false_iff_not, Nat.not_lt, forall_const] at ok
      obtain ⟨rfl, stream, firm, ⟨rfl, rfl⟩, d, le, imm⟩ := ok
      have reg : fld w 24 6 = (0 : BitVec 3) ++ fld w 24 3 :=
        (fld_eq_zero_append (m := 3) (n := 3)).2 ⟨Nat.lt_succ_of_le le, rfl⟩
    case isTrue =>
      exact ⟨(eq_packM ..).2 ⟨hasTop_hdrOf op, d, rfl, reg, rfl, rfl, one_of_flb lt form, imm⟩,
        accepted_and_and stream firm rfl rfl⟩
    case isFalse =>
      exact ⟨(eq_packM ..).2 ⟨hasTop_hdrOf op, d, rfl, reg, rfl, rfl, zero_of_flb lt form, imm⟩,
        accepted_and_and stream firm rfl rfl⟩
  case h_20 =>
    split at ok
    case h_5 => exact nomatch ok
    all_goals
      rename_i fn
      replace fn := fld_eq_ofNat fn
      simp only [verdict_accepts, List.forall_mem_cons, List.not_mem_nil, false_imp_iff, implies_true, and_true, true_and,
        mbz_ok, Bool.false_eq_true] at ok
      obtain ⟨rfl, stream, firm, clean⟩ := ok
      exact ⟨(eq_packM ..).2 ⟨hasTop_hdrOf op, by simp [hdrOf, fn, clean]⟩, accepted stream firm⟩
  all_goals
    simp only [unless_eq_ok, verdict_accepts, List.forall_mem_cons, List.not_mem_nil, false_imp_iff, implies_true, and_true,
      true_and, mbz_ok, bne_iff_ne, ne_eq, Decidable.not_not, Nat.not_lt, decide_eq_false_iff_not, fln_eq_zero,
      Bool.false_eq_true, forall_const] at ok
  case h_1 | h_2 | h_5 | h_6 | h_7 =>
    obtain ⟨fn, rfl, stream, firm, clean⟩ := ok
    exact ⟨(eq_packM ..).2 ⟨hasTop_hdrOf op, by simp [hdrOf, evTag_read, fn, clean]⟩, accepted stream firm⟩
  case h_4 | h_8 | h_17 | h_19 =>
    obtain ⟨fn, rfl, stream, firm, clean⟩ := ok
    exact ⟨(eq_packM ..).2 ⟨hasTop_hdrOf op, by simp [hdrOf, fn, clean]⟩, accepted stream firm⟩
  case h_12 | h_13 | h_15 =>
    obtain ⟨fn, rfl, stream, firm, ⟨rfl, rfl⟩, clean⟩ := ok
    exact ⟨(eq_packM ..).2 ⟨hasTop_hdrOf op, by simp [hdrOf, fn, clean]⟩, accepted_and_and stream firm rfl rfl⟩
  case h_11 =>
    obtain ⟨fn, rfl, stream, firm, ⟨rfl, rfl⟩, le, z⟩ := ok
    refine ⟨(eq_packM ..).2 ⟨hasTop_hdrOf op, rfl, rfl, slot_written le, rfl, rfl, fn, ?_⟩, accepted_and_and stream firm rfl rfl⟩
    simp [eq_append_iff (n := 7), extract_fld, z]

/-! ### The decoder and the encoder -/

theorem encode_decode (ok : decode x svc w = .ok i) : w = encode i ∧ i.wf x svc = true := by
  unfold decode at ok
  dsimp only at ok
  split_ifs at ok
  · exact encode_decode_control ok
  · exact encode_decode_sync ok
  · exact encode_decode_access ok
  · exact encode_decode_element ok
  · exact encode_decode_vector ok
  · exact encode_decode_matrix ok
  · exact encode_decode_headland ok
  · exact encode_decode_compose ok
  · exact encode_decode_tithe ok
  · exact encode_decode_engine ok

/-- Only instruction words, which `Instr` lists first, are well formed. -/
theorem Instr.ctorIdx_lt_of_wf (wf : i.wf x svc = true) : i.ctorIdx < 180 := by
  apply of_decide_eq_true
  cases i
  all_goals try exact absurd wf Bool.false_ne_true
  all_goals rfl

theorem decode_encode (wf : i.wf x svc = true) : decode x svc (encode i) = .ok i := by
  have word := Instr.ctorIdx_lt_of_wf wf
  have family {lo hi : Nat} (le : lo ≤ i.ctorIdx) (lt : i.ctorIdx < hi) : i.inFamily lo hi = true := decide_eq_true ⟨le, lt⟩
  rcases Nat.lt_or_ge i.ctorIdx 35 with control | h
  · exact decode_encode_control (family (Nat.zero_le _) control) wf
  rcases Nat.lt_or_ge i.ctorIdx 53 with sync | h
  · exact decode_encode_sync (family h sync) wf
  rcases Nat.lt_or_ge i.ctorIdx 67 with access | h
  · exact decode_encode_access (family h access) wf
  rcases Nat.lt_or_ge i.ctorIdx 86 with element | h
  · exact decode_encode_element (family h element) wf
  rcases Nat.lt_or_ge i.ctorIdx 112 with vector | h
  · exact decode_encode_vector (family h vector) wf
  rcases Nat.lt_or_ge i.ctorIdx 125 with matrix | h
  · exact decode_encode_matrix (family h matrix) wf
  rcases Nat.lt_or_ge i.ctorIdx 132 with headland | h
  · exact decode_encode_headland (family h headland) wf
  rcases Nat.lt_or_ge i.ctorIdx 144 with compose | h
  · exact decode_encode_compose (family h compose) wf
  rcases Nat.lt_or_ge i.ctorIdx 151 with tithe | h
  · exact decode_encode_tithe (family h tithe) wf
  · exact decode_encode_engine (family h word) wf

end Sys2Proof

namespace Sys2Proof.Machine

/-- Settles O54: a well-formed instruction is read back from the fields of its encoding, and one that decodes from its
encoding is well formed since every word that decodes is (`encode_decode`). -/
theorem decodeOfEncode : Obligations.DecodeOfEncode := by
  unfold Obligations.DecodeOfEncode
  intro x svc i _
  exact ⟨decode_encode, fun ok => (encode_decode ok).2⟩

/-- Settles O55: opcode by opcode, the checks of the decoder say of every field that it is what the encoder writes. -/
theorem encodeOfDecode : Obligations.EncodeOfDecode := by
  unfold Obligations.EncodeOfDecode
  intro x svc w i ok
  obtain ⟨eq, wf⟩ := encode_decode ok
  exact ⟨eq.symm, wf⟩

end Sys2Proof.Machine
end

section
/-! O53: words written out from the encodings; and O56: the turn of a stream. -/

namespace Sys2Proof.Machine

/-- Settles O53: each word decodes to its instruction by computation. -/
theorem wordsDecode : Obligations.WordsDecode := by
  unfold Obligations.WordsDecode
  refine ⟨?_, ?_, ?_, ?_, ?_, ?_, ?_, ?_, ?_, ?_, ?_, ?_, ?_, ?_, ?_, ?_, ?_⟩ <;> rfl

/-! ### A fault leaves the turn -/

@[simp] theorem turn_beginWord (x : Issuer) (s : State) : (beginWord x s).turn = s.turn := by
  unfold beginWord
  split
  · rfl
  · split <;> exact turn_modCtx ..

@[simp] theorem turn_block (x : Issuer) (s : State) : (block x s).turn = s.turn := turn_modCtx ..

@[simp] theorem turn_reportTh (firm : Bool) (t : TrapInfo) (s : State) : (reportTh firm t s).turn = s.turn := by
  unfold reportTh
  split <;> rfl

@[simp] theorem turn_unlandOne (p : Latch × Elem) (s : State) : (unlandOne p s).turn = s.turn := by
  unfold unlandOne
  split
  · rfl
  · split <;> rfl

theorem turn_foldr_unlandOne (l : List (Latch × Elem)) (s : State) : (l.foldr unlandOne s).turn = s.turn := by
  induction l with
  | nil => rfl
  | cons p t ih => exact (turn_unlandOne ..).trans ih

@[simp] theorem turn_unland (s : State) : (unland s).turn = s.turn := turn_foldr_unlandOne ..

@[simp] theorem turn_dropLatches (x : Issuer) (s : State) : (dropLatches x s).turn = s.turn := by
  unfold dropLatches
  split <;> rfl

@[simp] theorem turn_spadWrite (a : Nat) (b : List Byte) (s : State) : (spadWrite a b s).turn = s.turn := by
  unfold spadWrite
  split <;> rfl

@[simp] theorem turn_saveFrame (x : Issuer) (cause : Word) (pc : Pc) (operand : Word) (s : State) :
    (saveFrame x cause pc operand s).turn = s.turn := by
  unfold saveFrame
  by_cases inC : (x == .c) = true <;> simp only [inC, if_true] <;> split <;> simp

@[simp] theorem turn_enterHandler (x : Issuer) (cause : Word) (pc target : Pc) (s : State) :
    (enterHandler x cause pc target s).turn = s.turn := turn_modCtx ..

@[simp] theorem turn_haltStream (x : Issuer) (cause operand : Word) (pc : Pc) (written : Bool) (s : State) :
    (haltStream x cause operand pc written s).turn = s.turn := turn_modCtx ..

@[simp] theorem turn_holdCore (s : State) : (holdCore s).turn = s.turn := rfl

@[simp] theorem turn_takeTrap (x : Issuer) (t : TrapInfo) (pc : Pc) (s : State) : (takeTrap x t pc s).turn = s.turn := by
  unfold takeTrap
  cases x <;> dsimp only <;> repeat' split
  all_goals simp

@[simp] theorem turn_raise (x : Issuer) (t : TrapInfo) (pc : Pc) (s0 s : State) : (raise x t pc s0 s).turn = s.turn := by
  unfold raise
  split
  · exact turn_block ..
  · exact turn_takeTrap ..

theorem turn_takeSlot (x : Issuer) (s : State) : (takeSlot x s).turn = s.turn := by
  unfold takeSlot
  split <;> rfl

/-- A step that leaves the turn passes it on. -/
theorem advance_of_turn {s : State} {x : Issuer} (turn : s.turn = .issue x) :
    advance s = { s with turn := nextTurn (.issue x) } := by
  rw [advance, turn]

/-! ### The turn of a stream -/

theorem step_of_issue {x : Issuer} {s : State} (idle : s.agenda = []) (on : s.power = true) (booted : s.booted = true)
    (turn : s.turn = .issue x) : step s = issueTurn x s := by
  simp [step, machineStep, idle, on, booted, turnStep, turn]

theorem issueTurn_of_stands {x : Issuer} {s : State} (stands : mayIssue s x = false) :
    issueTurn x s = .next (advance s) := by
  simp [issueTurn, stands]

theorem issueTurn_of_fault {x : Issuer} {s : State} {f : DecodeFault} (may : mayIssue s x = true)
    (bad : fetch s x = .error f) :
    issueTurn x s = .next (advance (faultHere x (decodeTrap (wordOf (ctxOf s x)) f) (takeSlot x s))) := by
  simp [issueTurn, may, bad]

theorem issueTurn_of_lost {x : Issuer} {s : State} {i : Instr} (may : mayIssue s x = true) (ok : fetch s x = .ok i)
    (lost : latchFails s x = true) : issueTurn x s =
      .next (advance (takeTrap .c (trapOf .parityLasting) s.task.c.pc { s with task.latchFail := false })) := by
  simp [issueTurn, may, ok, lost]

theorem issueTurn_of_word {x : Issuer} {s : State} {i : Instr} (may : mayIssue s x = true) (ok : fetch s x = .ok i)
    (kept : latchFails s x = false) : issueTurn x s = advanced (exec i (takeSlot x s)) := by
  simp [issueTurn, may, ok, kept]

theorem takeSlot_eq (x : Issuer) (s : State) :
    takeSlot x s = if x = .kFirm ∧ contested s = true then { s with taken := s.taken + 1 } else s := by
  simp [takeSlot]

/-- A failed latch is C's. -/
theorem issuer_of_latchFails {s : State} {x : Issuer} (lost : latchFails s x = true) : x = .c := by
  simp only [latchFails, Bool.and_eq_true, beq_iff_eq] at lost
  exact lost.1.1

/-- Settles O56: by what the stream finds at its pc. -/
theorem stepRunsDecoded : Obligations.StepRunsDecoded := by
  unfold Obligations.StepRunsDecoded
  intro x s i f
  dsimp only
  have follows : nextTurn (.issue x) =
      (match x with | .kTask => .issue .kFirm | .kFirm => .issue .l | .l => .issue .c | .c => .issue .s | .s => .tick) := by
    cases x <;> rfl
  intro idle on booted turn
  rw [step_of_issue idle on booted turn, ← takeSlot_eq]
  refine ⟨fun may ok lost => ?_, fun may ok kept => ⟨(encode_decode ok).2, ?_⟩, fun may bad => ?_, fun stands => ?_⟩
  · obtain rfl := issuer_of_latchFails lost
    rw [issueTurn_of_lost may ok lost]
    refine congrArg Host.Outcome.next (advance_of_turn (x := .c) ?_)
    exact (turn_takeTrap ..).trans turn
  · rw [issueTurn_of_word may ok kept]
    refine ⟨fun t answers => ?_, fun r answers => ?_, fun r answers => ?_⟩ <;> rw [answers] <;> rfl
  · rw [issueTurn_of_fault may bad]
    refine (congrArg Host.Outcome.next (advance_of_turn (x := x) ?_)).trans ?_
    · exact ((turn_raise ..).trans (turn_takeSlot ..)).trans turn
    · rw [follows]
      cases f <;> rfl
  · refine (issueTurn_of_stands stands).trans (congrArg Host.Outcome.next ?_)
    exact (advance_of_turn turn).trans (congrArg (fun u => { s with turn := u }) follows)

end Sys2Proof.Machine
end

section
/-! O20: the words of the system: `sys`, `trap`, `brk`. -/

namespace Sys2Proof.Machine

/-! ### sys.resume -/

/-- A stream that is not halted is left as it is. -/
theorem resumeStream_of_not_halted {y : Issuer} {s : State} (goes : ∀ w o wr, (ctxOf s y).run ≠ .halted w o wr) :
    resumeStream y s = s := by
  unfold resumeStream
  split
  · next w o wr halted => exact absurd halted (goes w o wr)
  · rfl

/-- A halted stream with nothing to take back goes on. -/
theorem resumeStream_of_halted {y : Issuer} {s : State} {w o : Word} {wr : Bool}
    (halted : (ctxOf s y).run = .halted w o wr) (plain : w.getLsbD 15 = true ∨ y = .l ∨ y = .s) :
    resumeStream y s = setCtx y { ctxOf s y with run := .running, lastIssue := s.now, fresh := false, blocked := false } s := by
  unfold resumeStream
  rw [halted]
  rcases plain with double | rfl | rfl
  · exact if_pos double
  · exact ite_self _
  · exact ite_self _

/-! ### sys.kill -/

/-- Every context and every byte is the same in s and t. -/
def SameStreams (s t : State) : Prop := (∀ x, ctxOf t x = ctxOf s x) ∧ t.mem = s.mem ∧ t.spad = s.spad

theorem SameStreams.trans {s t u : State} (h : SameStreams s t) (g : SameStreams t u) : SameStreams s u :=
  ⟨fun x => (g.1 x).trans (h.1 x), g.2.1.trans h.2.1, g.2.2.trans h.2.2⟩

theorem SameStreams.ite {s t : State} (c : Bool) (h : SameStreams s t) : SameStreams s (if c then t else s) := by
  cases c
  · exact ⟨fun _ => rfl, rfl, rfl⟩
  · exact h

theorem sameStreams_modCp (f : Cp → Cp) (s : State) : SameStreams s (modCp f s) := ⟨fun x => by cases x <;> rfl, rfl, rfl⟩
theorem sameStreams_modFx (f : Fx → Fx) (s : State) : SameStreams s (modFx f s) := ⟨fun x => by cases x <;> rfl, rfl, rfl⟩
theorem sameStreams_modMc (f : Mce → Mce) (s : State) : SameStreams s (modMc f s) := ⟨fun x => by cases x <;> rfl, rfl, rfl⟩

/-- Dropping held commands leaves every context and every byte. -/
theorem sameStreams_dropHeld (s : State) : SameStreams s (dropHeld s) :=
  ((SameStreams.ite _ (sameStreams_modCp ..)).trans (sameStreams_modFx ..)).trans
    (SameStreams.ite _ (sameStreams_modMc ..))

theorem mem_endStream (x : Issuer) (s : State) : (endStream x s).mem = s.mem := by cases x <;> rfl
theorem spad_endStream (x : Issuer) (s : State) : (endStream x s).spad = s.spad := by cases x <;> rfl

/-- The streams of the task end, and nothing happens to firmware and the memories. -/
theorem stopStreams_ends (s : State) : (∀ z ∈ [Issuer.kTask, .l, .c, .s], (ctxOf (stopStreams s) z).run = .ended) ∧
    ctxOf (stopStreams s) .kFirm = ctxOf s .kFirm ∧ (stopStreams s).mem = s.mem ∧ (stopStreams s).spad = s.spad := by
  refine ⟨fun z task => ?_, ?_, foldl_keep State.mem _ (fun t x => mem_endStream x t) _ s,
    foldl_keep State.spad _ (fun t x => spad_endStream x t) _ s⟩
  · simp only [List.mem_cons, List.not_mem_nil, or_false] at task
    rcases task with rfl | rfl | rfl | rfl <;> simp [stopStreams, endStream, ctxOf_modCtx_other]
  · simp [stopStreams, endStream, ctxOf_modCtx_other]

/-- A killed task: its streams have ended, its reason stands, and firmware and the memories are as they were. -/
theorem killTask_ends (reason : BitVec 20) (s : State) :
    (∀ z ∈ [Issuer.kTask, .l, .c, .s], (ctxOf (killTask reason s) z).run = .ended) ∧
    (killTask reason s).task.failed = some reason ∧ (killTask reason s).fEvents = [] ∧
    (killTask reason s).mem = s.mem ∧ (killTask reason s).spad = s.spad ∧
    ctxOf (killTask reason s) .kFirm = ctxOf s .kFirm := by
  obtain ⟨ended, firm, mem, spad⟩ := stopStreams_ends s
  obtain ⟨streams, mem', spad'⟩ := sameStreams_dropHeld (stopStreams s)
  have same (x : Issuer) : ctxOf (killTask reason s) x = ctxOf (stopStreams s) x := by
    rw [← streams, killTask]
    generalize dropHeld (stopStreams s) = t
    cases x <;> rfl
  exact ⟨fun z task => (congrArg Ctx.run (same z)).trans (ended z task), rfl, rfl, mem'.trans mem, spad'.trans spad,
    (same _).trans firm⟩

section
variable {x : Issuer} {s : State} {h : Hdr} {imm : BitVec 20} {st : BitVec 2}

theorem isFirm_eq (turn : s.turn = .issue x) : isFirm s = (x == .kFirm) := by
  rw [isFirm, issuerOf_eq turn]

/-- An instruction whose body finishes. -/
theorem answers_of_done {i : Instr} {reads : List Nat} {body : State → Result} {s' : State} {lat : Nat}
    (runs : exec i s = issue h reads body s) (acts : Acts x h reads s) (done : body s = .done s' lat) :
    Answers i s (fun t => After x s' t (nextPc x s)) := by
  obtain ⟨t, answers, after⟩ := done_answers acts done
  exact ⟨t, runs.trans answers, after⟩

theorem sysResume_answers (firm : x = .kFirm) (acts : Acts x h [] s) :
    Answers (.sysResume h st) s (fun t => After x (resumeStream (streamIssuer st) s) t (nextPc x s)) := by
  refine answers_of_done (lat := 0) (exec_sysResume ..) acts ?_
  simp [isFirm_eq acts.turn, firm]

theorem sysKill_answers (firm : x = .kFirm) (alive : s.task.alive = true) (acts : Acts x h [] s) :
    Answers (.sysKill h imm) s (fun t =>
      After x (logLaunch .taskFailed [s.task.ctx, s.task.lid.toNat, imm.toNat] (killTask imm s)) t (nextPc x s)) := by
  refine answers_of_done (lat := 0) (exec_sysKill ..) acts ?_
  simp [isFirm_eq acts.turn, firm, alive]

theorem ctxOf_logLaunch (k : LogKind) (data : List Nat) (s : State) (y : Issuer) :
    ctxOf (logLaunch k data s) y = ctxOf s y := by
  cases y <;> rfl

/-- What a word of firmware that kills the task leaves. -/
theorem killed_of_after {data : List Nat} {t : State} {pc : Pc}
    (after : After .kFirm (logLaunch .taskFailed data (killTask imm s)) t pc) :
    t.task.failed = some imm ∧ t.fEvents = [] ∧ t.mem = s.mem ∧ t.spad = s.spad ∧
    (∀ z ∈ [Issuer.kTask, .l, .c, .s], (ctxOf t z).run = .ended) ∧ t.firm.regs = s.firm.regs ∧ t.firm.pc = pc := by
  obtain ⟨ended, failed, events, mem, spad, firm⟩ := killTask_ends imm s
  have keeps := keeps_of_rest after.rest
  refine ⟨?_, ?_, (rest_mem after.rest).trans mem, (rest_spad after.rest).trans spad, fun z task => ?_, ?_, after.pc⟩
  · exact (congrArg (fun u => u.task.failed) after.rest).trans failed
  · exact (congrArg State.fEvents after.rest).trans events
  · have other : z ≠ .kFirm := by rintro rfl; simp at task
    rw [keeps.streams z other]
    exact (congrArg Ctx.run (ctxOf_logLaunch ..)).trans (ended z task)
  · exact (congrArg Ctx.regs after.ctx).trans (congrArg (fun c => c.still.regs) firm)

/-! ### Traps -/

/-- A word whose body faults takes nothing. -/
theorem trap_answers {reads : List Nat} {body : State → Result} {t : TrapInfo} (acts : Acts x h reads s)
    (faults : body s = .trap t) : issue h reads body s = .next (faultHere x t s) := by
  rw [issue_acts acts, faults]
  rfl

/-- A word that finishes and then traps. -/
theorem doneTrap_answers {reads : List Nat} {body : State → Result} {t : TrapInfo} {pc : Pc} (acts : Acts x h reads s)
    (traps : body s = .doneTrap s t pc) :
    ∃ e, issue h reads body s = .next (raise x t pc s e) ∧ After x s e pc := by
  rw [issue_acts acts, traps]
  exact ⟨_, rfl, settle_goto_after x (takes x h [] s) (pushesOf x h []) s s pc⟩

theorem debugged_iff (turn : s.turn = .issue x) :
    debugged s = true ↔ x = .kFirm ∧ s.kind = .service ∧ (bootService s).isSome := by
  simp [debugged, isFirm_eq turn, and_assoc]

theorem hasIssued_iff (turn : s.turn = .issue x) : hasIssued s = true ↔ (ctxOf s x).popped = some (ctxOf s x).pc := by
  simp [hasIssued, cur_eq turn]

/-- A word that has issued and waits for an answer stands where it stood. -/
theorem goesOn_stands (waits : Bool) (u : State) : (ctxOf (goesOn x waits u) x).pc = (ctxOf u x).pc := by
  have begun : (ctxOf (beginWord x u) x).pc = (ctxOf u x).pc := by
    unfold beginWord
    split
    · rfl
    · cases x <;> rfl
  rw [goesOn, ctxOf_modCtx_same]
  exact begun

theorem svcStop_setCtx (c : Ctx) (u : State) : (setCtx x c u).svcStop = u.svcStop := by cases x <;> rfl

theorem svcStop_goesOn (waits : Bool) (u : State) : (goesOn x waits u).svcStop = u.svcStop := by
  refine (svcStop_setCtx ..).trans ?_
  unfold beginWord
  split
  · rfl
  · split <;> exact svcStop_setCtx ..

/-- Taking tokens leaves the pc and the debugger's stop. -/
theorem popAll_stands (l : List (Fifo × Nat)) (u : State) :
    (ctxOf (popAll x l u) x).pc = (ctxOf u x).pc ∧ (popAll x l u).svcStop = u.svcStop := by
  unfold popAll
  split
  · exact ⟨rfl, rfl⟩
  · have taken : (takePops l u).svcStop = u.svcStop :=
      foldl_keep State.svcStop (fun t (p : Fifo × Nat) => tokenTake p.1 p.2 t) (fun _ _ => rfl) l u
    exact ⟨by simp [acquire], (svcStop_setCtx ..).trans taken⟩

theorem brk_stops (acts : Acts x h [] s) (debugger : debugged s = true)
    (first : (ctxOf s x).popped ≠ some (ctxOf s x).pc) :
    exec (.brk h imm) s = .next (goesOn x false (popAll x (takes x h [] s) (stopService s))) := by
  have fresh : hasIssued s = false := Bool.eq_false_iff.mpr fun issued => first ((hasIssued_iff acts.turn).mp issued)
  rw [exec_brk, execBrk, issue_acts acts]
  simp only [debugger, fresh, Bool.not_true, Bool.false_eq_true, if_false, settle]

theorem stopService_stands (l : List (Fifo × Nat)) :
    let t := goesOn x false (popAll x l (stopService s))
    (∃ n, s.now < n ∧ t.svcStop = some n) ∧ (ctxOf t x).pc = (ctxOf s x).pc := by
  obtain ⟨pc, stop⟩ := popAll_stands (x := x) l (stopService s)
  refine ⟨⟨_, ?_, (svcStop_goesOn ..).trans stop⟩, ?_⟩
  · omega
  · rw [goesOn_stands, pc]
    cases x <;> rfl

/-- `sys.call` of the task: its guard is true, so it pushes nothing now, and it traps behind itself. -/
theorem sysCall_traps (task : x = .kTask) (acts : Acts x { h with sp := false, sn := false } [rId 1] s)
    (room : overflowOf s (headerPushes h .k) = none) :
    ∃ e, exec (.sysCall h imm) s = .next (raise x ⟨.sysCall, imm.toNat * 2 ^ 16, regOf x s 1⟩ ((ctxOf s x).pc + 8) s e) ∧
      After x s e ((ctxOf s x).pc + 8) := by
  have no_firm : isFirm s = false := by rw [isFirm_eq acts.turn, task]; rfl
  have guard : guardOf s h = true := acts.guard
  rw [exec_sysCall, execSysCall, no_firm, if_pos guard]
  refine doneTrap_answers acts ?_
  simp only [Bool.false_eq_true, if_false, no_firm, room, immDetail, getReg_eq acts.turn, pcOf, cur_eq acts.turn]
  rfl

theorem sysCall_of_firm (firm : x = .kFirm) (acts : Acts x { h with sp := false, sn := false } [] s) :
    exec (.sysCall h imm) s = .next (faultHere x ⟨.priv, 0, 0⟩ s) := by
  have is_firm : isFirm s = true := by rw [isFirm_eq acts.turn, firm]; rfl
  have guard : guardOf s h = true := acts.guard
  rw [exec_sysCall, execSysCall, is_firm, if_pos guard]
  refine trap_answers acts ?_
  simp only [is_firm, if_true]
  rfl

end

/-- Settles O20: each word by what its body answers. -/
theorem systemWordsAct : Obligations.SystemWordsAct := by
  unfold Obligations.SystemWordsAct
  refine ⟨fun x s h imm st mask => ?_, fun x s h imm st => ?_⟩
  · intro y acts
    have named : streamIssuer st = y := by
      dsimp only [y]
      clear y
      revert st
      decide
    refine ⟨fun firm goes => ?_, fun w o wr firm halted plain => ?_, fun firm alive => ?_, ?_⟩
    · have answers := sysResume_answers (st := st) firm acts
      rwa [named, resumeStream_of_not_halted goes] at answers
    · have answers := sysResume_answers (st := st) firm acts
      rwa [named, resumeStream_of_halted halted plain] at answers
    · obtain ⟨t, answers, after⟩ := sysKill_answers (imm := imm) firm alive acts
      subst firm
      exact ⟨t, answers, killed_of_after after⟩
    · refine answers_of_done (lat := 0) (exec_sysTmr ..) acts ?_
      simp only [Nat.mul_comm 256]
  · intro pc detail h' debugger
    refine ⟨fun acts => ⟨?_, fun no => ?_, fun yes first => ?_, fun yes again => ?_⟩, sysCall_traps, sysCall_of_firm,
      fun task acts => ⟨?_, ?_⟩, fun t p e no_k => ?_, fun t p e turn k => ?_⟩
    · rw [exec_trap]
      refine doneTrap_answers acts ?_
      rw [pcOf, cur_eq acts.turn]
      rfl
    · have free : debugged s = false := Bool.eq_false_iff.mpr fun d => no ((debugged_iff acts.turn).mp d)
      rw [exec_brk]
      refine trap_answers acts ?_
      simp only [free, Bool.not_false, if_true]
      rfl
    · exact ⟨_, brk_stops acts ((debugged_iff acts.turn).mpr yes) first, stopService_stands ..⟩
    · refine answers_of_done (lat := 0) (exec_brk ..) acts ?_
      simp [(debugged_iff acts.turn).mpr yes, (hasIssued_iff acts.turn).mpr again]
    · rw [exec_sysResume]
      refine trap_answers acts ?_
      rw [isFirm_eq acts.turn, task]
      rfl
    · rw [exec_sysKill]
      refine trap_answers acts ?_
      rw [isFirm_eq acts.turn, task]
      rfl
    · simp [raise, no_k]
    · refine ⟨_, if_pos k, rfl, Nat.le_max_right _ _, isFirm_eq turn⟩

end Sys2Proof.Machine
end

section
/-! O26: what the element words of C read and send. -/

namespace Sys2Proof.Machine

/-! ### What reading operands leaves -/

/-- Reading operands changes no value of the program, no result in flight, and no queue but the load queues. -/
structure Reads (s t : State) : Prop where
  same    : Same s t
  latches : t.task.latches = s.task.latches
  queues  : ∀ q, (∀ n, q ≠ lqIdx n) → qOf t q = qOf s q

theorem Reads.refl (s : State) : Reads s s := ⟨Same.refl s, rfl, fun _ _ => rfl⟩

theorem Reads.trans {s t u : State} (h : Reads s t) (g : Reads t u) : Reads s u :=
  ⟨h.same.trans g.same, g.latches.trans h.latches, fun q other => (g.queues q other).trans (h.queues q other)⟩

theorem qOf_setQ_same (q : Fin 20) (l : List QSlot) (s : State) : qOf (setQ q l s) q = l := by
  simp [qOf]

theorem qOf_setQ_other {p q : Fin 20} (other : q ≠ p) (l : List QSlot) (s : State) : qOf (setQ q l s) p = qOf s p := by
  simp [qOf, Vector.getElem_set_ne _ _ (fun e => other (Fin.ext e))]

theorem reads_qPop (n : Fin 8) (s : State) : Reads s (qPop (lqIdx n) s) where
  same := ⟨rfl, rfl, fun x => by cases x <;> rfl, rfl, ⟨rfl, rfl⟩, rfl, rfl, rfl, ⟨rfl, rfl⟩⟩
  latches := rfl
  queues _ other := qOf_setQ_other (other n).symm ..

theorem reads_takeSrcs (os : List EOp) (s : State) : Reads s (takeSrcs os s).2.1 := by
  induction os generalizing s with
  | nil => exact Reads.refl s
  | cons o os ih =>
    unfold takeSrcs
    cases o with
    | lq n =>
      dsimp only
      split
      · exact Reads.refl s
      · exact (reads_qPop n s).trans (ih _)
    | e n => exact ih s
    | sq n => exact ih s
    | iq n => exact ih s
    | zero => exact ih s
    | one => exact ih s

theorem sources_ok_iff {os : List EOp} {s s1 : State} {vs : List Elem} :
    sources os s = .ok (vs, s1) ↔ takeSrcs os s = (vs, s1, false, none) := by
  rcases r : takeSrcs os s with ⟨ws, t, missing, poison⟩
  cases missing <;> cases poison <;> simp [sources, r]

theorem reads_sources {os : List EOp} {s s1 : State} {vs : List Elem} (ok : sources os s = .ok (vs, s1)) : Reads s s1 := by
  have read := reads_takeSrcs os s
  rwa [sources_ok_iff.mp ok] at read

/-- Drawing noise changes no value of the program, no result in flight, and no queue. -/
structure Draws (s t : State) : Prop where
  same    : Same s t
  latches : t.task.latches = s.task.latches
  queues  : t.task.queues = s.task.queues

theorem Draws.refl (s : State) : Draws s s := ⟨Same.refl s, rfl, rfl⟩

theorem Draws.trans {s t u : State} (h : Draws s t) (g : Draws t u) : Draws s u :=
  ⟨h.same.trans g.same, g.latches.trans h.latches, g.queues.trans h.queues⟩

theorem Draws.qOf {s t : State} (h : Draws s t) (q : Fin 20) : qOf t q = Machine.qOf s q := by
  rw [Machine.qOf, h.queues]
  rfl

theorem Draws.reads {s t : State} (h : Draws s t) : Reads s t := ⟨h.same, h.latches, fun q _ => h.qOf q⟩

theorem draws_seedChannel (ch : Nat) (n : Noise) (nrp : Bool) (s : State) : Draws s (seedChannel ch n nrp s).2 := by
  have fresh : Draws s (freshSeed s).2 :=
    ⟨⟨rfl, rfl, fun x => by cases x <;> rfl, rfl, ⟨rfl, rfl⟩, rfl, rfl, rfl, ⟨rfl, rfl⟩⟩, rfl, rfl⟩
  unfold seedChannel
  dsimp only
  split
  · exact Draws.refl s
  · split
    · exact fresh.trans ⟨same_logAdd .., rfl, rfl⟩
    · exact fresh

theorem draws_drawFrom (ch : Nat) (n : Noise) (nrp : Bool) (k : Nat) (s : State) : Draws s (drawFrom ch n nrp k s).2.2 := by
  unfold drawFrom
  dsimp only
  generalize (if n.seed.isEmpty then 0 else seedBits - n.pos) = left
  split
  · exact Draws.refl s
  · exact draws_seedChannel ..

theorem draws_drawNoise (ch : Fin 5) (k : Nat) (s : State) : Draws s (drawNoise ch k s).2 := by
  have noise (l : Vector Noise 4) (t : State) : Draws t { t with task.noise := l } :=
    ⟨⟨rfl, rfl, fun x => by cases x <;> rfl, rfl, ⟨rfl, rfl⟩, rfl, rfl, rfl, ⟨rfl, rfl⟩⟩, rfl, rfl⟩
  have firm (n : Noise) (t : State) : Draws t { t with firmNoise := n } :=
    ⟨⟨rfl, rfl, fun x => by cases x <;> rfl, rfl, ⟨rfl, rfl⟩, rfl, rfl, rfl, ⟨rfl, rfl⟩⟩, rfl, rfl⟩
  unfold drawNoise
  split
  · exact (draws_drawFrom ..).trans (noise ..)
  · exact (draws_drawFrom ..).trans (firm ..)

/-- Rounding gives the value for some noise. -/
theorem roundDraw_rounds (ch : Fin 5) (f : Fmt) (r : Rnd) (x : Ex) (s : State) :
    Draws s (roundDraw ch f r x s).2 ∧ ∃ noise, (roundDraw ch f r x s).1 = roundTo f r noise x := by
  unfold roundDraw
  split
  · exact ⟨draws_drawNoise .., _, rfl⟩
  · exact ⟨Draws.refl s, _, rfl⟩

theorem mapE_of_special {s t : State} (same : t.special = s.special) (n : Fin 768) : mapE t n = mapE s n := by
  simp only [State.special, Prod.mk.injEq] at same
  obtain ⟨-, -, -, -, -, ⟨base, size, -, off⟩, -⟩ := same
  simp only [mapE, base, size, off]

/-! ### Sending a result -/

theorem latches_latchQueue (p : Fin 20) (v : Elem) (land lat : Nat) (s : State) :
    (latchQueue p v land lat s).task.latches = s.task.latches ++ [⟨.queue p s.task.nextId, land, v, lat, none⟩] := rfl

theorem qOf_latchQueue_same (p : Fin 20) (v : Elem) (land lat : Nat) (s : State) :
    qOf (latchQueue p v land lat s) p = qOf s p ++ [⟨s.task.nextId, none, none, none⟩] := by
  simp [latchQueue, qReserve, setQ, qOf]

theorem qOf_latchQueue_other {p q : Fin 20} (other : p ≠ q) (v : Elem) (land lat : Nat) (s : State) :
    qOf (latchQueue p v land lat s) q = qOf s q := by
  simp [latchQueue, qReserve, setQ, qOf, Vector.getElem_set_ne _ _ (fun e => other (Fin.ext e))]

theorem latches_latchReg (n : Fin 768) (v : Elem) (land lat : Nat) (s : State) :
    (latchReg n v land lat s).task.latches = s.task.latches ++ [⟨.reg n, land, v, lat, none⟩] := rfl

theorem sqIdx_ne_lqIdx (n m : Fin 8) : sqIdx n ≠ lqIdx m := by
  intro same
  have := congrArg Fin.val same
  simp only [sqIdx, lqIdx] at this
  omega

theorem iqIdx_ne_lqIdx (n : Fin 4) (m : Fin 8) : iqIdx n ≠ lqIdx m := by
  intro same
  have := congrArg Fin.val same
  simp only [iqIdx, lqIdx] at this
  omega

/-- The queues, the results in flight and C's own context hold no value of the program but C's own. -/
theorem keeps_queues (qs : Vector (List QSlot) 20) (next : Nat) (s : State) :
    Keeps .c s { s with task.queues := qs, task.nextId := next } where
  mem _ := rfl
  spad _ := rfl
  streams y other := by
    cases y with
    | c => exact absurd rfl other
    | kTask => rfl
    | kFirm => rfl
    | l => rfl
    | s => rfl
  special := rfl
  elements := ⟨rfl, rfl⟩
  accs := rfl
  furrows := rfl

theorem keeps_latches (ls : List Latch) (c : Ctx) (s : State) :
    Keeps .c s { s with task.latches := ls, task.c := c } where
  mem _ := rfl
  spad _ := rfl
  streams y other := by
    cases y with
    | c => exact absurd rfl other
    | kTask => rfl
    | kFirm => rfl
    | l => rfl
    | s => rfl
  special := rfl
  elements := ⟨rfl, rfl⟩
  accs := rfl
  furrows := rfl

theorem latchQueue_keeps (p : Fin 20) (v : Elem) (land lat : Nat) (s : State) : Keeps .c s (latchQueue p v land lat s) :=
  (keeps_queues (s.task.queues.set p (qOf s p ++ [⟨s.task.nextId, none, none, none⟩])) (s.task.nextId + 1) s).trans
    (keeps_latches (s.task.latches ++ [⟨.queue p s.task.nextId, land, v, lat, none⟩]) s.task.c _)

theorem ctx_latchQueue (p : Fin 20) (v : Elem) (land lat : Nat) (s : State) :
    ctxOf (latchQueue p v land lat s) .c = ctxOf s .c := by
  simp only [latchQueue, qReserve, setQ, ctxOf]

theorem still_latchReg (n : Fin 768) (v : Elem) (land lat : Nat) (s : State) :
    (ctxOf (latchReg n v land lat s) .c).still = (ctxOf s .c).still := rfl

theorem putResult_keeps (o : EOp) (v : Elem) (lat : Nat) (s : State) :
    Keeps .c s (putResult o v lat s) ∧ (ctxOf (putResult o v lat s) .c).still = (ctxOf s .c).still := by
  cases o with
  | e n => exact ⟨keeps_latches .., still_latchReg ..⟩
  | sq n => exact ⟨latchQueue_keeps .., congrArg Ctx.still (ctx_latchQueue ..)⟩
  | iq n => exact ⟨latchQueue_keeps .., congrArg Ctx.still (ctx_latchQueue ..)⟩
  | lq n => exact ⟨Keeps.refl .., rfl⟩
  | zero => exact ⟨Keeps.refl .., rfl⟩
  | one => exact ⟨Keeps.refl .., rfl⟩

theorem qOf_lqIdx_putResult (o : EOp) (v : Elem) (lat : Nat) (s : State) (q : Fin 8) :
    qOf (putResult o v lat s) (lqIdx q) = qOf s (lqIdx q) := by
  cases o with
  | sq n => exact qOf_latchQueue_other (sqIdx_ne_lqIdx n q) ..
  | iq n => exact qOf_latchQueue_other (iqIdx_ne_lqIdx n q) ..
  | e n => rfl
  | lq n => rfl
  | zero => rfl
  | one => rfl

/-- The result goes to the destination. -/
theorem putResult_lands {s s1 : State} (read : Reads s s1) {o : EOp} (dst : o.isDst = true) (v : Elem) (lat : Nat) :
    Landing o v lat s (putResult o v lat s1) := by
  have now := read.same.time.1
  cases o with
  | e n =>
    refine ⟨⟨.reg (mapE s1 n), s1.now + lat, v, lat, none⟩, ?_, rfl, ?_, rfl, ?_⟩
    · rw [putResult, latches_latchReg, read.latches]
    · rw [now]
    · exact congrArg _ (mapE_of_special read.same.special n)
  | sq n =>
    refine ⟨⟨.queue (sqIdx n) s1.task.nextId, s1.now + lat, v, lat, none⟩, ?_, rfl, ?_, rfl, s1.task.nextId, rfl, ?_⟩
    · rw [putResult, latches_latchQueue, read.latches]
    · rw [now]
    · rw [putResult, qOf_latchQueue_same, read.queues _ (sqIdx_ne_lqIdx n)]
  | iq n =>
    refine ⟨⟨.queue (iqIdx n) s1.task.nextId, s1.now + lat, v, lat, none⟩, ?_, rfl, ?_, rfl, s1.task.nextId, rfl, ?_⟩
    · rw [putResult, latches_latchQueue, read.latches]
    · rw [now]
    · rw [putResult, qOf_latchQueue_same, read.queues _ (iqIdx_ne_lqIdx n)]
  | lq n => cases dst
  | zero => cases dst
  | one => cases dst

theorem rest_latches {s t : State} (h : t.rest .c = s.rest .c) : t.task.latches = s.task.latches :=
  congrArg (fun u => u.task.latches) h

theorem rest_qOf {s t : State} (h : t.rest .c = s.rest .c) (q : Fin 20) : qOf t q = qOf s q := by
  have same : qOf (t.rest .c) q = qOf (s.rest .c) q := by rw [h]
  exact same

theorem Landing.of_same {o : EOp} {v : Elem} {lat : Nat} {s t u : State} (landing : Landing o v lat s t)
    (latches : u.task.latches = t.task.latches) (queues : ∀ q, qOf u q = qOf t q) : Landing o v lat s u := by
  unfold Landing at *
  rw [latches]
  cases o <;> simpa only [queues] using landing

section
variable {s s1 : State} {h : Hdr} {o ed : EOp} {srcs : List EOp} {lat : Nat} {vs : List Elem}

/-- What a word of C that sends one result answers. -/
theorem sends_answers {i : Instr} {reads : List Nat} {body : State → Result} {v : Elem}
    (runs : exec i s = issue h reads body s) (acts : Acts .c h reads s) (dst : ed.isDst = true) (read : Reads s s1)
    (done : body s = .done (putResult ed v lat s1) lat) :
    Answers i s (fun t => Unchanged .c (nextPc .c s) s t ∧ Landing ed v lat s t ∧
      ∀ q, qOf t (lqIdx q) = qOf s1 (lqIdx q)) := by
  obtain ⟨t, answers, after⟩ := answers_of_done runs acts done
  obtain ⟨keeps, still⟩ := putResult_keeps ed v lat s1
  refine ⟨t, answers, ?_, ?_, fun q => (rest_qOf after.rest _).trans (qOf_lqIdx_putResult ..)⟩
  · exact Unchanged.of_after after ((read.same.keeps .c).trans keeps) (still.trans (congrArg Ctx.still (read.same.ctx .c)))
  · exact (putResult_lands read dst v lat).of_same (rest_latches after.rest) (rest_qOf after.rest)

theorem elementOp_done {f : State → List Elem → Elem} (latch : latchRoom s = true) (room : destRoom s ed = true)
    (ok : sources srcs s = .ok (vs, s1)) :
    elementOp ed srcs lat f s = .done (putResult ed (f s vs) lat s1) lat := by
  simp [elementOp, latch, room, ok]

theorem eReads_of_ok {p : List Elem × State} (ok : sources srcs s = .ok p) : eReads s srcs = srcs.flatMap (opIds s) := by
  simp [eReads, ok]

/-- The words whose result is a function of their operands. -/
theorem element_answers {i : Instr} {f : List Elem → Elem} (runs : exec i s = element h ed srcs lat f s)
    (acts : Acts .c h (srcs.flatMap (opIds s)) s) (dst : ed.isDst = true) (latch : latchRoom s = true)
    (room : destRoom s ed = true) (ok : sources srcs s = .ok (vs, s1)) :
    Answers i s (fun t => Unchanged .c (nextPc .c s) s t ∧ Landing ed (f vs) lat s t ∧
      ∀ q, qOf t (lqIdx q) = qOf s1 (lqIdx q)) := by
  refine sends_answers (runs.trans rfl) ?_ dst (reads_sources ok) (elementOp_done latch room ok)
  rwa [eReads_of_ok ok]

end

end Sys2Proof.Machine
end

section
/-! O26: operands that can be read, and the element words. -/

namespace Sys2Proof.Machine

/-! ### Operands that can be read -/

/-- An operand that an element word may read. -/
def IsSource (o : EOp) : Prop := (∃ n, o = .e n) ∨ o = .zero ∨ o = .one ∨ ∃ q, o = .lq q

/-- Each load queue holds as many landed elements, none of them poisoned, as the operands name it. -/
def Readable (s : State) (srcs : List EOp) : Prop := (∀ o ∈ srcs, IsSource o) ∧ ∀ q,
  srcs.count (.lq q) ≤ (qPresent s (lqIdx q)).length ∧
  ∀ e ∈ (qPresent s (lqIdx q)).take (srcs.count (.lq q)), e.poison = none

/-- The value of operand k: of a queue, the element behind those that the operands before it pop. -/
def operandOf (s : State) (srcs : List EOp) (k : Nat) : Elem :=
  match srcs.getD k .zero with
  | .e n => s.task.e[mapE s n]
  | .one => 0x3F800000
  | .lq q => (((qPresent s (lqIdx q))[(srcs.take k).count (.lq q)]?).bind (·.val)).getD 0
  | _ => 0

def operandsOf (s : State) (srcs : List EOp) : List Elem := (List.range srcs.length).map (operandOf s srcs)

/-- The state once operand o is read. -/
def afterRead (o : EOp) (s : State) : State :=
  match o with
  | .lq q => qPop (lqIdx q) s
  | _ => s

theorem lqIdx_inj {m n : Fin 8} (same : lqIdx m = lqIdx n) : m = n :=
  Fin.ext (congrArg (fun q : Fin 20 => q.val) same)

theorem qPresent_of_head {s : State} {q : Fin 20} {e : QSlot} (head : qHead s q = some e) :
    qPresent s q = e :: qPresent (qPop q s) q := by
  unfold qHead qPresent at *
  rw [qPop, qOf_setQ_same]
  cases slots : qOf s q with
  | nil => simp [slots] at head
  | cons f rest =>
    rw [slots, List.takeWhile_cons] at head
    rw [List.takeWhile_cons]
    split at head
    · next landed =>
      obtain rfl : f = e := by simpa using head
      rw [if_pos landed]
      rfl
    · cases head

theorem qPresent_qPop_other {s : State} {p q : Fin 20} (other : p ≠ q) : qPresent (qPop p s) q = qPresent s q := by
  rw [qPresent, qPop, qOf_setQ_other other, ← qPresent]

/-- The head of a queue that the first operand names. -/
theorem head_of_readable {s : State} {q : Fin 8} {os : List EOp} (readable : Readable s (.lq q :: os)) :
    ∃ e, qHead s (lqIdx q) = some e ∧ e.poison = none := by
  obtain ⟨held, sound⟩ := readable.2 q
  rw [List.count_cons_self] at held sound
  unfold qHead
  cases present : qPresent s (lqIdx q) with
  | nil => simp [present] at held
  | cons e rest => exact ⟨e, rfl, sound e (by simp [present])⟩

/-- Reading the first operand takes what it names from each queue. -/
theorem present_split {s : State} {o : EOp} {os : List EOp} (readable : Readable s (o :: os)) (q : Fin 8) :
    ∃ l, qPresent s (lqIdx q) = l ++ qPresent (afterRead o s) (lqIdx q) ∧ l.length = if o == .lq q then 1 else 0 := by
  by_cases named : o = .lq q
  · subst named
    obtain ⟨e, head, -⟩ := head_of_readable readable
    exact ⟨[e], qPresent_of_head head, by simp⟩
  · refine ⟨[], ?_, by simp [named]⟩
    cases o with
    | lq p => exact (qPresent_qPop_other fun same => named (congrArg EOp.lq (lqIdx_inj same))).symm
    | e n => rfl
    | sq n => rfl
    | iq n => rfl
    | zero => rfl
    | one => rfl

theorem readable_tail {s : State} {o : EOp} {os : List EOp} (readable : Readable s (o :: os)) :
    Readable (afterRead o s) os := by
  refine ⟨fun p inside => readable.1 p (List.mem_cons_of_mem _ inside), fun q => ?_⟩
  obtain ⟨held, sound⟩ := readable.2 q
  obtain ⟨l, split_, length⟩ := present_split readable q
  rw [List.count_cons, ← length] at held sound
  rw [split_] at held sound
  rw [List.length_append] at held
  refine ⟨by omega, fun e inside => sound e ?_⟩
  rw [Nat.add_comm, List.take_length_add_append]
  exact List.mem_append_right _ inside

theorem element_afterRead (o : EOp) (s : State) (n : Fin 768) :
    (afterRead o s).task.e[mapE (afterRead o s) n] = s.task.e[mapE s n] := by
  cases o <;> rfl

theorem operandOf_succ {s : State} {o : EOp} {os : List EOp} (readable : Readable s (o :: os)) (k : Nat) :
    operandOf s (o :: os) (k + 1) = operandOf (afterRead o s) os k := by
  unfold operandOf
  rw [List.getD_cons_succ]
  cases os.getD k .zero with
  | e n => exact (element_afterRead o s n).symm
  | lq q =>
    obtain ⟨l, split_, length⟩ := present_split readable q
    dsimp only
    rw [List.take_succ_cons, List.count_cons, ← length, split_, Nat.add_comm, List.getElem?_append_right (by omega)]
    simp
  | sq n => rfl
  | iq n => rfl
  | zero => rfl
  | one => rfl

theorem operandsOf_cons {s : State} {o : EOp} {os : List EOp} (readable : Readable s (o :: os)) :
    operandsOf s (o :: os) = operandOf s (o :: os) 0 :: operandsOf (afterRead o s) os := by
  rw [operandsOf, List.length_cons, List.range_succ_eq_map, List.map_cons, List.map_map]
  exact congrArg _ (List.map_congr_left fun k _ => operandOf_succ readable k)

/-- Operands that can be read are read, in their order. -/
theorem takeSrcs_readable {srcs : List EOp} {s : State} (readable : Readable s srcs) :
    ∃ s1, takeSrcs srcs s = (operandsOf s srcs, s1, false, none) := by
  induction srcs generalizing s with
  | nil => exact ⟨s, rfl⟩
  | cons o os ih =>
    obtain ⟨s1, rest⟩ := ih (readable_tail readable)
    refine ⟨s1, ?_⟩
    rw [operandsOf_cons readable]
    unfold takeSrcs
    rcases readable.1 o List.mem_cons_self with ⟨n, rfl⟩ | rfl | rfl | ⟨q, rfl⟩
    · exact congrArg (fun r => (getE s n :: r.1, r.2)) rest
    · exact congrArg (fun r => (0 :: r.1, r.2)) rest
    · exact congrArg (fun r => (0x3F800000 :: r.1, r.2)) rest
    · obtain ⟨e, head, sound⟩ := head_of_readable readable
      have value : operandOf s (.lq q :: os) 0 = e.val.getD 0 := by
        simp [operandOf, qPresent_of_head head]
      simp only [head, value, sound]
      exact congrArg (fun r => (e.val.getD 0 :: r.1, r.2.1, r.2.2.1, r.2.2.2)) rest

theorem sources_readable {srcs : List EOp} {s : State} (readable : Readable s srcs) :
    ∃ s1, sources srcs s = .ok (operandsOf s srcs, s1) := by
  obtain ⟨s1, read⟩ := takeSrcs_readable readable
  exact ⟨s1, sources_ok_iff.mpr read⟩

/-- C has a latch free, and the destination has room. -/
def HasRoom (s : State) (o : EOp) : Prop :=
  (s.task.latches.filter (fun l => decide (s.now < l.land))).length < 8 ∧
    match o with
    | .e _ => True
    | .sq n => (qOf s (sqIdx n)).length < 64
    | .iq n => (qOf s (iqIdx n)).length < 64
    | _ => False

theorem room_of_hasRoom {s : State} {o : EOp} (room : HasRoom s o) :
    o.isDst = true ∧ latchRoom s = true ∧ destRoom s o = true := by
  obtain ⟨latch, dest⟩ := room
  refine ⟨?_, decide_eq_true latch, ?_⟩
  · cases o with
    | e n => rfl
    | sq n => rfl
    | iq n => rfl
    | lq n => cases dest
    | zero => cases dest
    | one => cases dest
  · cases o with
    | sq n => exact decide_eq_true dest
    | iq n => exact decide_eq_true dest
    | e n => rfl
    | lq n => rfl
    | zero => rfl
    | one => rfl

/-! ### One operand -/

theorem sources_lq_empty {s : State} {q : Fin 8} (none_ : qPresent s (lqIdx q) = []) : sources [.lq q] s = .error .wait := by
  simp [sources, takeSrcs, qHead, none_]

theorem sources_lq_head {s : State} {q : Fin 8} {e : QSlot} {rest : List QSlot} {v : Elem}
    (slots : qOf s (lqIdx q) = e :: rest) (value : e.val = some v) :
    (∀ va, e.poison = some va → sources [.lq q] s = .error (.ecc va)) ∧
    (e.poison = none → sources [.lq q] s = .ok ([v], setQ (lqIdx q) rest s)) := by
  have head : qHead s (lqIdx q) = some e := by simp [qHead, qPresent, slots, value]
  refine ⟨fun va poison => ?_, fun sound => ?_⟩
  · simp [sources, takeSrcs, head, poison]
  · simp [sources, takeSrcs, head, sound, value, qPop, slots]

/-- The rotating region, where it lies within the registers (R188). -/
theorem mapE_val {s : State} (inside : 8 * s.task.rbase.toNat + 8 * s.task.rsize.toNat ≤ 768) (n : Fin 768) :
    (mapE s n).val = if 0 < 8 * s.task.rsize.toNat ∧ 8 * s.task.rbase.toNat ≤ n.val ∧
      n.val < 8 * s.task.rbase.toNat + 8 * s.task.rsize.toNat then
      8 * s.task.rbase.toNat + (n.val - 8 * s.task.rbase.toNat + s.task.roff.toNat) % (8 * s.task.rsize.toNat) else n.val := by
  unfold mapE
  generalize 8 * s.task.rbase.toNat = rb at *
  generalize 8 * s.task.rsize.toNat = rs at *
  by_cases moves : 0 < rs ∧ rb ≤ n.val ∧ n.val < rb + rs
  · have small := Nat.mod_lt (n.val - rb + s.task.roff.toNat) moves.1
    have condition : (0 < rs && rb ≤ n.val && n.val < rb + rs) = true := by simp [moves]
    dsimp only
    rw [if_pos moves, if_pos condition, Fin.val_ofNat, Nat.mod_eq_of_lt (by omega)]
  · have condition : ¬(0 < rs && rb ≤ n.val && n.val < rb + rs) = true := by
      simpa [and_assoc] using moves
    dsimp only
    rw [if_neg moves, if_neg condition]

/-! ### Compares -/

/-- What has been read before a predicate is written changes nothing. -/
theorem WrotePred.of_reads {s s1 t : State} {p : BitVec 4} {v : Bool} {pc : Pc} (wrote : WrotePred .c p v pc s1 t)
    (read : Reads s s1) : WrotePred .c p v pc s t where
  value := wrote.value
  others q other := by rw [wrote.others q other, read.same.ctx]
  ctx := by rw [← read.same.ctx]; exact wrote.ctx
  keeps := (read.same.keeps .c).trans wrote.keeps
  pc := wrote.pc

section
variable {s s1 : State} {h : Hdr} {ed : EOp} {srcs : List EOp} {lat : Nat} {vs : List Elem}

/-- A compare of C writes the relation of its operands. -/
theorem compare_answers {i : Instr} {p : BitVec 4} {f : List Elem → Bool}
    (runs : exec i s = issue h (eReads s srcs) (compareOp p srcs f) s)
    (acts : Acts .c h (srcs.flatMap (opIds s)) s) (ok : sources srcs s = .ok (vs, s1)) :
    Answers i s (WrotePred .c p (f vs) (nextPc .c s) s) := by
  have read := reads_sources ok
  have reads : Acts .c h (eReads s srcs) s := by rwa [eReads_of_ok ok]
  obtain ⟨t, answers, after⟩ := answers_of_done runs reads (s' := setPred p (f vs) s1) (lat := 1) (by simp [compareOp, ok])
  have turn : s1.turn = .issue .c := read.same.time.2.trans acts.turn
  exact ⟨t, answers, (after.wrotePred (issuerOf_eq turn)).of_reads read⟩

theorem compare_of_readable {i : Instr} {p : BitVec 4} {f : List Elem → Bool}
    (runs : exec i s = issue h (eReads s srcs) (compareOp p srcs f) s)
    (acts : Acts .c h (srcs.flatMap (opIds s)) s) (readable : Readable s srcs) :
    Answers i s (WrotePred .c p (f (operandsOf s srcs)) (nextPc .c s) s) := by
  obtain ⟨s1, ok⟩ := sources_readable readable
  exact compare_answers runs acts ok

/-- The relations of R93 say what their names say. -/
theorem cmpRel_eq (ic : CmpCc) (a b : Elem) : (ic = .eq → cmpRel ic a b = decide (a = b)) ∧
    (ic = .ne → cmpRel ic a b = decide (a ≠ b)) ∧ (ic = .lt → cmpRel ic a b = decide (a.toInt < b.toInt)) ∧
    (ic = .ge → cmpRel ic a b = decide (b.toInt ≤ a.toInt)) ∧ (ic = .ltz → cmpRel ic a b = decide (a.toNat < b.toNat)) ∧
    (ic = .gez → cmpRel ic a b = decide (b.toNat ≤ a.toNat)) := by
  refine ⟨?_, ?_, ?_, ?_, ?_, ?_⟩ <;> rintro rfl
  · exact beq_eq_decide ..
  · simp [cmpRel, bne, beq_eq_decide]
  · exact BitVec.slt_eq_decide ..
  · simp [cmpRel, BitVec.slt_eq_decide, ← decide_not]
  · rfl
  · simp [cmpRel, BitVec.ult_eq_decide, ← decide_not]

/-! ### The words that send a result -/

theorem element_of_readable {i : Instr} {f : List Elem → Elem} (runs : exec i s = element h ed srcs lat f s)
    (acts : Acts .c h (srcs.flatMap (opIds s)) s) (readable : Readable s srcs) (room : HasRoom s ed) :
    Answers i s (fun t => Unchanged .c (nextPc .c s) s t ∧ Landing ed (f (operandsOf s srcs)) lat s t) := by
  obtain ⟨s1, ok⟩ := sources_readable readable
  obtain ⟨dst, latch, dest⟩ := room_of_hasRoom room
  obtain ⟨t, answers, same, landing, -⟩ := element_answers runs acts dst latch dest ok
  exact ⟨t, answers, same, landing⟩

variable {ea eb : EOp}

theorem fcvt_answers {dst src : Fmt} {r : Rnd} (acts : Acts .c h ([ea].flatMap (opIds s)) s) (is_dst : ed.isDst = true)
    (latch : latchRoom s = true) (room : destRoom s ed = true) (ok : sources [ea] s = .ok (vs, s1)) :
    Answers (.fcvt h dst src r ed ea) s (fun t => Unchanged .c (nextPc .c s) s t ∧
      Landing ed (BitVec.ofNat 32 (roundDraw 1 dst r (elemVal src (vs.getD 0 0).toNat) s1).1) 2 s t ∧
      ∀ q, qOf t (lqIdx q) = qOf s1 (lqIdx q)) := by
  obtain ⟨drawn, -⟩ := roundDraw_rounds 1 dst r (elemVal src (vs.getD 0 0).toNat) s1
  have reads : Acts .c h (eReads s [ea]) s := by rwa [eReads_of_ok ok]
  obtain ⟨t, answers, same, landing, queues⟩ := sends_answers
    (v := BitVec.ofNat 32 (roundDraw 1 dst r (elemVal src (vs.getD 0 0).toNat) s1).1) (lat := 2)
    (exec_fcvt h dst src r ed ea s) reads is_dst ((reads_sources ok).trans drawn.reads)
    (by simp [latch, room, ok, arg])
  exact ⟨t, answers, same, landing, fun q => (queues q).trans (drawn.qOf _)⟩

/-- What `esel` answers. -/
theorem esel_answers (acts : Acts .c (Hdr.noGuard h) (pId h.pq :: [ea, eb].flatMap (opIds s)) s) (dst : ed.isDst = true)
    (latch : latchRoom s = true) (room : destRoom s ed = true) (ok : sources [ea, eb] s = .ok (vs, s1)) :
    Answers (.esel h ed ea eb) s (fun t => Unchanged .c (nextPc .c s) s t ∧
      Landing ed (if ctxPred (ctxOf s .c) h.pq != h.neg then vs.getD 0 0 else vs.getD 1 0) 1 s t) := by
  have runs : exec (.esel h ed ea eb) s = issue (Hdr.noGuard h) (pId h.pq :: [ea, eb].flatMap (opIds s))
      (elementOp ed [ea, eb] 1 (fun s vs => if guardOf s h then arg vs 0 else arg vs 1)) s := by
    rw [exec_esel, execEsel, eReads_of_ok ok, ok]
  obtain ⟨t, answers, same, landing, -⟩ := sends_answers runs acts dst (reads_sources ok) (elementOp_done latch room ok)
  refine ⟨t, answers, same, ?_⟩
  have guard : guardOf s h = (ctxPred (ctxOf s .c) h.pq != h.neg) := by rw [guardOf, getPred, cur_eq acts.turn]
  rwa [guard] at landing

end

end Sys2Proof.Machine
end

section
/-! O26: the element words of C. -/

namespace Sys2Proof.Machine

section
variable {s s1 : State} {h : Hdr} {ed ea eb : EOp} {vs : List Elem}

theorem exec_fop_element (fn : FopFn) : exec (.fop h fn ed ea eb) s =
    element h ed (if fn = .fabs ∨ fn = .fneg then [ea] else [ea, eb]) 4 (fun vs => fopFn fn (arg vs 0) (arg vs 1)) s := by
  cases fn <;> rfl

/-- The value of a `fop` whose operands can be read: a unary function reads one. -/
theorem fopFn_operands (fn : FopFn) :
    let vs := operandsOf s (if fn = .fabs ∨ fn = .fneg then [ea] else [ea, eb])
    fopFn fn (arg vs 0) (arg vs 1) = fopFn fn (operandOf s [ea, eb] 0)
      (if fn = .fabs ∨ fn = .fneg then 0 else operandOf s [ea, eb] 1) := by
  cases fn <;> rfl

theorem exec_elih_element (n : Fin 768) (imm : BitVec 14) : exec (.elih h n imm) s =
    element h (.e n) [.e n] 1 (fun vs => imm ++ (vs.getD 0 0).setWidth 18) s := by
  rw [exec_elih, execElih]
  simp only [arg, BitVec.setWidth_eq_extractLsb' (show 18 ≤ 32 by decide)]

theorem eli_waits {imm : BitVec 18} (acts : Acts .c h [] s) (full : latchRoom s = false) :
    exec (.eli h ed imm) s = .next (block .c s) := by
  rw [exec_eli, execEli, element, eReads_of_ok (p := ([], s)) rfl, List.flatMap_nil, issue_acts acts]
  simp [elementOp, full, settle]

end

/-- Settles O26: each word by its operands and its one result. -/
theorem elementWordsReadAndSend : Obligations.ElementWordsReadAndSend := by
  unfold Obligations.ElementWordsReadAndSend
  refine ⟨fun s s1 h ed ea eb vs fn ifn c r dst src i18 i14 n => ?_, fun s n q e => ?_,
    fun s s1 h p ea eb a b fc ic => ?_, fun s h ed ea eb q fn ifn r dst src p fc ic i18 i14 n => ?_⟩
  · intro x sends addend
    have by_function {i : Instr} {o : EOp} {srcs : List EOp} {lat : Nat} {f : List Elem → Elem}
        (runs : exec i s = element h o srcs lat f s) : sends i o srcs lat f := fun acts dst latch room ok =>
      element_answers runs acts dst latch room ok
    have is_addend : addendOp c ed = addend := by cases c <;> rfl
    refine ⟨by_function (exec_fop_element fn), ?_, ?_, by_function (exec_frcp ..), by_function (exec_frsq ..),
      by_function (exec_frfr ..), by_function (exec_frfs ..), by_function (exec_iop ..), fcvt_answers,
      by_function (exec_eli ..), by_function (exec_elih_element ..), by_function (exec_emov ..), esel_answers, eli_waits⟩
    · rw [← is_addend]
      exact by_function (exec_fma ..)
    · rw [← is_addend]
      exact by_function (exec_fnma ..)
  · intro rb rs
    refine ⟨rfl, rfl, rfl, fun inside => mapE_val inside n, sources_lq_empty, fun rest v slots value => ?_⟩
    obtain ⟨poisoned, sound⟩ := sources_lq_head slots value
    cases poison : e.poison with
    | some va => exact poisoned va poison
    | none => exact sound poison
  · intro x relation acts ok
    have is_relation : cmpRel ic a b = relation := by
      obtain ⟨eq, ne, lt, ge, ltz, gez⟩ := cmpRel_eq ic a b
      cases ic
      · exact eq rfl
      · exact ne rfl
      · exact lt rfl
      · exact ge rfl
      · exact ltz rfl
      · exact gez rfl
    refine ⟨?_, compare_answers (exec_fcmp ..) acts ok⟩
    rw [← is_relation]
    exact compare_answers (exec_icmp ..) acts ok
  · intro x isSource present readable operand room sends two a
    have by_function {i : Instr} {o : EOp} {srcs : List EOp} {lat : Nat} {f : List Elem → Elem}
        (runs : exec i s = element h o srcs lat f s) : sends i o srcs lat (· = f (operandsOf s srcs)) :=
      fun acts ok free => ⟨_, rfl, element_of_readable runs acts ok free⟩
    refine ⟨?_, by_function (exec_fma h .ed ed ea eb s), by_function (exec_fma h (.lq q) ed ea eb s),
      by_function (exec_fnma h .ed ed ea eb s), by_function (exec_fnma h (.lq q) ed ea eb s), by_function (exec_frcp ..), by_function (exec_frsq ..), by_function (exec_frfr ..),
      by_function (exec_frfs ..), fun acts ok free => ?_, by_function (exec_iop ..), by_function (exec_eli ..),
      by_function (exec_elih_element ..), by_function (exec_emov ..), fun acts ok free => ?_, fun acts ok => ⟨?_, ?_⟩⟩
    · exact (fopFn_operands (s := s) (ea := ea) (eb := eb) fn) ▸ by_function (exec_fop_element fn)
    · obtain ⟨s1, read⟩ := sources_readable ok
      obtain ⟨is_dst, latch, dest⟩ := room_of_hasRoom free
      obtain ⟨t, answers, same, landing, -⟩ := fcvt_answers (dst := dst) (src := src) (r := r) acts is_dst latch dest read
      obtain ⟨-, noise, rounds⟩ := roundDraw_rounds 1 dst r (elemVal src ((operandsOf s [ea]).getD 0 0).toNat) s1
      exact ⟨_, ⟨noise, congrArg (BitVec.ofNat 32) rounds⟩, t, answers, same, landing⟩
    · obtain ⟨s1, read⟩ := sources_readable ok
      obtain ⟨is_dst, latch, dest⟩ := room_of_hasRoom free
      exact esel_answers acts is_dst latch dest read
    · exact compare_of_readable (exec_fcmp ..) acts ok
    · exact compare_of_readable (exec_icmp ..) acts ok

end Sys2Proof.Machine
end

section
/-! Instruction addresses: what moves no stream and brings no fault before the checker. -/

namespace Sys2Proof.Machine

/-- Every stream stands where it stood, and nothing has come before the checker or into the save area. -/
abbrev SamePlaces (s t : State) : Prop :=
  t.task.k.pc = s.task.k.pc ∧ t.task.l.pc = s.task.l.pc ∧ t.task.c.pc = s.task.c.pc ∧ t.task.s.pc = s.task.s.pc ∧
  t.firm.pc = s.firm.pc ∧ t.checkq = s.checkq ∧
  t.saves.map (fun i => i.task) = s.saves.map (fun i => i.task)

theorem SamePlaces.refl (s : State) : SamePlaces s s := ⟨rfl, rfl, rfl, rfl, rfl, rfl, rfl⟩

theorem SamePlaces.trans {s t u : State} (h : SamePlaces s t) (g : SamePlaces t u) : SamePlaces s u := by
  simp only [SamePlaces] at *
  simp [g, h]

theorem State.Aligned.same {s t : State} (aligned : s.Aligned) (same : SamePlaces s t) : t.Aligned := by
  obtain ⟨k, l, c, st, firm, checkq, saves⟩ := same
  have images : (∀ i ∈ t.saves, i.task.Aligned) ↔ ∀ i ∈ s.saves, i.task.Aligned := by
    have tasks (l : List SaveImage) : (∀ i ∈ l, i.task.Aligned) ↔ ∀ k ∈ l.map (fun i => i.task), k.Aligned := by simp
    rw [tasks, tasks, saves]
  rw [State.Aligned, Task.Aligned, checkq, images]
  simpa only [State.Aligned, Task.Aligned, Ctx.Aligned, k, l, c, st, firm] using aligned

/-- A result of a body that moves no stream itself and brings nothing before the checker. -/
def Result.Stays (s : State) : Result → Prop
  | .done t _ | .async t | .wait t | .waitIssued t | .waitReply t | .chunk t | .trapKeep t _ | .trapIssued t _ | .jumped t =>
    SamePlaces s t
  | .goto t pc | .doneTrap t _ pc => SamePlaces s t ∧ pc.toNat % 8 = 0
  | .trap _ => True

section
variable {s t : State} {f : TrapInfo} {pc : Pc} {lat : Nat}

@[simp] theorem Result.stays_done : (Result.done t lat).Stays s ↔ SamePlaces s t := Iff.rfl
@[simp] theorem Result.stays_async : (Result.async t).Stays s ↔ SamePlaces s t := Iff.rfl
@[simp] theorem Result.stays_wait : (Result.wait t).Stays s ↔ SamePlaces s t := Iff.rfl
@[simp] theorem Result.stays_waitIssued : (Result.waitIssued t).Stays s ↔ SamePlaces s t := Iff.rfl
@[simp] theorem Result.stays_waitReply : (Result.waitReply t).Stays s ↔ SamePlaces s t := Iff.rfl
@[simp] theorem Result.stays_chunk : (Result.chunk t).Stays s ↔ SamePlaces s t := Iff.rfl
@[simp] theorem Result.stays_trapKeep : (Result.trapKeep t f).Stays s ↔ SamePlaces s t := Iff.rfl
@[simp] theorem Result.stays_trapIssued : (Result.trapIssued t f).Stays s ↔ SamePlaces s t := Iff.rfl
@[simp] theorem Result.stays_jumped : (Result.jumped t).Stays s ↔ SamePlaces s t := Iff.rfl
@[simp] theorem Result.stays_goto : (Result.goto t pc).Stays s ↔ SamePlaces s t ∧ pc.toNat % 8 = 0 := Iff.rfl
@[simp] theorem Result.stays_doneTrap : (Result.doneTrap t f pc).Stays s ↔ SamePlaces s t ∧ pc.toNat % 8 = 0 := Iff.rfl
@[simp] theorem Result.stays_trap : (Result.trap f).Stays s := trivial

end

theorem Result.Stays.after {s t : State} {r : Result} (same : SamePlaces s t) (stays : r.Stays t) : r.Stays s := by
  cases r <;> first
    | exact same.trans stays
    | exact ⟨same.trans stays.1, stays.2⟩
    | trivial

@[simp] theorem foldl_places {α : Type} (f : State → α → State) (h : ∀ s a, SamePlaces s (f s a)) (l : List α) (s : State) :
    SamePlaces s (l.foldl f s) := by
  induction l generalizing s with
  | nil => exact .refl s
  | cons a t ih => exact (h s a).trans (ih (f s a))

theorem foldr_places {α : Type} (f : α → State → State) (h : ∀ a s, SamePlaces s (f a s)) (l : List α) (s : State) :
    SamePlaces s (l.foldr f s) := by
  induction l with
  | nil => exact .refl s
  | cons a t ih => exact ih.trans (h a _)

theorem foldl_snd_places {α β : Type} (f : β × State → α → β × State) (h : ∀ p a, SamePlaces p.2 (f p a).2) (l : List α)
    (p : β × State) : SamePlaces p.2 (l.foldl f p).2 := by
  induction l generalizing p with
  | nil => exact .refl p.2
  | cons a t ih => exact (h p a).trans (ih (f p a))

@[simp] theorem setCtx_places (x : Issuer) (c : Ctx) (s : State) (h : c.pc = (ctxOf s x).pc) : SamePlaces s (setCtx x c s) := by
  cases x <;> simp_all [setCtx, SamePlaces, ctxOf]

@[simp] theorem modCtx_places (x : Issuer) (f : Ctx → Ctx) (s : State) (h : ∀ c, (f c).pc = c.pc) :
    SamePlaces s (modCtx x f s) := setCtx_places _ _ _ (h _)

@[simp] theorem forRange_places (lo hi : Nat) (f : Nat → State → State) (s : State) (h : ∀ n s, SamePlaces s (f n s)) :
    SamePlaces s (forRange lo hi f s) := foldl_places _ (fun _ _ => h _ _) _ _

end Sys2Proof.Machine
end

section
/-! Instruction addresses: operations that move no stream, one rule each, in the order of the model. An operation is unfolded
here once; the rules of those that it calls are simp lemmas, and a branch is closed by them. -/

namespace Sys2Proof.Machine

/-! ### Registers and predicates (R14) -/

@[simp] theorem rememberAll_pc (ws : List (Nat × Word)) (lat : Nat) (c : Ctx) :
    (rememberAll ws lat c).pc = c.pc := by simp [rememberAll]

@[simp] theorem remember_pc (id : Nat) (v : Word) (lat : Nat) (c : Ctx) :
    (remember id v lat c).pc = c.pc := by simp [remember]

@[simp] theorem ctxSetReg_pc (n : BitVec 6) (v : Word) (now lat : Nat) (c : Ctx) : (ctxSetReg n v now lat c).pc = c.pc := by
  unfold ctxSetReg
  split <;> simp

@[simp] theorem setReg_places (n : BitVec 6) (v : Word) (lat : Nat) (s : State) :
    SamePlaces s (setReg n v lat s) := by simp [setReg, SamePlaces]

@[simp] theorem ctxSetPred_pc (n : BitVec 4) (v : Bool) (c : Ctx) : (ctxSetPred n v c).pc = c.pc := by
  unfold ctxSetPred
  split <;> simp

@[simp] theorem setPred_places (n : BitVec 4) (v : Bool) (s : State) :
    SamePlaces s (setPred n v s) := by simp [setPred, SamePlaces]

@[simp] theorem setLc_places (n : BitVec 3) (v : BitVec 32) (s : State) :
    SamePlaces s (setLc n v s) := by simp [setLc, SamePlaces]

@[simp] theorem setLs_places (n : BitVec 3) (v : Pc) (s : State) : SamePlaces s (setLs n v s) := by simp [setLs, SamePlaces]

/-! ### Time, free values, the event log -/

@[simp] theorem logFrom_places (source : Nat) (k : LogKind) (data : List Nat) (s : State) :
    SamePlaces s (logFrom source k data s) := by simp [logFrom, SamePlaces]

@[simp] theorem logAdd_places (k : LogKind) (data : List Nat) (s : State) :
    SamePlaces s (logAdd k data s) := by simp [logAdd, SamePlaces]

@[simp] theorem logLaunch_places (k : LogKind) (data : List Nat) (s : State) :
    SamePlaces s (logLaunch k data s) := by simp [logLaunch, SamePlaces]

@[simp] theorem journal_places (die : Nat) (r : JournalRec) (s : State) :
    SamePlaces s (journal die r s) := by simp [journal, SamePlaces]

@[simp] theorem notify_places (source : Nat) (n : Notice) (s : State) :
    SamePlaces s (notify source n s) := by simp [notify, SamePlaces]

/-! ### Ports (R17, R114) -/

@[simp] theorem fireWfe_pc (c : Ctx) : (fireWfe c).pc = c.pc := by
  unfold fireWfe
  split <;> simp

@[simp] theorem portPut_places (p : Port) (w : Word) (s : State) :
    SamePlaces s (portPut p w s) := by simp [portPut, SamePlaces]

@[simp] theorem portEvent_places (p : Port) (x1 : Nat) (x2 : Word) (s : State) : SamePlaces s (portEvent p x1 x2 s) := by
  unfold portEvent
  split <;> simp [SamePlaces]

@[simp] theorem portDrop_places (p : Port) (s : State) : SamePlaces s (portDrop p s) := by simp [portDrop, SamePlaces]

/-! ### Tokens (R39, R122 to R125) -/

@[simp] theorem tokenAdd_places (f : Fifo) (n : Nat) (s : State) :
    SamePlaces s (tokenAdd f n s) := by simp [tokenAdd, SamePlaces]

@[simp] theorem tokenTake_places (f : Fifo) (n : Nat) (s : State) :
    SamePlaces s (tokenTake f n s) := by simp [tokenTake, SamePlaces]

@[simp] theorem takePops_places (l : List (Fifo × Nat)) (s : State) :
    SamePlaces s (takePops l s) := by simp [takePops, SamePlaces]

/-! ### Queues (R16, R162 to R164, R194) -/

@[simp] theorem qPop_places (q : Fin 20) (s : State) : SamePlaces s (qPop q s) := by simp [qPop, SamePlaces]

@[simp] theorem qReserve_places (q : Fin 20) (load : Option Nat) (s : State) :
    SamePlaces s (qReserve q load s) := by simp [qReserve, SamePlaces]

@[simp] theorem qFill_places (q : Fin 20) (id : Nat) (v : Elem) (poison : Option Word) (s : State) :
    SamePlaces s (qFill q id v poison s) := by simp [qFill, SamePlaces]

@[simp] theorem qRelease_places (q : Fin 20) (id : Nat) (s : State) :
    SamePlaces s (qRelease q id s) := by simp [qRelease, SamePlaces]

/-! ### The scratchpad (R19, R82, R106, R157, R183, R440) -/

@[simp] theorem spadWrite_places (phys : Nat) (bs : List Byte) (s : State) : SamePlaces s (spadWrite phys bs s) := by
  unfold spadWrite
  split <;> simp [SamePlaces]

@[simp] theorem spadPoison_places (phys n : Nat) (s : State) :
    SamePlaces s (spadPoison phys n s) := by simp [spadPoison, SamePlaces]

@[simp] theorem poisonBytes_places (phys : Nat) (l : List Bool) (s : State) : SamePlaces s (poisonBytes phys l s) := by
  induction l generalizing phys s with
  | nil => exact .refl s
  | cons b t ih =>
    refine .trans ?_ (ih _ _)
    split
    · exact spadPoison_places ..
    · exact .refl s

@[simp] theorem touchGuards_places (off phys len : Nat) (s : State) : SamePlaces s (touchGuards off phys len s) := by
  unfold touchGuards
  (repeat' split) <;> simp [SamePlaces]

/-! ### Memory outside the core -/

@[simp] theorem snoop_places (ss : List Seg) (s : State) : SamePlaces s (snoop ss s) := by simp [snoop, SamePlaces]

@[simp] theorem memPut_places (ss : List Seg) (bs : List Byte) (s : State) :
    SamePlaces s (memPut ss bs s) := by simp [memPut, SamePlaces]

@[simp] theorem memWriteBy_places (ss : List Seg) (bs : List Byte) (s : State) :
    SamePlaces s (memWriteBy ss bs s) := by simp [memWriteBy, SamePlaces]

@[simp] theorem memPutOut_places (pa : Nat) (bs : List Byte) (s : State) :
    SamePlaces s (memPutOut pa bs s) := by simp [memPutOut, SamePlaces]

@[simp] theorem flushCache_places (s : State) : SamePlaces s (flushCache s) := by simp [flushCache, SamePlaces]

@[simp] theorem noteEgress_places (s : State) : SamePlaces s (noteEgress s) := by simp [noteEgress, SamePlaces]

@[simp] theorem egressOf_places (firm : Bool) (s : State) : SamePlaces s (egressOf firm s) := by
  unfold egressOf
  split <;> simp [SamePlaces]

/-! ### Taking an exception (R140 to R143, R149, R207) -/

@[simp] theorem dropLatches_places (x : Issuer) (s : State) : SamePlaces s (dropLatches x s) := by
  unfold dropLatches
  split <;> simp [SamePlaces]

@[simp] theorem unlandOne_places (p : Latch × Elem) (s : State) : SamePlaces s (unlandOne p s) := by
  unfold unlandOne
  (repeat' split) <;> simp [SamePlaces]

@[simp] theorem unland_places (s : State) : SamePlaces s (unland s) := by
  have h := foldr_places unlandOne unlandOne_places (s.task.landedNow.filter (fun p => decide (s.task.c.lastIssue < p.1.land) &&
    decide (p.1.land ≤ s.task.c.lastIssue + 8))) s
  simp only [SamePlaces] at h
  simp [unland, SamePlaces, h]

@[simp] theorem saveFrame_places (x : Issuer) (cause : Word) (pc : Pc) (operand : Word) (s : State) :
    SamePlaces s (saveFrame x cause pc operand s) := by
  unfold saveFrame
  by_cases inC : (x == .c) = true <;> simp only [inC, if_true] <;> split <;> simp [SamePlaces]

@[simp] theorem holdCore_places (s : State) : SamePlaces s (holdCore s) := by simp [holdCore, SamePlaces]

@[simp] theorem reportTh_places (firm : Bool) (t : TrapInfo) (s : State) : SamePlaces s (reportTh firm t s) := by
  unfold reportTh
  split <;> simp [SamePlaces]

/-! ### Returning from an exception (R145, R147, R224) -/

@[simp] theorem reinject_places (recs : List Word) (s : State) :
    SamePlaces s (reinject recs s) := by simp [reinject, SamePlaces]

@[simp] theorem freshSeed_places (s : State) : SamePlaces s (freshSeed s).2 := by simp [freshSeed, SamePlaces]

@[simp] theorem seedChannel_places (ch : Nat) (n : Noise) (nrp : Bool) (s : State) :
    SamePlaces s (seedChannel ch n nrp s).2 := by
  unfold seedChannel
  (repeat' split) <;> simp [SamePlaces]

@[simp] theorem restartChannel_places (nrp : Bool) (ch : Fin 4) (s : State) :
    SamePlaces s (restartChannel nrp ch s) := by simp [restartChannel, SamePlaces]

@[simp] theorem restartNoise_places (nrp : Bool) (s : State) :
    SamePlaces s (restartNoise nrp s) := by simp [restartNoise, SamePlaces]

/-! ### Engine-side helpers shared by the families -/

@[simp] theorem setTlb_places (a : TlbAgent) (l : List PageEntry) (s : State) : SamePlaces s (setTlb a l s) := by
  unfold setTlb
  split <;> simp [SamePlaces]

@[simp] theorem tlbLoad_places (a : TlbAgent) (e : PageEntry) (s : State) : SamePlaces s (tlbLoad a e s) := by
  unfold tlbLoad
  dsimp only
  (repeat' split) <;> simp [SamePlaces]

@[simp] theorem noteLicence_places (d : Into) (ss : List Seg) (s : State) : SamePlaces s (noteLicence d ss s) := by
  unfold noteLicence
  (repeat' split) <;> simp [SamePlaces]

@[simp] theorem tlbUse_places (a : TlbAgent) (ps : List Piece) (s : State) : SamePlaces s (tlbUse a ps s) := by
  unfold tlbUse
  dsimp only
  (repeat' split) <;> simp [SamePlaces]

/-! ### Sluices (R32, R184, R439) -/

@[simp] theorem egressAsk_places (u : EgressUser) (ctx n : Nat) (s : State) : SamePlaces s (egressAsk u ctx n s) := by
  unfold egressAsk
  split <;> simp [SamePlaces]

@[simp] theorem egressDone_places (u : EgressUser) (ctx n : Nat) (s : State) :
    SamePlaces s (egressDone u ctx n s) := by simp [egressDone, SamePlaces]

/-! ### How a word issues (R38 to R40, R48, R49, R88, R116 to R121, R125) -/

@[simp] theorem repairValue_pc (id : Nat) (v : Word) (c : Ctx) : (repairValue id v c).pc = c.pc := by
  unfold repairValue
  (repeat' split) <;> simp

@[simp] theorem repair_places (x : Issuer) (id : Nat) (v : Word) (lat : Nat) (s : State) :
    SamePlaces s (repair x id v lat s) := by
  unfold repair
  (repeat' split) <;> simp [SamePlaces]

@[simp] theorem block_places (x : Issuer) (s : State) : SamePlaces s (block x s) := by simp [block, SamePlaces]

@[simp] theorem beginWord_places (x : Issuer) (s : State) : SamePlaces s (beginWord x s) := by
  unfold beginWord
  (repeat' split) <;> simp [SamePlaces]

@[simp] theorem goesOn_places (x : Issuer) (waits : Bool) (s : State) :
    SamePlaces s (goesOn x waits s) := by simp [goesOn, SamePlaces]

@[simp] theorem acquire_places (x : Issuer) (s : State) : SamePlaces s (acquire x s) := by simp [acquire, SamePlaces]

@[simp] theorem popAll_places (x : Issuer) (l : List (Fifo × Nat)) (s : State) : SamePlaces s (popAll x l s) := by
  unfold popAll
  split <;> simp [SamePlaces]

@[simp] theorem attachPushes_places (pops l : List (Fifo × Nat)) (s : State) : SamePlaces s (attachPushes pops l s) := by
  unfold attachPushes
  split <;> simp [SamePlaces]

/-! ### Sources -/

@[simp] theorem takeSrcs_places (os : List EOp) (s : State) : SamePlaces s (takeSrcs os s).2.1 := by
  induction os generalizing s with
  | nil => exact .refl s
  | cons o os ih =>
    unfold takeSrcs
    cases o with
    | lq n =>
      dsimp only
      split
      · exact .refl s
      · exact (qPop_places ..).trans (ih _)
    | e n => exact ih s
    | sq n => exact ih s
    | iq n => exact ih s
    | zero => exact ih s
    | one => exact ih s

theorem sources_places {os : List EOp} {s s1 : State} {vs : List Elem} (ok : sources os s = .ok (vs, s1)) :
    SamePlaces s s1 := by
  have read := takeSrcs_places os s
  rwa [sources_ok_iff.mp ok] at read

@[simp] theorem stallResult_stays (s : State) (a : Stall) : (stallResult s a).Stays s := by
  unfold stallResult
  split <;> simp [SamePlaces]

/-! ### Destinations -/

@[simp] theorem landReplay_pc (n : Fin 768) (v : Word) (c : Ctx) : (landReplay n v c).pc = c.pc := by simp [landReplay]

@[simp] theorem latchRegs_places (rs : List (Fin 768 × Elem)) (land lat : Nat) (s : State) :
    SamePlaces s (latchRegs rs land lat s) := by simp [latchRegs, SamePlaces]

@[simp] theorem latchReg_places (n : Fin 768) (v : Elem) (land lat : Nat) (s : State) :
    SamePlaces s (latchReg n v land lat s) := by simp [latchReg, SamePlaces]

@[simp] theorem latchQueue_places (q : Fin 20) (v : Elem) (land lat : Nat) (s : State) :
    SamePlaces s (latchQueue q v land lat s) := by simp [latchQueue, SamePlaces]

@[simp] theorem putResult_places (o : EOp) (v : Elem) (lat : Nat) (s : State) : SamePlaces s (putResult o v lat s) := by
  unfold putResult
  split <;> simp [SamePlaces]

@[simp] theorem elementOp_stays (ed : EOp) (os : List EOp) (lat : Nat) (f : State → List Elem → Elem) (s : State) :
    (elementOp ed os lat f s).Stays s := by
  unfold elementOp
  split
  · exact .refl s
  · cases ok : sources os s with
    | error e => exact stallResult_stays s e
    | ok p => exact (sources_places ok).trans (putResult_places ..)

/-! ### Windows -/

@[simp] theorem setWin_places (w : BitVec 5) (v : BitVec 64) (s : State) :
    SamePlaces s (setWin w v s) := by simp [setWin, SamePlaces]

/-! ### The order of accesses (R107, R138, R178, R179, R374) -/

@[simp] theorem waitToLoad_stays (sp : Bool) (ss : List Seg) (ac : BitVec 3) (s : State) :
    (waitToLoad sp ss ac s).Stays s := by
  unfold waitToLoad
  split <;> simp [SamePlaces]

/-! ### Noise (R115, R225) -/

@[simp] theorem drawFrom_places (ch : Nat) (n : Noise) (nrp : Bool) (k : Nat) (s : State) :
    SamePlaces s (drawFrom ch n nrp k s).2.2 := by
  unfold drawFrom
  dsimp only
  (repeat' split) <;> simp [SamePlaces]

@[simp] theorem drawNoise_places (ch : Fin 5) (k : Nat) (s : State) : SamePlaces s (drawNoise ch k s).2 := by
  unfold drawNoise
  split <;> simp [SamePlaces]

@[simp] theorem roundDraw_places (ch : Fin 5) (f : Fmt) (r : Rnd) (x : Ex) (s : State) :
    SamePlaces s (roundDraw ch f r x s).2 := by
  unfold roundDraw
  split <;> simp [SamePlaces]

/-! ### Arithmetic (R89 to R96) -/

@[simp] theorem writeReg_stays (d : BitVec 6) (v : Word) (lat : Nat) (s : State) :
    (writeReg d v lat s).Stays s := by simp [writeReg, SamePlaces]

/-! ### K memory access (R106 to R109) -/

@[simp] theorem cacheFill_places (pa : Nat) (s : State) : SamePlaces s (cacheFill pa s) := by
  unfold cacheFill
  dsimp only
  split <;> simp [SamePlaces]

@[simp] theorem cacheUpdate_places (pa : Nat) (bs : List Byte) (s : State) :
    SamePlaces s (cacheUpdate pa bs s) := by simp [cacheUpdate, SamePlaces]

/-! ### Barriers (R129 to R132) -/

@[simp] theorem arriveAt_places (b : BitVec 2) (s : State) : SamePlaces s (arriveAt b s) := by simp [arriveAt, SamePlaces]

@[simp] theorem waitOut_places (b : BitVec 2) (s : State) : ∀ t, waitOut b s = some t → SamePlaces s t := by
  unfold waitOut
  dsimp only
  split <;> simp [SamePlaces]

@[simp] theorem clearTouch_places (s : State) : SamePlaces s (clearTouch s) := by simp [clearTouch, SamePlaces]

/-! ### Atomics (R134 to R136) -/

@[simp] theorem amoMem_places (op : AmoOp) (dw : Bool) (pa : Nat) (b cmp : Word) (s : State) :
    SamePlaces s (amoMem op dw pa b cmp s).2 := by simp [amoMem, SamePlaces]

@[simp] theorem markBusy_pc (d : BitVec 6) (word : Nat) (c : Ctx) : (markBusy d word c).pc = c.pc := by
  unfold markBusy
  split <;> simp

/-! ### Software traps and the timer (R146, R147, R427) -/

@[simp] theorem stopService_places (s : State) : SamePlaces s (stopService s) := by simp [stopService, SamePlaces]

/-! ### Furrows -/

@[simp] theorem setFur_places (f : Fin 16) (v : Furrow) (s : State) :
    SamePlaces s (setFur f v s) := by simp [setFur, SamePlaces]

@[simp] theorem setLive_places (f : Fin 16) (slot : Nat) (b : Bool) (s : State) :
    SamePlaces s (setLive f slot b s) := by simp [setLive, SamePlaces]

@[simp] theorem joinLoop_places (f : Fin 16) (n : Nat) (s : State) : SamePlaces s (joinLoop f n s) := by
  induction n generalizing s with
  | zero => exact .refl s
  | succ n ih =>
    unfold joinLoop
    dsimp only
    split
    · exact ((setFur_places ..).trans (setLive_places ..)).trans (ih _)
    · exact .refl s

@[simp] theorem joinSlots_places (f : Fin 16) (s : State) : SamePlaces s (joinSlots f s) := by simp [joinSlots, SamePlaces]

@[simp] theorem reserveSlot_places (f : Fin 16) (s : State) :
    SamePlaces s (reserveSlot f s) := by simp [reserveSlot, SamePlaces]

@[simp] theorem genSlot_places (f : Fin 16) (slot : Nat) (s : State) :
    SamePlaces s (genSlot f slot s) := by simp [genSlot, SamePlaces]

@[simp] theorem fillSlot_places (f : Fin 16) (slot : Nat) (bytes : List Byte) (bad : List Bool) (s : State) :
    SamePlaces s (fillSlot f slot bytes bad s) := by simp [fillSlot, SamePlaces]

@[simp] theorem popTile_places (f : Fin 16) (s : State) : SamePlaces s (popTile f s) := by
  unfold popTile
  dsimp only
  split <;> simp [SamePlaces]

@[simp] theorem takeTile_places (f : Fin 16) (s : State) : SamePlaces s (takeTile f s) := by simp [takeTile, SamePlaces]

@[simp] theorem clearClaims_places (f : Fin 16) (s : State) :
    SamePlaces s (clearClaims f s) := by simp [clearClaims, SamePlaces]

@[simp] theorem popTiles_places (f : Fin 16) (n : Nat) (s : State) : SamePlaces s (popTiles f n s) := by
  induction n generalizing s with
  | zero => exact .refl s
  | succ n ih => exact (takeTile_places ..).trans (ih _)

/-! ### Checks (R81, R288 to R290) -/

@[simp] theorem correctElem_places (r : HRec) (k bits : Nat) (s : State) :
    SamePlaces s (correctElem r k bits s) := by simp [correctElem, SamePlaces]

@[simp] theorem checkPart_places (mode : CheckMode) (r : HRec) (rows cols : List Nat) (s : State) :
    SamePlaces s (checkPart mode r rows cols s).2 := by
  unfold checkPart
  dsimp only
  (repeat' split) <;> simp [SamePlaces]

@[simp] theorem checkTile_places (mode : CheckMode) (r : HRec) (s : State) :
    SamePlaces s (checkTile mode r s).2 := by simp [checkTile, SamePlaces]

@[simp] theorem checkTiles_places (idx : Nat) (disp : Int) (rs : List HRec) (s : State) :
    SamePlaces s (checkTiles idx disp rs s).1 := by
  induction rs generalizing idx s with
  | nil => exact .refl s
  | cons r rs ih =>
    unfold checkTiles
    dsimp only
    split
    · exact checkTile_places ..
    · exact (checkTile_places ..).trans (ih ..)

/-! ### Windows as runs of elements -/

@[simp] theorem putElem_places (bit w v : Nat) (s : State) :
    SamePlaces s (putElem bit w v s) := by simp [putElem, SamePlaces]

@[simp] theorem putElems_places (img : BitVec 64) (disp : Int) (i : Nat) (vs : List Nat) (s : State) :
    SamePlaces s (putElems img disp i vs s) := by
  induction vs generalizing i s with
  | nil => exact .refl s
  | cons v vs ih =>
    unfold putElems
    dsimp only
    split
    · exact putElem_places ..
    · exact (putElem_places ..).trans (ih ..)

@[simp] theorem touchElems_places (img : BitVec 64) (disp : Int) (i n : Nat) (s : State) :
    SamePlaces s (touchElems img disp i n s) := by
  induction n generalizing i s with
  | zero => exact .refl s
  | succ n ih =>
    unfold touchElems
    dsimp only
    split
    · exact touchGuards_places ..
    · exact (touchGuards_places ..).trans (ih ..)

/-! ### Issue -/

@[simp] theorem addAccess_places (isLoad : Bool) (ac : BitVec 3) (va : Word) (lat : Nat) (kind : AccessKind) (s : State) :
    SamePlaces s (addAccess isLoad ac va lat kind s) := by simp [addAccess, SamePlaces]

@[simp] theorem reserveSlots_places (q : Fin 20) (n : Nat) (s : State) : SamePlaces s (reserveSlots q n s).2 := by
  induction n generalizing s with
  | zero => exact .refl s
  | succ n ih => exact (qReserve_places ..).trans (ih _)

theorem queueLoad_places {sp : Bool} {ss : List Seg} {sz : Sz} {q : Fin 20} {ac : BitVec 3} {va : Word} {lat : Nat}
    {zp : Bool} {s t : State} (issued : queueLoad sp ss sz q ac va lat zp s = some t) :
    SamePlaces s t := by
  unfold queueLoad at issued
  split at issued
  · cases issued
    exact (reserveSlots_places ..).trans (addAccess_places ..)
  · cases issued

@[simp] theorem popN_places (q : Fin 20) (n : Nat) (s : State) : SamePlaces s (popN q n s) := by
  induction n generalizing s with
  | zero => exact .refl s
  | succ n ih => exact (qPop_places ..).trans (ih _)

/-! ### Queue control (R175) -/

@[simp] theorem flushLoads_places (q : Fin 20) (s : State) :
    SamePlaces s (flushLoads q s) := by simp [flushLoads, SamePlaces]

@[simp] theorem applyFlush_places (s : State) (f : Flush) : SamePlaces s (applyFlush s f) := by simp [applyFlush, SamePlaces]

@[simp] theorem applyFlushes_places (s : State) : SamePlaces s (applyFlushes s) := by simp [applyFlushes, SamePlaces]

/-! ### The steps that perform issued accesses -/

@[simp] theorem accessDone_places (a : Access) (s : State) :
    SamePlaces s (accessDone a s) := by simp [accessDone, SamePlaces]

@[simp] theorem fillSlots_places (q : Fin 20) (poison : Option Word) (ids : List Nat) (vs : List Elem) (s : State) :
    SamePlaces s (fillSlots q poison ids vs s) := by
  induction ids generalizing vs s with
  | nil => exact .refl s
  | cons id ids ih =>
    cases vs with
    | nil => exact .refl s
    | cons v vs => exact (qFill_places ..).trans (ih ..)

@[simp] theorem execLoadArrival_places (id : Nat) (s : State) : (execLoadArrival id s).All (SamePlaces s) := by
  unfold execLoadArrival
  dsimp only
  (repeat' split) <;> simp [SamePlaces, Out.All]

@[simp] theorem putMarked_places (img : BitVec 64) (disp : Int) (flags : List Bool) (i : Nat) (vs : List Nat) (s : State) :
    SamePlaces s (putMarked img disp flags i vs s) := by
  induction vs generalizing i s with
  | nil => exact .refl s
  | cons v vs ih => exact ((putElem_places ..).trans (poisonBytes_places ..)).trans (ih ..)

@[simp] theorem execAccessPerformed_places (id : Nat) (s : State) : (execAccessPerformed id s).All (SamePlaces s) := by
  unfold execAccessPerformed
  dsimp only
  (repeat' split) <;> simp [SamePlaces, Out.All]

@[simp] theorem execSlotJoin_places (id : Nat) (s : State) : (execSlotJoin id s).All (SamePlaces s) := by
  unfold execSlotJoin
  (repeat' split) <;> simp [SamePlaces, Out.All]

@[simp] theorem acknowledge_places (s : State) : SamePlaces s (acknowledge s) := by simp [acknowledge, SamePlaces]

@[simp] theorem execTlbInvalidate_places (ctx vbase : Nat) (e : Option PageEntry) (s : State) :
    (execTlbInvalidate ctx vbase e s).All (SamePlaces s) := by simp [execTlbInvalidate, SamePlaces, Out.All]

/-! ### Arithmetic (R197 to R203) -/

@[simp] theorem compareOp_stays (pd : BitVec 4) (os : List EOp) (f : List Elem → Bool) (s : State) :
    (compareOp pd os f s).Stays s := by
  unfold compareOp
  cases ok : sources os s with
  | error e => exact stallResult_stays s e
  | ok p => exact (sources_places ok).trans (setPred_places ..)

/-! ### The rotating region (R189, R190) -/

@[simp] theorem setStages_pc (p : BitVec 16) (ws : List (Nat × Word)) (c : Ctx) :
    (setStages p ws c).pc = c.pc := by simp [setStages]

@[simp] theorem rotateDown_places (s : State) : SamePlaces s (rotateDown s) := by
  unfold rotateDown
  dsimp only
  split <;> simp [SamePlaces]

/-! ### Landing (R192, R193, R210) -/

@[simp] theorem landOne_places (l : Latch) (s : State) : SamePlaces s (landOne l s) := by
  unfold landOne
  split <;> simp [SamePlaces]

@[simp] theorem holdLatches_places (d : Nat) (s : State) :
    SamePlaces s (holdLatches d s) := by simp [holdLatches, SamePlaces]

@[simp] theorem execResultLanding_places (s : State) : (execResultLanding s).All (SamePlaces s) := by
  unfold execResultLanding
  (repeat' split) <;> simp [SamePlaces, Out.All]

/-! ### Windows of an instruction (R212 to R218) -/

@[simp] theorem Win.put_places (w : Win) (i v : Nat) (s : State) :
    SamePlaces s (Win.put w i v s) := by simp [Win.put, SamePlaces]

@[simp] theorem Win.touch_places (w : Win) (i n : Nat) (s : State) :
    SamePlaces s (Win.touch w i n s) := by simp [Win.touch, SamePlaces]

/-! ### Chunked execution (R219 to R224) -/

@[simp] theorem setProg_places (p : VProg) (s : State) : SamePlaces s (setProg p s) := by simp [setProg, SamePlaces]

@[simp] theorem holdUntil_places (t : Nat) (s : State) : SamePlaces s (holdUntil t s) := by simp [holdUntil, SamePlaces]

@[simp] theorem noFirst_places (x : List Win) (x1 : List Elem) (p : VProg) (s : State) :
    SamePlaces s (noFirst x x1 p s).2 := by simp [noFirst, SamePlaces]

@[simp] theorem carryFirst_places (x : List Win) (vs : List Elem) (p : VProg) (s : State) :
    SamePlaces s (carryFirst x vs p s).2 := by simp [carryFirst, SamePlaces]

@[simp] theorem touchAll_places (ws : List Win) (lo hi : Nat) (s : State) : SamePlaces s (touchAll ws lo hi s) :=
  foldl_places _ (fun _ _ => touchElems_places ..) ws s

/-! ### Element-wise arithmetic (R227 to R232) -/

@[simp] theorem fillFirst_places (r : Rnd) (ws : List Win) (vs : List Elem) (p : VProg) (s : State) :
    SamePlaces s (fillFirst r ws vs p s).2 := by
  unfold fillFirst
  dsimp only
  (repeat' split) <;> simp [SamePlaces]

/-! ### Reductions and scans (R233, R234) -/

@[simp] theorem redFirst_places (fn : VredFn) (ws : List Win) (x : List Elem) (p : VProg) (s : State) :
    SamePlaces s (redFirst fn ws x p s).2 := by simp [redFirst, SamePlaces]

@[simp] theorem scanFirst_places (ws : List Win) (x : List Elem) (p : VProg) (s : State) :
    SamePlaces s (scanFirst ws x p s).2 := by simp [scanFirst, SamePlaces]

/-! ### Noise, Hadamard, quantisation (R240 to R242) -/

@[simp] theorem pairFirst_places (ea : Fin 768) (x : List Win) (x2 : List Elem) (p : VProg) (s : State) :
    SamePlaces s (pairFirst ea x x2 p s).2 := by simp [pairFirst, SamePlaces]

@[simp] theorem putList_places (d : Win) (i : Nat) (vs : List Nat) (s : State) : SamePlaces s (putList d i vs s) :=
  foldl_snd_places (fun (q : Nat × State) v => (q.1 + 1, d.put q.1 v q.2)) (fun _ _ => Win.put_places ..) vs (i, s)

/-! ### Moves and window registers (R244, R245) -/

@[simp] theorem takeHeadland_places (d a : Win) (t : Nat) (s : State) : SamePlaces s (takeHeadland d a t s) := by
  unfold takeHeadland
  split <;> simp [SamePlaces]

/-! ### Sampling (R246 to R249) -/

@[simp] theorem setRowFlag_places (n : Nat) (s : State) : SamePlaces s (setRowFlag n s) := by simp [setRowFlag, SamePlaces]

@[simp] theorem drawFirst_places (res : Bool) (ea : Fin 768) (x : List Win) (x3 : List Elem) (p : VProg) (s : State) :
    SamePlaces s (drawFirst res ea x x3 p s).2 := by
  unfold drawFirst
  split <;> simp [SamePlaces]

/-! ### Steps of the noise channels and the cycle budget (R225, R250) -/

@[simp] theorem execNoiseReseed_places (ch : Fin 5) (s : State) : (execNoiseReseed ch s).All (SamePlaces s) := by
  unfold execNoiseReseed
  dsimp only
  (repeat' split) <;> simp [SamePlaces, Out.All]

/-! ### Window tiles (R283 to R285) -/

@[simp] theorem touchTile_places (named : Nat) (r : HRec) (s : State) : SamePlaces s (touchTile named r s) := by
  unfold touchTile
  split <;> simp [SamePlaces]

/-! ### hgen (R293) -/

@[simp] theorem registerTile_places (base : Nat) (f : Fmt) (scale : Option Nat) (s : State) :
    SamePlaces s (registerTile base f scale s) := by
  unfold registerTile
  split <;> simp [SamePlaces]

@[simp] theorem genAt_places (base : Nat) (f : Fmt) (s : State) :
    SamePlaces s (genAt base f s) := by simp [genAt, SamePlaces]

@[simp] theorem hgenFirst_places (ws : List Win) (x : List Elem) (p : VProg) (s : State) :
    SamePlaces s (hgenFirst ws x p s).2 := by simp [hgenFirst, SamePlaces]

@[simp] theorem occupy_stays (cycles : Nat) (scalars : List (Fin 768 × Elem)) (s : State) :
    (occupy cycles scalars s).Stays s := by
  unfold occupy
  split <;> simp [SamePlaces]

/-! ### hchk (R294) -/

@[simp] theorem checkAt_places (ts : Tiles) (ro : Bool) (i : Nat) (s : State) : SamePlaces s (checkAt ts ro i s).2.1 := by
  unfold checkAt
  split <;> simp [SamePlaces]

@[simp] theorem checkEvery_places (ts : Tiles) (ro : Bool) (k i : Nat) (s : State) :
    SamePlaces s (checkEvery ts ro k i s).2.1 := by
  induction k generalizing i s with
  | zero => exact .refl s
  | succ k ih =>
    unfold checkEvery
    dsimp only
    split
    · exact checkAt_places ..
    · exact (checkAt_places ..).trans (ih ..)

@[simp] theorem checkStream_stays (ro : Bool) (t : HTarget) (s : State) : (checkStream ro t s).Stays s := by
  unfold checkStream
  dsimp only
  (repeat' split) <;> simp [SamePlaces]

/-! ### hupd (R296) -/

@[simp] theorem updTile_places (d a : Win) (r : HRec) (s : State) :
    SamePlaces s (updTile d a r s) := by simp [updTile, SamePlaces]

/-! ### Matrix instructions and the matrix engine (chapter 09). -/

@[simp] theorem modMx_places (f : Mx → Mx) (s : State) : SamePlaces s (modMx f s) := by simp [modMx, SamePlaces]

@[simp] theorem modMxK_places (f : MxK → MxK) (s : State) : SamePlaces s (modMxK f s) := by simp [modMxK, SamePlaces]

/-! ### Reading operand tiles (R252) -/

@[simp] theorem stepArith_places (m : MStep) (s : State) : SamePlaces s (stepArith m s) := by simp [stepArith, SamePlaces]

@[simp] theorem fillAccs_places (l : List Nat) (v : Mx → Nat → Acc) (s : State) :
    SamePlaces s (fillAccs l v s) := by simp [fillAccs, SamePlaces]

@[simp] theorem zeroAccs_places (l : List Nat) (s : State) : SamePlaces s (zeroAccs l s) := by simp [zeroAccs, SamePlaces]

@[simp] theorem poisonAccs_places (l : List Nat) (s : State) :
    SamePlaces s (poisonAccs l s) := by simp [poisonAccs, SamePlaces]

/-! ### Events (R267) -/

@[simp] theorem mEvent_places (kind acc : Nat) (tag : BitVec 11) (step : Nat) (s : State) :
    SamePlaces s (mEvent kind acc tag step s) := by simp [mEvent, SamePlaces]

@[simp] theorem lastingError_places (accs : List Nat) (cause : Cause) (tag : BitVec 11) (step : Nat) (s : State) :
    SamePlaces s (lastingError accs cause tag step s) := by simp [lastingError, SamePlaces]

@[simp] theorem keep_places (k : Kept) (s : State) : SamePlaces s (keep k s) := by simp [keep, SamePlaces]

@[simp] theorem operandCheck_places (f : Fin 16) (pos acc : Nat) (tag : BitVec 11) (step : Nat) (s : State) :
    SamePlaces s (operandCheck f pos acc tag step s).1 := by
  unfold operandCheck
  dsimp only
  (repeat' split) <;> simp [SamePlaces]

@[simp] theorem operandsCheck_places (tag : BitVec 11) (step : Nat) (m : MStep) (ps : List (Nat × Nat × Nat)) (s : State) :
    SamePlaces s (operandsCheck tag step m ps s).1 := by
  induction ps generalizing s with
  | nil => exact .refl s
  | cons p ps ih =>
    unfold operandsCheck
    dsimp only
    split
    · exact operandCheck_places ..
    · split
      · exact (operandCheck_places ..).trans (operandCheck_places ..)
      · exact ((operandCheck_places ..).trans (operandCheck_places ..)).trans (ih _)

@[simp] theorem stepCheck_places (tag : BitVec 11) (step : Nat) (m : MStep) (s : State) :
    SamePlaces s (stepCheck tag step m s).1 := by
  unfold stepCheck
  split <;> simp [SamePlaces]

@[simp] theorem redo_places (k : Kept) (s : State) : SamePlaces s (redo k s) := by
  unfold redo
  dsimp only
  (repeat' split) <;> simp [SamePlaces]

@[simp] theorem recover_places (also : List Nat) (s : State) : SamePlaces s (recover also s) :=
  (fillAccs_places ..).trans (foldl_places _ (fun _ _ => redo_places ..) _ _)

@[simp] theorem transientError_places (accs : List Nat) (tag : BitVec 11) (step : Nat) (s : State) :
    SamePlaces s (transientError accs tag step s) := by simp [transientError, SamePlaces]

@[simp] theorem runStep_places (tag : BitVec 11) (step : Nat) (m : MStep) (s : State) :
    SamePlaces s (runStep tag step m s) := by
  unfold runStep
  dsimp only
  (repeat' split) <;> simp [SamePlaces]

/-! ### Markers (R262 to R264) -/

@[simp] theorem accFix_places (i : Nat) (s : State) : SamePlaces s (accFix i s).2 := by
  unfold accFix
  dsimp only
  (repeat' split) <;> simp [SamePlaces]

@[simp] theorem accsFix_places (l : List Nat) (s : State) : SamePlaces s (accsFix l s).2 := by
  induction l generalizing s with
  | nil => exact .refl s
  | cons i l ih => exact (accFix_places ..).trans (ih _)

@[simp] theorem markerCheck_places (tag : BitVec 11) (also : List Nat) (s : State) :
    SamePlaces s (markerCheck tag also s) := by
  unfold markerCheck
  dsimp only
  (repeat' split) <;> simp [SamePlaces]

@[simp] theorem retire_places (p : Fin 16 × Nat) (s : State) : SamePlaces s (retire p s) := by
  unfold retire
  dsimp only
  split <;> simp [SamePlaces]

@[simp] theorem marker_places (tag : BitVec 11) (also : List Nat) (s : State) :
    SamePlaces s (marker tag also s) := by simp [marker, SamePlaces]

@[simp] theorem dropCmd_places (k : Nat) (s : State) : SamePlaces s (dropCmd k s) := by
  unfold dropCmd
  split <;> simp [SamePlaces]

@[simp] theorem putCmd_places (k : Nat) (c : MCmd) (s : State) : SamePlaces s (putCmd k c s) := by simp [putCmd, SamePlaces]

@[simp] theorem execMarker_places (s : State) : (execMarker s).All (SamePlaces s) := by
  unfold execMarker
  (repeat' split) <;> simp [SamePlaces, Out.All]

/-! ### Steps of the engine -/

@[simp] theorem nestRun_places (k : Nat) (c : MCmd) (n : Nest) (s : State) : SamePlaces s (nestRun k c n s) := by
  unfold nestRun
  dsimp only
  (repeat' split) <;> simp [SamePlaces]

@[simp] theorem nestDone_places (k : Nat) (c : MCmd) (n : Nest) (s : State) : SamePlaces s (nestDone k c n s) := by
  unfold nestDone
  dsimp only
  split <;> simp [SamePlaces]

@[simp] theorem furrowSet_places (f : Fin 16) (g : FurCfg) (s : State) :
    SamePlaces s (furrowSet f g s) := by simp [furrowSet, SamePlaces]

@[simp] theorem execMatrixStep_places (s : State) : (execMatrixStep s).All (SamePlaces s) := by
  unfold execMatrixStep
  (repeat' split) <;> simp [SamePlaces, Out.All]

@[simp] theorem drainBytes_places (f : Fmt) (r : Rnd) (xs : List Elem) (s : State) :
    SamePlaces s (drainBytes f r xs s).2 := by
  induction xs generalizing s with
  | nil => exact .refl s
  | cons x xs ih => exact (roundDraw_places ..).trans (ih _)

@[simp] theorem drainCheck_places (a : Nat) (tag : BitVec 11) (s : State) : SamePlaces s (drainCheck a tag s) := by
  unfold drainCheck
  dsimp only
  (repeat' split) <;> simp [SamePlaces]

@[simp] theorem execDrain_places (s : State) : (execDrain s).All (SamePlaces s) := by
  unfold execDrain
  (repeat' split) <;> simp [SamePlaces, Out.All]

/-! ### Commands from K (R266) -/

@[simp] theorem submitOne_places (c : MCmd) (s : State) : SamePlaces s (submitOne c s) := by
  obtain ⟨op, ready, ev, tag⟩ := c
  cases op <;> simp only [submitOne] <;> (try split) <;> exact modMx_places ..

@[simp] theorem submit_places (cs : List MCmd) (s : State) : SamePlaces s (submit cs s) := by simp [submit, SamePlaces]

/-! ### Map composition -/

@[simp] theorem modMc_places (f : Mce → Mce) (s : State) : SamePlaces s (modMc f s) := by simp [modMc, SamePlaces]

/-! ### Slots (R300, R303, R304, R310) -/

@[simp] theorem setSlot_places (n : Nat) (v : McMap) (s : State) :
    SamePlaces s (setSlot n v s) := by simp [setSlot, SamePlaces]

@[simp] theorem dropSlots_places (l : List Nat) (s : State) : SamePlaces s (dropSlots l s) := by simp [dropSlots, SamePlaces]

@[simp] theorem mcEvent_places (kind slot : Nat) (tag : BitVec 11) (s : State) :
    SamePlaces s (mcEvent kind slot tag s) := by simp [mcEvent, SamePlaces]

theorem mcSource_places {n : Nat} {tag : BitVec 11} {s s1 : State} {v : List Nat} (ok : mcSource n tag s = .ok (v, s1)) :
    SamePlaces s s1 := by
  unfold mcSource at ok
  (repeat' split at ok) <;> cases ok <;> simp [SamePlaces]

/-! ### Reading memory (R302, R308) -/

@[simp] theorem mcTlb_places (firm : Bool) (va : Word) (len : Nat) (s : State) : SamePlaces s (mcTlb firm va len s) := by
  unfold mcTlb
  split <;> simp [SamePlaces]

/-! ### One unit of a command (R304, R313 to R318, R321) -/

@[simp] theorem loadMap_places (cfg : McCfg) (c : McCmd) (slot : Nat) (va : Word) (dead : List Nat) (cycles : Nat)
    (next : McCmd) (s : State) :
    (loadMap cfg c slot va dead cycles next s).All (SamePlaces s) := by
  unfold loadMap
  dsimp only
  split <;> simp [SamePlaces, McUnit.All]

@[simp] theorem touchRun_places (firm : Bool) (off len : Nat) (s : State) : SamePlaces s (touchRun firm off len s) := by
  unfold touchRun
  (repeat' split) <;> simp [SamePlaces]

@[simp] theorem listUnit_places (cfg : McCfg) (c : McCmd) (first count list : Nat) (s : State) :
    (listUnit cfg c first count list s).All (SamePlaces s) := by
  unfold listUnit
  dsimp only
  split
  · exact touchRun_places ..
  · split
    · exact .refl s
    · split
      · exact .refl s
      · split
        · next run => exact (congrArg (McUnit.All (SamePlaces s)) run).mp (loadMap_places ..)
        · exact loadMap_places ..

@[simp] theorem storeGlobal_places (c : McCmd) (slot : Nat) (va : Word) (bytes : List Byte) (cycles : Nat) (s : State) :
    (storeGlobal c slot va bytes cycles s).All (SamePlaces s) := by
  unfold storeGlobal
  dsimp only
  (repeat' split) <;> simp [SamePlaces, McUnit.All]

@[simp] theorem composeUnit_places (cfg : McCfg) (c : McCmd) (d a : Nat) (b : Option Nat) (dead : List Nat) (next : McCmd)
    (s : State) :
    (composeUnit cfg c d a b dead next s).All (SamePlaces s) := by
  unfold composeUnit
  split
  · exact .refl s
  · next read =>
    split
    · exact (mcSource_places read).trans (setSlot_places ..)
    · split
      · exact mcSource_places read
      · next read' => exact ((mcSource_places read).trans (mcSource_places read')).trans (setSlot_places ..)

@[simp] theorem treeUnit_places (cfg : McCfg) (c : McCmd) (dest first t : Nat) (s : State) :
    (treeUnit cfg c dest first t s).All (SamePlaces s) := by
  unfold treeUnit
  dsimp only
  split
  · exact .refl s
  · split
    · next run => exact (congrArg (McUnit.All (SamePlaces s)) run).mp (composeUnit_places ..)
    · exact composeUnit_places ..

@[simp] theorem maskTlb_places (cfg : McCfg) (c : McCmd) (state t k : Nat) (s : State) :
    SamePlaces s (maskTlb cfg c state t k s) := by
  unfold maskTlb
  (repeat' split) <;> simp [SamePlaces]

@[simp] theorem maskUnit_places (cfg : McCfg) (c : McCmd) (state addr : Nat) (s : State) :
    (maskUnit cfg c state addr s).All (SamePlaces s) := by
  unfold maskUnit
  dsimp only
  (repeat' split) <;> simp [SamePlaces, McUnit.All]

@[simp] theorem readSlot_places (c : McCmd) (n : Nat) (f : List Nat → State → McUnit) (s : State)
    (h : ∀ l s, (f l s).All (SamePlaces s)) :
    (readSlot c n f s).All (SamePlaces s) := by
  unfold readSlot
  split
  · split <;> exact .refl s
  · next read => exact (h _ _).mono fun _ same => (mcSource_places read).trans same

@[simp] theorem mcUnit_places (c : McCmd) (s : State) : (mcUnit c s).All (SamePlaces s) := by
  unfold mcUnit
  split
  · exact modMc_places ..
  · exact .refl s
  · exact .refl s
  · exact loadMap_places ..
  · exact loadMap_places ..
  · exact listUnit_places ..
  · split
    · exact .refl s
    · next read =>
      dsimp only
      split
      · exact (storeGlobal_places ..).mono fun _ same => (mcSource_places read).trans same
      · refine (mcSource_places read).trans ?_
        split
        · exact spadWrite_places ..
        · exact .refl _
  · split
    · next run => exact (congrArg (McUnit.All (SamePlaces s)) run).mp (composeUnit_places ..)
    · exact composeUnit_places ..
  · exact treeUnit_places ..
  · exact maskUnit_places ..
  · exact readSlot_places _ _ _ _ fun _ _ => .refl _
  · dsimp only
    split
    · exact .refl s
    · exact mcTlb_places ..
  · exact readSlot_places _ _ _ _ fun _ _ => .refl _

/-! ### The engine's step -/

@[simp] theorem mcHead_places (c : McCmd) (s : State) : SamePlaces s (mcHead c s) := by simp [mcHead, SamePlaces]

@[simp] theorem mcComplete_places (c : McCmd) (s : State) : SamePlaces s (mcComplete c s) := by
  unfold mcComplete
  split <;> simp [SamePlaces]

@[simp] theorem addReply_places (r : Reply) (s : State) : SamePlaces s (addReply r s) := by simp [addReply, SamePlaces]

/-! ### Issue (R305 to R309, R317) -/

@[simp] theorem clearAsk_places (s : State) : SamePlaces s (clearAsk s) := by simp [clearAsk, SamePlaces]

/-! ### The instructions -/

@[simp] theorem appDone_stays (d : BitVec 6) (r : Reply) (s : State) :
    (appDone d r s).Stays s := by simp [appDone]

/-! ### The Tideline (R412, R413) -/

@[simp] theorem whenFits_places (f : State → State) (s : State) (h : SamePlaces s (f s)) : SamePlaces s (whenFits f s) := by
  unfold whenFits
  split
  · exact h
  · exact .refl s

@[simp] theorem tideOne_places (source kind part : Nat) (bytes : List Byte) (fields : List Nat) (s : State) :
    SamePlaces s (tideOne source kind part bytes fields s) := by
  unfold tideOne
  dsimp only
  split <;> simp [SamePlaces]

@[simp] theorem tideRest_places (source n k : Nat) (b : List Byte) (s : State) : SamePlaces s (tideRest source n k b s) := by
  induction n generalizing k b s with
  | zero => exact .refl s
  | succ n ih => exact (tideOne_places ..).trans (ih ..)

@[simp] theorem tidePut_places (source kind : Nat) (fields : List Nat) (bytes : List Byte) (s : State) :
    SamePlaces s (tidePut source kind fields bytes s) := by simp [tidePut, SamePlaces]

@[simp] theorem tideAdd_places (source kind : Nat) (fields : List Nat) (s : State) :
    SamePlaces s (tideAdd source kind fields s) := by simp [tideAdd, SamePlaces]

/-! ### The copy engine with inline decryption -/

/-! ### Events and holds (R350, R352) -/

@[simp] theorem cpEvent_places (kind off : Nat) (tag : BitVec 11) (s : State) :
    SamePlaces s (cpEvent kind off tag s) := by simp [cpEvent, SamePlaces]

@[simp] theorem cpHead_places (c : CpCmd) (s : State) : SamePlaces s (cpHead c s) := by simp [cpHead, SamePlaces]

@[simp] theorem cpHold_places (c : CpCmd) (off : Nat) (cause : Cause) (detail : Nat) (addr : Word) (s : State) :
    SamePlaces s (cpHold c off cause detail addr s) := by simp [cpHold, SamePlaces]

/-! ### One step (R349) -/

@[simp] theorem convertElems_places (c : CpBlk) (xs : List Nat) (s : State) : SamePlaces s (convertElems c xs s).2 := by
  induction xs generalizing s with
  | nil => exact .refl s
  | cons x xs ih => exact (roundDraw_places ..).trans (ih _)

@[simp] theorem cpWrite_places (firm : Bool) (p : CpPlace) (bs : List Byte) (bad : List Bool) (s : State) :
    SamePlaces s (cpWrite firm p bs bad s) := by
  unfold cpWrite
  split <;> simp [SamePlaces]

/-! ### Headland of what a command writes (R286, R287) -/

@[simp] theorem cpTiles_places (c : CpCmd) (f : Nat → Nat) (p : CpPlace) (s : State) : SamePlaces s (cpTiles c f p s) := by
  unfold cpTiles
  (repeat' split) <;> simp [SamePlaces]

@[simp] theorem stepBytes_places (c : CpCmd) (k : Nat) (raw : List Byte) (s : State) :
    SamePlaces s (stepBytes c k raw s).2 := by
  unfold stepBytes
  dsimp only
  (repeat' split) <;> simp [SamePlaces]

@[simp] theorem cpStep_places (c : CpCmd) (s : State) : SamePlaces s (cpStep c s) := by
  unfold cpStep
  dsimp only
  (repeat' split) <;> simp [SamePlaces]

/-! ### The end of a command (R354) -/

@[simp] theorem cpComplete_places (c : CpCmd) (s : State) : SamePlaces s (cpComplete c s) := by
  unfold cpComplete
  split <;> simp [SamePlaces]

@[simp] theorem cpZero_places (c : CpCmd) (s : State) : SamePlaces s (cpZero c s) := by
  unfold cpZero
  dsimp only
  (repeat' split) <;> simp [SamePlaces]

@[simp] theorem cpTag_places (c : CpCmd) (s : State) : SamePlaces s (cpTag c s) := by
  unfold cpTag
  dsimp only
  (repeat' split) <;> simp [SamePlaces]

/-! ### COPY_STEP -/

@[simp] theorem cpChecks_places (c : CpCmd) (s : State) : SamePlaces s (cpChecks c s).1 := by
  unfold cpChecks
  dsimp only
  split <;> simp [SamePlaces]

@[simp] theorem cpBegin_places (c : CpCmd) (s : State) : SamePlaces s (cpBegin c s) := by
  unfold cpBegin
  dsimp only
  split
  · exact cpHold_places ..
  · have checked := cpChecks_places c s
    split
    · next run => rw [run] at checked; exact checked.trans (cpHold_places ..)
    · next run => rw [run] at checked; exact checked.trans (cpHead_places ..)

@[simp] theorem execCopyStep_places (s : State) : (execCopyStep s).All (SamePlaces s) := by
  unfold execCopyStep
  (repeat' split) <;> simp [SamePlaces, Out.All]

/-! ### Instructions (R343, R348, R351, R352) -/

@[simp] theorem takeCpres_places (drop : Bool) (s : State) : SamePlaces s (takeCpres drop s) := by
  unfold takeCpres
  split <;> simp [SamePlaces]

@[simp] theorem takeCp_places (c : CpCmd) (s : State) : SamePlaces s (takeCp c s) := by simp [takeCp, SamePlaces]

/-! ### The fabric interface (chapter 13, R355 to R358) -/

@[simp] theorem modFx_places (f : Fx → Fx) (s : State) : SamePlaces s (modFx f s) := by simp [modFx, SamePlaces]

/-! ### Events and holds (R356) -/

@[simp] theorem fxEvent_places (kind off : Nat) (tag : BitVec 11) (s : State) :
    SamePlaces s (fxEvent kind off tag s) := by simp [fxEvent, SamePlaces]

@[simp] theorem putFx_places (i : Nat) (c : FxCmd) (s : State) : SamePlaces s (putFx i c s) := by simp [putFx, SamePlaces]

@[simp] theorem dropFx_places (i : Nat) (s : State) : SamePlaces s (dropFx i s) := by simp [dropFx, SamePlaces]

@[simp] theorem fxHold_places (i : Nat) (c : FxCmd) (reason : Nat) (s : State) :
    SamePlaces s (fxHold i c reason s) := by simp [fxHold, SamePlaces]

@[simp] theorem execFabricMatch_places (send : Bool) (i : Nat) (far : FarSide) (s : State) :
    (execFabricMatch send i far s).All (SamePlaces s) := by
  unfold execFabricMatch
  (repeat' split) <;> simp [SamePlaces, Out.All]

/-! ### Frames (R356, R357) -/

@[simp] theorem fxArrive_places (i : Nat) (c : FxCmd) (bytes : List Byte) (s : State) :
    SamePlaces s (fxArrive i c bytes s) := by
  unfold fxArrive
  dsimp only
  (repeat' split) <;> simp [SamePlaces]

@[simp] theorem fxCheck_places (c : FxCmd) (s : State) : SamePlaces s (fxCheck c s).1 := by
  unfold fxCheck
  split
  · exact .refl s
  · split
    · exact checkTiles_places ..
    · exact .refl s

@[simp] theorem execFabricLinkFail_places (i : Nat) (s : State) : (execFabricLinkFail i s).All (SamePlaces s) := by
  unfold execFabricLinkFail
  (repeat' split) <;> simp [SamePlaces, Out.All]

/-! ### Instructions -/

@[simp] theorem takeFx_places (c : FxCmd) (s : State) : SamePlaces s (takeFx c s) := by simp [takeFx, SamePlaces]

@[simp] theorem takeTsat_places (t : Word) (s : State) : SamePlaces s (takeTsat t s) := by simp [takeTsat, SamePlaces]

/-! ### The service core's crypto unit -/

@[simp] theorem modCr_places (f : Crypto → Crypto) (s : State) : SamePlaces s (modCr f s) := by simp [modCr, SamePlaces]

/-! ### The unit's step -/

@[simp] theorem extendMeas_places (m : BitVec 3) (v : List Byte) (s : State) :
    SamePlaces s (extendMeas m v s) := by simp [extendMeas, SamePlaces]

/-! ### Instructions -/

@[simp] theorem takeCr_places (op : CrOp) (id : Nat) (s : State) :
    SamePlaces s (takeCr op id s) := by simp [takeCr, SamePlaces]

/-! ### Fault details (R333) -/

@[simp] theorem setBr_places (b : Fin 4) (v : Bracket) (s : State) :
    SamePlaces s (setBr b v s) := by simp [setBr, SamePlaces]

/-! ### The unit's decisions (R332, R335, R338) -/

@[simp] theorem titheReply_places (r : TitheReq) (v : Word) (f : Option TrapInfo) (s : State) :
    SamePlaces s (titheReply r v f s) := by
  unfold titheReply
  split <;> simp [SamePlaces]

@[simp] theorem tideTh_places (r : TitheReq) (c : Cause) (reason operand : Nat) (s : State) :
    SamePlaces s (tideTh r c reason operand s) := by simp [tideTh, SamePlaces]

@[simp] theorem titheRefuse_places (r : TitheReq) (c : Cause) (slot index : Nat) (s : State) :
    SamePlaces s (titheRefuse r c slot index s) := by simp [titheRefuse, SamePlaces]

@[simp] theorem decide1_places (r : TitheReq) (s : State) : SamePlaces s (decide1 r s) := by
  unfold decide1
  (repeat' split) <;> simp [SamePlaces]

@[simp] theorem writeStatement_places (r : TitheReq) (index : Nat) (nonce : Word) (segs : List Seg) (s : State) :
    SamePlaces s (writeStatement r index nonce segs s) := by
  unfold writeStatement
  split <;> simp [SamePlaces]

@[simp] theorem titheNext_places (r : TitheReq) (rest : List TitheReq) (s : State) : SamePlaces s (titheNext r rest s) := by
  unfold titheNext
  split <;> simp [SamePlaces]

@[simp] theorem execTitheDecide_places (s : State) : (execTitheDecide s).All (SamePlaces s) := by
  unfold execTitheDecide
  (repeat' split) <;> simp [SamePlaces, Out.All]

@[simp] theorem execMeterStatement_places (s : State) : (execMeterStatement s).All (SamePlaces s) := by
  unfold execMeterStatement
  (repeat' split) <;> simp [SamePlaces, Out.All]

/-! ### Installation of terms (R323, R324) -/

@[simp] theorem installTerms_places (m : List Byte) (s : State) : SamePlaces s (installTerms m s).2 := by
  unfold installTerms
  split <;> simp [SamePlaces]

/-! ### The end of a bracket (R337) -/

@[simp] theorem zeroRun_places (off len : Nat) (s : State) : SamePlaces s (zeroRun off len s) := by
  unfold zeroRun
  split <;> simp [SamePlaces]

@[simp] theorem scrubFurrow_places (f : Fin 16) (s : State) :
    SamePlaces s (scrubFurrow f s) := by simp [scrubFurrow, SamePlaces]

/-! ### Instructions (R334 to R339) -/

@[simp] theorem takeTithe_places (r : TitheReq) (s : State) : SamePlaces s (takeTithe r s) := by simp [takeTithe, SamePlaces]

/-! ### The KV unit of the die -/

@[simp] theorem modKv_places (f : Kv → Kv) (s : State) : SamePlaces s (modKv f s) := by simp [modKv, SamePlaces]

/-! ### The index (R364) -/

@[simp] theorem modNode_places (id : Nat) (f : KvNode → KvNode) (s : State) :
    SamePlaces s (modNode id f s) := by simp [modNode, SamePlaces]

@[simp] theorem acquireNodes_places (l : List KvNode) (s : State) :
    SamePlaces s (acquireNodes l s) := by simp [acquireNodes, SamePlaces]

theorem pickFree_places {l : List Nat} {s s1 : State} {n : Nat} (ok : pickFree l s = some (n, s1)) : SamePlaces s s1 := by
  unfold pickFree at ok
  split at ok
  · cases ok
  · cases ok
    simp [SamePlaces]

@[simp] theorem insertNodes_places (ctx : Nat) (p : Option Nat) (bs : List (List Nat)) (pgs : List Nat) (s : State) :
    SamePlaces s (insertNodes ctx p bs pgs s).2 := by
  induction bs generalizing p pgs s with
  | nil => exact .refl s
  | cons b bs ih =>
    cases pgs with
    | nil => exact .refl s
    | cons pg pgs =>
      unfold insertNodes
      split
      · exact .refl s
      · next free => exact (pickFree_places free).trans ((modKv_places ..).trans (ih ..))

@[simp] theorem refNode_places (ctx : Nat) (add : Bool) (id : Nat) (s : State) : SamePlaces s (refNode ctx add id s).2 := by
  unfold refNode
  (repeat' split) <;> simp [SamePlaces]

@[simp] theorem refNodes_places (ctx : Nat) (add : Bool) (ids : List Nat) (s : State) :
    SamePlaces s (refNodes ctx add ids s).2 := by
  induction ids generalizing s with
  | nil => exact .refl s
  | cons id ids ih => exact (refNode_places ..).trans (ih _)

@[simp] theorem evictNodes_places (ctx n : Nat) (s : State) : SamePlaces s (evictNodes ctx n s).2 := by
  induction n generalizing s with
  | zero => exact .refl s
  | succ n ih =>
    unfold evictNodes
    split
    · exact .refl s
    · exact (modKv_places ..).trans (ih _)

/-! ### Pages (R365) -/

@[simp] theorem putHandle_places (h : KvHandle) (s : State) : SamePlaces s (putHandle h s) := by simp [putHandle, SamePlaces]

@[simp] theorem dropHandle_places (ctx num : Nat) (s : State) :
    SamePlaces s (dropHandle ctx num s) := by simp [dropHandle, SamePlaces]

@[simp] theorem takePages_places (n : Nat) (s : State) : SamePlaces s (takePages n s).2 := by
  induction n generalizing s with
  | zero => exact .refl s
  | succ n ih =>
    unfold takePages
    split
    · exact .refl s
    · next free => exact (pickFree_places free).trans ((modKv_places ..).trans (ih _))

@[simp] theorem writeList_places (phys : Nat) (l : List Nat) (s : State) : SamePlaces s (writeList phys l s) := by
  unfold writeList
  dsimp only
  split <;> simp [SamePlaces]

@[simp] theorem kvReply_places (r : KvReq) (v n : Nat) (s : State) :
    SamePlaces s (kvReply r v n s) := by simp [kvReply, SamePlaces]

@[simp] theorem finishAlloc_places (r : KvReq) (s : State) : SamePlaces s (finishAlloc r s) := by
  unfold finishAlloc
  dsimp only
  split <;> simp [SamePlaces]

@[simp] theorem attention_places (v : Word) (s : State) : SamePlaces s (attention v s) := by
  unfold attention
  (repeat' split) <;> simp [SamePlaces]

@[simp] theorem allocPages_places (r : KvReq) (s : State) : SamePlaces s (allocPages r s) := by
  unfold allocPages
  dsimp only
  (repeat' split) <;> simp [SamePlaces]

@[simp] theorem freePages_places (ctx num : Nat) (pgs : List Nat) (s : State) :
    SamePlaces s (freePages ctx num pgs s).2 := by
  induction pgs generalizing s with
  | nil => exact .refl s
  | cons pg pgs ih =>
    unfold freePages
    split
    · exact ih s
    · split
      · exact ih s
      · exact (modKv_places ..).trans (ih _)

@[simp] theorem releaseHandle_places (ctx num : Nat) (s : State) : SamePlaces s (releaseHandle ctx num s) := by
  unfold releaseHandle
  split <;> simp [SamePlaces]

@[simp] theorem ackHandle_places (r : KvReq) (s : State) : SamePlaces s (ackHandle r s) := by
  unfold ackHandle
  dsimp only
  (repeat' split) <;> simp [SamePlaces]

/-! ### The unit's step -/

@[simp] theorem kvRun_places (r : KvReq) (s : State) : SamePlaces s (kvRun r s) := by
  unfold kvRun
  (repeat' split) <;> simp [SamePlaces]

@[simp] theorem execKvDecide_places (s : State) : (execKvDecide s).All (SamePlaces s) := by
  unfold execKvDecide
  split <;> simp [SamePlaces, Out.All]

/-! ### Instructions (R363) -/

@[simp] theorem takeKv_places (r : KvReq) (s : State) : SamePlaces s (takeKv r s) := by simp [takeKv, SamePlaces]

/-! ### Checked actions (R116 to R119) -/

@[simp] theorem giveReg_places (x : Issuer) (d : BitVec 6) (v : Word) (word lat : Nat) (s : State) :
    SamePlaces s (giveReg x d v word lat s) :=
  modCtx_places _ _ _ fun c => by split <;> simp

@[simp] theorem takeQueued_places (firm : Bool) (block : List Word) (s : State) :
    SamePlaces s (takeQueued firm block s) := by simp [takeQueued, SamePlaces]

@[simp] theorem deliver_places (queue die core : Nat) (block : List Word) (s : State) :
    SamePlaces s (deliver queue die core block s) := by
  unfold deliver
  (repeat' split) <;> simp [SamePlaces]

/-! ### end (R105, R151, R159, R307, R350, R356) -/

@[simp] theorem endStream_places (x : Issuer) (s : State) : SamePlaces s (endStream x s) := by simp [endStream, SamePlaces]

@[simp] theorem releaseRecords_places (s : State) : SamePlaces s (releaseRecords s) := by simp [releaseRecords, SamePlaces]

/-! ### sys (R40, R147, R159) -/

@[simp] theorem callPushes_places (pc : Pc) (s : State) : SamePlaces s (callPushes pc s) := by simp [callPushes, SamePlaces]

@[simp] theorem stopStreams_places (s : State) : SamePlaces s (stopStreams s) := by simp [stopStreams, SamePlaces]

@[simp] theorem dropHeld_places (s : State) : SamePlaces s (dropHeld s) := by
  unfold dropHeld
  dsimp only
  (repeat' split) <;> simp [SamePlaces]

@[simp] theorem dropLater_places (s : State) : SamePlaces s (dropLater s) := by
  unfold dropLater
  split <;> simp [SamePlaces]

@[simp] theorem killTask_places (reason : BitVec 20) (s : State) :
    SamePlaces s (killTask reason s) := by simp [killTask, SamePlaces]

/-! ### Interrupts and BUDGET (R139, R148, R250, R430) -/

@[simp] theorem setPending_places (f : Ctx → Ctx) (was : Ctx → Bool) (x : Issuer) (s : State) (h : ∀ c, (f c).pc = c.pc) :
    SamePlaces s (setPending f was x s) :=
  modCtx_places _ _ _ fun c => by split <;> simp [h]

@[simp] theorem execTimerExpiry_places (s : State) : (execTimerExpiry s).All (SamePlaces s) := by
  unfold execTimerExpiry
  (repeat' split) <;> simp [SamePlaces, Out.All]

@[simp] theorem execBudgetExpiry_places (s : State) : (execBudgetExpiry s).All (SamePlaces s) := by
  unfold execBudgetExpiry
  split <;> simp [SamePlaces, Out.All]

@[simp] theorem execWfeTimeout_places (x : Issuer) (s : State) : (execWfeTimeout x s).All (SamePlaces s) := by
  unfold execWfeTimeout
  split <;> simp [SamePlaces, Out.All]

@[simp] theorem execAttn_places (v : BitVec 64) (s : State) :
    (execAttn v s).All (SamePlaces s) := by simp [execAttn, SamePlaces, Out.All]

@[simp] theorem clearPending_pc (k : Cause) (c : Ctx) : (clearPending k c).pc = c.pc := by
  unfold clearPending
  split <;> simp

/-! ### Barriers, Sluices, hung groups -/

@[simp] theorem execBarrierPhaseComplete_places (b : BitVec 2) (s : State) :
    (execBarrierPhaseComplete b s).All (SamePlaces s) := by
  unfold execBarrierPhaseComplete
  dsimp only
  split <;> simp [SamePlaces, Out.All]

@[simp] theorem execSluicePass_places (u : EgressUser) (s : State) : (execSluicePass u s).All (SamePlaces s) := by
  unfold execSluicePass
  split <;> simp [SamePlaces, Out.All]

@[simp] theorem execHungDetect_places (s : State) : (execHungDetect s).All (SamePlaces s) := by
  unfold execHungDetect
  split <;> simp [SamePlaces, Out.All]

/-! ### Pre-emption (R27, R28, R152 to R156) -/

@[simp] theorem execPreemptDemand_places (s : State) : (execPreemptDemand s).All (SamePlaces s) := by
  unfold execPreemptDemand
  split <;> simp [SamePlaces, Out.All]

@[simp] theorem execEngineSavePoint_places (s : State) : (execEngineSavePoint s).All (SamePlaces s) := by
  unfold execEngineSavePoint
  split <;> simp [SamePlaces, Out.All]

@[simp] theorem stopAtSafe_places (f : Issuer → Bool) (s : State) : SamePlaces s (stopAtSafe f s) := by
  unfold stopAtSafe
  split
  · exact .refl s
  · exact foldl_places _ (fun s x => modCtx_places _ _ _ fun c => by split <;> rfl) taskStreams s

/-! ### Soft errors (R81, R120, R164, R176, R210, R264, R282, R310, R404) -/

@[simp] theorem strikeReg_pc (n : Nat) (flip : BitVec 64) (lasting : Bool) (c : Ctx) :
    (strikeReg n flip lasting c).pc = c.pc := by
  unfold strikeReg
  (repeat' split) <;> simp

@[simp] theorem execSoftError_places (t : ErrorTarget) (s : State) : (execSoftError t s).All (SamePlaces s) := by
  unfold execSoftError
  (repeat' split) <;> simp [SamePlaces, Out.All]

/-! ### Queues (R397, R398, R406) -/

@[simp] theorem setQueue_places (die q : Nat) (v : HostQueue) (s : State) :
    SamePlaces s (setQueue die q v s) := by simp [setQueue, SamePlaces]

@[simp] theorem touchOwner_places (s : State) : SamePlaces s (touchOwner s) := by simp [touchOwner, SamePlaces]

@[simp] theorem writeQueueReg_places (die q reg : Nat) (v : BitVec 64) (s : State) :
    SamePlaces s (writeQueueReg die q reg v s) := by
  unfold writeQueueReg
  split <;> simp [SamePlaces]

@[simp] theorem execRegisterWrite_places (master : BitVec 24) (off : Nat) (v : BitVec 64) (s : State) :
    (execRegisterWrite master off v s).All (SamePlaces s) := by
  unfold execRegisterWrite
  (repeat' split) <;> simp [SamePlaces, Out.All]

/-! ### Completion records (R402) -/

@[simp] theorem writeVa_places (ctx : Nat) (va : Word) (b : List Byte) (s : State) : SamePlaces s (writeVa ctx va b s) := by
  unfold writeVa
  split <;> simp [SamePlaces]

@[simp] theorem raiseMsix_places (flags : BitVec 8) (die q : Nat) (s : State) : SamePlaces s (raiseMsix flags die q s) := by
  unfold raiseMsix
  split <;> simp [SamePlaces]

@[simp] theorem reportLaunch_places (die q : Nat) (p : Packet) (status reason failed gen : Nat) (s : State) :
    SamePlaces s (reportLaunch die q p status reason failed gen s) := by simp [reportLaunch, SamePlaces]

@[simp] theorem endMgmt_places (m : Mgmt) (status reason : Nat) (s : State) :
    SamePlaces s (endMgmt m status reason s) := by simp [endMgmt, SamePlaces]

/-! ### QTAIL_WRITE (R23, R398) -/

@[simp] theorem rejectPacket_places (die q : Nat) (p : Packet) (n : Nat) (s : State) :
    SamePlaces s (rejectPacket die q p n s) := by simp [rejectPacket, SamePlaces]

/-! ### PACKET_CHECK (R400, R401) -/

@[simp] theorem countServed_places (die q : Nat) (bulk : Bool) (s : State) :
    SamePlaces s (countServed die q bulk s) := by simp [countServed, SamePlaces]

@[simp] theorem execPacketCheck_places (die q : Nat) (s : State) : (execPacketCheck die q s).All (SamePlaces s) := by
  unfold execPacketCheck
  dsimp only
  (repeat' split) <;> simp [SamePlaces, Out.All]

/-! ### Timed starts and wave gates (R30, R401, R420) -/

@[simp] theorem standAt_places (l : Launch) (st : LaunchState) (gen : Nat) (s : State) :
    SamePlaces s (standAt l st gen s) := by simp [standAt, SamePlaces]

@[simp] theorem execTimedStart_places (s : State) : (execTimedStart s).All (SamePlaces s) := by
  unfold execTimedStart
  split <;> simp [SamePlaces, Out.All]

@[simp] theorem execGatedAdmit_places (s : State) : (execGatedAdmit s).All (SamePlaces s) := by
  unfold execGatedAdmit
  (repeat' split) <;> simp [SamePlaces, Out.All]

/-! ### COMPLETION_RECORD (R402) -/

@[simp] theorem execCompletionRecord_places (failed : Nat) (s : State) :
    (execCompletionRecord failed s).All (SamePlaces s) := by
  unfold execCompletionRecord
  split <;> simp [SamePlaces, Out.All]

/-! ### Scheduler cores (R404, R405) -/

@[simp] theorem execImemRepair_places (core addr : Nat) (s : State) : (execImemRepair core addr s).All (SamePlaces s) := by
  unfold execImemRepair
  (repeat' split) <;> simp [SamePlaces, Out.All]

@[simp] theorem execDieHold_places (die : Nat) (s : State) : (execDieHold die s).All (SamePlaces s) := by
  unfold execDieHold
  (repeat' split) <;> simp [SamePlaces, Out.All]

@[simp] theorem execSchedRestart_places (core : Nat) (s : State) :
    (execSchedRestart core s).All (SamePlaces s) := by simp [execSchedRestart, SamePlaces, Out.All]

/-! ### Claim registers (R406 to R409) -/

@[simp] theorem giveUp_places (s : State) : SamePlaces s (giveUp s) := by simp [giveUp, SamePlaces]

@[simp] theorem decideClaim_places (master : BitVec 24) (nonce : Option (BitVec 32)) (s : State) :
    SamePlaces s (decideClaim master nonce s) := by
  unfold decideClaim
  (repeat' split) <;> simp [SamePlaces]

@[simp] theorem decideClaims_places (l : List (BitVec 24 × Option (BitVec 32))) (s : State) :
    SamePlaces s (decideClaims l s) := by
  induction l generalizing s with
  | nil => exact .refl s
  | cons p l ih =>
    unfold decideClaims
    split
    · exact (decideClaim_places ..).trans (ih _)
    · exact .refl s

@[simp] theorem arriveClaim_places (master : BitVec 24) (nonce : Option (BitVec 32)) (s : State) :
    SamePlaces s (arriveClaim master nonce s) := by
  unfold arriveClaim
  split <;> simp [SamePlaces]

@[simp] theorem execClaim_places (master : BitVec 24) (nonce : BitVec 32) (s : State) :
    (execClaim master nonce s).All (SamePlaces s) := by simp [execClaim, SamePlaces, Out.All]

@[simp] theorem execBeat_places (master : BitVec 24) (s : State) : (execBeat master s).All (SamePlaces s) := by
  unfold execBeat
  split <;> simp [SamePlaces, Out.All]

@[simp] theorem execRelease_places (master : BitVec 24) (s : State) :
    (execRelease master s).All (SamePlaces s) := by simp [execRelease, SamePlaces, Out.All]

@[simp] theorem execLeaseExpiry_places (s : State) : (execLeaseExpiry s).All (SamePlaces s) := by
  unfold execLeaseExpiry
  split <;> simp [SamePlaces, Out.All]

/-! ### Management commands (R415) -/

@[simp] theorem mgmtNote_places (m : Mgmt) (fields : List Nat) (s : State) :
    SamePlaces s (mgmtNote m fields s) := by simp [mgmtNote, SamePlaces]

@[simp] theorem mgmtDone_places (m : Mgmt) (fields : List Nat) (s : State) :
    SamePlaces s (mgmtDone m fields s) := by simp [mgmtDone, SamePlaces]

@[simp] theorem mgmtRefuse_places (m : Mgmt) (fields : List Nat) (s : State) :
    SamePlaces s (mgmtRefuse m fields s) := by simp [mgmtRefuse, SamePlaces]

@[simp] theorem manage_places (kind : Nat) (ok : Bool) (fields : List Nat) (f : State → State) (s : State)
    (h : SamePlaces s (f s)) :
    (manage kind ok fields f s).All (SamePlaces s) := by
  unfold manage
  split
  · exact .refl s
  · refine whenFits_places _ _ ?_
    split
    · exact h.trans (mgmtDone_places ..)
    · exact mgmtRefuse_places ..

@[simp] theorem extendConfig_places (kind : Nat) (fields : List Nat) (s : State) :
    SamePlaces s (extendConfig kind fields s) := by simp [extendConfig, SamePlaces]

@[simp] theorem setModel_places (m : Model) (s : State) : SamePlaces s (setModel m s) := by simp [setModel, SamePlaces]

@[simp] theorem writeHeader_places (m : Model) (k : Nat) (s : State) : SamePlaces s (writeHeader m k s) := by
  unfold writeHeader
  dsimp only
  split <;> simp [SamePlaces]

/-! #### The copies of a layer -/

@[simp] theorem waveZero_places (c : CpBlk) (s : State) : SamePlaces s (waveZero c s) := by simp [waveZero, SamePlaces]

@[simp] theorem execTidelineTrim_places (seq : Nat) (s : State) : (execTidelineTrim seq s).All (SamePlaces s) := by
  unfold execTidelineTrim
  dsimp only
  (repeat' split) <;> simp [SamePlaces, Out.All]

@[simp] theorem loadImages_places (is : List Image) (s : State) :
    SamePlaces s (loadImages is s) := by simp [loadImages, SamePlaces]

/-! ### Firmware (R421, R422) -/

@[simp] theorem switchFirmware_places (f : FirmwareMsg) (s : State) :
    SamePlaces s (switchFirmware f s) := by simp [switchFirmware, SamePlaces]

@[simp] theorem activated_places (m : Mgmt) (s : State) : SamePlaces s (activated m s) := by
  unfold activated
  dsimp only
  (repeat' split) <;> simp [SamePlaces]

@[simp] theorem execFirmwareActivate_places (s : State) : (execFirmwareActivate s).All (SamePlaces s) := by
  unfold execFirmwareActivate
  (repeat' split) <;> simp [SamePlaces, Out.All]

/-! ### Hosts and other agents (R32, R378, R379, R406) -/

@[simp] theorem execHostWrite_places (x0 : Tier) (pa : Nat) (bytes : List (BitVec 8)) (x3 : Bool) (s : State) :
    (execHostWrite x0 pa bytes x3 s).All (SamePlaces s) := by
  unfold execHostWrite
  split <;> simp [SamePlaces, Out.All]

@[simp] theorem execHostRead_places (ctx va len : Nat) (s : State) : (execHostRead ctx va len s).All (SamePlaces s) := by
  unfold execHostRead
  (repeat' split) <;> simp [SamePlaces, Out.All]

@[simp] theorem execCxlAgentAccess_places (pa : Nat) (w : Option (List (BitVec 8))) (s : State) :
    (execCxlAgentAccess pa w s).All (SamePlaces s) := by
  unfold execCxlAgentAccess
  dsimp only
  (repeat' split) <;> simp [SamePlaces, Out.All]

/-! ### Time, boot and power (R33, R409, R410, R414, R423, R425) -/

@[simp] theorem execPtpCorrection_places (delta : Int) (s : State) : (execPtpCorrection delta s).All (SamePlaces s) := by
  unfold execPtpCorrection
  split <;> simp [SamePlaces, Out.All]

@[simp] theorem bootData_places (s : State) : SamePlaces s (bootData s) := by
  unfold bootData
  (repeat' split) <;> simp [SamePlaces]

@[simp] theorem execClockThrottle_places (hot : Bool) (s : State) :
    (execClockThrottle hot s).All (SamePlaces s) := by simp [execClockThrottle, SamePlaces, Out.All]

/-! ### The mailbox and the certificate store (R435, R436) -/

@[simp] theorem respond_places (r : List Byte) (s : State) : SamePlaces s (respond r s) := by simp [respond, SamePlaces]

/-! ### Answers -/

@[simp] theorem spdmError_places (code data : Nat) (s : State) :
    SamePlaces s (spdmError code data s) := by simp [spdmError, SamePlaces]

@[simp] theorem spdmCommit_places (req : List Byte) (a : Answer) (s : State) : SamePlaces s (spdmCommit req a s) := by
  unfold spdmCommit
  dsimp only
  (repeat' split) <;> simp [SamePlaces]

/-! ### Issue (R38, R54, R158) -/

@[simp] theorem advance_places (s : State) : SamePlaces s (advance s) := by simp [advance, SamePlaces]

@[simp] theorem takeSlot_places (x : Issuer) (s : State) : SamePlaces s (takeSlot x s) := by
  unfold takeSlot
  split <;> simp [SamePlaces]

/-! ### The end of a cycle -/

@[simp] theorem arriveTokens_places (s : State) : SamePlaces s (arriveTokens s) := by simp [arriveTokens, SamePlaces]

@[simp] theorem passTime_places (s : State) : SamePlaces s (passTime s) := by simp [passTime, SamePlaces]

@[simp] theorem stepBudget_places (s : State) : SamePlaces s (stepBudget s) := by
  unfold stepBudget
  (repeat' split) <;> simp [SamePlaces]

@[simp] theorem newCycle_places (s : State) : SamePlaces s (newCycle s) := by simp [newCycle, SamePlaces]

@[simp] theorem takeBlocks_places (l : List Block) (s : State) : SamePlaces s (takeBlocks l s) := by
  induction l generalizing s with
  | nil => exact .refl s
  | cons b l ih =>
    unfold takeBlocks
    split
    · refine .trans ?_ (ih _)
      simp [SamePlaces]
    · exact ih s

@[simp] theorem arriveBlocks_places (s : State) : SamePlaces s (arriveBlocks s) := by simp [arriveBlocks, SamePlaces]

/-! ### Placing a word (log 1) -/

end Sys2Proof.Machine
end

section
/-! Instruction addresses: traps, the checker's queue and the issue protocol keep them multiples of 8. -/

namespace Sys2Proof.Machine

/-! ### Contexts -/

section
variable {s t : State} {x : Issuer}

theorem aligned_ctxOf (aligned : s.Aligned) (x : Issuer) : (ctxOf s x).Aligned := by
  obtain ⟨⟨k, l, c, st⟩, firm, -⟩ := aligned
  cases x <;> assumption

theorem aligned_setCtx {c : Ctx} (aligned : s.Aligned) (h : c.Aligned) : (setCtx x c s).Aligned := by
  obtain ⟨⟨k, l, c, st⟩, firm, rest⟩ := aligned
  cases x with
  | kTask => exact ⟨⟨h, l, c, st⟩, firm, rest⟩
  | kFirm => exact ⟨⟨k, l, c, st⟩, h, rest⟩
  | l => exact ⟨⟨k, h, c, st⟩, firm, rest⟩
  | c => exact ⟨⟨k, l, h, st⟩, firm, rest⟩
  | s => exact ⟨⟨k, l, c, h⟩, firm, rest⟩

theorem aligned_modCtx {f : Ctx → Ctx} (aligned : s.Aligned) (h : (f (ctxOf s x)).Aligned) : (modCtx x f s).Aligned :=
  aligned_setCtx aligned h

theorem aligned_next {pc : Pc} (h : pc.toNat % 8 = 0) : (pc + 8).toNat % 8 = 0 := by
  have sum : (pc + 8).toNat = (pc.toNat + 8) % 2 ^ 17 := BitVec.toNat_add ..
  omega

theorem aligned_ite {p : Prop} [Decidable p] {a b : State} (ha : a.Aligned) (hb : b.Aligned) : (if p then a else b).Aligned := by
  split <;> assumption

/-! ### Traps -/

theorem masked_aligned (pc : Pc) : (pc &&& ~~~7).toNat % 8 = 0 := by
  have low : (BitVec.setWidth 3 (pc &&& ~~~(7 : BitVec 17))).toNat = 0 := by
    rw [BitVec.setWidth_and]
    simp
  simpa only [BitVec.toNat_setWidth] using low

theorem handlerOf_aligned {c : Ctx} {pc : Pc} (found : handlerOf c = some pc) : pc.toNat % 8 = 0 := by
  unfold handlerOf at found
  dsimp only at found
  split at found
  · cases found
  · cases found
    exact masked_aligned _

theorem aligned_haltStream {cause operand : Word} {pc : Pc} {written : Bool} (aligned : s.Aligned) (h : pc.toNat % 8 = 0) :
    (haltStream x cause operand pc written s).Aligned :=
  aligned_modCtx (x := x) (f := fun c => { c with
    run := .halted cause operand written, pc := pc, blocked := false, inFlight := false, tried := none, wfe := none }) aligned h

theorem aligned_enterHandler {cause : Word} {pc target : Pc} (aligned : s.Aligned) (h : target.toNat % 8 = 0) :
    (enterHandler x cause pc target s).Aligned := aligned_modCtx aligned h

theorem aligned_saveFrame {cause operand : Word} {pc : Pc} (aligned : s.Aligned) : (saveFrame x cause pc operand s).Aligned :=
  aligned.same (saveFrame_places ..)

theorem aligned_takeTrap {f : TrapInfo} {pc : Pc} (aligned : s.Aligned) (h : pc.toNat % 8 = 0) :
    (takeTrap x f pc s).Aligned := by
  have told : (reportTh (x == .kFirm) f s).Aligned := aligned.same (reportTh_places ..)
  unfold takeTrap
  dsimp only
  split
  · split
    · exact told.same (holdCore_places ..)
    · split
      · next found _ => exact aligned_enterHandler (aligned_saveFrame told) (handlerOf_aligned found)
      · exact told.same (holdCore_places ..)
  · split
    · exact aligned_haltStream told h
    · split
      · exact aligned_haltStream (aligned_saveFrame told) h
      · split
        · next found =>
          split
          · exact aligned_haltStream (aligned_saveFrame told) h
          · exact aligned_enterHandler (aligned_saveFrame told) (handlerOf_aligned found)
        · exact aligned_haltStream (aligned_saveFrame told) h

/-! ### The checker's queue -/

/-- An action that brings no fault out of place before the checker. -/
def Action.InPlace : Action → Prop
  | .fault _ pc => pc.toNat % 8 = 0
  | _ => True

theorem aligned_enqueueAs {s0 : State} {act : Action} {va : Word} {ac : BitVec 3} {due : Nat} (origin : s0.Aligned)
    (aligned : s.Aligned) (inPlace : act.InPlace) : (enqueueAs s0 act va ac due s).Aligned := by
  obtain ⟨task, firm, snaps, faults, saves⟩ := aligned
  refine ⟨task, firm, fun c mem => ?_, fun c mem f pc is => ?_, saves⟩
  · rcases List.mem_append.mp mem with old | new
    · exact snaps c old
    · obtain rfl := List.mem_singleton.mp new
      exact aligned_ctxOf origin _
  · rcases List.mem_append.mp mem with old | new
    · exact faults c old f pc is
    · obtain rfl := List.mem_singleton.mp new
      change act = .fault f pc at is
      rw [is] at inPlace
      exact inPlace

theorem aligned_enqueue {act : Action} {va : Word} {ac : BitVec 3} (aligned : s.Aligned) (inPlace : act.InPlace) :
    (enqueue act va ac s).Aligned := aligned_enqueueAs aligned aligned inPlace

theorem aligned_foldl {α : Type} {f : State → α → State} {l : List α} (aligned : s.Aligned)
    (h : ∀ t a, t.Aligned → (f t a).Aligned) : (l.foldl f s).Aligned := by
  induction l generalizing s with
  | nil => exact aligned
  | cons a l ih => exact ih (h s a aligned)

theorem aligned_schedule {l : List (Fifo × Nat)} {due : Nat} (origin : s.Aligned) (aligned : t.Aligned) :
    (schedule x l due s t).Aligned := by
  unfold schedule
  split
  · exact aligned_foldl aligned fun t p aligned => aligned_enqueueAs origin aligned trivial
  · exact aligned.same (by simp [SamePlaces])

theorem aligned_raise {f : TrapInfo} {pc : Pc} (origin : s.Aligned) (aligned : t.Aligned) (h : pc.toNat % 8 = 0) :
    (raise x f pc s t).Aligned := by
  unfold raise
  split
  · exact (aligned_enqueueAs (act := .fault f pc) origin aligned h).same (block_places ..)
  · exact aligned_takeTrap aligned h

theorem aligned_faultHere {f : TrapInfo} (aligned : s.Aligned) : (faultHere x f s).Aligned :=
  aligned_raise aligned aligned (aligned_ctxOf aligned x)

/-! ### How a word issues -/

theorem aligned_issued {pc : Pc} (aligned : s.Aligned) (h : pc.toNat % 8 = 0) : (issued x pc s).Aligned := by
  have begun : (beginWord x s).Aligned := aligned.same (beginWord_places ..)
  have moved := aligned_modCtx (x := x) (f := fun c => { c with
    pc := pc, inFlight := false, blocked := false, tried := none,
    popped := if c.popped == some c.pc then none else c.popped,
    asked := if c.popped == some c.pc then none else c.asked }) begun h
  unfold issued
  dsimp only
  split
  · exact moved.same (by simp [SamePlaces])
  · exact moved

theorem aligned_popAll {pops : List (Fifo × Nat)} (aligned : s.Aligned) : (popAll x pops s).Aligned :=
  aligned.same (popAll_places ..)

/-- The machine that a result answers stands at words, and so does where it goes. -/
def Result.Straight : Result → Prop
  | .done t _ | .async t | .wait t | .waitIssued t | .waitReply t | .chunk t | .trapKeep t _ | .trapIssued t _ | .jumped t =>
    t.Aligned
  | .goto t pc | .doneTrap t _ pc => t.Aligned ∧ pc.toNat % 8 = 0
  | .trap _ => True

theorem Result.straight_ite {p : Prop} [Decidable p] {a b : Result} (ha : a.Straight) (hb : b.Straight) :
    (if p then a else b).Straight := by
  split <;> assumption

theorem Result.Stays.straight {r : Result} (stays : r.Stays s) (aligned : s.Aligned) : r.Straight := by
  cases r with
  | goto t pc => exact ⟨aligned.same stays.1, stays.2⟩
  | doneTrap t f pc => exact ⟨aligned.same stays.1, stays.2⟩
  | trap => trivial
  | _ => exact aligned.same stays

theorem aligned_settle {pops pushes : List (Fifo × Nat)} {r : Result} (aligned : s.Aligned) (straight : r.Straight) :
    (settle x pops pushes s r).Aligned := by
  have next := aligned_next (aligned_ctxOf aligned x)
  cases r with
  | done t lat => exact aligned_schedule aligned (aligned_issued (aligned_popAll straight) next)
  | async t => exact aligned_issued (aligned_popAll (State.Aligned.same straight (attachPushes_places ..))) next
  | goto t pc => exact aligned_schedule aligned (aligned_issued (aligned_popAll straight.1) straight.2)
  | doneTrap t f pc =>
    exact aligned_raise aligned (aligned_schedule aligned (aligned_issued (aligned_popAll straight.1) straight.2)) straight.2
  | wait t => exact State.Aligned.same straight (block_places ..)
  | waitIssued t => exact (aligned_popAll straight).same (goesOn_places ..)
  | waitReply t => exact (aligned_popAll straight).same (goesOn_places ..)
  | chunk t => exact (aligned_popAll straight).same (goesOn_places ..)
  | trap f => exact aligned_faultHere aligned
  | trapKeep t f => exact aligned_faultHere straight
  | trapIssued t f =>
    exact aligned_raise aligned ((aligned_popAll straight).same (goesOn_places ..)) (aligned_ctxOf aligned x)
  | jumped t => exact aligned_schedule aligned (aligned_popAll straight)

section
variable {h : Hdr} {xpush xpop : List (Fifo × Nat)} {reads : List Nat} {body : State → Result}

theorem aligned_issueT (aligned : s.Aligned) (straight : (body s).Straight) :
    (issueT h xpush xpop reads body s).All State.Aligned := by
  have waits : (block (issuerOf s) s).Aligned := aligned.same (block_places ..)
  have repaired (id : Nat) (v : Word) (lat : Nat) : (repair (issuerOf s) id v lat s).Aligned := aligned.same (repair_places ..)
  unfold issueT
  extract_lets x c guardTrue pushes pops
  split
  · exact waits
  · split
    · exact waits
    · exact repaired ..
    · exact aligned_faultHere aligned
    · split
      · exact waits
      · split
        · exact aligned_faultHere aligned
        · split
          · exact aligned_settle aligned aligned
          · split
            · exact waits
            · exact repaired ..
            · exact aligned_faultHere aligned
            · exact aligned_settle aligned straight

theorem aligned_issue (aligned : s.Aligned) (straight : (body s).Straight) :
    (issue h reads body s).All State.Aligned := aligned_issueT aligned straight

/-- A word whose body moves no stream itself. -/
theorem aligned_issue_stays (aligned : s.Aligned) (stays : (body s).Stays s) : (issue h reads body s).All State.Aligned :=
  aligned_issueT aligned (stays.straight aligned)

theorem aligned_issueT_stays (aligned : s.Aligned) (stays : (body s).Stays s) :
    (issueT h xpush xpop reads body s).All State.Aligned := aligned_issueT aligned (stays.straight aligned)

end

end

end Sys2Proof.Machine
end

section
/-! Instruction addresses: plans of vector words, and the operations that need more than their definition to move no stream. -/

namespace Sys2Proof.Machine

/-! ### Chunked execution (R219 to R224) -/

/-- What a vector word does in its chunks, at its end and before a fault moves no stream. -/
structure Plan.Stays (pl : Plan) : Prop where
  step : ∀ p lo hi s, SamePlaces s (pl.step p lo hi s).2
  finish : ∀ p s, SamePlaces s (pl.finish p s).2
  onFault : ∀ p s, SamePlaces s (pl.onFault p s)

theorem complete_stays {pl : Plan} (h : pl.Stays) (p : VProg) (s : State) : (complete pl p s).Stays s :=
  (h.finish p s).trans (by simp [SamePlaces])

theorem runPlan_stays {pl : Plan} (h : pl.Stays) (p : VProg) (s : State) : (runPlan pl p s).Stays s := by
  unfold runPlan
  extract_lets q endPhase hi r _ q1
  have ended (p : VProg) (t : State) : (endPhase p t).Stays t := by
    unfold endPhase
    split
    · exact setProg_places ..
    · exact complete_stays h p t
  have stepped : SamePlaces s r.2 := h.step ..
  split
  · exact ended q s
  · split
    · split
      · exact (setProg_places ..).trans (holdUntil_places ..)
      · exact (h.onFault ..).trans (setProg_places ..)
    · split
      · exact stepped.trans (setProg_places ..)
      · exact (ended q1 r.2).after stepped

theorem mapPlan_stays {n cycles : Nat} {ws : List Win} {d : Win} {srcs : List Win} {f : VProg → Nat → State → Nat × State}
    (hf : ∀ p i s, SamePlaces s (f p i s).2) : (mapPlan n cycles ws d srcs f).Stays where
  step p _ _ _ := (touchAll_places ..).trans (forRange_places _ _ _ _ fun i s => (hf p i s).trans (Win.put_places ..))
  finish _ s := .refl s
  onFault _ s := .refl s

theorem indexedPlan_stays {cycles : Nat} {ws : List Win} {idx table : Win} {srcs : List Win} {drop readsTable : Bool}
    {live : State → Nat → Bool} {f : Nat → Option Nat → State → State} (hf : ∀ i k s, SamePlaces s (f i k s)) :
    (indexedPlan cycles ws idx table srcs drop readsTable live f).Stays where
  step p _ _ _ := by
    refine (touchAll_places ..).trans (forRange_places _ _ _ _ fun i s => ?_)
    split
    · refine .trans ?_ (hf ..)
      split
      · exact Win.touch_places ..
      · exact .refl s
    · exact .refl s
  finish _ s := .refl s
  onFault _ s := .refl s

theorem hgenPlan_stays (ws : List Win) : (hgenPlan ws).Stays where
  step _ _ _ _ := genAt_places ..
  finish _ s := .refl s
  onFault _ s := .refl s

theorem hchkPlan_stays (ts : Tiles) (ro : Bool) (ea : Fin 768) : (hchkPlan ts ro ea).Stays where
  step _ _ _ _ := checkAt_places ..
  finish _ s := .refl s
  onFault _ _ := ⟨rfl, rfl, rfl, rfl, rfl, rfl, rfl⟩

theorem hupdPlan_stays (s0 : State) (d a : Win) : (hupdPlan s0 d a).Stays where
  step p lo hi s := by
    dsimp only [hupdPlan]
    split
    · exact (((checkPart_places ..).trans (touchTile_places ..)).trans
        (foldl_places _ (fun _ _ => touchAll_places ..) _ _)).trans (updTile_places ..)
    · split
      · exact .refl s
      · exact foldl_places _ (fun _ _ => (touchAll_places ..).trans (Win.put_places ..)) _ s
  finish _ s := .refl s
  onFault _ s := .refl s

@[simp] theorem checkChunks_stays (ro : Bool) (t : HTarget) (ea : Fin 768) (s : State) : (checkChunks ro t ea s).Stays s := by
  unfold checkChunks
  split
  · split
    · trivial
    · exact runPlan_stays (hchkPlan_stays ..) _ s
  · split
    · trivial
    · exact runPlan_stays (hchkPlan_stays ..) _ s

/-! ### Units -/

theorem mcStep_places (c : McCmd) (s : State) : (mcStep c s).All (SamePlaces s) := by
  unfold mcStep
  cases replyCycles c s with
  | none => exact mcUnit_places c s
  | some n =>
    dsimp only
    split
    · exact .refl s
    · exact mcUnit_places c s

theorem crRun_places (op : CrOp) (s : State) : SamePlaces s (crRun op s).2 := by
  fun_cases crRun op s with
  | case1 n => exact modCr_places ..
  | case2 n a => exact modCr_places ..
  | case3 n dst tail len => exact spadWrite_places ..
  | case4 msg len sig => exact spadWrite_places ..
  | case5 msg len sig pub => exact .refl s
  | case6 m a => exact extendMeas_places ..
  | case7 m a => exact spadWrite_places ..
  | case8 slot a b k e => exact (modCr_places ..).trans (tideAdd_places ..)
  | case9 slot a b => exact tideAdd_places ..

theorem fxCheck_places_of {c : FxCmd} {s s1 : State} {r : Option TrapInfo} (checked : fxCheck c s = (s1, r)) : SamePlaces s s1 :=
  (congrArg (fun p => SamePlaces s p.1) checked).mp (fxCheck_places c s)

@[simp] theorem fxSend_places (i : Nat) (c : FxCmd) (n : Nat) (s : State) : SamePlaces s (fxSend i c n s) := by
  unfold fxSend
  extract_lets k out ctx
  split
  · exact egressAsk_places ..
  · split
    · next checked => exact (fxCheck_places_of checked).trans (by simp [SamePlaces])
    · next s1 checked =>
      extract_lets bytes s2 s4 s3
      have sent : SamePlaces s s2 := (fxCheck_places_of checked).trans (by simp [s2, SamePlaces])
      have moved : SamePlaces s s3 := by
        refine sent.trans ?_
        have dropped : SamePlaces s2 s4 := dropFx_places ..
        unfold s3
        split
        · exact putFx_places ..
        · split
          · exact dropped.trans (fxEvent_places ..)
          · exact dropped
      split
      · split
        · split
          · exact moved.trans (fxArrive_places ..)
          · exact moved
        · exact moved
      · exact moved

/-! ### The end of a bracket (R337) -/

@[simp] theorem scrubRegion_places (r : Nat × Nat) (s : State) : SamePlaces s (scrubRegion r s) := by
  unfold scrubRegion
  split
  · exact .refl s
  · exact (zeroRun_places r.1 r.2 s).trans
      (foldl_places _ (fun s q => by split <;> simp [SamePlaces]) _ _)

@[simp] theorem endBracket_places (i : Fin 4) (charge : Bool) (id : Option Nat) (s : State) :
    SamePlaces s (endBracket i charge id s) :=
  ((foldl_places _ (fun s f => scrubFurrow_places f s) _ s).trans (foldl_places _ (fun s r => scrubRegion_places r s) _ _)).trans
    (setBr_places i Bracket.empty _)

@[simp] theorem closeBracket_places (i : Fin 4) (abort : Bool) (id : Nat) (s : State) :
    SamePlaces s (closeBracket i abort id s) := endBracket_places ..

@[simp] theorem endBrackets_places (s : State) : SamePlaces s (endBrackets s) :=
  foldl_places _ (fun s i => by split <;> simp [SamePlaces]) _ s

@[simp] theorem finishTask_places (s : State) : SamePlaces s (finishTask s) := by
  have ended : SamePlaces s (releaseRecords (endBrackets s)) := (endBrackets_places s).trans (releaseRecords_places ..)
  exact ended.trans (by simp [finishTask, SamePlaces])

@[simp] theorem closeTask_places (s : State) : SamePlaces s (closeTask s) := by
  unfold closeTask
  (repeat' split) <;> simp [SamePlaces]

/-! ### The copies of a layer -/

@[simp] theorem waveMove_places (fuel : Nat) (c : CpCmd) (s : State) : SamePlaces s (waveMove fuel c s).2 := by
  induction fuel generalizing c s with
  | zero => exact .refl s
  | succ fuel ih =>
    unfold waveMove
    split
    · exact .refl s
    · split
      next n e sa da _ =>
      extract_lets src raw conv bad s1 marks s2
      have put : SamePlaces s s2 := (stepBytes_places ..).trans (memPutOut_places da.toNat conv.1 conv.2)
      exact put.trans (ih ..)

@[simp] theorem waveBlock_places (b : List Byte) (s : State) : SamePlaces s (waveBlock b s).2 := by
  unfold waveBlock
  extract_lets c k _ p y
  split
  · exact .refl s
  · have moved : SamePlaces s p.2 := waveMove_places ..
    split
    · exact moved
    · split
      · exact moved.trans (tideAdd_places ..)
      · exact moved.trans ((waveZero_places ..).trans (tideAdd_places ..))

@[simp] theorem waveChain_places (fuel a : Nat) (s : State) : SamePlaces s (waveChain fuel a s).2 := by
  induction fuel generalizing a s with
  | zero => exact .refl s
  | succ fuel ih =>
    unfold waveChain
    extract_lets b r
    have moved : SamePlaces s r.2 := waveBlock_places ..
    split
    · exact .refl s
    · split
      · exact moved.trans (ih ..)
      · exact moved

@[simp] theorem waveLayer_places (ok : Bool) (m : Model) (g k : Nat) (s : State) : SamePlaces s (waveLayer ok m g k s) := by
  have loaded (r : Bool × State) (h : SamePlaces s r.2) : SamePlaces s
      (if r.1 then
        tideAdd titheSource 0x28 [m.num, k, g] (setModel { m with
          gens := m.gens.set k (g, true), wave := if k + 1 < m.gens.length then some (g, k + 1) else none } (writeHeader m k r.2))
      else
        tideAdd titheSource 0x29 [m.num, k, g] (setModel { m with
          gens := m.gens.set k ((m.gens.getD k (0, true)).1, false), halt := true } r.2)) := by
    split
    · exact h.trans (by simp [SamePlaces])
    · exact h.trans (by simp [SamePlaces])
  refine loaded _ ?_
  split
  · exact waveChain_places ..
  · exact .refl s

/-! ### Hosts -/

theorem destroyImage_places (i : SaveImage) (s : State) : SamePlaces s (destroyImage i s) := by
  obtain ⟨-, -, -, -, firm, checkq, saves⟩ :=
    endBrackets_places { s with task := i.task, side := i.side, holds := i.holds }
  simp only [SamePlaces, destroyImage, firm, checkq, saves, and_self]

@[simp] theorem nonceBytes_places (s : State) : SamePlaces s (nonceBytes s).2 :=
  foldl_snd_places (fun (p : List Byte × State) (_ : Nat) => (p.1 ++ leBytes 8 (drawNoise 4 64 p.2).1,
    (drawNoise 4 64 p.2).2)) (fun _ _ => drawNoise_places ..) (List.range 4) ([], s)

@[simp] theorem spdmAnswer_places (b : List Byte) (s : State) (r : SpdmReq) : SamePlaces s (spdmAnswer b s r).2 := by
  cases r with
  | challenge => exact nonceBytes_places s
  | measurements => exact nonceBytes_places s
  | _ => exact .refl s

theorem answerWith_places (q : Option SpdmReq) (b : List Byte) (s : State) : SamePlaces s (answerWith q b s) := by
  unfold answerWith
  split
  · exact spdmError_places ..
  split
  · exact spdmError_places ..
  split
  · exact spdmError_places ..
  split
  · exact spdmError_places ..
  split
  · exact spdmError_places ..
  · exact (spdmAnswer_places ..).trans (spdmCommit_places ..)

theorem spdmStep_places (r : SpdmReq) (s : State) : (spdmStep r s).All (SamePlaces s) := by
  unfold spdmStep
  dsimp only
  split
  · exact answerWith_places ..
  · exact .refl s

end Sys2Proof.Machine
end

section
/-! Instruction addresses: words whose body moves no stream, in the order of the model's. -/

namespace Sys2Proof.Machine

/-! ### Arithmetic (R89 to R96) -/

theorem aligned_execNop {h : Hdr} {s : State} (aligned : s.Aligned) :
    (execNop h s).All State.Aligned := aligned_issue_stays aligned (by simp [SamePlaces])

theorem aligned_execLi {h : Hdr} {d : BitVec 6} {imm : BitVec 32} {s : State} (aligned : s.Aligned) :
    (execLi h d imm s).All State.Aligned := aligned_issue_stays aligned (by simp)

theorem aligned_execLih {h : Hdr} {d : BitVec 6} {imm : BitVec 32} {s : State} (aligned : s.Aligned) :
    (execLih h d imm s).All State.Aligned := aligned_issue_stays aligned (by simp)

theorem aligned_execAlu {h : Hdr} {fn : AluFn} {d a b : BitVec 6} {s : State} (aligned : s.Aligned) :
    (execAlu h fn d a b s).All State.Aligned := aligned_issue_stays aligned (by simp)

theorem aligned_immOp {f : Word → Word → Word} {lat : Nat} {h : Hdr} {d a : BitVec 6} {imm : BitVec 26} {s : State}
    (aligned : s.Aligned) :
    (immOp f lat h d a imm s).All State.Aligned := aligned_issue_stays aligned (by simp)

theorem aligned_execAddi {h : Hdr} {d a : BitVec 6} {imm : BitVec 26} {s : State} (aligned : s.Aligned) :
    (execAddi h d a imm s).All State.Aligned := aligned_immOp aligned

theorem aligned_execAndi {h : Hdr} {d a : BitVec 6} {imm : BitVec 26} {s : State} (aligned : s.Aligned) :
    (execAndi h d a imm s).All State.Aligned := aligned_immOp aligned

theorem aligned_execOri {h : Hdr} {d a : BitVec 6} {imm : BitVec 26} {s : State} (aligned : s.Aligned) :
    (execOri h d a imm s).All State.Aligned := aligned_immOp aligned

theorem aligned_execXori {h : Hdr} {d a : BitVec 6} {imm : BitVec 26} {s : State} (aligned : s.Aligned) :
    (execXori h d a imm s).All State.Aligned := aligned_immOp aligned

theorem aligned_execMuli {h : Hdr} {d a : BitVec 6} {imm : BitVec 26} {s : State} (aligned : s.Aligned) :
    (execMuli h d a imm s).All State.Aligned := aligned_immOp aligned

theorem aligned_shiftOp {fn : AluFn} {h : Hdr} {d a n : BitVec 6} {s : State} (aligned : s.Aligned) :
    (shiftOp fn h d a n s).All State.Aligned := aligned_issue_stays aligned (by simp)

theorem aligned_execShli {h : Hdr} {d a n : BitVec 6} {s : State} (aligned : s.Aligned) :
    (execShli h d a n s).All State.Aligned := aligned_shiftOp aligned

theorem aligned_execShri {h : Hdr} {d a n : BitVec 6} {s : State} (aligned : s.Aligned) :
    (execShri h d a n s).All State.Aligned := aligned_shiftOp aligned

theorem aligned_execSari {h : Hdr} {d a n : BitVec 6} {s : State} (aligned : s.Aligned) :
    (execSari h d a n s).All State.Aligned := aligned_shiftOp aligned

theorem aligned_execCmp {h : Hdr} {cc : CmpCc} {pd : BitVec 4} {a b : BitVec 6} {s : State} (aligned : s.Aligned) :
    (execCmp h cc pd a b s).All State.Aligned := aligned_issue_stays aligned (by simp [SamePlaces])

theorem aligned_execCmpi {h : Hdr} {cc : CmpCc} {pd : BitVec 4} {a : BitVec 6} {imm : BitVec 20} {s : State}
    (aligned : s.Aligned) :
    (execCmpi h cc pd a imm s).All State.Aligned := aligned_issue_stays aligned (by simp [SamePlaces])

theorem aligned_execPlog {h : Hdr} {fn : PlogFn} {d a b : BitVec 4} {s : State} (aligned : s.Aligned) :
    (execPlog h fn d a b s).All State.Aligned := aligned_issue_stays aligned (by simp [SamePlaces])

theorem aligned_execSel {h : Hdr} {d a b : BitVec 6} {s : State} (aligned : s.Aligned) :
    (execSel h d a b s).All State.Aligned := aligned_issue_stays aligned (by simp)

theorem aligned_execLea {h : Hdr} {scale : BitVec 2} {d a b : BitVec 6} {s : State} (aligned : s.Aligned) :
    (execLea h scale d a b s).All State.Aligned := aligned_issue_stays aligned (by simp)

/-! ### Transfers and loops (R97 to R101) -/

theorem aligned_execSafe {h : Hdr} {s : State} (aligned : s.Aligned) :
    (execSafe h s).All State.Aligned := aligned_issue_stays aligned (by dsimp only; split <;> simp [SamePlaces])

/-! ### Special registers (R111 to R113, R187) -/

theorem aligned_execRsr {h : Hdr} {d : BitVec 6} {r : SpecialReg} {s : State} (aligned : s.Aligned) :
    (execRsr h d r s).All State.Aligned := aligned_issue_stays aligned (by simp)

/-! ### Ports and noise (R114, R115) -/

theorem aligned_execEcountOut {h : Hdr} {d : BitVec 6} {port : Port} {s : State} (aligned : s.Aligned) :
    (execEcountOut h d port s).All State.Aligned := aligned_issue_stays aligned (by simp)

/-! ### Tokens, barriers, remote enqueue, atomics, fences, marks, `wfe` -/

theorem aligned_execTkp {h : Hdr} {f : Fifo} {n : BitVec 6} {s : State} (aligned : s.Aligned) :
    (execTkp h f n s).All State.Aligned := aligned_issueT_stays aligned (by simp [SamePlaces])

theorem aligned_execTkw {h : Hdr} {f : Fifo} {n : BitVec 6} {s : State} (aligned : s.Aligned) :
    (execTkw h f n s).All State.Aligned := aligned_issueT_stays aligned (by simp [SamePlaces])

theorem aligned_execTkc {h : Hdr} {d : BitVec 6} {f : Fifo} {s : State} (aligned : s.Aligned) :
    (execTkc h d f s).All State.Aligned := aligned_issue_stays aligned (by simp)

/-! ### Fences, marks, events (R137 to R139) -/

theorem aligned_execFence {h : Hdr} {kind : FenceKind} {sc : Scope} {s : State} (aligned : s.Aligned) :
    (execFence h kind sc s).All State.Aligned := aligned_issue_stays aligned
    (by dsimp only; (repeat' split) <;> simp [SamePlaces])

theorem aligned_execMark {h : Hdr} {s : State} (aligned : s.Aligned) :
    (execMark h s).All State.Aligned := aligned_issue_stays aligned (by dsimp only; split <;> simp [SamePlaces])

theorem aligned_execWfe {h : Hdr} {imm : BitVec 20} {s : State} (aligned : s.Aligned) :
    (execWfe h imm s).All State.Aligned := aligned_issue_stays aligned (by (repeat' split) <;> simp [SamePlaces])

/-! ### Software traps and the timer (R146, R147, R427) -/

theorem aligned_execBrk {h : Hdr} {imm : BitVec 20} {s : State} (aligned : s.Aligned) :
    (execBrk h imm s).All State.Aligned := aligned_issue_stays aligned (by (repeat' split) <;> simp [SamePlaces])

theorem aligned_execSysTmr {h : Hdr} {mask : BitVec 4} {imm : BitVec 20} {s : State} (aligned : s.Aligned) :
    (execSysTmr h mask imm s).All State.Aligned := aligned_issue_stays aligned (by simp [SamePlaces])

/-! ### Issue -/

theorem aligned_execLdr {h : Hdr} {f pitch : BitVec 4} {ab : BitVec 6} {ac : BitVec 3} {off : BitVec 16} {s : State}
    (aligned : s.Aligned) :
    (execLdr h f pitch ab ac off s).All State.Aligned :=
  aligned_issue_stays aligned (by dsimp only; (repeat' split) <;> simp [SamePlaces])

theorem aligned_execLdw {h : Hdr} {w : BitVec 5} {ab : BitVec 6} {ac : BitVec 3} {off : BitVec 16} {s : State}
    (aligned : s.Aligned) :
    (execLdw h w ab ac off s).All State.Aligned :=
  aligned_issue_stays aligned (by dsimp only; (repeat' split) <;> simp [SamePlaces])

theorem aligned_execPf {h : Hdr} {tr : Bool} {ab : BitVec 6} {off : BitVec 16} {s : State} (aligned : s.Aligned) :
    (execPf h tr ab off s).All State.Aligned := aligned_issue_stays aligned (by dsimp only; split <;> simp [SamePlaces])

theorem aligned_execStp {h : Hdr} {sz : Sz} {q : Fin 8} {ab : BitVec 6} {ac : BitVec 3} {off : BitVec 16} {s : State}
    (aligned : s.Aligned) :
    (execStp h sz q ab ac off s).All State.Aligned :=
  aligned_issue_stays aligned (by dsimp only; (repeat' split) <;> simp [SamePlaces])

/-! ### Queue control (R175) -/

theorem aligned_execQfl {h : Hdr} {q : QName} {s : State} (aligned : s.Aligned) :
    (execQfl h q s).All State.Aligned := aligned_issue_stays aligned (by dsimp only; (repeat' split) <;> simp [SamePlaces])

theorem aligned_execQln {h : Hdr} {dst : QlnDst} {q : QName} {s : State} (aligned : s.Aligned) :
    (execQln h dst q s).All State.Aligned := aligned_issue_stays aligned (by (repeat' split) <;> simp [SamePlaces])

/-! ### Arithmetic (R197 to R203) -/

theorem aligned_element {h : Hdr} {ed : EOp} {srcs : List EOp} {lat : Nat} {f : List Elem → Elem} {s : State}
    (aligned : s.Aligned) :
    (element h ed srcs lat f s).All State.Aligned := aligned_issue_stays aligned (by simp)

theorem aligned_execFop {h : Hdr} {fn : FopFn} {ed ea eb : EOp} {s : State} (aligned : s.Aligned) :
    (execFop h fn ed ea eb s).All State.Aligned := aligned_element aligned

theorem aligned_execFma {h : Hdr} {c : Addend} {ed ea eb : EOp} {s : State} (aligned : s.Aligned) :
    (execFma h c ed ea eb s).All State.Aligned := aligned_element aligned

theorem aligned_execFnma {h : Hdr} {c : Addend} {ed ea eb : EOp} {s : State} (aligned : s.Aligned) :
    (execFnma h c ed ea eb s).All State.Aligned := aligned_element aligned

theorem aligned_execFrcp {h : Hdr} {ed ea : EOp} {s : State} (aligned : s.Aligned) :
    (execFrcp h ed ea s).All State.Aligned := aligned_element aligned

theorem aligned_execFrsq {h : Hdr} {ed ea : EOp} {s : State} (aligned : s.Aligned) :
    (execFrsq h ed ea s).All State.Aligned := aligned_element aligned

theorem aligned_execFrfr {h : Hdr} {ed ea eb : EOp} {s : State} (aligned : s.Aligned) :
    (execFrfr h ed ea eb s).All State.Aligned := aligned_element aligned

theorem aligned_execFrfs {h : Hdr} {ed ea eb : EOp} {s : State} (aligned : s.Aligned) :
    (execFrfs h ed ea eb s).All State.Aligned := aligned_element aligned

theorem aligned_execFcmp {h : Hdr} {cc : FcmpCc} {pd : BitVec 4} {ea eb : EOp} {s : State} (aligned : s.Aligned) :
    (execFcmp h cc pd ea eb s).All State.Aligned := aligned_issue_stays aligned (by simp)

theorem aligned_execIcmp {h : Hdr} {cc : CmpCc} {pd : BitVec 4} {ea eb : EOp} {s : State} (aligned : s.Aligned) :
    (execIcmp h cc pd ea eb s).All State.Aligned := aligned_issue_stays aligned (by simp)

theorem aligned_execIop {h : Hdr} {fn : IopFn} {ed ea eb : EOp} {s : State} (aligned : s.Aligned) :
    (execIop h fn ed ea eb s).All State.Aligned := aligned_element aligned

/-! ### Constants, moves, select (R204) -/

theorem aligned_execEli {h : Hdr} {ed : EOp} {imm : BitVec 18} {s : State} (aligned : s.Aligned) :
    (execEli h ed imm s).All State.Aligned := aligned_element aligned

theorem aligned_execElih {h : Hdr} {ed : Fin 768} {imm : BitVec 14} {s : State} (aligned : s.Aligned) :
    (execElih h ed imm s).All State.Aligned := aligned_element aligned

theorem aligned_execEmov {h : Hdr} {ed ea : EOp} {s : State} (aligned : s.Aligned) :
    (execEmov h ed ea s).All State.Aligned := aligned_element aligned

theorem aligned_execEsel {h : Hdr} {ed ea eb : EOp} {s : State} (aligned : s.Aligned) :
    (execEsel h ed ea eb s).All State.Aligned := aligned_issue_stays aligned (by simp)

/-! ### The rotating region (R189, R190) -/

theorem aligned_execRot {h : Hdr} {imm : BitVec 18} {s : State} (aligned : s.Aligned) :
    (execRot h imm s).All State.Aligned := aligned_issue_stays aligned (by split <;> simp [SamePlaces])

/-! ### Scratchpad access (R205) -/

theorem aligned_execEld {h : Hdr} {ed : EOp} {base : Option (Fin 768)} {off : BitVec 18} {s : State} (aligned : s.Aligned) :
    (execEld h ed base off s).All State.Aligned := aligned_issue_stays aligned (by (repeat' split) <;> simp [SamePlaces])

theorem aligned_execEst {h : Hdr} {data : Fin 768} {base : Option (Fin 768)} {off : BitVec 18} {s : State}
    (aligned : s.Aligned) :
    (execEst h data base off s).All State.Aligned := aligned_issue_stays aligned (by split <;> simp [SamePlaces])

/-! ### Moves and window registers (R244, R245) -/

theorem aligned_execWget {h : Hdr} {rowf : Bool} {wa : BitVec 5} {ea : Fin 768} {s : State} (aligned : s.Aligned) :
    (execWget h rowf wa ea s).All State.Aligned := aligned_issue_stays aligned (by dsimp only; split <;> simp [SamePlaces])

/-! ### hchk (R294) -/

theorem aligned_execHchk {h : Hdr} {ro : Bool} {t : HTarget} {ea : Option (Fin 768)} {s : State} (aligned : s.Aligned) :
    (execHchk h ro t ea s).All State.Aligned := aligned_issue_stays aligned (by split <;> simp)

/-! ### hfix, hrd, htol (R295, R297, R298) -/

theorem aligned_execHrd {h : Hdr} {t : HTarget} {ea : Fin 768} {s : State} (aligned : s.Aligned) :
    (execHrd h t ea s).All State.Aligned :=
  aligned_issue_stays aligned (by dsimp only; (repeat' split) <;> simp)

/-! ### Frames (R356, R357) -/

@[simp] theorem execFabricFrame_places (send : Bool) (i : Nat) (bytes : List Byte) (s : State) :
    (execFabricFrame send i bytes s).All (SamePlaces s) := by
  unfold execFabricFrame
  (repeat' split) <;> simp [SamePlaces, Out.All]

/-! ### Ports (R114) -/

theorem aligned_execEcountIn {h : Hdr} {d : BitVec 6} {port : Port} {s : State} (aligned : s.Aligned) :
    (execEcountIn h d port s).All State.Aligned := aligned_issue_stays aligned (by simp)

/-! ### sys (R40, R147, R159) -/

theorem aligned_execSysKill {h : Hdr} {imm : BitVec 20} {s : State} (aligned : s.Aligned) :
    (execSysKill h imm s).All State.Aligned := aligned_issue_stays aligned (by (repeat' split) <;> simp [SamePlaces])

/-! #### The copies of a layer -/

@[simp] theorem execWaveLayer_places (ok : Bool) (s : State) : (execWaveLayer ok s).All (SamePlaces s) := by
  unfold execWaveLayer
  split <;> simp [SamePlaces, Out.All]

/-! ### The end of a cycle -/

@[simp] theorem tick_places (s : State) : SamePlaces s (tick s) := by simp [tick, SamePlaces]

end Sys2Proof.Machine
end

section
/-! Instruction addresses: control, synchronisation and access words. -/

namespace Sys2Proof.Machine

section
variable {s t : State} {h : Hdr}

theorem aligned_pcOf (aligned : s.Aligned) : (pcOf s).toNat % 8 = 0 := aligned_ctxOf aligned _

/-! ### Transfers and loops (R97 to R101) -/

theorem branchTarget_aligned {pc : Pc} (h : pc.toNat % 8 = 0) (off : BitVec 32) : (branchTarget pc off).toNat % 8 = 0 := by
  have sum : (branchTarget pc off).toNat = (pc.toNat + (off.setWidth 17 <<< 3 : BitVec 17).toNat) % 2 ^ 17 := BitVec.toNat_add ..
  have shifted : (off.setWidth 17 <<< 3 : BitVec 17).toNat = (off.setWidth 17).toNat * 8 % 2 ^ 17 := by
    rw [BitVec.toNat_shiftLeft, Nat.shiftLeft_eq]
  omega

theorem aligned_execBr {off : BitVec 32} (aligned : s.Aligned) : (execBr h off s).All State.Aligned :=
  aligned_issue aligned ⟨aligned, branchTarget_aligned (aligned_pcOf aligned) off⟩

theorem aligned_execCall {off : BitVec 32} (aligned : s.Aligned) : (execCall h off s).All State.Aligned :=
  aligned_issue aligned ⟨aligned.same (setReg_places ..), branchTarget_aligned (aligned_pcOf aligned) off⟩

theorem setWidth_aligned {t : Word} (low : t.extractLsb' 0 3 = 0) : (t.setWidth 17).toNat % 8 = 0 := by
  have bits := congrArg BitVec.toNat low
  simp only [BitVec.extractLsb'_toNat, BitVec.toNat_setWidth, Nat.shiftRight_zero] at bits ⊢
  change t.toNat % 2 ^ 3 = 0 at bits
  omega

theorem aligned_execJr {d a : BitVec 6} (aligned : s.Aligned) : (execJr h d a s).All State.Aligned := by
  refine aligned_issue aligned ?_
  dsimp only
  split
  · trivial
  · next legal =>
    have low : (getReg s a).extractLsb' 0 3 = 0 := by simp_all
    exact ⟨aligned.same (setReg_places ..), setWidth_aligned low⟩

/-- Where a loop of no turns goes on, at its end or at a null word, is a word. -/
def SkipTo.Aligned : SkipTo → Prop
  | .after pc | .null pc => pc.toNat % 8 = 0

theorem skipFrom_aligned {im : Memory} {onC : Bool} {n : BitVec 3} {start : Pc} {fuel : Nat} {pc : Pc}
    (hs : start.toNat % 8 = 0) (h : pc.toNat % 8 = 0) : (skipFrom im onC n start fuel pc).Aligned := by
  induction fuel generalizing pc with
  | zero => exact hs
  | succ fuel ih =>
    unfold skipFrom
    dsimp only
    split
    · exact h
    · split
      · exact aligned_next h
      · exact ih (aligned_next h)

theorem aligned_execLoop {n : BitVec 3} {src : LoopSrc} (aligned : s.Aligned) : (execLoop h n src s).All State.Aligned := by
  have here : (cur s).pc.toNat % 8 = 0 := aligned_pcOf aligned
  have found := skipFrom_aligned (im := (cur s).imem) (onC := issuerOf s == .c) (n := n) (fuel := 16384) here (aligned_next here)
  refine aligned_issue aligned ?_
  dsimp only
  split
  · split
    · next skipped =>
      rw [skipped] at found
      exact ⟨aligned.same (by simp [SamePlaces]), found⟩
    · next skipped =>
      rw [skipped] at found
      split
      · exact ⟨aligned, found⟩
      · exact aligned.same (by simp [SamePlaces])
  · exact aligned.same (by simp [SamePlaces])

theorem aligned_execEndl {n : BitVec 3} {off : BitVec 32} (aligned : s.Aligned) : (execEndl h n off s).All State.Aligned := by
  refine aligned_issue aligned ?_
  dsimp only
  split
  · exact ⟨aligned.same (setLc_places ..), branchTarget_aligned (aligned_pcOf aligned) off⟩
  · exact aligned.same (setLc_places ..)

/-! ### Accesses of K (R106 to R109) -/

theorem aligned_execLdk {sz : Sz} {d a : BitVec 6} {ac : BitVec 3} {off : BitVec 20} (aligned : s.Aligned) :
    (execLdk h sz d a ac off s).All State.Aligned := by
  refine aligned_issue_stays aligned ?_
  dsimp only
  split
  · trivial
  · split
    · trivial
    · split
      · exact waitToLoad_stays ..
      · split
        · simp [writeReg, SamePlaces]
        · split
          · trivial
          · split <;> simp [writeReg, SamePlaces]

theorem aligned_execStk {sz : Sz} {d a : BitVec 6} {ac : BitVec 3} {off : BitVec 20} (aligned : s.Aligned) :
    (execStk h sz d a ac off s).All State.Aligned := by
  refine aligned_issue aligned ?_
  dsimp only
  split
  · trivial
  · split
    · trivial
    · split
      · exact aligned.same (egressAsk_places ..)
      · exact (aligned_enqueue aligned (by trivial)).same ((tlbUse_places ..).trans (egressDone_places ..))

theorem aligned_execLds {sz : Sz} {d a : BitVec 6} {off : BitVec 20} (aligned : s.Aligned) :
    (execLds h sz d a off s).All State.Aligned := by
  refine aligned_issue_stays aligned ?_
  dsimp only
  split
  · trivial
  · split
    · exact waitToLoad_stays ..
    · split
      · trivial
      · split <;> simp [writeReg, SamePlaces]

theorem aligned_execSts {sz : Sz} {d a : BitVec 6} {off : BitVec 20} (aligned : s.Aligned) :
    (execSts h sz d a off s).All State.Aligned := by
  refine aligned_issue aligned ?_
  dsimp only
  split
  · trivial
  · have queued {act : Action} {va : Word} (inPlace : act.InPlace) : (enqueue act va 0 s).Aligned := aligned_enqueue aligned inPlace
    split
    · exact queued trivial
    · exact (queued (by trivial)).same (touchGuards_places ..)

/-! ### Special registers, ports, noise -/

theorem aligned_wsr {nrp : Option Bool} {share : Option (BitVec 8)} (aligned : s.Aligned) :
    (enqueue (.wsr nrp share) 0 0 s).Aligned := aligned_enqueue aligned trivial

theorem aligned_writeSpecial {r : SpecialReg} {v : Word} (aligned : s.Aligned) : (writeSpecial r v s).Aligned := by
  have queued {nrp : Option Bool} {share : Option (BitVec 8)} {f : Ctx → Ctx} (h : ∀ c, (f c).pc = c.pc) :
      (modCtx (issuerOf s) f (enqueue (.wsr nrp share) 0 0 s)).Aligned := (aligned_wsr aligned).same (modCtx_places _ _ _ h)
  cases r with
  | tvec => exact queued fun _ => rfl
  | tframe => exact queued fun _ => rfl
  | cause => exact queued fun _ => rfl
  | epc => exact queued fun _ => rfl
  | status =>
    unfold writeSpecial
    extract_lets x firm act s0 nrp s1
    refine State.Aligned.same ?_ (modCtx_places _ _ s1 fun _ => rfl)
    exact aligned_ite (aligned_wsr aligned) (aligned_wsr aligned)
  | share =>
    dsimp only [writeSpecial]
    split
    · exact aligned_wsr aligned
    · exact aligned_wsr aligned
  | _ => exact aligned_wsr aligned

theorem aligned_execWsr {r : SpecialReg} {a : BitVec 6} (aligned : s.Aligned) : (execWsr h r a s).All State.Aligned :=
  aligned_issue aligned (aligned_writeSpecial aligned)

theorem aligned_execEpop {d : BitVec 6} {port : Port} (aligned : s.Aligned) : (execEpop h d port s).All State.Aligned := by
  refine aligned_issue_stays aligned ?_
  dsimp only
  split
  · exact .refl s
  · split <;> simp [writeReg, SamePlaces]

theorem aligned_execRnd {d : BitVec 6} (aligned : s.Aligned) : (execRnd h d s).All State.Aligned :=
  aligned_issue_stays aligned ((drawNoise_places ..).trans (setReg_places ..))

/-! ### Barriers (R129 to R132) -/

theorem straight_barDone {report : Bool} (aligned : t.Aligned) : (barDone report t).Straight := by
  unfold barDone
  split
  · exact ⟨aligned.same (clearTouch_places ..), aligned_next (aligned_pcOf aligned)⟩
  · exact aligned

theorem aligned_waitOut {b : BitVec 2} (aligned : s.Aligned) (out : waitOut b s = some t) : t.Aligned :=
  aligned.same (waitOut_places _ _ _ out)

theorem aligned_execBara {b : BitVec 2} (aligned : s.Aligned) : (execBara h b s).All State.Aligned := by
  refine aligned_issue aligned ?_
  dsimp only
  split
  · exact aligned
  · split
    · split
      · exact aligned
      · next out => exact straight_barDone ((aligned_waitOut aligned out).same (arriveAt_places ..))
    · exact straight_barDone (aligned.same (arriveAt_places ..))

theorem aligned_execBarw {b : BitVec 2} (aligned : s.Aligned) : (execBarw h b s).All State.Aligned := by
  refine aligned_issue aligned ?_
  split
  · exact aligned
  · next out => exact straight_barDone (aligned_waitOut aligned out)

theorem aligned_execBar {b : BitVec 2} (aligned : s.Aligned) : (execBar h b s).All State.Aligned := by
  have before {t : State} (out : (if (barOf s b).waited < (barOf s b).arrive then waitOut b s else some s) = some t) :
      t.Aligned := by
    split at out
    · exact aligned_waitOut aligned out
    · cases out
      exact aligned
  refine aligned_issue aligned ?_
  dsimp only
  split
  · split
    · exact aligned
    · next out => exact straight_barDone (aligned_waitOut aligned out)
  · split
    · exact aligned
    · split
      · exact aligned
      · next out =>
        have arrived := (before out).same (arriveAt_places b _)
        split
        · exact arrived
        · next out' => exact straight_barDone (aligned_waitOut arrived out')

/-! ### Remote enqueue, atomics, traps -/

theorem aligned_execRenq {a b : BitVec 6} (aligned : s.Aligned) : (execRenq h a b s).All State.Aligned := by
  refine aligned_issue aligned ?_
  extract_lets desc at_ queue die core
  split
  · trivial
  · split
    · trivial
    · split
      · trivial
      · split
        · exact aligned
        · exact Result.straight_ite aligned (aligned_enqueue aligned trivial)

theorem aligned_amo {op : AmoOp} {dw wide : Bool} {pa lat : Nat} {d : BitVec 6} {b cmp va : Word} (aligned : s.Aligned) :
    (enqueue (.amo op dw pa d b cmp wide lat) va 0 s).Aligned := aligned_enqueue aligned trivial

theorem aligned_execAmo {op : AmoOp} {sc : Scope} {dw : Bool} {d a b : BitVec 6} (aligned : s.Aligned) :
    (execAmo h op sc dw d a b s).All State.Aligned := by
  refine aligned_issue aligned ?_
  extract_lets va n x ctx user
  split
  · trivial
  · split
    · trivial
    · extract_lets pa out p
      split
      · exact aligned
      · split
        · split
          · exact aligned
          · trivial
        · split
          · exact aligned.same (egressAsk_places ..)
          · split
            · refine aligned.same ?_
              simp only [SamePlaces]
              split <;> simp [p]
            · exact (aligned_amo aligned).same ((tlbUse_places ..).trans
                ((egressDone_places ..).trans (modCtx_places _ _ _ (markBusy_pc _ _))))

theorem aligned_execTrap {imm : BitVec 20} (aligned : s.Aligned) : (execTrap h imm s).All State.Aligned :=
  aligned_issue aligned ⟨aligned, aligned_next (aligned_pcOf aligned)⟩

theorem aligned_execSysCall {imm : BitVec 20} (aligned : s.Aligned) : (execSysCall h imm s).All State.Aligned := by
  refine aligned_issue aligned ?_
  split
  · trivial
  · split
    · trivial
    · exact ⟨aligned, aligned_next (aligned_pcOf aligned)⟩

/-! ### Access words (chapter 06) -/

theorem globalLoad_stays {sz : Sz} {q : Fin 20} {ac : BitVec 3} {ea : Word} {zp : Bool} {fin : State → State}
    (hf : ∀ t, SamePlaces t (fin t)) : (globalLoad sz q ac ea zp fin s).Stays s := by
  unfold globalLoad
  split
  · trivial
  · split
    · trivial
    · split
      · exact .refl s
      · next queued => exact (queueLoad_places queued).trans ((tlbUse_places ..).trans (hf _))

theorem globalStore_stays {ac : BitVec 3} {ea : Word} {bs : List Byte} {poison : Option Word} {fin : State → State}
    (hf : ∀ t, SamePlaces t (fin t)) : (globalStore ac ea bs poison fin s).Stays s := by
  unfold globalStore
  split
  · trivial
  · split
    · trivial
    · split
      · trivial
      · extract_lets n
        split
        · exact egressAsk_places ..
        · exact (hf s).trans ((addAccess_places ..).trans ((tlbUse_places ..).trans (egressDone_places ..)))

theorem aligned_execLd {zp : Bool} {sz : Sz} {q : Fin 8} {ab : BitVec 6} {ac : BitVec 3} {off : BitVec 16}
    (aligned : s.Aligned) : (execLd h zp sz q ab ac off s).All State.Aligned :=
  aligned_issue_stays aligned (globalLoad_stays .refl)

theorem aligned_execLdi {sz : Sz} {q : Fin 4} {ab : BitVec 6} {ac : BitVec 3} {off : BitVec 16} (aligned : s.Aligned) :
    (execLdi h sz q ab ac off s).All State.Aligned := aligned_issue_stays aligned (globalLoad_stays .refl)

theorem aligned_execLdg {zp : Bool} {sz : Sz} {iq : Fin 4} {q : Fin 8} {ab : BitVec 6} {ac : BitVec 3} {off : BitVec 16}
    (aligned : s.Aligned) : (execLdg h zp sz iq q ab ac off s).All State.Aligned := by
  refine aligned_issue_stays aligned ?_
  split
  · exact .refl s
  · split
    · trivial
    · exact globalLoad_stays fun t => qPop_places _ t

theorem aligned_execLdp {sz : Sz} {q : Fin 8} {ab : BitVec 6} {ac : BitVec 3} {off : BitVec 16} (aligned : s.Aligned) :
    (execLdp h sz q ab ac off s).All State.Aligned := by
  refine aligned_issue_stays aligned ?_
  extract_lets ea
  split
  · trivial
  · split
    · trivial
    · split
      · exact .refl s
      · next queued => exact (queueLoad_places queued).trans (touchGuards_places ..)

theorem aligned_execSt {sz : Sz} {q : Fin 8} {ab : BitVec 6} {ac : BitVec 3} {off : BitVec 16} (aligned : s.Aligned) :
    (execSt h sz q ab ac off s).All State.Aligned := by
  refine aligned_issue_stays aligned ?_
  extract_lets n
  split
  · exact .refl s
  · exact globalStore_stays fun t => popN_places _ n t

theorem aligned_execStg {sz : Sz} {iq q : Fin 8} {ab : BitVec 6} {ac : BitVec 3} {off : BitVec 16} (aligned : s.Aligned) :
    (execStg h sz iq q ab ac off s).All State.Aligned := by
  refine aligned_issue_stays aligned ?_
  extract_lets n
  split
  · exact globalStore_stays fun t => (qPop_places _ t).trans (popN_places _ n _)
  · exact .refl s

theorem checkTiles_places_of {idx : Nat} {disp : Int} {rs : List HRec} {r : Option TrapInfo}
    (checked : checkTiles idx disp rs s = (t, r)) : SamePlaces s t := by
  have same := checkTiles_places idx disp rs s
  rwa [checked] at same

theorem aligned_execStw {w : BitVec 5} {ab : BitVec 6} {ac : BitVec 3} {off : BitVec 16} (aligned : s.Aligned) :
    (execStw h w ab ac off s).All State.Aligned := by
  refine aligned_issue_stays aligned ?_
  extract_lets img ea sp lo len
  split
  · exact .refl s
  · split
    · trivial
    · split
      · trivial
      · split
        · trivial
        · extract_lets n
          split
          · exact .refl s
          · split
            · trivial
            · split
              · next checked => exact checkTiles_places_of checked
              · next checked =>
                refine Result.Stays.after (checkTiles_places_of checked) ?_
                split
                · exact .refl _
                · split
                  · exact egressAsk_places ..
                  · exact (addAccess_places ..).trans ((touchElems_places ..).trans
                      ((tlbUse_places ..).trans (egressDone_places ..)))

theorem aligned_execStt {keep : Bool} {f pitch : BitVec 4} {ab : BitVec 6} {ac : BitVec 3} {off : BitVec 16}
    (aligned : s.Aligned) : (execStt h keep f pitch ab ac off s).All State.Aligned := by
  refine aligned_issue_stays aligned ?_
  extract_lets fi v ea p i slot a n
  split
  · trivial
  · split
    · trivial
    · split
      · trivial
      · extract_lets out
        split
        · exact .refl s
        · split
          · trivial
          · split
            · exact .refl s
            · split
              · next checked => exact checkTiles_places_of checked
              · next checked =>
                refine Result.Stays.after (checkTiles_places_of checked) ?_
                split
                · exact .refl _
                · split
                  · exact egressAsk_places ..
                  · exact (addAccess_places ..).trans ((touchGuards_places ..).trans
                      ((tlbUse_places ..).trans (egressDone_places ..)))

/-! ### Element words (chapter 07) -/

theorem aligned_execFcvt {dst src : Fmt} {r : Rnd} {ed ea : EOp} (aligned : s.Aligned) :
    (execFcvt h dst src r ed ea s).All State.Aligned := by
  refine aligned_issue_stays aligned ?_
  split
  · exact .refl s
  · split
    · exact stallResult_stays ..
    · next read => exact (sources_places read).trans ((roundDraw_places ..).trans (putResult_places ..))

theorem aligned_execLbr {n : BitVec 3} {off : BitVec 18} (aligned : s.Aligned) : (execLbr h n off s).All State.Aligned := by
  have back : (lbrTarget (pcOf s) off).toNat % 8 = 0 := branchTarget_aligned (aligned_pcOf aligned) _
  refine aligned_issue aligned ?_
  extract_lets v again pass s2
  have passed (k : BitVec 32) : (pass k).Aligned := aligned.same (by simp [pass, SamePlaces])
  split
  · exact ⟨passed _, back⟩
  · split
    · exact ⟨passed 0, back⟩
    · exact passed 0

end

end Sys2Proof.Machine
end

section
/-! Instruction addresses: vector and headland words. -/

namespace Sys2Proof.Machine

section
variable {s : State} {h : Hdr}

/-! ### Vector-region words (chapter 08) -/

theorem aligned_vectorOf {us : State → List Use} {cs : List Clash} {scal : List EOp} {ids : List Nat}
    {refuse : List Win → State → Option TrapInfo} {first : List Win → List Elem → VProg → State → VProg × State}
    {plan : List Win → State → Plan} (aligned : s.Aligned) (hf : ∀ ws vs p t, SamePlaces t (first ws vs p t).2)
    (hp : ∀ ws t, (plan ws t).Stays) : (vectorOf h us cs scal ids refuse first plan s).All State.Aligned := by
  refine aligned_issue_stays aligned ?_
  split
  · trivial
  · split
    · exact runPlan_stays (hp ..) ..
    · split
      · trivial
      · split
        · exact stallResult_stays ..
        · next read => exact (runPlan_stays (hp ..) ..).after ((sources_places read).trans (hf ..))

theorem aligned_vector {us : State → List Use} {cs : List Clash} {scal : List EOp}
    {first : List Win → List Elem → VProg → State → VProg × State} {plan : List Win → State → Plan} (aligned : s.Aligned)
    (hf : ∀ ws vs p t, SamePlaces t (first ws vs p t).2) (hp : ∀ ws t, (plan ws t).Stays) :
    (vector h us cs scal first plan s).All State.Aligned := aligned_vectorOf aligned hf hp

/-- A plan whose only acts are its chunks. -/
theorem Plan.Stays.of_step {pl : Plan} (step : ∀ p lo hi s, SamePlaces s (pl.step p lo hi s).2)
    (finish : ∀ p s, (pl.finish p s).2 = s) (onFault : ∀ p s, pl.onFault p s = s) : pl.Stays :=
  ⟨step, fun p s => (finish p s).symm ▸ .refl s, fun p s => (onFault p s).symm ▸ .refl s⟩

theorem aligned_execVop {fn : VecOp} {r : Rnd} {wd wa wb : BitVec 5} (aligned : s.Aligned) :
    (execVop h fn r wd wa wb s).All State.Aligned :=
  aligned_vector aligned noFirst_places fun _ _ => mapPlan_stays fun _ _ _ => roundDraw_places ..

theorem aligned_execVfma {neg : Bool} {sc : Option EOp} {r : Rnd} {wd wa wb : BitVec 5} (aligned : s.Aligned) :
    (execVfma h neg sc r wd wa wb s).All State.Aligned :=
  aligned_vector aligned (by simp [SamePlaces]) fun _ _ => mapPlan_stays fun _ _ _ => roundDraw_places ..

theorem aligned_execVsc {fn : VecOp} {r : Rnd} {wd wa : BitVec 5} {ea : EOp} (aligned : s.Aligned) :
    (execVsc h fn r wd wa ea s).All State.Aligned :=
  aligned_vector aligned (by simp [SamePlaces]) fun _ _ => mapPlan_stays fun _ _ _ => roundDraw_places ..

theorem aligned_execVun {fn : VunFn} {r : Rnd} {wd wa : BitVec 5} (aligned : s.Aligned) :
    (execVun h fn r wd wa s).All State.Aligned := by
  refine aligned_vector aligned noFirst_places fun _ _ => mapPlan_stays fun _ _ t => ?_
  split
  · exact .refl t
  · exact roundDraw_places ..

theorem aligned_execVcvt {r : Rnd} {wd wa : BitVec 5} (aligned : s.Aligned) :
    (execVcvt h r wd wa s).All State.Aligned :=
  aligned_vector aligned noFirst_places fun _ _ => mapPlan_stays (by simp [SamePlaces])

theorem aligned_execVfill {r : Rnd} {wd : BitVec 5} {ea : EOp} (aligned : s.Aligned) :
    (execVfill h r wd ea s).All State.Aligned :=
  aligned_vector aligned (by simp [SamePlaces]) fun _ _ => mapPlan_stays fun _ _ t => .refl t

theorem aligned_execVred {fn : VredFn} {idx : Bool} {wa : BitVec 5} {ea : Fin 768} (aligned : s.Aligned) :
    (execVred h fn idx wa ea s).All State.Aligned :=
  aligned_vector aligned (by simp [SamePlaces]) fun _ _ =>
    .of_step (fun _ _ _ _ => touchAll_places ..) (fun _ _ => rfl) fun _ _ => rfl

theorem aligned_execVscan {exc : Bool} {r : Rnd} {wd wa : BitVec 5} (aligned : s.Aligned) :
    (execVscan h exc r wd wa s).All State.Aligned :=
  aligned_vector aligned (by simp [SamePlaces]) fun _ _ =>
    .of_step (fun _ _ _ _ => (touchAll_places ..).trans
      (foldl_snd_places _ (fun _ _ => (roundDraw_places ..).trans (Win.put_places ..)) _ (_, _)))
      (fun _ _ => rfl) fun _ _ => rfl

theorem aligned_execVcmp {cc : VcmpCc} {sc : Option EOp} {wd wa wb : BitVec 5} (aligned : s.Aligned) :
    (execVcmp h cc sc wd wa wb s).All State.Aligned :=
  aligned_vector aligned (by simp [SamePlaces]) fun _ _ => mapPlan_stays fun _ _ t => .refl t

theorem aligned_execVsel {wd wa wb wm : BitVec 5} (aligned : s.Aligned) : (execVsel h wd wa wb wm s).All State.Aligned :=
  aligned_vector aligned noFirst_places fun _ _ => mapPlan_stays fun _ _ t => .refl t

theorem aligned_execVcpr {wd wa wm : BitVec 5} {ea : Fin 768} (aligned : s.Aligned) :
    (execVcpr h wd wa wm ea s).All State.Aligned := by
  refine aligned_vector aligned noFirst_places fun _ _ =>
    .of_step (fun _ _ _ _ => (touchAll_places ..).trans (foldl_snd_places _ (fun q _ => ?_) _ (_, _)))
      (fun _ _ => rfl) fun _ _ => rfl
  dsimp only
  split
  · exact (Win.touch_places ..).trans (Win.put_places ..)
  · exact .refl q.2

theorem aligned_execVxpd {wd wa wm : BitVec 5} {ea : Fin 768} (aligned : s.Aligned) :
    (execVxpd h wd wa wm ea s).All State.Aligned :=
  aligned_vector aligned noFirst_places fun _ _ =>
    .of_step (fun _ _ _ _ => (Win.touch_places ..).trans (foldl_places _ (fun _ _ =>
      ((Win.touch_places ..).trans (Win.touch_places ..)).trans (Win.put_places ..)) _ _)) (fun _ _ => rfl) fun _ _ => rfl

theorem aligned_execVgat {z : Bool} {wd wa wb : BitVec 5} (aligned : s.Aligned) :
    (execVgat h z wd wa wb s).All State.Aligned :=
  aligned_vector aligned noFirst_places fun _ _ => indexedPlan_stays fun _ _ _ =>
    (Win.touch_places ..).trans (Win.put_places ..)

theorem aligned_execVsct {drop : Bool} {wd wa wb : BitVec 5} (aligned : s.Aligned) :
    (execVsct h drop wd wa wb s).All State.Aligned := by
  refine aligned_vector aligned noFirst_places fun _ _ => indexedPlan_stays fun _ _ t => ?_
  split
  · exact Win.put_places ..
  · exact .refl t

theorem aligned_execVsca {drop : Bool} {wd wa wb : BitVec 5} (aligned : s.Aligned) :
    (execVsca h drop wd wa wb s).All State.Aligned := by
  refine aligned_vector aligned noFirst_places fun _ _ => indexedPlan_stays fun _ _ t => ?_
  split
  · exact Win.put_places ..
  · exact .refl t

theorem aligned_bitPut {v valid drop : Bool} {wd wa wb : BitVec 5} (aligned : s.Aligned) :
    (bitPut v valid drop h wd wa wb s).All State.Aligned := by
  refine aligned_vector aligned noFirst_places fun _ _ => indexedPlan_stays fun _ _ t => ?_
  split
  · exact Win.put_places ..
  · exact .refl t

theorem aligned_bitTest {drop : Bool} {wd wa wb : BitVec 5} (aligned : s.Aligned) :
    (bitTest drop h wd wa wb s).All State.Aligned :=
  aligned_vector aligned noFirst_places fun _ _ => indexedPlan_stays fun _ _ _ =>
    (Win.touch_places ..).trans (Win.put_places ..)

theorem aligned_bitCount {wa : BitVec 5} {ea : Fin 768} (aligned : s.Aligned) :
    (bitCount h wa ea s).All State.Aligned :=
  aligned_vector aligned noFirst_places fun _ _ =>
    .of_step (fun _ _ _ _ => touchAll_places ..) (fun _ _ => rfl) fun _ _ => rfl

theorem aligned_execVbit {fn : VbitFn} {valid drop : Bool} {wd wa wb : BitVec 5} {ea : Fin 768} (aligned : s.Aligned) :
    (execVbit h fn valid drop wd wa wb ea s).All State.Aligned := by
  cases fn with
  | set => exact aligned_bitPut aligned
  | clr => exact aligned_bitPut aligned
  | tst => exact aligned_bitTest aligned
  | cnt => exact aligned_bitCount aligned

theorem aligned_execVrnd {unif : Bool} {wd : BitVec 5} (aligned : s.Aligned) :
    (execVrnd h unif wd s).All State.Aligned := by
  refine aligned_vector aligned noFirst_places fun _ _ => mapPlan_stays fun _ _ _ => ?_
  split
  · exact drawNoise_places ..
  · exact drawNoise_places ..

theorem aligned_execVhad {inv : Bool} {k : BitVec 4} {wd wa : BitVec 5} {ea : Fin 768} (aligned : s.Aligned) :
    (execVhad h inv k wd wa ea s).All State.Aligned := by
  unfold execVhad
  refine aligned_vectorOf aligned (pairFirst_places ea) fun _ _ =>
    ⟨fun _ _ _ t => ?_, fun _ t => .refl t, fun _ t => .refl t⟩
  exact (touchAll_places ..).trans (putList_places ..)

theorem aligned_execVqnt {mode : RMode} {wd wa wb : BitVec 5} (aligned : s.Aligned) :
    (execVqnt h mode wd wa wb s).All State.Aligned := by
  refine aligned_vector aligned noFirst_places fun _ _ => .of_step (fun _ _ _ _ => ?_) (fun _ _ => rfl) fun _ _ => rfl
  refine ((touchAll_places ..).trans ((Win.touch_places ..).trans (Win.put_places ..))).trans
    (foldl_snd_places _ (fun q _ => .trans ?_ (Win.put_places ..)) _ (_, _))
  split
  · exact .refl q.2
  · split
    · exact drawNoise_places ..
    · exact .refl q.2

theorem aligned_execVdqt {r : Rnd} {wd wa wb : BitVec 5} (aligned : s.Aligned) :
    (execVdqt h r wd wa wb s).All State.Aligned := by
  refine aligned_vector aligned noFirst_places fun _ _ => .of_step (fun _ _ _ t => ?_) (fun _ _ => rfl) fun _ _ => rfl
  refine .trans ?_ (forRange_places _ _ _ _ fun _ u => (roundDraw_places ..).trans (Win.put_places ..))
  exact (touchAll_places ..).trans (foldl_places _ (fun _ _ => Win.touch_places ..) _ _)

theorem aligned_execVmov {wd wa : BitVec 5} (aligned : s.Aligned) : (execVmov h wd wa s).All State.Aligned := by
  refine aligned_vector aligned noFirst_places fun ws _ =>
    .of_step (fun _ lo hi t => ?_) (fun _ _ => rfl) fun _ _ => rfl
  have moved (d a : Win) : SamePlaces t (forRange lo hi (fun i s => d.put i (a.get s i) s) (touchAll ws lo hi t)) :=
    (touchAll_places ..).trans (forRange_places _ _ _ _ fun _ _ => Win.put_places ..)
  dsimp only
  split
  · exact (moved ..).trans (takeHeadland_places ..)
  · exact moved ..

theorem aligned_execWset {fn : WsetFn} {wd : BitVec 5} {ea : EOp} (aligned : s.Aligned) :
    (execWset h fn wd ea s).All State.Aligned := by
  unfold execWset
  split
  · refine aligned_issue_stays aligned ?_
    dsimp only
    split <;> simp [SamePlaces]
  · refine aligned_issue_stays aligned ?_
    split
    · exact stallResult_stays ..
    · next read => exact (sources_places read).trans (setWin_places ..)

theorem aligned_execVtopk {wd wa wb : BitVec 5} {ea : Fin 768} (aligned : s.Aligned) :
    (execVtopk h wd wa wb ea s).All State.Aligned := by
  refine aligned_vectorOf aligned (by simp [SamePlaces]) fun ws _ =>
    ⟨fun _ _ _ _ => Win.touch_places .., fun p t => ?_, fun _ t => .refl t⟩
  have listed {d q : Win} {n : Nat} {vs us : List Nat} :
      SamePlaces t (if n = 0 then t else putList q 0 vs (putList d 0 us (touchAll [d, q] 0 64 t))) := by
    split
    · exact .refl t
    · exact (touchAll_places ..).trans ((putList_places ..).trans (putList_places ..))
  dsimp only
  split
  · exact listed
  · exact listed.trans (setRowFlag_places ..)

theorem aligned_execVsoft {wd wa : BitVec 5} (aligned : s.Aligned) : (execVsoft h wd wa s).All State.Aligned := by
  refine aligned_vector aligned noFirst_places fun _ _ => .of_step (fun _ _ _ _ => ?_) (fun _ _ => rfl) fun _ _ => rfl
  dsimp only
  split
  · split
    · exact touchAll_places ..
    · exact touchAll_places ..
  · exact touchAll_places ..
  · exact (touchAll_places ..).trans (forRange_places _ _ _ _ fun _ _ => Win.put_places ..)

theorem aligned_execVsamp {res : Bool} {wa wb : BitVec 5} {ea : Fin 768} (aligned : s.Aligned) :
    (execVsamp h res wa wb ea s).All State.Aligned :=
  aligned_vectorOf aligned (by simp [SamePlaces]) fun _ _ =>
    .of_step (fun _ _ _ _ => touchAll_places ..) (fun _ _ => rfl) fun _ _ => rfl

/-! ### Headland words (chapter 10) -/

theorem aligned_execHgen {wa ws : BitVec 5} (aligned : s.Aligned) : (execHgen h wa ws s).All State.Aligned := by
  refine aligned_issue_stays aligned ?_
  extract_lets v
  split
  · trivial
  · split
    · trivial
    · split
      · trivial
      · split
        · exact runPlan_stays (hgenPlan_stays _) ..
        · exact (runPlan_stays (hgenPlan_stays _) ..).after (hgenFirst_places ..)

theorem aligned_execHgenRel {wa : BitVec 5} (aligned : s.Aligned) : (execHgenRel h wa s).All State.Aligned := by
  refine aligned_issue_stays aligned ?_
  split
  · trivial
  · exact (occupy_stays ..).after ⟨rfl, rfl, rfl, rfl, rfl, rfl, rfl⟩

theorem aligned_execHfix {corr : Bool} {t : HTarget} {ea : Fin 768} (aligned : s.Aligned) :
    (execHfix h corr t ea s).All State.Aligned := by
  refine aligned_issue_stays aligned ?_
  split
  · trivial
  · exact (occupy_stays ..).after ((touchTile_places ..).trans (checkTile_places ..))

theorem aligned_execHtol {ea : EOp} (aligned : s.Aligned) : (execHtol h ea s).All State.Aligned := by
  refine aligned_issue_stays aligned ?_
  split
  · exact stallResult_stays ..
  · next s1 read =>
    have same : SamePlaces s s1 := sources_places read
    exact (occupy_stays ..).after same

theorem aligned_execHupd {wd wa : BitVec 5} (aligned : s.Aligned) : (execHupd h wd wa s).All State.Aligned := by
  refine aligned_issue_stays aligned ?_
  extract_lets v us
  split
  · trivial
  · extract_lets d
    split
    · trivial
    · split
      · exact runPlan_stays (hupdPlan_stays ..) ..
      · exact runPlan_stays (hupdPlan_stays ..) ..

end

end Sys2Proof.Machine
end

section
/-! Instruction addresses: words of the matrix engine, of map composition and of the units. -/

namespace Sys2Proof.Machine

section
variable {s t : State} {h : Hdr}

/-! ### The matrix engine (chapter 09) -/

theorem straight_mxIssue {cs : List MCmd} {f : MxK → MxK} (aligned : s.Aligned) : (mxIssue cs f s).Straight := by
  unfold mxIssue
  split
  · exact aligned
  · exact (aligned_enqueue (act := .mx cs) aligned trivial).same (modMxK_places ..)

theorem straight_pushFormat {w : Word} (aligned : s.Aligned) : (pushFormat w s).Straight := by
  unfold pushFormat
  split
  · trivial
  · split
    · exact aligned
    · exact (aligned_enqueue (act := .mx []) aligned trivial).same (modMxK_places ..)

theorem straight_nestIssue {mk : MxK → Nest} {desc : Word} {ev : Bool} {tag : BitVec 11} (aligned : s.Aligned) :
    (nestIssue mk desc ev tag s).Straight := by
  unfold nestIssue
  extract_lets k n
  split
  · trivial
  · exact straight_mxIssue aligned

theorem aligned_execMtw {lvl : Fin 6} {a : BitVec 6} {role : Role} (aligned : s.Aligned) :
    (execMtw h lvl a role s).All State.Aligned := aligned_issue aligned (straight_mxIssue aligned)

theorem aligned_execMtr {role : Bool} {d : BitVec 6} {lvl : Fin 6} (aligned : s.Aligned) :
    (execMtr h role d lvl s).All State.Aligned :=
  aligned_issue aligned ((aligned_enqueue (act := .mx []) aligned trivial).same (setReg_places ..))

theorem aligned_execMcfg {mode : Fusion} {r : Rnd} (aligned : s.Aligned) : (execMcfg h mode r s).All State.Aligned :=
  aligned_issue aligned (straight_mxIssue aligned)

theorem aligned_execMfmt {a : BitVec 6} (aligned : s.Aligned) : (execMfmt h a s).All State.Aligned :=
  aligned_issue aligned (straight_pushFormat aligned)

theorem aligned_execMgo {a : BitVec 6} {ev : Bool} {tag : BitVec 11} (aligned : s.Aligned) :
    (execMgo h a ev tag s).All State.Aligned :=
  aligned_issue aligned (Result.straight_ite trivial (straight_nestIssue aligned))

theorem aligned_execMtile {a : BitVec 6} {ev : Bool} {tag : BitVec 11} (aligned : s.Aligned) :
    (execMtile h a ev tag s).All State.Aligned :=
  aligned_issue aligned (Result.straight_ite trivial (straight_nestIssue aligned))

theorem aligned_execMwait (aligned : s.Aligned) : (execMwait h s).All State.Aligned :=
  aligned_issue aligned (Result.straight_ite (aligned_enqueue (act := .mx []) aligned trivial) aligned)

theorem aligned_execMzero {a : BitVec 6} (aligned : s.Aligned) : (execMzero h a s).All State.Aligned :=
  aligned_issue aligned (Result.straight_ite trivial (straight_mxIssue aligned))

theorem aligned_execMdrain {f : BitVec 4} {a : BitVec 6} {ev : Bool} {tag : BitVec 11} (aligned : s.Aligned) :
    (execMdrain h f a ev tag s).All State.Aligned :=
  aligned_issue aligned (Result.straight_ite trivial (Result.straight_ite trivial
    (Result.straight_ite trivial (straight_mxIssue aligned))))

theorem aligned_execMtsm (aligned : s.Aligned) : (execMtsm h s).All State.Aligned :=
  aligned_issue aligned (straight_mxIssue aligned)

theorem aligned_execFset {f : BitVec 4} {a : BitVec 6} (aligned : s.Aligned) : (execFset h f a s).All State.Aligned := by
  refine aligned_issue aligned ?_
  extract_lets w g g1
  split
  · trivial
  · split
    · trivial
    · split
      · trivial
      · exact straight_mxIssue aligned

theorem aligned_execFget {state : Bool} {d : BitVec 6} {f : BitVec 4} (aligned : s.Aligned) :
    (execFget h state d f s).All State.Aligned :=
  aligned_issue aligned ((aligned_enqueue (act := .fget state f.toFin d) aligned trivial).same
    (modCtx_places _ _ _ (markBusy_pc _ _)))

theorem aligned_execFdrop {f : BitVec 4} {a : BitVec 6} (aligned : s.Aligned) : (execFdrop h f a s).All State.Aligned :=
  aligned_issue aligned (Result.straight_ite trivial (Result.straight_ite trivial (straight_mxIssue aligned)))

theorem aligned_execEpush {port : Port} {a : BitVec 6} (aligned : s.Aligned) : (execEpush h port a s).All State.Aligned :=
  aligned_issue aligned (Result.straight_ite (straight_pushFormat aligned) trivial)

/-! ### Requests to a unit and their replies -/

theorem aligned_askWith {mk : Nat → Action} (aligned : s.Aligned) (inPlace : ∀ id, (mk id).InPlace) :
    (askWith mk s).Aligned :=
  (aligned_enqueue aligned (inPlace s.task.nextId)).same
    (.trans (t := { enqueue (mk s.task.nextId) 0 0 s with task.nextId := s.task.nextId + 1 }) (.refl _)
      (modCtx_places _ _ _ fun _ => rfl))

theorem straight_takeReply {wait : State → Result} {ok : Reply → State → Result} (aligned : s.Aligned)
    (waits : (wait s).Straight) (taken : ∀ r t, t.Aligned → (ok r t).Straight) : (takeReply wait ok s).Straight := by
  have clear : (clearAsk s).Aligned := aligned.same (clearAsk_places s)
  unfold takeReply
  split
  · exact waits
  · split
    · exact Result.straight_ite waits clear
    · exact taken _ _ clear

theorem straight_crDone (r : Reply) (t : State) (aligned : t.Aligned) : (crDone r t).Straight := aligned

theorem straight_crValue (d : BitVec 6) (r : Reply) (t : State) (aligned : t.Aligned) : (crValue d r t).Straight :=
  aligned.same (setReg_places ..)

/-- What reading a block answers leaves every stream where it is. -/
theorem readBlock_stays {a : Word} {n : Nat} {r : Result} (read : readBlock a n s = .error r) : r.Stays s := by
  unfold readBlock at read
  (repeat' split at read) <;> cases read <;> simp

theorem readBlock_places {a : Word} {n : Nat} {b : List Byte} (read : readBlock a n s = .ok (b, t)) : SamePlaces s t := by
  unfold readBlock at read
  (repeat' split at read) <;> cases read <;> simp [SamePlaces]

/-! ### Map composition (chapter 11) -/

/-- What stands before the words of map composition moves no stream. -/
def McGate.Stays (s : State) : McGate → Prop
  | .wait t | .raise t _ => SamePlaces s t
  | .pass => True

theorem mcGate_stays (s : State) : (mcGate s).Stays s := by
  unfold mcGate
  split
  · split
    · trivial
    · split
      · split
        · exact .refl s
        · exact modMc_places ..
      · split
        · trivial
        · exact modMc_places ..
  · split
    · exact .refl s
    · trivial

theorem rstGate_stays (s : State) : (rstGate s).Stays s := by
  unfold rstGate
  split
  · split
    · exact mcGate_stays s
    · trivial
  · exact mcGate_stays s

theorem straight_mcBody {f : McCfg → Result} (aligned : s.Aligned) (body : ∀ c, (f c).Straight) : (mcBody s f).Straight := by
  have gate := mcGate_stays s
  unfold mcBody
  split
  · next is => exact aligned.same (by rwa [is] at gate)
  · next is => exact aligned.same (by rwa [is] at gate)
  · split
    · trivial
    · exact body _

theorem straight_mcIssue {op : McOp} {ev : Bool} {tag : BitVec 11} (aligned : s.Aligned) :
    (mcIssue op ev tag s).Straight :=
  Result.straight_ite aligned (aligned_enqueue (act := .mc (mcCmd op (isFirm s) ev tag none)) aligned trivial)

theorem straight_mcAsk {op : McOp} (aligned : s.Aligned) : (mcAsk op s).Straight :=
  Result.straight_ite aligned (aligned_askWith aligned fun _ => trivial)

theorem straight_mcAwait {ok : Reply → State → Result} (aligned : s.Aligned)
    (taken : ∀ r t, t.Aligned → (ok r t).Straight) : (mcAwait ok s).Straight := by
  unfold mcAwait
  split
  · split
    · exact aligned
    · exact aligned.same ((modMc_places ..).trans (clearAsk_places _))
  · exact straight_takeReply aligned aligned taken

theorem straight_appDone {d : BitVec 6} {r : Reply} (aligned : t.Aligned) : (appDone d r t).Straight :=
  (appDone_stays ..).straight aligned

theorem aligned_execMccfg {d a f : BitVec 6} (aligned : s.Aligned) : (execMccfg h d a f s).All State.Aligned := by
  refine aligned_issue aligned ?_
  extract_lets w tok st g
  split
  · trivial
  · exact Result.straight_ite aligned
      ((aligned_enqueue (act := .mc (mcCmd (.cfg g) (isFirm s) false 0 none)) aligned trivial).same (modMc_places ..))

theorem aligned_execMccfgRst (aligned : s.Aligned) : (execMccfgRst h s).All State.Aligned := by
  have gate := rstGate_stays s
  refine aligned_issue aligned ?_
  split
  · next is => exact aligned.same (by rwa [is] at gate)
  · next is => exact aligned.same (by rwa [is] at gate)
  · exact straight_mcIssue aligned

theorem aligned_execMcld {a f : BitVec 6} {ev : Bool} {tag : BitVec 11} (aligned : s.Aligned) :
    (execMcld h a f ev tag s).All State.Aligned :=
  aligned_issue aligned (straight_mcBody aligned fun _ =>
    Result.straight_ite trivial (Result.straight_ite trivial (straight_mcIssue aligned)))

theorem aligned_execMcldR {a f : BitVec 6} {ev : Bool} {tag : BitVec 11} (aligned : s.Aligned) :
    (execMcldR h a f ev tag s).All State.Aligned :=
  aligned_issue aligned (straight_mcBody aligned fun _ => Result.straight_ite trivial
    (Result.straight_ite trivial (Result.straight_ite trivial (straight_mcIssue aligned))))

theorem aligned_execMcldL {a : BitVec 6} {ev : Bool} {tag : BitVec 11} (aligned : s.Aligned) :
    (execMcldL h a ev tag s).All State.Aligned :=
  aligned_issue aligned (straight_mcBody aligned fun _ => Result.straight_ite trivial (Result.straight_ite trivial
    (Result.straight_ite trivial (Result.straight_ite trivial (straight_mcIssue aligned)))))

theorem aligned_execMcst {glob : Bool} {a f : BitVec 6} {ev : Bool} {tag : BitVec 11} (aligned : s.Aligned) :
    (execMcst h glob a f ev tag s).All State.Aligned :=
  aligned_issue aligned (straight_mcBody aligned fun _ => Result.straight_ite trivial
    (Result.straight_ite trivial (Result.straight_ite trivial (straight_mcIssue aligned))))

theorem aligned_execMccmp {a : BitVec 6} {ev : Bool} {tag : BitVec 11} (aligned : s.Aligned) :
    (execMccmp h a ev tag s).All State.Aligned := by
  refine aligned_issue aligned (straight_mcBody aligned fun _ => Result.straight_ite trivial ?_)
  split
  · trivial
  · exact straight_mcIssue aligned

theorem aligned_execMctree {a : BitVec 6} {ev : Bool} {tag : BitVec 11} (aligned : s.Aligned) :
    (execMctree h a ev tag s).All State.Aligned :=
  aligned_issue aligned (straight_mcBody aligned fun _ => Result.straight_ite trivial
    (Result.straight_ite trivial (Result.straight_ite trivial (straight_mcIssue aligned))))

theorem aligned_execMcapp {d a f : BitVec 6} (aligned : s.Aligned) : (execMcapp h d a f s).All State.Aligned :=
  aligned_issue aligned (Result.straight_ite (straight_mcAwait aligned fun _ _ => straight_appDone)
    (straight_mcBody aligned fun _ => Result.straight_ite trivial (Result.straight_ite trivial (straight_mcAsk aligned))))

theorem aligned_execMcappT {d a f : BitVec 6} (aligned : s.Aligned) : (execMcappT h d a f s).All State.Aligned :=
  aligned_issue aligned (Result.straight_ite (straight_mcAwait aligned fun _ _ => straight_appDone)
    (straight_mcBody aligned fun _ => Result.straight_ite trivial (Result.straight_ite trivial (straight_mcAsk aligned))))

theorem aligned_execMcmsk {a f : BitVec 6} {ev : Bool} {tag : BitVec 11} (aligned : s.Aligned) :
    (execMcmsk h a f ev tag s).All State.Aligned :=
  aligned_issue aligned (straight_mcBody aligned fun _ => Result.straight_ite trivial
    (Result.straight_ite trivial (Result.straight_ite trivial (straight_mcIssue aligned))))

theorem aligned_execMcchk {fn : McchkFn} {pd : BitVec 4} {a : BitVec 6} (aligned : s.Aligned) :
    (execMcchk h fn pd a s).All State.Aligned :=
  aligned_issue aligned (Result.straight_ite
    (straight_mcAwait aligned fun _ _ taken => taken.same (setPred_places ..))
    (straight_mcBody aligned fun _ => Result.straight_ite trivial (straight_mcAsk aligned)))

/-! ### The copy engine, the fabric, time (chapter 13) -/

theorem aligned_copyIssue {two : Bool} {a : BitVec 6} {ev : Bool} {tag : BitVec 11} (aligned : s.Aligned) :
    (copyIssue two h a ev tag s).All State.Aligned := by
  refine aligned_issue aligned ?_
  split
  · next read => exact (readBlock_stays read).straight aligned
  · next read =>
    extract_lets c
    split
    · trivial
    · exact Result.straight_ite aligned
        (aligned_enqueue (act := .cp (cpCmd c (isFirm s) ev tag)) (aligned.same (readBlock_places read)) trivial)

theorem aligned_fabricIssue {send red : Bool} {a : BitVec 6} {ev : Bool} {tag : BitVec 11} (aligned : s.Aligned) :
    (fabricIssue send red h a ev tag s).All State.Aligned := by
  refine aligned_issue aligned ?_
  split
  · next read => exact (readBlock_stays read).straight aligned
  · next read =>
    split
    · trivial
    · exact Result.straight_ite aligned (aligned_enqueue (aligned.same (readBlock_places read)) trivial)

theorem aligned_execCpres (aligned : s.Aligned) : (execCpres h s).All State.Aligned :=
  aligned_issue aligned (aligned_enqueue (act := .cpres false) aligned trivial)

theorem aligned_execCpresDrop (aligned : s.Aligned) : (execCpresDrop h s).All State.Aligned :=
  aligned_issue aligned (aligned_enqueue (act := .cpres true) aligned trivial)

theorem aligned_execTsat {a : BitVec 6} (aligned : s.Aligned) : (execTsat h a s).All State.Aligned :=
  aligned_issue aligned (aligned_enqueue (act := .tsat (getReg s a)) aligned trivial)

theorem straight_awaitUnit {u : WaitUnit} {ok : Nat → State → Result} (aligned : s.Aligned)
    (taken : ∀ n, (ok n s).Straight) : (awaitUnit u ok s).Straight := by
  unfold awaitUnit
  split
  · exact aligned_askWith aligned fun _ => trivial
  · split
    · exact aligned
    · exact taken _

theorem aligned_execCpwait (aligned : s.Aligned) : (execCpwait h s).All State.Aligned := by
  have clear : (clearAsk s).Aligned := aligned.same (clearAsk_places s)
  refine aligned_issue aligned (straight_awaitUnit aligned fun n => Result.straight_ite clear ?_)
  split
  · exact clear
  · exact aligned

theorem aligned_execFxwait (aligned : s.Aligned) : (execFxwait h s).All State.Aligned := by
  refine aligned_issue aligned (straight_awaitUnit aligned fun n => ?_)
  dsimp only
  split
  · exact aligned.same (clearAsk_places s)
  · refine Result.straight_ite aligned ?_
    have got : (if s.task.fx.got then modFx (fun m => { m with got := false }) (flushCache s) else s).Aligned :=
      aligned_ite (aligned.same ((flushCache_places ..).trans (modFx_places ..))) aligned
    exact got.same (clearAsk_places _)

theorem aligned_execTsatWait {a : BitVec 6} (aligned : s.Aligned) : (execTsatWait h a s).All State.Aligned :=
  aligned_issue aligned (straight_awaitUnit aligned fun _ =>
    Result.straight_ite (aligned.same (clearAsk_places s)) aligned)

end

end Sys2Proof.Machine
end

section
/-! Instruction addresses: words of the crypto, Tithe and KV units, ends, resumptions and returns. -/

namespace Sys2Proof.Machine

section
variable {s t : State} {h : Hdr}

/-! ### The crypto unit -/

theorem straight_crBody {checks : List (Option TrapInfo)} {op : CrOp} {ok : Reply → State → Result} (aligned : s.Aligned)
    (taken : ∀ r t, t.Aligned → (ok r t).Straight) : (crBody checks op ok s).Straight := by
  unfold crBody
  split
  · exact straight_takeReply aligned aligned taken
  · split
    · trivial
    · exact Result.straight_ite aligned (aligned_askWith aligned fun _ => trivial)

theorem aligned_execHshInit {n : BitVec 2} (aligned : s.Aligned) : (execHshInit h n s).All State.Aligned :=
  aligned_issue aligned (straight_crBody aligned straight_crDone)

theorem aligned_execHsh {n : BitVec 2} {a : BitVec 6} (aligned : s.Aligned) : (execHsh h n a s).All State.Aligned :=
  aligned_issue aligned (straight_crBody aligned straight_crDone)

theorem aligned_execHfin {n : BitVec 2} {d a : BitVec 6} {len : BitVec 7} (aligned : s.Aligned) :
    (execHfin h n d a len s).All State.Aligned := aligned_issue aligned (straight_crBody aligned straight_crDone)

theorem aligned_execMext {m : BitVec 3} {a : BitVec 6} (aligned : s.Aligned) : (execMext h m a s).All State.Aligned :=
  aligned_issue aligned (straight_crBody aligned straight_crDone)

theorem aligned_execMextRd {m : BitVec 3} {a : BitVec 6} (aligned : s.Aligned) : (execMextRd h m a s).All State.Aligned :=
  aligned_issue aligned (straight_crBody aligned straight_crDone)

theorem aligned_execKunw {d slot a : BitVec 6} (aligned : s.Aligned) : (execKunw h d slot a s).All State.Aligned :=
  aligned_issue aligned (straight_crBody aligned (straight_crValue d))

theorem straight_sigBody {sign : Bool} {d a : BitVec 6} (aligned : s.Aligned) : (sigBody sign d a s).Straight := by
  unfold sigBody
  split
  · refine straight_takeReply aligned aligned fun r t taken => ?_
    split
    · exact taken
    · exact straight_crValue d r t taken
  · split
    · next read => exact (readBlock_stays read).straight aligned
    · next read =>
      exact Result.straight_ite trivial (straight_crBody (aligned.same (readBlock_places read)) straight_crDone)

theorem aligned_execSgn {a : BitVec 6} (aligned : s.Aligned) : (execSgn h a s).All State.Aligned :=
  aligned_issue aligned (straight_sigBody aligned)

theorem aligned_execVfy {d a : BitVec 6} (aligned : s.Aligned) : (execVfy h d a s).All State.Aligned :=
  aligned_issue aligned (straight_sigBody aligned)

/-! ### Licensed tensors (chapter 12) -/

theorem straight_thGuard {f : Unit → Result} (body : (f ()).Straight) : (thGuard s f).Straight :=
  Result.straight_ite trivial body

theorem aligned_titheAsk {op : TitheOp} (aligned : s.Aligned) : (titheAsk op s).Aligned :=
  aligned_askWith aligned fun _ => trivial

theorem aligned_execThopen {b : BitVec 2} {a : BitVec 6} (aligned : s.Aligned) : (execThopen h b a s).All State.Aligned :=
  aligned_issue aligned (straight_thGuard (Result.straight_ite (straight_takeReply aligned aligned straight_crDone)
    (Result.straight_ite trivial (Result.straight_ite trivial (aligned_titheAsk aligned)))))

theorem straight_bindBody {i : Fin 4} {pre : Option TrapInfo} {taken : Bool} {what : Nat} {f : Bracket → Bracket}
    (aligned : s.Aligned) : (bindBody i pre taken what f s).Straight := by
  unfold bindBody
  refine Result.straight_ite trivial ?_
  split
  · trivial
  · exact Result.straight_ite trivial (Result.straight_ite trivial ((aligned_wsr aligned).same (setBr_places ..)))

theorem aligned_execThbind {b : BitVec 2} {f : BitVec 4} (aligned : s.Aligned) : (execThbind h b f s).All State.Aligned :=
  aligned_issue aligned (straight_thGuard (straight_bindBody aligned))

theorem aligned_execThbindR {b : BitVec 2} {a : BitVec 6} (aligned : s.Aligned) :
    (execThbindR h b a s).All State.Aligned := aligned_issue aligned (straight_thGuard (straight_bindBody aligned))

theorem aligned_closeIssue {abort : Bool} {b : BitVec 2} (aligned : s.Aligned) :
    (closeIssue abort h b s).All State.Aligned :=
  aligned_issue aligned (straight_thGuard (Result.straight_ite (straight_takeReply aligned aligned straight_crDone)
    (Result.straight_ite trivial (Result.straight_ite (aligned_askWith aligned fun _ => trivial) aligned))))

theorem aligned_execThrd {fn : ThrdFn} {d a : BitVec 6} (aligned : s.Aligned) : (execThrd h fn d a s).All State.Aligned :=
  aligned_issue aligned (Result.straight_ite ((aligned_wsr aligned).same (setReg_places ..))
    (Result.straight_ite (straight_takeReply aligned aligned (straight_crValue d)) (aligned_titheAsk aligned)))

theorem aligned_execThstm {d a f : BitVec 6} (aligned : s.Aligned) : (execThstm h d a f s).All State.Aligned := by
  refine aligned_issue aligned (Result.straight_ite (straight_takeReply aligned aligned straight_crDone)
    (Result.straight_ite trivial ?_))
  split
  · trivial
  · exact Result.straight_ite (aligned.same (egressAsk_places ..))
      (aligned_titheAsk (aligned.same ((tlbUse_places ..).trans (egressDone_places ..))))

/-! ### The KV unit -/

theorem aligned_kvIssue {op : KvOp} {d a : BitVec 6} (aligned : s.Aligned) : (kvIssue op h d a s).All State.Aligned := by
  refine aligned_issue aligned (Result.straight_ite (straight_takeReply aligned aligned (straight_crValue d)) ?_)
  split
  · next read => exact (readBlock_stays read).straight aligned
  · next read =>
    refine Result.straight_ite trivial ?_
    split
    · trivial
    · exact aligned_askWith (aligned.same (readBlock_places read)) fun _ => trivial

theorem aligned_execPxevc {d a : BitVec 6} (aligned : s.Aligned) : (execPxevc h d a s).All State.Aligned :=
  aligned_issue aligned (Result.straight_ite (straight_takeReply aligned aligned (straight_crValue d))
    (aligned_askWith aligned fun _ => trivial))

/-! ### Ends and resumptions -/

theorem straight_endOfK {fin : State → Result} (aligned : s.Aligned) (ends : (fin s).Straight) :
    (endOfK s fin).Straight := by
  have gate := mcGate_stays s
  unfold endOfK
  refine Result.straight_ite aligned ?_
  split
  · next is => exact aligned.same (by rwa [is] at gate)
  · next is => exact aligned.same (by rwa [is] at gate)
  · split
    · trivial
    · trivial
    · exact Result.straight_ite ends aligned

theorem aligned_execEndT (aligned : s.Aligned) : (execEndT h s).All State.Aligned := by
  have ends (x : Issuer) : (endStream x s).Aligned := aligned.same (endStream_places x s)
  refine aligned_issue aligned ?_
  dsimp only
  split
  · exact straight_endOfK aligned (ends _)
  · exact straight_endOfK aligned (ends _)
  · exact Result.straight_ite (ends _) aligned

theorem pcOfWord_aligned (w : Word) : (pcOfWord w).toNat % 8 = 0 := masked_aligned _

theorem reinject_aligned {recs : List Word} (aligned : s.Aligned) : (reinject recs s).Aligned :=
  aligned.same (reinject_places recs s)

theorem State.Aligned.withProgress {v : Option VProg} (aligned : t.Aligned) :
    State.Aligned { t with task.vprog := v } := aligned

theorem aligned_resumeC (aligned : s.Aligned) : (resumeC s).Aligned := by
  have here : s.task.c.pc.toNat % 8 = 0 := aligned_ctxOf aligned .c
  unfold resumeC
  extract_lets pc
  split
  · exact aligned.same ⟨rfl, rfl, rfl, rfl, rfl, rfl, rfl⟩
  · split
    · exact aligned_takeTrap aligned here
    · extract_lets f
      split
      · exact aligned_takeTrap aligned here
      · exact (reinject_aligned aligned).withProgress

theorem aligned_resumeStream {x : Issuer} (aligned : s.Aligned) : (resumeStream x s).Aligned := by
  unfold resumeStream
  split
  · extract_lets s1
    have again : s1.Aligned := aligned.same (modCtx_places _ _ _ fun _ => rfl)
    split
    · exact again
    · split
      · exact aligned_resumeC again
      · exact aligned_ite (again.same (callPushes_places ..)) again
      · exact again
  · exact aligned

theorem aligned_execSysResume {st : BitVec 2} (aligned : s.Aligned) : (execSysResume h st s).All State.Aligned :=
  aligned_issue aligned (Result.straight_ite trivial (aligned_resumeStream aligned))

/-! ### Returns from a handler (R145) -/

theorem aligned_returned {x : Issuer} {f : Frame} {pc : Pc} {status : Bool} {g : Ctx → Ctx} (aligned : s.Aligned)
    (h : pc.toNat % 8 = 0) (same : ∀ c, (g c).pc = c.pc) :
    (modCtx x (fun c => g (restoreCtx f pc status c)) (issued x pc s)).Aligned :=
  aligned_modCtx (aligned_issued aligned h) ((congrArg (fun p : Pc => p.toNat % 8 = 0) (same _)).mpr h)

theorem aligned_execRfi (aligned : s.Aligned) : (execRfi h s).All State.Aligned := by
  refine aligned_issue aligned ?_
  extract_lets x c pcK
  refine Result.straight_ite trivial (Result.straight_ite aligned ?_)
  split
  · trivial
  · refine Result.straight_ite aligned ?_
    extract_lets f nrp s1 s2 pc s3
    split
    · have checked : s1.Aligned := aligned_ite (aligned_wsr aligned) aligned
      exact aligned_returned (g := fun k => { k with nrp := x == .kTask && f.status.getLsbD 4 }) checked
        (pcOfWord_aligned _) fun _ => rfl
    · split
      · trivial
      · have returned : s3.Aligned := aligned_returned (g := id) aligned (pcOfWord_aligned _) fun _ => rfl
        exact Result.straight_ite (reinject_aligned returned).withProgress returned

end

end Sys2Proof.Machine
end

section
/-! Instruction addresses: the events. -/

namespace Sys2Proof.Machine

theorem Out.All.aligned {s : State} {o : Out} (aligned : s.Aligned) (h : o.All (SamePlaces s)) : o.All State.Aligned := by
  cases o with
  | next t => exact State.Aligned.same aligned h
  | fault _ => trivial
  | refused _ => trivial

theorem aligned_spdmStep {r : SpdmReq} {s : State} (aligned : s.Aligned) : (spdmStep r s).All State.Aligned :=
  .aligned aligned (spdmStep_places ..)

section
variable {s t : State}

/-! ### Units -/

theorem execMceCommand_places (s : State) : (execMceCommand s).All (SamePlaces s) := by
  unfold execMceCommand
  split
  · exact .refl s
  · next c _ _ =>
    have stepped := mcStep_places c s
    split
    · exact .refl s
    · split
      · exact modMc_places ..
      · split
        · exact mcComplete_places ..
        · split
          · next is =>
            rw [is] at stepped
            exact SamePlaces.trans stepped (mcHead_places ..)
          · next is =>
            rw [is] at stepped
            exact SamePlaces.trans stepped ((modMc_places ..).trans ((dropSlots_places ..).trans
              ((mcHead_places ..).trans (mcEvent_places ..))))
          · next is =>
            rw [is] at stepped
            refine SamePlaces.trans stepped (.trans ?_ (mcHead_places ..))
            split
            · exact addReply_places ..
            · exact .refl _
          · next is =>
            rw [is] at stepped
            exact stepped

theorem execCryptoUnitResult_places (s : State) : (execCryptoUnitResult s).All (SamePlaces s) := by
  unfold execCryptoUnitResult
  split
  · exact .refl s
  · split
    · exact .refl s
    · exact (crRun_places ..).trans ((modCr_places ..).trans (addReply_places ..))

/-! ### The checker (R116 to R119) -/

theorem aligned_withCheckq {q : List Checked} (aligned : s.Aligned) (sub : ∀ c ∈ q, c ∈ s.checkq) :
    State.Aligned { s with checkq := q } := by
  obtain ⟨task, firm, snaps, faults, saves⟩ := aligned
  exact ⟨task, firm, fun c mem => snaps c (sub c mem), fun c mem => faults c (sub c mem), saves⟩

theorem aligned_pushAfter {firm : Bool} {word lat : Nat} (aligned : s.Aligned) : (pushAfter firm word lat s).Aligned :=
  aligned_withCheckq aligned fun _ mem => (List.mem_filter.mp mem).1

theorem aligned_perform {c : Checked} (aligned : s.Aligned) (inPlace : ∀ f pc, c.act = .fault f pc → pc.toNat % 8 = 0) :
    (perform c s).Aligned := by
  unfold perform
  extract_lets x eg
  have egress (t : State) : SamePlaces t (eg t) := egressOf_places ..
  split
  · exact aligned.same ((memPut_places ..).trans ((cacheUpdate_places ..).trans (egress _)))
  · exact aligned.same (spadWrite_places ..)
  · extract_lets p
    have done (wide : Bool) : (if wide then flushCache p.2 else p.2).Aligned :=
      aligned_ite (aligned.same ((amoMem_places ..).trans (flushCache_places ..))) (aligned.same (amoMem_places ..))
    exact aligned_pushAfter ((done _).same ((egress _).trans (giveReg_places ..)))
  · extract_lets s1
    have noted : s1.Aligned := by
      unfold s1
      split
      · exact aligned.same (restartNoise_places ..)
      · exact aligned
    split
    · exact noted
    · exact noted
  · exact aligned
  · exact aligned.same ((deliver_places ..).trans (egress _))
  · exact aligned.same (submit_places ..)
  · exact aligned_pushAfter (aligned.same (giveReg_places ..))
  · exact aligned.same (modMc_places ..)
  · exact aligned.same (takeCp_places ..)
  · exact aligned.same (takeCpres_places ..)
  · exact aligned.same (takeFx_places ..)
  · exact aligned.same (takeTsat_places ..)
  · exact aligned.same (addReply_places ..)
  · exact aligned.same (takeCr_places ..)
  · exact aligned.same (takeKv_places ..)
  · exact aligned.same (takeTithe_places ..)
  · exact aligned.same (closeBracket_places ..)
  · next f pc is => exact aligned_ite (aligned_takeTrap aligned (inPlace f pc is)) aligned

theorem aligned_restoreK {x : Issuer} {snap : Ctx} (aligned : s.Aligned) (h : snap.Aligned) : (restoreK x snap s).Aligned :=
  aligned_modCtx aligned h

/-- A context of a checked action, where the window has one. -/
theorem aligned_restoreWindow (aligned : s.Aligned) : (restoreWindow s).Aligned := by
  have back (firm : Bool) {t : State} (ht : t.Aligned) : State.Aligned
      (match t.checkq.find? (fun c => c.firm == firm) with
        | some c => restoreK (if firm then .kFirm else .kTask) c.snap t
        | none => t) := by
    obtain ⟨-, -, snaps, -⟩ := id ht
    split
    · next found => exact aligned_restoreK ht (snaps _ (List.mem_of_find?_eq_some found))
    · exact ht
  exact back false (back true aligned)

theorem aligned_checkerFail {c : Checked} (aligned : s.Aligned) (h : c.snap.Aligned) : (checkerFail c s).Aligned := by
  have emptied : State.Aligned { restoreWindow s with checkq := [] } :=
    aligned_withCheckq (aligned_restoreWindow aligned) fun _ mem => absurd mem List.not_mem_nil
  unfold checkerFail
  generalize restoreWindow s = r at emptied
  refine aligned_takeTrap (State.Aligned.same ?_
    ((logAdd_places ..).trans ((logLaunch_places ..).trans (notify_places ..)))) h
  exact emptied.same ⟨rfl, rfl, rfl, rfl, rfl, rfl, rfl⟩

theorem aligned_execCheckedActionConfirm {o : CheckOutcome} (aligned : s.Aligned) :
    (execCheckedActionConfirm o s).All State.Aligned := by
  obtain ⟨-, -, snaps, faults, -⟩ := id aligned
  unfold execCheckedActionConfirm
  split
  · exact aligned
  · next c rest is =>
    have head : c ∈ s.checkq := is ▸ List.mem_cons_self ..
    have left : State.Aligned { s with checkq := rest } :=
      aligned_withCheckq aligned fun d mem => is ▸ List.mem_cons_of_mem c mem
    split
    · exact aligned
    · split
      · exact aligned_perform left (faults c head)
      · exact aligned_perform (left.same (logAdd_places ..)) (faults c head)
      · exact aligned_checkerFail aligned (snaps c head)

/-! ### Exceptions -/

theorem aligned_execTakeInterrupt {x : Issuer} (aligned : s.Aligned) : (execTakeInterrupt x s).All State.Aligned := by
  unfold execTakeInterrupt
  split
  · exact aligned
  · split
    · exact aligned_takeTrap (aligned.same (modCtx_places _ _ _ (clearPending_pc _))) (aligned_ctxOf aligned x)
    · exact aligned

theorem aligned_execFEventTake (aligned : s.Aligned) : (execFEventTake s).All State.Aligned := by
  unfold execFEventTake
  split
  · exact aligned
  · split
    · exact aligned
    · extract_lets s1
      have left : s1.Aligned := aligned
      split
      · next found _ => exact aligned_enterHandler (aligned_saveFrame left) (handlerOf_aligned found)
      · exact left.same (holdCore_places ..)

/-! ### Pre-emption (R27, R28, R152 to R156) -/

theorem keepShadow_tasks (l : List SaveImage) : (keepShadow l).map (fun i => i.task) = l.map (fun i => i.task) := by
  unfold keepShadow
  split
  · rfl
  · split
    · next n _ =>
      apply List.ext_getElem <;> simp [List.getElem_modify]
      intro i _
      split <;> rfl
    · rfl

theorem taskReset_aligned : Task.Aligned { Task.reset with nextId := s.task.nextId } := ⟨rfl, rfl, rfl, rfl⟩

theorem aligned_execPartitionSave (aligned : s.Aligned) : (execPartitionSave s).All State.Aligned := by
  obtain ⟨task, firm, snaps, faults, saves⟩ := id aligned
  unfold execPartitionSave
  split
  · exact aligned
  · extract_lets img
    have kept : ∀ i ∈ keepShadow (s.saves ++ [img]), i.task.Aligned := by
      intro i mem
      have mem' : i.task ∈ (s.saves ++ [img]).map (fun i => i.task) :=
        keepShadow_tasks (s.saves ++ [img]) ▸ List.mem_map_of_mem mem
      obtain ⟨j, old, is⟩ := List.mem_map.mp mem'
      rw [← is]
      rcases List.mem_append.mp old with old | new
      · exact saves j old
      · obtain rfl := List.mem_singleton.mp new
        exact task
    refine State.Aligned.same ?_ (notify_places ..)
    exact ⟨taskReset_aligned, firm, snaps, faults, kept⟩

theorem aligned_execPartitionRestore (aligned : s.Aligned) : (execPartitionRestore s).All State.Aligned := by
  obtain ⟨task, firm, snaps, faults, saves⟩ := id aligned
  unfold execPartitionRestore
  split
  · exact aligned
  · next img rest is =>
    have head : img.task.Aligned := saves img (is ▸ List.mem_cons_self ..)
    have tail : ∀ i ∈ rest, i.task.Aligned := fun i mem => saves i (is ▸ List.mem_cons_of_mem img mem)
    split
    · exact aligned
    · split
      · exact ⟨task, firm, snaps, faults, List.forall_mem_cons.mpr ⟨head, tail⟩⟩
      · split
        · exact aligned
        · exact ⟨head, firm, snaps, faults, tail⟩

/-! ### Launches and hosts -/

theorem execQtailWrite_places (master : BitVec 24) (die q : Nat) (v : BitVec 64) (s : State) :
    (execQtailWrite master die q v s).All (SamePlaces s) := by
  unfold execQtailWrite
  split
  · exact .refl s
  · extract_lets v s1 new management packets s2
    have touched : SamePlaces s s1 := touchOwner_places s
    split
    · exact touched.trans (setQueue_places ..)
    · have taken : SamePlaces s s2 := touched.trans (setQueue_places ..)
      exact taken.trans (foldl_places _ (fun u b => by
        split
        · exact rejectPacket_places ..
        · exact .refl u) _ _)

theorem aligned_placeTask {l : Launch} {i : Image} {g : Placement} (aligned : s.Aligned) : (placeTask l i g s).Aligned := by
  obtain ⟨-, firm, snaps, faults, saves⟩ := aligned
  unfold placeTask
  extract_lets s1 s2
  have started : s1.Aligned := ⟨⟨rfl, rfl, rfl, rfl⟩, firm, snaps, faults, saves⟩
  have written : s2.Aligned := by
    unfold s2
    split
    · exact started.same (spadWrite_places ..)
    · exact started
  exact written.same ((flushCache_places ..).trans (restartNoise_places ..))

theorem aligned_execGroupPlace {g : Placement} (aligned : s.Aligned) : (execGroupPlace g s).All State.Aligned := by
  unfold execGroupPlace
  split
  · exact aligned
  · split
    · exact aligned
    · extract_lets mine s0 s1
      have noted : s1.Aligned := State.Aligned.same (s := s0) (aligned.same (journal_places ..)) (.refl _)
      split
      · exact aligned
      · exact aligned_ite (aligned_placeTask noted) noted

/-! ### Management commands (R415) -/

theorem execDefineEnclosure_places (m : EnclosureMsg) (s : State) : (execDefineEnclosure m s).All (SamePlaces s) :=
  manage_places _ _ _ _ _ (extendConfig_places ..)

theorem execRegisterModel_places (m : ModelMsg) (s : State) : (execRegisterModel m s).All (SamePlaces s) :=
  manage_places _ _ _ _ _ ⟨rfl, rfl, rfl, rfl, rfl, rfl, rfl⟩

theorem execReplace_places (model gen list : Nat) (s : State) : (execReplace model gen list s).All (SamePlaces s) := by
  unfold execReplace
  split
  · exact manage_places _ _ _ _ _ (.refl s)
  · split
    · exact .refl s
    · exact manage_places _ _ _ _ _ (setModel_places ..)

theorem execOwnerKeyRegistry_places (n : Nat) (key : List (BitVec 8)) (s : State) :
    (execOwnerKeyRegistry n key s).All (SamePlaces s) := manage_places _ _ _ _ _ (extendConfig_places ..)

theorem execFabricRoute_places (dev ports : BitVec 16) (s : State) : (execFabricRoute dev ports s).All (SamePlaces s) :=
  manage_places _ _ _ _ _ ⟨rfl, rfl, rfl, rfl, rfl, rfl, rfl⟩

theorem execTidelineSeal_places (s : State) : (execTidelineSeal s).All (SamePlaces s) :=
  manage_places _ _ _ _ _ ⟨rfl, rfl, rfl, rfl, rfl, rfl, rfl⟩

theorem execContextCreate_places (ctx : Nat) (key : BitVec 64) (images : List Image) (s : State) :
    (execContextCreate ctx key images s).All (SamePlaces s) := manage_places _ _ _ _ _ (loadImages_places ..)

theorem execExtend_places (m : BitVec 3) (v : List (BitVec 8)) (s : State) : (execExtend m v s).All (SamePlaces s) :=
  manage_places _ _ _ _ _ (extendMeas_places ..)

theorem execForeshoreSplit_places (die steps : Nat) (s : State) : (execForeshoreSplit die steps s).All (SamePlaces s) := by
  unfold execForeshoreSplit
  split
  · split
    · exact .refl s
    · exact manage_places _ _ _ _ _ ⟨rfl, rfl, rfl, rfl, rfl, rfl, rfl⟩
  · exact manage_places _ _ _ _ _ (.refl s)

theorem execInstallTerms_places (msg : List (BitVec 8)) (s : State) : (execInstallTerms msg s).All (SamePlaces s) := by
  unfold execInstallTerms
  split
  · exact .refl s
  · split
    · exact .refl s
    · refine whenFits_places _ _ ?_
      extract_lets r
      have installed : SamePlaces s r.2 := installTerms_places ..
      split
      · exact installed.trans (endMgmt_places ..)
      · exact installed.trans (endMgmt_places ..)

theorem execFirmwareStage_places (f : FirmwareMsg) (s : State) : (execFirmwareStage f s).All (SamePlaces s) :=
  manage_places _ _ _ _ _ ⟨rfl, rfl, rfl, rfl, rfl, rfl, rfl⟩

theorem aligned_destroyContext {ctx : Nat} (aligned : s.Aligned) : (destroyContext ctx s).Aligned := by
  unfold destroyContext
  extract_lets mine s1 s2
  have destroyed : s1.Aligned := aligned.same (foldl_places _ (fun u i => destroyImage_places i u) _ _)
  have reported : s2.Aligned := destroyed.same
    (foldl_places _ (fun _ _ => (journal_places ..).trans (reportLaunch_places ..)) _ _)
  obtain ⟨task, firm, snaps, faults, saves⟩ := reported
  exact ⟨task, firm, snaps, faults, fun i mem => saves i (List.mem_filter.mp mem).1⟩

theorem aligned_whenFits {f : State → State} (aligned : s.Aligned) (h : (f s).Aligned) : (whenFits f s).Aligned :=
  aligned_ite h aligned

theorem aligned_execContextDestroy {ctx : Nat} (aligned : s.Aligned) : (execContextDestroy ctx s).All State.Aligned := by
  unfold execContextDestroy
  split
  · exact aligned
  · split
    · exact aligned_whenFits aligned (aligned.same (mgmtRefuse_places ..))
    · split
      · refine aligned_ite aligned ?_
        exact (aligned.same (stopStreams_places s)).same (dropHeld_places _)
      · exact aligned_whenFits aligned ((aligned_destroyContext aligned).same (mgmtDone_places ..))

/-! ### Boot and power -/

theorem execPowerOnBoot_places (s : State) : (execPowerOnBoot s).All (SamePlaces s) := by
  unfold execPowerOnBoot
  split
  · exact .refl s
  · extract_lets _ s1
    have booted : SamePlaces s s1 := by simp [s1, SamePlaces, bootFirm]
    exact booted.trans (tidePut_places ..)

theorem aligned_afterLoss (s : State) : (afterLoss s).Aligned := reset_aligned

theorem aligned_execDeviceReset (aligned : s.Aligned) : (execDeviceReset s).All State.Aligned :=
  aligned_ite aligned (aligned_ite (aligned_afterLoss s) aligned)

theorem aligned_execPowerLoss (s : State) : (execPowerLoss s).All State.Aligned := aligned_afterLoss s

theorem aligned_execThermalTrip (s : State) : (execThermalTrip s).All State.Aligned := aligned_afterLoss s

end

end Sys2Proof.Machine
end

section
/-! Instruction addresses: every instruction, every event and every step keeps them multiples of 8. -/

namespace Sys2Proof.Machine

theorem aligned_exec {s : State} (aligned : s.Aligned) (i : Instr) : Out.All State.Aligned (exec i s) := by
  cases i with
  | nop => exact aligned_execNop aligned
  | li => exact aligned_execLi aligned
  | lih => exact aligned_execLih aligned
  | alu => exact aligned_execAlu aligned
  | addi => exact aligned_execAddi aligned
  | andi => exact aligned_execAndi aligned
  | ori => exact aligned_execOri aligned
  | xori => exact aligned_execXori aligned
  | shli => exact aligned_execShli aligned
  | shri => exact aligned_execShri aligned
  | sari => exact aligned_execSari aligned
  | muli => exact aligned_execMuli aligned
  | cmp => exact aligned_execCmp aligned
  | cmpi => exact aligned_execCmpi aligned
  | plog => exact aligned_execPlog aligned
  | sel => exact aligned_execSel aligned
  | lea => exact aligned_execLea aligned
  | br => exact aligned_execBr aligned
  | call => exact aligned_execCall aligned
  | jr => exact aligned_execJr aligned
  | loop => exact aligned_execLoop aligned
  | endl => exact aligned_execEndl aligned
  | safe => exact aligned_execSafe aligned
  | endT => exact aligned_execEndT aligned
  | ldk => exact aligned_execLdk aligned
  | stk => exact aligned_execStk aligned
  | lds => exact aligned_execLds aligned
  | sts => exact aligned_execSts aligned
  | rsr => exact aligned_execRsr aligned
  | wsr => exact aligned_execWsr aligned
  | epush => exact aligned_execEpush aligned
  | epop => exact aligned_execEpop aligned
  | ecountOut => exact aligned_execEcountOut aligned
  | ecountIn => exact aligned_execEcountIn aligned
  | rnd => exact aligned_execRnd aligned
  | tkp => exact aligned_execTkp aligned
  | tkw => exact aligned_execTkw aligned
  | tkc => exact aligned_execTkc aligned
  | bar => exact aligned_execBar aligned
  | bara => exact aligned_execBara aligned
  | barw => exact aligned_execBarw aligned
  | renq => exact aligned_execRenq aligned
  | amo => exact aligned_execAmo aligned
  | fence => exact aligned_execFence aligned
  | mark => exact aligned_execMark aligned
  | wfe => exact aligned_execWfe aligned
  | sysCall => exact aligned_execSysCall aligned
  | sysResume => exact aligned_execSysResume aligned
  | sysKill => exact aligned_execSysKill aligned
  | sysTmr => exact aligned_execSysTmr aligned
  | trap => exact aligned_execTrap aligned
  | brk => exact aligned_execBrk aligned
  | rfi => exact aligned_execRfi aligned
  | ld => exact aligned_execLd aligned
  | ldp => exact aligned_execLdp aligned
  | ldi => exact aligned_execLdi aligned
  | ldg => exact aligned_execLdg aligned
  | ldr => exact aligned_execLdr aligned
  | ldw => exact aligned_execLdw aligned
  | pf h tr => exact aligned_execPf (tr := tr) aligned
  | st => exact aligned_execSt aligned
  | stp => exact aligned_execStp aligned
  | stg => exact aligned_execStg aligned
  | stw => exact aligned_execStw aligned
  | stt => exact aligned_execStt aligned
  | qfl => exact aligned_execQfl aligned
  | qln => exact aligned_execQln aligned
  | fop => exact aligned_execFop aligned
  | fma => exact aligned_execFma aligned
  | fnma => exact aligned_execFnma aligned
  | frcp => exact aligned_execFrcp aligned
  | frsq => exact aligned_execFrsq aligned
  | frfr => exact aligned_execFrfr aligned
  | frfs => exact aligned_execFrfs aligned
  | fcmp => exact aligned_execFcmp aligned
  | icmp => exact aligned_execIcmp aligned
  | fcvt => exact aligned_execFcvt aligned
  | iop => exact aligned_execIop aligned
  | eli => exact aligned_execEli aligned
  | elih => exact aligned_execElih aligned
  | emov => exact aligned_execEmov aligned
  | esel => exact aligned_execEsel aligned
  | rot => exact aligned_execRot aligned
  | lbr => exact aligned_execLbr aligned
  | eld => exact aligned_execEld aligned
  | est => exact aligned_execEst aligned
  | vop => exact aligned_execVop aligned
  | vfma => exact aligned_execVfma aligned
  | vsc => exact aligned_execVsc aligned
  | vun => exact aligned_execVun aligned
  | vcvt => exact aligned_execVcvt aligned
  | vred => exact aligned_execVred aligned
  | vscan => exact aligned_execVscan aligned
  | vcmp => exact aligned_execVcmp aligned
  | vsel => exact aligned_execVsel aligned
  | vcpr => exact aligned_execVcpr aligned
  | vxpd => exact aligned_execVxpd aligned
  | vgat => exact aligned_execVgat aligned
  | vsct => exact aligned_execVsct aligned
  | vsca => exact aligned_execVsca aligned
  | vfill => exact aligned_execVfill aligned
  | vrnd => exact aligned_execVrnd aligned
  | vhad => exact aligned_execVhad aligned
  | vqnt => exact aligned_execVqnt aligned
  | vdqt => exact aligned_execVdqt aligned
  | vtopk => exact aligned_execVtopk aligned
  | vsamp => exact aligned_execVsamp aligned
  | vsoft => exact aligned_execVsoft aligned
  | wset => exact aligned_execWset aligned
  | wget => exact aligned_execWget aligned
  | vbit => exact aligned_execVbit aligned
  | vmov => exact aligned_execVmov aligned
  | mtw => exact aligned_execMtw aligned
  | mtr => exact aligned_execMtr aligned
  | mcfg => exact aligned_execMcfg aligned
  | mfmt => exact aligned_execMfmt aligned
  | mgo => exact aligned_execMgo aligned
  | mtile => exact aligned_execMtile aligned
  | mwait => exact aligned_execMwait aligned
  | mzero => exact aligned_execMzero aligned
  | mdrain => exact aligned_execMdrain aligned
  | mtsm => exact aligned_execMtsm aligned
  | fset => exact aligned_execFset aligned
  | fget => exact aligned_execFget aligned
  | fdrop => exact aligned_execFdrop aligned
  | hgen => exact aligned_execHgen aligned
  | hgenRel => exact aligned_execHgenRel aligned
  | hchk => exact aligned_execHchk aligned
  | hfix => exact aligned_execHfix aligned
  | hupd => exact aligned_execHupd aligned
  | hrd => exact aligned_execHrd aligned
  | htol => exact aligned_execHtol aligned
  | mccfg => exact aligned_execMccfg aligned
  | mccfgRst => exact aligned_execMccfgRst aligned
  | mcld => exact aligned_execMcld aligned
  | mcldL => exact aligned_execMcldL aligned
  | mcldR => exact aligned_execMcldR aligned
  | mcst => exact aligned_execMcst aligned
  | mccmp => exact aligned_execMccmp aligned
  | mctree => exact aligned_execMctree aligned
  | mcapp => exact aligned_execMcapp aligned
  | mcappT => exact aligned_execMcappT aligned
  | mcmsk => exact aligned_execMcmsk aligned
  | mcchk => exact aligned_execMcchk aligned
  | thopen => exact aligned_execThopen aligned
  | thclose => exact aligned_closeIssue aligned
  | thabort => exact aligned_closeIssue aligned
  | thbind => exact aligned_execThbind aligned
  | thbindR => exact aligned_execThbindR aligned
  | thrd => exact aligned_execThrd aligned
  | thstm => exact aligned_execThstm aligned
  | cpy => exact aligned_copyIssue aligned
  | cpy2 => exact aligned_copyIssue aligned
  | cpres => exact aligned_execCpres aligned
  | cpresDrop => exact aligned_execCpresDrop aligned
  | cpwait => exact aligned_execCpwait aligned
  | fxs => exact aligned_fabricIssue aligned
  | fxr => exact aligned_fabricIssue aligned
  | fxred => exact aligned_fabricIssue aligned
  | fxwait => exact aligned_execFxwait aligned
  | tsat => exact aligned_execTsat aligned
  | tsatWait => exact aligned_execTsatWait aligned
  | hshInit => exact aligned_execHshInit aligned
  | hsh => exact aligned_execHsh aligned
  | hfin => exact aligned_execHfin aligned
  | sgn => exact aligned_execSgn aligned
  | vfy => exact aligned_execVfy aligned
  | mext => exact aligned_execMext aligned
  | mextRd => exact aligned_execMextRd aligned
  | kunw => exact aligned_execKunw aligned
  | pxlk => exact aligned_kvIssue aligned
  | pxlkAcq => exact aligned_kvIssue aligned
  | pxins => exact aligned_kvIssue aligned
  | pxrefAdd => exact aligned_kvIssue aligned
  | pxrefDrop => exact aligned_kvIssue aligned
  | pxevc => exact aligned_execPxevc aligned
  | kvpgAlloc => exact aligned_kvIssue aligned
  | kvpgFree => exact aligned_kvIssue aligned
  | kvpgRel => exact aligned_kvIssue aligned
  | kvpgAck => exact aligned_kvIssue aligned
  | resultLanding => exact .aligned aligned (execResultLanding_places ..)
  | checkedActionConfirm => exact aligned_execCheckedActionConfirm aligned
  | loadArrival => exact .aligned aligned (execLoadArrival_places ..)
  | accessPerformed => exact .aligned aligned (execAccessPerformed_places ..)
  | slotJoin => exact .aligned aligned (execSlotJoin_places ..)
  | tlbInvalidate => exact .aligned aligned (execTlbInvalidate_places ..)
  | matrixStep => exact .aligned aligned (execMatrixStep_places ..)
  | marker => exact .aligned aligned (execMarker_places ..)
  | drain => exact .aligned aligned (execDrain_places ..)
  | mceCommand => exact .aligned aligned (execMceCommand_places ..)
  | copyStep => exact .aligned aligned (execCopyStep_places ..)
  | fabricMatch => exact .aligned aligned (execFabricMatch_places ..)
  | fabricFrame => exact .aligned aligned (execFabricFrame_places ..)
  | fabricLinkFail => exact .aligned aligned (execFabricLinkFail_places ..)
  | titheDecide => exact .aligned aligned (execTitheDecide_places ..)
  | meterStatement => exact .aligned aligned (execMeterStatement_places ..)
  | kvDecide => exact .aligned aligned (execKvDecide_places ..)
  | barrierPhaseComplete => exact .aligned aligned (execBarrierPhaseComplete_places ..)
  | timerExpiry => exact .aligned aligned (execTimerExpiry_places ..)
  | budgetExpiry => exact .aligned aligned (execBudgetExpiry_places ..)
  | wfeTimeout => exact .aligned aligned (execWfeTimeout_places ..)
  | attn => exact .aligned aligned (execAttn_places ..)
  | takeInterrupt => exact aligned_execTakeInterrupt aligned
  | fEventTake => exact aligned_execFEventTake aligned
  | noiseReseed => exact .aligned aligned (execNoiseReseed_places ..)
  | sluicePass => exact .aligned aligned (execSluicePass_places ..)
  | hungDetect => exact .aligned aligned (execHungDetect_places ..)
  | preemptDemand => exact .aligned aligned (execPreemptDemand_places ..)
  | engineSavePoint => exact .aligned aligned (execEngineSavePoint_places ..)
  | partitionSave => exact aligned_execPartitionSave aligned
  | partitionRestore => exact aligned_execPartitionRestore aligned
  | qtailWrite => exact .aligned aligned (execQtailWrite_places ..)
  | registerWrite => exact .aligned aligned (execRegisterWrite_places ..)
  | packetCheck => exact .aligned aligned (execPacketCheck_places ..)
  | timedStart => exact .aligned aligned (execTimedStart_places ..)
  | groupPlace => exact aligned_execGroupPlace aligned
  | gatedAdmit => exact .aligned aligned (execGatedAdmit_places ..)
  | completionRecord => exact .aligned aligned (execCompletionRecord_places ..)
  | imemRepair => exact .aligned aligned (execImemRepair_places ..)
  | dieHold => exact .aligned aligned (execDieHold_places ..)
  | schedRestart => exact .aligned aligned (execSchedRestart_places ..)
  | claim => exact .aligned aligned (execClaim_places ..)
  | beat => exact .aligned aligned (execBeat_places ..)
  | release => exact .aligned aligned (execRelease_places ..)
  | leaseExpiry => exact .aligned aligned (execLeaseExpiry_places ..)
  | defineEnclosure => exact .aligned aligned (execDefineEnclosure_places ..)
  | registerModel => exact .aligned aligned (execRegisterModel_places ..)
  | replace => exact .aligned aligned (execReplace_places ..)
  | waveLayer => exact .aligned aligned (execWaveLayer_places ..)
  | firmwareStage => exact .aligned aligned (execFirmwareStage_places ..)
  | firmwareActivate => exact .aligned aligned (execFirmwareActivate_places ..)
  | ownerKeyRegistry => exact .aligned aligned (execOwnerKeyRegistry_places ..)
  | fabricRoute => exact .aligned aligned (execFabricRoute_places ..)
  | tidelineTrim => exact .aligned aligned (execTidelineTrim_places ..)
  | tidelineSeal => exact .aligned aligned (execTidelineSeal_places ..)
  | contextCreate => exact .aligned aligned (execContextCreate_places ..)
  | contextDestroy => exact aligned_execContextDestroy aligned
  | extend => exact .aligned aligned (execExtend_places ..)
  | foreshoreSplit => exact .aligned aligned (execForeshoreSplit_places ..)
  | installTerms => exact .aligned aligned (execInstallTerms_places ..)
  | hostWrite tier pa bytes relaxed => exact .aligned aligned (execHostWrite_places tier pa bytes relaxed s)
  | hostRead => exact .aligned aligned (execHostRead_places ..)
  | getVersion => exact aligned_spdmStep aligned
  | getCapabilities => exact aligned_spdmStep aligned
  | negotiateAlgorithms => exact aligned_spdmStep aligned
  | getDigests => exact aligned_spdmStep aligned
  | getCertificate => exact aligned_spdmStep aligned
  | challenge => exact aligned_spdmStep aligned
  | getMeasurements => exact aligned_spdmStep aligned
  | ptpCorrection => exact .aligned aligned (execPtpCorrection_places ..)
  | powerOnBoot => exact .aligned aligned (execPowerOnBoot_places ..)
  | deviceReset => exact aligned_execDeviceReset aligned
  | powerLoss => exact aligned_execPowerLoss s
  | thermalTrip => exact aligned_execThermalTrip s
  | clockThrottle => exact .aligned aligned (execClockThrottle_places ..)
  | cxlAgentAccess => exact .aligned aligned (execCxlAgentAccess_places ..)
  | softError => exact .aligned aligned (execSoftError_places ..)
  | cryptoUnitResult => exact .aligned aligned (execCryptoUnitResult_places ..)

section
variable {s : State}

theorem aligned_advanced {o : Out} (ho : o.All State.Aligned) : (advanced o).All State.Aligned := by
  cases o with
  | next t => exact State.Aligned.same ho (advance_places t)
  | fault _ => trivial
  | refused _ => trivial

theorem aligned_issueTurn {x : Issuer} (aligned : s.Aligned) : (issueTurn x s).All State.Aligned := by
  have slot : (takeSlot x s).Aligned := aligned.same (takeSlot_places ..)
  unfold issueTurn
  split
  · exact aligned.same (advance_places s)
  · split
    · split
      · exact (aligned_takeTrap (s := { s with task.latchFail := false }) aligned (aligned_ctxOf aligned .c)).same
          (advance_places _)
      · exact aligned_advanced (aligned_exec slot _)
    · exact (aligned_faultHere slot).same (advance_places _)

theorem aligned_turnStep (aligned : s.Aligned) : (turnStep s).All State.Aligned := by
  unfold turnStep
  split
  · split
    · exact aligned_exec aligned _
    · exact aligned.same (advance_places s)
  · exact aligned_issueTurn aligned
  · split
    · exact aligned_exec aligned _
    · exact aligned.same ((tick_places s).trans (advance_places _))

theorem aligned_agendaStep {i : Instr} (aligned : s.Aligned) : (agendaStep i s).All State.Aligned := by
  unfold agendaStep
  split
  · exact aligned_exec aligned i
  · exact aligned

/-- One step keeps instruction addresses multiples of 8, whatever it is. -/
theorem aligned_machineStep (aligned : s.Aligned) : (machineStep s).All State.Aligned := by
  unfold machineStep
  split
  · exact aligned_agendaStep (s := { s with agenda := _ }) aligned
  · split
    · exact aligned_turnStep aligned
    · split
      · exact aligned_exec aligned _
      · exact aligned

end

/-- Settles O60: a stream goes to the next word, to a target that is masked or checked, or back to where a checked action
found it; every other operation moves no stream; the step is made of these operations. -/
theorem stepsKeepAlignment : Obligations.StepsKeepAlignment := by
  unfold Obligations.StepsKeepAlignment
  intro s t aligned stepped
  have kept : Out.All State.Aligned (step s) := aligned_machineStep aligned
  rw [stepped] at kept
  exact kept

end Sys2Proof.Machine
end

section
/-! Checked actions: what is performed when the checker agrees, and what a lasting mismatch restores. -/

namespace Sys2Proof.Machine

/-- The context of K that a checked action belongs to. -/
def kOf (firm : Bool) : Issuer := if firm then .kFirm else .kTask

/-! ### What an operation leaves alone -/

section
variable (s : State)

@[simp] theorem ctxOf_egressOf (firm : Bool) (y : Issuer) : ctxOf (egressOf firm s) y = ctxOf s y := by
  cases firm <;> cases y <;> rfl

@[simp] theorem mem_egressOf (firm : Bool) : (egressOf firm s).mem = s.mem := by cases firm <;> rfl
@[simp] theorem spad_egressOf (firm : Bool) : (egressOf firm s).spad = s.spad := by cases firm <;> rfl
@[simp] theorem now_egressOf (firm : Bool) : (egressOf firm s).now = s.now := by cases firm <;> rfl
@[simp] theorem checkq_egressOf (firm : Bool) : (egressOf firm s).checkq = s.checkq := by cases firm <;> rfl
@[simp] theorem log_egressOf (firm : Bool) : (egressOf firm s).log = s.log := by cases firm <;> rfl
@[simp] theorem logLost_egressOf (firm : Bool) : (egressOf firm s).logLost = s.logLost := by cases firm <;> rfl

@[simp] theorem ctxOf_memPut (ss : List Seg) (bs : List Byte) (y : Issuer) : ctxOf (memPut ss bs s) y = ctxOf s y := by
  cases y <;> rfl

@[simp] theorem ctxOf_cacheUpdate (pa : Nat) (bs : List Byte) (y : Issuer) :
    ctxOf (cacheUpdate pa bs s) y = ctxOf s y := by
  cases y <;> rfl

@[simp] theorem ctxOf_memWriteBy (ss : List Seg) (bs : List Byte) (y : Issuer) :
    ctxOf (memWriteBy ss bs s) y = ctxOf s y := by
  cases y <;> rfl

@[simp] theorem ctxOf_flushCache (y : Issuer) : ctxOf (flushCache s) y = ctxOf s y := by
  cases y <;> rfl

@[simp] theorem ctxOf_spadWrite (off : Nat) (bs : List Byte) (y : Issuer) : ctxOf (spadWrite off bs s) y = ctxOf s y := by
  obtain ⟨_, _, _, _, written⟩ := spadWrite_writes off bs s
  rw [written]
  cases y <;> rfl

@[simp] theorem mem_spadWrite (off : Nat) (bs : List Byte) : (spadWrite off bs s).mem = s.mem := by
  obtain ⟨_, _, _, _, written⟩ := spadWrite_writes off bs s
  rw [written]

@[simp] theorem spad_spadWrite (off : Nat) (bs : List Byte) : (spadWrite off bs s).spad = memWrite s.spad off bs := by
  unfold spadWrite
  split
  · next empty => rw [List.isEmpty_iff.mp empty, memWrite]
  · rfl

end

theorem takeTrap_checkq (x : Issuer) (f : TrapInfo) (pc : Pc) (s : State) : (takeTrap x f pc s).checkq = s.checkq := by
  have told : (reportTh (x == .kFirm) f s).checkq = s.checkq := by simp
  have halted (y : Issuer) (cause operand : Word) (pc : Pc) (written : Bool) (s : State) :
      (haltStream y cause operand pc written s).checkq = s.checkq := by simp [haltStream]
  have entered (y : Issuer) (cause : Word) (pc target : Pc) (s : State) :
      (enterHandler y cause pc target s).checkq = s.checkq := by simp [enterHandler]
  unfold takeTrap
  dsimp only
  (repeat' split) <;> simp [halted, entered]

/-! ### The pushes of a word that has finished (R40) -/

/-- A push that has come to the checker with the word of an action. -/
def pushWith (c k : Checked) : Bool := k.firm == c.firm && k.word == c.word && (match k.act with
  | .tokens _ _ => true
  | _ => false)

theorem pushWith_iff {c k : Checked} :
    pushWith c k = true ↔ k.firm = c.firm ∧ k.word = c.word ∧ ∃ f n, k.act = .tokens f n := by
  unfold pushWith
  cases k.act <;> simp

theorem pushAfter_checkq (c : Checked) (lat : Nat) (s : State) :
    (pushAfter c.firm c.word lat s).checkq = s.checkq.filter (fun k => !pushWith c k) := by
  refine List.filter_congr fun k _ => ?_
  unfold pushWith
  cases act : k.act with
  | tokens f n =>
    dsimp only
    rw [act]
    cases k.firm == c.firm && k.word == c.word <;> rfl
  | _ => simp [act]

theorem mem_pushAfter_pushes {c k : Checked} {lat : Nat} {s : State} {f : Fifo} {n : Nat} (mem : k ∈ s.checkq)
    (joined : pushWith c k = true) (act : k.act = .tokens f n) :
    ⟨f, n, s.now + lat⟩ ∈ (pushAfter c.firm c.word lat s).task.pushes := by
  obtain ⟨firm, word, -⟩ := pushWith_iff.mp joined
  exact List.mem_append_right _ (List.mem_filterMap.mpr ⟨k, mem, by simp [act, firm, word]⟩)

/-! ### An atomic and its register (R88, R134) -/

section
variable {x y : Issuer} {d r : BitVec 6} {v : Word} {word lat : Nat} {s : State}

@[simp] theorem giveReg_now : (giveReg x d v word lat s).now = s.now := by cases x <;> rfl
@[simp] theorem giveReg_mem : (giveReg x d v word lat s).mem = s.mem := by cases x <;> rfl
@[simp] theorem giveReg_checkq : (giveReg x d v word lat s).checkq = s.checkq := by cases x <;> rfl

theorem ctxOf_giveReg_other (h : y ≠ x) : ctxOf (giveReg x d v word lat s) y = ctxOf s y := ctxOf_modCtx_other h _ _

theorem regs_ctxSetReg {now : Nat} {c : Ctx} (h : d ≠ 0) : (ctxSetReg d v now lat c).regs = c.regs.set d.toNat v := by
  unfold ctxSetReg
  rw [if_neg h]

theorem regOf_giveReg_same : regOf x (giveReg x d v word lat s) d =
    if d = 0 then 0 else if (d.toNat, Due.word word) ∈ (ctxOf s x).busy then v else regOf x s d := by
  unfold regOf giveReg
  rw [ctxOf_modCtx_same]
  by_cases zero : d = 0
  · rw [if_pos zero, if_pos zero]
  · rw [if_neg zero, if_neg zero, if_neg zero]
    by_cases waits : (d.toNat, Due.word word) ∈ (ctxOf s x).busy
    · rw [if_pos waits, if_pos (List.contains_iff_mem.mpr waits)]
      simp [regs_ctxSetReg zero]
    · rw [if_neg waits, if_neg (mt List.contains_iff_mem.mp waits)]

theorem regOf_giveReg_other (h : r ≠ d) : regOf x (giveReg x d v word lat s) r = regOf x s r := by
  have other : d.toNat ≠ r.toNat := fun same => h (BitVec.eq_of_toNat_eq same).symm
  unfold regOf giveReg
  rw [ctxOf_modCtx_same]
  split
  · rfl
  · split
    · by_cases zero : d = 0
      · simp only [ctxSetReg, if_pos zero]
      · simp [regs_ctxSetReg zero, other]
    · rfl

end

end Sys2Proof.Machine
end

section
/-! The oldest checked action, as it is performed. -/

namespace Sys2Proof.Machine

/-- An action whose reply finishes its word: the word's pushes are made with it (R40). -/
def Action.finishes : Action → Bool
  | .amo .. | .fget .. => true
  | _ => false

theorem checkq_of_places {s t : State} (h : SamePlaces s t) : t.checkq = s.checkq := by
  obtain ⟨-, -, -, -, -, checkq, -⟩ := h
  exact checkq

section
variable {c : Checked} {u : State}

/-! ### Each kind of action -/

theorem perform_stk {ss : List Seg} {bs : List Byte} (act : c.act = .stk ss bs) :
    perform c u = egressOf c.firm (cacheUpdate (ss.headD ⟨0, 0⟩).pa bs (memPut ss bs u)) := by
  unfold perform
  rw [act]

theorem perform_sts {off : Nat} {bs : List Byte} (act : c.act = .sts off bs) : perform c u = spadWrite off bs u := by
  unfold perform
  rw [act]

/-- The machine after the memory access of an atomic. -/
def amoDone (c : Checked) (op : AmoOp) (dw : Bool) (pa : Nat) (b cmp : Word) (wide : Bool) (u : State) : State :=
  egressOf c.firm (if wide then flushCache (amoMem op dw pa b cmp u).2 else (amoMem op dw pa b cmp u).2)

theorem perform_amo {op : AmoOp} {dw : Bool} {pa : Nat} {d : BitVec 6} {b cmp : Word} {wide : Bool} {lat : Nat}
    (act : c.act = .amo op dw pa d b cmp wide lat) :
    perform c u = pushAfter c.firm c.word lat
      (giveReg (kOf c.firm) d (amoMem op dw pa b cmp u).1 c.word lat (amoDone c op dw pa b cmp wide u)) := by
  unfold perform
  rw [act]
  rfl

theorem perform_fget {st : Bool} {f : Fin 16} {d : BitVec 6} (act : c.act = .fget st f d) :
    perform c u = pushAfter c.firm c.word 1 (giveReg (kOf c.firm) d (fgetValue u st f) c.word 1 u) := by
  unfold perform
  rw [act]
  rfl

theorem perform_share {v : BitVec 8} (act : c.act = .wsr none (some v)) : perform c u = { u with share := v } := by
  unfold perform
  rw [act]

theorem perform_tokens {f : Fifo} {n : Nat} (act : c.act = .tokens f n) :
    perform c u = { u with task.pushes := u.task.pushes ++ [⟨f, n, u.now⟩] } := by
  unfold perform
  rw [act]

theorem perform_mc {cmd : McCmd} (act : c.act = .mc cmd) :
    perform c u = modMc (fun m => { m with queue := m.queue ++ [{ cmd with ready := u.now }] }) u := by
  unfold perform
  rw [act]

theorem perform_cp {cmd : CpCmd} (act : c.act = .cp cmd) : perform c u = takeCp cmd u := by
  unfold perform
  rw [act]

theorem perform_fx {cmd : FxCmd} (act : c.act = .fx cmd) : perform c u = takeFx cmd u := by
  unfold perform
  rw [act]

theorem perform_cr {op : CrOp} {id : Nat} (act : c.act = .cr op id) : perform c u = takeCr op id u := by
  unfold perform
  rw [act]

theorem perform_kv {r : KvReq} (act : c.act = .kv r) : perform c u = takeKv r u := by
  unfold perform
  rw [act]

theorem perform_tithe {r : TitheReq} (act : c.act = .tithe r) : perform c u = takeTithe r u := by
  unfold perform
  rw [act]

theorem perform_fault {f : TrapInfo} {pc : Pc} (act : c.act = .fault f pc) (running : (ctxOf u (kOf c.firm)).run = .running) :
    perform c u = takeTrap (kOf c.firm) f pc u := by
  unfold perform
  rw [act]
  exact if_pos (beq_iff_eq.mpr running)

/-- What an asking word is told of the unit that it waits for. -/
def awaited (w : WaitUnit) (u : State) : Nat :=
  match w with
  | .copy => (cpOf u).count
  | .fabric => u.task.fx.count
  | .time => 0

theorem perform_await {w : WaitUnit} {id : Nat} (act : c.act = .await w id) :
    perform c u = addReply ⟨id, BitVec.ofNat 64 (awaited w u), 0, none⟩ u := by
  unfold perform
  rw [act]
  rfl

theorem perform_checkq : (perform c u).checkq =
    if c.act.finishes then u.checkq.filter (fun k => !pushWith c k) else u.checkq := by
  have amo {op : AmoOp} {dw : Bool} {pa : Nat} {b cmp : Word} {wide : Bool} :
      (amoDone c op dw pa b cmp wide u).checkq = u.checkq := by
    unfold amoDone
    rw [checkq_egressOf]
    split <;> rfl
  unfold Action.finishes
  cases act : c.act with
  | amo op dw pa d b cmp wide lat => rw [perform_amo act, pushAfter_checkq, giveReg_checkq, amo]; rfl
  | fget st f d => rw [perform_fget act, pushAfter_checkq, giveReg_checkq]; rfl
  | stk ss bs => rw [perform_stk act, checkq_egressOf]; rfl
  | sts off bs => rw [perform_sts act]; exact checkq_of_places (spadWrite_places ..)
  | fault f pc =>
    unfold perform
    extract_lets x eg
    rw [act]
    dsimp only
    split
    · exact takeTrap_checkq ..
    · rfl
  | wsr nrp share =>
    unfold perform
    rw [act]
    cases nrp with
    | none => cases share <;> rfl
    | some n =>
      have kept := checkq_of_places (restartNoise_places n u)
      cases share with
      | none => exact kept
      | some v => exact kept
  | renq queue die core block =>
    unfold perform
    rw [act]
    exact (checkq_egressOf ..).trans (checkq_of_places (deliver_places ..))
  | mx cmds => unfold perform; rw [act]; exact checkq_of_places (submit_places ..)
  | close slot abort id => unfold perform; rw [act]; exact checkq_of_places (closeBracket_places ..)
  | cpres drop => unfold perform; rw [act]; exact checkq_of_places (takeCpres_places ..)
  | _ => unfold perform; rw [act]; rfl

end

end Sys2Proof.Machine
end

section
/-! Checked actions are decided. -/

namespace Sys2Proof.Machine

/-! ### The log -/

theorem logFit_length_le (l : List LogRec) : (logFit l).length ≤ l.length := by
  induction l with
  | nil => exact Nat.le_refl 0
  | cons r l ih =>
    unfold logFit
    split
    · exact Nat.le_refl _
    · exact Nat.le_succ_of_le ih

theorem logPlace_length (r : LogRec) (l : List LogRec) : (logPlace r l).length = l.length + 1 := by
  have parts := List.length_eq_length_filter_add (l := l) (fun x => x.time == r.time && decide (r.source < x.source))
  simp only [logPlace, List.length_append, List.length_singleton]
  omega

/-- A record more, in the log or lost. -/
theorem logFrom_length (source : Nat) (k : LogKind) (data : List Nat) (s : State) :
    (logFrom source k data s).log.length + (logFrom source k data s).logLost = s.log.length + s.logLost + 1 := by
  have placed := logPlace_length ⟨ticks s, source, k, data⟩ s.log
  have fits := logFit_length_le (logPlace ⟨ticks s, source, k, data⟩ s.log)
  simp only [logFrom]
  omega

/-! ### The step -/

/-- The machine that the oldest action finds when the checker agrees. -/
def agreed (rest : List Checked) (log : List LogRec) (lost : Nat) (s : State) : State :=
  { s with checkq := rest, log := log, logLost := lost }

section
variable {s : State} {c : Checked} {rest : List Checked} {o : CheckOutcome}

theorem confirm_waits (waits : confirmRuns s = false) : exec (.checkedActionConfirm o) s = .next s := by
  rw [exec_checkedActionConfirm, execCheckedActionConfirm]
  split
  · rfl
  · rw [waits]
    rfl

theorem confirm_performs (queued : s.checkq = c :: rest) (runs : confirmRuns s = true) (agrees : o ≠ .lasting) :
    ∃ log lost, exec (.checkedActionConfirm o) s = .next (perform c (agreed rest log lost s)) ∧
      (o = .confirmed → log = s.log ∧ lost = s.logLost) ∧
      log.length + lost = s.log.length + s.logLost + (if o = .transient then 1 else 0) := by
  rw [exec_checkedActionConfirm, execCheckedActionConfirm, queued]
  dsimp only
  rw [runs]
  cases o with
  | confirmed => exact ⟨s.log, s.logLost, rfl, fun _ => ⟨rfl, rfl⟩, rfl⟩
  | transient => exact ⟨_, _, rfl, nofun, logFrom_length _ _ _ { s with checkq := rest }⟩
  | lasting => exact absurd rfl agrees

theorem confirm_fails (queued : s.checkq = c :: rest) (runs : confirmRuns s = true) :
    exec (.checkedActionConfirm .lasting) s = .next (checkerFail c s) := by
  rw [exec_checkedActionConfirm, execCheckedActionConfirm, queued]
  dsimp only
  rw [runs]
  rfl

end

/-! ### What each kind does -/

section
variable {u : State} {c : Checked}

theorem stk_writes {pa : Nat} {bs : List Byte} (wf : memWf u.mem = true) (act : c.act = .stk [⟨pa, bs.length⟩] bs) :
    memRead (perform c u).mem pa bs.length = bs ∧
      (∀ y, ¬(pa ≤ y ∧ y < pa + bs.length) → memGet (perform c u).mem y = memGet u.mem y) ∧
      (perform c u).spad = u.spad ∧ ∀ y, ctxOf (perform c u) y = ctxOf u y := by
  have mem : (perform c u).mem = memWrite u.mem pa bs := by
    rw [perform_stk act, mem_egressOf]
    exact segWrite_one ..
  refine ⟨?_, fun y outside => ?_, ?_, fun y => ?_⟩
  · rw [mem, memRead_memWrite_same wf]
  · rw [mem, memGet_memWrite_outside wf (by omega)]
  · rw [perform_stk act, spad_egressOf]
    rfl
  · rw [perform_stk act, ctxOf_egressOf, ctxOf_cacheUpdate, ctxOf_memPut]

theorem sts_writes {off : Nat} {bs : List Byte} (wf : memWf u.spad = true) (act : c.act = .sts off bs) :
    memRead (perform c u).spad off bs.length = bs ∧
      (∀ y, ¬(off ≤ y ∧ y < off + bs.length) → memGet (perform c u).spad y = memGet u.spad y) ∧
      (perform c u).mem = u.mem ∧ ∀ y, ctxOf (perform c u) y = ctxOf u y := by
  rw [perform_sts act, spad_spadWrite, mem_spadWrite]
  exact ⟨memRead_memWrite_same wf .., fun y outside => memGet_memWrite_outside wf (by omega), rfl,
    fun y => ctxOf_spadWrite ..⟩

section
variable {op : AmoOp} {dw : Bool} {pa : Nat} {b cmp : Word} {wide : Bool}

theorem amoDone_mem : (amoDone c op dw pa b cmp wide u).mem = memWrite u.mem pa
    (leBytes (if dw then 8 else 4) (amoNew op (if dw then 8 else 4) (memWord u.mem pa (if dw then 8 else 4)) b.toNat cmp.toNat)) := by
  have written : (amoDone c op dw pa b cmp wide u).mem = (amoMem op dw pa b cmp u).2.mem := by
    unfold amoDone
    rw [mem_egressOf]
    split <;> rfl
  rw [written]
  have one := segWrite_one u.mem pa
    (leBytes (if dw then 8 else 4) (amoNew op (if dw then 8 else 4) (memWord u.mem pa (if dw then 8 else 4)) b.toNat cmp.toNat))
  rwa [leBytes_length] at one

theorem amoDone_ctxOf (y : Issuer) : ctxOf (amoDone c op dw pa b cmp wide u) y = ctxOf u y := by
  unfold amoDone
  rw [ctxOf_egressOf]
  split
  · rw [ctxOf_flushCache]
    exact ctxOf_memWriteBy ..
  · exact ctxOf_memWriteBy ..

theorem amoDone_now : (amoDone c op dw pa b cmp wide u).now = u.now := by
  unfold amoDone
  rw [now_egressOf]
  split <;> rfl

theorem amoDone_checkq : (amoDone c op dw pa b cmp wide u).checkq = u.checkq := by
  unfold amoDone
  rw [checkq_egressOf]
  split <;> rfl

theorem ctxOf_pushAfter (firm : Bool) (word lat : Nat) (y : Issuer) : ctxOf (pushAfter firm word lat u) y = ctxOf u y := by
  cases y <;> rfl

theorem amo_writes {d : BitVec 6} {lat n old : Nat} (hn : n = if dw then 8 else 4) (hold : old = memWord u.mem pa n)
    (wf : memWf u.mem = true) (act : c.act = .amo op dw pa d b cmp wide lat) :
    regOf (kOf c.firm) (perform c u) d = (if d = 0 then 0 else
        if (d.toNat, Due.word c.word) ∈ (ctxOf u (kOf c.firm)).busy then amoOld dw old else regOf (kOf c.firm) u d) ∧
      memRead (perform c u).mem pa n = leBytes n (amoNew op n old b.toNat cmp.toNat) ∧
      (∀ y, ¬(pa ≤ y ∧ y < pa + n) → memGet (perform c u).mem y = memGet u.mem y) ∧
      (∀ r, r ≠ d → regOf (kOf c.firm) (perform c u) r = regOf (kOf c.firm) u r) ∧
      ∀ y, y ≠ kOf c.firm → ctxOf (perform c u) y = ctxOf u y := by
  have reg (t : State) (r : BitVec 6) : regOf (kOf c.firm) (pushAfter c.firm c.word lat t) r = regOf (kOf c.firm) t r := by
    unfold regOf
    rw [ctxOf_pushAfter]
  have same (r : BitVec 6) : regOf (kOf c.firm) (amoDone c op dw pa b cmp wide u) r = regOf (kOf c.firm) u r := by
    unfold regOf
    rw [amoDone_ctxOf]
  have mem : (perform c u).mem = memWrite u.mem pa (leBytes n (amoNew op n old b.toNat cmp.toNat)) := by
    rw [perform_amo act, hold, hn, ← amoDone_mem (c := c) (wide := wide)]
    exact giveReg_mem
  refine ⟨?_, ?_, fun y outside => ?_, fun r other => ?_, fun y other => ?_⟩
  · rw [perform_amo act, reg, regOf_giveReg_same, amoDone_ctxOf, same, hold, hn]
    rfl
  · have read := memRead_memWrite_same wf pa (leBytes n (amoNew op n old b.toNat cmp.toNat))
    rwa [leBytes_length, ← mem] at read
  · rw [mem, memGet_memWrite_outside wf (by rw [leBytes_length]; omega)]
  · rw [perform_amo act, reg, regOf_giveReg_other other, same]
  · rw [perform_amo act, ctxOf_pushAfter, ctxOf_giveReg_other other, amoDone_ctxOf]

theorem amo_pushes {k : Checked} {f : Fifo} {n : Nat} {d : BitVec 6} {lat : Nat} (mem : k ∈ u.checkq)
    (joined : pushWith c k = true) (push : k.act = .tokens f n) (act : c.act = .amo op dw pa d b cmp wide lat) :
    ⟨f, n, u.now + lat⟩ ∈ (perform c u).task.pushes := by
  have pushed := mem_pushAfter_pushes (lat := lat)
    (s := giveReg (kOf c.firm) d (amoMem op dw pa b cmp u).1 c.word lat (amoDone c op dw pa b cmp wide u))
    (by rwa [giveReg_checkq, amoDone_checkq]) joined push
  rwa [giveReg_now, amoDone_now, ← perform_amo act] at pushed

end

theorem fget_pushes {k : Checked} {f : Fifo} {n : Nat} {st : Bool} {g : Fin 16} {d : BitVec 6} (mem : k ∈ u.checkq)
    (joined : pushWith c k = true) (push : k.act = .tokens f n) (act : c.act = .fget st g d) :
    ⟨f, n, u.now + 1⟩ ∈ (perform c u).task.pushes := by
  have pushed := mem_pushAfter_pushes (lat := 1) (s := giveReg (kOf c.firm) d (fgetValue u st g) c.word 1 u)
    (by rwa [giveReg_checkq]) joined push
  rwa [giveReg_now, ← perform_fget act] at pushed

theorem await_replies {w : WaitUnit} {id : Nat} (act : c.act = .await w id) :
    ⟨id, BitVec.ofNat 64 (awaited w u), 0, none⟩ ∈ (perform c u).replies := by
  rw [perform_await act]
  exact List.mem_append_right _ (List.mem_singleton_self _)

end

end Sys2Proof.Machine
end

section
/-! What a lasting mismatch restores, and the decision of checked actions. -/

namespace Sys2Proof.Machine

/-! ### The window (R118, R119) -/

section
variable {s : State} {c : Checked} {rest : List Checked}

/-- The oldest unconfirmed action of a context of K. -/
def oldestOf (firm : Bool) (s : State) : Option Checked := s.checkq.find? (fun k => k.firm == firm)

/-- A context of K stands where its oldest unconfirmed action found it. -/
def standBack (firm : Bool) (s : State) : State :=
  match oldestOf firm s with
  | some k => restoreK (kOf firm) k.snap s
  | none => s

theorem restoreWindow_eq (s : State) : restoreWindow s = standBack false (standBack true s) := rfl

theorem kOf_ne {a b : Bool} (h : a ≠ b) : kOf a ≠ kOf b := by
  cases a <;> cases b <;> simp_all [kOf]

theorem mem_kOf {y : Issuer} (h : y ∈ [Issuer.l, .c, .s]) (firm : Bool) : y ≠ kOf firm := by
  rintro rfl
  cases firm <;> simp [kOf] at h

@[simp] theorem oldestOf_restoreK (firm : Bool) (x : Issuer) (snap : Ctx) (s : State) :
    oldestOf firm (restoreK x snap s) = oldestOf firm s := by
  unfold oldestOf restoreK
  rw [checkq_modCtx]

@[simp] theorem oldestOf_standBack (firm other : Bool) (s : State) : oldestOf firm (standBack other s) = oldestOf firm s := by
  unfold standBack
  split
  · exact oldestOf_restoreK ..
  · rfl

theorem ctxOf_standBack_other {firm : Bool} {y : Issuer} (h : y ≠ kOf firm) (s : State) :
    ctxOf (standBack firm s) y = ctxOf s y := by
  unfold standBack
  split
  · exact ctxOf_modCtx_other h _ _
  · rfl

theorem ctxOf_standBack_none {firm : Bool} (h : oldestOf firm s = none) (y : Issuer) :
    ctxOf (standBack firm s) y = ctxOf s y := by
  unfold standBack
  rw [h]

/-- A context that stands where `snap` stood: its registers, and what else a word of K changes. -/
def StandsAt (snap d : Ctx) : Prop :=
  d.pc = snap.pc ∧ d.regs = snap.regs ∧ d.preds = snap.preds ∧ d.lc = snap.lc ∧ d.tvec = snap.tvec ∧ d.trp = snap.trp

theorem standBack_stands {firm : Bool} {k : Checked} (h : oldestOf firm s = some k) :
    StandsAt k.snap (ctxOf (standBack firm s) (kOf firm)) := by
  unfold standBack
  rw [h]
  dsimp only [restoreK]
  rw [ctxOf_modCtx_same]
  exact ⟨rfl, rfl, rfl, rfl, rfl, rfl⟩

theorem restoreWindow_stands {firm : Bool} {k : Checked} (h : oldestOf firm s = some k) :
    StandsAt k.snap (ctxOf (restoreWindow s) (kOf firm)) := by
  rw [restoreWindow_eq]
  cases firm with
  | false => exact standBack_stands (by rwa [oldestOf_standBack])
  | true =>
    rw [ctxOf_standBack_other (kOf_ne Bool.false_ne_true.symm)]
    exact standBack_stands h

theorem restoreWindow_idle {firm : Bool} (h : oldestOf firm s = none) :
    ctxOf (restoreWindow s) (kOf firm) = ctxOf s (kOf firm) := by
  rw [restoreWindow_eq]
  cases firm with
  | false => rw [ctxOf_standBack_none (by rwa [oldestOf_standBack]), ctxOf_standBack_other (kOf_ne Bool.false_ne_true)]
  | true => rw [ctxOf_standBack_other (kOf_ne Bool.false_ne_true.symm), ctxOf_standBack_none h]

theorem restoreWindow_other {y : Issuer} (h : y ∈ [Issuer.l, .c, .s]) : ctxOf (restoreWindow s) y = ctxOf s y := by
  rw [restoreWindow_eq, ctxOf_standBack_other (mem_kOf h false), ctxOf_standBack_other (mem_kOf h true)]

theorem standBack_keeps (firm : Bool) (s : State) : (standBack firm s).mem = s.mem ∧ (standBack firm s).spad = s.spad := by
  unfold standBack
  split
  · cases firm <;> exact ⟨rfl, rfl⟩
  · exact ⟨rfl, rfl⟩

theorem restoreWindow_keeps (s : State) : (restoreWindow s).mem = s.mem ∧ (restoreWindow s).spad = s.spad := by
  obtain ⟨mem, spad⟩ := standBack_keeps true s
  obtain ⟨mem', spad'⟩ := standBack_keeps false (standBack true s)
  exact ⟨mem'.trans mem, spad'.trans spad⟩

theorem oldestOf_head (queued : s.checkq = c :: rest) : oldestOf c.firm s = some c := by
  unfold oldestOf
  rw [queued]
  exact List.find?_cons_of_pos (beq_self_eq_true c.firm)

theorem oldestOf_other (queued : s.checkq = c :: rest) :
    oldestOf (!c.firm) s = rest.find? (fun k => k.firm != c.firm) := by
  have test (k : Checked) : (k.firm == !c.firm) = (k.firm != c.firm) := by
    cases k.firm <;> cases c.firm <;> rfl
  unfold oldestOf
  rw [queued, List.find?_cons_of_neg (by simp)]
  exact congrArg (List.find? · rest) (funext test)

theorem ctxOf_agreed {log : List LogRec} {lost : Nat} (y : Issuer) : ctxOf (agreed rest log lost s) y = ctxOf s y := by
  cases y <;> rfl

/-! ### The failure -/

/-- The machine in which a lasting mismatch raises CHECKER. -/
def failed (c : Checked) (s : State) : State :=
  notify (schedSource s.die.toNat 0) .quarantine (logLaunch .quarantine [] (logAdd .lasting [causeCode .checker]
    { restoreWindow s with
      checkq := []
      quarantined := true
      shareView := c.snapShare
      task.budget := if c.cycle < s.task.budgetFrom then c.snapBudget else s.task.budget
      task.mx.k := c.snapMx
      task.mc.kcfg := c.snapMc
      task.brackets := c.snapBr.zipWith restoreBound s.task.brackets }))

theorem checkerFail_eq (c : Checked) (s : State) :
    checkerFail c s = takeTrap (kOf c.firm) ⟨.checker, 0, 0⟩ c.snap.pc (failed c s) := rfl

theorem ctxOf_failed (y : Issuer) : ctxOf (failed c s) y = ctxOf (restoreWindow s) y := by
  unfold failed
  generalize restoreWindow s = r
  cases y <;> rfl

theorem failed_keeps (c : Checked) (s : State) :
    (failed c s).checkq = [] ∧ (failed c s).quarantined = true ∧ (failed c s).mem = (restoreWindow s).mem ∧
      (failed c s).spad = (restoreWindow s).spad ∧ (failed c s).shareView = c.snapShare ∧
      (failed c s).task.budget = if c.cycle < s.task.budgetFrom then c.snapBudget else s.task.budget := by
  unfold failed
  generalize restoreWindow s = r
  exact ⟨rfl, rfl, rfl, rfl, rfl, rfl⟩

end

/-- Settles O17: each kind of action does what its equation says to the machine that it finds; the window is empty after a
lasting mismatch, and each context of K stands where its oldest action found it. -/
theorem checkedActionsAreDecided : Obligations.CheckedActionsAreDecided := by
  unfold Obligations.CheckedActionsAreDecided
  refine ⟨?_, ?_⟩
  · intro s c rest o x pushOf wf queued
    refine ⟨confirm_waits, fun runs agrees => ?_⟩
    obtain ⟨log, lost, answers, confirmed, logged⟩ := confirm_performs queued runs agrees
    obtain ⟨mem, spad, -⟩ := wf
    refine ⟨_, answers, ?_, ?_, fun pa bs act => ?_, fun off bs act => ?_, ?_, fun v act => ?_, fun f n act => ?_,
      fun cmd act => ?_, fun cmd act => ?_, fun cmd act => ?_, fun op id act => ?_, fun r act => ?_, fun w id act => ?_,
      fun f pc act isConfirmed running => ?_, fun r act => ?_, fun ss bs act => ?_⟩
    · rw [perform_checkq]
      cases c.act <;> rfl
    · intro k f n mem joined push
      exact ⟨fun op dw pa d b cmp wide lat act => amo_pushes (u := agreed rest log lost s) mem joined push act,
        fun st g d act => fget_pushes (u := agreed rest log lost s) mem joined push act⟩
    · obtain ⟨read, outside, kept, ctx⟩ := stk_writes (u := agreed rest log lost s) mem act
      exact ⟨read, outside, kept, fun y => (ctx y).trans (ctxOf_agreed y)⟩
    · obtain ⟨read, outside, kept, ctx⟩ := sts_writes (u := agreed rest log lost s) spad act
      exact ⟨read, outside, kept, fun y => (ctx y).trans (ctxOf_agreed y)⟩
    · intro op dw pa d b cmp wide lat act n old
      have reg (r : BitVec 6) : regOf (kOf c.firm) (agreed rest log lost s) r = regOf (kOf c.firm) s r := by
        unfold regOf
        rw [ctxOf_agreed]
      have effect := amo_writes (u := agreed rest log lost s) (n := n) (old := old) rfl rfl mem act
      simp only [ctxOf_agreed, reg] at effect
      exact effect
    · rw [perform_share act]
    · rw [perform_tokens act]
      rfl
    · rw [perform_mc act]
      rfl
    · rw [perform_cp act]
      rfl
    · rw [perform_fx act]
      rfl
    · have later (l : List (CrOp × Nat × Nat)) (n : Nat) : n ≤ l.foldl (fun m q => Nat.max m q.2.2) n :=
        List.foldlRecOn (motive := fun m => n ≤ m) l _ (Nat.le_refl n) fun m le q _ => Nat.le_trans le (Nat.le_max_left ..)
      rw [perform_cr act]
      exact ⟨_, Nat.le_add_right_of_le (later s.crypto.queue s.now), rfl⟩
    · rw [perform_kv act]
      exact ⟨_, Nat.le_add_right .., rfl⟩
    · have replied := await_replies (u := agreed rest log lost s) act
      cases w <;> exact replied
    · obtain ⟨rfl, rfl⟩ := confirmed isConfirmed
      have stands : (ctxOf (agreed rest s.log s.logLost s) (kOf c.firm)).run = .running := by
        rw [ctxOf_agreed]
        exact running
      exact perform_fault act stands
    · rw [perform_tithe act]
      rfl
    · rw [perform_stk act, log_egressOf, logLost_egressOf]
      exact logged
  · intro s c rest x queued runs
    obtain ⟨empty, quarantined, mem, spad, share, budget⟩ := failed_keeps c s
    obtain ⟨mem', spad'⟩ := restoreWindow_keeps s
    obtain ⟨-, regs, preds, lc, tvec, trp⟩ := restoreWindow_stands (oldestOf_head queued)
    have other : (if c.firm then Issuer.kTask else .kFirm) = kOf (!c.firm) := by cases c.firm <;> rfl
    refine ⟨failed c s, (confirm_fails queued runs).trans (congrArg Host.Outcome.next (checkerFail_eq c s)), empty, ?_⟩
    simp only [ctxOf_failed, other]
    refine ⟨regs, preds, lc, tvec, trp, quarantined, mem.trans mem', spad.trans spad', share, budget,
      fun y h => restoreWindow_other h, fun same => restoreWindow_idle ?_, fun k found => ?_⟩
    · rw [oldestOf_other queued]
      exact List.find?_eq_none.mpr fun k mem => by simp [same k mem]
    · obtain ⟨pc, regs', -⟩ := restoreWindow_stands ((oldestOf_other queued).trans found)
      exact ⟨regs', pc⟩

end Sys2Proof.Machine
end

section
/-! What a soft error corrupts, target by target, and O48. -/

namespace Sys2Proof.Machine

/-! ### Marks of what is corrupted -/

theorem mem_struck {α : Type} {k : Nat} {b : α} {l : List (Nat × α)} {r : Nat × α} :
    r ∈ l.filter (fun (q : Nat × α) => q.1 != k) ++ [(k, b)] ↔ (r ∈ l ∧ r.1 ≠ k) ∨ r = (k, b) := by
  simp

theorem mem_setBad_one {bad : List Nat} {a y : Nat} : y ∈ setBad bad a 1 ↔ y ∈ bad ∨ y = a := by
  simp only [setBad, clearBad, List.mem_append, List.mem_filter, List.mem_map, List.mem_range, List.contains_nil, Bool.or_false,
    Bool.not_eq_true', Bool.and_eq_false_iff, decide_eq_false_iff_not]
  constructor
  · rintro (⟨h, -⟩ | ⟨k, hk, rfl⟩)
    · exact .inl h
    · exact .inr (by omega)
  · rintro (h | rfl)
    · by_cases e : y = a
      · exact .inr ⟨0, by omega, by omega⟩
      · exact .inl ⟨h, by omega⟩
    · exact .inr ⟨0, by omega, rfl⟩

theorem mem_appendNew {α : Type} [BEq α] [LawfulBEq α] {l : List α} {a r : α} :
    r ∈ (if !l.contains a then l ++ [a] else l) ↔ r ∈ l ∨ r = a := by
  by_cases h : a ∈ l <;> simp [h]
  rintro rfl
  exact h

/-! ### Accumulators -/

theorem accAt_setAcc {a : Nat} (h : a < 16) (k : Nat) (c : Acc) (m : Mx) :
    accAt (setAcc a c m) k = if k = a then c else accAt m k := by
  unfold accAt setAcc
  by_cases e : k = a
  · simp [e, h]
  · have e' : a ≠ k := fun h => e h.symm
    by_cases hk : k < 16
    · simp [e, e', hk]
    · simp [e, hk]

/-! ### Registers, predicates, loop counters -/

section
variable {n : Nat} {flip : BitVec 64} {last : Bool} {c : Ctx} {s : State} {x : Issuer}

theorem strikeReg_reg (h : n < 64) : strikeReg n flip last c =
    { c with bad := c.bad.filter (fun (p : Nat × Bool) => p.1 != n) ++ [(n, last)], regs := c.regs.set n (c.regs[n] ^^^ flip) } :=
  dif_pos h

theorem strikeReg_pred (h : n < 16) : strikeReg (64 + n) flip last c =
    { c with
      bad := c.bad.filter (fun (p : Nat × Bool) => p.1 != 64 + n) ++ [(64 + n, last)]
      preds := (c.preds ^^^ ((flip.setWidth 16 &&& 1) <<< n)) ||| 1 } := by
  unfold strikeReg
  rw [dif_neg (by omega), if_pos (by omega), Nat.add_sub_cancel_left]

theorem strikeReg_loop (h : n < 8) : strikeReg (80 + n) flip last c =
    { c with
      bad := c.bad.filter (fun (p : Nat × Bool) => p.1 != 80 + n) ++ [(80 + n, last)]
      lc := c.lc.set n (c.lc[n] ^^^ flip.setWidth 32) } := by
  have e : 80 + n - 80 = n := by omega
  unfold strikeReg
  simp only [e]
  rw [dif_neg (by omega), if_neg (by omega), dif_pos h]

/-- A strike at a register, a predicate or a loop counter reaches the context of its stream alone. -/
theorem softError_register (zero : n ≠ 0) (p0 : n ≠ 64) (below : n < 88) :
    exec (.softError (.register x n flip last)) s = .next (modCtx x (strikeReg n flip last) s) := by
  rw [exec_softError]
  unfold execSoftError
  simp [zero, p0, Nat.not_le.mpr below]

theorem softError_register_none (none : n = 0 ∨ n = 64) :
    exec (.softError (.register x n flip last)) s = .next s := by
  rw [exec_softError]
  unfold execSoftError
  rcases none with rfl | rfl <;> rfl

theorem getLsbD_struck {v : BitVec 16} {p k : Nat} (hp : p < 16) (hk0 : 0 < k) (hk : k < 16) :
    ((v ^^^ ((flip.setWidth 16 &&& 1) <<< p)) ||| 1).getLsbD k = (v.getLsbD k != (k == p && flip.getLsbD 0)) := by
  have one (j : Nat) : (1 : BitVec 16).getLsbD j = decide (j = 0) := by
    rw [BitVec.ofNat_eq_ofNat, BitVec.getLsbD_one]
    simp
  simp only [BitVec.getLsbD_or, BitVec.getLsbD_xor, BitVec.getLsbD_shiftLeft, BitVec.getLsbD_and, one]
  by_cases same : k = p
  · subst same
    simp [hk, hk0.ne']
  · by_cases below : k < p
    · simp [below, beq_eq_false_iff_ne.mpr same, hk0.ne']
    · have away : k - p ≠ 0 := by omega
      simp [away, beq_eq_false_iff_ne.mpr same, hk0.ne']

end

/-! ### Stored entries -/

section
variable {s : State} {a i : Nat} {last : Bool}

theorem softError_queue (q : QName) (e : QSlot) (slot : (qOf s (qnameIdx q))[i]? = some e) (present : e.val.isSome = true) :
    Answers (.softError (.queue q i)) s (fun t =>
      (∀ k, k ≠ i → (qOf t (qnameIdx q))[k]? = (qOf s (qnameIdx q))[k]?) ∧
      ∃ d, (qOf t (qnameIdx q))[i]? = some d ∧ d.val = e.val ∧ d.poison.isSome = true) := by
  refine ⟨_, exec_softError .., fun k other => ?_, ?_⟩
  · simp only [qOf, setQ_queues, Fin.getElem_fin, Vector.getElem_set_self, List.getElem?_mapIdx, beq_eq_false_iff_ne.mpr other, Bool.false_and,
      Bool.false_eq_true, if_false, Option.map_id']
  · refine ⟨{ e with poison := e.poison.orElse (fun _ => some 0) }, ?_, rfl, ?_⟩
    · unfold qOf at slot
      simp only [qOf, setQ_queues, Fin.getElem_fin, Vector.getElem_set_self, List.getElem?_mapIdx] at slot ⊢
      simp [slot, present]
    · cases e.poison <;> rfl

theorem softError_scratchpad {flip : BitVec 8} (wf : s.MemWf) (inside : a < spadSize s) :
    Answers (.softError (.scratchpad a flip)) s (fun t => memGet t.spad a = memGet s.spad a ^^^ flip ∧
      (∀ y, y ≠ a → memGet t.spad y = memGet s.spad y) ∧ t.spadBad = s.spadBad) := by
  obtain ⟨-, spad, -⟩ := wf
  refine ⟨{ s with spad := memSet s.spad a (memGet s.spad a ^^^ flip) }, ?_, ?_, fun y other => ?_, rfl⟩
  · rw [exec_softError]
    exact congrArg Host.Outcome.next (if_pos inside)
  · rw [memGet_memSet spad, if_pos rfl]
  · rw [memGet_memSet spad, if_neg other]

theorem softError_accumulator {flip : BitVec 32} (inside : a < 16) :
    Answers (.softError (.accumulator a i flip)) s (fun t =>
      (∀ k, k ≠ a → accAt t.task.mx k = accAt s.task.mx k) ∧
      (∀ k, k ≠ i → (accAt t.task.mx a).vals[k]? = (accAt s.task.mx a).vals[k]?) ∧
      (accAt t.task.mx a).vals[i]? = (accAt s.task.mx a).vals[i]?.map (· ^^^ flip)) := by
  refine ⟨_, exec_softError .., fun k other => ?_, fun k other => ?_, ?_⟩ <;>
    simp only [modMx, setMx_mx, accAt_setAcc inside]
  · rw [if_neg other]
  · simp [other]
  · simp

theorem softError_mapSlot : Answers (.softError (.mapSlot a last)) s (fun t =>
    t.task.mc.slots.map (fun r => (r.1, r.2.vals)) = s.task.mc.slots.map (fun r => (r.1, r.2.vals)) ∧
      ∀ r ∈ t.task.mc.slots, r.1 = a → r.2.err = some last) := by
  refine ⟨_, exec_softError .., ?_, ?_⟩ <;> simp only [modMc, setMc_mc]
  · rw [List.map_map]
    refine List.map_congr_left fun r _ => ?_
    dsimp only [Function.comp_apply]
    split <;> rfl
  · intro r mem slot
    obtain ⟨p, -, rfl⟩ := List.mem_map.mp mem
    by_cases same : p.1 = a
    · simp [same]
    · simp [same] at slot

theorem softError_latch {l : Latch} (found : s.task.latches[i]? = some l) : Answers (.softError (.latch i last)) s (fun t =>
    t.task.latches[i]? = some { l with corrupt := some last } ∧ t.task.latches.length = s.task.latches.length) := by
  refine ⟨_, exec_softError .., ?_, List.length_mapIdx⟩
  simp [found]

theorem softError_schedWord {core copy addr : Nat} (coreOk : core < 4) (copyOk : copy < 2) :
    exec (.softError (.schedWord core copy addr)) s = .next { s with
      imemBad := if !s.imemBad.contains (core, copy, addr) then s.imemBad ++ [(core, copy, addr)] else s.imemBad } := by
  rw [exec_softError]
  unfold execSoftError
  by_cases known : (core, copy, addr) ∈ s.imemBad <;> simp [known, coreOk, copyOk]

theorem softError_journal {die : Nat} (inside : die < 2) : exec (.softError (.journal die)) s = .next { s with
    journalBad := if !s.journalBad.contains die then s.journalBad ++ [die] else s.journalBad } := by
  rw [exec_softError]
  unfold execSoftError
  by_cases known : die ∈ s.journalBad <;> simp [known, inside]

theorem softError_queueTable {core : Nat} (inside : core < 4) : exec (.softError (.queueTable core)) s = .next { s with
    tableBad := if !s.tableBad.contains core then s.tableBad ++ [core] else s.tableBad } := by
  rw [exec_softError]
  unfold execSoftError
  by_cases known : core ∈ s.tableBad <;> simp [known, inside]

end

/-- Settles O48: each target's strike writes the struck entry and its mark; the rest of the state is the same term. -/
theorem softErrorsStrike : Obligations.SoftErrorsStrike := by
  unfold Obligations.SoftErrorsStrike
  intro s x n p m flip b5 f8 f32 last a i q core copy addr die
  refine ⟨fun nonzero => ?_, ?_, ?_, fun nonzero => ?_, fun k => ?_, ?_, fun e => softError_queue q e,
    softError_scratchpad, fun inside => ?_, fun inside => ?_, ?_, fun inside => ?_, fun inside _ => softError_accumulator inside,
    ?_, softError_mapSlot, fun l => softError_latch, fun coreOk copyOk => ?_, fun inside => ?_, fun inside => ?_⟩
  · refine ⟨_, softError_register (by omega) (by omega) (by omega), fun y other => ctxOf_modCtx_other other _ _, ?_, ?_⟩
    · cases x <;> rfl
    · rw [ctxOf_modCtx_same, strikeReg_reg n.isLt]
      exact ⟨fun r => mem_struck, rfl, rfl⟩
  · exact ⟨s, softError_register_none (.inl rfl), rfl⟩
  · exact ⟨s, softError_register_none (.inr rfl), rfl⟩
  · refine ⟨_, softError_register (by omega) (by omega) (by omega), fun y other => ctxOf_modCtx_other other _ _, ?_⟩
    rw [ctxOf_modCtx_same, strikeReg_pred p.isLt]
    exact ⟨fun r => mem_struck, rfl, rfl, fun k above below => getLsbD_struck p.isLt above below⟩
  · refine ⟨_, softError_register (by omega) (by omega) (by omega), fun y other => ctxOf_modCtx_other other _ _, ?_⟩
    rw [ctxOf_modCtx_same, strikeReg_loop k.isLt]
    exact ⟨fun r => mem_struck, rfl, rfl, rfl⟩
  · rintro rfl
    exact ⟨_, (exec_softError ..).trans (dif_pos m.isLt), rfl, fun r => mem_struck, rfl, rfl⟩
  · exact ⟨_, (exec_softError ..).trans (congrArg Host.Outcome.next (if_pos inside)), rfl, fun y => mem_setBad_one,
      by cases last <;> simp⟩
  · exact ⟨_, (exec_softError ..).trans (congrArg Host.Outcome.next (if_pos inside)), rfl, fun y => mem_setBad_one,
      by cases last <;> simp⟩
  · rintro rfl
    exact ⟨_, exec_softError .., rfl, fun r => mem_struck, rfl, rfl⟩
  · refine ⟨_, (exec_softError ..).trans (congrArg Host.Outcome.next (if_pos inside)), fun k other => ?_, ?_,
      by cases last <;> simp⟩
    · exact (accAt_setAcc inside ..).trans (if_neg other)
    · exact (accAt_setAcc inside ..).trans (if_pos rfl)
  · exact ⟨_, exec_softError .., by simp only [beq_iff_eq], rfl⟩
  · exact ⟨_, softError_schedWord coreOk copyOk, fun r => mem_appendNew⟩
  · exact ⟨_, softError_journal inside, fun r => mem_appendNew, rfl⟩
  · exact ⟨_, softError_queueTable inside, fun r => mem_appendNew⟩

end Sys2Proof.Machine
end

section
/-! The functions of `iop` and of `fop`, NaN operands of the FP32 functions, and O27. -/

namespace Sys2Proof.Machine

/-! ### Integer functions (R203) -/

/-- The shift amounts of `iop` are the low five bits of the second operand. -/
theorem shiftAmount (b : Elem) : (b.extractLsb' 0 5).toNat = b.toNat % 32 := by
  simp [BitVec.extractLsb'_toNat]

theorem iopFn_mulh (a b : Elem) : (iopFn .mulh a b).toInt = a.toInt * b.toInt / 2 ^ 32 := by
  have lower (x : Elem) : -2 ^ 31 ≤ x.toInt := BitVec.le_toInt x
  have upper (x : Elem) : x.toInt < 2 ^ 31 := BitVec.toInt_lt
  have size (x : Elem) : |x.toInt| ≤ 2 ^ 31 := abs_le.mpr ⟨lower x, (upper x).le⟩
  have product : |a.toInt * b.toInt| ≤ 2 ^ 62 := by
    rw [abs_mul]
    calc |a.toInt| * |b.toInt| ≤ 2 ^ 31 * 2 ^ 31 := mul_le_mul (size a) (size b) (abs_nonneg _) (by norm_num)
      _ = 2 ^ 62 := by norm_num
  obtain ⟨low, high⟩ := abs_le.mp product
  have fits : (BitVec.ofInt 32 (a.toInt * b.toInt / 2 ^ 32)).toInt = a.toInt * b.toInt / 2 ^ 32 := by
    rw [BitVec.toInt_ofInt_eq_self (by norm_num)] <;> omega
  exact fits

theorem iopFn_min (a b : Elem) : (iopFn .min a b).toInt = min a.toInt b.toInt := by
  unfold iopFn
  by_cases less : a.toInt < b.toInt
  · simp [BitVec.slt, less, less.le]
  · simp [BitVec.slt, less, not_lt.mp less]

theorem iopFn_max (a b : Elem) : (iopFn .max a b).toInt = max a.toInt b.toInt := by
  unfold iopFn
  by_cases less : a.toInt < b.toInt
  · simp [BitVec.slt, less, less.le]
  · simp [BitVec.slt, less, not_lt.mp less]

theorem iopFn_minz (a b : Elem) : (iopFn .minz a b).toNat = min a.toNat b.toNat := by
  unfold iopFn
  by_cases less : a.toNat < b.toNat
  · simp [BitVec.ult, less, less.le]
  · simp [BitVec.ult, less, not_lt.mp less]

theorem iopFn_maxz (a b : Elem) : (iopFn .maxz a b).toNat = max a.toNat b.toNat := by
  unfold iopFn
  by_cases less : a.toNat < b.toNat
  · simp [BitVec.ult, less, less.le]
  · simp [BitVec.ult, less, not_lt.mp less]

section
variable {a b : Elem} {i : Nat} (inside : i < 32)
include inside

theorem iopFn_shl : (iopFn .shl a b).getLsbD i = (decide (b.toNat % 32 ≤ i) && a.getLsbD (i - b.toNat % 32)) := by
  simp only [iopFn, BitVec.getLsbD_shiftLeft, shiftAmount, inside, decide_true, Bool.true_and]
  by_cases below : i < b.toNat % 32
  · simp [below, Nat.not_le.mpr below]
  · simp [below, Nat.not_lt.mp below]

theorem iopFn_sar : (iopFn .sar a b).getLsbD i = a.getLsbD (Nat.min (i + b.toNat % 32) 31) := by
  simp only [iopFn, BitVec.getLsbD_sshiftRight, shiftAmount, Nat.not_le.mpr inside, decide_false, Bool.not_false,
    Bool.true_and]
  by_cases within : b.toNat % 32 + i < 32
  · have least : Nat.min (i + b.toNat % 32) 31 = b.toNat % 32 + i := by
      rw [Nat.add_comm]
      exact Nat.min_eq_left (by omega)
    rw [if_pos within, least]
  · have least : Nat.min (i + b.toNat % 32) 31 = 31 := Nat.min_eq_right (by omega)
    rw [if_neg within, least, BitVec.msb_eq_getLsbD_last]

/-! ### The functions of `fop` that move bits (R197) -/

theorem getLsbD_magnitude : (a &&& 0x7FFFFFFF).getLsbD i = (decide (i ≠ 31) && a.getLsbD i) := by
  have mask : (0x7FFFFFFF : Elem).getLsbD i = decide (i < 31) := Nat.testBit_two_pow_sub_one 31 i
  have low : i < 31 ↔ i ≠ 31 := by omega
  rw [BitVec.getLsbD_and, mask, decide_eq_decide.mpr low, Bool.and_comm]

omit inside in
theorem getLsbD_signBit : (0x80000000 : Elem).getLsbD i = decide (i = 31) := by
  have bit : (0x80000000 : Elem).getLsbD i = decide (31 = i) := Nat.testBit_two_pow (n := 31) (m := i)
  rw [bit, decide_eq_decide.mpr eq_comm]

omit inside in
theorem getLsbD_sign : (a &&& 0x80000000).getLsbD i = (decide (i = 31) && a.getLsbD i) := by
  rw [BitVec.getLsbD_and, getLsbD_signBit, Bool.and_comm]

theorem fopFn_fabs : (fopFn .fabs a b).getLsbD i = (decide (i ≠ 31) && a.getLsbD i) := getLsbD_magnitude inside

omit inside in
theorem fopFn_fneg : (fopFn .fneg a b).getLsbD i = (decide (i = 31) != a.getLsbD i) := by
  simp only [fopFn, BitVec.getLsbD_xor, getLsbD_signBit]
  exact Bool.xor_comm ..

theorem fopFn_fsgn : (fopFn .fsgn a b).getLsbD i = if i = 31 then b.getLsbD i else a.getLsbD i := by
  simp only [fopFn, BitVec.getLsbD_or, getLsbD_magnitude inside, getLsbD_sign]
  by_cases sign : i = 31 <;> simp [sign]

end

/-! ### NaN operands (R62) -/

/-- The encodings of NaN: all exponent bits set, and a fraction. -/
def IsNanWord (v : Elem) : Prop := v.extractLsb' 23 8 = 0xFF ∧ v.extractLsb' 0 23 ≠ 0

theorem isNanWord_iff (v : Elem) : IsNanWord v ↔ 0x7F800000 < v.toNat % 2 ^ 31 := by
  have lt := v.isLt
  simp only [IsNanWord, ← BitVec.toNat_inj, ne_eq, BitVec.extractLsb'_toNat, Nat.shiftRight_eq_div_pow, BitVec.ofNat_eq_ofNat,
    BitVec.toNat_ofNat]
  omega

theorem dyadic_ne_nan (neg : Bool) (m : Nat) (e : Int) : Ex.dyadic neg m e ≠ .nan := by
  unfold Ex.dyadic
  split <;> nofun

/-- The encodings of NaN of a format lie above its largest finite value, and are not its infinity (R59, R60). -/
theorem floatVal_nan_iff {sp : FloatSpec} {bits : Nat} : floatVal sp bits = .nan ↔
    sp.top < bits % 2 ^ (sp.width - 1) ∧ (sp.hasInf && bits % 2 ^ (sp.width - 1) == sp.top + 1) = false := by
  unfold floatVal
  dsimp only
  by_cases above : sp.top < bits % 2 ^ (sp.width - 1)
  · rw [if_pos above]
    cases sp.hasInf && bits % 2 ^ (sp.width - 1) == sp.top + 1 <;> simp [above]
  · rw [if_neg above]
    refine iff_of_false ?_ fun h => above h.1
    split <;> exact dyadic_ne_nan _ _ _

theorem val32_nan_iff (v : Elem) : val32 v = .nan ↔ IsNanWord v := by
  rw [isNanWord_iff]
  refine floatVal_nan_iff.trans ?_
  simp only [fp32, Bool.true_and, beq_eq_false_iff_ne, Nat.add_one_sub_one]
  omega

theorem round32_nan : round32 .nan = nan32 := rfl

theorem exMul_nan {x y : Ex} (h : x = .nan ∨ y = .nan) : Ex.mul x y = .nan := by
  rcases h with rfl | rfl
  · rfl
  · cases x <;> rfl

theorem exAdd_nan {rd : Bool} {x y : Ex} (h : x = .nan ∨ y = .nan) : Ex.add rd x y = .nan := by
  rcases h with rfl | rfl
  · rfl
  · cases x <;> rfl

theorem cmp_nan {x y : Ex} (h : x = .nan ∨ y = .nan) : x.cmp y = none := by
  rcases h with rfl | rfl
  · rfl
  · cases x <;> rfl

theorem fcmpRel_nan {x y : Ex} (h : x = .nan ∨ y = .nan) (cc : FcmpCc) : fcmpRel cc x y = decide (cc = .fun_) := by
  have either : (x.isNan || y.isNan) = true := by rcases h with rfl | rfl <;> simp [Ex.isNan]
  cases cc <;> simp [fcmpRel, Ex.eqv, Ex.lt, Ex.le, cmp_nan h, either]

theorem fma32_nan {neg : Bool} {a b c : Elem} (h : (val32 a = .nan ∨ val32 b = .nan) ∨ val32 c = .nan) :
    fma32 neg a b c = nan32 := by
  have sum : (if neg then (Ex.mul (val32 a) (val32 b)).neg else Ex.mul (val32 a) (val32 b)) = .nan ∨ val32 c = .nan := by
    rcases h with product | addend
    · exact .inl (by rw [exMul_nan product]; cases neg <;> rfl)
    · exact .inr addend
  exact (congrArg round32 (exAdd_nan sum)).trans round32_nan

/-- Each arithmetic function of `fop` gives the one NaN when an operand is NaN (R62, R197). -/
theorem fopFn_nan {a b : Elem} (h : val32 a = .nan ∨ val32 b = .nan) :
    ∀ fn ∈ [FopFn.fadd, .fsub, .fmul, .fmin, .fmax], fopFn fn a b = nan32 := by
  have either : ((val32 a).isNan || (val32 b).isNan) = true := by rcases h with h | h <;> simp [h, Ex.isNan]
  have negated : val32 a = .nan ∨ (val32 b).neg = .nan := h.imp_right fun nan => by rw [nan]; rfl
  have sum : fopFn .fadd a b = nan32 := (congrArg round32 (exAdd_nan h)).trans round32_nan
  have difference : fopFn .fsub a b = nan32 := (congrArg round32 (exAdd_nan negated)).trans round32_nan
  have product : fopFn .fmul a b = nan32 := (congrArg round32 (exMul_nan h)).trans round32_nan
  have lesser : fopFn .fmin a b = nan32 := (congrArg round32 (if_pos either)).trans round32_nan
  have greater : fopFn .fmax a b = nan32 := (congrArg round32 (if_pos either)).trans round32_nan
  simp [sum, difference, product, lesser, greater]

theorem cmp_self {x : Ex} (h : x ≠ .nan) : x.cmp x = some .eq := by
  cases x with
  | nan => exact absurd rfl h
  | inf s => simp [Ex.cmp]
  | fin s p q => simp [Ex.cmp]

theorem fcmpRel_self {x : Ex} (h : x ≠ .nan) : fcmpRel .feq x x = true ∧ fcmpRel .fle x x = true ∧
    fcmpRel .flt x x = false ∧ fcmpRel .fun_ x x = false := by
  have number : x.isNan = false := by
    cases x with
    | nan => exact absurd rfl h
    | inf s => rfl
    | fin s p q => rfl
  refine ⟨?_, ?_, ?_, ?_⟩ <;> simp [fcmpRel, Ex.eqv, Ex.le, Ex.lt, cmp_self h, number]

/-- Settles O27: the bits and values of each integer function; a NaN operand makes each exact value NaN, which rounds to
the one NaN and is unordered. -/
theorem elementFunctionsCompute : Obligations.ElementFunctionsCompute := by
  unfold Obligations.ElementFunctionsCompute
  refine ⟨fun a b => ⟨BitVec.toNat_add .., ?_, BitVec.toNat_mul .., iopFn_mulh a b, iopFn_min a b, iopFn_max a b,
    iopFn_minz a b, iopFn_maxz a b, fun i inside => ⟨BitVec.getLsbD_and, BitVec.getLsbD_or, BitVec.getLsbD_xor,
      iopFn_shl inside, ?_, iopFn_sar inside, fopFn_fabs inside, fopFn_fneg, fopFn_fsgn inside⟩⟩, fun a b c neg => ?_⟩
  · rw [Nat.add_comm]
    exact BitVec.toNat_sub ..
  · simp only [iopFn, BitVec.getLsbD_ushiftRight, shiftAmount, Nat.add_comm]
  · intro nan
    have isNan (v : Elem) : nan v ↔ val32 v = .nan := (val32_nan_iff v).symm
    simp only [isNan]
    exact ⟨fun h => ⟨fopFn_nan h, fun c => fma32_nan (.inl h), fcmpRel_nan h⟩, fun h => fma32_nan (.inr h), fcmpRel_self⟩

end Sys2Proof.Machine
end

section
/-! A `vmov` that goes on uses its windows as they stood at its issue (R213), and O30. -/

namespace Sys2Proof.Machine

/-! ### A word between two of its chunks -/

/-- The image of 65 INT8 elements of stride 1: two chunks of a `vmov`. -/
def bytes65 (base : Nat) : BitVec 64 := BitVec.ofNat 64 (base + 65 * 2 ^ 23 + 1 * 2 ^ 39 + 4 * 2 ^ 55)

/-- C stands between the chunks of a `vmov` of w1 to w3: its progress holds both images, and the registers hold none. -/
def midMove : State := { State.reset with
  turn := .issue .c
  task := { Task.reset with
    c := { Ctx.reset with run := .running, pc := 8, inFlight := true, popped := some 8 }
    vprog := some ⟨8, 0, false, 64, 0, 0, [], 6, (Vector.replicate 32 0).set 1 (bytes65 0) |>.set 3 (bytes65 0x80)⟩ } }

def plainHdr : Hdr := ⟨0, false, false, false, false, 0, false⟩

theorem midMove_acts : Acts .c plainHdr [wId 3, wId 1] midMove where
  turn := rfl
  checker := rfl
  ready := by decide
  guard := by decide
  tokens := by decide
  room := by decide
  operands := by decide

/-- The address that C goes on at after an outcome. -/
def nextOf (o : Out) : Pc := match o with
  | .next t => (ctxOf t .c).pc
  | _ => 0

/-- The step copies the element that is left, and the word finishes. -/
theorem midMove_finishes : nextOf (exec (.vmov plainHdr 3 1) midMove) = 16 := by
  decide +kernel

/-- A fault of an unconfigured w3 leaves C at the word. -/
theorem midMove_trapped : nextOf (.next (takeTrap .c ⟨.window, 3 * 2 ^ 16, winOf midMove 3⟩ (ctxOf midMove .c).pc midMove)) = 8 := by
  decide +kernel

/-- Refutes O30: the statement does not exclude a `vmov` that has issued and stands between two chunks. That word uses its
windows as they stood at its issue (R213), so in `midMove`, where register w3 holds no image any more, it finishes and
raises no WINDOW fault. -/
theorem not_windowsHoldElementsOrFault : ¬ Obligations.WindowsHoldElementsOrFault := by
  unfold Obligations.WindowsHoldElementsOrFault
  rintro ⟨-, checks⟩
  obtain ⟨unconfigured, -⟩ := checks midMove plainHdr 3 1 midMove_acts
  have faults := unconfigured (by decide)
  have stays := midMove_finishes.symm.trans ((congrArg nextOf faults).trans midMove_trapped)
  exact absurd stays (by decide)

end Sys2Proof.Machine
end

section
/-! What the operations of furrows and of the matrix engine write: joining, popping, filling a slot, retiring, completing a
command. -/

namespace Sys2Proof.Machine

/-! ### What stays outside the engine -/

/-- Memory, and the registers and the places of every stream, are the same in s and t. -/
structure Outside (s t : State) : Prop where
  mem : t.mem = s.mem
  ctx : ∀ y, (ctxOf t y).regs = (ctxOf s y).regs ∧ (ctxOf t y).pc = (ctxOf s y).pc

theorem Outside.trans {s t u : State} (h : Outside s t) (g : Outside t u) : Outside s u :=
  ⟨g.mem.trans h.mem, fun y => ⟨(g.ctx y).1.trans (h.ctx y).1, (g.ctx y).2.trans (h.ctx y).2⟩⟩

/-- A machine with the same contexts and the same memory. -/
theorem Outside.of_ctx {s t : State} (mem : t.mem = s.mem) (ctx : ∀ y, ctxOf t y = ctxOf s y) : Outside s t :=
  ⟨mem, fun y => by rw [ctx y]; exact ⟨rfl, rfl⟩⟩

/-! ### Furrows -/

theorem furrows_get_set (l : Vector Furrow 16) (f g : Fin 16) (v : Furrow) :
    (l.set f v)[g] = if g = f then v else l[g] := by
  simp only [Fin.getElem_fin, Vector.getElem_set, Fin.ext_iff, eq_comm]

/-- The furrow after k of its tiles left at the head. -/
def Furrow.popped (v : Furrow) (k : Nat) : Furrow := { v with head := (v.head + k) % v.cap, present := v.present - k }

theorem Furrow.popped_zero {v : Furrow} (h : v.head < v.cap) : v.popped 0 = v := by
  simp [Furrow.popped, Nat.mod_eq_of_lt h]

theorem Furrow.popped_succ (v : Furrow) (k : Nat) : (v.popped 1).popped k = v.popped (k + 1) := by
  simp [Furrow.popped, Nat.add_assoc, Nat.add_comm 1 k, Nat.sub_sub]

/-- The records and the issued accesses, which a tile takes with it when it leaves. -/
def setTiles (side : List HRec) (accesses : List Access) (s : State) : State :=
  { s with side := side, task.accesses := accesses }

theorem setFur_self (f : Fin 16) (s : State) : setFur f (furOf s f) s = s := by
  unfold setFur furOf
  rw [Fin.getElem_fin, Vector.set_getElem_self]

theorem setFur_setFur (f : Fin 16) (v w : Furrow) (side : List HRec) (accesses : List Access) (s : State) :
    setFur f w (setTiles side accesses (setFur f v s)) = setFur f w (setTiles side accesses s) := by
  simp [setFur, setTiles]

theorem furOf_setFur (f g : Fin 16) (v : Furrow) (s : State) :
    furOf (setFur f v s) g = if g = f then v else furOf s g := furrows_get_set ..

theorem popTile_present {f : Fin 16} {s : State} (h : 0 < (furOf s f).present) :
    popTile f s = setLive f (furOf s f).head false (setFur f ((furOf s f).popped 1) s) := by
  unfold popTile
  dsimp only
  rw [if_neg (Nat.ne_of_gt h)]
  rfl

/-- The records with the one of a slot of a furrow made live or not. -/
def liveAt (f : Fin 16) (slot : Nat) (b : Bool) (side : List HRec) : List HRec :=
  side.map (fun r => if r.owner == some (f, slot) then { r with live := b } else r)

theorem setLive_eq (f : Fin 16) (slot : Nat) (b : Bool) (s : State) :
    setLive f slot b s = setTiles (liveAt f slot b s.side) s.task.accesses s := rfl

theorem setTiles_setFur (f : Fin 16) (v : Furrow) (side : List HRec) (accesses : List Access) (s : State) :
    setTiles side accesses (setFur f v s) = setFur f v (setTiles side accesses s) := rfl

theorem takeTile_writes {f : Fin 16} {s : State} (h : 0 < (furOf s f).present) : ∃ side accesses,
    takeTile f s = setFur f ((furOf s f).popped 1) (setTiles side accesses s) := by
  refine ⟨liveAt f (furOf s f).head false s.side, dropClaim f s.task.accesses, ?_⟩
  have unclaimed : takeTile f s = popTile f (setTiles s.side (dropClaim f s.task.accesses) s) := rfl
  have furrow : furOf (setTiles s.side (dropClaim f s.task.accesses) s) f = furOf s f := rfl
  rw [unclaimed, popTile_present (by rwa [furrow]), setLive_eq, setTiles_setFur, furrow]
  rfl

theorem popTiles_writes {f : Fin 16} (k : Nat) {s : State} (h : (furOf s f).head < (furOf s f).cap)
    (le : k ≤ (furOf s f).present) : ∃ side accesses,
    popTiles f k s = setFur f ((furOf s f).popped k) (setTiles side accesses s) := by
  induction k generalizing s with
  | zero =>
    refine ⟨s.side, s.task.accesses, ?_⟩
    rw [Furrow.popped_zero h]
    exact (setFur_self f s).symm
  | succ k ih =>
    obtain ⟨side, accesses, taken⟩ := takeTile_writes (Nat.lt_of_lt_of_le k.succ_pos le)
    have first : furOf (takeTile f s) f = (furOf s f).popped 1 := by
      rw [taken, furOf_setFur, if_pos rfl]
    obtain ⟨side', accesses', rest⟩ := ih (s := takeTile f s)
      (by rw [first]; exact Nat.mod_lt _ (Nat.lt_of_le_of_lt (Nat.zero_le _) h))
      (by rw [first]; exact Nat.le_sub_of_add_le le)
    refine ⟨side', accesses', rest.trans ?_⟩
    rw [first, Furrow.popped_succ, taken, setFur_setFur]
    rfl

theorem furrowSet_writes (f : Fin 16) (g : FurCfg) (s : State) : ∃ side accesses,
    furrowSet f g s = setFur f ⟨g.fmt, g.cap, g.base, 0, 0, []⟩ (setTiles side accesses s) :=
  ⟨(furrowSet f g s).side, (clearClaims f s).task.accesses, rfl⟩

/-! ### Commands -/

theorem dropCmd_writes (k : Nat) (s : State) : ∃ cmds, dropCmd k s = modMx (fun x => { x with cmds := cmds }) s := by
  unfold dropCmd
  split
  · exact ⟨s.task.mx.cmds, rfl⟩
  · exact ⟨_, rfl⟩

theorem cmds_dropCmd {k : Nat} {s : State} (h : k < s.task.mx.cmds.length) :
    (dropCmd k s).task.mx.cmds.length = s.task.mx.cmds.length - 1 := by
  unfold dropCmd
  rw [mxOf, List.getElem?_eq_getElem h]
  simp [modMx, List.length_eraseIdx, h]

theorem outside_of_budgetView {s t : State} (h : t.budgetView = s.budgetView) : Outside s t :=
  ⟨congrArg (fun v => v.1.cycle.mem) h,
    fun y => ⟨congrFun (congrArg (fun v => v.1.regs) h) y, congrFun (congrArg (fun v => v.1.pc) h) y⟩⟩

theorem outside_modMx (f : Mx → Mx) (s : State) : Outside s (modMx f s) := .of_ctx rfl fun y => by cases y <;> rfl

theorem outside_setFur (f : Fin 16) (v : Furrow) (side : List HRec) (accesses : List Access) (s : State) :
    Outside s (setFur f v (setTiles side accesses s)) := .of_ctx rfl fun y => by cases y <;> rfl

/-- What the engine's own steps leave when they report an event. -/
def SameEngine (s t : State) : Prop :=
  t.budgetView = s.budgetView ∧ t.task.mx = s.task.mx ∧ t.task.furrows = s.task.furrows

theorem sameEngine_portPut (p : Port) (w : Word) (s : State) : SameEngine s (portPut p w s) :=
  ⟨budgetView_portPut .., rfl, rfl⟩

theorem sameEngine_lost {s t : State} (h : SameEngine s t) (lost : Vector Nat 9) :
    SameEngine s { t with task.lost := lost } := h

/-- An event changes the ports and the waits of K for events. -/
theorem sameEngine_mEvent (kind acc : Nat) (tag : BitVec 11) (step : Nat) (s : State) :
    SameEngine s (mEvent kind acc tag step s) := by
  unfold mEvent portEvent
  dsimp only
  split
  · exact sameEngine_lost (sameEngine_portPut ..) _
  · exact sameEngine_lost (t := s) ⟨rfl, rfl, rfl⟩ _

end Sys2Proof.Machine
end

section
/-! One step of the matrix engine for each of its commands, and O37. -/

namespace Sys2Proof.Machine

/-! ### Accumulators -/

theorem accAt_setAccs {l : List Nat} (inside : ∀ i ∈ l, i < 16) (c : Nat → Acc) (m : Mx) (i : Nat) :
    accAt (l.foldl (fun y i => setAcc i (c i) y) m) i = if i ∈ l then c i else accAt m i := by
  induction l generalizing m with
  | nil => rfl
  | cons a l ih =>
    obtain ⟨first, rest⟩ := List.forall_mem_cons.mp inside
    rw [List.foldl_cons, ih rest, accAt_setAcc first]
    by_cases later : i ∈ l
    · simp [later]
    · by_cases same : i = a
      · simp [same]
      · simp [later, same]

theorem mem_maskAccs {mask : BitVec 16} {i : Nat} : i ∈ maskAccs mask ↔ i < 16 ∧ mask.getLsbD i = true := by
  simp [maskAccs]

/-- An element of an accumulator after one block (R73, R255). -/
theorem accumulate_vals {a b : List (List Int)} {sa sb : List Elem} {c : Acc} (full : c.vals.length = 1024) {mi ni : Nat}
    (row : mi < 32) (col : ni < 32) : (accumulate a sa b sb c).vals[32 * mi + ni]? = some
      (add32 (c.vals.getD (32 * mi + ni) 0)
        (mul32 (round32 (Ex.ofInt (dotInt (a.getD mi []) (b.getD ni [])))) (mul32 (sa.getD mi 0) (sb.getD ni 0)))) := by
  have below : 32 * mi + ni < 1024 := by omega
  have quot : (32 * mi + ni) / 32 = mi := by omega
  have rem : (32 * mi + ni) % 32 = ni := by omega
  simp [accumulate, below, full, quot, rem]

/-! ### A tile command in quad mode -/

theorem mPlaces_quad {m : MStep} (quad : m.mode = .quad) : mPlaces m = [(0, 0, 4 * m.sub + m.q)] := by
  unfold mPlaces
  rw [quad]

/-- An operand tile that a command reads without an error: no byte is bad, and its record, if any, passes. -/
def cleanTile (s : State) (f : Fin 16) (slot : Nat) : Prop :=
  anyBad s.spadBad (slotPhys s (furOf s f) slot) (slotBytes (furOf s f).fmt) = false ∧
    ∀ r, slotRec s f slot = some r → checkTile .correct r s = (HStatus.zero, s)

theorem operandCheck_clean {s : State} {f : Fin 16} {pos acc step : Nat} {tag : BitVec 11}
    (clean : cleanTile s f (slotNum (furOf s f) pos)) : operandCheck f pos acc tag step s = (s, none) := by
  obtain ⟨bytes, passes⟩ := clean
  unfold operandCheck
  dsimp only
  rw [bytes, if_neg Bool.false_ne_true]
  split
  · rfl
  · next r found =>
    rw [passes r found]
    rfl

section
variable {m : MStep} {s : State} {tag : BitVec 11} {step : Nat}

theorem stepCheck_clean (quad : m.mode = .quad) (readable : (accAt s.task.mx (4 * m.sub + m.q)).lost = false ∨
    (accAt s.task.mx (4 * m.sub + m.q)).poison = true) (cleanA : cleanTile s m.af (slotNum (furOf s m.af) m.i))
    (cleanB : cleanTile s m.bf (slotNum (furOf s m.bf) m.j)) : stepCheck tag step m s = (s, none) := by
  have reads : (mAccs m).any (fun i => (accAt (mxOf s) i).lost && !(accAt (mxOf s) i).poison) = false := by
    rcases readable with h | h <;> simp [mAccs, mPlaces_quad quad, mxOf, h]
  unfold stepCheck
  rw [reads, if_neg Bool.false_ne_true, mPlaces_quad quad]
  simp [operandsCheck, operandCheck_clean cleanA, operandCheck_clean cleanB]

/-- What a block of the tiles at a command's positions adds to an accumulator. -/
def blockAdded (m : MStep) (s : State) (c : Acc) : Acc :=
  accumulate (tileInts s (furOf s m.af) (slotNum (furOf s m.af) m.i))
    (tileScales s (furOf s m.af) (slotNum (furOf s m.af) m.i) (m.sm.getLsbD 0))
    (tileInts s (furOf s m.bf) (slotNum (furOf s m.bf) m.j))
    (tileScales s (furOf s m.bf) (slotNum (furOf s m.bf) m.j) (m.sm.getLsbD 1)) c

theorem stepArith_quad (quad : m.mode = .quad) : stepArith m s =
    modMx (fun x => setAcc (4 * m.sub + m.q) (blockAdded m s (accAt x (4 * m.sub + m.q))) x) s := by
  unfold stepArith
  rw [mPlaces_quad quad]
  rfl

theorem runStep_quad (quad : m.mode = .quad) (checked : stepCheck tag step m s = (s, none)) : runStep tag step m s =
    keep (.step m tag step)
      (modMx (fun x => setAcc (4 * m.sub + m.q) (blockAdded m s (accAt x (4 * m.sub + m.q))) x) s) := by
  unfold runStep
  rw [checked]
  dsimp only
  rw [stepArith_quad quad]

end

/-! ### A marker without errors -/

theorem accsFix_clean {l : List Nat} {s : State} (h : ∀ i ∈ l, accFix i s = (false, s)) : accsFix l s = ([], s) := by
  induction l with
  | nil => rfl
  | cons i l ih =>
    obtain ⟨first, rest⟩ := List.forall_mem_cons.mp h
    simp [accsFix, first, ih rest]

theorem markerCheck_clean {tag : BitVec 11} {also : List Nat} {s : State} (kept : s.task.mx.kept = [])
    (h : ∀ i ∈ also, accFix i s = (false, s)) : markerCheck tag also s = s := by
  have written : ∀ i ∈ writtenAccs also (mxOf s), accFix i s = (false, s) := by
    intro i mem
    refine h i ?_
    simpa [writtenAccs, mxOf, kept] using (List.mem_filter.mp mem).2
  unfold markerCheck
  dsimp only
  rw [accsFix_clean written]
  rfl

/-- The engine after a marker that finds nothing to correct and has no pop that waits. -/
def markedMx (m : Mx) : Mx := { m with shadow := m.acc, pops := [], kept := [], since := sinceMarker m.cmds }

theorem marker_clean {tag : BitVec 11} {also : List Nat} {s : State} {f : Fin 16} {n : Nat} (kept : s.task.mx.kept = [])
    (h : ∀ i ∈ also, accFix i s = (false, s)) (pops : s.task.mx.pops = [(f, n)]) (le : n ≤ (furOf s f).present)
    (head : (furOf s f).head < (furOf s f).cap) : ∃ side accesses, marker tag also s =
      setMx (markedMx s.task.mx) (setFur f ((furOf s f).popped n) (setTiles side accesses s)) := by
  let u : State := setMx { s.task.mx with shadow := s.task.mx.acc, pops := [] } s
  have same : furOf u f = furOf s f := rfl
  obtain ⟨side, accesses, popped⟩ := popTiles_writes n (s := u) (by rwa [same]) (by rwa [same])
  have retired : retire (f, n) u = popTiles f n u := by
    have all : Nat.min n (furOf u f).present = n := Nat.min_eq_left (by rwa [same])
    unfold retire
    simp only [all, Nat.lt_irrefl, if_false]
  refine ⟨side, accesses, ?_⟩
  unfold marker
  rw [markerCheck_clean kept h]
  have waiting : (mxOf (modMx (fun x => { x with shadow := x.acc }) s)).pops = [(f, n)] := pops
  dsimp only
  rw [waiting]
  have start : modMx (fun x => { x with pops := [] }) (modMx (fun x => { x with shadow := x.acc }) s) = u := rfl
  have apart (m : Mx) (v : Furrow) : setFur f v (setTiles side accesses (setMx m s)) =
      setMx m (setFur f v (setTiles side accesses s)) := rfl
  rw [List.foldl_cons, List.foldl_nil, start, retired, popped, same, apart]
  rfl

/-! ### A drain without errors -/

theorem roundDraw_exact {ch : Fin 5} {f : Fmt} {r : Rnd} (h : r.mode ≠ .sr) (x : Ex) (s : State) :
    roundDraw ch f r x s = (roundTo f r 0 x, s) := by
  unfold roundDraw
  rw [if_neg (by simp [roundDraws, h])]

/-- The bytes of a tile whose elements round without noise. -/
def roundedBytes (f : Fmt) (r : Rnd) (l : List Elem) : List Byte :=
  l.flatMap (fun e => leBytes (fmtBits f / 8) (roundTo f r 0 (val32 e)))

theorem drainBytes_exact {f : Fmt} {r : Rnd} (h : r.mode ≠ .sr) (l : List Elem) (s : State) :
    drainBytes f r l s = (roundedBytes f r l, s) := by
  induction l with
  | nil => rfl
  | cons x l ih => simp [drainBytes, roundDraw_exact h, ih, roundedBytes]

theorem poisonBytes_clean (phys k : Nat) (s : State) : poisonBytes phys (List.replicate k false) s = s := by
  induction k generalizing phys with
  | zero => rfl
  | succ k ih => exact ih _

theorem drainCheck_clean {a : Nat} {tag : BitVec 11} {s : State} (h : (accAt s.task.mx a).lost = false) :
    drainCheck a tag s = s := by
  unfold drainCheck
  rw [mxOf, h]
  rfl

theorem spadWrite_setFur (a : Nat) (bytes : List Byte) (f : Fin 16) (v : Furrow) (s : State) :
    spadWrite a bytes (setFur f v s) = setFur f v (spadWrite a bytes s) := by
  unfold spadWrite
  split <;> rfl

theorem genSlot_writes (f : Fin 16) (slot : Nat) (s : State) : ∃ side, genSlot f slot s = setTiles side s.task.accesses s :=
  ⟨(genSlot f slot s).side, rfl⟩

theorem setFur_setFur_same (f : Fin 16) (v w : Furrow) (s : State) : setFur f w (setFur f v s) = setFur f w s := by
  simp [setFur]

theorem joinSlots_one {f : Fin 16} {v : Furrow} {s : State} (fill : v.fill = [true]) : ∃ side accesses,
    joinSlots f (setFur f v s) = setFur f { v with present := v.present + 1, fill := [] } (setTiles side accesses s) := by
  have furrow : furOf (setFur f v s) f = v := (furOf_setFur ..).trans (if_pos rfl)
  refine ⟨liveAt f (slotNum v v.present) true s.side, s.task.accesses, ?_⟩
  unfold joinSlots
  rw [furrow, fill]
  simp only [List.length_singleton, joinLoop, furrow, fill]
  rw [setFur_setFur_same]
  rfl

section
variable {f : Fin 16} {bytes : List Byte} {k : Nat} {s : State}

/-- The only slot that a furrow has reserved is filled, and joins it. -/
theorem fillSlot_reserved {v : Furrow} (fill : v.fill = [false]) : ∃ side accesses,
    fillSlot f (slotNum v v.present) bytes (List.replicate k false) (setFur f v s) =
      setFur f { v with present := v.present + 1, fill := [] } (setTiles side accesses
        (spadWrite (slotPhys s v (slotNum v v.present)) bytes s)) := by
  have furrow : furOf (setFur f v s) f = v := (furOf_setFur ..).trans (if_pos rfl)
  have place : slotPhys (setFur f v s) v (slotNum v v.present) = slotPhys s v (slotNum v v.present) := rfl
  have first : (slotNum v v.present + v.cap - slotNum v v.present) % v.cap = 0 := by
    rw [Nat.add_sub_cancel_left, Nat.mod_self]
  unfold fillSlot
  rw [furrow]
  dsimp only
  rw [first, fill, place, poisonBytes_clean, spadWrite_setFur]
  obtain ⟨side, generated⟩ := genSlot_writes f (slotNum v v.present)
    (setFur f v (spadWrite (slotPhys s v (slotNum v v.present)) bytes s))
  rw [generated, setTiles_setFur, setFur_setFur_same]
  obtain ⟨side', accesses', joined⟩ := joinSlots_one (f := f) (v := { v with fill := [false].set 0 true })
    (s := setTiles side _ (spadWrite (slotPhys s v (slotNum v v.present)) bytes s)) rfl
  exact ⟨side', accesses', joined⟩

theorem fillSlot_reserveSlot (fill : (furOf s f).fill = []) : ∃ side accesses,
    fillSlot f (slotNum (furOf s f) (furOf s f).present) bytes (List.replicate k false) (reserveSlot f s) =
      setFur f { furOf s f with present := (furOf s f).present + 1 } (setTiles side accesses
        (spadWrite (slotPhys s (furOf s f) (slotNum (furOf s f) (furOf s f).present)) bytes s)) := by
  have reserved : reserveSlot f s = setFur f { furOf s f with fill := [false] } s := by
    unfold reserveSlot
    dsimp only
    rw [fill]
    rfl
  have joined : ({ furOf s f with present := (furOf s f).present + 1 } : Furrow) =
      { furOf s f with present := (furOf s f).present + 1, fill := [] } := by rw [← fill]
  rw [reserved, joined]
  exact fillSlot_reserved (v := { furOf s f with fill := [false] }) rfl

end

/-! ### The steps, clause by clause -/

/-- What the statement calls outside the engine. -/
def outsideOf (s t : State) : Prop := t.mem = s.mem ∧ (∀ y ∈ [Issuer.kTask, .kFirm, .l, .c, .s],
  (ctxOf t y).regs = (ctxOf s y).regs ∧ (ctxOf t y).pc = (ctxOf s y).pc)

theorem Outside.of {s t : State} (h : Outside s t) : outsideOf s t := ⟨h.mem, fun y _ => h.ctx y⟩

/-- A command leaves the list of commands and changes nothing else. -/
theorem dropCmd_keeps (k : Nat) (s : State) : Outside s (dropCmd k s) ∧ (dropCmd k s).spad = s.spad ∧
    (dropCmd k s).task.furrows = s.task.furrows ∧ ∃ cmds, (dropCmd k s).task.mx = { s.task.mx with cmds := cmds } := by
  obtain ⟨cmds, dropped⟩ := dropCmd_writes k s
  rw [dropped]
  exact ⟨outside_modMx .., rfl, rfl, cmds, rfl⟩

theorem outside_keep (k : Kept) (s : State) : Outside s (keep k s) := outside_modMx ..
theorem outside_putCmd (k : Nat) (c : MCmd) (s : State) : Outside s (putCmd k c s) := outside_modMx ..
theorem outside_zeroAccs (l : List Nat) (s : State) : Outside s (zeroAccs l s) := .of_ctx rfl fun y => by cases y <;> rfl

/-- The commands and the retained window do not reach beyond the engine, nor its accumulators. -/
theorem putCmd_keep_keeps (j : Nat) (c : MCmd) (k : Kept) (f : Mx → Mx) (s : State) :
    Outside s (putCmd j c (keep k (modMx f s))) ∧ (putCmd j c (keep k (modMx f s))).spad = s.spad ∧
      (putCmd j c (keep k (modMx f s))).task.furrows = s.task.furrows ∧
      (putCmd j c (keep k (modMx f s))).task.mx.acc = (f s.task.mx).acc :=
  ⟨((outside_modMx ..).trans (outside_keep ..)).trans (outside_putCmd ..), by simp [putCmd, keep, modMx],
    by simp [putCmd, keep, modMx], by simp [putCmd, keep, modMx]⟩

theorem accAt_congr {m m' : Mx} (h : m'.acc = m.acc) (i : Nat) : accAt m' i = accAt m i := by
  unfold accAt
  rw [h]

/-- One furrow takes a new value, and nothing else of the engine changes but its list of commands. -/
def WroteFur (f : Fin 16) (v : Furrow) (s t : State) : Prop := outsideOf s t ∧ t.spad = s.spad ∧ t.task.mx.acc = s.task.mx.acc ∧
  furOf t f = v ∧ ∀ k, k ≠ f → furOf t k = furOf s k

theorem furOf_congr {s t : State} (h : t.task.furrows = s.task.furrows) (f : Fin 16) : furOf t f = furOf s f := by
  unfold furOf
  rw [h]

theorem dropCmd_setFur (j : Nat) (f : Fin 16) (v : Furrow) (side : List HRec) (accesses : List Access) (s : State) :
    WroteFur f v s (dropCmd j (setFur f v (setTiles side accesses s))) := by
  obtain ⟨outside, spad, furrows, cmds, mx⟩ := dropCmd_keeps j (setFur f v (setTiles side accesses s))
  refine ⟨((outside_setFur ..).trans outside).of, spad, by rw [mx]; rfl, ?_, fun k other => ?_⟩
  · rw [furOf_congr furrows, furOf_setFur, if_pos rfl]
  · rw [furOf_congr furrows, furOf_setFur, if_neg other]
    rfl

section
variable {s : State} {j : Nat} {c : MCmd} (owed : owedPick s = none) (pick : matrixPick s = some (j, c))
include owed pick

theorem matrixStep_zero {mask : BitVec 16} (op : c.op = .zero mask) : Answers .matrixStep s (fun t => outsideOf s t ∧
    t.spad = s.spad ∧ t.task.furrows = s.task.furrows ∧ ∀ i, i < 16 → accAt t.task.mx i =
      if mask.getLsbD i then ⟨List.replicate 1024 0, List.replicate 32 ⟨0, 0⟩, List.replicate 32 ⟨0, 0⟩, false, s.accWorn.contains i⟩
      else accAt s.task.mx i) := by
  obtain ⟨outside, spad, furrows, cmds, mx⟩ := dropCmd_keeps j (keep (.zero (maskAccs mask)) (zeroAccs (maskAccs mask) s))
  refine ⟨dropCmd j (keep (.zero (maskAccs mask)) (zeroAccs (maskAccs mask) s)), ?_,
    (((outside_zeroAccs ..).trans (outside_keep ..)).trans outside).of, spad, furrows, fun i inside => ?_⟩
  · simp only [exec_matrixStep, execMatrixStep, owed, pick, op]
  · have accs := accAt_setAccs (l := maskAccs mask) (fun i mem => (mem_maskAccs.mp mem).1)
      (fun i => { Acc.zero with lost := s.accWorn.contains i }) s.task.mx i
    rw [mx]
    refine accs.trans ?_
    simp only [mem_maskAccs, inside, true_and]
    rfl

theorem matrixStep_cfg {mode : Fusion} {r : Rnd} (op : c.op = .cfg mode r) : Answers .matrixStep s (fun t => outsideOf s t ∧
    t.spad = s.spad ∧ t.task.furrows = s.task.furrows ∧
      t.task.mx.acc = s.task.mx.acc ∧ t.task.mx.mode = mode ∧ t.task.mx.rnd = r) := by
  obtain ⟨outside, spad, furrows, cmds, mx⟩ := dropCmd_keeps j (modMx (fun x => { x with mode := mode, rnd := r }) s)
  refine ⟨dropCmd j (modMx (fun x => { x with mode := mode, rnd := r }) s), ?_, ((outside_modMx ..).trans outside).of,
    spad, furrows, ?_⟩
  · simp only [exec_matrixStep, execMatrixStep, owed, pick, op]
  · rw [mx]
    exact ⟨rfl, rfl, rfl⟩

theorem matrixStep_fset {f : Fin 16} {g : FurCfg} (op : c.op = .fset f g) :
    Answers .matrixStep s (WroteFur f ⟨g.fmt, g.cap, g.base, 0, 0, []⟩ s) := by
  obtain ⟨side, accesses, set⟩ := furrowSet_writes f g s
  refine ⟨dropCmd j (furrowSet f g s), ?_, ?_⟩
  · simp only [exec_matrixStep, execMatrixStep, owed, pick, op]
  · rw [set]
    exact dropCmd_setFur ..

theorem matrixStep_fdrop {f : Fin 16} {n : Nat} (op : c.op = .fdrop f n) (head : (furOf s f).head < (furOf s f).cap) :
    Answers .matrixStep s (WroteFur f ((furOf s f).popped (if n = 0 then (furOf s f).present else min n (furOf s f).present)) s) := by
  have le : (if n = 0 then (furOf s f).present else min n (furOf s f).present) ≤ (furOf s f).present := by
    split
    · exact Nat.le_refl _
    · exact Nat.min_le_right ..
  obtain ⟨side, accesses, popped⟩ := popTiles_writes _ head le
  refine ⟨dropCmd j (popTiles f (if n = 0 then (furOf s f).present else min n (furOf s f).present) s), ?_, ?_⟩
  · simp only [exec_matrixStep, execMatrixStep, owed, pick, op]
  · rw [popped]
    exact dropCmd_setFur ..

theorem matrixStep_nest {ne : Nest} (op : c.op = .nest ne) (running : ne.fin = none) (standing : ne.z = false)
    (quad : ne.base.mode = .quad) {e : MStep} (step : nestStep ne.base ne.levels ne.next = e) {q : Nat} (acc : 4 * e.sub + e.q = q)
    (inside : q < 16) (full : (accAt s.task.mx q).vals.length = 1024)
    (readable : (accAt s.task.mx q).lost = false ∨ (accAt s.task.mx q).poison = true)
    (cleanA : cleanTile s e.af (slotNum (furOf s e.af) e.i)) (cleanB : cleanTile s e.bf (slotNum (furOf s e.bf) e.j)) :
    Answers .matrixStep s (fun t => outsideOf s t ∧ t.spad = s.spad ∧ t.task.furrows = s.task.furrows ∧
      (∀ i, i ≠ q → accAt t.task.mx i = accAt s.task.mx i) ∧ accAt t.task.mx q = blockAdded e s (accAt s.task.mx q)) := by
  have mode : e.mode = .quad := by rw [← step]; exact quad
  subst acc
  have ran := runStep_quad mode (stepCheck_clean (tag := c.tag) (step := ne.next) mode readable cleanA cleanB)
  refine ⟨nestRun j c ne s, ?_, ?_⟩
  · simp only [exec_matrixStep, execMatrixStep, owed, pick, op, running, Option.isSome_none, Bool.false_eq_true, if_false]
  · unfold nestRun
    simp only [step, standing, Bool.false_eq_true, if_false, List.isEmpty_nil, if_true]
    rw [ran]
    obtain ⟨outside, spad, furrows, accs⟩ := putCmd_keep_keeps j _ (.step e c.tag ne.next) _ s
    refine ⟨outside.of, spad, furrows, fun i other => ?_, ?_⟩
    · exact (accAt_congr accs i).trans ((accAt_setAcc inside ..).trans (if_neg other))
    · exact (accAt_congr accs _).trans ((accAt_setAcc inside ..).trans (if_pos rfl))

end

theorem marker_pops {s : State} {c : MCmd} {cs : List MCmd} {also : List Nat} {f : Fin 16} {n : Nat}
    (pick : markerPick s = true) (cmds : s.task.mx.cmds = c :: cs) (op : c.op = .marker also)
    (passes : ∀ i ∈ also, accFix i s = (false, s)) (kept : s.task.mx.kept = []) (pops : s.task.mx.pops = [(f, n)])
    (le : n ≤ (furOf s f).present) (head : (furOf s f).head < (furOf s f).cap) :
    Answers .marker s (fun t => WroteFur f ((furOf s f).popped n) s t ∧ t.task.mx.shadow = s.task.mx.acc ∧
      t.task.mx.pops = [] ∧ t.task.mx.cmds.length = cs.length) := by
  obtain ⟨side, accesses, marked⟩ := marker_clean (tag := c.tag) kept passes pops le head
  let u : State := setFur f ((furOf s f).popped n) (setTiles side accesses s)
  have length : (setMx (markedMx s.task.mx) u).task.mx.cmds.length = cs.length + 1 := by
    simp [markedMx, cmds]
  obtain ⟨outside, spad, furrows, cmds', mx⟩ := dropCmd_keeps 0 (setMx (markedMx s.task.mx) u)
  have engine : Outside u (setMx (markedMx s.task.mx) u) := outside_modMx (fun _ => markedMx s.task.mx) u
  refine ⟨dropCmd 0 (setMx (markedMx s.task.mx) u), ?_,
    ⟨(((outside_setFur ..).trans engine).trans outside).of, ?_, ?_, ?_, fun g other => ?_⟩, ?_, ?_, ?_⟩
  · rw [exec_marker, execMarker, pick, mxOf, cmds]
    simp only [Bool.not_true, Bool.false_eq_true, if_false, op, marked, u]
  · rw [spad, setMx_spad_keeps]
    rfl
  · rw [mx]; rfl
  · rw [furOf_congr furrows]
    exact (furOf_setFur ..).trans (if_pos rfl)
  · rw [furOf_congr furrows]
    exact (furOf_setFur ..).trans (if_neg other)
  · rw [mx]; rfl
  · rw [mx]; rfl
  · rw [cmds_dropCmd (by rw [length]; exact Nat.succ_pos _), length, Nat.add_sub_cancel]

/-- A tile of a drain has joined its furrow; the bytes of its slot are `bytes`. -/
def JoinedTile (f : Fin 16) (bytes : List Byte) (s t : State) : Prop := outsideOf s t ∧ t.task.mx.acc = s.task.mx.acc ∧
  t.spad = memWrite s.spad (slotPhys s (furOf s f) (slotNum (furOf s f) (furOf s f).present)) bytes ∧
  furOf t f = { furOf s f with present := (furOf s f).present + 1 } ∧ ∀ g, g ≠ f → furOf t g = furOf s g

theorem JoinedTile.event {f : Fin 16} {bytes : List Byte} {s t : State} (h : JoinedTile f bytes s t) (ev : Bool) (lo : Nat)
    (tag : BitVec 11) : JoinedTile f bytes s (if ev then mEvent 0 lo tag 0 t else t) := by
  cases ev with
  | false => exact h
  | true =>
    obtain ⟨⟨mem, streams⟩, acc, spad, joined, others⟩ := h
    obtain ⟨view, mx, furrows⟩ := sameEngine_mEvent 0 lo tag 0 t
    have outside := outside_of_budgetView view
    refine ⟨⟨outside.mem.trans mem, fun y mem => ?_⟩, by rw [if_pos rfl, mx, acc], ?_, ?_, fun g other => ?_⟩
    · obtain ⟨regs, pc⟩ := streams y mem
      exact ⟨(outside.ctx y).1.trans regs, (outside.ctx y).2.trans pc⟩
    · exact (congrArg (fun v => v.1.spad) view).trans spad
    · exact (furOf_congr furrows f).trans joined
    · exact (furOf_congr furrows g).trans (others g other)

theorem dropCmd_joined {f : Fin 16} {bytes : List Byte} (j : Nat) (side : List HRec) (accesses : List Access) (s : State) :
    JoinedTile f bytes s (dropCmd j (setFur f { furOf s f with present := (furOf s f).present + 1 } (setTiles side accesses
      (spadWrite (slotPhys s (furOf s f) (slotNum (furOf s f) (furOf s f).present)) bytes s)))) := by
  obtain ⟨wasOutside, wasSpad, acc, joined, others⟩ := dropCmd_setFur j f { furOf s f with present := (furOf s f).present + 1 }
    side accesses (spadWrite (slotPhys s (furOf s f) (slotNum (furOf s f) (furOf s f).present)) bytes s)
  obtain ⟨_, _, _, _, written⟩ :=
    spadWrite_writes (slotPhys s (furOf s f) (slotNum (furOf s f) (furOf s f).present)) bytes s
  obtain ⟨mem, streams⟩ := wasOutside
  refine ⟨⟨mem.trans (mem_spadWrite ..), fun y mem => ?_⟩, acc.trans (by rw [written]), wasSpad.trans (spad_spadWrite ..),
    joined, fun g other => (others g other).trans (furOf_congr (by rw [written]) g)⟩
  rw [← ctxOf_spadWrite s (slotPhys s (furOf s f) (slotNum (furOf s f) (furOf s f).present)) bytes y]
  exact streams y mem

theorem drain_joins {s : State} {j : Nat} {c : MCmd} {f : Fin 16} {a lo : Nat} (pick : drainPick s = some (j, c))
    (op : c.op = .drain f [a] lo) (fill : (furOf s f).fill = []) (sound : (accAt s.task.mx a).poison = false)
    (readable : (accAt s.task.mx a).lost = false) (exact : s.task.mx.rnd.mode ≠ .sr) :
    Answers .drain s (JoinedTile f (roundedBytes (furOf s f).fmt s.task.mx.rnd (accAt s.task.mx a).vals) s) := by
  have slot : nextSlot (furOf s f) = slotNum (furOf s f) (furOf s f).present := by simp [nextSlot, fill]
  obtain ⟨side, accesses, filled⟩ := fillSlot_reserveSlot (f := f) (s := s) fill
    (bytes := roundedBytes (furOf s f).fmt s.task.mx.rnd (accAt s.task.mx a).vals)
    (k := (roundedBytes (furOf s f).fmt s.task.mx.rnd (accAt s.task.mx a).vals).length)
  refine ⟨_, ?_, (dropCmd_joined j side accesses s).event c.ev lo c.tag⟩
  simp only [exec_drain, execDrain, pick, op, drainCheck_clean readable, drainBytes_exact exact, mxOf, sound, slot, filled,
    List.isEmpty_nil, if_true]

/-- Settles O37: each command's step is the update that its equation says, of accumulators, of one furrow, or of one slot;
every other part of the machine is outside the engine. -/
theorem matrixEngineSteps : Obligations.MatrixEngineSteps := by
  unfold Obligations.MatrixEngineSteps
  intro s j c f n
  refine ⟨fun owed pick => ?_, fun pick => ?_, fun pick => ?_, fun mask owed pick op => matrixStep_zero owed pick op,
    fun mode r owed pick op => matrixStep_cfg owed pick op, fun g owed pick op => matrixStep_fset owed pick op,
    fun owed pick op head => ?_, fun ne owed pick op running standing quad => ?_, ?_, ?_⟩
  · simp only [exec_matrixStep, execMatrixStep, owed, pick]
  · simp [exec_marker, execMarker, pick]
  · simp only [exec_drain, execDrain, pick]
  · exact matrixStep_fdrop owed pick op head
  · intro e va vb sla slb q old inside full readable clean
    obtain ⟨t, stepped, outside, spad, furrows, others, added⟩ := matrixStep_nest owed pick op running standing quad rfl rfl
      inside full readable (clean (e.af, sla) (by simp)) (clean (e.bf, slb) (by simp))
    refine ⟨t, stepped, outside, spad, furrows, others, fun mi ni row col => ?_⟩
    rw [added]
    exact accumulate_vals full row col
  · intro cs also pick cmds op passes kept pops le head
    obtain ⟨t, stepped, ⟨outside, spad, acc, popped, others⟩, shadow, retired, length⟩ :=
      marker_pops pick cmds op passes kept pops le head
    exact ⟨t, stepped, outside, spad, acc, shadow, retired, length, popped, others⟩
  · intro a lo wf pick op fill sound readable exact p bytes
    obtain ⟨t, stepped, outside, acc, spad, joined, others⟩ := drain_joins pick op fill sound readable exact
    obtain ⟨-, spadWf, -⟩ := wf
    refine ⟨t, stepped, outside, acc, ?_, fun y away => ?_, joined, others⟩
    · rw [spad]
      exact memRead_memWrite_same spadWf ..
    · rw [spad]
      exact memGet_memWrite_outside (a := p) (bs := bytes) spadWf (by omega)

end Sys2Proof.Machine
end

section
/-! An `hgen` that goes on uses its windows as they stood at its issue (R213), and O38. -/

namespace Sys2Proof.Machine

/-! ### An `hgen` between two of its tiles -/

/-- The image of two tiles of MXINT8 at offset 0, and of their 64 scale words. -/
def twoTiles : BitVec 64 := BitVec.ofNat 64 (2048 * 2 ^ 23 + 1 * 2 ^ 39 + 3 * 2 ^ 55)
def twoScales : BitVec 64 := BitVec.ofNat 64 (0x8000 + 64 * 2 ^ 23 + 1 * 2 ^ 39 + 9 * 2 ^ 55)

def genWindows : Vector (BitVec 64) 32 := (Vector.replicate 32 0).set 1 twoTiles |>.set 2 twoScales

/-- C has registered both tiles of w1 and generated the first one's checksums, with the scales of w2, when a soft error
strikes register w1 and makes its format INT8 (R120). -/
def midGen : State := registerTile 0 .mxint8 (some 0x8000) (registerTile 1024 .mxint8 (some 0x8080) { State.reset with
  turn := .issue .c
  now := 40
  task := { Task.reset with
    c := { Ctx.reset with run := .running, pc := 8, inFlight := true, popped := some 8, bad := [(wId 1, false)] }
    w := genWindows.set 1 (twoTiles ^^^ (7 : BitVec 64) <<< 55)
    vprog := some ⟨8, 0, false, 1, 0, 0, [], 76, genWindows⟩ } })

theorem midGen_acts : Acts .c plainHdr [] midGen where
  turn := rfl
  checker := rfl
  ready := by decide
  guard := by decide
  tokens := by decide
  room := by decide
  operands := by decide

/-- The step generates the checksums of the tile that is left, and the word finishes. -/
theorem midGen_finishes : nextOf (exec (.hgen plainHdr 1 2) midGen) = 16 := by
  decide +kernel

/-- A fault of the word leaves C at it. -/
theorem midGen_trapped : nextOf (.next (takeTrap .c ⟨.reservedField, 27 * 2 ^ 16, fetchWord midGen.task.c.imem midGen.task.c.pc⟩
    midGen.task.c.pc midGen)) = 8 := by
  decide +kernel

/-- Refutes O38: the clause of RESERVEDFIELD does not exclude an `hgen` that has issued and stands between two tiles. That
word takes the format of its window as it stood at its issue (R213), so in `midGen`, where register w1 holds another format
by then, its scale window w2 is no field that must be zero, and it finishes. -/
theorem not_headlandWordsAct : ¬ Obligations.HeadlandWordsAct := by
  unfold Obligations.HeadlandWordsAct
  intro holds
  obtain ⟨-, -, -, reserved, -⟩ := holds .c midGen midGen plainHdr 1 0 ⟨1, 0, 0⟩ ⟨1, 0, 0⟩ default [] false (.win 1) 0
    (.win ⟨1, 0, 0⟩ []) 0 .zero 0
  have faults := reserved 2 (by decide) (by decide) rfl midGen_acts
  have stays := midGen_finishes.symm.trans ((congrArg nextOf faults).trans midGen_trapped)
  exact absurd stays (by decide)

end Sys2Proof.Machine
end
